-- ==== Sys2Proof/Word.lean ====
section
/-!
DEFINITION. The word types of the device and nothing else: a byte, a 32-bit register value or instruction word, a
64-bit pair value, and a mask of the 32 threads of a group (R2, R22, R78).
-/

namespace Sys2Proof

/-- A byte of memory (R2). -/
abbrev Byte := BitVec 8

/-- A 32-bit register value or instruction word (R2, R71). -/
abbrev Word := BitVec 32

/-- A 64-bit value: an even–odd register pair, an address or a descriptor word (R2). -/
abbrev DWord := BitVec 64

/-- One bit for each of the 32 threads of a group, thread t at bit t (R22). -/
abbrev Mask := BitVec 32

end Sys2Proof
end

