-- ==== Sys2Proof/Syntax.lean ====
section
/-!
DEFINITION. The instructions and events of the device: one constructor per row of spec/opcode_table.json.

The first 238 rows are instruction words (R71 to R88 give the formats); a field is as wide as the bits the row gives
it, so a pair operand is held as the six upper bits of its register number and a quad operand as the five upper bits
(R73). The remaining 68 rows are events of the device's engines, of time and of the hosts; they have no encoding, and
their operands (which group, which queue, which port) are the model's own way of saying where the event falls.
Operand letters: u is the uniform assertion (R76), e ends the run (R29), k, l and m are the k bits of a, b and d (R74).
-/

namespace Sys2Proof

inductive Instr where
  /-- ILLEGAL (R87): Executing the all-zero word, or 0x0000_0001, raises ILLEGAL-OPCODE. -/
  | illegal (e : Bool)
  /-- ADD (R105): Adds a and b for each element of each active thread, fitted under R104. -/
  | add (u : Bool) (d a b : BitVec 7) (k l e : Bool)
  /-- SUB (R105): Subtracts b from a for each element, fitted under R104. -/
  | sub (u : Bool) (d a b : BitVec 7) (k l e : Bool)
  /-- MUL (R105): Multiplies a by b for each element, fitted under R104. -/
  | mul (u : Bool) (d a b : BitVec 7) (k l e : Bool)
  /-- MULHI (R105): Writes the upper w bits of the 2w-bit product of a and b. -/
  | mulhi (u : Bool) (d a b : BitVec 7) (k l e : Bool)
  /-- MAD (R105): Writes d + a·b for each element, fitted under R104. -/
  | mad (u : Bool) (d a b : BitVec 7) (k l e : Bool)
  /-- MIN (R105): Writes the smaller of a and b for each element. -/
  | min (u : Bool) (d a b : BitVec 7) (k l e : Bool)
  /-- MAX (R105): Writes the larger of a and b for each element. -/
  | max (u : Bool) (d a b : BitVec 7) (k l e : Bool)
  /-- AND (R106): Writes the bitwise AND of a and b. -/
  | and (u : Bool) (d a b : BitVec 7) (k l e : Bool)
  /-- OR (R106): Writes the bitwise OR of a and b. -/
  | or (u : Bool) (d a b : BitVec 7) (k l e : Bool)
  /-- XOR (R106): Writes the bitwise XOR of a and b. -/
  | xor (u : Bool) (d a b : BitVec 7) (k l e : Bool)
  /-- SHL (R107): Shifts each element of a left by the amount in b, fitted under R104. -/
  | shl (u : Bool) (d a b : BitVec 7) (k l e : Bool)
  /-- SHR (R107): Shifts each element of a logically right by the amount in b. -/
  | shr (u : Bool) (d a b : BitVec 7) (k l e : Bool)
  /-- SAR (R107): Shifts each element of a arithmetically right by the amount in b. -/
  | sar (u : Bool) (d a b : BitVec 7) (k l e : Bool)
  /-- ROT (R107): Rotates each element of a left by b mod w. -/
  | rot (u : Bool) (d a b : BitVec 7) (k l e : Bool)
  /-- ADDC (R108): Adds a, b and the carry predicate named by mode.sp, writing the sum and the carry-out. -/
  | addc (u : Bool) (d a b : BitVec 7) (k l e : Bool)
  /-- SUBC (R108): Subtracts b and the borrow predicate from a, writing the difference and the borrow-out. -/
  | subc (u : Bool) (d a b : BitVec 7) (k l e : Bool)
  /-- SEL (R111): Writes a where the predicate named by mode.sp is true, and b elsewhere. -/
  | sel (u : Bool) (d a b : BitVec 7) (k l e : Bool)
  /-- LEA (R112): Forms the 64-bit address a + (b << mode.lsc) modulo 2^64. -/
  | lea (u : Bool) (d a : BitVec 6) (b : BitVec 7) (k l e : Bool)
  /-- BFE (R109): Extracts the bit field of a given by position and length in b. -/
  | bfe (u : Bool) (d a b : BitVec 7) (k l e : Bool)
  /-- BFI (R109): Inserts the low bits of a into d at the field given by b. -/
  | bfi (u : Bool) (d a b : BitVec 7) (k l e : Bool)
  /-- PRMT (R110): Rebuilds d byte by byte from a pool of the bytes of a and old d under control b. -/
  | prmt (u : Bool) (d a b : BitVec 7) (k l e : Bool)
  /-- CMP (R113): Writes to a predicate the truth of condition cc between a and b. -/
  | cmp (u : Bool) (c p : BitVec 3) (a b : BitVec 7) (k l e : Bool)
  /-- IOP_NEG (R114): Writes −a, fitted under R104. -/
  | iopNeg (u : Bool) (d a : BitVec 7) (k e : Bool)
  /-- IOP_ABS (R114): Writes |a|, fitted under R104. -/
  | iopAbs (u : Bool) (d a : BitVec 7) (k e : Bool)
  /-- IOP_NOT (R114): Writes the bitwise complement of a. -/
  | iopNot (u : Bool) (d a : BitVec 7) (k e : Bool)
  /-- IOP_POPC (R114): Writes the number of 1 bits in a. -/
  | iopPopc (u : Bool) (d a : BitVec 7) (k e : Bool)
  /-- IOP_CLZ (R114): Writes the count of leading zero bits of a. -/
  | iopClz (u : Bool) (d a : BitVec 7) (k e : Bool)
  /-- IOP_CTZ (R114): Writes the count of trailing zero bits of a. -/
  | iopCtz (u : Bool) (d a : BitVec 7) (k e : Bool)
  /-- IOP_BREV (R114): Writes a with its bits reversed. -/
  | iopBrev (u : Bool) (d a : BitVec 7) (k e : Bool)
  /-- IOP_SX8 (R114): Writes a[7:0] sign-extended to 32 bits. -/
  | iopSx8 (u : Bool) (d a : BitVec 7) (k e : Bool)
  /-- IOP_SX16 (R114): Writes a[15:0] sign-extended to 32 bits. -/
  | iopSx16 (u : Bool) (d a : BitVec 7) (k e : Bool)
  /-- IOP_ZX8 (R114): Writes a[7:0] zero-extended. -/
  | iopZx8 (u : Bool) (d a : BitVec 7) (k e : Bool)
  /-- IOP_ZX16 (R114): Writes a[15:0] zero-extended. -/
  | iopZx16 (u : Bool) (d a : BitVec 7) (k e : Bool)
  /-- IOP_MOV (R114): Copies a into d. -/
  | iopMov (u : Bool) (d a : BitVec 7) (k e : Bool)
  /-- IOP_MOVP (R114): Writes 1 or 0 into d from a predicate. -/
  | iopMovp (u : Bool) (d : BitVec 7) (a : BitVec 3) (e : Bool)
  /-- IOP_PMOV (R114): Sets a predicate to whether a is non-zero. -/
  | iopPmov (u : Bool) (d : BitVec 3) (a : BitVec 7) (k e : Bool)
  /-- PLOG (R115): Sets a predicate from a 4-bit truth table of two predicates. -/
  | plog (u : Bool) (d a b : BitVec 3) (t : BitVec 4) (e : Bool)
  /-- MOVI (R116): Writes the sign-extended 16-bit immediate to d. -/
  | movi (u : Bool) (d : BitVec 7) (i : BitVec 16) (e : Bool)
  /-- MOVHI (R116): Writes the immediate into d[31:16], keeping d[15:0]. -/
  | movhi (u : Bool) (d : BitVec 7) (i : BitVec 16) (e : Bool)
  /-- ADDI (R105): Adds the sign-extended immediate to d. -/
  | addi (u : Bool) (d : BitVec 7) (i : BitVec 16) (e : Bool)
  /-- ANDI (R106): ANDs d with the zero-extended immediate. -/
  | andi (u : Bool) (d : BitVec 7) (i : BitVec 16) (e : Bool)
  /-- ORI (R106): ORs d with the zero-extended immediate. -/
  | ori (u : Bool) (d : BitVec 7) (i : BitVec 16) (e : Bool)
  /-- XORI (R106): XORs d with the zero-extended immediate. -/
  | xori (u : Bool) (d : BitVec 7) (i : BitVec 16) (e : Bool)
  /-- MULI (R105): Multiplies d by the sign-extended immediate. -/
  | muli (u : Bool) (d : BitVec 7) (i : BitVec 16) (e : Bool)
  /-- SHLI (R107): Shifts a left by the unsigned imm7. -/
  | shli (u : Bool) (d a i : BitVec 7) (k e : Bool)
  /-- SHRI (R107): Shifts a logically right by imm7. -/
  | shri (u : Bool) (d a i : BitVec 7) (k e : Bool)
  /-- SARI (R107): Shifts a arithmetically right by imm7. -/
  | sari (u : Bool) (d a i : BitVec 7) (k e : Bool)
  /-- CMPI (R113): Writes to a predicate the truth of condition cc between a and imm7. -/
  | cmpi (u : Bool) (c p : BitVec 3) (a i : BitVec 7) (k e : Bool)
  /-- LEAI (R112): Forms a + (sext(imm7) << mode.lsc) modulo 2^64. -/
  | leai (u : Bool) (d a : BitVec 6) (i : BitVec 7) (k e : Bool)
  /-- BRA (R118): Branches every active thread to the PC-relative target. -/
  | bra (u : Bool) (i : BitVec 16)
  /-- BRT (R118): Branches the active threads whose predicate is true, possibly diverging the split. -/
  | brt (u : Bool) (p : BitVec 3) (i : BitVec 16)
  /-- BRF (R118): Branches the active threads whose predicate is false, possibly diverging the split. -/
  | brf (u : Bool) (p : BitVec 3) (i : BitVec 16)
  /-- CALL (R118): Writes the return address to a pair and branches to the relative target. -/
  | call (u : Bool) (c : BitVec 6) (i : BitVec 16)
  /-- JMP (R119): Transfers each active thread to the address in its pair. -/
  | jmp (u : Bool) (a : BitVec 6) (k : Bool)
  /-- RET (R119): Transfers each active thread to the address in its pair, hinting a return. -/
  | ret (u : Bool) (a : BitVec 6) (k : Bool)
  /-- EXIT (R122): Harvests and ends the active threads, freeing the split or group when empty. -/
  | exit
  /-- TRAP (R123): Raises TRAP-INSTR with the active mask and code n. -/
  | trap (n : BitVec 8)
  /-- BRK (R124): With debug enabled, stops the split and writes a BREAKPOINT record. -/
  | brk (t : BitVec 16)
  /-- MODE_LO (R126): Writes the low half of the split's mode register, refusing reserved values. -/
  | modeLo (i : BitVec 16) (e : Bool)
  /-- MODE_HI (R126): Writes the high half of the split's mode register, refusing reserved values. -/
  | modeHi (i : BitVec 16) (e : Bool)
  /-- FMT_LO (R127): Writes the low half of the split's format register. -/
  | fmtLo (i : BitVec 16) (e : Bool)
  /-- FMT_HI (R127): Writes the high half of the split's format register, refusing a non-zero [31:25]. -/
  | fmtHi (i : BitVec 16) (e : Bool)
  /-- REGION (R129): Begins a new idempotent region: waits for translation, harvests and sets the region start. -/
  | region (e : Bool)
  /-- FADD (R134): Adds a and b, rounded once under the mode register. -/
  | fadd (u : Bool) (d a b : BitVec 7) (k l e : Bool)
  /-- FSUB (R134): Subtracts b from a, rounded once. -/
  | fsub (u : Bool) (d a b : BitVec 7) (k l e : Bool)
  /-- FMUL (R134): Multiplies a by b, rounded once. -/
  | fmul (u : Bool) (d a b : BitVec 7) (k l e : Bool)
  /-- FFMA (R134): Writes d + a·b rounded once. -/
  | ffma (u : Bool) (d a b : BitVec 7) (k l e : Bool)
  /-- FMIN (R136): Writes the smaller of a and b exactly. -/
  | fmin (u : Bool) (d a b : BitVec 7) (k l e : Bool)
  /-- FMAX (R136): Writes the larger of a and b exactly. -/
  | fmax (u : Bool) (d a b : BitVec 7) (k l e : Bool)
  /-- FCMP (R137): Writes to a predicate the floating-point comparison of a and b. -/
  | fcmp (u : Bool) (c p : BitVec 3) (a b : BitVec 7) (k l e : Bool)
  /-- FOP_FNEG (R138): Writes a with its sign inverted. -/
  | fopFneg (u : Bool) (d a : BitVec 7) (k e : Bool)
  /-- FOP_FABS (R138): Writes a with its sign cleared. -/
  | fopFabs (u : Bool) (d a : BitVec 7) (k e : Bool)
  /-- FOP_FRCP (R138): Writes 1/a rounded once. -/
  | fopFrcp (u : Bool) (d a : BitVec 7) (k e : Bool)
  /-- FOP_FRSQ (R138): Writes 1/√a rounded once. -/
  | fopFrsq (u : Bool) (d a : BitVec 7) (k e : Bool)
  /-- FOP_FSQRT (R138): Writes √a rounded once. -/
  | fopFsqrt (u : Bool) (d a : BitVec 7) (k e : Bool)
  /-- FOP_FEX2 (R138): Writes 2^a rounded once. -/
  | fopFex2 (u : Bool) (d a : BitVec 7) (k e : Bool)
  /-- FOP_FLG2 (R138): Writes log2(a) rounded once. -/
  | fopFlg2 (u : Bool) (d a : BitVec 7) (k e : Bool)
  /-- FOP_FSIN (R138): Writes sin(π·a) rounded once. -/
  | fopFsin (u : Bool) (d a : BitVec 7) (k e : Bool)
  /-- FOP_FCOS (R138): Writes cos(π·a) rounded once. -/
  | fopFcos (u : Bool) (d a : BitVec 7) (k e : Bool)
  /-- FOP_FTANH (R138): Writes tanh(a) rounded once. -/
  | fopFtanh (u : Bool) (d a : BitVec 7) (k e : Bool)
  /-- FOP_FRNI (R138): Rounds a to an integral value, nearest-even. -/
  | fopFrni (u : Bool) (d a : BitVec 7) (k e : Bool)
  /-- FOP_FRZI (R138): Rounds a to an integral value toward zero. -/
  | fopFrzi (u : Bool) (d a : BitVec 7) (k e : Bool)
  /-- FOP_FRPI (R138): Rounds a to an integral value toward +∞. -/
  | fopFrpi (u : Bool) (d a : BitVec 7) (k e : Bool)
  /-- FOP_FRMI (R138): Rounds a to an integral value toward −∞. -/
  | fopFrmi (u : Bool) (d a : BitVec 7) (k e : Bool)
  /-- FOP_FFRACT (R138): Writes a − floor(a), below 1. -/
  | fopFfract (u : Bool) (d a : BitVec 7) (k e : Bool)
  /-- FOP_FCLASS (R140): Writes the class code of a. -/
  | fopFclass (u : Bool) (d a : BitVec 7) (k e : Bool)
  /-- CVT (R141): Converts each element from mode.ty to the destination type in sub. -/
  | cvt (u : Bool) (d a : BitVec 7) (t : BitVec 4) (k e : Bool)
  /-- PACK (R143): Narrows two registers into one packed register of type mode.ty. -/
  | pack (u : Bool) (d a b : BitVec 7) (k l e : Bool)
  /-- UNPK_TAG (R144): Writes a container's tag and failing-quarter mask without checking. -/
  | unpkTag (u : Bool) (d : BitVec 7) (a : BitVec 5) (k e : Bool)
  /-- UNPK (R144): Checks a container and writes one chunk of its elements, converted exactly. -/
  | unpk (u : Bool) (d : BitVec 7) (a : BitVec 5) (n : BitVec 3) (c : BitVec 4) (k e : Bool)
  /-- FSCL (R134): Writes a·2^n with n from b, rounded once. -/
  | fscl (u : Bool) (d a b : BitVec 7) (k l e : Bool)
  /-- FDOT2 (R134): Writes d + a0·b0 + a1·b1 rounded once into f32. -/
  | fdot2 (u : Bool) (d a b : BitVec 7) (k l e : Bool)
  /-- FFMS (R134): Writes a·b − d rounded once. -/
  | ffms (u : Bool) (d a b : BitVec 7) (k l e : Bool)
  /-- RSIZE (R145): Shrinks or grows the group's register allotment, suspending a grow until the pool allows. -/
  | rsize (i : BitVec 7) (e : Bool)
  /-- FE_EMPTY (R148): Waits for outstanding producers, then marks a register empty. -/
  | feEmpty (d : BitVec 7) (e : Bool)
  /-- FE_FILL (R148): Writes a into d and marks d full. -/
  | feFill (d a : BitVec 7) (k e : Bool)
  /-- FE_TEST (R148): Writes to a predicate whether a register is full, without stalling. -/
  | feTest (d : BitVec 3) (a : BitVec 7) (e : Bool)
  /-- FE_WAIT (R148): Stalls until a register is full, or raises EMPTY-READ. -/
  | feWait (a : BitVec 7) (k e : Bool)
  /-- VOTE_ALL (R159): Sets a predicate when the source predicate holds in every active thread. -/
  | voteAll (d a : BitVec 3) (e : Bool)
  /-- VOTE_ANY (R159): Sets a predicate when the source predicate holds in some active thread. -/
  | voteAny (d a : BitVec 3) (e : Bool)
  /-- VOTE_BALLOT (R159): Writes the mask of active threads whose predicate is true. -/
  | voteBallot (d : BitVec 7) (a : BitVec 3) (e : Bool)
  /-- VOTE_EQ (R159): Sets a predicate when a is equal in every active thread. -/
  | voteEq (u : Bool) (d : BitVec 3) (a : BitVec 7) (k e : Bool)
  /-- VOTE_MASK (R159): Writes the active mask. -/
  | voteMask (d : BitVec 7) (e : Bool)
  /-- SHFL (R160): Moves values between threads of a segment under the mode's shuffle mode. -/
  | shfl (u : Bool) (d a : BitVec 7) (w : BitVec 2) (v : BitVec 5) (k e : Bool)
  /-- BCAST (R161): Writes the value of a in one chosen thread to every active thread. -/
  | bcast (u : Bool) (d a b : BitVec 7) (k l e : Bool)
  /-- GRED_ADD (R162): Sums a over the active threads in index order and broadcasts the result. -/
  | gredAdd (u : Bool) (d a : BitVec 7) (k e : Bool)
  /-- GRED_MIN (R162): Takes the minimum of a over the active threads. -/
  | gredMin (u : Bool) (d a : BitVec 7) (k e : Bool)
  /-- GRED_MAX (R162): Takes the maximum of a over the active threads. -/
  | gredMax (u : Bool) (d a : BitVec 7) (k e : Bool)
  /-- GRED_AND (R162): Folds a bitwise AND over the active threads. -/
  | gredAnd (u : Bool) (d a : BitVec 7) (k e : Bool)
  /-- GRED_OR (R162): Folds a bitwise OR over the active threads. -/
  | gredOr (u : Bool) (d a : BitVec 7) (k e : Bool)
  /-- GRED_XOR (R162): Folds a bitwise XOR over the active threads. -/
  | gredXor (u : Bool) (d a : BitVec 7) (k e : Bool)
  /-- GSCAN_ADD (R330): Delivers the inclusive or exclusive running sum to each active thread. -/
  | gscanAdd (d a : BitVec 7) (x k e : Bool)
  /-- GSCAN_MIN (R330): Delivers the running minimum. -/
  | gscanMin (d a : BitVec 7) (x k e : Bool)
  /-- GSCAN_MAX (R330): Delivers the running maximum. -/
  | gscanMax (d a : BitVec 7) (x k e : Bool)
  /-- GSCAN_AND (R330): Delivers the running bitwise AND. -/
  | gscanAnd (d a : BitVec 7) (x k e : Bool)
  /-- GSCAN_OR (R330): Delivers the running bitwise OR. -/
  | gscanOr (d a : BitVec 7) (x k e : Bool)
  /-- GSCAN_XOR (R330): Delivers the running bitwise XOR. -/
  | gscanXor (d a : BitVec 7) (x k e : Bool)
  /-- GSCAN_MUL (R330): Delivers the running product. -/
  | gscanMul (d a : BitVec 7) (x k e : Bool)
  /-- GSCAN_AFF (R330): Delivers the running composition of affine maps in f32. -/
  | gscanAff (d a : BitVec 6) (x k e : Bool)
  /-- MCALL (R223): Runs a macro-store routine in place, substituting its parameter registers. -/
  | mcall (x y : BitVec 7) (q : BitVec 3) (r : BitVec 6) (e : Bool)
  /-- SREG (R163): Writes a special register's value to d. -/
  | sreg (u : Bool) (d n : BitVec 7) (e : Bool)
  /-- UTAG_KIND (R164): Writes a register's shape-tag kind code. -/
  | utagKind (d a : BitVec 7) (k e : Bool)
  /-- UTAG_STRIDE (R164): Writes a register's affine stride. -/
  | utagStride (d a : BitVec 7) (k e : Bool)
  /-- UTAG_GEN (R164): Tags a register general. -/
  | utagGen (a : BitVec 7) (k e : Bool)
  /-- UTAG_CHK (R164): Retags a register from its 32 values. -/
  | utagChk (a : BitVec 7) (k e : Bool)
  /-- UTAG_CHK64 (R164): Retags a pair from its 32 values as uniform, affine64 or general. -/
  | utagChk64 (a : BitVec 6) (k e : Bool)
  /-- LDG (R170): Loads from global memory into d as a producer. -/
  | ldg (u : Bool) (d : BitVec 7) (a : BitVec 6) (w : BitVec 3) (f : BitVec 4) (k e : Bool)
  /-- STG (R171): Stores d to global memory, held in the region. -/
  | stg (u : Bool) (d : BitVec 7) (a : BitVec 6) (w : BitVec 3) (f : BitVec 4) (k m e : Bool)
  /-- LDS (R170): Loads from own or peer scratchpad into d. -/
  | lds (u : Bool) (d a : BitVec 7) (w : BitVec 3) (f : BitVec 4) (k e : Bool)
  /-- STS (R171): Stores d to own or peer scratchpad. -/
  | sts (u : Bool) (d a : BitVec 7) (w : BitVec 3) (f : BitVec 4) (k m e : Bool)
  /-- LDP (R170): Loads from interleaved private memory into d. -/
  | ldp (u : Bool) (d : BitVec 7) (a : BitVec 6) (w : BitVec 3) (f : BitVec 4) (k e : Bool)
  /-- STP (R171): Stores d to interleaved private memory, held in the region. -/
  | stp (u : Bool) (d : BitVec 7) (a : BitVec 6) (w : BitVec 3) (f : BitVec 4) (k m e : Bool)
  /-- LDC (R170): Loads from the grid's constant block into d. -/
  | ldc (u : Bool) (d a : BitVec 7) (w : BitVec 3) (f : BitVec 4) (k e : Bool)
  /-- LDA (R188): Performs an acquire load at the level of its scope. -/
  | lda (u : Bool) (d : BitVec 7) (a : BitVec 6) (s : BitVec 3) (w k e : Bool)
  /-- LDA_POLL (R189): Suspends the split until each thread's location differs from its expectation. -/
  | ldaPoll (u : Bool) (d : BitVec 7) (a : BitVec 6) (s : BitVec 3) (w k m e : Bool)
  /-- STL (R190): Harvests, releases at its scope, and performs a release store. -/
  | stl (u : Bool) (d : BitVec 7) (a : BitVec 6) (s : BitVec 3) (w k m e : Bool)
  /-- FENCE_FULL (R210): Harvests, releases, waits for acknowledgements and acquires at its scope. -/
  | fenceFull (s : BitVec 3) (e : Bool)
  /-- FENCE_REL (R210): Harvests, releases and waits for acknowledgements at its scope. -/
  | fenceRel (s : BitVec 3) (e : Bool)
  /-- FENCE_ACQ (R210): Harvests, waits for acknowledgements and applies the acquire invalidation. -/
  | fenceAcq (s : BitVec 3) (e : Bool)
  /-- CACHE_WBL (R191): Writes back the dirty words of each thread's L1 line. -/
  | cacheWbl (u : Bool) (a : BitVec 6) (s : BitVec 3) (k e : Bool)
  /-- CACHE_INVL (R191): Writes back and drops each thread's L1 line. -/
  | cacheInvl (u : Bool) (a : BitVec 6) (k e : Bool)
  /-- CACHE_WBALL (R191): Applies the release write-backs of its scope with no store. -/
  | cacheWball (s : BitVec 3) (e : Bool)
  /-- CACHE_INVALL (R191): Applies the .die acquire invalidation with no load. -/
  | cacheInvall (e : Bool)
  /-- CACHE_SWB (R191): Writes back every dirty word of a scratchpad window. -/
  | cacheSwb (n : BitVec 2) (e : Bool)
  /-- SMAP (R178): Binds or unbinds a scratchpad window over a global range. -/
  | smap (n : BitVec 2) (a b : BitVec 6) (k l e : Bool)
  /-- PFM (R192): Requests each thread's line into a cache level, silently dropping failures. -/
  | pfm (u : Bool) (v : BitVec 2) (a : BitVec 6) (w : BitVec 3) (f : BitVec 4) (k e : Bool)
  /-- AMO_ADD (R240): Atomically adds d to each location and returns the old value. -/
  | amoAdd (u : Bool) (d a : BitVec 7) (s : BitVec 3) (t k m e : Bool)
  /-- AMO_MIN (R240): Atomically takes the minimum and returns the old value. -/
  | amoMin (u : Bool) (d a : BitVec 7) (s : BitVec 3) (t k m e : Bool)
  /-- AMO_MAX (R240): Atomically takes the maximum and returns the old value. -/
  | amoMax (u : Bool) (d a : BitVec 7) (s : BitVec 3) (t k m e : Bool)
  /-- AMO_AND (R240): Atomically ANDs and returns the old value. -/
  | amoAnd (u : Bool) (d a : BitVec 7) (s : BitVec 3) (t k m e : Bool)
  /-- AMO_OR (R240): Atomically ORs and returns the old value. -/
  | amoOr (u : Bool) (d a : BitVec 7) (s : BitVec 3) (t k m e : Bool)
  /-- AMO_XOR (R240): Atomically XORs and returns the old value. -/
  | amoXor (u : Bool) (d a : BitVec 7) (s : BitVec 3) (t k m e : Bool)
  /-- AMO_EXCH (R240): Atomically exchanges and returns the old value. -/
  | amoExch (u : Bool) (d a : BitVec 7) (s : BitVec 3) (t k m e : Bool)
  /-- AMO_INCW (R240): Atomically increments with wrap at v and returns the old value. -/
  | amoIncw (u : Bool) (d a : BitVec 7) (s : BitVec 3) (t k m e : Bool)
  /-- RED_ADD (R240): Atomically adds d to each location with release order and no return. -/
  | redAdd (u : Bool) (d a : BitVec 7) (s : BitVec 3) (t k m e : Bool)
  /-- RED_MIN (R240): Atomically takes the minimum with no return. -/
  | redMin (u : Bool) (d a : BitVec 7) (s : BitVec 3) (t k m e : Bool)
  /-- RED_MAX (R240): Atomically takes the maximum with no return. -/
  | redMax (u : Bool) (d a : BitVec 7) (s : BitVec 3) (t k m e : Bool)
  /-- RED_AND (R240): Atomically ANDs with no return. -/
  | redAnd (u : Bool) (d a : BitVec 7) (s : BitVec 3) (t k m e : Bool)
  /-- RED_OR (R240): Atomically ORs with no return. -/
  | redOr (u : Bool) (d a : BitVec 7) (s : BitVec 3) (t k m e : Bool)
  /-- RED_XOR (R240): Atomically XORs with no return. -/
  | redXor (u : Bool) (d a : BitVec 7) (s : BitVec 3) (t k m e : Bool)
  /-- CAS (R242): Atomically compares and swaps, returning the old value and a success predicate. -/
  | cas (u : Bool) (d a : BitVec 7) (s : BitVec 3) (t : Bool) (q : BitVec 3) (k m e : Bool)
  /-- TXB (R250): Begins a transaction in each active thread with status register and abort address. -/
  | txb (u : Bool) (d : BitVec 7) (a : BitVec 6) (k e : Bool)
  /-- TXE (R253): Checks conflicts, locks, validates and commits each thread's transaction at the homes. -/
  | txe (p : BitVec 3) (e : Bool)
  /-- TXA (R252): Aborts the active threads' transactions with a code, jumping to their abort addresses. -/
  | txa (n : BitVec 4) (e : Bool)
  /-- BAR_SYNC (R245): Arrives at a barrier, then waits for the phase of that arrival. -/
  | barSync (a : BitVec 7) (s : BitVec 3) (b : BitVec 4) (k e : Bool)
  /-- BAR_ARRIVE (R245): Arrives at a barrier with a release at its scope. -/
  | barArrive (a : BitVec 7) (s : BitVec 3) (b : BitVec 4) (k e : Bool)
  /-- BAR_WAIT (R245): Waits for the phase of the group's latest arrival. -/
  | barWait (s : BitVec 3) (b : BitVec 4) (e : Bool)
  /-- BAR_PEEK (R245): Tests without waiting whether the group's arrival phase has completed. -/
  | barPeek (q s : BitVec 3) (b : BitVec 4) (e : Bool)
  /-- BEXP_POST (R248): Adds a byte count to the barrier's posted count. -/
  | bexpPost (a : BitVec 7) (s : BitVec 3) (b : BitVec 4) (k e : Bool)
  /-- BEXP_ARRIVE (R248): Posts a byte count and arrives with the default count in one step. -/
  | bexpArrive (a : BitVec 7) (s : BitVec 3) (b : BitVec 4) (k e : Bool)
  /-- CPY_TILE (R269): Accepts a copy that converts each box element between tensor and tile. -/
  | cpyTile (d a : BitVec 5) (s : BitVec 4) (l r e : Bool)
  /-- CPY_GATHER (R270): Accepts a load copy whose rows come from a scratchpad index list. -/
  | cpyGather (d a : BitVec 5) (s : BitVec 4) (l r e : Bool)
  /-- CPY_SCATTER (R270): Accepts a store copy whose rows go to indexed tensor rows. -/
  | cpyScatter (d a : BitVec 5) (s : BitVec 4) (l r e : Bool)
  /-- CPY_AXPB (R272): Accepts a copy that writes α·src + β·dst rounded once. -/
  | cpyAxpb (d a : BitVec 5) (s : BitVec 4) (l r e : Bool)
  /-- CPY_RESCALE (R273): Accepts a copy that re-derives block scales. -/
  | cpyRescale (d a : BitVec 5) (s : BitVec 4) (l r e : Bool)
  /-- CPY_FILL (R275): Accepts a copy that fills the tile footprint or tensor box with a constant. -/
  | cpyFill (d a : BitVec 5) (s : BitVec 4) (l r e : Bool)
  /-- CPY_SUM (R274): Accepts a load copy that sums the box over dimension 4 in fixed order. -/
  | cpySum (d a : BitVec 5) (s : BitVec 4) (l r e : Bool)
  /-- CPYD (R281): Waits for this core's copies on the named paths, then acquires at .die. -/
  | cpyd (m : BitVec 4) (l e : Bool)
  /-- CPYR (R264): Reads and checks a layout record into a slot. -/
  | cpyr (a : BitVec 6) (s : BitVec 4) (l e : Bool)
  /-- MMA (R296): Accepts a matrix step of register A rows by pan B columns into f32 accumulators. -/
  | mma (d : BitVec 5) (a : BitVec 4) (l r e : Bool)
  /-- CMMA (R297): Accepts a complex matrix step. -/
  | cmma (d : BitVec 5) (a : BitVec 4) (l r e : Bool)
  /-- PMMA (R298): Accepts an i4 by bit-plane matrix step reading q planes. -/
  | pmma (d : BitVec 5) (a : BitVec 4) (l r e : Bool)
  /-- MXF (R301): Closes the group's accepted operations into a numbered batch. -/
  | mxf (d : BitVec 7) (e : Bool)
  /-- MXW (R302): Waits for a batch of a chosen group to retire, then acquires at .die. -/
  | mxw (a b : BitVec 7) (e : Bool)
  /-- MXR (R299): Posts one operand token for the executing group. -/
  | mxr (e : Bool)
  /-- PAN_LD (R305): Loads bytes from the pan into registers as a producer. -/
  | panLd (d a : BitVec 7) (w : BitVec 4) (e : Bool)
  /-- PAN_ST (R305): Stores register bytes into the pan once the row is full. -/
  | panSt (d a : BitVec 7) (w : BitVec 4) (e : Bool)
  /-- MXC_ZERO (R304): Accepts an operation that zeroes an accumulator tile. -/
  | mxcZero (d : BitVec 6) (l e : Bool)
  /-- MXC_RSCL (R304): Accepts an operation that rescales accumulator rows by pan factors. -/
  | mxcRscl (d : BitVec 6) (l e : Bool)
  /-- SPUT (R322): Sends a group's register vector on a sluice link after taking a credit. -/
  | sput (d a : BitVec 7) (s : BitVec 3) (z r : BitVec 2) (k m e : Bool)
  /-- SGET (R322): Takes the oldest entry of a channel from a receive buffer into d. -/
  | sget (d a : BitVec 7) (s : BitVec 3) (z r : BitVec 2) (k e : Bool)
  /-- SFWD (R323): Relays one message from an in direction to an out direction. -/
  | sfwd (a : BitVec 7) (s : BitVec 3) (i o : BitVec 2) (k e : Bool)
  /-- XSCAN_ADD (R328): Receives, adds the local value, keeps both and sends downstream. -/
  | xscanAdd (d : BitVec 6) (a : BitVec 5) (s : BitVec 3) (k e : Bool)
  /-- XSCAN_MUL (R328): Performs one chain-scan step with multiplication. -/
  | xscanMul (d : BitVec 6) (a : BitVec 5) (s : BitVec 3) (k e : Bool)
  /-- XSCAN_MIN (R328): Performs one chain-scan step with minimum. -/
  | xscanMin (d : BitVec 6) (a : BitVec 5) (s : BitVec 3) (k e : Bool)
  /-- XSCAN_MAX (R328): Performs one chain-scan step with maximum. -/
  | xscanMax (d : BitVec 6) (a : BitVec 5) (s : BitVec 3) (k e : Bool)
  /-- XSCAN_AFF (R328): Performs one chain-scan step of the affine map x·v + b. -/
  | xscanAff (d : BitVec 6) (a : BitVec 5) (s : BitVec 3) (k e : Bool)
  /-- LREC (R329): Advances an f32 linear recurrence h := a·h + b, one rounding per step. -/
  | lrec (u : Bool) (d a b : BitVec 7) (k l e : Bool)
  /-- TFEN_PTREL (R366): Releases the split's page-table stores to the walkers and waits for acknowledgement. -/
  | tfenPtrel (s : BitVec 3) (e : Bool)
  /-- TFEN_WALKACQ (R366): Drops the context's non-G entries in the split's partition and cluster TLBs. -/
  | tfenWalkacq (s : BitVec 3) (e : Bool)
  /-- TFEN_SYNC (R363): Invalidates a range and waits until every access through the retired mappings is done. -/
  | tfenSync (u : Bool) (d : BitVec 7) (a : BitVec 6) (s : BitVec 3) (k m e : Bool)
  /-- TINV_PAGE (R366): Drops TLB entries covering a page range across the scope. -/
  | tinvPage (u : Bool) (d : BitVec 7) (a : BitVec 6) (s : BitVec 3) (k m e : Bool)
  /-- TINV_CTX (R366): Drops every TLB entry of the issuing context across the scope. -/
  | tinvCtx (u : Bool) (s : BitVec 3) (e : Bool)
  /-- TPRB (R367): Probes each thread's translation without filling or faulting. -/
  | tprb (u : Bool) (d a : BitVec 6) (k e : Bool)
  /-- THINT_PROMOTE (R378): Queues promote tier hints for a range of virtual pages. -/
  | thintPromote (d : BitVec 6) (a : BitVec 7) (l e : Bool)
  /-- THINT_DEMOTE (R378): Queues demote tier hints for a range of pages. -/
  | thintDemote (d : BitVec 6) (a : BitVec 7) (l e : Bool)
  /-- THINT_PIN (R378): Queues pin tier hints for a range of pages. -/
  | thintPin (d : BitVec 6) (a : BitVec 7) (l e : Bool)
  /-- THINT_UNPIN (R378): Queues unpin tier hints for a range of pages. -/
  | thintUnpin (d : BitVec 6) (a : BitVec 7) (l e : Bool)
  /-- THINT_RELEASE (R378): Queues release tier hints for a range of pages. -/
  | thintRelease (d : BitVec 6) (a : BitVec 7) (l e : Bool)
  /-- TIER_HINT_RUN (R378): The migration engine probes the hinted pages and sends one message per run of far frames. -/
  | tierHintRun (eng : Nat)
  /-- MIGR (R380): Checks and queues a move of up to 1,024 pages to consecutive frames. -/
  | migr (d : BitVec 5) (a : BitVec 7) (l e : Bool)
  /-- MIGRATION_PAGE (R381): The engine marks, syncs, copies, remaps and publishes one page, then lands it. -/
  | migrationPage (eng : Nat)
  /-- LAUNCH (R404): Reads and checks a launch record and creates a child grid. -/
  | launch (d a : BitVec 6) (q : BitVec 3) (e : Bool)
  /-- LWAIT (R405): Waits for a grid to retire and returns its status. -/
  | lwait (d a : BitVec 7) (e : Bool)
  /-- CONT_OPEN (R338): Pushes a containment level with handler, mode and format. -/
  | contOpen (i : BitVec 16) (e : Bool)
  /-- CONT_CLOSE (R338): Waits for error status, harvests and pops a containment level. -/
  | contClose (e : Bool)
  /-- DUAL_ON (R344): Loads the shadow lane and turns paired execution on. -/
  | dualOn (e : Bool)
  /-- DUAL_OFF (R344): Turns paired execution off, keeping the shadow reserved. -/
  | dualOff (e : Bool)
  /-- CSR_RD (R424): Reads a control register into every active thread. -/
  | csrRd (d : BitVec 7) (n : BitVec 6) (e : Bool)
  /-- CSR_WR (R424): Writes a control register from the lowest active thread. -/
  | csrWr (a : BitVec 7) (n : BitVec 6) (k e : Bool)
  /-- RFE_NEXT (R426): Ends a fault routine, resuming after the attributed word with a class-0 record. -/
  | rfeNext
  /-- RFE_RETRY (R426): Ends a fault routine, resuming at the attributed word. -/
  | rfeRetry
  /-- RFE_KILL (R426): Ends a fault routine with a class-4 record and resets the context. -/
  | rfeKill
  /-- RFE_SAVE (R426): Ends a save routine with a handle, then returns the workgroup's resources. -/
  | rfeSave (s : BitVec 6)
  /-- RFE_REST (R418): Ends a restore routine, resuming once every group has executed it. -/
  | rfeRest
  /-- CTX_SGR (R428): Stores a run of the interrupted group's registers to memory. -/
  | ctxSgr (d : BitVec 7) (a : BitVec 6) (e : Bool)
  /-- CTX_LGR (R428): Loads a run of the interrupted group's registers from memory. -/
  | ctxLgr (d : BitVec 7) (a : BitVec 6) (e : Bool)
  /-- CTX_SST (R433): Stores the group state block. -/
  | ctxSst (a : BitVec 6) (e : Bool)
  /-- CTX_LST (R433): Checks and loads a group state block into the interrupted group. -/
  | ctxLst (a : BitVec 6) (e : Bool)
  /-- CTX_SWG (R433): Stores the workgroup state block. -/
  | ctxSwg (a : BitVec 6) (e : Bool)
  /-- CTX_LWG (R433): Checks and loads a workgroup state block, rebinding windows. -/
  | ctxLwg (a : BitVec 6) (e : Bool)
  /-- CTX_QUIET (R429): Waits for every engine command of the workgroup to finish, then acquires at .die. -/
  | ctxQuiet (e : Bool)
  /-- TMR_NOW (R446): Reads the issuing die's time counter. -/
  | tmrNow (u : Bool) (d : BitVec 6) (e : Bool)
  /-- TMR_FRAME (R446): Reads the current fabric frame count. -/
  | tmrFrame (u : Bool) (d : BitVec 7) (e : Bool)
  /-- TMR_TO (R446): Converts a time from the issuing die to die j. -/
  | tmrTo (u : Bool) (d a : BitVec 6) (j : BitVec 4) (k e : Bool)
  /-- TMR_FROM (R446): Converts a time from die j to the issuing die. -/
  | tmrFrom (u : Bool) (d a : BitVec 6) (j : BitVec 4) (k e : Bool)
  /-- NOP (R88): Costs one aclk of issue with no effect. -/
  | nop (e : Bool)
  /-- NOPRE_ON (R425): Opens the group's non-pre-emption window and starts its counter. -/
  | nopreOn (e : Bool)
  /-- NOPRE_OFF (R425): Closes the group's non-pre-emption window. -/
  | nopreOff (e : Bool)
  /-- NOPRE_LIMIT (R425): A window counter reaching 2^20 aclk raises NOPRE-LIMIT and ends the context. -/
  | nopreLimit (group : Nat)
  /-- LANE_ARBITRATION (R31): At a run boundary the lane picks the next ready split to issue. -/
  | laneArbitration (lane : Nat)
  /-- SPLIT_RESUME (R30): A suspended split becomes ready when its wait is satisfied. -/
  | splitResume (group split : Nat)
  /-- PRODUCER_FILL (R33): Returned values are written into a producer's destination, which becomes full. -/
  | producerFill (group id : Nat)
  /-- POLL_COMPLETION (R189): When every thread's polled value has changed, the acquire applies and d fills. -/
  | pollCompletion (group split : Nat)
  /-- WALK (R356): A walker walks the tables, sets A and fills the TLBs or raises a fault or page request. -/
  | walk (core part ctx va : Nat) (write fetch : Bool)
  /-- PAGE_WAIT_RETRY (R358): Page-waiting splits retry their walks after an invalidation or doorbell. -/
  | pageWaitRetry (group split : Nat)
  /-- L1_EVICTION (R183): An evicted L1 line writes its dirty harvested words to L2, or its held words to the hold area. -/
  | l1Eviction (core line : Nat)
  /-- WINDOW_WRITE_BACK (R180): Hardware writes a dirty window word back to its global address. -/
  | windowWriteBack (wg off : Nat)
  /-- REMOTE_WRITE_CHECK (R443): A write arriving at a remote home is checked against that die's PKR copy. -/
  | remoteWriteCheck (id : Nat)
  /-- WRITE_ACKNOWLEDGEMENT (R208): A performed or refused write is acknowledged to its source. -/
  | writeAcknowledgement (id : Nat)
  /-- LINE_FILL (R277): A copy finishes writing a scratchpad line or pan row, lowering its pending count. -/
  | lineFill (core id : Nat)
  /-- COPY_COMPLETION (R278): A copy's writes are all performed and its landing is added to its barrier. -/
  | copyCompletion (core id : Nat)
  /-- COPY_STOP (R280): A fault during a running copy stops it or substitutes values, with a record. -/
  | copyStop (core id : Nat)
  /-- MATRIX_STEP (R296): The engine starts an operation once its tokens or latch are available. -/
  | matrixStep (cluster id : Nat)
  /-- MATRIX_STEP_COMPLETE (R296): An operation's accumulator elements are written to the pan. -/
  | matrixStepComplete (cluster id : Nat)
  /-- MESSAGE_ARRIVAL (R313): A sluice message lands in the receiving core's buffer after link latency. -/
  | messageArrival (core dir : Nat)
  /-- CREDIT_RETURN (R317): A returned credit becomes usable at the sender one link latency later. -/
  | creditReturn (core dir : Nat)
  /-- SLUICE_TIMEOUT (R319): A receive wait reaching the SLTO bound raises SLUICE-TIMEOUT. -/
  | sluiceTimeout (group split : Nat)
  /-- WAIT_BUDGET (R407): Exceeding the waiting budget snapshots waits, holds the context and writes a record. -/
  | waitBudget (slot : Nat)
  /-- TRAP_WATCHDOG (R421): A trap routine running past 2^24 aclk ends the context. -/
  | trapWatchdog (group : Nat)
  /-- PREEMPTION_DISCARD (R47): A workgroup is pre-empted by discard and its state saved by the command processor. -/
  | preemptionDiscard (wg : Nat)
  /-- PREEMPTION_SAVE (R417): A workgroup is pre-empted by save, its groups entering the save routine. -/
  | preemptionSave (wg : Nat)
  /-- WORKGROUP_RESTORE (R418): A saved workgroup is placed again and its groups restored. -/
  | workgroupRestore (wg core : Nat)
  /-- IN_FIELD_TEST (R347): A due test pre-empts a cluster's groups and tests the cluster. -/
  | inFieldTest (cluster : Nat)
  /-- TEST_RUN_END (R347): After 2^21 aclk the test ends and the cores return to placement or are removed. -/
  | testRunEnd (cluster : Nat) (pass : Bool)
  /-- RESOURCE_RETURN (R28): A workgroup's scratchpad, barriers and slot return to the core. -/
  | resourceReturn (wg : Nat)
  /-- ERROR_RECORD_APPEND (R346): A record reaching its queue's home slice is appended or dropped. -/
  | errorRecordAppend (index : Nat)
  /-- MANAGEMENT_RECORD_APPEND (R451): A record is appended to the host's management queue and an MSI-X vector raised. -/
  | managementRecordAppend (index : Nat)
  /-- UNCONSUMED_ERROR (R346): A corrected or unconsumed error, such as from a scrub, produces a management record. -/
  | unconsumedError (die pa : Nat) (corrected : Bool)
  /-- HOST_QUEUE_CONSUME (R394): The command processor reads, checks and accepts or rejects the next launch record. -/
  | hostQueueConsume (queue : Nat)
  /-- GRID_READY (R401): A grid's dependences are met and its range list starts. -/
  | gridReady (grid : Nat)
  /-- RANGE_LIST_COMPLETE (R401): Every range-list page has landed or been skipped, so placement begins. -/
  | rangeListComplete (grid : Nat)
  /-- WORKGROUP_PLACEMENT (R400): A scheduler places the next workgroup of the chosen grid on a core. -/
  | workgroupPlacement (die : Nat)
  /-- PRIORITY_AGING (R399): A waiting grid's effective level rises after 2^17 fclk without placement. -/
  | priorityAging (grid : Nat)
  /-- GRID_RETIREMENT (R401): A grid retires, writing its completion signal and releasing dependents. -/
  | gridRetirement (grid : Nat)
  /-- DIE_FENCE (R402): A die's DPRES bit clears and grids not wholly placed lose it from their masks. -/
  | dieFence (die : Nat)
  /-- VOTE_DISAGREEMENT (R409): A vote of a triplicated block finds only two or no copies agreeing. -/
  | voteDisagreement (block : Nat) (two : Bool)
  /-- RESYNC_COMPLETE (R409): The reloaded copy rejoins and the block returns to agreement. -/
  | resyncComplete (block : Nat)
  /-- CONTROL_PLANE_RESTART (R409): A stopped block's copies reset and the affected contexts end. -/
  | controlPlaneRestart (block : Nat)
  /-- FRAME_BOUNDARY (R439): Every die advances the fabric frame count and new quotas take effect. -/
  | frameBoundary
  /-- TIME_CONVERSION_UPDATE (R445): Every 2^16 frames the time conversions between dies are refitted. -/
  | timeConversionUpdate
  /-- CXL_READ_TIMEOUT (R375): A CXL.mem read without data within tmo isolates its port. -/
  | cxlReadTimeout (port : Nat)
  /-- HOST_COMPLETION_TIMEOUT (R461): A host read without completion is consumed as poison. -/
  | hostCompletionTimeout (group id : Nat)
  /-- ISOLATION_END (R453): Writing 1 to XPSTS.iso ends a port's isolation when its link is active. -/
  | isolationEnd (port : Nat)
  /-- LINK_RETRAIN (R453): Setting Retrain Link in the port's configuration space retrains the CXL link. -/
  | linkRetrain (port : Nat)
  /-- CONTEXT_CREATE (R392): Reads and checks a context descriptor and makes the slot live. -/
  | contextCreate (slot : Nat)
  /-- CONTEXT_DESTROY (R392): Resets a context and frees its slot with a new generation. -/
  | contextDestroy (slot : Nat)
  /-- CONTEXT_RESUME (R392): Returns a held context to live and restores its groups. -/
  | contextResume (slot : Nat)
  /-- CONTEXT_RESET (R392): Stops every workgroup of the context without a save. -/
  | contextReset (slot : Nat)
  /-- CONTEXT_END (R392): A resetting context becomes ended once its commands complete. -/
  | contextEnd (slot : Nat)
  /-- PREEMPTION_REQUEST (R415): Writing CTXCTL.pre pre-empts the context's workgroups and holds it. -/
  | preemptionRequest (slot : Nat)
  /-- BREAKPOINT_RESUME (R415): Writing a loc to CTXDBG resumes a split stopped at brk. -/
  | breakpointResume (slot : Nat) (loc : BitVec 32)
  /-- PAGE_RESUME_DOORBELL (R391): A write to CTXPRD rings the context's page-resume doorbell. -/
  | pageResumeDoorbell (slot : Nat)
  /-- QUEUE_ENABLE (R393): Setting HQCTL.en enables a host queue and resets its indices. -/
  | queueEnable (queue : Nat) (ctl : BitVec 32)
  /-- QUEUE_DISABLE (R393): Clearing HQCTL.en stops consumption of the queue's records. -/
  | queueDisable (queue : Nat)
  /-- QUEUE_DOORBELL (R393): A write to HQTAIL rings the host queue. -/
  | queueDoorbell (queue : Nat) (tail : BitVec 32)
  /-- ATTESTATION_REPORT (R456): Writing ATTCMD.go produces a signed report at ATTDST. -/
  | attestationReport
  /-- REGISTER_WRITE (R5): A write to a register with no behaviour of its own takes effect as its Access column states. -/
  | registerWrite (off : Nat) (value : BitVec 32)
  /-- MODULE_RESET (R459): PERST# on port A, RSTCMD or a thermal trip resets everything. -/
  | moduleReset
  /-- SIGNED_BOOT (R454): The boot ROM verifies and measures the firmware and the firmware brings up the ports. -/
  | signedBoot
  /-- PORT_RESET (R459): PERST# on port B, or a hot reset or FLR, resets one port's link. -/
  | portReset (host : Nat)
  /-- THERMAL_TRIP (R457): A junction at 110 °C sets THSTS.trip and resets the module. -/
  | thermalTrip
  /-- THERMAL_THROTTLE (R457): High inlet or junction temperature lowers aclk on a die. -/
  | thermalThrottle (die : Nat)
  /-- DATA_LINK_LAYER_LINK_ACTIVE (R453): A retrained CXL port link reaches Data Link Layer Link Active, after which a write of 1 to XPSTS.iso can end the isolation. -/
  | dataLinkLayerLinkActive (port : Nat)
  /-- PORT_RESET_EXIT (R459): A host port leaves reset, so device reads of its host memory stop returning poison, writes are accepted again and its doorbells ring again. -/
  | portResetExit (host : Nat)
  deriving DecidableEq, Repr

end Sys2Proof
end

