-- ==== Sys2Proof/WellFormed.lean ====
section
/-!
DEFINITION. Which instructions are well formed: the reserved-field checks of step 4 of R90 that a word's own bits
decide beyond the fixed bits of its encoding. An instruction that breaks one raises RESERVED-FIELD when it issues.
The checks that also need the type field of the mode register are made by the meanings (R101, R73).
For an event the check says that its operands name parts that exist (R8, R9, R15, R390, R393, R410).
-/

namespace Sys2Proof

/-- A scope code lies in the range an entry accepts (R84). -/
def scopeIn (s : BitVec 3) (lo hi : Nat) : Bool := decide (lo ≤ s.toNat) && decide (s.toNat ≤ hi)

/-- A load's width code is one of 0 to 6, and its destination is aligned as that width needs (R75, R73, R169). -/
def loadWidthOk (w : BitVec 3) (d : BitVec 7) : Bool :=
  decide (w.toNat < 7) && (w != 3#3 || !d.getLsbD 0) && (w != 4#3 || d.extractLsb' 0 2 == 0#2)

/-- A store's width code is one of 0 to 4, and its data register is aligned as that width needs (R75, R73, R169). -/
def storeWidthOk (w : BitVec 3) (d : BitVec 7) : Bool :=
  decide (w.toNat < 5) && (w != 3#3 || !d.getLsbD 0) && (w != 4#3 || d.extractLsb' 0 2 == 0#2)

/-- The scopes of the two spaces of an atomic, and the even address pair of the global space (R238). -/
def atomicScopeOk (t : Bool) (s : BitVec 3) (a : BitVec 7) : Bool :=
  if t then scopeIn s 2 3 else scopeIn s 1 6 && !a.getLsbD 0

/-- The link words accept .thr, .cl, .die and .dev (R321). -/
def linkScopeOk (s : BitVec 3) : Bool := s == 0#3 || scopeIn s 3 5

/-- A message of one register, a pair or a quad, with its register aligned (R321). -/
def linkSizeOk (z : BitVec 2) (d : BitVec 7) : Bool :=
  z == 0#2 || (z == 1#2 && !d.getLsbD 0) || (z == 2#2 && d.extractLsb' 0 2 == 0#2)

/-- The pan words accept b32, b64 and b128, with their register aligned (R292). -/
def panWidthOk (w : BitVec 4) (d : BitVec 7) : Bool :=
  w == 2#4 || (w == 3#4 && !d.getLsbD 0) || (w == 4#4 && d.extractLsb' 0 2 == 0#2)

/-- The segment width that bits [6:5] of a shuffle select (R160). -/
def segmentWidth (w : BitVec 2) : Nat := 32 >>> w.toNat

/-- The chunks that `unpk` accepts for each kind of container (R144). -/
def chunkOk (kind c : Nat) : Bool :=
  match kind with
  | 0 => c == 0
  | 1 => decide (c ≤ 14)
  | 2 => decide (c ≤ 7)
  | 3 => decide (c ≤ 9)
  | 4 => decide (c ≤ 9)
  | 5 => decide (c ≤ 14)
  | 6 => decide (c ≤ 3)
  | _ => false

/-- The instruction passes every check that its own bits decide. -/
def wellFormed : Instr → Bool
  | .illegal .. => true
  | .add .. => true
  | .sub .. => true
  | .mul .. => true
  | .mulhi .. => true
  | .mad .. => true
  | .min .. => true
  | .max .. => true
  | .and .. => true
  | .or .. => true
  | .xor .. => true
  | .shl .. => true
  | .shr .. => true
  | .sar .. => true
  | .rot .. => true
  | .addc .. => true
  | .subc .. => true
  | .sel .. => true
  | .lea .. => true
  | .bfe .. => true
  | .bfi .. => true
  | .prmt .. => true
  | .cmp .. => true
  | .iopNeg .. => true
  | .iopAbs .. => true
  | .iopNot .. => true
  | .iopPopc .. => true
  | .iopClz .. => true
  | .iopCtz .. => true
  | .iopBrev .. => true
  | .iopSx8 .. => true
  | .iopSx16 .. => true
  | .iopZx8 .. => true
  | .iopZx16 .. => true
  | .iopMov .. => true
  | .iopMovp .. => true
  | .iopPmov .. => true
  | .plog .. => true
  | .movi .. => true
  | .movhi .. => true
  | .addi .. => true
  | .andi .. => true
  | .ori .. => true
  | .xori .. => true
  | .muli .. => true
  | .shli .. => true
  | .shri .. => true
  | .sari .. => true
  | .cmpi .. => true
  | .leai .. => true
  | .bra .. => true
  | .brt .. => true
  | .brf .. => true
  | .call .. => true
  | .jmp .. => true
  | .ret .. => true
  | .exit => true
  | .trap .. => true
  | .brk .. => true
  | .modeLo i _ => i.extractLsb' 0 8 == 0#8 && (i.extractLsb' 8 3).toNat ≤ 4
  | .modeHi i _ => (i.extractLsb' 11 5).toNat ≤ 14 && (i.extractLsb' 8 3).toNat ≤ 5
  | .fmtLo .. => true
  | .fmtHi i _ => i.extractLsb' 9 7 == 0#7
  | .region .. => true
  | .fadd .. => true
  | .fsub .. => true
  | .fmul .. => true
  | .ffma .. => true
  | .fmin .. => true
  | .fmax .. => true
  | .fcmp .. => true
  | .fopFneg .. => true
  | .fopFabs .. => true
  | .fopFrcp .. => true
  | .fopFrsq .. => true
  | .fopFsqrt .. => true
  | .fopFex2 .. => true
  | .fopFlg2 .. => true
  | .fopFsin .. => true
  | .fopFcos .. => true
  | .fopFtanh .. => true
  | .fopFrni .. => true
  | .fopFrzi .. => true
  | .fopFrpi .. => true
  | .fopFrmi .. => true
  | .fopFfract .. => true
  | .fopFclass .. => true
  | .cvt _ _ _ t _ _ => t.toNat < 14
  | .pack .. => true
  | .unpkTag .. => true
  | .unpk _ _ _ n c _ _ => chunkOk n.toNat c.toNat && n != 0#3
  | .fscl .. => true
  | .fdot2 .. => true
  | .ffms .. => true
  | .rsize i _ => 2 ≤ i.toNat && i.toNat ≤ 16
  | .feEmpty .. => true
  | .feFill .. => true
  | .feTest .. => true
  | .feWait .. => true
  | .voteAll .. => true
  | .voteAny .. => true
  | .voteBallot .. => true
  | .voteEq .. => true
  | .voteMask .. => true
  | .shfl _ _ _ w v _ _ => v.toNat < segmentWidth w
  | .bcast .. => true
  | .gredAdd .. => true
  | .gredMin .. => true
  | .gredMax .. => true
  | .gredAnd .. => true
  | .gredOr .. => true
  | .gredXor .. => true
  | .gscanAdd .. => true
  | .gscanMin .. => true
  | .gscanMax .. => true
  | .gscanAnd .. => true
  | .gscanOr .. => true
  | .gscanXor .. => true
  | .gscanMul .. => true
  | .gscanAff .. => true
  | .mcall .. => true
  | .sreg _ _ n _ => n.toNat < 22
  | .utagKind .. => true
  | .utagStride .. => true
  | .utagGen .. => true
  | .utagChk .. => true
  | .utagChk64 .. => true
  | .ldg _ d _ w _ _ _ => loadWidthOk w d
  | .stg _ d _ w _ _ _ _ => storeWidthOk w d
  | .lds _ d _ w _ _ _ => loadWidthOk w d
  | .sts _ d _ w _ _ _ _ => storeWidthOk w d
  | .ldp _ d _ w _ _ _ => loadWidthOk w d
  | .stp _ d _ w _ _ _ _ => storeWidthOk w d
  | .ldc _ d _ w _ _ _ => loadWidthOk w d
  | .lda _ d _ s w _ _ => scopeIn s 1 6 && (!w || !d.getLsbD 0)
  | .ldaPoll _ d _ s w _ _ _ => scopeIn s 1 6 && (!w || !d.getLsbD 0)
  | .stl _ d _ s w _ _ _ => scopeIn s 1 6 && (!w || !d.getLsbD 0)
  | .fenceFull s _ => scopeIn s 1 6
  | .fenceRel s _ => scopeIn s 1 6
  | .fenceAcq s _ => scopeIn s 1 6
  | .cacheWbl _ _ s _ _ => scopeIn s 3 6
  | .cacheInvl .. => true
  | .cacheWball s _ => scopeIn s 3 6
  | .cacheInvall .. => true
  | .cacheSwb .. => true
  | .smap .. => true
  | .pfm _ v _ w _ _ _ => w.toNat < 5 && v != 3#2
  | .amoAdd _ _ a s t _ _ _ => atomicScopeOk t s a
  | .amoMin _ _ a s t _ _ _ => atomicScopeOk t s a
  | .amoMax _ _ a s t _ _ _ => atomicScopeOk t s a
  | .amoAnd _ _ a s t _ _ _ => atomicScopeOk t s a
  | .amoOr _ _ a s t _ _ _ => atomicScopeOk t s a
  | .amoXor _ _ a s t _ _ _ => atomicScopeOk t s a
  | .amoExch _ _ a s t _ _ _ => atomicScopeOk t s a
  | .amoIncw _ _ a s t _ _ _ => atomicScopeOk t s a
  | .redAdd _ _ a s t _ _ _ => atomicScopeOk t s a
  | .redMin _ _ a s t _ _ _ => atomicScopeOk t s a
  | .redMax _ _ a s t _ _ _ => atomicScopeOk t s a
  | .redAnd _ _ a s t _ _ _ => atomicScopeOk t s a
  | .redOr _ _ a s t _ _ _ => atomicScopeOk t s a
  | .redXor _ _ a s t _ _ _ => atomicScopeOk t s a
  | .cas _ _ a s t _ _ _ _ => atomicScopeOk t s a
  | .txb .. => true
  | .txe .. => true
  | .txa .. => true
  | .barSync _ s _ _ _ => scopeIn s 2 4
  | .barArrive _ s _ _ _ => scopeIn s 2 4
  | .barWait s _ _ => scopeIn s 2 4
  | .barPeek _ s _ _ => scopeIn s 2 4
  | .bexpPost _ s _ _ _ => scopeIn s 2 4
  | .bexpArrive _ s _ _ _ => scopeIn s 2 4
  | .cpyTile .. => true
  | .cpyGather .. => true
  | .cpyScatter .. => true
  | .cpyAxpb .. => true
  | .cpyRescale .. => true
  | .cpyFill .. => true
  | .cpySum .. => true
  | .cpyd m _ _ => m != 0#4
  | .cpyr .. => true
  | .mma .. => true
  | .cmma .. => true
  | .pmma .. => true
  | .mxf .. => true
  | .mxw .. => true
  | .mxr .. => true
  | .panLd d _ w _ => panWidthOk w d
  | .panSt d _ w _ => panWidthOk w d
  | .mxcZero .. => true
  | .mxcRscl .. => true
  | .sput d _ s z _ _ _ _ => linkScopeOk s && linkSizeOk z d
  | .sget d _ s z _ _ _ => linkScopeOk s && linkSizeOk z d
  | .sfwd _ s _ _ _ _ => linkScopeOk s
  | .xscanAdd _ _ s _ _ => linkScopeOk s
  | .xscanMul _ _ s _ _ => linkScopeOk s
  | .xscanMin _ _ s _ _ => linkScopeOk s
  | .xscanMax _ _ s _ _ => linkScopeOk s
  | .xscanAff _ _ s _ _ => linkScopeOk s
  | .lrec .. => true
  | .tfenPtrel s _ => scopeIn s 4 5
  | .tfenWalkacq s _ => scopeIn s 4 5
  | .tfenSync _ _ _ s _ _ _ => scopeIn s 4 5
  | .tinvPage _ _ _ s _ _ _ => scopeIn s 4 5
  | .tinvCtx _ s _ => scopeIn s 4 5
  | .tprb .. => true
  | .thintPromote .. => true
  | .thintDemote .. => true
  | .thintPin .. => true
  | .thintUnpin .. => true
  | .thintRelease .. => true
  | .tierHintRun eng => decide (eng < 3)
  | .migr .. => true
  | .migrationPage eng => decide (eng < 3)
  | .launch .. => true
  | .lwait .. => true
  | .contOpen .. => true
  | .contClose .. => true
  | .dualOn .. => true
  | .dualOff .. => true
  | .csrRd d n _ => (n.toNat < 8 || (16 ≤ n.toNat && n.toNat < 32)) && (4 ≤ n.toNat || !d.getLsbD 0)
  | .csrWr a n _ _ => n.toNat < 7 && (4 ≤ n.toNat || !a.getLsbD 0)
  | .rfeNext => true
  | .rfeRetry => true
  | .rfeKill => true
  | .rfeSave .. => true
  | .rfeRest => true
  | .ctxSgr .. => true
  | .ctxLgr .. => true
  | .ctxSst .. => true
  | .ctxLst .. => true
  | .ctxSwg .. => true
  | .ctxLwg .. => true
  | .ctxQuiet .. => true
  | .tmrNow .. => true
  | .tmrFrame .. => true
  | .tmrTo _ _ _ j _ _ => j.toNat < 9
  | .tmrFrom _ _ _ j _ _ => j.toNat < 9
  | .nop .. => true
  | .nopreOn .. => true
  | .nopreOff .. => true
  | .nopreLimit .. => true
  | .laneArbitration lane => decide (lane < 4608)
  | .splitResume _ split => decide (split < 4)
  | .producerFill .. => true
  | .pollCompletion _ split => decide (split < 4)
  | .walk core part ctx _ _ _ => decide (core < 72) && decide (part < 4) && decide (ctx < 1024)
  | .pageWaitRetry _ split => decide (split < 4)
  | .l1Eviction core _ => decide (core < 72)
  | .windowWriteBack .. => true
  | .remoteWriteCheck .. => true
  | .writeAcknowledgement .. => true
  | .lineFill core _ => decide (core < 72)
  | .copyCompletion core _ => decide (core < 72)
  | .copyStop core _ => decide (core < 72)
  | .matrixStep cluster _ => decide (cluster < 36)
  | .matrixStepComplete cluster _ => decide (cluster < 36)
  | .messageArrival core dir => decide (core < 72) && decide (dir < 4)
  | .creditReturn core dir => decide (core < 72) && decide (dir < 4)
  | .sluiceTimeout _ split => decide (split < 4)
  | .waitBudget slot => decide (slot < 1024)
  | .trapWatchdog .. => true
  | .preemptionDiscard .. => true
  | .preemptionSave .. => true
  | .workgroupRestore _ core => decide (core < 72)
  | .inFieldTest cluster => decide (cluster < 36)
  | .testRunEnd cluster _ => decide (cluster < 36)
  | .resourceReturn .. => true
  | .errorRecordAppend .. => true
  | .managementRecordAppend .. => true
  | .unconsumedError die _ _ => decide (die < 9)
  | .hostQueueConsume queue => decide (queue < 8192)
  | .gridReady .. => true
  | .rangeListComplete .. => true
  | .workgroupPlacement die => decide (die < 9)
  | .priorityAging .. => true
  | .gridRetirement .. => true
  | .dieFence die => decide (die < 9)
  | .voteDisagreement block _ => decide (block < 19)
  | .resyncComplete block => decide (block < 19)
  | .controlPlaneRestart block => decide (block < 19)
  | .frameBoundary => true
  | .timeConversionUpdate => true
  | .cxlReadTimeout port => decide (port < 6)
  | .hostCompletionTimeout .. => true
  | .isolationEnd port => decide (port < 6)
  | .linkRetrain port => decide (port < 6)
  | .contextCreate slot => decide (slot < 1024)
  | .contextDestroy slot => decide (slot < 1024)
  | .contextResume slot => decide (slot < 1024)
  | .contextReset slot => decide (slot < 1024)
  | .contextEnd slot => decide (slot < 1024)
  | .preemptionRequest slot => decide (slot < 1024)
  | .breakpointResume slot _ => decide (slot < 1024)
  | .pageResumeDoorbell slot => decide (slot < 1024)
  | .queueEnable queue _ => decide (queue < 8192)
  | .queueDisable queue => decide (queue < 8192)
  | .queueDoorbell queue _ => decide (queue < 8192)
  | .attestationReport => true
  | .registerWrite .. => true
  | .moduleReset => true
  | .signedBoot => true
  | .portReset host => decide (host < 2)
  | .thermalTrip => true
  | .thermalThrottle die => decide (die < 9)
  | .dataLinkLayerLinkActive port => decide (port < 6)
  | .portResetExit host => decide (host < 2)

end Sys2Proof
end

