-- ==== Sys2Proof/Decode.lean ====
section
/-!
DEFINITION. The decoder and, after it, the encoder. A 32-bit word is split once into the nine columns of the format
strip (R72); the primary opcode and the sub code choose the row, and the bits a row gives as 0 are checked (R77, R86).
The decoder is total on every word: a word that is no instruction is rejected with the fault the checks of R90 name,
the opcode and the sub code first (ILLEGAL-OPCODE), the reserved fields and the alignments after them (RESERVED-FIELD).
-/

namespace Sys2Proof

/-- The columns of the format strip (R72): op [31:25], u [24], d [23:17], a [16:10], x [9:7], y [6:3], f [2], g [1],
e [0]. -/
structure Strip where
  op : BitVec 7
  u : Bool
  d : BitVec 7
  a : BitVec 7
  x : BitVec 3
  y : BitVec 4
  f : Bool
  g : Bool
  e : Bool
  deriving DecidableEq, Repr

/-- The word that the columns form, op in the most significant bits (R71, R72). -/
def Strip.pack (t : Strip) : Word :=
  t.op ++ BitVec.ofBool t.u ++ t.d ++ t.a ++ t.x ++ t.y ++ BitVec.ofBool t.f ++ BitVec.ofBool t.g ++ BitVec.ofBool t.e

/-- The columns of a word (R71, R72). -/
def Strip.split (w : Word) : Strip where
  op := w.extractLsb' 25 7
  u := w.getLsbD 24
  d := w.extractLsb' 17 7
  a := w.extractLsb' 10 7
  x := w.extractLsb' 7 3
  y := w.extractLsb' 3 4
  f := w.getLsbD 2
  g := w.getLsbD 1
  e := w.getLsbD 0

/-- Why a word is no instruction: the two faults of steps 3 and 4 of R90. -/
inductive DecodeError where
  /-- The opcode or the sub code is not an instruction (R86). -/
  | illegalOpcode
  /-- A reserved field is not zero, or a register, scope or width field breaks its limits (R73, R75, R77, R84). -/
  | reservedField
  deriving DecidableEq, Repr

/-- A row of the encoding tables: its instruction where the bits it fixes hold, RESERVED-FIELD otherwise (R77). -/
def row (ok : Bool) (i : Instr) : Except DecodeError Instr := if ok then .ok i else .error .reservedField

/-- The row of the opcode map (R85) that the columns select, with the bits the row fixes checked. -/
def decodeStrip (t : Strip) : Except DecodeError Instr :=
  match t.op.toNat with
  | 0x00 =>
    if t.u == false && t.d == 0#7 && t.a == 0#7 && t.x == 0#3 && t.y == 0#4 && !t.f && !t.g then .ok (.illegal t.e) else .error .illegalOpcode
  | 0x01 =>
    row (true) (.add t.u t.d t.a (t.x ++ t.y : BitVec 7) t.f t.g t.e)
  | 0x02 =>
    row (true) (.sub t.u t.d t.a (t.x ++ t.y : BitVec 7) t.f t.g t.e)
  | 0x03 =>
    row (true) (.mul t.u t.d t.a (t.x ++ t.y : BitVec 7) t.f t.g t.e)
  | 0x04 =>
    row (true) (.mulhi t.u t.d t.a (t.x ++ t.y : BitVec 7) t.f t.g t.e)
  | 0x05 =>
    row (true) (.mad t.u t.d t.a (t.x ++ t.y : BitVec 7) t.f t.g t.e)
  | 0x06 =>
    row (true) (.min t.u t.d t.a (t.x ++ t.y : BitVec 7) t.f t.g t.e)
  | 0x07 =>
    row (true) (.max t.u t.d t.a (t.x ++ t.y : BitVec 7) t.f t.g t.e)
  | 0x08 =>
    row (true) (.and t.u t.d t.a (t.x ++ t.y : BitVec 7) t.f t.g t.e)
  | 0x09 =>
    row (true) (.or t.u t.d t.a (t.x ++ t.y : BitVec 7) t.f t.g t.e)
  | 0x0A =>
    row (true) (.xor t.u t.d t.a (t.x ++ t.y : BitVec 7) t.f t.g t.e)
  | 0x0B =>
    row (true) (.shl t.u t.d t.a (t.x ++ t.y : BitVec 7) t.f t.g t.e)
  | 0x0C =>
    row (true) (.shr t.u t.d t.a (t.x ++ t.y : BitVec 7) t.f t.g t.e)
  | 0x0D =>
    row (true) (.sar t.u t.d t.a (t.x ++ t.y : BitVec 7) t.f t.g t.e)
  | 0x0E =>
    row (true) (.rot t.u t.d t.a (t.x ++ t.y : BitVec 7) t.f t.g t.e)
  | 0x0F =>
    row (true) (.addc t.u t.d t.a (t.x ++ t.y : BitVec 7) t.f t.g t.e)
  | 0x10 =>
    row (true) (.subc t.u t.d t.a (t.x ++ t.y : BitVec 7) t.f t.g t.e)
  | 0x11 =>
    row (true) (.sel t.u t.d t.a (t.x ++ t.y : BitVec 7) t.f t.g t.e)
  | 0x12 =>
    row (!t.d.getLsbD 0 && !t.a.getLsbD 0) (.lea t.u (t.d.extractLsb' 1 6) (t.a.extractLsb' 1 6) (t.x ++ t.y : BitVec 7) t.f t.g t.e)
  | 0x13 =>
    row (true) (.bfe t.u t.d t.a (t.x ++ t.y : BitVec 7) t.f t.g t.e)
  | 0x14 =>
    row (true) (.bfi t.u t.d t.a (t.x ++ t.y : BitVec 7) t.f t.g t.e)
  | 0x15 =>
    row (true) (.prmt t.u t.d t.a (t.x ++ t.y : BitVec 7) t.f t.g t.e)
  | 0x16 =>
    row (!t.d.getLsbD 3) (.cmp t.u (t.d.extractLsb' 4 3) (t.d.extractLsb' 0 3) t.a (t.x ++ t.y : BitVec 7) t.f t.g t.e)
  | 0x17 =>
    match (t.x ++ t.y).toNat with
    | 0 => row (!t.g) (.iopNeg t.u t.d t.a t.f t.e)
    | 1 => row (!t.g) (.iopAbs t.u t.d t.a t.f t.e)
    | 2 => row (!t.g) (.iopNot t.u t.d t.a t.f t.e)
    | 3 => row (!t.g) (.iopPopc t.u t.d t.a t.f t.e)
    | 4 => row (!t.g) (.iopClz t.u t.d t.a t.f t.e)
    | 5 => row (!t.g) (.iopCtz t.u t.d t.a t.f t.e)
    | 6 => row (!t.g) (.iopBrev t.u t.d t.a t.f t.e)
    | 7 => row (!t.g) (.iopSx8 t.u t.d t.a t.f t.e)
    | 8 => row (!t.g) (.iopSx16 t.u t.d t.a t.f t.e)
    | 9 => row (!t.g) (.iopZx8 t.u t.d t.a t.f t.e)
    | 10 => row (!t.g) (.iopZx16 t.u t.d t.a t.f t.e)
    | 11 => row (!t.g) (.iopMov t.u t.d t.a t.f t.e)
    | 12 => row (t.a.extractLsb' 3 4 == 0#4 && !t.f && !t.g) (.iopMovp t.u t.d (t.a.extractLsb' 0 3) t.e)
    | 13 => row (t.d.extractLsb' 3 4 == 0#4 && !t.g) (.iopPmov t.u (t.d.extractLsb' 0 3) t.a t.f t.e)
    | _ => .error .illegalOpcode
  | 0x18 =>
    row (t.d.extractLsb' 3 4 == 0#4 && t.a.extractLsb' 3 4 == 0#4 && !t.f && !t.g) (.plog t.u (t.d.extractLsb' 0 3) (t.a.extractLsb' 0 3) t.x t.y t.e)
  | 0x19 =>
    row (true) (.movi t.u t.d (t.a ++ t.x ++ t.y ++ BitVec.ofBool t.f ++ BitVec.ofBool t.g : BitVec 16) t.e)
  | 0x1A =>
    row (true) (.movhi t.u t.d (t.a ++ t.x ++ t.y ++ BitVec.ofBool t.f ++ BitVec.ofBool t.g : BitVec 16) t.e)
  | 0x1B =>
    row (true) (.addi t.u t.d (t.a ++ t.x ++ t.y ++ BitVec.ofBool t.f ++ BitVec.ofBool t.g : BitVec 16) t.e)
  | 0x1C =>
    row (true) (.andi t.u t.d (t.a ++ t.x ++ t.y ++ BitVec.ofBool t.f ++ BitVec.ofBool t.g : BitVec 16) t.e)
  | 0x1D =>
    row (true) (.ori t.u t.d (t.a ++ t.x ++ t.y ++ BitVec.ofBool t.f ++ BitVec.ofBool t.g : BitVec 16) t.e)
  | 0x1E =>
    row (true) (.xori t.u t.d (t.a ++ t.x ++ t.y ++ BitVec.ofBool t.f ++ BitVec.ofBool t.g : BitVec 16) t.e)
  | 0x1F =>
    row (true) (.muli t.u t.d (t.a ++ t.x ++ t.y ++ BitVec.ofBool t.f ++ BitVec.ofBool t.g : BitVec 16) t.e)
  | 0x20 =>
    row (!t.g) (.shli t.u t.d t.a (t.x ++ t.y : BitVec 7) t.f t.e)
  | 0x21 =>
    row (!t.g) (.shri t.u t.d t.a (t.x ++ t.y : BitVec 7) t.f t.e)
  | 0x22 =>
    row (!t.g) (.sari t.u t.d t.a (t.x ++ t.y : BitVec 7) t.f t.e)
  | 0x23 =>
    row (!t.d.getLsbD 3 && !t.g) (.cmpi t.u (t.d.extractLsb' 4 3) (t.d.extractLsb' 0 3) t.a (t.x ++ t.y : BitVec 7) t.f t.e)
  | 0x24 =>
    row (!t.d.getLsbD 0 && !t.a.getLsbD 0 && !t.g) (.leai t.u (t.d.extractLsb' 1 6) (t.a.extractLsb' 1 6) (t.x ++ t.y : BitVec 7) t.f t.e)
  | 0x25 =>
    row (t.d == 0#7 && t.e) (.bra t.u (t.a ++ t.x ++ t.y ++ BitVec.ofBool t.f ++ BitVec.ofBool t.g : BitVec 16))
  | 0x26 =>
    row (t.d.extractLsb' 3 4 == 0#4 && t.e) (.brt t.u (t.d.extractLsb' 0 3) (t.a ++ t.x ++ t.y ++ BitVec.ofBool t.f ++ BitVec.ofBool t.g : BitVec 16))
  | 0x27 =>
    row (t.d.extractLsb' 3 4 == 0#4 && t.e) (.brf t.u (t.d.extractLsb' 0 3) (t.a ++ t.x ++ t.y ++ BitVec.ofBool t.f ++ BitVec.ofBool t.g : BitVec 16))
  | 0x28 =>
    row (!t.d.getLsbD 0 && t.e) (.call t.u (t.d.extractLsb' 1 6) (t.a ++ t.x ++ t.y ++ BitVec.ofBool t.f ++ BitVec.ofBool t.g : BitVec 16))
  | 0x29 =>
    row (t.d == 0#7 && !t.a.getLsbD 0 && t.x == 0#3 && t.y == 0#4 && !t.g && t.e) (.jmp t.u (t.a.extractLsb' 1 6) t.f)
  | 0x2A =>
    row (t.d == 0#7 && !t.a.getLsbD 0 && t.x == 0#3 && t.y == 0#4 && !t.g && t.e) (.ret t.u (t.a.extractLsb' 1 6) t.f)
  | 0x2B =>
    row (!t.u && t.d == 0#7 && t.a == 0#7 && t.x == 0#3 && t.y == 0#4 && !t.f && !t.g && t.e) (.exit)
  | 0x2C =>
    row (!t.u && t.d == 0#7 && t.a == 0#7 && !t.x.getLsbD 2 && t.e) (.trap ((t.x.extractLsb' 0 2) ++ t.y ++ BitVec.ofBool t.f ++ BitVec.ofBool t.g : BitVec 8))
  | 0x2D =>
    row (!t.u && t.d == 0#7 && t.e) (.brk (t.a ++ t.x ++ t.y ++ BitVec.ofBool t.f ++ BitVec.ofBool t.g : BitVec 16))
  | 0x2E =>
    match t.d.toNat with
    | 0 => row (!t.u) (.modeLo (t.a ++ t.x ++ t.y ++ BitVec.ofBool t.f ++ BitVec.ofBool t.g : BitVec 16) t.e)
    | 1 => row (!t.u) (.modeHi (t.a ++ t.x ++ t.y ++ BitVec.ofBool t.f ++ BitVec.ofBool t.g : BitVec 16) t.e)
    | _ => .error .reservedField
  | 0x2F =>
    match t.d.toNat with
    | 0 => row (!t.u) (.fmtLo (t.a ++ t.x ++ t.y ++ BitVec.ofBool t.f ++ BitVec.ofBool t.g : BitVec 16) t.e)
    | 1 => row (!t.u) (.fmtHi (t.a ++ t.x ++ t.y ++ BitVec.ofBool t.f ++ BitVec.ofBool t.g : BitVec 16) t.e)
    | _ => .error .reservedField
  | 0x30 =>
    row (true) (.fadd t.u t.d t.a (t.x ++ t.y : BitVec 7) t.f t.g t.e)
  | 0x31 =>
    row (true) (.fsub t.u t.d t.a (t.x ++ t.y : BitVec 7) t.f t.g t.e)
  | 0x32 =>
    row (true) (.fmul t.u t.d t.a (t.x ++ t.y : BitVec 7) t.f t.g t.e)
  | 0x33 =>
    row (true) (.ffma t.u t.d t.a (t.x ++ t.y : BitVec 7) t.f t.g t.e)
  | 0x34 =>
    row (true) (.fmin t.u t.d t.a (t.x ++ t.y : BitVec 7) t.f t.g t.e)
  | 0x35 =>
    row (true) (.fmax t.u t.d t.a (t.x ++ t.y : BitVec 7) t.f t.g t.e)
  | 0x36 =>
    row (!t.d.getLsbD 3) (.fcmp t.u (t.d.extractLsb' 4 3) (t.d.extractLsb' 0 3) t.a (t.x ++ t.y : BitVec 7) t.f t.g t.e)
  | 0x37 =>
    match (t.x ++ t.y).toNat with
    | 0 => row (!t.g) (.fopFneg t.u t.d t.a t.f t.e)
    | 1 => row (!t.g) (.fopFabs t.u t.d t.a t.f t.e)
    | 2 => row (!t.g) (.fopFrcp t.u t.d t.a t.f t.e)
    | 3 => row (!t.g) (.fopFrsq t.u t.d t.a t.f t.e)
    | 4 => row (!t.g) (.fopFsqrt t.u t.d t.a t.f t.e)
    | 5 => row (!t.g) (.fopFex2 t.u t.d t.a t.f t.e)
    | 6 => row (!t.g) (.fopFlg2 t.u t.d t.a t.f t.e)
    | 7 => row (!t.g) (.fopFsin t.u t.d t.a t.f t.e)
    | 8 => row (!t.g) (.fopFcos t.u t.d t.a t.f t.e)
    | 9 => row (!t.g) (.fopFtanh t.u t.d t.a t.f t.e)
    | 10 => row (!t.g) (.fopFrni t.u t.d t.a t.f t.e)
    | 11 => row (!t.g) (.fopFrzi t.u t.d t.a t.f t.e)
    | 12 => row (!t.g) (.fopFrpi t.u t.d t.a t.f t.e)
    | 13 => row (!t.g) (.fopFrmi t.u t.d t.a t.f t.e)
    | 14 => row (!t.g) (.fopFfract t.u t.d t.a t.f t.e)
    | 15 => row (!t.g) (.fopFclass t.u t.d t.a t.f t.e)
    | _ => .error .illegalOpcode
  | 0x38 =>
    if t.x == 0#3 && t.y.toNat < 14 then row (!t.g) (.cvt t.u t.d t.a t.y t.f t.e) else .error .illegalOpcode
  | 0x39 =>
    row (true) (.pack t.u t.d t.a (t.x ++ t.y : BitVec 7) t.f t.g t.e)
  | 0x3A =>
    if t.x == 0#3 then (if t.y == 0#4 then row (t.a.extractLsb' 0 2 == 0#2 && !t.g) (.unpkTag t.u t.d (t.a.extractLsb' 2 5) t.f t.e) else .error .illegalOpcode)
    else if chunkOk t.x.toNat t.y.toNat then row (t.a.extractLsb' 0 2 == 0#2 && !t.g) (.unpk t.u t.d (t.a.extractLsb' 2 5) t.x t.y t.f t.e) else .error .illegalOpcode
  | 0x3B =>
    row (true) (.fscl t.u t.d t.a (t.x ++ t.y : BitVec 7) t.f t.g t.e)
  | 0x3C =>
    row (true) (.fdot2 t.u t.d t.a (t.x ++ t.y : BitVec 7) t.f t.g t.e)
  | 0x3D =>
    row (true) (.ffms t.u t.d t.a (t.x ++ t.y : BitVec 7) t.f t.g t.e)
  | 0x3E =>
    row (!t.u && t.d == 0#7 && t.a == 0#7 && t.x == 0#3 && t.y == 0#4 && !t.f && !t.g) (.region t.e)
  | 0x3F =>
    match (t.d.extractLsb' 4 3).toNat with
    | 0 => row (!t.u && t.d.extractLsb' 0 4 == 0#4 && t.a == 0#7 && t.x == 0#3 && t.y == 0#4 && !t.f && !t.g) (.nopreOn t.e)
    | 1 => row (!t.u && t.d.extractLsb' 0 4 == 0#4 && t.a == 0#7 && t.x == 0#3 && t.y == 0#4 && !t.f && !t.g) (.nopreOff t.e)
    | _ => .error .illegalOpcode
  | 0x40 =>
    row (!t.u && t.d == 0#7 && t.a == 0#7 && !t.f && !t.g) (.rsize (t.x ++ t.y : BitVec 7) t.e)
  | 0x41 =>
    match (t.x ++ t.y).toNat with
    | 0 => row (!t.u && t.a == 0#7 && !t.f && !t.g) (.feEmpty t.d t.e)
    | 1 => row (!t.u && !t.g) (.feFill t.d t.a t.f t.e)
    | 2 => row (!t.u && t.d.extractLsb' 3 4 == 0#4 && !t.f && !t.g) (.feTest (t.d.extractLsb' 0 3) t.a t.e)
    | 3 => row (!t.u && t.d == 0#7 && !t.g) (.feWait t.a t.f t.e)
    | _ => .error .illegalOpcode
  | 0x42 =>
    match (t.x ++ t.y).toNat with
    | 0 => row (!t.u && t.d.extractLsb' 3 4 == 0#4 && t.a.extractLsb' 3 4 == 0#4 && !t.f && !t.g) (.voteAll (t.d.extractLsb' 0 3) (t.a.extractLsb' 0 3) t.e)
    | 1 => row (!t.u && t.d.extractLsb' 3 4 == 0#4 && t.a.extractLsb' 3 4 == 0#4 && !t.f && !t.g) (.voteAny (t.d.extractLsb' 0 3) (t.a.extractLsb' 0 3) t.e)
    | 2 => row (!t.u && t.a.extractLsb' 3 4 == 0#4 && !t.f && !t.g) (.voteBallot t.d (t.a.extractLsb' 0 3) t.e)
    | 3 => row (t.d.extractLsb' 3 4 == 0#4 && !t.g) (.voteEq t.u (t.d.extractLsb' 0 3) t.a t.f t.e)
    | 4 => row (!t.u && t.a == 0#7 && !t.f && !t.g) (.voteMask t.d t.e)
    | _ => .error .illegalOpcode
  | 0x43 =>
    row (!t.g) (.shfl t.u t.d t.a (t.x.extractLsb' 1 2) ((t.x.extractLsb' 0 1) ++ t.y : BitVec 5) t.f t.e)
  | 0x44 =>
    row (true) (.bcast t.u t.d t.a (t.x ++ t.y : BitVec 7) t.f t.g t.e)
  | 0x45 =>
    match (t.x ++ t.y).toNat with
    | 0 => row (!t.g) (.gredAdd t.u t.d t.a t.f t.e)
    | 1 => row (!t.g) (.gredMin t.u t.d t.a t.f t.e)
    | 2 => row (!t.g) (.gredMax t.u t.d t.a t.f t.e)
    | 3 => row (!t.g) (.gredAnd t.u t.d t.a t.f t.e)
    | 4 => row (!t.g) (.gredOr t.u t.d t.a t.f t.e)
    | 5 => row (!t.g) (.gredXor t.u t.d t.a t.f t.e)
    | _ => .error .illegalOpcode
  | 0x46 =>
    if t.x.extractLsb' 1 2 == 0#2 then
    match t.y.toNat with
    | 0 => row (!t.u && !t.g) (.gscanAdd t.d t.a (t.x.getLsbD 0) t.f t.e)
    | 1 => row (!t.u && !t.g) (.gscanMin t.d t.a (t.x.getLsbD 0) t.f t.e)
    | 2 => row (!t.u && !t.g) (.gscanMax t.d t.a (t.x.getLsbD 0) t.f t.e)
    | 3 => row (!t.u && !t.g) (.gscanAnd t.d t.a (t.x.getLsbD 0) t.f t.e)
    | 4 => row (!t.u && !t.g) (.gscanOr t.d t.a (t.x.getLsbD 0) t.f t.e)
    | 5 => row (!t.u && !t.g) (.gscanXor t.d t.a (t.x.getLsbD 0) t.f t.e)
    | 6 => row (!t.u && !t.g) (.gscanMul t.d t.a (t.x.getLsbD 0) t.f t.e)
    | 7 => row (!t.u && !t.d.getLsbD 0 && !t.a.getLsbD 0 && !t.g) (.gscanAff (t.d.extractLsb' 1 6) (t.a.extractLsb' 1 6) (t.x.getLsbD 0) t.f t.e)
    | _ => .error .illegalOpcode
    else .error .illegalOpcode
  | 0x47 =>
    row (!t.u) (.mcall t.d t.a t.x (t.y ++ BitVec.ofBool t.f ++ BitVec.ofBool t.g : BitVec 6) t.e)
  | 0x48 =>
    if (t.x ++ t.y).toNat < 22 then row (t.a == 0#7 && !t.f && !t.g) (.sreg t.u t.d (t.x ++ t.y : BitVec 7) t.e) else .error .illegalOpcode
  | 0x49 =>
    match (t.x ++ t.y).toNat with
    | 0 => row (!t.u && !t.g) (.utagKind t.d t.a t.f t.e)
    | 1 => row (!t.u && !t.g) (.utagStride t.d t.a t.f t.e)
    | 2 => row (!t.u && t.d == 0#7 && !t.g) (.utagGen t.a t.f t.e)
    | 3 => row (!t.u && t.d == 0#7 && !t.g) (.utagChk t.a t.f t.e)
    | 4 => row (!t.u && t.d == 0#7 && !t.a.getLsbD 0 && !t.g) (.utagChk64 (t.a.extractLsb' 1 6) t.f t.e)
    | _ => .error .illegalOpcode
  | 0x4A =>
    row (!t.a.getLsbD 0 && !t.g) (.ldg t.u t.d (t.a.extractLsb' 1 6) t.x t.y t.f t.e)
  | 0x4B =>
    row (!t.a.getLsbD 0) (.stg t.u t.d (t.a.extractLsb' 1 6) t.x t.y t.f t.g t.e)
  | 0x4C =>
    row (!t.g) (.lds t.u t.d t.a t.x t.y t.f t.e)
  | 0x4D =>
    row (true) (.sts t.u t.d t.a t.x t.y t.f t.g t.e)
  | 0x4E =>
    row (!t.a.getLsbD 0 && !t.g) (.ldp t.u t.d (t.a.extractLsb' 1 6) t.x t.y t.f t.e)
  | 0x4F =>
    row (!t.a.getLsbD 0) (.stp t.u t.d (t.a.extractLsb' 1 6) t.x t.y t.f t.g t.e)
  | 0x50 =>
    row (!t.g) (.ldc t.u t.d t.a t.x t.y t.f t.e)
  | 0x51 =>
    match t.y.toNat with
    | 0 => row (!t.a.getLsbD 0 && !t.g) (.lda t.u t.d (t.a.extractLsb' 1 6) t.x (t.y.getLsbD 0) t.f t.e)
    | 1 => row (!t.a.getLsbD 0 && !t.g) (.lda t.u t.d (t.a.extractLsb' 1 6) t.x (t.y.getLsbD 0) t.f t.e)
    | 2 => row (!t.a.getLsbD 0) (.ldaPoll t.u t.d (t.a.extractLsb' 1 6) t.x (t.y.getLsbD 0) t.f t.g t.e)
    | 3 => row (!t.a.getLsbD 0) (.ldaPoll t.u t.d (t.a.extractLsb' 1 6) t.x (t.y.getLsbD 0) t.f t.g t.e)
    | _ => .error .illegalOpcode
  | 0x52 =>
    if t.y.toNat < 2 then row (!t.a.getLsbD 0 && t.y.extractLsb' 1 3 == 0#3) (.stl t.u t.d (t.a.extractLsb' 1 6) t.x (t.y.getLsbD 0) t.f t.g t.e) else .error .illegalOpcode
  | 0x53 =>
    match t.y.toNat with
    | 0 => row (!t.u && t.d == 0#7 && t.a == 0#7 && !t.f && !t.g) (.fenceFull t.x t.e)
    | 1 => row (!t.u && t.d == 0#7 && t.a == 0#7 && !t.f && !t.g) (.fenceRel t.x t.e)
    | 2 => row (!t.u && t.d == 0#7 && t.a == 0#7 && !t.f && !t.g) (.fenceAcq t.x t.e)
    | _ => .error .illegalOpcode
  | 0x54 =>
    match t.y.toNat with
    | 0 => row (t.d == 0#7 && !t.a.getLsbD 0 && !t.g) (.cacheWbl t.u (t.a.extractLsb' 1 6) t.x t.f t.e)
    | 1 => row (t.d == 0#7 && !t.a.getLsbD 0 && t.x == 0#3 && !t.g) (.cacheInvl t.u (t.a.extractLsb' 1 6) t.f t.e)
    | 2 => row (!t.u && t.d == 0#7 && t.a == 0#7 && !t.f && !t.g) (.cacheWball t.x t.e)
    | 3 => row (!t.u && t.d == 0#7 && t.a == 0#7 && t.x == 0#3 && !t.f && !t.g) (.cacheInvall t.e)
    | 4 => row (!t.u && t.d.extractLsb' 2 5 == 0#5 && t.a == 0#7 && t.x == 0#3 && !t.f && !t.g) (.cacheSwb (t.d.extractLsb' 0 2) t.e)
    | _ => .error .illegalOpcode
  | 0x55 =>
    row (t.u && t.d.extractLsb' 2 5 == 0#5 && !t.a.getLsbD 0 && !t.y.getLsbD 0) (.smap (t.d.extractLsb' 0 2) (t.a.extractLsb' 1 6) (t.x ++ (t.y.extractLsb' 1 3) : BitVec 6) t.f t.g t.e)
  | 0x56 =>
    row (t.d.extractLsb' 2 5 == 0#5 && !t.a.getLsbD 0 && !t.g) (.pfm t.u (t.d.extractLsb' 0 2) (t.a.extractLsb' 1 6) t.x t.y t.f t.e)
  | 0x58 =>
    match (t.y.extractLsb' 0 3).toNat with
    | 0 => row (true) (.amoAdd t.u t.d t.a t.x (t.y.getLsbD 3) t.f t.g t.e)
    | 1 => row (true) (.amoMin t.u t.d t.a t.x (t.y.getLsbD 3) t.f t.g t.e)
    | 2 => row (true) (.amoMax t.u t.d t.a t.x (t.y.getLsbD 3) t.f t.g t.e)
    | 3 => row (true) (.amoAnd t.u t.d t.a t.x (t.y.getLsbD 3) t.f t.g t.e)
    | 4 => row (true) (.amoOr t.u t.d t.a t.x (t.y.getLsbD 3) t.f t.g t.e)
    | 5 => row (true) (.amoXor t.u t.d t.a t.x (t.y.getLsbD 3) t.f t.g t.e)
    | 6 => row (true) (.amoExch t.u t.d t.a t.x (t.y.getLsbD 3) t.f t.g t.e)
    | 7 => row (true) (.amoIncw t.u t.d t.a t.x (t.y.getLsbD 3) t.f t.g t.e)
    | _ => .error .illegalOpcode
  | 0x59 =>
    match (t.y.extractLsb' 0 3).toNat with
    | 0 => row (true) (.redAdd t.u t.d t.a t.x (t.y.getLsbD 3) t.f t.g t.e)
    | 1 => row (true) (.redMin t.u t.d t.a t.x (t.y.getLsbD 3) t.f t.g t.e)
    | 2 => row (true) (.redMax t.u t.d t.a t.x (t.y.getLsbD 3) t.f t.g t.e)
    | 3 => row (true) (.redAnd t.u t.d t.a t.x (t.y.getLsbD 3) t.f t.g t.e)
    | 4 => row (true) (.redOr t.u t.d t.a t.x (t.y.getLsbD 3) t.f t.g t.e)
    | 5 => row (true) (.redXor t.u t.d t.a t.x (t.y.getLsbD 3) t.f t.g t.e)
    | _ => .error .illegalOpcode
  | 0x5A =>
    row (true) (.cas t.u t.d t.a t.x (t.y.getLsbD 3) (t.y.extractLsb' 0 3) t.f t.g t.e)
  | 0x5B =>
    if t.y == 0#4 then row (!t.a.getLsbD 0 && t.x == 5#3 && !t.g) (.txb t.u t.d (t.a.extractLsb' 1 6) t.f t.e) else .error .illegalOpcode
  | 0x5C =>
    if t.y == 0#4 then row (!t.u && t.d.extractLsb' 3 4 == 0#4 && t.a == 0#7 && t.x == 5#3 && !t.f && !t.g) (.txe (t.d.extractLsb' 0 3) t.e) else .error .illegalOpcode
  | 0x5D =>
    row (!t.u && t.d == 0#7 && t.a == 0#7 && t.x == 5#3 && !t.f && !t.g) (.txa t.y t.e)
  | 0x5E =>
    match (t.d.extractLsb' 0 2).toNat with
    | 0 => row (!t.u && t.d.extractLsb' 2 5 == 0#5 && !t.g) (.barSync t.a t.x t.y t.f t.e)
    | 1 => row (!t.u && t.d.extractLsb' 2 5 == 0#5 && !t.g) (.barArrive t.a t.x t.y t.f t.e)
    | 2 => row (!t.u && t.d.extractLsb' 2 5 == 0#5 && t.a == 0#7 && !t.f && !t.g) (.barWait t.x t.y t.e)
    | 3 => row (!t.u && t.d.extractLsb' 5 2 == 0#2 && t.a == 0#7 && !t.f && !t.g) (.barPeek (t.d.extractLsb' 2 3) t.x t.y t.e)
    | _ => .error .reservedField
  | 0x5F =>
    match (t.d.extractLsb' 0 2).toNat with
    | 0 => row (!t.u && t.d.extractLsb' 2 5 == 0#5 && !t.g) (.bexpPost t.a t.x t.y t.f t.e)
    | 1 => row (!t.u && t.d.extractLsb' 2 5 == 0#5 && !t.g) (.bexpArrive t.a t.x t.y t.f t.e)
    | _ => .error .reservedField
  | 0x60 =>
    match t.x.toNat with
    | 0 => row (t.u && t.d.extractLsb' 0 2 == 0#2 && t.a.extractLsb' 0 2 == 0#2) (.cpyTile (t.d.extractLsb' 2 5) (t.a.extractLsb' 2 5) t.y t.f t.g t.e)
    | 1 => row (t.u && t.d.extractLsb' 0 2 == 0#2 && t.a.extractLsb' 0 2 == 0#2) (.cpyGather (t.d.extractLsb' 2 5) (t.a.extractLsb' 2 5) t.y t.f t.g t.e)
    | 2 => row (t.u && t.d.extractLsb' 0 2 == 0#2 && t.a.extractLsb' 0 2 == 0#2) (.cpyScatter (t.d.extractLsb' 2 5) (t.a.extractLsb' 2 5) t.y t.f t.g t.e)
    | 3 => row (t.u && t.d.extractLsb' 0 2 == 0#2 && t.a.extractLsb' 0 2 == 0#2) (.cpyAxpb (t.d.extractLsb' 2 5) (t.a.extractLsb' 2 5) t.y t.f t.g t.e)
    | 4 => row (t.u && t.d.extractLsb' 0 2 == 0#2 && t.a.extractLsb' 0 2 == 0#2) (.cpyRescale (t.d.extractLsb' 2 5) (t.a.extractLsb' 2 5) t.y t.f t.g t.e)
    | 5 => row (t.u && t.d.extractLsb' 0 2 == 0#2 && t.a.extractLsb' 0 2 == 0#2) (.cpyFill (t.d.extractLsb' 2 5) (t.a.extractLsb' 2 5) t.y t.f t.g t.e)
    | 6 => row (t.u && t.d.extractLsb' 0 2 == 0#2 && t.a.extractLsb' 0 2 == 0#2) (.cpySum (t.d.extractLsb' 2 5) (t.a.extractLsb' 2 5) t.y t.f t.g t.e)
    | _ => .error .illegalOpcode
  | 0x61 =>
    row (t.u && t.d == 0#7 && t.a == 0#7 && t.x == 0#3 && !t.g) (.cpyd t.y t.f t.e)
  | 0x62 =>
    row (t.u && t.d == 0#7 && !t.a.getLsbD 0 && t.x == 0#3 && !t.g) (.cpyr (t.a.extractLsb' 1 6) t.y t.f t.e)
  | 0x64 =>
    row (t.u && t.d.extractLsb' 0 2 == 0#2 && t.a.extractLsb' 0 3 == 0#3 && t.x == 0#3 && t.y == 0#4) (.mma (t.d.extractLsb' 2 5) (t.a.extractLsb' 3 4) t.f t.g t.e)
  | 0x65 =>
    row (t.u && t.d.extractLsb' 0 2 == 0#2 && t.a.extractLsb' 0 3 == 0#3 && t.x == 0#3 && t.y == 0#4) (.cmma (t.d.extractLsb' 2 5) (t.a.extractLsb' 3 4) t.f t.g t.e)
  | 0x66 =>
    row (t.u && t.d.extractLsb' 0 2 == 0#2 && t.a.extractLsb' 0 3 == 0#3 && t.x == 0#3 && t.y == 0#4) (.pmma (t.d.extractLsb' 2 5) (t.a.extractLsb' 3 4) t.f t.g t.e)
  | 0x67 =>
    row (t.u && t.a == 0#7 && t.x == 0#3 && t.y == 0#4 && !t.f && !t.g) (.mxf t.d t.e)
  | 0x68 =>
    row (t.u && t.d == 0#7 && !t.f && !t.g) (.mxw t.a (t.x ++ t.y : BitVec 7) t.e)
  | 0x69 =>
    row (t.u && t.d == 0#7 && t.a == 0#7 && t.x == 0#3 && t.y == 0#4 && !t.f && !t.g) (.mxr t.e)
  | 0x6A =>
    match t.x.toNat with
    | 0 => row (t.u && !t.f && !t.g) (.panLd t.d t.a t.y t.e)
    | 1 => row (t.u && !t.f && !t.g) (.panSt t.d t.a t.y t.e)
    | _ => .error .illegalOpcode
  | 0x6B =>
    match t.x.toNat with
    | 0 => row (t.u && !t.d.getLsbD 0 && t.a == 0#7 && t.y == 0#4 && !t.g) (.mxcZero (t.d.extractLsb' 1 6) t.f t.e)
    | 1 => row (t.u && !t.d.getLsbD 0 && t.a == 0#7 && t.y == 0#4 && !t.g) (.mxcRscl (t.d.extractLsb' 1 6) t.f t.e)
    | _ => .error .illegalOpcode
  | 0x6C =>
    if (t.y.extractLsb' 2 2).toNat < 3 then row (!t.u) (.sput t.d t.a t.x (t.y.extractLsb' 2 2) (t.y.extractLsb' 0 2) t.f t.g t.e) else .error .illegalOpcode
  | 0x6D =>
    if (t.y.extractLsb' 2 2).toNat < 3 then row (!t.u && !t.g) (.sget t.d t.a t.x (t.y.extractLsb' 2 2) (t.y.extractLsb' 0 2) t.f t.e) else .error .illegalOpcode
  | 0x6E =>
    row (!t.u && t.d == 0#7 && !t.g) (.sfwd t.a t.x (t.y.extractLsb' 2 2) (t.y.extractLsb' 0 2) t.f t.e)
  | 0x6F =>
    match t.y.toNat with
    | 0 => row (!t.u && !t.d.getLsbD 0 && t.a.extractLsb' 0 2 == 0#2 && !t.g) (.xscanAdd (t.d.extractLsb' 1 6) (t.a.extractLsb' 2 5) t.x t.f t.e)
    | 1 => row (!t.u && !t.d.getLsbD 0 && t.a.extractLsb' 0 2 == 0#2 && !t.g) (.xscanMul (t.d.extractLsb' 1 6) (t.a.extractLsb' 2 5) t.x t.f t.e)
    | 2 => row (!t.u && !t.d.getLsbD 0 && t.a.extractLsb' 0 2 == 0#2 && !t.g) (.xscanMin (t.d.extractLsb' 1 6) (t.a.extractLsb' 2 5) t.x t.f t.e)
    | 3 => row (!t.u && !t.d.getLsbD 0 && t.a.extractLsb' 0 2 == 0#2 && !t.g) (.xscanMax (t.d.extractLsb' 1 6) (t.a.extractLsb' 2 5) t.x t.f t.e)
    | 4 => row (!t.u && !t.d.getLsbD 0 && t.a.extractLsb' 0 2 == 0#2 && !t.g) (.xscanAff (t.d.extractLsb' 1 6) (t.a.extractLsb' 2 5) t.x t.f t.e)
    | _ => .error .illegalOpcode
  | 0x70 =>
    row (true) (.lrec t.u t.d t.a (t.x ++ t.y : BitVec 7) t.f t.g t.e)
  | 0x71 =>
    match t.y.toNat with
    | 0 => row (!t.u && t.d == 0#7 && t.a == 0#7 && !t.f && !t.g) (.tfenPtrel t.x t.e)
    | 1 => row (!t.u && t.d == 0#7 && t.a == 0#7 && !t.f && !t.g) (.tfenWalkacq t.x t.e)
    | 2 => row (!t.a.getLsbD 0) (.tfenSync t.u t.d (t.a.extractLsb' 1 6) t.x t.f t.g t.e)
    | _ => .error .illegalOpcode
  | 0x72 =>
    match t.y.toNat with
    | 0 => row (!t.a.getLsbD 0) (.tinvPage t.u t.d (t.a.extractLsb' 1 6) t.x t.f t.g t.e)
    | 1 => row (t.d == 0#7 && t.a == 0#7 && !t.f && !t.g) (.tinvCtx t.u t.x t.e)
    | _ => .error .illegalOpcode
  | 0x73 =>
    if t.y == 0#4 then row (!t.d.getLsbD 0 && !t.a.getLsbD 0 && t.x == 0#3 && !t.g) (.tprb t.u (t.d.extractLsb' 1 6) (t.a.extractLsb' 1 6) t.f t.e) else .error .illegalOpcode
  | 0x74 =>
    match (t.y.extractLsb' 0 3).toNat with
    | 1 => row (t.u && !t.d.getLsbD 0 && t.x == 0#3 && !t.y.getLsbD 3 && !t.g) (.thintPromote (t.d.extractLsb' 1 6) t.a t.f t.e)
    | 2 => row (t.u && !t.d.getLsbD 0 && t.x == 0#3 && !t.y.getLsbD 3 && !t.g) (.thintDemote (t.d.extractLsb' 1 6) t.a t.f t.e)
    | 3 => row (t.u && !t.d.getLsbD 0 && t.x == 0#3 && !t.y.getLsbD 3 && !t.g) (.thintPin (t.d.extractLsb' 1 6) t.a t.f t.e)
    | 4 => row (t.u && !t.d.getLsbD 0 && t.x == 0#3 && !t.y.getLsbD 3 && !t.g) (.thintUnpin (t.d.extractLsb' 1 6) t.a t.f t.e)
    | 5 => row (t.u && !t.d.getLsbD 0 && t.x == 0#3 && !t.y.getLsbD 3 && !t.g) (.thintRelease (t.d.extractLsb' 1 6) t.a t.f t.e)
    | _ => .error .illegalOpcode
  | 0x75 =>
    row (t.u && t.d.extractLsb' 0 2 == 0#2 && t.x == 0#3 && t.y == 0#4 && !t.g) (.migr (t.d.extractLsb' 2 5) t.a t.f t.e)
  | 0x76 =>
    row (t.u && !t.d.getLsbD 0 && !t.a.getLsbD 0 && t.x == 0#3 && !t.y.getLsbD 3 && t.f && !t.g) (.launch (t.d.extractLsb' 1 6) (t.a.extractLsb' 1 6) (t.y.extractLsb' 0 3) t.e)
  | 0x77 =>
    row (t.u && t.x == 0#3 && t.y == 0#4 && !t.f && !t.g) (.lwait t.d t.a t.e)
  | 0x78 =>
    match (t.d.extractLsb' 4 3).toNat with
    | 0 => row (!t.u && t.d.extractLsb' 0 4 == 0#4) (.contOpen (t.a ++ t.x ++ t.y ++ BitVec.ofBool t.f ++ BitVec.ofBool t.g : BitVec 16) t.e)
    | 1 => row (!t.u && t.d.extractLsb' 0 4 == 0#4 && t.a == 0#7 && t.x == 0#3 && t.y == 0#4 && !t.f && !t.g) (.contClose t.e)
    | _ => .error .illegalOpcode
  | 0x79 =>
    match (t.d.extractLsb' 4 3).toNat with
    | 0 => row (!t.u && t.d.extractLsb' 0 4 == 0#4 && t.a == 0#7 && t.x == 0#3 && t.y == 0#4 && !t.f && !t.g) (.dualOn t.e)
    | 1 => row (!t.u && t.d.extractLsb' 0 4 == 0#4 && t.a == 0#7 && t.x == 0#3 && t.y == 0#4 && !t.f && !t.g) (.dualOff t.e)
    | _ => .error .illegalOpcode
  | 0x7A =>
    let n := ((t.x.extractLsb' 0 2) ++ t.y).toNat
    if t.x.getLsbD 2 then
      (if n < 7 then row (!t.u && t.d == 0#7 && !t.g) (.csrWr t.a ((t.x.extractLsb' 0 2) ++ t.y : BitVec 6) t.f t.e) else .error .illegalOpcode)
    else (if n < 8 || (16 ≤ n && n < 32) then row (!t.u && t.a == 0#7 && !t.f && !t.g) (.csrRd t.d ((t.x.extractLsb' 0 2) ++ t.y : BitVec 6) t.e) else .error .illegalOpcode)
  | 0x7B =>
    match (t.d.extractLsb' 4 3).toNat with
    | 0 => row (!t.u && t.d.extractLsb' 0 4 == 0#4 && t.a == 0#7 && t.x == 0#3 && t.y == 0#4 && !t.f && !t.g && t.e) (.rfeNext)
    | 1 => row (!t.u && t.d.extractLsb' 0 4 == 0#4 && t.a == 0#7 && t.x == 0#3 && t.y == 0#4 && !t.f && !t.g && t.e) (.rfeRetry)
    | 2 => row (!t.u && t.d.extractLsb' 0 4 == 0#4 && t.a == 0#7 && t.x == 0#3 && t.y == 0#4 && !t.f && !t.g && t.e) (.rfeKill)
    | 3 => row (!t.u && t.d.extractLsb' 0 4 == 0#4 && t.a == 0#7 && t.x.extractLsb' 1 2 == 0#2 && !t.g && t.e) (.rfeSave ((t.x.extractLsb' 0 1) ++ t.y ++ BitVec.ofBool t.f : BitVec 6))
    | 4 => row (!t.u && t.d.extractLsb' 0 4 == 0#4 && t.a == 0#7 && t.x == 0#3 && t.y == 0#4 && !t.f && !t.g && t.e) (.rfeRest)
    | _ => .error .illegalOpcode
  | 0x7C =>
    match (t.x ++ t.y).toNat with
    | 0 => row (!t.u && !t.a.getLsbD 0 && !t.f && !t.g) (.ctxSgr t.d (t.a.extractLsb' 1 6) t.e)
    | 1 => row (!t.u && !t.a.getLsbD 0 && !t.f && !t.g) (.ctxLgr t.d (t.a.extractLsb' 1 6) t.e)
    | 2 => row (!t.u && t.d == 0#7 && !t.a.getLsbD 0 && !t.f && !t.g) (.ctxSst (t.a.extractLsb' 1 6) t.e)
    | 3 => row (!t.u && t.d == 0#7 && !t.a.getLsbD 0 && !t.f && !t.g) (.ctxLst (t.a.extractLsb' 1 6) t.e)
    | 4 => row (!t.u && t.d == 0#7 && !t.a.getLsbD 0 && !t.f && !t.g) (.ctxSwg (t.a.extractLsb' 1 6) t.e)
    | 5 => row (!t.u && t.d == 0#7 && !t.a.getLsbD 0 && !t.f && !t.g) (.ctxLwg (t.a.extractLsb' 1 6) t.e)
    | 6 => row (!t.u && t.d == 0#7 && t.a == 0#7 && !t.f && !t.g) (.ctxQuiet t.e)
    | _ => .error .illegalOpcode
  | 0x7D =>
    match t.x.toNat with
    | 0 => (match t.y.toNat with
      | 0 => row (!t.d.getLsbD 0 && t.a == 0#7 && !t.f && !t.g) (.tmrNow t.u (t.d.extractLsb' 1 6) t.e)
      | 1 => row (t.a == 0#7 && !t.f && !t.g) (.tmrFrame t.u t.d t.e)
      | _ => .error .illegalOpcode)
    | 1 => if t.y.toNat < 9 then (row (!t.d.getLsbD 0 && !t.a.getLsbD 0 && !t.g) (.tmrTo t.u (t.d.extractLsb' 1 6) (t.a.extractLsb' 1 6) t.y t.f t.e)) else .error .illegalOpcode
    | 2 => if t.y.toNat < 9 then (row (!t.d.getLsbD 0 && !t.a.getLsbD 0 && !t.g) (.tmrFrom t.u (t.d.extractLsb' 1 6) (t.a.extractLsb' 1 6) t.y t.f t.e)) else .error .illegalOpcode
    | _ => .error .illegalOpcode
  | 0x7E =>
    row (!t.u && t.d == 0#7 && t.a == 0#7 && t.x == 0#3 && t.y == 0#4 && !t.f && !t.g) (.nop t.e)
  | _ => .error .illegalOpcode

/-- The instruction that columns spell: their row (R85), then the limits of their fields (step 4 of R90). -/
def decodeColumns (t : Strip) : Except DecodeError Instr :=
  match decodeStrip t with
  | .ok i => if wellFormed i then .ok i else .error .reservedField
  | .error e => .error e

/-- The instruction a word spells. -/
def decode (w : Word) : Except DecodeError Instr := decodeColumns (Strip.split w)

/-- The columns of an instruction word, written from the same encoding tables (R103, R131, R158, R169 and their like);
an event has no encoding. -/
def encodeStrip : Instr → Option Strip
  | .illegal e => some ⟨0#7, false, 0#7, 0#7, 0#3, 0#4, false, false, e⟩
  | .add u d a b k l e => some ⟨1#7, u, d, a, (b.extractLsb' 4 3), (b.extractLsb' 0 4), k, l, e⟩
  | .sub u d a b k l e => some ⟨2#7, u, d, a, (b.extractLsb' 4 3), (b.extractLsb' 0 4), k, l, e⟩
  | .mul u d a b k l e => some ⟨3#7, u, d, a, (b.extractLsb' 4 3), (b.extractLsb' 0 4), k, l, e⟩
  | .mulhi u d a b k l e => some ⟨4#7, u, d, a, (b.extractLsb' 4 3), (b.extractLsb' 0 4), k, l, e⟩
  | .mad u d a b k l e => some ⟨5#7, u, d, a, (b.extractLsb' 4 3), (b.extractLsb' 0 4), k, l, e⟩
  | .min u d a b k l e => some ⟨6#7, u, d, a, (b.extractLsb' 4 3), (b.extractLsb' 0 4), k, l, e⟩
  | .max u d a b k l e => some ⟨7#7, u, d, a, (b.extractLsb' 4 3), (b.extractLsb' 0 4), k, l, e⟩
  | .and u d a b k l e => some ⟨8#7, u, d, a, (b.extractLsb' 4 3), (b.extractLsb' 0 4), k, l, e⟩
  | .or u d a b k l e => some ⟨9#7, u, d, a, (b.extractLsb' 4 3), (b.extractLsb' 0 4), k, l, e⟩
  | .xor u d a b k l e => some ⟨10#7, u, d, a, (b.extractLsb' 4 3), (b.extractLsb' 0 4), k, l, e⟩
  | .shl u d a b k l e => some ⟨11#7, u, d, a, (b.extractLsb' 4 3), (b.extractLsb' 0 4), k, l, e⟩
  | .shr u d a b k l e => some ⟨12#7, u, d, a, (b.extractLsb' 4 3), (b.extractLsb' 0 4), k, l, e⟩
  | .sar u d a b k l e => some ⟨13#7, u, d, a, (b.extractLsb' 4 3), (b.extractLsb' 0 4), k, l, e⟩
  | .rot u d a b k l e => some ⟨14#7, u, d, a, (b.extractLsb' 4 3), (b.extractLsb' 0 4), k, l, e⟩
  | .addc u d a b k l e => some ⟨15#7, u, d, a, (b.extractLsb' 4 3), (b.extractLsb' 0 4), k, l, e⟩
  | .subc u d a b k l e => some ⟨16#7, u, d, a, (b.extractLsb' 4 3), (b.extractLsb' 0 4), k, l, e⟩
  | .sel u d a b k l e => some ⟨17#7, u, d, a, (b.extractLsb' 4 3), (b.extractLsb' 0 4), k, l, e⟩
  | .lea u d a b k l e => some ⟨18#7, u, (d ++ 0#1), (a ++ 0#1), (b.extractLsb' 4 3), (b.extractLsb' 0 4), k, l, e⟩
  | .bfe u d a b k l e => some ⟨19#7, u, d, a, (b.extractLsb' 4 3), (b.extractLsb' 0 4), k, l, e⟩
  | .bfi u d a b k l e => some ⟨20#7, u, d, a, (b.extractLsb' 4 3), (b.extractLsb' 0 4), k, l, e⟩
  | .prmt u d a b k l e => some ⟨21#7, u, d, a, (b.extractLsb' 4 3), (b.extractLsb' 0 4), k, l, e⟩
  | .cmp u c p a b k l e => some ⟨22#7, u, (c ++ 0#1 ++ p), a, (b.extractLsb' 4 3), (b.extractLsb' 0 4), k, l, e⟩
  | .iopNeg u d a k e => some ⟨23#7, u, d, a, 0#3, 0#4, k, false, e⟩
  | .iopAbs u d a k e => some ⟨23#7, u, d, a, 0#3, 1#4, k, false, e⟩
  | .iopNot u d a k e => some ⟨23#7, u, d, a, 0#3, 2#4, k, false, e⟩
  | .iopPopc u d a k e => some ⟨23#7, u, d, a, 0#3, 3#4, k, false, e⟩
  | .iopClz u d a k e => some ⟨23#7, u, d, a, 0#3, 4#4, k, false, e⟩
  | .iopCtz u d a k e => some ⟨23#7, u, d, a, 0#3, 5#4, k, false, e⟩
  | .iopBrev u d a k e => some ⟨23#7, u, d, a, 0#3, 6#4, k, false, e⟩
  | .iopSx8 u d a k e => some ⟨23#7, u, d, a, 0#3, 7#4, k, false, e⟩
  | .iopSx16 u d a k e => some ⟨23#7, u, d, a, 0#3, 8#4, k, false, e⟩
  | .iopZx8 u d a k e => some ⟨23#7, u, d, a, 0#3, 9#4, k, false, e⟩
  | .iopZx16 u d a k e => some ⟨23#7, u, d, a, 0#3, 10#4, k, false, e⟩
  | .iopMov u d a k e => some ⟨23#7, u, d, a, 0#3, 11#4, k, false, e⟩
  | .iopMovp u d a e => some ⟨23#7, u, d, (0#4 ++ a), 0#3, 12#4, false, false, e⟩
  | .iopPmov u d a k e => some ⟨23#7, u, (0#4 ++ d), a, 0#3, 13#4, k, false, e⟩
  | .plog u d a b t e => some ⟨24#7, u, (0#4 ++ d), (0#4 ++ a), b, t, false, false, e⟩
  | .movi u d i e => some ⟨25#7, u, d, (i.extractLsb' 9 7), (i.extractLsb' 6 3), (i.extractLsb' 2 4), (i.getLsbD 1), (i.getLsbD 0), e⟩
  | .movhi u d i e => some ⟨26#7, u, d, (i.extractLsb' 9 7), (i.extractLsb' 6 3), (i.extractLsb' 2 4), (i.getLsbD 1), (i.getLsbD 0), e⟩
  | .addi u d i e => some ⟨27#7, u, d, (i.extractLsb' 9 7), (i.extractLsb' 6 3), (i.extractLsb' 2 4), (i.getLsbD 1), (i.getLsbD 0), e⟩
  | .andi u d i e => some ⟨28#7, u, d, (i.extractLsb' 9 7), (i.extractLsb' 6 3), (i.extractLsb' 2 4), (i.getLsbD 1), (i.getLsbD 0), e⟩
  | .ori u d i e => some ⟨29#7, u, d, (i.extractLsb' 9 7), (i.extractLsb' 6 3), (i.extractLsb' 2 4), (i.getLsbD 1), (i.getLsbD 0), e⟩
  | .xori u d i e => some ⟨30#7, u, d, (i.extractLsb' 9 7), (i.extractLsb' 6 3), (i.extractLsb' 2 4), (i.getLsbD 1), (i.getLsbD 0), e⟩
  | .muli u d i e => some ⟨31#7, u, d, (i.extractLsb' 9 7), (i.extractLsb' 6 3), (i.extractLsb' 2 4), (i.getLsbD 1), (i.getLsbD 0), e⟩
  | .shli u d a i k e => some ⟨32#7, u, d, a, (i.extractLsb' 4 3), (i.extractLsb' 0 4), k, false, e⟩
  | .shri u d a i k e => some ⟨33#7, u, d, a, (i.extractLsb' 4 3), (i.extractLsb' 0 4), k, false, e⟩
  | .sari u d a i k e => some ⟨34#7, u, d, a, (i.extractLsb' 4 3), (i.extractLsb' 0 4), k, false, e⟩
  | .cmpi u c p a i k e => some ⟨35#7, u, (c ++ 0#1 ++ p), a, (i.extractLsb' 4 3), (i.extractLsb' 0 4), k, false, e⟩
  | .leai u d a i k e => some ⟨36#7, u, (d ++ 0#1), (a ++ 0#1), (i.extractLsb' 4 3), (i.extractLsb' 0 4), k, false, e⟩
  | .bra u i => some ⟨37#7, u, 0#7, (i.extractLsb' 9 7), (i.extractLsb' 6 3), (i.extractLsb' 2 4), (i.getLsbD 1), (i.getLsbD 0), true⟩
  | .brt u p i => some ⟨38#7, u, (0#4 ++ p), (i.extractLsb' 9 7), (i.extractLsb' 6 3), (i.extractLsb' 2 4), (i.getLsbD 1), (i.getLsbD 0), true⟩
  | .brf u p i => some ⟨39#7, u, (0#4 ++ p), (i.extractLsb' 9 7), (i.extractLsb' 6 3), (i.extractLsb' 2 4), (i.getLsbD 1), (i.getLsbD 0), true⟩
  | .call u c i => some ⟨40#7, u, (c ++ 0#1), (i.extractLsb' 9 7), (i.extractLsb' 6 3), (i.extractLsb' 2 4), (i.getLsbD 1), (i.getLsbD 0), true⟩
  | .jmp u a k => some ⟨41#7, u, 0#7, (a ++ 0#1), 0#3, 0#4, k, false, true⟩
  | .ret u a k => some ⟨42#7, u, 0#7, (a ++ 0#1), 0#3, 0#4, k, false, true⟩
  | .exit => some ⟨43#7, false, 0#7, 0#7, 0#3, 0#4, false, false, true⟩
  | .trap n => some ⟨44#7, false, 0#7, 0#7, (0#1 ++ (n.extractLsb' 6 2)), (n.extractLsb' 2 4), (n.getLsbD 1), (n.getLsbD 0), true⟩
  | .brk t => some ⟨45#7, false, 0#7, (t.extractLsb' 9 7), (t.extractLsb' 6 3), (t.extractLsb' 2 4), (t.getLsbD 1), (t.getLsbD 0), true⟩
  | .modeLo i e => some ⟨46#7, false, 0#7, (i.extractLsb' 9 7), (i.extractLsb' 6 3), (i.extractLsb' 2 4), (i.getLsbD 1), (i.getLsbD 0), e⟩
  | .modeHi i e => some ⟨46#7, false, 1#7, (i.extractLsb' 9 7), (i.extractLsb' 6 3), (i.extractLsb' 2 4), (i.getLsbD 1), (i.getLsbD 0), e⟩
  | .fmtLo i e => some ⟨47#7, false, 0#7, (i.extractLsb' 9 7), (i.extractLsb' 6 3), (i.extractLsb' 2 4), (i.getLsbD 1), (i.getLsbD 0), e⟩
  | .fmtHi i e => some ⟨47#7, false, 1#7, (i.extractLsb' 9 7), (i.extractLsb' 6 3), (i.extractLsb' 2 4), (i.getLsbD 1), (i.getLsbD 0), e⟩
  | .region e => some ⟨62#7, false, 0#7, 0#7, 0#3, 0#4, false, false, e⟩
  | .fadd u d a b k l e => some ⟨48#7, u, d, a, (b.extractLsb' 4 3), (b.extractLsb' 0 4), k, l, e⟩
  | .fsub u d a b k l e => some ⟨49#7, u, d, a, (b.extractLsb' 4 3), (b.extractLsb' 0 4), k, l, e⟩
  | .fmul u d a b k l e => some ⟨50#7, u, d, a, (b.extractLsb' 4 3), (b.extractLsb' 0 4), k, l, e⟩
  | .ffma u d a b k l e => some ⟨51#7, u, d, a, (b.extractLsb' 4 3), (b.extractLsb' 0 4), k, l, e⟩
  | .fmin u d a b k l e => some ⟨52#7, u, d, a, (b.extractLsb' 4 3), (b.extractLsb' 0 4), k, l, e⟩
  | .fmax u d a b k l e => some ⟨53#7, u, d, a, (b.extractLsb' 4 3), (b.extractLsb' 0 4), k, l, e⟩
  | .fcmp u c p a b k l e => some ⟨54#7, u, (c ++ 0#1 ++ p), a, (b.extractLsb' 4 3), (b.extractLsb' 0 4), k, l, e⟩
  | .fopFneg u d a k e => some ⟨55#7, u, d, a, 0#3, 0#4, k, false, e⟩
  | .fopFabs u d a k e => some ⟨55#7, u, d, a, 0#3, 1#4, k, false, e⟩
  | .fopFrcp u d a k e => some ⟨55#7, u, d, a, 0#3, 2#4, k, false, e⟩
  | .fopFrsq u d a k e => some ⟨55#7, u, d, a, 0#3, 3#4, k, false, e⟩
  | .fopFsqrt u d a k e => some ⟨55#7, u, d, a, 0#3, 4#4, k, false, e⟩
  | .fopFex2 u d a k e => some ⟨55#7, u, d, a, 0#3, 5#4, k, false, e⟩
  | .fopFlg2 u d a k e => some ⟨55#7, u, d, a, 0#3, 6#4, k, false, e⟩
  | .fopFsin u d a k e => some ⟨55#7, u, d, a, 0#3, 7#4, k, false, e⟩
  | .fopFcos u d a k e => some ⟨55#7, u, d, a, 0#3, 8#4, k, false, e⟩
  | .fopFtanh u d a k e => some ⟨55#7, u, d, a, 0#3, 9#4, k, false, e⟩
  | .fopFrni u d a k e => some ⟨55#7, u, d, a, 0#3, 10#4, k, false, e⟩
  | .fopFrzi u d a k e => some ⟨55#7, u, d, a, 0#3, 11#4, k, false, e⟩
  | .fopFrpi u d a k e => some ⟨55#7, u, d, a, 0#3, 12#4, k, false, e⟩
  | .fopFrmi u d a k e => some ⟨55#7, u, d, a, 0#3, 13#4, k, false, e⟩
  | .fopFfract u d a k e => some ⟨55#7, u, d, a, 0#3, 14#4, k, false, e⟩
  | .fopFclass u d a k e => some ⟨55#7, u, d, a, 0#3, 15#4, k, false, e⟩
  | .cvt u d a t k e => some ⟨56#7, u, d, a, 0#3, t, k, false, e⟩
  | .pack u d a b k l e => some ⟨57#7, u, d, a, (b.extractLsb' 4 3), (b.extractLsb' 0 4), k, l, e⟩
  | .unpkTag u d a k e => some ⟨58#7, u, d, (a ++ 0#2), 0#3, 0#4, k, false, e⟩
  | .unpk u d a n c k e => some ⟨58#7, u, d, (a ++ 0#2), n, c, k, false, e⟩
  | .fscl u d a b k l e => some ⟨59#7, u, d, a, (b.extractLsb' 4 3), (b.extractLsb' 0 4), k, l, e⟩
  | .fdot2 u d a b k l e => some ⟨60#7, u, d, a, (b.extractLsb' 4 3), (b.extractLsb' 0 4), k, l, e⟩
  | .ffms u d a b k l e => some ⟨61#7, u, d, a, (b.extractLsb' 4 3), (b.extractLsb' 0 4), k, l, e⟩
  | .rsize i e => some ⟨64#7, false, 0#7, 0#7, (i.extractLsb' 4 3), (i.extractLsb' 0 4), false, false, e⟩
  | .feEmpty d e => some ⟨65#7, false, d, 0#7, 0#3, 0#4, false, false, e⟩
  | .feFill d a k e => some ⟨65#7, false, d, a, 0#3, 1#4, k, false, e⟩
  | .feTest d a e => some ⟨65#7, false, (0#4 ++ d), a, 0#3, 2#4, false, false, e⟩
  | .feWait a k e => some ⟨65#7, false, 0#7, a, 0#3, 3#4, k, false, e⟩
  | .voteAll d a e => some ⟨66#7, false, (0#4 ++ d), (0#4 ++ a), 0#3, 0#4, false, false, e⟩
  | .voteAny d a e => some ⟨66#7, false, (0#4 ++ d), (0#4 ++ a), 0#3, 1#4, false, false, e⟩
  | .voteBallot d a e => some ⟨66#7, false, d, (0#4 ++ a), 0#3, 2#4, false, false, e⟩
  | .voteEq u d a k e => some ⟨66#7, u, (0#4 ++ d), a, 0#3, 3#4, k, false, e⟩
  | .voteMask d e => some ⟨66#7, false, d, 0#7, 0#3, 4#4, false, false, e⟩
  | .shfl u d a w v k e => some ⟨67#7, u, d, a, (w ++ (v.extractLsb' 4 1)), (v.extractLsb' 0 4), k, false, e⟩
  | .bcast u d a b k l e => some ⟨68#7, u, d, a, (b.extractLsb' 4 3), (b.extractLsb' 0 4), k, l, e⟩
  | .gredAdd u d a k e => some ⟨69#7, u, d, a, 0#3, 0#4, k, false, e⟩
  | .gredMin u d a k e => some ⟨69#7, u, d, a, 0#3, 1#4, k, false, e⟩
  | .gredMax u d a k e => some ⟨69#7, u, d, a, 0#3, 2#4, k, false, e⟩
  | .gredAnd u d a k e => some ⟨69#7, u, d, a, 0#3, 3#4, k, false, e⟩
  | .gredOr u d a k e => some ⟨69#7, u, d, a, 0#3, 4#4, k, false, e⟩
  | .gredXor u d a k e => some ⟨69#7, u, d, a, 0#3, 5#4, k, false, e⟩
  | .gscanAdd d a x k e => some ⟨70#7, false, d, a, (0#2 ++ BitVec.ofBool x), 0#4, k, false, e⟩
  | .gscanMin d a x k e => some ⟨70#7, false, d, a, (0#2 ++ BitVec.ofBool x), 1#4, k, false, e⟩
  | .gscanMax d a x k e => some ⟨70#7, false, d, a, (0#2 ++ BitVec.ofBool x), 2#4, k, false, e⟩
  | .gscanAnd d a x k e => some ⟨70#7, false, d, a, (0#2 ++ BitVec.ofBool x), 3#4, k, false, e⟩
  | .gscanOr d a x k e => some ⟨70#7, false, d, a, (0#2 ++ BitVec.ofBool x), 4#4, k, false, e⟩
  | .gscanXor d a x k e => some ⟨70#7, false, d, a, (0#2 ++ BitVec.ofBool x), 5#4, k, false, e⟩
  | .gscanMul d a x k e => some ⟨70#7, false, d, a, (0#2 ++ BitVec.ofBool x), 6#4, k, false, e⟩
  | .gscanAff d a x k e => some ⟨70#7, false, (d ++ 0#1), (a ++ 0#1), (0#2 ++ BitVec.ofBool x), 7#4, k, false, e⟩
  | .mcall x y q r e => some ⟨71#7, false, x, y, q, (r.extractLsb' 2 4), (r.getLsbD 1), (r.getLsbD 0), e⟩
  | .sreg u d n e => some ⟨72#7, u, d, 0#7, (n.extractLsb' 4 3), (n.extractLsb' 0 4), false, false, e⟩
  | .utagKind d a k e => some ⟨73#7, false, d, a, 0#3, 0#4, k, false, e⟩
  | .utagStride d a k e => some ⟨73#7, false, d, a, 0#3, 1#4, k, false, e⟩
  | .utagGen a k e => some ⟨73#7, false, 0#7, a, 0#3, 2#4, k, false, e⟩
  | .utagChk a k e => some ⟨73#7, false, 0#7, a, 0#3, 3#4, k, false, e⟩
  | .utagChk64 a k e => some ⟨73#7, false, 0#7, (a ++ 0#1), 0#3, 4#4, k, false, e⟩
  | .ldg u d a w f k e => some ⟨74#7, u, d, (a ++ 0#1), w, f, k, false, e⟩
  | .stg u d a w f k m e => some ⟨75#7, u, d, (a ++ 0#1), w, f, k, m, e⟩
  | .lds u d a w f k e => some ⟨76#7, u, d, a, w, f, k, false, e⟩
  | .sts u d a w f k m e => some ⟨77#7, u, d, a, w, f, k, m, e⟩
  | .ldp u d a w f k e => some ⟨78#7, u, d, (a ++ 0#1), w, f, k, false, e⟩
  | .stp u d a w f k m e => some ⟨79#7, u, d, (a ++ 0#1), w, f, k, m, e⟩
  | .ldc u d a w f k e => some ⟨80#7, u, d, a, w, f, k, false, e⟩
  | .lda u d a s w k e => some ⟨81#7, u, d, (a ++ 0#1), s, (0#3 ++ BitVec.ofBool w), k, false, e⟩
  | .ldaPoll u d a s w k m e => some ⟨81#7, u, d, (a ++ 0#1), s, (1#3 ++ BitVec.ofBool w), k, m, e⟩
  | .stl u d a s w k m e => some ⟨82#7, u, d, (a ++ 0#1), s, (0#3 ++ BitVec.ofBool w), k, m, e⟩
  | .fenceFull s e => some ⟨83#7, false, 0#7, 0#7, s, 0#4, false, false, e⟩
  | .fenceRel s e => some ⟨83#7, false, 0#7, 0#7, s, 1#4, false, false, e⟩
  | .fenceAcq s e => some ⟨83#7, false, 0#7, 0#7, s, 2#4, false, false, e⟩
  | .cacheWbl u a s k e => some ⟨84#7, u, 0#7, (a ++ 0#1), s, 0#4, k, false, e⟩
  | .cacheInvl u a k e => some ⟨84#7, u, 0#7, (a ++ 0#1), 0#3, 1#4, k, false, e⟩
  | .cacheWball s e => some ⟨84#7, false, 0#7, 0#7, s, 2#4, false, false, e⟩
  | .cacheInvall e => some ⟨84#7, false, 0#7, 0#7, 0#3, 3#4, false, false, e⟩
  | .cacheSwb n e => some ⟨84#7, false, (0#5 ++ n), 0#7, 0#3, 4#4, false, false, e⟩
  | .smap n a b k l e => some ⟨85#7, true, (0#5 ++ n), (a ++ 0#1), (b.extractLsb' 3 3), ((b.extractLsb' 0 3) ++ 0#1), k, l, e⟩
  | .pfm u v a w f k e => some ⟨86#7, u, (0#5 ++ v), (a ++ 0#1), w, f, k, false, e⟩
  | .amoAdd u d a s t k m e => some ⟨88#7, u, d, a, s, (BitVec.ofBool t ++ 0#3), k, m, e⟩
  | .amoMin u d a s t k m e => some ⟨88#7, u, d, a, s, (BitVec.ofBool t ++ 1#3), k, m, e⟩
  | .amoMax u d a s t k m e => some ⟨88#7, u, d, a, s, (BitVec.ofBool t ++ 2#3), k, m, e⟩
  | .amoAnd u d a s t k m e => some ⟨88#7, u, d, a, s, (BitVec.ofBool t ++ 3#3), k, m, e⟩
  | .amoOr u d a s t k m e => some ⟨88#7, u, d, a, s, (BitVec.ofBool t ++ 4#3), k, m, e⟩
  | .amoXor u d a s t k m e => some ⟨88#7, u, d, a, s, (BitVec.ofBool t ++ 5#3), k, m, e⟩
  | .amoExch u d a s t k m e => some ⟨88#7, u, d, a, s, (BitVec.ofBool t ++ 6#3), k, m, e⟩
  | .amoIncw u d a s t k m e => some ⟨88#7, u, d, a, s, (BitVec.ofBool t ++ 7#3), k, m, e⟩
  | .redAdd u d a s t k m e => some ⟨89#7, u, d, a, s, (BitVec.ofBool t ++ 0#3), k, m, e⟩
  | .redMin u d a s t k m e => some ⟨89#7, u, d, a, s, (BitVec.ofBool t ++ 1#3), k, m, e⟩
  | .redMax u d a s t k m e => some ⟨89#7, u, d, a, s, (BitVec.ofBool t ++ 2#3), k, m, e⟩
  | .redAnd u d a s t k m e => some ⟨89#7, u, d, a, s, (BitVec.ofBool t ++ 3#3), k, m, e⟩
  | .redOr u d a s t k m e => some ⟨89#7, u, d, a, s, (BitVec.ofBool t ++ 4#3), k, m, e⟩
  | .redXor u d a s t k m e => some ⟨89#7, u, d, a, s, (BitVec.ofBool t ++ 5#3), k, m, e⟩
  | .cas u d a s t q k m e => some ⟨90#7, u, d, a, s, (BitVec.ofBool t ++ q), k, m, e⟩
  | .txb u d a k e => some ⟨91#7, u, d, (a ++ 0#1), 5#3, 0#4, k, false, e⟩
  | .txe p e => some ⟨92#7, false, (0#4 ++ p), 0#7, 5#3, 0#4, false, false, e⟩
  | .txa n e => some ⟨93#7, false, 0#7, 0#7, 5#3, n, false, false, e⟩
  | .barSync a s b k e => some ⟨94#7, false, 0#7, a, s, b, k, false, e⟩
  | .barArrive a s b k e => some ⟨94#7, false, 1#7, a, s, b, k, false, e⟩
  | .barWait s b e => some ⟨94#7, false, 2#7, 0#7, s, b, false, false, e⟩
  | .barPeek q s b e => some ⟨94#7, false, (0#2 ++ q ++ 3#2), 0#7, s, b, false, false, e⟩
  | .bexpPost a s b k e => some ⟨95#7, false, 0#7, a, s, b, k, false, e⟩
  | .bexpArrive a s b k e => some ⟨95#7, false, 1#7, a, s, b, k, false, e⟩
  | .cpyTile d a s l r e => some ⟨96#7, true, (d ++ 0#2), (a ++ 0#2), 0#3, s, l, r, e⟩
  | .cpyGather d a s l r e => some ⟨96#7, true, (d ++ 0#2), (a ++ 0#2), 1#3, s, l, r, e⟩
  | .cpyScatter d a s l r e => some ⟨96#7, true, (d ++ 0#2), (a ++ 0#2), 2#3, s, l, r, e⟩
  | .cpyAxpb d a s l r e => some ⟨96#7, true, (d ++ 0#2), (a ++ 0#2), 3#3, s, l, r, e⟩
  | .cpyRescale d a s l r e => some ⟨96#7, true, (d ++ 0#2), (a ++ 0#2), 4#3, s, l, r, e⟩
  | .cpyFill d a s l r e => some ⟨96#7, true, (d ++ 0#2), (a ++ 0#2), 5#3, s, l, r, e⟩
  | .cpySum d a s l r e => some ⟨96#7, true, (d ++ 0#2), (a ++ 0#2), 6#3, s, l, r, e⟩
  | .cpyd m l e => some ⟨97#7, true, 0#7, 0#7, 0#3, m, l, false, e⟩
  | .cpyr a s l e => some ⟨98#7, true, 0#7, (a ++ 0#1), 0#3, s, l, false, e⟩
  | .mma d a l r e => some ⟨100#7, true, (d ++ 0#2), (a ++ 0#3), 0#3, 0#4, l, r, e⟩
  | .cmma d a l r e => some ⟨101#7, true, (d ++ 0#2), (a ++ 0#3), 0#3, 0#4, l, r, e⟩
  | .pmma d a l r e => some ⟨102#7, true, (d ++ 0#2), (a ++ 0#3), 0#3, 0#4, l, r, e⟩
  | .mxf d e => some ⟨103#7, true, d, 0#7, 0#3, 0#4, false, false, e⟩
  | .mxw a b e => some ⟨104#7, true, 0#7, a, (b.extractLsb' 4 3), (b.extractLsb' 0 4), false, false, e⟩
  | .mxr e => some ⟨105#7, true, 0#7, 0#7, 0#3, 0#4, false, false, e⟩
  | .panLd d a w e => some ⟨106#7, true, d, a, 0#3, w, false, false, e⟩
  | .panSt d a w e => some ⟨106#7, true, d, a, 1#3, w, false, false, e⟩
  | .mxcZero d l e => some ⟨107#7, true, (d ++ 0#1), 0#7, 0#3, 0#4, l, false, e⟩
  | .mxcRscl d l e => some ⟨107#7, true, (d ++ 0#1), 0#7, 1#3, 0#4, l, false, e⟩
  | .sput d a s z r k m e => some ⟨108#7, false, d, a, s, (z ++ r), k, m, e⟩
  | .sget d a s z r k e => some ⟨109#7, false, d, a, s, (z ++ r), k, false, e⟩
  | .sfwd a s i o k e => some ⟨110#7, false, 0#7, a, s, (i ++ o), k, false, e⟩
  | .xscanAdd d a s k e => some ⟨111#7, false, (d ++ 0#1), (a ++ 0#2), s, 0#4, k, false, e⟩
  | .xscanMul d a s k e => some ⟨111#7, false, (d ++ 0#1), (a ++ 0#2), s, 1#4, k, false, e⟩
  | .xscanMin d a s k e => some ⟨111#7, false, (d ++ 0#1), (a ++ 0#2), s, 2#4, k, false, e⟩
  | .xscanMax d a s k e => some ⟨111#7, false, (d ++ 0#1), (a ++ 0#2), s, 3#4, k, false, e⟩
  | .xscanAff d a s k e => some ⟨111#7, false, (d ++ 0#1), (a ++ 0#2), s, 4#4, k, false, e⟩
  | .lrec u d a b k l e => some ⟨112#7, u, d, a, (b.extractLsb' 4 3), (b.extractLsb' 0 4), k, l, e⟩
  | .tfenPtrel s e => some ⟨113#7, false, 0#7, 0#7, s, 0#4, false, false, e⟩
  | .tfenWalkacq s e => some ⟨113#7, false, 0#7, 0#7, s, 1#4, false, false, e⟩
  | .tfenSync u d a s k m e => some ⟨113#7, u, d, (a ++ 0#1), s, 2#4, k, m, e⟩
  | .tinvPage u d a s k m e => some ⟨114#7, u, d, (a ++ 0#1), s, 0#4, k, m, e⟩
  | .tinvCtx u s e => some ⟨114#7, u, 0#7, 0#7, s, 1#4, false, false, e⟩
  | .tprb u d a k e => some ⟨115#7, u, (d ++ 0#1), (a ++ 0#1), 0#3, 0#4, k, false, e⟩
  | .thintPromote d a l e => some ⟨116#7, true, (d ++ 0#1), a, 0#3, 1#4, l, false, e⟩
  | .thintDemote d a l e => some ⟨116#7, true, (d ++ 0#1), a, 0#3, 2#4, l, false, e⟩
  | .thintPin d a l e => some ⟨116#7, true, (d ++ 0#1), a, 0#3, 3#4, l, false, e⟩
  | .thintUnpin d a l e => some ⟨116#7, true, (d ++ 0#1), a, 0#3, 4#4, l, false, e⟩
  | .thintRelease d a l e => some ⟨116#7, true, (d ++ 0#1), a, 0#3, 5#4, l, false, e⟩
  | .migr d a l e => some ⟨117#7, true, (d ++ 0#2), a, 0#3, 0#4, l, false, e⟩
  | .launch d a q e => some ⟨118#7, true, (d ++ 0#1), (a ++ 0#1), 0#3, (0#1 ++ q), true, false, e⟩
  | .lwait d a e => some ⟨119#7, true, d, a, 0#3, 0#4, false, false, e⟩
  | .contOpen i e => some ⟨120#7, false, 0#7, (i.extractLsb' 9 7), (i.extractLsb' 6 3), (i.extractLsb' 2 4), (i.getLsbD 1), (i.getLsbD 0), e⟩
  | .contClose e => some ⟨120#7, false, 16#7, 0#7, 0#3, 0#4, false, false, e⟩
  | .dualOn e => some ⟨121#7, false, 0#7, 0#7, 0#3, 0#4, false, false, e⟩
  | .dualOff e => some ⟨121#7, false, 16#7, 0#7, 0#3, 0#4, false, false, e⟩
  | .csrRd d n e => some ⟨122#7, false, d, 0#7, (0#1 ++ (n.extractLsb' 4 2)), (n.extractLsb' 0 4), false, false, e⟩
  | .csrWr a n k e => some ⟨122#7, false, 0#7, a, (1#1 ++ (n.extractLsb' 4 2)), (n.extractLsb' 0 4), k, false, e⟩
  | .rfeNext => some ⟨123#7, false, 0#7, 0#7, 0#3, 0#4, false, false, true⟩
  | .rfeRetry => some ⟨123#7, false, 16#7, 0#7, 0#3, 0#4, false, false, true⟩
  | .rfeKill => some ⟨123#7, false, 32#7, 0#7, 0#3, 0#4, false, false, true⟩
  | .rfeSave s => some ⟨123#7, false, 48#7, 0#7, (0#2 ++ (s.extractLsb' 5 1)), (s.extractLsb' 1 4), (s.getLsbD 0), false, true⟩
  | .rfeRest => some ⟨123#7, false, 64#7, 0#7, 0#3, 0#4, false, false, true⟩
  | .ctxSgr d a e => some ⟨124#7, false, d, (a ++ 0#1), 0#3, 0#4, false, false, e⟩
  | .ctxLgr d a e => some ⟨124#7, false, d, (a ++ 0#1), 0#3, 1#4, false, false, e⟩
  | .ctxSst a e => some ⟨124#7, false, 0#7, (a ++ 0#1), 0#3, 2#4, false, false, e⟩
  | .ctxLst a e => some ⟨124#7, false, 0#7, (a ++ 0#1), 0#3, 3#4, false, false, e⟩
  | .ctxSwg a e => some ⟨124#7, false, 0#7, (a ++ 0#1), 0#3, 4#4, false, false, e⟩
  | .ctxLwg a e => some ⟨124#7, false, 0#7, (a ++ 0#1), 0#3, 5#4, false, false, e⟩
  | .ctxQuiet e => some ⟨124#7, false, 0#7, 0#7, 0#3, 6#4, false, false, e⟩
  | .tmrNow u d e => some ⟨125#7, u, (d ++ 0#1), 0#7, 0#3, 0#4, false, false, e⟩
  | .tmrFrame u d e => some ⟨125#7, u, d, 0#7, 0#3, 1#4, false, false, e⟩
  | .tmrTo u d a j k e => some ⟨125#7, u, (d ++ 0#1), (a ++ 0#1), 1#3, j, k, false, e⟩
  | .tmrFrom u d a j k e => some ⟨125#7, u, (d ++ 0#1), (a ++ 0#1), 2#3, j, k, false, e⟩
  | .nop e => some ⟨126#7, false, 0#7, 0#7, 0#3, 0#4, false, false, e⟩
  | .nopreOn e => some ⟨63#7, false, 0#7, 0#7, 0#3, 0#4, false, false, e⟩
  | .nopreOff e => some ⟨63#7, false, 16#7, 0#7, 0#3, 0#4, false, false, e⟩
  | .tierHintRun _ => none
  | .migrationPage _ => none
  | .nopreLimit _ => none
  | .laneArbitration _ => none
  | .splitResume _ _ => none
  | .producerFill _ _ => none
  | .pollCompletion _ _ => none
  | .walk _ _ _ _ _ _ => none
  | .pageWaitRetry _ _ => none
  | .l1Eviction _ _ => none
  | .windowWriteBack _ _ => none
  | .remoteWriteCheck _ => none
  | .writeAcknowledgement _ => none
  | .lineFill _ _ => none
  | .copyCompletion _ _ => none
  | .copyStop _ _ => none
  | .matrixStep _ _ => none
  | .matrixStepComplete _ _ => none
  | .messageArrival _ _ => none
  | .creditReturn _ _ => none
  | .sluiceTimeout _ _ => none
  | .waitBudget _ => none
  | .trapWatchdog _ => none
  | .preemptionDiscard _ => none
  | .preemptionSave _ => none
  | .workgroupRestore _ _ => none
  | .inFieldTest _ => none
  | .testRunEnd _ _ => none
  | .resourceReturn _ => none
  | .errorRecordAppend _ => none
  | .managementRecordAppend _ => none
  | .unconsumedError _ _ _ => none
  | .hostQueueConsume _ => none
  | .gridReady _ => none
  | .rangeListComplete _ => none
  | .workgroupPlacement _ => none
  | .priorityAging _ => none
  | .gridRetirement _ => none
  | .dieFence _ => none
  | .voteDisagreement _ _ => none
  | .resyncComplete _ => none
  | .controlPlaneRestart _ => none
  | .frameBoundary => none
  | .timeConversionUpdate => none
  | .cxlReadTimeout _ => none
  | .hostCompletionTimeout _ _ => none
  | .isolationEnd _ => none
  | .linkRetrain _ => none
  | .contextCreate _ => none
  | .contextDestroy _ => none
  | .contextResume _ => none
  | .contextReset _ => none
  | .contextEnd _ => none
  | .preemptionRequest _ => none
  | .breakpointResume _ _ => none
  | .pageResumeDoorbell _ => none
  | .queueEnable _ _ => none
  | .queueDisable _ => none
  | .queueDoorbell _ _ => none
  | .attestationReport => none
  | .registerWrite _ _ => none
  | .moduleReset => none
  | .signedBoot => none
  | .portReset _ => none
  | .thermalTrip => none
  | .thermalThrottle _ => none
  | .dataLinkLayerLinkActive _ => none
  | .portResetExit _ => none

/-- The word of an instruction, none for an event. -/
def encode (i : Instr) : Option Word := (encodeStrip i).map Strip.pack

/-- The bytes of a word as memory holds it, little-endian (R2). -/
def wordBytes (w : Word) : List Byte :=
  [w.extractLsb' 0 8, w.extractLsb' 8 8, w.extractLsb' 16 8, w.extractLsb' 24 8]

/-- The instruction at the head of a list of bytes, with the rest of the list; a list shorter than one word is no
instruction. -/
def decodeBytes : List Byte → Except DecodeError (Instr × List Byte)
  | b0 :: b1 :: b2 :: b3 :: rest =>
    match decode (b3 ++ b2 ++ b1 ++ b0 : Word) with
    | .ok i => .ok (i, rest)
    | .error e => .error e
  | _ => .error .illegalOpcode

/-- The instruction that the decoder reads from a row of spec/opcode_table.json whose bits are w, one 32-bit word. -/
def decodeTableWord (nbits w : Nat) : Option Instr :=
  match decodeBytes (wordBytes (BitVec.ofNat 32 (w % 2 ^ nbits))) with
  | .ok (i, _) => some i
  | .error _ => none

end Sys2Proof
end

