-- ==== Sys2Proof/Machine/Float.lean ====
section
/-!
DEFINITION. Number formats and rounding (chapter 3): the floating-point formats, exact values, one rounding with its
overflow and flush rules (R54 to R61), the integer ranges of R57, and the functions of R138 evaluated on the exact
operand. A value between two numbers of a grid is held as the floor of its magnitude on a much finer grid with a
sticky bit for what lies above the floor, so every rounding is made once, from the exact value.
-/

namespace Sys2Proof.Machine

/-- The floating-point formats of R54. -/
inductive Fmt where
  | f64
  | f32
  | f16
  | bf16
  | e5m2
  | e4m3
  | e3m2
  | e2m3
  | e2m1
  deriving DecidableEq, Repr

/-- The width of the exponent field (R54). -/
def Fmt.expBits : Fmt → Nat
  | .f64 => 11
  | .f32 => 8
  | .f16 => 5
  | .bf16 => 8
  | .e5m2 => 5
  | .e4m3 => 4
  | .e3m2 => 3
  | .e2m3 => 2
  | .e2m1 => 2

/-- The width of the fraction field (R54). -/
def Fmt.fracBits : Fmt → Nat
  | .f64 => 52
  | .f32 => 23
  | .f16 => 10
  | .bf16 => 7
  | .e5m2 => 2
  | .e4m3 => 3
  | .e3m2 => 2
  | .e2m3 => 3
  | .e2m1 => 1

/-- The bias (R54): 2^(expBits − 1) − 1 in every format. -/
def Fmt.bias (f : Fmt) : Nat := 2 ^ (f.expBits - 1) - 1

/-- The width of an encoding. -/
def Fmt.width (f : Fmt) : Nat := 1 + f.expBits + f.fracBits

/-- The format holds infinities and the NaNs of an all-ones exponent (R54). -/
def Fmt.hasInf : Fmt → Bool
  | .f64 => true
  | .f32 => true
  | .f16 => true
  | .bf16 => true
  | .e5m2 => true
  | .e4m3 => false
  | .e3m2 => false
  | .e2m3 => false
  | .e2m1 => false

/-- The canonical NaN of a format (R56); the formats without a NaN take +0 in its place (R60). -/
def Fmt.nan (f : Fmt) : Nat :=
  match f with
  | .f64 => 0x7FF8000000000000
  | .f32 => 0x7FC00000
  | .f16 => 0x7E00
  | .bf16 => 0x7FC0
  | .e5m2 => 0x7E
  | .e4m3 => 0x7F
  | .e3m2 => 0
  | .e2m3 => 0
  | .e2m1 => 0

/-- The encoding of the largest finite value without its sign (R54). -/
def Fmt.maxFinite (f : Fmt) : Nat :=
  if f.hasInf then (2 ^ f.expBits - 1) * 2 ^ f.fracBits - 1
  else if f = .e4m3 then 0x7E else 2 ^ (f.expBits + f.fracBits) - 1

/-- The sign bit of a format. -/
def Fmt.sign (f : Fmt) (neg : Bool) : Nat := if neg then 2 ^ (f.expBits + f.fracBits) else 0

/-- A floating-point value: NaN, an infinity, or (−1)^neg · m · 2^e. -/
inductive FVal where
  | nan
  | inf (neg : Bool)
  | fin (neg : Bool) (m : Nat) (e : Int)
  deriving DecidableEq, Repr

/-- The value of an encoding (R54, R55). -/
def Fmt.value (f : Fmt) (x : Nat) : FVal :=
  let neg := x.testBit (f.expBits + f.fracBits)
  let e := x / 2 ^ f.fracBits % 2 ^ f.expBits
  let m := x % 2 ^ f.fracBits
  if f.hasInf && e == 2 ^ f.expBits - 1 then (if m = 0 then .inf neg else .nan)
  else if f == .e4m3 && e == 15 && m == 7 then .nan
  else if e = 0 then .fin neg m (1 - (f.bias : Int) - f.fracBits)
  else .fin neg (m + 2 ^ f.fracBits) ((e : Int) - f.bias - f.fracBits)

/-- The encoding is a subnormal (R61). -/
def Fmt.isSubnormal (f : Fmt) (x : Nat) : Bool :=
  x / 2 ^ f.fracBits % 2 ^ f.expBits == 0 && x % 2 ^ f.fracBits != 0

/-- Replaces a subnormal with a zero of its sign (R61). -/
def Fmt.flush (f : Fmt) (ftz : Bool) (x : Nat) : Nat :=
  if ftz && f.isSubnormal x then f.sign (x.testBit (f.expBits + f.fracBits)) else x

/-- One draw of a lane's generator (R59). -/
def drawSeed (s : BitVec 24) : BitVec 24 :=
  (s <<< 1) ||| BitVec.zeroExtend 24 (BitVec.ofBool ((s.getLsbD 23 ^^ s.getLsbD 22) ^^ (s.getLsbD 21 ^^ s.getLsbD 16)))

/-- The magnitude of an exact result: m·2^e, or strictly between m·2^e and (m + 1)·2^e when sticky. -/
structure Mag where
  m : Nat
  e : Int
  sticky : Bool
  deriving DecidableEq, Repr

/-- The number of bits of a natural number. -/
def bitLen (n : Nat) : Nat := if n = 0 then 0 else n.log2 + 1

/-- What one rounding of a magnitude on the grid of step 2^q gives: the multiple of the step, whether the upper
neighbour was chosen, and the generator (R58, R59). -/
def roundGrid (rnd : Nat) (neg : Bool) (x : Mag) (q : Int) (seed : BitVec 24) : Nat × Bool × BitVec 24 :=
  let sh := (q - x.e).toNat
  let lo := if x.e ≥ q then x.m * 2 ^ (x.e - q).toNat else x.m / 2 ^ sh
  let r := if x.e ≥ q then 0 else x.m % 2 ^ sh
  let half := if x.e ≥ q then 1 else 2 ^ sh
  if r = 0 && !x.sticky then (lo, false, seed)
  else
    let above := decide (2 * r > half) || (2 * r == half && x.sticky)
    let tie := 2 * r == half && !x.sticky
    match rnd with
    | 0 => let up := above || (tie && lo % 2 == 1); (if up then lo + 1 else lo, up, seed)
    | 1 => (lo, false, seed)
    | 2 => (if neg then lo else lo + 1, !neg, seed)
    | 3 => (if neg then lo + 1 else lo, neg, seed)
    | 4 => let up := above || tie; (if up then lo + 1 else lo, up, seed)
    | _ =>
      let s := drawSeed seed
      let up := decide (r * 2 ^ 24 / half + s.toNat ≥ 2 ^ 24)
      (if up then lo + 1 else lo, up, s)

/-- What an overflowed result becomes (R60): toward says that the rounding went toward zero. -/
def Fmt.overflow (f : Fmt) (neg sat toward : Bool) : Nat :=
  if sat || toward then f.sign neg + f.maxFinite
  else if f.hasInf then f.sign neg + (2 ^ f.expBits - 1) * 2 ^ f.fracBits
  else if f == .e4m3 then f.nan
  else f.sign neg + f.maxFinite

/-- An infinite result that is not rounded (R60). -/
def Fmt.infinite (f : Fmt) (neg sat : Bool) : Nat :=
  if sat then f.sign neg + f.maxFinite
  else if f.hasInf then f.sign neg + (2 ^ f.expBits - 1) * 2 ^ f.fracBits
  else if f == .e4m3 then f.nan
  else f.sign neg + f.maxFinite

/-- One rounding of an exact magnitude into a format, with the overflow rule (R58 to R60). An overflowed magnitude that lies on the
grid takes no draw under stochastic mode; R60 puts it in neither column by name, and the model counts it as one that chose lo, which
R58 makes its result (log entry 73). -/
def Fmt.round (f : Fmt) (rnd : Nat) (sat neg : Bool) (x : Mag) (seed : BitVec 24) : Nat × BitVec 24 :=
  let low : Int := 1 - (f.bias : Int) - f.fracBits
  let q := max low ((bitLen x.m : Int) + x.e - 1 - f.fracBits)
  let (n, up, s) := roundGrid rnd neg x q seed
  let (n, q) := if n = 2 ^ (f.fracBits + 1) then (2 ^ f.fracBits, q + 1) else (n, q)
  if n < 2 ^ f.fracBits then (f.sign neg + n, s)
  else
    let mag := ((q - low).toNat + 1) * 2 ^ f.fracBits + (n - 2 ^ f.fracBits)
    if mag ≤ f.maxFinite then (f.sign neg + mag, s)
    else
      let toward := rnd == 1 || (rnd == 2 && neg) || (rnd == 3 && !neg) || (decide (5 ≤ rnd) && !up)
      (f.overflow neg sat toward, s)

/-- A result as a format's encoding: special values first, then the one rounding (R56, R58 to R60). -/
def Fmt.ofVal (f : Fmt) (rnd : Nat) (sat : Bool) (v : FVal) (seed : BitVec 24) : Nat × BitVec 24 :=
  match v with
  | .nan => (f.nan, seed)
  | .inf neg => (f.infinite neg sat, seed)
  | .fin neg m e => f.round rnd sat neg ⟨m, e, false⟩ seed

/-- The value with its sign inverted. -/
def FVal.neg : FVal → FVal
  | .nan => .nan
  | .inf s => .inf (!s)
  | .fin s m e => .fin (!s) m e

/-- The exact product; NaN, 0 · ∞ and the infinities as IEEE 754 resolves them (R134). -/
def FVal.mul : FVal → FVal → FVal
  | .nan, _ => .nan
  | _, .nan => .nan
  | .inf s, .inf t => .inf (s ^^ t)
  | .inf s, .fin t m _ => if m = 0 then .nan else .inf (s ^^ t)
  | .fin s m _, .inf t => if m = 0 then .nan else .inf (s ^^ t)
  | .fin s m e, .fin t n f => .fin (s ^^ t) (m * n) (e + f)

/-- A finite value as an integer multiple of 2^q, for q at most its exponent. -/
def FVal.scaled (q : Int) : FVal → Int
  | .fin s m e => let k := (m * 2 ^ (e - q).toNat : Nat); if s then -(k : Int) else k
  | _ => 0

/-- The smallest exponent of the finite values of a list. -/
def minExp : List FVal → Int
  | [] => 0
  | [.fin _ _ e] => e
  | .fin _ _ e :: r => min e (minExp r)
  | _ :: r => minExp r

/-- The exact sum of a list of values (R66, R68, R134): any NaN, or infinities of both signs, gives NaN; an infinity
gives that infinity; an exact zero takes the sign that IEEE 754 gives under the rounding mode (R58). -/
def sumVals (rnd : Nat) (vs : List FVal) : FVal :=
  if vs.any (· == .nan) || (vs.any (· == .inf true) && vs.any (· == .inf false)) then .nan
  else if vs.any (· == .inf true) then .inf true
  else if vs.any (· == .inf false) then .inf false
  else
    let q := minExp vs
    let t := (vs.map (FVal.scaled q)).foldl (· + ·) 0
    if t = 0 then
      let negs := vs.all fun v => match v with | .fin s m _ => s && m == 0 | _ => false
      let poss := vs.all fun v => match v with | .fin s m _ => !s && m == 0 | _ => false
      .fin (negs || (!poss && rnd == 3)) 0 0
    else .fin (decide (t < 0)) t.natAbs q

/-- An order on values that puts −0 below +0, for minimum and maximum (R136). -/
def FVal.below : FVal → FVal → Bool
  | .nan, _ => false
  | _, .nan => false
  | .inf s, .inf t => s && !t
  | .inf s, .fin .. => s
  | .fin .., .inf t => !t
  | .fin s m e, .fin t n f =>
    let q := min e f
    let x := FVal.scaled q (.fin s m e)
    let y := FVal.scaled q (.fin t n f)
    decide (x < y) || (x == y && s && !t)

/-- Equality with −0 equal to +0, and less than, false for a NaN (R137). -/
def FVal.eqv : FVal → FVal → Bool
  | .nan, _ => false
  | _, .nan => false
  | .inf s, .inf t => s == t
  | .inf _, .fin .. => false
  | .fin .., .inf _ => false
  | .fin s m e, .fin t n f => let q := min e f; FVal.scaled q (.fin s m e) == FVal.scaled q (.fin t n f)

/-- a < b with −0 equal to +0, false for a NaN (R137). -/
def FVal.lt (a b : FVal) : Bool := a.below b && !a.eqv b

/-- Rounds a value to an integer under a rounding mode (R138, R142). -/
def roundInteger (rnd : Nat) (neg : Bool) (x : Mag) (seed : BitVec 24) : Int × BitVec 24 :=
  let (n, _, s) := roundGrid rnd neg x 0 seed
  (if neg then -(n : Int) else n, s)

/-- floor(√n) for n below 4^k, one bit at a time. -/
def sqrtFloor (n : Nat) : Nat → Nat → Nat
  | 0, r => r
  | k + 1, r => let t := r + 2 ^ k; sqrtFloor n k (if t * t ≤ n then t else r)

/-- 1 / (m·2^e), for m not 0, with 400 bits beyond the point of its quotient. -/
def recipMag (m : Nat) (e : Int) : Mag :=
  let k := bitLen m + 400
  ⟨2 ^ k / m, -(k : Int) - e, 2 ^ k % m != 0⟩

/-- √(m·2^e) with at least 400 bits. -/
def sqrtMag (m : Nat) (e : Int) : Mag :=
  let odd := decide (e % 2 ≠ 0)
  let n := m * 2 ^ (800 + (if odd then 1 else 0))
  let r := sqrtFloor n ((bitLen n + 1) / 2 + 1) 0
  ⟨r, (e - (if odd then 1 else 0) - 800) / 2, r * r != n⟩

/-- 1/√(m·2^e), for m not 0, with at least 400 bits. -/
def rsqrtMag (m : Nat) (e : Int) : Mag :=
  let odd := decide (e % 2 ≠ 0)
  let m' := if odd then 2 * m else m
  let e' := if odd then e - 1 else e
  let k := bitLen m' + 900
  let k := k + k % 2
  let r := sqrtFloor (2 ^ k / m') ((k - bitLen m' + 4) / 2 + 1) 0
  ⟨r, -((k / 2 : Nat) : Int) - e' / 2, r * r * m' != 2 ^ k⟩

/-- The bits beyond the point of the fixed-point evaluations below. -/
def fixBits : Nat := 400

/-- floor(ln 2 · 2^400). -/
def fixLn2 : Nat := 0xb17217f7d1cf79abc9e3b39803f2f6af40f343267298b62d8a0d175b8baafa2be7b876206debac98559552fb4afa1b10ed2e

/-- floor(π · 2^400). -/
def fixPi : Nat := 0x3243f6a8885a308d313198a2e03707344a4093822299f31d0082efa98ec4e6c89452821e638d01377be5466cf34e90c6cc0ac

/-- The power series of e^x for a fixed-point x below 1: k more terms, from the term t of index i. -/
def expSeries (x : Nat) : Nat → Nat → Nat → Nat
  | 0, _, _ => 0
  | k + 1, t, i => t + expSeries x k (t * x / 2 ^ fixBits / (i + 1)) (i + 1)

/-- The alternating series of sin x for a fixed-point x up to π/2: k more terms, from the term t of index i. -/
def sinSeries (x2 : Nat) : Nat → Nat → Nat → Int
  | 0, _, _ => 0
  | k + 1, t, i => (t : Int) - sinSeries x2 k (t * x2 / 2 ^ fixBits / ((i + 1) * (i + 2))) (i + 2)

/-- The series of artanh z for a fixed-point z: k more terms, from the power p of index i. -/
def artanhSeries (z2 : Nat) : Nat → Nat → Nat → Nat
  | 0, _, _ => 0
  | k + 1, p, i => p / i + artanhSeries z2 k (p * z2 / 2 ^ fixBits) (i + 2)

/-- 2^f in fixed point for a fixed-point f below 1. -/
def exp2Frac (f : Nat) : Nat := expSeries (f * fixLn2 / 2 ^ fixBits) 90 (2 ^ fixBits) 0

/-- 2^a for a finite a that is not 0 (R138). An exponent beyond any format's range stands at ±2^20, which changes neither where a
result falls on its grid nor how far it lies between its neighbours (R58, R59). -/
def exp2Mag (neg : Bool) (m : Nat) (e : Int) : Mag :=
  let x : Int := FVal.scaled (-(fixBits : Int)) (.fin neg m (max e (-(fixBits : Int))))
  let i := max (-(2 ^ 20 : Int)) (min (2 ^ 20) (x / 2 ^ fixBits))
  let f := (x % 2 ^ fixBits).toNat
  if f = 0 then ⟨1, i, false⟩ else ⟨exp2Frac f, i - fixBits, true⟩

/-- log2 of a positive m·2^e: its sign and magnitude (R138). -/
def log2Mag (m : Nat) (e : Int) : Bool × Mag :=
  let k := bitLen m - 1
  let x := m * 2 ^ fixBits / 2 ^ k
  let i : Int := e + k
  if m = 2 ^ k then (decide (i < 0), ⟨i.natAbs, 0, false⟩)
  else
    let z := (x - 2 ^ fixBits) * 2 ^ fixBits / (x + 2 ^ fixBits)
    let l := 2 * artanhSeries (z * z / 2 ^ fixBits) 130 z 1 * 2 ^ fixBits / fixLn2
    let t : Int := i * 2 ^ fixBits + l
    if t < 0 then (true, ⟨t.natAbs - 1, -(fixBits : Int), true⟩) else (false, ⟨t.toNat, -(fixBits : Int), true⟩)

/-- sin(π·r) for a fixed-point r from 0 to 1/2. -/
def sinPiFix (r : Nat) : Nat :=
  let x := r * fixPi / 2 ^ fixBits
  (sinSeries (x * x / 2 ^ fixBits) 60 x 1).toNat

/-- |sin(π·a)| and whether sin is negative, for a fixed-point a reduced modulo 2 (R138). -/
def sinPiMag (a : Nat) : Bool × Mag :=
  let neg := decide (a ≥ 2 ^ fixBits)
  let r := a % 2 ^ fixBits
  let r := if 2 * r > 2 ^ fixBits then 2 ^ fixBits - r else r
  if r = 0 then (neg, ⟨0, 0, false⟩)
  else if 2 * r = 2 ^ fixBits then (neg, ⟨1, 0, false⟩)
  else (neg, ⟨sinPiFix r, -(fixBits : Int), true⟩)

/-- m·2^e modulo 2 in fixed point. -/
def fixMod2 (m : Nat) (e : Int) : Nat :=
  (m * 2 ^ (e + fixBits).toNat) % 2 ^ (fixBits + 1)

/-- tanh of a positive m·2^e (R138): just below the operand when it is tiny and just below 1 when it is large. -/
def tanhMag (m : Nat) (e : Int) : Mag :=
  if (bitLen m : Int) + e < -60 then ⟨m * 2 ^ 400 - 1, e - 400, true⟩
  else if (bitLen m : Int) + e > 6 then ⟨2 ^ 400 - 1, -400, true⟩
  else
    let x2 := (FVal.scaled (-(fixBits : Int)) (.fin false (2 * m) (max e (-(fixBits : Int))))).toNat
    let i := x2 / fixLn2
    let r := x2 % fixLn2
    let ex := expSeries r 90 (2 ^ fixBits) 0 * 2 ^ i
    ⟨(ex - 2 ^ fixBits) * 2 ^ fixBits / (ex + 2 ^ fixBits), -(fixBits : Int), true⟩

/-- The functions of one operand that R138 rounds. -/
inductive Fun where
  | rcp
  | rsq
  | sqrt
  | ex2
  | lg2
  | sin
  | cos
  | tanh
  | rni
  | rzi
  | rpi
  | rmi
  | fract
  deriving DecidableEq, Repr

/-- The rounding mode of the integral grid of the four integral functions (R138). -/
def Fun.grid : Fun → Nat
  | .rzi => 1
  | .rpi => 2
  | .rmi => 3
  | _ => 0

/-- The largest encoding below 1 of a format. -/
def Fmt.belowOne (f : Fmt) : Nat := f.bias * 2 ^ f.fracBits - 1

/-- One function of R138 on one element: the special operands of R139 first, then the value rounded once. -/
def Fmt.apply (f : Fmt) (fn : Fun) (rnd : Nat) (sat : Bool) (v : FVal) (seed : BitVec 24) : Nat × BitVec 24 :=
  let one := f.bias * 2 ^ f.fracBits
  match fn, v with
  | _, .nan => (f.nan, seed)
  | .rcp, .inf s => (f.sign s, seed)
  | .rcp, .fin s m e => if m = 0 then (f.infinite s sat, seed) else f.round rnd sat s (recipMag m e) seed
  | .rsq, .inf s => (if s then f.nan else 0, seed)
  | .rsq, .fin s m e =>
    if m = 0 then (f.infinite s sat, seed) else if s then (f.nan, seed) else f.round rnd sat false (rsqrtMag m e) seed
  | .sqrt, .inf s => (if s then f.nan else f.infinite false sat, seed)
  | .sqrt, .fin s m e =>
    if m = 0 then (f.sign s, seed) else if s then (f.nan, seed) else f.round rnd sat false (sqrtMag m e) seed
  | .ex2, .inf s => (if s then 0 else f.infinite false sat, seed)
  | .ex2, .fin s m e => if m = 0 then (one, seed) else f.round rnd sat false (exp2Mag s m e) seed
  | .lg2, .inf s => (if s then f.nan else f.infinite false sat, seed)
  | .lg2, .fin s m e =>
    if m = 0 then (f.infinite true sat, seed) else if s then (f.nan, seed)
    else let (n, x) := log2Mag m e; f.round rnd sat n x seed
  | .sin, .inf _ => (f.nan, seed)
  | .sin, .fin s m e =>
    let (n, x) := sinPiMag (fixMod2 m e)
    if x.m = 0 then (f.sign s, seed) else f.round rnd sat (s ^^ n) x seed
  | .cos, .inf _ => (f.nan, seed)
  | .cos, .fin _ m e =>
    let (n, x) := sinPiMag ((fixMod2 m e + 2 ^ (fixBits - 1)) % 2 ^ (fixBits + 1))
    if x.m = 0 then (0, seed) else f.round rnd sat n x seed
  | .tanh, .inf s => (f.sign s + one, seed)
  | .tanh, .fin s m e => if m = 0 then (f.sign s, seed) else f.round rnd sat s (tanhMag m e) seed
  | .fract, .inf _ => (f.nan, seed)
  | .fract, .fin s m e =>
    let q := min e 0
    let x := FVal.scaled q (.fin s m e) % 2 ^ (-q).toNat
    if x = 0 then (0, seed)
    else
      let (y, sd) := f.round rnd sat false ⟨x.toNat, q, false⟩ seed
      (if y ≥ one then f.belowOne else y, sd)
  | g, .inf s => (f.infinite s sat, if g = .rni then seed else seed)
  | g, .fin s m e =>
    if m = 0 then (f.sign s, seed)
    else
      let (n, _, _) := roundGrid g.grid s ⟨m, e, false⟩ (max 0 e) seed
      ((f.round 0 sat s ⟨n, max 0 e, false⟩ seed).1, seed)

/-- The class code of an encoding (R140). -/
def Fmt.classOf (f : Fmt) (x : Nat) : Nat :=
  let neg := x.testBit (f.expBits + f.fracBits)
  match f.value x with
  | .nan => if f == .e4m3 || x.testBit (f.fracBits - 1) then 9 else 8
  | .inf s => if s then 0 else 7
  | .fin _ m _ =>
    if m = 0 then (if neg then 3 else 4)
    else if f.isSubnormal x then (if neg then 2 else 5) else (if neg then 1 else 6)

/-- The larger or the smaller of two elements (R136). -/
def Fmt.minMax (f : Fmt) (wantMax : Bool) (x y : Nat) : Nat :=
  match f.value x, f.value y with
  | .nan, .nan => f.nan
  | .nan, _ => y
  | _, .nan => x
  | a, b => if wantMax then (if a.below b then y else x) else (if b.below a then y else x)

end Sys2Proof.Machine
end

