-- ==== Sys2Proof/Config.lean ====
section
/-!
DEFINITION. What an implementation fixes, and the free values: constants with no body, so that no proof can see them.
Each is one opaque function of a plain counter of State (State.freeCtr, State.tick) or of the operands it depends on;
notes/assumptions names every one.
-/

namespace Sys2Proof.Config

/-- A register value the spec calls undefined (R35, R45, R303, R339): free for every counter value. -/
opaque freeWord : Nat → Word

/-- Which of several enabled things happens next where timing decides (R31, R32, R205): free at every tick. -/
opaque choice : Nat → Nat

/-- How many ns each die's time counter advances in one step (R445); timing is outside the model (R32). -/
opaque elapsedNs : Nat → Nat → Nat

/-- How many aclk one step takes on a waiting core (R406, R425, R421); timing is outside the model (R32). -/
opaque elapsedAclk : Nat → Nat

/-- The physical index, 0 to 8, of the disabled core of each die: set at test (R21). -/
opaque harvRaw : Nat → Nat

/-- The stepping of each die: set at manufacture, without effect on behaviour (R21, R1). -/
opaque stepping : Nat → BitVec 8

/-- How many bytes the expander of each CXL port reports (R11, R12). -/
opaque farReported : Nat → Nat

/-- The words of IDKEY: the public half of the identity key, derived at manufacture (R455). -/
opaque idKey : Nat → Word

/-- What a word of a port's configuration space reads as before anything has been written to it: laid out by documents
outside the spec (R453). -/
opaque portConfig : Nat → Nat → Word

/-- Where Link Control and Link Status stand in a port's configuration space, which has them where its capability list
says (R453). -/
opaque linkControl : Nat → Nat

/-- Byte i of the SM3 digest of a message (R454 to R456): the hash is a standard outside the spec. -/
opaque sm3 : List (BitVec 8) → Nat → BitVec 8

/-- Byte i of the SM2 signature by the identity key over a digest, each drawn afresh (R456). -/
opaque signature : Nat → List (BitVec 8) → Nat → BitVec 8

/-- Byte i of the digest of the firmware image, and whether its signature checks (R454). -/
opaque imageDigest : Nat → BitVec 8
opaque imageSigned : Nat → Bool

/-- Byte i of what the firmware extends measurement register m with: expander identities and the fuse state (R455). -/
opaque measured : Nat → Nat → BitVec 8

/-- Whether a host's memory answers in time an access made at a tick to a physical address of its window: the host decides
(R461). -/
opaque hostAnswers : Nat → Nat → Bool

/-- The disabled physical core of die n lies in 0 to 8 (R21). -/
def harv (n : Nat) : Nat := harvRaw n % 9

/-- The capacity behind CXL port j, within the 1 TiB window that the port decodes (R11). -/
def farCapacity (j : Nat) : Nat := farReported j % (2 ^ 40 + 1)

end Sys2Proof.Config
end

