-- ==== Sys2Proof/Machine/Event.lean ====
section
/-!
DEFINITION. The events of the opcode table as they stand in the state's agenda: one constructor for each row of
spec/opcode_table.json that is no instruction word, with the operands of the constructor of Instr of the same name.
-/

namespace Sys2Proof.Machine

/-- An event: what falls due without an instruction word (R5, R31 and the rules that each row of the table cites). -/
inductive Event where
  /-- TIER_HINT_RUN (R378). -/
  | tierHintRun (eng : Nat)
  /-- MIGRATION_PAGE (R381). -/
  | migrationPage (eng : Nat)
  /-- NOPRE_LIMIT (R425). -/
  | nopreLimit (group : Nat)
  /-- LANE_ARBITRATION (R31). -/
  | laneArbitration (lane : Nat)
  /-- SPLIT_RESUME (R30). -/
  | splitResume (group split : Nat)
  /-- PRODUCER_FILL (R33). -/
  | producerFill (group id : Nat)
  /-- POLL_COMPLETION (R189). -/
  | pollCompletion (group split : Nat)
  /-- WALK (R356). -/
  | walk (core part ctx va : Nat) (write fetch : Bool)
  /-- PAGE_WAIT_RETRY (R358). -/
  | pageWaitRetry (group split : Nat)
  /-- L1_EVICTION (R183). -/
  | l1Eviction (core line : Nat)
  /-- WINDOW_WRITE_BACK (R180). -/
  | windowWriteBack (wg off : Nat)
  /-- REMOTE_WRITE_CHECK (R443). -/
  | remoteWriteCheck (id : Nat)
  /-- WRITE_ACKNOWLEDGEMENT (R208). -/
  | writeAcknowledgement (id : Nat)
  /-- LINE_FILL (R277). -/
  | lineFill (core id : Nat)
  /-- COPY_COMPLETION (R278). -/
  | copyCompletion (core id : Nat)
  /-- COPY_STOP (R280). -/
  | copyStop (core id : Nat)
  /-- MATRIX_STEP (R296). -/
  | matrixStep (cluster id : Nat)
  /-- MATRIX_STEP_COMPLETE (R296). -/
  | matrixStepComplete (cluster id : Nat)
  /-- MESSAGE_ARRIVAL (R313). -/
  | messageArrival (core dir : Nat)
  /-- CREDIT_RETURN (R317). -/
  | creditReturn (core dir : Nat)
  /-- SLUICE_TIMEOUT (R319). -/
  | sluiceTimeout (group split : Nat)
  /-- WAIT_BUDGET (R407). -/
  | waitBudget (slot : Nat)
  /-- TRAP_WATCHDOG (R421). -/
  | trapWatchdog (group : Nat)
  /-- PREEMPTION_DISCARD (R47). -/
  | preemptionDiscard (wg : Nat)
  /-- PREEMPTION_SAVE (R417). -/
  | preemptionSave (wg : Nat)
  /-- WORKGROUP_RESTORE (R418). -/
  | workgroupRestore (wg core : Nat)
  /-- IN_FIELD_TEST (R347). -/
  | inFieldTest (cluster : Nat)
  /-- TEST_RUN_END (R347). -/
  | testRunEnd (cluster : Nat) (pass : Bool)
  /-- RESOURCE_RETURN (R28). -/
  | resourceReturn (wg : Nat)
  /-- ERROR_RECORD_APPEND (R346). -/
  | errorRecordAppend (index : Nat)
  /-- MANAGEMENT_RECORD_APPEND (R451). -/
  | managementRecordAppend (index : Nat)
  /-- UNCONSUMED_ERROR (R346). -/
  | unconsumedError (die pa : Nat) (corrected : Bool)
  /-- HOST_QUEUE_CONSUME (R394). -/
  | hostQueueConsume (queue : Nat)
  /-- GRID_READY (R401). -/
  | gridReady (grid : Nat)
  /-- RANGE_LIST_COMPLETE (R401). -/
  | rangeListComplete (grid : Nat)
  /-- WORKGROUP_PLACEMENT (R400). -/
  | workgroupPlacement (die : Nat)
  /-- PRIORITY_AGING (R399). -/
  | priorityAging (grid : Nat)
  /-- GRID_RETIREMENT (R401). -/
  | gridRetirement (grid : Nat)
  /-- DIE_FENCE (R402). -/
  | dieFence (die : Nat)
  /-- VOTE_DISAGREEMENT (R409). -/
  | voteDisagreement (block : Nat) (two : Bool)
  /-- RESYNC_COMPLETE (R409). -/
  | resyncComplete (block : Nat)
  /-- CONTROL_PLANE_RESTART (R409). -/
  | controlPlaneRestart (block : Nat)
  /-- FRAME_BOUNDARY (R439). -/
  | frameBoundary
  /-- TIME_CONVERSION_UPDATE (R445). -/
  | timeConversionUpdate
  /-- CXL_READ_TIMEOUT (R375). -/
  | cxlReadTimeout (port : Nat)
  /-- HOST_COMPLETION_TIMEOUT (R461). -/
  | hostCompletionTimeout (group id : Nat)
  /-- ISOLATION_END (R453). -/
  | isolationEnd (port : Nat)
  /-- LINK_RETRAIN (R453). -/
  | linkRetrain (port : Nat)
  /-- CONTEXT_CREATE (R392). -/
  | contextCreate (slot : Nat)
  /-- CONTEXT_DESTROY (R392). -/
  | contextDestroy (slot : Nat)
  /-- CONTEXT_RESUME (R392). -/
  | contextResume (slot : Nat)
  /-- CONTEXT_RESET (R392). -/
  | contextReset (slot : Nat)
  /-- CONTEXT_END (R392). -/
  | contextEnd (slot : Nat)
  /-- PREEMPTION_REQUEST (R415). -/
  | preemptionRequest (slot : Nat)
  /-- BREAKPOINT_RESUME (R415). -/
  | breakpointResume (slot : Nat) (loc : BitVec 32)
  /-- PAGE_RESUME_DOORBELL (R391). -/
  | pageResumeDoorbell (slot : Nat)
  /-- QUEUE_ENABLE (R393). -/
  | queueEnable (queue : Nat) (ctl : BitVec 32)
  /-- QUEUE_DISABLE (R393). -/
  | queueDisable (queue : Nat)
  /-- QUEUE_DOORBELL (R393). -/
  | queueDoorbell (queue : Nat) (tail : BitVec 32)
  /-- ATTESTATION_REPORT (R456). -/
  | attestationReport
  /-- REGISTER_WRITE (R5). -/
  | registerWrite (off : Nat) (value : BitVec 32)
  /-- MODULE_RESET (R459). -/
  | moduleReset
  /-- SIGNED_BOOT (R454). -/
  | signedBoot
  /-- PORT_RESET (R459). -/
  | portReset (host : Nat)
  /-- THERMAL_TRIP (R457). -/
  | thermalTrip
  /-- THERMAL_THROTTLE (R457). -/
  | thermalThrottle (die : Nat)
  /-- DATA_LINK_LAYER_LINK_ACTIVE (R453). -/
  | dataLinkLayerLinkActive (port : Nat)
  /-- PORT_RESET_EXIT (R459). -/
  | portResetExit (host : Nat)
  deriving DecidableEq, Repr

end Sys2Proof.Machine
end

