-- ==== Sys2Proof/Machine/Maps.lean ====
section
/-!
DEFINITION. Finite maps as lists of key and value pairs: what State holds by number (groups, registers, lines) is such
a list, with a default for a key that is not listed.
-/

namespace Sys2Proof.Machine

/-- A finite map: key and value pairs, at most one for a key. -/
abbrev Map (κ α : Type) := List (κ × α)

/-- The value listed for a key. -/
def mapFind {κ α : Type} [DecidableEq κ] : Map κ α → κ → Option α
  | [], _ => none
  | (k', v) :: r, k => if k' = k then some v else mapFind r k

/-- The value of a key, with a default where none is listed. -/
def mapGet {κ α : Type} [DecidableEq κ] (m : Map κ α) (k : κ) (d : α) : α := (mapFind m k).getD d

/-- Sets the value of a key, in its place where it is listed and at the end where it is not. -/
def mapSet {κ α : Type} [DecidableEq κ] : Map κ α → κ → α → Map κ α
  | [], k, v => [(k, v)]
  | (k', v') :: r, k, v => if k' = k then (k, v) :: r else (k', v') :: mapSet r k v

/-- Drops every pair whose key meets a condition. -/
def mapDrop {κ α : Type} (m : Map κ α) (p : κ → Bool) : Map κ α := m.filter fun x => !p x.1

/-- Drops a key. -/
def mapDel {κ α : Type} [DecidableEq κ] (m : Map κ α) (k : κ) : Map κ α := mapDrop m fun x => decide (x = k)

/-- Changes the value of every key. -/
def mapAll {κ α : Type} (m : Map κ α) (f : κ → α → α) : Map κ α := m.map fun x => (x.1, f x.1 x.2)

/-- Puts a member before the first of a list that it does not come after. -/
def insertBy {α : Type} (le : α → α → Bool) (x : α) : List α → List α
  | [] => [x]
  | y :: r => if le x y then x :: y :: r else y :: insertBy le x r

/-- A list in the order that a comparison gives; equal members keep their places. -/
def sortBy {α : Type} (le : α → α → Bool) : List α → List α
  | [] => []
  | x :: r => insertBy le x (sortBy le r)

end Sys2Proof.Machine
end

