-- ==== Sys2Proof/Machine/State.lean ====
section
/-!
DEFINITION. The state of the device as plain data: every group with its registers, splits and stacks, every workgroup,
grid and context, the caches and memory, the translation caches, the engines and the registers of the device window;
the state after reset; and the closed lists of faults and refusals.

Numbers: a lane is 0 to 4607 (64·core + 16·partition + lane), a core is the device core number of R9, a die is 0 to 8.
Groups, workgroups and grids carry a unique number of the model's own, never used again.
-/

namespace Sys2Proof.Machine

/-- The 32 values of one register of a group, thread t at place t (R22). -/
abbrev Vals := List Word

/-- The shape tag of a register (R151). -/
inductive Tag where
  /-- No promise. -/
  | general
  /-- Every thread holds the same value. -/
  | uniform
  /-- Thread t holds base + s·t modulo 2^32. -/
  | affine (s : Word)
  /-- The even register of a pair: thread t's 64-bit value is base + s·t modulo 2^64. -/
  | affine64 (s : DWord)
  deriving DecidableEq, Repr

/-- One general register of a group: its values, its full bit and its tag (R33, R151). -/
structure Reg where
  vals : Vals
  full : Bool
  tag : Tag
  deriving DecidableEq, Repr

/-- What a barrier belongs to: a workgroup, a pair of workgroups or a die slice (R243). -/
inductive BarKey where
  /-- Barrier b of a workgroup. -/
  | wg (wg b : Nat)
  /-- The barrier of a pair, named by its rank-0 workgroup. -/
  | pair (wg : Nat)
  /-- The barrier of die slice k of a grid. -/
  | slice (grid k : Nat)
  deriving DecidableEq, Repr

/-- The counters of a barrier (R244); exp is unset, default or explicit. -/
structure Barrier where
  phase : BitVec 32
  arr : Nat
  exp : Option (Option Nat)
  posted : Nat
  landed : Nat
  deriving DecidableEq, Repr

/-- What a split waits for. Whether a wait counts against the budget follows from its kind (R52, R406). -/
inductive Wait where
  /-- No wait. -/
  | none
  /-- Empty registers (R34); true for `fe.wait` (R148). -/
  | regs (rs : List Nat) (fe : Bool)
  /-- An empty scratchpad line (R175). -/
  | line (wg line : Nat)
  /-- A pan row still being filled (R305). -/
  | row (core row : Nat)
  /-- A `cas` that still has to write a predicate which the word names (R242). -/
  | pred (q : Nat)
  /-- A free queue entry of an engine (R15): its code of R99, its number, and the tick at which the word came (R16). -/
  | queue (src unit since : Nat)
  /-- Room for another batch of the group (R301). -/
  | batches
  /-- Error status of what the group issued before, inside containment (R336). -/
  | status
  /-- A barrier phase (R245). -/
  | barrier (key : BarKey)
  /-- A poll (R189): the destination, the scope, the bytes, the threads that still wait with their address and
  expectation, the threads that take a uniform reading, and the E bit of the word. -/
  | poll (d scope n : Nat) (left : List (Nat × Nat × Nat)) (all : Option Mask) (e : Bool)
  /-- A batch of a group (R301). -/
  | batch (group n : Nat)
  /-- A grid's retirement (R405). -/
  | grid (g : Nat)
  /-- Room for another matrix token (R299). -/
  | token
  /-- Register allotment, with the tick of the request (R145, R150). -/
  | grow (n since : Nat)
  /-- Absent pages (R358), by the base of their 64 KiB page. -/
  | pages (vas : List Nat)
  /-- Migrating pages (R369). -/
  | moving (vas : List Nat)
  /-- A link: its receive direction, channel, the send direction, the size code (3 for any), the die's time at which the
  wait began, and the vectors that an `sput` has read (R319, R322). -/
  | link (recv : Option Nat) (ch : Nat) (send : Option Nat) (size since : Nat) (data : List Vals)
  /-- The drain of the copies that were accepted before (R281). -/
  | drain (ids : List Nat)
  /-- The commands of a workgroup (R429). -/
  | quiet
  /-- The other restore routines of the workgroup (R418). -/
  | rest
  /-- The matrix engine's latch, or room in the register pool for the allotment that `ctx.lst` loads (R27, R433). -/
  | latch
  /-- The collector's read of registers that an `rsize` would release (R306). -/
  | collect
  /-- A record handed to the die's child-launch queue, with the tick at which it came (R15, R404). -/
  | launch (since : Nat)
  /-- A control register of the context, which the command processor is to write (R424). -/
  | control
  /-- Engine writes into a range that `smap` will bind (R178). -/
  | range
  /-- A translation fence that waits for engine commands: the pages that copies keep, by command and address, and those that
  migrations move, by command and number (R363). -/
  | sync (copies migr : List (Nat × Nat))
  deriving DecidableEq, Repr

/-- Where a split stands (R36, R41). -/
inductive RunState where
  /-- A candidate of its lane (R31). -/
  | ready
  /-- Holds its lane. -/
  | issuing
  /-- Has left its lane to wait (R30). -/
  | suspended
  /-- Waits for pages (R45). -/
  | pageWait
  /-- Stopped at `brk` (R124). -/
  | brk
  /-- Stopped at its attributed word for a fault routine, running or waiting for its slot (R420). -/
  | faulted
  deriving DecidableEq, Repr

/-- A macro-store call in progress: the routine, its operation, whether that is the last, the parameters, and the E bit
of the `mcall` (R221, R223). -/
structure Call where
  routine : Nat
  op : Nat
  last : Bool
  x : Nat
  y : Nat
  q : Nat
  e : Bool
  deriving DecidableEq, Repr

/-- A split (R36): its pc, mask, mode and format registers, the region start with the mode and format recorded there
(R128), how many words its run has issued (R29), what it waits for and since when, whether the arrival of the
`bar.sync` at its pc is counted (R43), whether the barrier phase it waits for has
completed (R246) or its page-wait may be tried again (R358), the run boundaries at which it was passed over (R31), a macro
call, the word that it has fetched and not finished (R30), and the active mask of that word once it waits off the lane. -/
structure Split where
  idx : Nat
  st : RunState
  pc : DWord
  mask : Mask
  mode : Word
  fmt : Word
  rstart : DWord
  rmode : Word
  rfmt : Word
  run : Nat
  wait : Wait
  waited : Nat
  counted : Bool
  released : Bool
  passed : Nat
  call : Option Call
  word : Option Word := none
  act : Option Mask := none
  deriving DecidableEq, Repr

/-- An entry of the reconvergence stack (R36). -/
inductive StackEnt where
  /-- A split record. -/
  | record (mask : Mask) (mode fmt : Word)
  /-- A deferred path: its owner, pc, mask, own mode and format, the parent's, and its region start with the recorded
  mode and format. -/
  | deferred (owner : Nat) (pc : DWord) (mask : Mask) (mode fmt pmode pfmt : Word) (rstart : DWord) (rmode rfmt : Word)
  deriving DecidableEq, Repr

/-- A containment level (R337). -/
structure Level where
  handler : DWord
  mode : Word
  fmt : Word
  deriving DecidableEq, Repr

/-- A queue that error records go to: none for the management queue, else a context slot and the address of the
descriptor (R345, R451). -/
structure QueueRef where
  slot : Option Nat
  va : Nat
  deriving DecidableEq, Repr

/-- What a write carries beside its address and value: the core that made it, the context slot and key that the home
checks (R443), and what a refusal records (R444): the virtual address, the store word's pc, its group with the words
executed by then, its location, the queue and the engine (10 unless a copy wrote it, R280). -/
structure WMeta where
  core : Nat
  ctx : Nat
  key : Nat
  va : Nat
  pc : DWord
  group : Nat
  count : Nat
  loc : Word
  queue : QueueRef
  src : Nat := 10
  deriving DecidableEq, Repr

/-- What a clean word of a cache carries: nothing but the core that read it. -/
def WMeta.ofCore (core : Nat) : WMeta where
  core := core
  ctx := 0
  key := 0
  va := 0
  pc := 0#64
  group := 0
  count := 0
  loc := 0#32
  queue := { slot := none, va := 0 }

/-- A word of memory that a group has stored inside a region and not yet harvested (R44), newest first in its list:
its physical address, the thread that wrote it, its value, and what the write needs when it is sent: the policy of its
page (R186) and what the write carries (R443, R444). -/
structure Held where
  pa : Nat
  thread : Nat
  val : Word
  policy : Nat
  info : WMeta
  deriving DecidableEq, Repr

/-- The open transaction of one thread (R249, R251): status register, abort address, the `txb` word, the words read
with their values, and the lines written. -/
structure Tx where
  status : Nat
  abort : DWord
  txb : DWord
  mode : Word
  fmt : Word
  reads : List (Nat × Word)
  readLines : List Nat
  writeLines : List Nat
  deriving DecidableEq, Repr

/-- An error record before it is written as bytes (R97); an absent field is all ones. The group whose word made it orders it with
the group's other records, wherever that runs (R346). -/
structure ErrRec where
  queue : QueueRef
  ctx : Option Word
  seq : Nat
  src : Nat
  cls : Nat
  code : Nat
  pc : Option DWord
  va : Option Nat
  pa : Option Nat
  tmask : Word
  loc : Word
  skid : Nat
  time : Nat
  detail : Nat
  die : Nat
  group : Option Nat := none
  deriving DecidableEq, Repr

/-- One consumption that a producer meets: code, the threads, the lowest thread's virtual address and the physical
address of the line (R334, R335). -/
structure Consume where
  code : Nat
  src : Nat
  mask : Mask
  va : Option Nat
  pa : Option Nat
  detail : Nat
  deriving DecidableEq, Repr

/-- A thread's read of a pan row that was still being filled when its word was accepted (R305): the thread, the core,
physical row, byte column and bytes, and whether an operation that no `mxw` had covered writes there (R303). -/
structure PanRead where
  thread : Nat
  core : Nat
  row : Nat
  col : Nat
  n : Nat
  hazard : Bool
  deriving DecidableEq, Repr

/-- A word of memory that an issued load has not read yet (R197, R205): the threads that take it, the part of the destination
it goes to, its physical address with the policy of its page, its virtual address, the first byte and the number of bytes
that the load takes of it, and whether the value is sign-extended. -/
structure LateRead where
  mask : Mask
  part : Nat
  pa : Nat
  policy : Nat
  va : Nat
  off : Nat
  n : Nat
  signed : Bool
  deriving DecidableEq, Repr

/-- A long-latency word whose values have not been written yet (R33): the destination registers with the values they
will take, the threads, the split, the threads whose region is still the one it was issued in (R45), the consumptions its
data will cause, the count of words the group had executed, the registers written since (R339), the tag that the fill
gives, the lines it reads from hosts and CXL ports with their virtual address, physical address and threads (R461, R375),
the words and the pan rows that are still to be read, and the predicate that a `cas` writes with the threads that
succeeded (R242). -/
structure Producer where
  id : Nat
  split : Nat
  dsts : List (Nat × Vals)
  mask : Mask
  region : Mask
  pc : DWord
  ty : Nat
  consumed : List Consume
  at_ : Nat
  tag : Tag
  ext : List (Nat × Nat × Mask)
  reads : List LateRead := []
  pan : List PanRead := []
  pred : Option (Nat × Mask) := none
  deriving DecidableEq, Repr

/-- The cause of a trap-mode routine (R419). -/
inductive TrapCause where
  /-- A fault, with its record (R420). -/
  | fault (r : ErrRec)
  /-- Pre-emption by save (R417). -/
  | save
  /-- Restoration (R418). -/
  | restore (handle : DWord)
  deriving DecidableEq, Repr

/-- What marks a group as a trap-mode routine: the interrupted group, its attributed split, the cause, the aclk since
entry, and whether `rfe.rest` has executed (R418, R421). -/
structure Trap where
  of_ : Nat
  split : Nat
  cause : TrapCause
  aclk : Nat
  resting : Bool
  deriving DecidableEq, Repr

/-- A `nopre` window: its counter in aclk, the pc and the split of its `nopre.on`, and the words that the group had
executed by then (R425). -/
structure NoPre where
  count : Nat
  pc : DWord
  split : Nat
  at_ : Nat
  deriving DecidableEq, Repr

/-- How a group is stopped from issuing. -/
inductive Stop where
  /-- It is not. -/
  | none
  /-- A fault or a pre-emption waits for the trap slot of its lane (R419). -/
  | wantsTrap (split : Nat) (cause : TrapCause)
  /-- A trap routine runs in its name (R419). -/
  | inTrap (routine : Nat)
  /-- At its save point while its workgroup is pre-empted by save, before or after its routine (R417). -/
  | saved (handle : Option DWord)
  /-- Stopped by a pre-emption of its workgroup that still waits for another group (R416). -/
  | pending
  deriving DecidableEq, Repr

/-- The events that come before a moment in the happens-before order of R201, by group: the tick up to which each group's events
do. The model's own record. -/
abbrev Clock := Map Nat Nat

/-- A release that an acquire may synchronise with (R199, R200): the core and workgroup that made it, its scope, and the events
before it. The model's own record. -/
structure Release where
  core : Nat
  wg : Nat
  scope : Nat
  clock : Clock
  deriving DecidableEq, Repr

/-- A group (R22) with everything that belongs to it: where it runs, its allotment and bound (R27), registers,
predicates (bit t for thread t), splits and stack (R36), containment (R337, R340), pairing (R342), held words (R44),
transactions with the status register that each thread named last (R249, R253), producers (R33), matrix batches and tokens (R299, R301), arrival stamps (R244), the `nopre` window
(R425), the count of words executed (the skid of R97), and trap mode (R419); when each register was last written, in words
executed (R339); its registers as they were at each token that it has posted, the oldest first, and the values still to show
of registers in which an operation's operands show their old ones (R303); and for the order of R201 the events of other groups
that come before its next one, the events before each such token, the widest release fence that it has executed (0 for none) and
the releases whose values its plain loads have returned (R199). -/
structure Group where
  wg : Nat
  ctx : Nat
  idx : Nat
  lane : Nat
  slot : Nat
  alloc : Nat
  cap : Nat
  regs : Map Nat Reg
  preds : Map Nat Mask
  splits : List Split
  stack : List StackEnt
  cont : List Level
  urec : List Word
  pair : Bool
  pres : Bool
  shadowLane : Option Nat
  exited : Mask
  held : List Held
  txs : Map Nat Tx
  txReg : Map Nat Nat
  prods : List Producer
  nextProd : Nat
  executed : Nat
  nopre : Option NoPre
  tokens : Nat
  nb : BitVec 32
  forming : List Nat
  unretired : Map Nat (List Nat)
  stamps : Map BarKey (BitVec 32)
  trap : Option Trap
  stop : Stop
  later : List (Nat × TrapCause) := []
  written : Map Nat Nat := []
  shots : List (Map Nat Reg) := []
  fresh : Map Nat (Mask × Vals) := []
  clock : Clock := []
  posted : List Clock := []
  relScope : Nat := 0
  seen : List Release := []
  deriving DecidableEq, Repr

/-- The mark that data carries when it is read (R334): none, poison, an isolated port (R376), a host that gave no data
(R461), or a table entry or word that its translation could not use (R355). -/
inductive Mark where
  | clean
  | poison
  | isolated
  | host
  | walk
  deriving DecidableEq, Repr

/-- A bound scratchpad window (R178): its virtual address, offset and length in bytes. -/
structure Window where
  va : Nat
  off : Nat
  len : Nat
  deriving DecidableEq, Repr

/-- The state of a line of a bound window that is not absent (R179): which of its words are dirty, whether it has been
translated for writing, the translation it was filled through, and what its last store carries. -/
structure WinLine where
  dirty : BitVec 32
  wr : Bool
  pa : Nat
  policy : Nat
  info : WMeta
  deriving DecidableEq, Repr

/-- A workgroup (R22): its grid and index, core, resources (R26), scratchpad bytes that are not 0, words of the
scratchpad that give no value, with the mark that a fill left there (R179, R334, R335), pending copy landings by line (R175, R277), windows (R178), layout slots (R262),
pan rows (R285), its groups, those that have exited with their number, as they were at exit (R299, R301), its
pre-emption, and whether its slot and barriers have returned to the core (R28). -/
structure Workgroup where
  grid : Nat
  ctx : Nat
  w : Nat
  core : Nat
  peer : Option Nat
  groups : List Nat
  gone : List (Nat × Group) := []
  scratch : List (Nat × Byte)
  spoison : Map Nat Mark
  pendLines : Map Nat Nat
  windows : Map Nat Window
  wlines : Map Nat WinLine
  slots : Map Nat (List DWord)
  panBase : Nat
  panRows : Nat
  preempting : Option Bool
  exited : Bool
  parted : Bool := false
  deriving DecidableEq, Repr

/-- The latch of a matrix engine (R300): its owner, acnt and rows, and the events before the tokens that filled it (R299). -/
structure Latch where
  group : Nat
  acnt : Nat
  rows : List (List Word)
  clock : Clock := []
  deriving DecidableEq, Repr

/-- A workgroup taken off its core (R414, R417): what the device saved of it, its pan bytes and poisoned pan words by row
from its first one on with the lane stores to them (R303), and the latches that its groups own; or, where the context's routine saved it, the handle that each
group's routine gave. -/
structure Saved where
  wg : Workgroup
  groups : List (Nat × Group)
  pan : Map (Nat × Nat) Byte
  panPoison : List (Nat × Nat)
  panStamps : Map (Nat × Nat) (List (Nat × Nat)) := []
  latches : List Latch
  byRoutine : Bool
  handles : Map Nat DWord
  deriving DecidableEq, Repr

/-- The state of a grid (R401). -/
inductive GridState where
  | accepted
  | migrating
  | placing
  | placed
  | retired
  | rejected (status : Nat)
  | dropped
  deriving DecidableEq, Repr

/-- One slot of a macro image as the command processor copied and checked it (R218, R219): its words, and the reason and
operation that make it invalid. -/
structure MacroSlot where
  words : List Word
  bad : Option (Nat × Nat)
  deriving DecidableEq, Repr

/-- A range-list entry (R386) with what is left of it. -/
structure RangeEnt where
  words : List DWord
  done : Bool
  deriving DecidableEq, Repr

/-- A dependence (R398): its kind, the identifier it names, the grid's unique number once that grid is known, whether it names a
record that has not been consumed yet, and whether that record's queue has been disabled before it was. -/
structure Dep where
  kind : Nat
  id : Nat
  uid : Option Nat
  pend : Bool := false
  failed : Bool := false
  deriving DecidableEq, Repr

/-- A grid (R22, R395): identifier, context slot, the fields of its launch record, where it came from, how far its
placement has gone with the numbers of the workgroups it has placed (R399, R400, R401), and its macro image; the cores that it has
used (R347), and the events before its first words and before
its retirement (R202). -/
structure Grid where
  id : Word
  ctx : Nat
  entry : DWord
  nwg : Nat
  ngrp : Nat
  cs : Nat
  regs : Nat
  pool : Nat
  scratch : Nat
  barriers : Nat
  prows : Nat
  prio : Nat
  affinity : Nat
  cor : Bool
  dcor : Bool
  psave : Bool
  paired : Nat
  sluice : Bool
  ncol : Nat
  col0 : Nat
  row0 : Nat
  csize : Nat
  cbase : Nat
  macroK : Nat
  image : List MacroSlot
  rlist : List RangeEnt
  errq : Nat
  signal : Nat
  deps : List Dep
  depth : Nat
  parent : Option Nat
  children : List Nat
  st : GridState
  order : Nat
  nextW : Nat
  wgs : List Nat
  level : Nat
  lastDie : Option Nat
  sliceDies : List Nat
  cores : List Nat := []
  clock : Clock := []
  finish : Clock := []
  deriving DecidableEq, Repr

/-- The state of a context slot (R391). -/
inductive CtxState where
  | free
  | live
  | held
  | resetting
  | ended
  deriving DecidableEq, Repr

/-- A context slot: its window registers (R391, R415), the descriptor as read at creation (R390), its control registers
(R423), its record count (R98), its pending page requests (R358), its counted waits (R406), whether a
destroy waits for its accepted commands (R392), a write of PKR that is under way with the group and split that wait for it (R424), and
the dies' copies of PKR that already hold its value (R443), the split whose wait has passed a bound of the waiting budget, by its pc,
location and die, with the bound (R407), and the commands written while the command processor is stopped (R18). -/
structure Ctx where
  desc : DWord
  gen : BitVec 22
  err : Nat
  cmd : Nat
  st : CtxState
  lost : Nat
  bell : Word
  dbg : Bool
  pre : Bool
  dbgLoc : Word
  root : Nat
  wbud : Nat
  sys : Bool
  migr : Bool
  pair : Bool
  wtot : Nat
  dq : Nat
  prq : Nat
  snap : Nat
  nsnap : Nat
  tvec : DWord
  svec : DWord
  rvec : DWord
  svbase : DWord
  pkr : Word
  slto : Word
  seq : Nat
  requests : List Nat
  waited : Nat
  destroy : Bool
  pkrNew : Option (Word × Nat × Nat) := none
  pkrAt : Map Nat Word := []
  passedBound : Option (DWord × Word × Nat × Nat) := none
  todo : List Nat := []
  deriving DecidableEq, Repr

/-- A host queue (R393). -/
structure HostQueue where
  base : DWord
  en : Bool
  lg : Nat
  slot : Nat
  tail : Word
  head : Word
  err : Bool
  reason : Nat
  deriving DecidableEq, Repr

/-- Where a translation is cached: a partition's TLB, a cluster's, or a core's engine translation cache (R356). -/
inductive TlbAt where
  | part (core p : Nat)
  | cluster (c : Nat)
  | engine (core : Nat)
  deriving DecidableEq, Repr

/-- A TLB entry (R356, R359): where it stands, its context (none for a G entry), the pages it covers as a base and the
level of its leaf, and the leaf as it was read, D included. -/
structure Tlb where
  at_ : TlbAt
  ctx : Option Nat
  base : Nat
  level : Nat
  pte : DWord
  ptePa : Nat
  deriving DecidableEq, Repr

/-- A valid word of an L1 (R183): its value, whether it is dirty, whether the core has written it since its last
release at .cl or wider (R187), what its write carries, and whether it came under the streaming policy, whose lines leave first
(R186). -/
structure L1Word where
  val : Word
  dirty : Bool
  own : Bool
  info : WMeta
  stream : Bool := false
  deriving DecidableEq, Repr

/-- A word of a cluster atomic unit's buffer (R235) or of a non-home copy in an L2 (R185). -/
structure L2Word where
  val : Word
  dirty : Bool
  info : WMeta
  deriving DecidableEq, Repr

/-- A store under policy 3 on its way to its home or port, or performed there and not yet acknowledged (R186, R208, R443). The words
of one access to a line share its number; one of them shows the access's drop at an isolated port or its refusal, where that has not
been shown (R374, R444). -/
structure Write where
  id : Nat
  access : Nat
  pa : Nat
  val : Word
  info : WMeta
  performed : Bool
  counts : Bool := true
  deriving DecidableEq, Repr

/-- Where a store goes that its core performs neither in its L1 nor at a home: to its die's L2 (policy 1, R186), or to the scratchpad
of its peer workgroup, to an offset, so many bytes (R24, R208). -/
inductive SentTo where
  | die (pa : Nat)
  | scratch (wg off n : Nat)
  deriving DecidableEq, Repr

/-- A store on its way, which is performed and acknowledged at one time (R208). -/
structure Sent where
  id : Nat
  dest : SentTo
  val : Nat
  info : WMeta
  counts : Bool := true
  deriving DecidableEq, Repr

/-- A lane (R31, R59, R419): the state of its generator, the slot and split that won it last, its trap routine. -/
structure Lane where
  seed : BitVec 24
  last : Nat × Nat
  trap : Option Nat
  deriving DecidableEq, Repr

/-- What falls due next in the order of State.agenda: a lane issues its next word, an event of the table occurs, a compare
mismatch that a retry does not mend strikes the next paired word of a lane (R343), or the hardware does what has no row of the
table. -/
inductive Act where
  /-- The lane issues the next word of the split that holds it. -/
  | issue (lane : Nat)
  /-- An event of the opcode table. -/
  | event (e : Event)
  /-- A lasting difference between the two copies of the lane's next paired word: its kind and the threads (R343). -/
  | upset (lane kind : Nat) (mask : Mask)
  /-- A line of another die, named by its 256-byte number, leaves a die's L2 (R185). -/
  | l2Eviction (die line : Nat)
  /-- A line leaves a cluster atomic unit's buffer (R235). -/
  | bufferEviction (cluster line : Nat)
  /-- A line leaves its home slice (R185, R373). -/
  | sliceEviction (line : Nat)
  /-- A register that a matrix operation reads shows its old value in some threads (R303). -/
  | oldRegister (group reg : Nat)
  /-- A flit of the next message on a link across a die edge fails for good (R313). -/
  | messagePoison (core dir : Nat)
  /-- A write of PKR reaches a die's copy (R443). -/
  | keyCopy (slot die : Nat)
  /-- A store on its way, to a home or port that checks no key, to a die's L2 or to a peer's scratchpad, is performed (R208). -/
  | landing (id : Nat)
  deriving DecidableEq, Repr

/-- A copy that the engine of a core has accepted (R258, R276): who issued it, its pc and the words that group had
executed, its form and direction, the layout records of the tensor, of a kind-2 tile and of its scales, the coordinates,
the descriptor quad, the plane count, its barrier, the scratchpad lines and pan rows it still owes a fill, the first tile row it
has not come to and the earlier ones that it has passed over, which wait for pages (R369), whether its landing is still to be delivered (R17), the source lines already recorded (R280), the pages it waits on
(R358, R369), the translations that it keeps for the pages it has not finished with (R363), and the events before its acceptance
(R202). -/
structure CopyCmd where
  id : Nat
  core : Nat
  wg : Nat
  group : Nat
  ctx : Nat
  pc : DWord
  count : Nat
  form : Nat
  store : Bool
  lay : List DWord
  lay2 : List DWord
  lay3 : List DWord
  coords : List Int
  quad : List Word
  planes : Nat
  bar : Option BarKey
  lines : List (Nat × Nat)
  rows : List (Nat × Nat)
  next : Nat
  passed : List Nat := []
  delivers : Bool
  recorded : List (Nat × Nat)
  loc : Word
  queue : QueueRef
  waits : List Nat := []
  kept : List (Nat × Bool × Nat × Nat × Nat) := []
  clock : Clock := []
  deriving DecidableEq, Repr

/-- The kinds of command in a matrix engine's queue (R292). -/
inductive MxKind where
  | mma
  | cmma
  | pmma
  | zero
  | rscl
  deriving DecidableEq, Repr

/-- A matrix operation (R294, R296, R304): who issued it, its descriptor words, A base register, format register,
whether it keeps the latch, its rows of A once read, whether it has started, whether it has completed or stopped, the pan
words of its operands that were touched without order (R303), its batch once closed (R301), and the returns of `mxw` that have
covered it, by group and tick; whether it has consumed its tokens, and the A registers of its groups as they were when those were
posted (R299, R303); the events before its acceptance and those before its tokens (R202, R299), and the accumulator words that
something has written since it completed, by the core's place among the operation's and the workgroup's row. -/
structure MxOp where
  id : Nat
  cluster : Nat
  core : Nat
  wg : Nat
  group : Nat
  gidx : Nat
  ctx : Nat
  pc : DWord
  count : Nat
  kind : MxKind
  desc : List Word
  areg : Nat
  fmt : Word
  reuse : Bool
  ty : Nat
  arows : List (List Word)
  started : Bool
  done : Bool
  taint : List (Nat × Nat × Nat)
  batch : Option Nat
  waits : List (Nat × Nat)
  loc : Word
  queue : QueueRef
  taken : Bool := false
  olds : List (Nat × Map Nat Reg) := []
  clock : Clock := []
  token : Clock := []
  ranOver : List (Nat × Nat × Nat) := []
  deriving DecidableEq, Repr

/-- A sluice message (R316): channel, the vectors of its registers, whether the link marked it poisoned (R313), and the release that
its sending word made, where its scope is not .thr (R325). -/
structure Msg where
  ch : Nat
  vecs : List Vals
  poisoned : Bool
  rel : Option Release := none
  deriving DecidableEq, Repr

/-- A command of a migration engine (R378, R379, R386): who issued it (none for a range-list entry, with its grid), its
hint operation (0 for a move), addresses, page count and control, its barrier, the page it is at and how far that page
has come (R382), the leaf it marked, and the poisoned lines met. -/
structure MigrCmd where
  id : Nat
  group : Option Nat
  grid : Option (Nat × Nat)
  wg : Nat
  ctx : Nat
  core : Nat
  pc : Option DWord
  count : Nat
  hint : Nat
  va : Nat
  f0 : Nat
  n : Nat
  far : Bool
  bar : Option BarKey
  page : Nat
  phase : Nat
  leaf : DWord
  leafPa : Nat
  line : Nat
  poisoned : Nat
  firstPoison : Nat
  lost : Nat
  firstLost : Nat
  delivers : Bool
  queue : QueueRef
  loc : Word
  deriving DecidableEq, Repr

/-- A CXL port (R374, R453): the fields of XPCTL, XPSTS and XPHSEQ, whether its link is active or being
retrained, and what has been written
to its configuration window. -/
structure Port where
  hen : Bool
  tmo : BitVec 16
  iso : Bool
  wdrop : BitVec 16
  seq : Word
  active : Bool
  training : Bool
  cfg : Map Nat Word
  deriving DecidableEq, Repr

/-- A tier hint on its way to an expander, a PCI Express Vendor_Defined Type 1 message (R377): the port that sends it, whether it
is routed by ID, the function that it names, its message code, its vendor identifier and its payload. -/
structure HintMsg where
  port : Nat
  byId : Bool
  function : Nat
  code : BitVec 8
  vendor : BitVec 16
  payload : List Byte
  deriving DecidableEq, Repr

/-- What the hosts and the firmware reach through the register window beyond contexts, queues and ports, and what the
device has sent out (R451, R452, R454 to R459, R377). -/
structure HostRegs where
  mgqDesc : DWord
  mgqLost : Word
  mgqVec : BitVec 6
  mgSeq : Nat
  msix : List Nat
  tstInt : BitVec 16
  tstMsk : Map Nat (BitVec 4)
  attNonce : List Word
  attDst : DWord
  attGo : Bool
  attUse : List Word
  bootFail : Bool
  booted : Bool
  measure : Map Nat (List Byte)
  pwrCap : Word
  dpCap : Map Nat (BitVec 16)
  thTrip : Bool
  throttled : List Nat
  inReset : List Nat
  hints : List HintMsg
  deriving DecidableEq, Repr

/-- The whole device. -/
structure State where
  /-- What falls due next, in order: the model's own record of inputs and timing (R31, R32). -/
  agenda : List Act
  /-- The group and split whose word is being executed: the model's own. -/
  cur : Option (Nat × Nat)
  /-- Steps taken: the model's own counter, to which Config.choice and the elapsed times are applied. -/
  tick : Nat
  /-- Free values drawn: the model's own counter, to which Config.freeWord is applied. -/
  freeCtr : Nat
  /-- The next unique number: the model's own. -/
  nextUid : Nat
  /-- Groups by unique number (R22), trap-mode routines among them (R419). -/
  groups : Map Nat Group
  /-- Workgroups by unique number (R22). -/
  wgs : Map Nat Workgroup
  /-- Workgroups that have been pre-empted and not placed again (R414). -/
  saved : Map Nat Saved
  /-- Grids by unique number (R22, R401). -/
  grids : Map Nat Grid
  /-- The grid with an identifier: unique number by context slot and identifier (R394). -/
  gridIds : Map (Nat × Nat) Nat
  /-- Barriers that are not as they start (R244). -/
  bars : Map BarKey Barrier
  /-- Lanes that are not as at reset (R59). -/
  lanes : Map Nat Lane
  /-- A compare mismatch that waits for the next paired word of a lane (R343). -/
  upsets : Map Nat (Nat × Mask)
  /-- Context slots that are not as at reset (R390). -/
  ctxs : Map Nat Ctx
  /-- Host queues that are not as at reset (R393). -/
  queues : Map Nat HostQueue
  /-- The next queue that the command processor looks at (R394). -/
  nextQueue : Nat
  /-- Memory at its homes, near, far and host, as address and byte pairs in canonical form (R11, R185). -/
  mem : List Host.Cell
  /-- Poisoned 64-byte lines, with the words written since (R335). -/
  poison : Map Nat (BitVec 16)
  /-- Valid words of the L1s by core and word address (R183). -/
  l1 : Map (Nat × Nat) L1Word
  /-- The cluster atomic units' buffers by cluster and word address (R235). -/
  clu : Map (Nat × Nat) L2Word
  /-- Non-home copies in the L2s by die and word address (R185). -/
  l2 : Map (Nat × Nat) L2Word
  /-- The constant caches' words by grid, core, partition and word address (R177). -/
  consts : Map (Nat × Nat × Nat × Nat) Word
  /-- Dirty words of far-tier lines at their home slices, not yet forwarded to their port (R187, R376). -/
  farDirty : Map Nat Word
  /-- Writes to homes on other dies that are not yet acknowledged, oldest first (R208). -/
  writes : List Write
  /-- Stores on their way to a die's L2 or a peer's scratchpad (R208). -/
  sent : List Sent
  /-- The lines of far memory that the expanders hold poisoned, apart from what the home slices hold (R335, R375). -/
  expPoison : List Nat
  /-- TLB entries (R356). -/
  tlbs : List Tlb
  /-- Error records on their way to their queues (R346) and to the management queue (R451), oldest first. -/
  pend : List ErrRec
  /-- Records dropped on a full die buffer, by die, context slot (1024 for the management queue) and queue, to be added to ovf
  with the die's next delivery (R346). -/
  ovfDue : Map (Nat × Nat × Nat) Nat
  /-- DPRES (R20). -/
  dpres : BitVec 9
  /-- The time counters of the dies in ns (R445). -/
  times : Map Nat Nat
  /-- The fabric frame count (R439). -/
  frame : Word
  /-- QOSCTL and QOSQ as written, and as in effect since the last frame boundary (R440). -/
  qosctl : Word
  qosq : Map Nat (BitVec 16)
  qosctlNow : Word
  qosqNow : Map Nat (BitVec 16)
  /-- RPCNT by die (R444). -/
  rpcnt : Map Nat Word
  /-- TRATE and TOFF by ordered pair of dies (R445). -/
  conv : Map (Nat × Nat) (DWord × DWord)
  /-- The last two samples of the time counters that the conversions are fitted to (R445). -/
  samples : List (Map Nat Nat)
  /-- VOTSTS by block: rsy, stp and run (R410), and the resynchronisation in progress (R409). -/
  votes : Map Nat (Nat × Nat × Bool × Bool)
  /-- The contexts, by identifier, that a stopped block affected when it stopped (R18). -/
  struck : Map Nat (List Nat)
  /-- Grids whose macro image is resident on a core, with the slots taken (R220). -/
  macros : List (Nat × Nat × Nat)
  /-- Cores removed from placement, for a test or for good (R347). -/
  coresOut : List (Nat × Bool)
  /-- Child counts by die (R394). -/
  childCount : Map Nat Nat
  /-- The copies of all cores in acceptance order (R258). -/
  copies : List CopyCmd
  /-- Pan bytes by core, physical row and column, unlisted bytes 0 (R285). -/
  pan : Map (Nat × Nat × Nat) Byte
  /-- Pan words that carry an uncorrectable error (R306). -/
  panPoison : List (Nat × Nat × Nat)
  /-- The stores of lanes to pan words, by group and tick: those that do not come before a later one (R201, R303). -/
  panStamps : Map (Nat × Nat × Nat) (List (Nat × Nat))
  /-- The releases that a read of a value of a location synchronises with (R200): by location, a word of memory (0 and its physical
  address) or of a scratchpad (the workgroup's number plus 1 and its offset). -/
  rels : Map (Nat × Nat) (List (Word × Release))
  /-- The events before the departures from a phase of a barrier (R202). -/
  barClocks : Map (BarKey × Nat) Clock
  /-- The events before the reads of a line or row that a copy has filled (R202): by 0, workgroup and line, or by 1, core and row. -/
  landed : Map (Nat × Nat × Nat) Clock
  /-- Copies pending on a pan row, by core and physical row (R277). -/
  pendRows : Map (Nat × Nat) Nat
  /-- The matrix operations of all clusters in acceptance order (R286), completed ones included until waited for. -/
  mxops : List MxOp
  /-- The latches by cluster (R300). -/
  latches : Map Nat Latch
  /-- Receive buffers by core and direction, oldest first (R315). -/
  sluBuf : Map (Nat × Nat) (List Msg)
  /-- Messages on the links, by receiving core and direction, oldest first (R313). -/
  sluFly : Map (Nat × Nat) (List Msg)
  /-- Credits in use by sending core and direction, and credits on their way back (R317). -/
  sluUsed : Map (Nat × Nat) Nat
  sluRet : Map (Nat × Nat) Nat
  /-- The grid that holds a core's buffers (R315). -/
  sluHold : Map Nat Nat
  /-- The queues of the three migration engines (R379). -/
  migr : List (Nat × MigrCmd)
  /-- MGCNT by engine: pages, skips, poisoned lines, lost lines (R385). -/
  mgcnt : Map Nat (Word × Word × Word × Word)
  /-- CXL ports that are not as at reset (R374). -/
  ports : Map Nat Port
  /-- The rest of the register window (R451 to R459). -/
  host : HostRegs
  /-- Clusters under test (R347). -/
  testing : List Nat
  /-- When the last test of a cluster began, in ns of its die's time counter (R452). -/
  testedAt : Map Nat Nat
  deriving DecidableEq, Repr

/-- A lane as at reset: lane L of device core c holds 1 + 64·c + L in its generator (R59). -/
def Lane.reset (n : Nat) : Lane where
  seed := BitVec.ofNat 24 (1 + n)
  last := (7, 3)
  trap := none

/-- A context slot as at reset (R391, R415), with the control registers at their values of R423. -/
def Ctx.reset : Ctx where
  desc := 0#64
  gen := 0#22
  err := 0
  cmd := 0
  st := .free
  lost := 0
  bell := 0#32
  dbg := false
  pre := false
  dbgLoc := 0#32
  root := 0
  wbud := 0
  sys := false
  migr := false
  pair := false
  wtot := 0
  dq := 0
  prq := 0
  snap := 0
  nsnap := 0
  tvec := 0#64
  svec := 0#64
  rvec := 0#64
  svbase := 0#64
  pkr := 0#32
  slto := 0x4000#32
  seq := 0
  requests := []
  waited := 0
  destroy := false

/-- A host queue as at reset (R393). -/
def HostQueue.reset : HostQueue where
  base := 0#64
  en := false
  lg := 0
  slot := 0
  tail := 0#32
  head := 0#32
  err := false
  reason := 0

/-- A CXL port as at reset (R374); its link is active once the firmware has trained it (R453). -/
def Port.reset : Port where
  hen := true
  tmo := 0x64#16
  iso := false
  wdrop := 0#16
  seq := 0#32
  active := false
  training := false
  cfg := []

/-- A barrier as it starts: no completed phase and nothing counted (R244). -/
def Barrier.reset : Barrier where
  phase := 0#32
  arr := 0
  exp := none
  posted := 0
  landed := 0

/-- The window registers of chapter 22 as at reset (R451 to R458); thTrip survives a module reset (R458). -/
def HostRegs.reset : HostRegs where
  mgqDesc := 0#64
  mgqLost := 0#32
  mgqVec := 0#6
  mgSeq := 0
  msix := []
  tstInt := 0x0E10#16
  tstMsk := []
  attNonce := List.replicate 8 0#32
  attDst := 0#64
  attGo := false
  attUse := []
  bootFail := false
  booted := false
  measure := []
  pwrCap := 3600#32
  dpCap := []
  thTrip := false
  throttled := []
  inReset := []
  hints := []

/-- The device right after module reset (R59, R391, R393, R439, R440, R445, R459): no context, no grid, no group;
signed boot is the first thing that happens (R454). -/
def State.reset : State where
  agenda := []
  cur := none
  tick := 0
  freeCtr := 0
  nextUid := 1
  groups := []
  wgs := []
  saved := []
  grids := []
  gridIds := []
  bars := []
  lanes := []
  upsets := []
  ctxs := []
  queues := []
  nextQueue := 0
  mem := []
  poison := []
  l1 := []
  clu := []
  l2 := []
  consts := []
  farDirty := []
  writes := []
  sent := []
  expPoison := []
  tlbs := []
  pend := []
  ovfDue := []
  dpres := 0x1FF#9
  times := []
  frame := 0#32
  qosctl := 0x0200#32
  qosq := []
  qosctlNow := 0x0200#32
  qosqNow := []
  rpcnt := []
  conv := []
  samples := []
  votes := []
  struck := []
  macros := []
  coresOut := []
  childCount := []
  copies := []
  pan := []
  panPoison := []
  panStamps := []
  rels := []
  barClocks := []
  landed := []
  pendRows := []
  mxops := []
  latches := []
  sluBuf := []
  sluFly := []
  sluUsed := []
  sluRet := []
  sluHold := []
  migr := []
  mgcnt := []
  ports := []
  host := HostRegs.reset
  testing := []
  testedAt := []

/-- The reasons for which the model stops with a fault of its own. Everything the spec calls a fault is taken as the
spec says and is a next state. -/
inductive Fault where
  /-- An instruction word is executed while no split issues it: raised by every meaning of an encoded word, never by
  step. Safe: the device executes a word only in the name of a split. -/
  | noIssuer
  deriving DecidableEq, Repr

/-- The reasons for which the model refuses. -/
inductive Refusal where
  /-- The instruction has no meaning in the model yet: raised by Dispatch alone. Safe: nothing is proved of it. -/
  | notModelled (mnemonic : String)
  deriving DecidableEq, Repr

end Sys2Proof.Machine
end

