-- ==== Sys2Proof/Machine/Operands.lean ====
section
/-!
DEFINITION. Operands of the lane: the fields of the mode register (R80), the types of R57, masks of threads, and reading
and writing registers and pairs with their shape tags (R73, R78, R101, R151, R153).
-/

namespace Sys2Proof.Machine

/-! ### The mode register (R80) -/

/-- The operand type. -/
def Split.ty (p : Split) : Nat := (p.mode.extractLsb' 27 5).toNat
/-- The rounding mode. -/
def Split.rnd (p : Split) : Nat := (p.mode.extractLsb' 24 3).toNat
/-- Saturation. -/
def Split.sat (p : Split) : Bool := p.mode.getLsbD 23
/-- Flush of subnormals, in force for f32 and f16x2 only (R61). -/
def Split.ftz (p : Split) : Bool := p.mode.getLsbD 22
/-- The guard is in force. -/
def Split.gv (p : Split) : Bool := p.mode.getLsbD 21
/-- The guard predicate is negated. -/
def Split.gn (p : Split) : Bool := p.mode.getLsbD 20
/-- The guard predicate. -/
def Split.gp (p : Split) : Nat := (p.mode.extractLsb' 17 3).toNat
/-- The predicate that `sel`, `addc` and `subc` use. -/
def Split.selP (p : Split) : Nat := (p.mode.extractLsb' 14 3).toNat
/-- The shift of `lea` and `leai`. -/
def Split.lsc (p : Split) : Nat := (p.mode.extractLsb' 11 3).toNat
/-- The mode of `shfl`. -/
def Split.shm (p : Split) : Nat := (p.mode.extractLsb' 8 3).toNat

/-! ### Types (R57) -/

/-- Data operands of the type name pairs (R101). -/
def isWide (ty : Nat) : Bool := ty == 2 || ty == 3 || ty == 9

/-- The width of an element. -/
def elemWidth (ty : Nat) : Nat :=
  if isWide ty then 64
  else if ty == 4 || ty == 5 || ty == 10 || ty == 11 then 16
  else if ty == 6 || ty == 7 || ty == 12 || ty == 13 then 8 else 32

/-- The number of elements in an operand of the type. -/
def elemCount (ty : Nat) : Nat := if isWide ty then 1 else 32 / elemWidth ty

/-- The type is a signed integer type. -/
def isSigned (ty : Nat) : Bool := ty == 0 || ty == 2 || ty == 4 || ty == 6

/-- The floating-point format of a type. -/
def tyFmt (ty : Nat) : Option Fmt :=
  match ty with
  | 8 => some .f32
  | 9 => some .f64
  | 10 => some .f16
  | 11 => some .bf16
  | 12 => some .e4m3
  | 13 => some .e5m2
  | _ => none

/-- The flush of R61 is in force: ftz, and the type is f32 or f16x2. -/
def Split.flushes (p : Split) : Bool := p.ftz && (p.ty == 8 || p.ty == 10)

/-- Element j of width w of a value. -/
def elemOf (w j x : Nat) : Nat := x / 2 ^ (w * j) % 2 ^ w

/-- The value whose elements of width w a function gives. -/
def joinElems (w n : Nat) (f : Nat → Nat) : Nat :=
  (List.range n).foldl (fun acc j => acc + (f j % 2 ^ w) * 2 ^ (w * j)) 0

/-- An element read as a signed or unsigned integer. -/
def elemInt (signed : Bool) (w x : Nat) : Int := if signed && x.testBit (w - 1) then (x : Int) - 2 ^ w else x

/-- The smallest and the largest value of an integer type (R57). -/
def intRange (signed : Bool) (w : Nat) : Int × Int :=
  if signed then (-(2 ^ (w - 1) : Int), 2 ^ (w - 1) - 1) else (0, 2 ^ w - 1)

/-- Fits an exact integer to an element: clamped with sat, else modulo 2^w (R104). -/
def fitInt (sat signed : Bool) (w : Nat) (x : Int) : Nat :=
  let (lo, hi) := intRange signed w
  ((if sat then max lo (min hi x) else x) % 2 ^ w).toNat

/-- The exact integer does not fit the element. -/
def clamps (signed : Bool) (w : Nat) (x : Int) : Bool :=
  let (lo, hi) := intRange signed w
  decide (x < lo) || decide (hi < x)

/-! ### Masks of threads -/

/-- Every thread of a group. -/
def fullMask : Mask := 0xFFFFFFFF#32

/-- The thread is in the mask. -/
def Mask.has (m : Mask) (t : Nat) : Bool := m.getLsbD t

/-- The threads of a mask in index order. -/
def threadsOf (m : Mask) : List Nat := (List.range 32).filter fun t => m.getLsbD t

/-- The mask of the threads that meet a condition. -/
def maskOf (f : Nat → Bool) : Mask :=
  (List.range 32).foldl (fun acc t => if f t then acc ||| (1#32 <<< t) else acc) 0#32

/-- The lowest thread of a mask. -/
def lowest (m : Mask) : Nat := (threadsOf m).headD 0

/-- The highest thread of a mask. -/
def highest (m : Mask) : Nat := (threadsOf m).getLastD 0

/-! ### Registers (R73, R78) -/

/-- Thirty-two equal values. -/
def sameVals (v : Word) : Vals := List.replicate 32 v

/-- A register as a group starts with it: zero, full, uniform (R33, R154). -/
def Reg.zero : Reg where
  vals := sameVals 0#32
  full := true
  tag := .uniform

/-- A register of a group; g0 reads as zero, always full and uniform (R78, R151). -/
def Group.reg (g : Group) (n : Nat) : Reg := if n = 0 then Reg.zero else mapGet g.regs n Reg.zero

/-- A register's value in a thread. -/
def Group.val (g : Group) (n t : Nat) : Word := (g.reg n).vals.getD t 0#32

/-- A pair's 64-bit value in a thread; a pair based at g0 reads as zero (R73). -/
def Group.pairVal (g : Group) (n t : Nat) : DWord := if n = 0 then 0#64 else (g.val (n + 1) t ++ g.val n t : DWord)

/-- A data operand's value in a thread, a pair or a register as the type says (R101). -/
def Group.data (g : Group) (wide : Bool) (n t : Nat) : Nat := if wide then (g.pairVal n t).toNat else (g.val n t).toNat

/-- Register n + i of an operand of several registers; based at g0 it reads as zero (R73). -/
def Group.part (g : Group) (n i t : Nat) : Word := if n = 0 then 0#32 else g.val (n + i) t

/-- A predicate in a thread; p0 reads true (R78). -/
def Group.pred (g : Group) (p t : Nat) : Bool := p == 0 || (mapGet g.preds p 0#32).getLsbD t

/-- A predicate in every thread. -/
def Group.predMask (g : Group) (p : Nat) : Mask := if p = 0 then fullMask else mapGet g.preds p 0#32

/-- Writes a predicate in the threads of a mask; p0 discards writes (R78). -/
def Group.setPred (g : Group) (p : Nat) (m : Mask) (f : Nat → Bool) : Group :=
  if p = 0 then g
  else { g with preds := mapSet g.preds p ((mapGet g.preds p 0#32 &&& ~~~m) ||| (maskOf f &&& m)) }

/-! ### Tags (R151 to R154) -/

/-- An affine tag, uniform when its stride is 0 (R152). -/
def Tag.ofStride (s : Word) : Tag := if s = 0#32 then .uniform else .affine s

/-- An affine tag of a pair, uniform when its stride is 0 (R152). -/
def Tag.ofStride64 (s : DWord) : Tag := if s = 0#64 then .uniform else .affine64 s

/-- A register read alone: the even register of an affine64 pair is seen as affine (R151). -/
def Tag.single : Tag → Tag
  | .affine64 s => .ofStride (s.extractLsb' 0 32)
  | t => t

/-- The tag of a one-register operand. -/
def Group.tag (g : Group) (n : Nat) : Tag := (g.reg n).tag.single

/-- The tag of a pair: uniform when both registers are, affine64 when the even one is (R151). -/
def Group.pairTag (g : Group) (n : Nat) : Tag :=
  if n = 0 then .uniform
  else
    match (g.reg n).tag, (g.reg (n + 1)).tag with
    | .affine64 s, _ => .affine64 s
    | .uniform, .uniform => .uniform
    | _, _ => .general

/-- The tag of a data operand. -/
def Group.dataTag (g : Group) (wide : Bool) (n : Nat) : Tag := if wide then g.pairTag n else g.tag n

/-- The tag that the values of a register earn: uniform, else affine, else general (R154, R164). -/
def tagOfVals (v : Vals) : Tag :=
  let b := v.getD 0 0#32
  let s := v.getD 1 0#32 - b
  if (List.range 32).all fun t => v.getD t 0#32 == b + s * BitVec.ofNat 32 t then .ofStride s else .general

/-- The tag that the values of a pair earn (R154, R164). -/
def tagOfPair (lo hi : Vals) : Tag :=
  let at_ t : DWord := (hi.getD t 0#32 ++ lo.getD t 0#32 : DWord)
  let s := at_ 1 - at_ 0
  if (List.range 32).all fun t => at_ t == at_ 0 + s * BitVec.ofNat 64 t then .ofStride64 s else .general

/-- The tag of a destination after a write (R153): the derived tag when every thread is written; with a partial mask
the old tag where the derived one has the same kind, stride and base, else general. -/
def mergeTag (m : Mask) (derived old : Tag) (sameBase : Bool) : Tag :=
  if m = fullMask then derived
  else if m = 0#32 then old
  else if derived = old && sameBase then old else .general

/-- The values of a register after a write to the threads of a mask. -/
def mergeVals (m : Mask) (f : Nat → Word) (old : Vals) : Vals :=
  (List.range 32).map fun t => if m.getLsbD t then f t else old.getD t 0#32

/-- The base, thread 0's value, that a value and a derived tag imply. -/
def baseOf (d : Tag) (t : Nat) (v : Word) : Word :=
  match d with
  | .affine s => v - s * BitVec.ofNat 32 t
  | _ => v

/-- Notes a register as written in the threads of a mask by the group's present word, for an unwind (R339); a value of it that
was still to show in those threads is overwritten (R303). -/
def Group.note (g : Group) (n : Nat) (m : Mask) : Group :=
  { g with
    written := mapSet g.written n g.executed
    fresh := match mapFind g.fresh n with
      | some (k, v) => if k &&& ~~~m = 0#32 then mapDel g.fresh n else mapSet g.fresh n (k &&& ~~~m, v)
      | none => g.fresh }

/-- The registers that a group has written since it had executed a number of words (R339). -/
def Group.writtenSince (g : Group) (k : Nat) : List Nat := (g.written.filter fun x => decide (k ≤ x.2)).map (·.1)

/-- An odd register is about to be written alone: the pair tag of its even register no longer holds (R151). -/
def Group.splitPair (g : Group) (n : Nat) : Group :=
  if n % 2 = 1 then
    match (g.reg (n - 1)).tag with
    | .affine64 s => { g with regs := mapSet g.regs (n - 1) { g.reg (n - 1) with tag := .ofStride (s.extractLsb' 0 32) } }
    | _ => g
  else g

/-- Stores a register whole; g0 discards writes (R78). -/
def Group.putReg (g : Group) (n : Nat) (r : Reg) : Group := if n = 0 then g else { g with regs := mapSet g.regs n r }

/-- Writes one register in the threads of a mask, with the tag that R152 derives; the register becomes full. -/
def Group.write (g : Group) (n : Nat) (m : Mask) (f : Nat → Word) (d : Tag) : Group :=
  if n = 0 then g
  else
    let g := (g.splitPair n).note n m
    let old := g.reg n
    let t0 := lowest m
    g.putReg n
      { vals := mergeVals m f old.vals, full := true,
        tag := mergeTag m d old.tag (baseOf d t0 (f t0) == old.vals.getD 0 0#32) }

/-- Writes a pair in the threads of a mask; a pair based at g0 discards writes (R73). Each of its registers is judged by
its own tag (R151, R153). -/
def Group.writePair (g : Group) (n : Nat) (m : Mask) (f : Nat → DWord) (d : Tag) : Group :=
  if n = 0 then g
  else
    let t0 := lowest m
    let lo := g.reg n
    let hi := g.reg (n + 1)
    let base : DWord := match d with | .affine64 s => f t0 - s * BitVec.ofNat 64 t0 | _ => f t0
    let sameLo := base.extractLsb' 0 32 == lo.vals.getD 0 0#32 &&
      (d == .uniform || base.extractLsb' 32 32 == hi.vals.getD 0 0#32)
    let g := ((g.note n m).note (n + 1) m).putReg n
      { vals := mergeVals m (fun t => (f t).extractLsb' 0 32) lo.vals, full := true, tag := mergeTag m d lo.tag sameLo }
    g.putReg (n + 1)
      { vals := mergeVals m (fun t => (f t).extractLsb' 32 32) hi.vals, full := true,
        tag := mergeTag m (if d = .uniform then .uniform else .general) hi.tag
          (base.extractLsb' 32 32 == hi.vals.getD 0 0#32) }

/-- Writes a data operand, a pair or a register as the type says (R101). -/
def Group.writeData (g : Group) (wide : Bool) (n : Nat) (m : Mask) (f : Nat → Nat) (d : Tag) : Group :=
  if wide then g.writePair n m (fun t => BitVec.ofNat 64 (f t)) d else g.write n m (fun t => BitVec.ofNat 32 (f t)) d

/-- Writes several registers in order from n on, each tagged general; based at g0 the write is discarded (R73). -/
def Group.writeParts (g : Group) (n : Nat) (m : Mask) (cnt : Nat) (f : Nat → Nat → Word) (d : Tag) : Group :=
  if n = 0 then g else (List.range cnt).foldl (fun g i => g.write (n + i) m (f i) d) g

/-- The registers that an operand of cnt registers names; based at g0 it names none that has state (R73). -/
def regsFrom (n cnt : Nat) : List Nat := if n = 0 then [] else (List.range cnt).map (n + ·)

/-- Marks registers empty with their tag general, as a producer does (R33, R152). -/
def Group.markEmpty (g : Group) (rs : List Nat) : Group :=
  rs.foldl (fun g n => let g := g.splitPair n; g.putReg n { g.reg n with full := false, tag := .general }) g

end Sys2Proof.Machine
end

