-- ==== Sys2Proof/Machine/Flags.lean ====
section
/-!
DEFINITION. What is computed into predicates and from them: the conditions of the integer and the floating-point
compares (R113, R137), the carry of `addc` and the borrow of `subc` (R108), truth tables (R115) and the guard (R81).
-/

namespace Sys2Proof.Machine

/-- The condition of an integer compare between two values, as numbers and as bit patterns (R113). -/
def intCond (cc : Nat) (a b : Int) (pa pb : Nat) : Bool :=
  match cc with
  | 0 => a == b
  | 1 => a != b
  | 2 => decide (a < b)
  | 3 => decide (a ≤ b)
  | 4 => decide (b < a)
  | 5 => decide (b ≤ a)
  | 6 => pa &&& pb != 0
  | _ => pa &&& pb == 0

/-- The condition of a floating-point compare (R137). -/
def floatCond (cc : Nat) (a b : FVal) : Bool :=
  let unordered := a == .nan || b == .nan
  match cc with
  | 0 => a.eqv b
  | 1 => !a.eqv b
  | 2 => a.lt b
  | 3 => a.lt b || a.eqv b
  | 4 => b.lt a
  | 5 => b.lt a || a.eqv b
  | 6 => !unordered
  | _ => unordered

/-- The sum and the carry-out of `addc` (R108). -/
def addCarry (a b : Nat) (cin : Bool) : Nat × Bool :=
  let x := a + b + cin.toNat
  (x % 2 ^ 32, decide (2 ^ 32 ≤ x))

/-- The difference and the borrow-out of `subc` (R108). -/
def subBorrow (a b : Nat) (cin : Bool) : Nat × Bool :=
  let x : Int := (a : Int) - b - cin.toNat
  ((x % 2 ^ 32).toNat, decide (x < 0))

/-- The entry of a 4-bit truth table for two predicates (R115). -/
def truthTable (tt : BitVec 4) (a b : Bool) : Bool := tt.getLsbD (2 * a.toNat + b.toNat)

/-- The active mask of a word that the guard applies to (R81). -/
def guardMask (g : Group) (p : Split) : Mask :=
  if p.gv then p.mask &&& (if p.gn then ~~~(g.predMask p.gp) else g.predMask p.gp) else p.mask

end Sys2Proof.Machine
end

