-- ==== Sys2Proof/Machine/Mem.lean ====
section
/-!
DEFINITION. Memory as a list of address and byte pairs in one canonical form: addresses strictly rising and no entry
equal to 0, which is what an address that is not listed reads as (notes/assumptions/1.md). Words are little-endian (R2).
-/

namespace Sys2Proof.Machine

/-- What a byte that nothing has written reads as (DESIGN CHOICE: the spec gives memory no contents at reset). -/
def unlistedByte : Byte := 0#8

/-- Every address of the list lies above a bound, rising, with no entry that an unlisted address would read as. -/
def cellsAbove : Option Nat → List Host.Cell → Bool
  | _, [] => true
  | lo, (a, v) :: r =>
    (match lo with
      | none => true
      | some b => decide (b < a)) && v != unlistedByte && cellsAbove (some a) r

/-- The canonical form of memory. -/
abbrev Memory.wf (m : List Host.Cell) : Prop := cellsAbove none m = true

/-- The byte at an address. -/
def readCell : List Host.Cell → Nat → Byte
  | [], _ => unlistedByte
  | (a', v) :: r, a => if a' = a then v else readCell r a

/-- Writes one byte, keeping the canonical form: the value an unlisted address reads as removes the entry. -/
def writeCell : List Host.Cell → Nat → Byte → List Host.Cell
  | [], a, v => if v = unlistedByte then [] else [(a, v)]
  | (a', v') :: r, a, v =>
    if a < a' then (if v = unlistedByte then (a', v') :: r else (a, v) :: (a', v') :: r)
    else if a' = a then (if v = unlistedByte then r else (a, v) :: r)
    else (a', v') :: writeCell r a v

/-- The n bytes from an address on as one little-endian number (R2). -/
def readBytes (m : List Host.Cell) (a : Nat) : Nat → Nat
  | 0 => 0
  | n + 1 => (readCell m a).toNat + 256 * readBytes m (a + 1) n

/-- Writes the low n bytes of a number from an address on, little-endian (R2). -/
def writeBytes (m : List Host.Cell) (a : Nat) (v : Nat) : Nat → List Host.Cell
  | 0 => m
  | n + 1 => writeBytes (writeCell m a (BitVec.ofNat 8 v)) (a + 1) (v / 256) n

/-- The aligned word at an address. -/
def readWord (m : List Host.Cell) (a : Nat) : Word := BitVec.ofNat 32 (readBytes m a 4)

/-- Writes the aligned word at an address. -/
def writeWord (m : List Host.Cell) (a : Nat) (v : Word) : List Host.Cell := writeBytes m a v.toNat 4

/-- The address of the word that holds a byte (R196). -/
def wordOf (a : Nat) : Nat := a / 4 * 4

/-- The 64-byte line that holds a byte (R182). -/
def lineOf (a : Nat) : Nat := a / 64

/-- The numbers a, a + step, … of length n. -/
def upFrom (a step : Nat) : Nat → List Nat
  | 0 => []
  | n + 1 => a :: upFrom (a + step) step n

end Sys2Proof.Machine
end

