-- ==== Sys2Proof/Machine/Device.lean ====
section
/-!
DEFINITION. The geography of the device (R8, R9, R11) and access to the parts of its state: groups, splits, contexts,
workgroups, grids, lanes, time, free values and unique numbers.
-/

namespace Sys2Proof.Machine

/-! ### Dies, cores, lanes (R8, R9) -/

/-- The device core of a lane. -/
def coreOfLane (l : Nat) : Nat := l / 64
/-- The partition of a lane. -/
def partOfLane (l : Nat) : Nat := l % 64 / 16
/-- The lane within its partition. -/
def laneInPart (l : Nat) : Nat := l % 16
/-- The die of a device core (R9). -/
def dieOfCore (c : Nat) : Nat := c / 8
/-- The cluster, 0 to 35, of a device core (R9). -/
def clusterOf (c : Nat) : Nat := c / 2
/-- The other core of the cluster (R9). -/
def peerCore (c : Nat) : Nat := if c % 2 = 0 then c + 1 else c - 1
/-- The core-grid row of a device core (R9). -/
def gridRow (c : Nat) : Nat := 2 * (c / 8 / 3) + c % 2
/-- The core-grid column of a device core (R9). -/
def gridCol (c : Nat) : Nat := 4 * (c / 8 % 3) + c % 8 / 2
/-- The device core at a row and column of the core grid (R9). -/
def coreAt (r c : Nat) : Nat := 8 * (3 * (r / 2) + c / 4) + 2 * (c % 4) + r % 2
/-- The die that holds the migration engine of a die row (R379). -/
def migrDie (e : Nat) : Nat := 3 * e + 1
/-- The migration engine of a core's die row (R379). -/
def migrOf (core : Nat) : Nat := dieOfCore core / 3

/-! ### Physical addresses (R11, R185) -/

/-- What a physical address belongs to (R11). -/
inductive Region where
  /-- Near memory of a die. -/
  | near (die : Nat)
  /-- Far memory behind a CXL port. -/
  | far (port : Nat)
  /-- The memory of host A (0) or host B (1). -/
  | host (h : Nat)
  /-- The device register window. -/
  | window
  /-- Any other address. -/
  | unbacked
  deriving DecidableEq, Repr

/-- The near-tier die of window k (R11). -/
def nearDie (k : Nat) : Nat := [0, 2, 3, 5, 6, 8].getD k 0

/-- The far-tier die of a CXL port (R8). -/
def portDie (j : Nat) : Nat := 3 * (j / 2) + 1

/-- The base of the device register window (R11). -/
def windowBase : Nat := 0xF0000000000000

/-- The range of R11 that holds an address, backed or not. -/
def regionOf (pa : Nat) : Region :=
  if pa < 0xC000000000 then .near (nearDie (pa / 0x2000000000))
  else if 0x80000000000 ≤ pa ∧ pa < 0xE0000000000 then .far ((pa - 0x80000000000) / 0x10000000000)
  else if 0x10000000000000 ≤ pa ∧ pa < 0x20000000000000 then .host 0
  else if 0x20000000000000 ≤ pa ∧ pa < 0x30000000000000 then .host 1
  else if windowBase ≤ pa ∧ pa < windowBase + 0x100000000 then .window
  else .unbacked

/-- The address lies in a backed range (R12): far memory only up to what the expander reports. -/
def backed (pa : Nat) : Bool :=
  match regionOf pa with
  | .far j => decide ((pa - 0x80000000000) % 0x10000000000 < Config.farCapacity j)
  | .unbacked => false
  | _ => true

/-- The die that performs an access to an address: its home slice, its port, or die 4 for the window (R185, R13). -/
def homeDie (pa : Nat) : Nat :=
  match regionOf pa with
  | .near d => d
  | .far j => portDie j
  | .host 0 => 1
  | .host _ => 7
  | _ => 4

/-- The address belongs to a host (R185). -/
def isHostMem (pa : Nat) : Bool :=
  match regionOf pa with
  | .host _ => true
  | _ => false

/-- The address lies in far memory. -/
def isFar (pa : Nat) : Bool :=
  match regionOf pa with
  | .far _ => true
  | _ => false

/-- The address lies in the device register window (R13). -/
def inWindow (pa : Nat) : Bool := regionOf pa == .window

/-! ### Virtual addresses -/

/-- Bits [63:56] equal bit [55] (R166, R168). -/
def canonical (va : Nat) : Bool := decide (va < 2 ^ 55) || (decide (2 ^ 64 - 2 ^ 55 ≤ va) && decide (va < 2 ^ 64))

/-- The 64 KiB page of an address. -/
def pageOf (va : Nat) : Nat := va / 65536 * 65536

/-! ### Reading and changing the parts of the state -/

/-- A context slot. -/
def State.ctx (s : State) (slot : Nat) : Ctx := mapGet s.ctxs slot Ctx.reset

/-- Changes a context slot. -/
def State.modCtx (s : State) (slot : Nat) (f : Ctx → Ctx) : State :=
  { s with ctxs := mapSet s.ctxs slot (f (s.ctx slot)) }

/-- Changes a group that exists. -/
def State.modGroup (s : State) (gid : Nat) (f : Group → Group) : State :=
  match mapFind s.groups gid with
  | some g => { s with groups := mapSet s.groups gid (f g) }
  | none => s

/-- A group's split. -/
def Group.split (g : Group) (sid : Nat) : Option Split := g.splits.find? fun p => p.idx == sid

/-- Changes a group's split. -/
def Group.modSplit (g : Group) (sid : Nat) (f : Split → Split) : Group :=
  { g with splits := g.splits.map fun p => if p.idx == sid then f p else p }

/-- Changes a split of a group that exists. -/
def State.modSplit (s : State) (gid sid : Nat) (f : Split → Split) : State := s.modGroup gid fun g => g.modSplit sid f

/-- A workgroup. -/
def State.wg (s : State) (w : Nat) : Option Workgroup := mapFind s.wgs w

/-- Changes a workgroup that exists. -/
def State.modWg (s : State) (w : Nat) (f : Workgroup → Workgroup) : State :=
  match mapFind s.wgs w with
  | some g => { s with wgs := mapSet s.wgs w (f g) }
  | none => s

/-- Changes a grid that exists. -/
def State.modGrid (s : State) (n : Nat) (f : Grid → Grid) : State :=
  match mapFind s.grids n with
  | some g => { s with grids := mapSet s.grids n (f g) }
  | none => s

/-- A lane. -/
def State.lane (s : State) (n : Nat) : Lane := mapGet s.lanes n (Lane.reset n)

/-- Changes a lane. -/
def State.modLane (s : State) (n : Nat) (f : Lane → Lane) : State := { s with lanes := mapSet s.lanes n (f (s.lane n)) }

/-- A barrier. -/
def State.bar (s : State) (k : BarKey) : Barrier := mapGet s.bars k Barrier.reset

/-- A CXL port. -/
def State.port (s : State) (j : Nat) : Port := mapGet s.ports j Port.reset

/-- Changes a CXL port. -/
def State.modPort (s : State) (j : Nat) (f : Port → Port) : State := { s with ports := mapSet s.ports j (f (s.port j)) }

/-- Changes the registers of the register window. -/
def State.modHost (s : State) (f : HostRegs → HostRegs) : State := { s with host := f s.host }

/-- A free value of the counter, which advances. -/
def State.free (s : State) : Word × State := (Config.freeWord s.freeCtr, { s with freeCtr := s.freeCtr + 1 })

/-- Free values for the threads of a mask, other threads keeping a value. -/
def State.freeVals (s : State) (m : Mask) (old : Vals) : Vals × State :=
  (mergeVals m (fun t => Config.freeWord (s.freeCtr + t)) old, { s with freeCtr := s.freeCtr + 32 })

/-- A number never used before. -/
def State.uid (s : State) : Nat × State := (s.nextUid, { s with nextUid := s.nextUid + 1 })

/-- A die's time counter in ns (R445). -/
def State.time (s : State) (die : Nat) : Nat := mapGet s.times die 0

/-- The die is present and not fenced (R20). -/
def State.present (s : State) (die : Nat) : Bool := s.dpres.getLsbD die

/-- The dies that are present (R20). -/
def State.presentDies (s : State) : List Nat := (List.range 9).filter s.present

/-- The conversion of a time from die i to die j (R445). -/
def State.convert (s : State) (i j t : Nat) : Nat :=
  let (rate, off) := mapGet s.conv (i, j) (0x100000000#64, 0#64)
  (t * rate.toNat / 2 ^ 32 + off.toNat) % 2 ^ 64

/-- The group in whose name a group acts: itself, or the one that a trap-mode routine interrupts (R421). -/
def Group.acting (g : Group) (gid : Nat) : Nat :=
  match g.trap with
  | some t => t.of_
  | none => gid

/-- The grid of a group. -/
def State.gridOf (s : State) (g : Group) : Option Grid := (s.wg g.wg).bind fun w => mapFind s.grids w.grid

/-- The identifier of the context in a slot (R390). -/
def State.ctxId (s : State) (slot : Nat) : Word := ((s.ctx slot).gen ++ BitVec.ofNat 10 slot : BitVec 32)

/-- The core that a group runs on. -/
def Group.core (g : Group) : Nat := coreOfLane g.lane

/-- The die that a group runs on. -/
def Group.die (g : Group) : Nat := dieOfCore g.core

/-- A routine in trap mode runs in the group's name (R419). -/
def Group.inTrap (g : Group) : Bool :=
  match g.stop with
  | .inTrap _ => true
  | _ => false

/-- The containment depth in force: none in trap mode, of the routine or of the group whose name it runs in (R334). -/
def Group.depth (g : Group) : Nat := if g.trap.isSome || g.inTrap then 0 else g.cont.length

end Sys2Proof.Machine
end

