-- ==== Sys2Proof/Machine/Records.lean ====
section
/-!
DEFINITION. Error records: the fault codes and their classes (R95, R462 and the tables of the later chapters), a
record's location, its bytes with the CRC (R97, R98, R100), and how it starts on its way to its queue (R345, R346, R451).
-/

namespace Sys2Proof.Machine

/-! ### Fault codes (R95, R125, R149, R193, R256, R284, R307, R325, R348, R389, R411, R434) -/

/-- ILLEGAL-OPCODE. -/
abbrev codeIllegalOpcode : Nat := 0x01
/-- RESERVED-FIELD. -/
abbrev codeReservedField : Nat := 0x02
/-- REG-BOUND. -/
abbrev codeRegBound : Nat := 0x03
/-- EMPTY-READ. -/
abbrev codeEmptyRead : Nat := 0x04
/-- UNIFORM-ASSERT. -/
abbrev codeUniformAssert : Nat := 0x05
/-- RUN-LENGTH. -/
abbrev codeRunLength : Nat := 0x06
/-- REGION-OVERFLOW. -/
abbrev codeRegionOverflow : Nat := 0x07
/-- MISALIGNED. -/
abbrev codeMisaligned : Nat := 0x08
/-- NONCANONICAL. -/
abbrev codeNoncanonical : Nat := 0x09
/-- VA-WRAP. -/
abbrev codeVaWrap : Nat := 0x0A
/-- PAGE-ABSENT. -/
abbrev codePageAbsent : Nat := 0x0B
/-- PROTECTION. -/
abbrev codeProtection : Nat := 0x0C
/-- SCRATCH-BOUND. -/
abbrev codeScratchBound : Nat := 0x0D
/-- POISON-CONSUMED. -/
abbrev codePoisonConsumed : Nat := 0x0E
/-- TX-CAPACITY. -/
abbrev codeTxCapacity : Nat := 0x0F
/-- TX-NESTING. -/
abbrev codeTxNesting : Nat := 0x10
/-- TX-FORBIDDEN. -/
abbrev codeTxForbidden : Nat := 0x11
/-- CONTAINER. -/
abbrev codeContainer : Nat := 0x12
/-- PARITY. -/
abbrev codeParity : Nat := 0x13
/-- BARRIER-OVERFLOW. -/
abbrev codeBarrierOverflow : Nat := 0x14
/-- MX-WAIT. -/
abbrev codeMxWait : Nat := 0x15
/-- PAN-BOUND. -/
abbrev codePanBound : Nat := 0x16
/-- SLUICE-TIMEOUT. -/
abbrev codeSluiceTimeout : Nat := 0x17
/-- NOPRE-LIMIT. -/
abbrev codeNopreLimit : Nat := 0x18
/-- DUAL-MISMATCH. -/
abbrev codeDualMismatch : Nat := 0x19
/-- MACRO. -/
abbrev codeMacroInvalid : Nat := 0x1A
/-- REMOTE-PERMISSION. -/
abbrev codeRemotePermission : Nat := 0x1B
/-- TIMEOUT-ISOLATED. -/
abbrev codeTimeoutIsolated : Nat := 0x1C
/-- CONTROL-PLANE. -/
abbrev codeControlPlane : Nat := 0x1D
/-- WAIT-BUDGET. -/
abbrev codeWaitBudget : Nat := 0x1E
/-- TRAP-WATCHDOG. -/
abbrev codeTrapWatchdog : Nat := 0x1F
/-- RECONV-DEPTH. -/
abbrev codeReconvDepth : Nat := 0x40
/-- TYPE-UNSUPPORTED. -/
abbrev codeTypeUnsupported : Nat := 0x41
/-- TRAP-INSTR. -/
abbrev codeTrapInstr : Nat := 0x42
/-- BREAKPOINT. -/
abbrev codeBreakpoint : Nat := 0x43
/-- RSIZE-LIMIT. -/
abbrev codeRsizeLimit : Nat := 0x44
/-- SMAP-INVALID. -/
abbrev codeSmapInvalid : Nat := 0x45
/-- CONST-BOUND. -/
abbrev codeConstBound : Nat := 0x46
/-- BARRIER-INVALID. -/
abbrev codeBarrierInvalid : Nat := 0x47
/-- ATOMIC-UNSUPPORTED. -/
abbrev codeAtomicUnsupported : Nat := 0x48
/-- LAYOUT-INVALID. -/
abbrev codeLayoutInvalid : Nat := 0x49
/-- MX-DESC. -/
abbrev codeMxDesc : Nat := 0x4A
/-- SLUICE-CLOSED. -/
abbrev codeSluiceClosed : Nat := 0x4B
/-- SLUICE-EDGE. -/
abbrev codeSluiceEdge : Nat := 0x4C
/-- SLUICE-SIZE. -/
abbrev codeSluiceSize : Nat := 0x4D
/-- SLUICE-LEFT. -/
abbrev codeSluiceLeft : Nat := 0x4E
/-- CONT-DEPTH. -/
abbrev codeContDepth : Nat := 0x4F
/-- CONT-SPLIT. -/
abbrev codeContSplit : Nat := 0x50
/-- DUAL-UNRESERVED. -/
abbrev codeDualUnreserved : Nat := 0x51
/-- MIGR-INVALID. -/
abbrev codeMigrInvalid : Nat := 0x52
/-- POISON-MOVED. -/
abbrev codePoisonMoved : Nat := 0x53
/-- MIGR-SKIPPED. -/
abbrev codeMigrSkipped : Nat := 0x54
/-- SIGNAL-LOST. -/
abbrev codeSignalLost : Nat := 0x55
/-- TRAP-ONLY. -/
abbrev codeTrapOnly : Nat := 0x56
/-- CTX-BAD. -/
abbrev codeCtxBad : Nat := 0x57
/-- CSR-PRIV. -/
abbrev codeCsrPriv : Nat := 0x58
/-- TRAP-FORBIDDEN. -/
abbrev codeTrapForbidden : Nat := 0x59

/-- The class that a fault carries when it is raised against a word and no handler resumes the group (R95): 4 but for
the codes whose entries say less. -/
def classOf (code : Nat) (inside : Bool) : Nat :=
  if code = codePoisonConsumed ∨ code = codeParity ∨ code = codeDualMismatch ∨ code = codeTimeoutIsolated then
    (if inside then 3 else 2)
  else if code = codeTxCapacity ∨ code = codeBreakpoint ∨ code = codeWaitBudget ∨ code = codePageAbsent then 0
  else if code = codeRemotePermission ∨ code = codeSignalLost then 2
  else 4

/-! ### Location (R100) -/

/-- The location of a split of a group. -/
def Group.loc (g : Group) (split : Nat) : Word :=
  BitVec.ofNat 32 (g.die * 2 ^ 28 + g.core % 8 * 2 ^ 24 + partOfLane g.lane * 2 ^ 22 + laneInPart g.lane * 2 ^ 18 +
    g.slot % 8 * 2 ^ 15 + split % 4 * 2 ^ 13 + g.trap.isSome.toNat * 2 ^ 12)

/-- The location of a unit of a die outside any group. -/
def unitLoc (die : Nat) : Word := BitVec.ofNat 32 (die * 2 ^ 28 + 0x0FFFF000)

/-- The die that a location names. -/
def locDie (l : Word) : Nat := l.toNat / 2 ^ 28

/-! ### Bytes (R97, R98) -/

/-- CRC-16 with polynomial 0x1021, most significant bit first, continued over the bits of one byte. -/
def crcByte (crc b : Nat) : Nat :=
  (List.range 8).foldl
    (fun c i => if (c >>> 15) ^^^ ((b >>> (7 - i)) % 2) = 1 then (c <<< 1 % 65536) ^^^ 0x1021 else c <<< 1 % 65536) crc

/-- The CRC of bytes in increasing address, initial value 0xFFFF. -/
def crc16 (bs : List Nat) : Nat := bs.foldl crcByte 0xFFFF

/-- A field of 64 bits that does not apply is all ones. -/
def orOnes (x : Option Nat) : Nat := x.getD (2 ^ 64 - 1)

/-- The bytes of a number, little-endian. -/
def bytesOf (n v : Nat) : List Nat := (List.range n).map fun i => v / 256 ^ i % 256

/-- A record's eight 64-bit words (R97). -/
def ErrRec.words (r : ErrRec) : List Nat :=
  let w0 := (match r.ctx with | some c => c.toNat | none => 2 ^ 32 - 1) * 2 ^ 32 + r.seq % 2 ^ 16 * 2 ^ 16 +
    r.src % 16 * 2 ^ 12 + r.cls % 16 * 2 ^ 8 + r.code % 256
  let front := [w0, orOnes (r.pc.map BitVec.toNat), orOnes r.va, orOnes r.pa, r.tmask.toNat * 2 ^ 32 + r.loc.toNat,
    r.skid % 512, r.time % 2 ^ 64]
  let detail := r.detail % 2 ^ 48
  let crc := crc16 ((front.map (bytesOf 8)).flatten ++ bytesOf 6 detail)
  front ++ [crc * 2 ^ 48 + detail]

/-- A record as sixteen 32-bit words: the UREC registers (R340). -/
def ErrRec.urec (r : ErrRec) : List Word :=
  (r.words.map fun w => [BitVec.ofNat 32 w, BitVec.ofNat 32 (w / 2 ^ 32)]).flatten

/-! ### Generating a record -/

/-- The queue that a grid's records go to; a group outside any grid uses its context's default queue (R345). -/
def State.queueOf (s : State) (g : Group) : QueueRef :=
  match s.gridOf g with
  | some d => { slot := some g.ctx, va := d.errq }
  | none => { slot := some g.ctx, va := (s.ctx g.ctx).dq }

/-- A context's default queue (R345, R390). -/
def State.defaultQueue (s : State) (slot : Nat) : QueueRef := { slot := some slot, va := (s.ctx slot).dq }

/-- The management queue (R451). -/
def managementQueue : QueueRef := { slot := none, va := 0 }

/-- The time that a record carries: that of the die its location names, converted from the die that makes it (R97). -/
def State.recordTime (s : State) (maker die : Nat) : Nat :=
  if maker = die then s.time die else s.convert maker die (s.time maker)

/-- Completes a generated record: it takes its queue's next sequence number (R98) and the time. -/
def State.stampRec (s : State) (r : ErrRec) : ErrRec × State :=
  let r := { r with time := s.recordTime r.die (locDie r.loc) }
  match r.queue.slot with
  | some slot =>
    ({ r with ctx := some (s.ctxId slot), seq := (s.ctx slot).seq },
      s.modCtx slot fun c => { c with seq := (c.seq + 1) % 2 ^ 16 })
  | none =>
    ({ r with ctx := none, seq := s.host.mgSeq }, s.modHost fun h => { h with mgSeq := (h.mgSeq + 1) % 2 ^ 16 })

/-- Sends a record on its way. A die buffers 256 records; one more is dropped, to be added to ovf with the die's next
delivery (R346). -/
def State.postRec (s : State) (r : ErrRec) : State :=
  if 256 ≤ (s.pend.filter fun x => x.die == r.die).length then
    let key := (r.die, r.queue.slot.getD 1024, r.queue.va)
    { s with ovfDue := mapSet s.ovfDue key (mapGet s.ovfDue key 0 + 1) }
  else { s with pend := s.pend ++ [r] }

/-- Generates a record and sends it on its way. -/
def State.record (s : State) (r : ErrRec) : State :=
  let (r, s) := s.stampRec r
  s.postRec r

/-- A record of a management event of a die's unit (R451). -/
def State.manage (s : State) (die src cls code detail : Nat) (pa : Option Nat) : State :=
  s.record
    { queue := managementQueue, ctx := none, seq := 0, src := src, cls := cls, code := code, pc := none, va := none,
      pa := pa, tmask := 0#32, loc := unitLoc die, skid := 0, time := 0, detail := detail, die := die }

/-- How many words a group has executed after the one that it had executed when its count stood at n (R97). -/
def Group.skidFrom (g : Group) (n : Nat) : Nat := min 256 (g.executed - n - 1)

/-- The skid of a command of a group, which may have exited since (R97, R280). -/
def State.skidOf (s : State) (gid n : Nat) : Nat :=
  match (mapFind s.groups gid).orElse fun _ => s.wgs.findSome? fun x => mapFind x.2.gone gid with
  | some g => g.skidFrom n
  | none => 0

end Sys2Proof.Machine
end

