-- ==== Sys2Proof/Machine/Window.lean ====
section
/-!
DEFINITION. What a read of the device register window returns (R13, R20, R21, R374, R385, R391, R393, R410, R415, R440,
R444, R445, R450 to R458). A read changes nothing.
-/

namespace Sys2Proof.Machine

/-- The Vendor ID of the device's one physical function, which the tier hints carry too (R377, R449). -/
def vendorId : BitVec 16 := 0x1E6F#16

/-- The Device ID of the function (R449). -/
def deviceId : BitVec 16 := 0x7609#16

/-- What the function presents to a host as its identity: Device ID and Vendor ID in one word, as PCI Express lays them out (R449). -/
def functionId : Word := deviceId ++ vendorId

/-- DINFO of a die (R21). -/
def dinfo (n : Nat) : Nat :=
  Config.harv n * 2 ^ 24 + n * 2 ^ 20 + (if n % 3 == 1 then 2 ^ 18 else 2 * 2 ^ 16) + (Config.stepping n).toNat * 2 ^ 8

/-- Half k of a 64-bit value: 0 the low one. -/
def half (k : Nat) (v : DWord) : Word := if k % 2 = 0 then v.extractLsb' 0 32 else v.extractLsb' 32 32

/-- The code of a context slot's state (R391). -/
def CtxState.code : CtxState → Nat
  | .free => 0
  | .live => 1
  | .held => 2
  | .resetting => 3
  | .ended => 4

/-- Word k of the block of a context slot (R391, R415). -/
def Ctx.window (c : Ctx) (k : Nat) : Word :=
  match k with
  | 0 => half 0 c.desc
  | 1 => half 1 c.desc
  | 2 => BitVec.ofNat 32 c.cmd
  | 3 => BitVec.ofNat 32 (c.gen.toNat * 2 ^ 10 + c.err * 2 ^ 4 + c.st.code)
  | 4 => BitVec.ofNat 32 c.lost
  | 5 => c.bell
  | 6 => BitVec.ofNat 32 (2 * c.dbg.toNat + c.pre.toNat)
  | _ => c.dbgLoc

/-- Word k of the block of a host queue (R393). -/
def HostQueue.window (q : HostQueue) (k : Nat) : Word :=
  match k with
  | 0 => half 0 q.base
  | 1 => half 1 q.base
  | 2 => BitVec.ofNat 32 (q.en.toNat * 2 ^ 31 + q.lg * 2 ^ 16 + q.slot)
  | 3 => q.tail
  | 4 => q.head
  | 5 => BitVec.ofNat 32 (q.err.toNat * 2 ^ 31 + q.reason)
  | _ => 0#32

/-- Word k of the block of a CXL port (R374). -/
def Port.window (p : Port) (k : Nat) : Word :=
  match k with
  | 0 => BitVec.ofNat 32 (p.hen.toNat * 2 ^ 16 + p.tmo.toNat)
  | 1 => BitVec.ofNat 32 (p.iso.toNat * 2 ^ 31 + p.wdrop.toNat)
  | 2 => p.seq
  | _ => 0#32

/-- Link Control and Link Status as they read: Data Link Layer Link Active in bit 29 and Link Training in bit 27, Retrain
Link in bit 5 always 0 (R453; the places are those of PCI Express). -/
def linkStatus (p : Port) (v : Word) : Word :=
  (v &&& ~~~0x28000020#32) ||| (if p.active then 0x20000000#32 else 0#32) ||| (if p.training then 0x08000000#32 else 0#32)

/-- A host queue. -/
def State.queue (s : State) (q : Nat) : HostQueue := mapGet s.queues q HostQueue.reset

/-- VOTSTS of a block: resynchronisations, stops, running, and whether a copy is being reloaded (R409, R410). -/
def State.vote (s : State) (b : Nat) : Nat × Nat × Bool × Bool := mapGet s.votes b (0, 0, true, false)

/-- The command processor has not stopped (R409). -/
def State.cpRuns (s : State) : Bool := (s.vote 0).2.2.1

/-- The counters of a migration engine: pages, skips, poisoned lines, lost lines (R385). -/
def State.mgcntOf (s : State) (e : Nat) : Word × Word × Word × Word := mapGet s.mgcnt e (0#32, 0#32, 0#32, 0#32)

/-- The register at an offset below 0x1000 (R20, R21, R374, R385). -/
def State.windowLow (s : State) (off : Nat) : Word :=
  if off = 0 then BitVec.zeroExtend 32 s.dpres
  else if 0x40 ≤ off ∧ off < 0x64 then BitVec.ofNat 32 (dinfo ((off - 0x40) / 4))
  else if 0x100 ≤ off ∧ off < 0x160 then (s.port ((off - 0x100) / 16)).window (off % 16 / 4)
  else if 0x180 ≤ off ∧ off < 0x1B0 then
    let c := s.mgcntOf ((off - 0x180) / 16)
    match off % 16 / 4 with
    | 0 => c.1
    | 1 => c.2.1
    | 2 => c.2.2.1
    | _ => c.2.2.2
  else 0#32

/-- The register at an offset from 0x4000 to 0x43FF (R451, R452, R455, R456, R458). -/
def HostRegs.window (h : HostRegs) (off : Nat) : Word :=
  if off = 0x4000 then half 0 h.mgqDesc
  else if off = 0x4004 then half 1 h.mgqDesc
  else if off = 0x4008 then h.mgqLost
  else if off = 0x400C then BitVec.zeroExtend 32 h.mgqVec
  else if off = 0x4010 then BitVec.zeroExtend 32 h.tstInt
  else if 0x4040 ≤ off ∧ off < 0x4064 then BitVec.zeroExtend 32 (mapGet h.tstMsk ((off - 0x4040) / 4) 0#4)
  else if 0x4100 ≤ off ∧ off < 0x4140 then Config.idKey ((off - 0x4100) / 4)
  else if 0x4200 ≤ off ∧ off < 0x4220 then h.attNonce.getD ((off - 0x4200) / 4) 0#32
  else if off = 0x4220 then half 0 h.attDst
  else if off = 0x4224 then half 1 h.attDst
  else if off = 0x4228 then BitVec.ofNat 32 h.attGo.toNat
  else if off = 0x422C then BitVec.ofNat 32 h.bootFail.toNat
  else if off = 0x4300 then h.pwrCap
  else if off = 0x4304 then BitVec.ofNat 32 h.thTrip.toNat
  else if 0x4340 ≤ off ∧ off < 0x4364 then BitVec.zeroExtend 32 (mapGet h.dpCap ((off - 0x4340) / 4) 400#16)
  else 0#32

/-- The register at an offset from 0x1000 to 0x3FFF (R410, R440, R444, R445). -/
def State.windowMid (s : State) (off : Nat) : Word :=
  if 0x1000 ≤ off ∧ off < 0x104C then
    let (rsy, stp, run, _) := s.vote ((off - 0x1000) / 4)
    BitVec.ofNat 32 (rsy * 2 ^ 16 + stp * 2 ^ 8 + run.toNat)
  else if off = 0x2000 then s.qosctl
  else if 0x2100 ≤ off ∧ off < 0x2270 then BitVec.zeroExtend 32 (mapGet s.qosq ((off - 0x2100) / 4) 0x0200#16)
  else if 0x2400 ≤ off ∧ off < 0x2424 then mapGet s.rpcnt ((off - 0x2400) / 4) 0#32
  else if 0x3000 ≤ off ∧ off < 0x3510 then
    let k := (off - 0x3000) / 16
    let (rate, offset) := mapGet s.conv (k / 9, k % 9) (0x100000000#64, 0#64)
    match off % 16 / 4 with
    | 0 => half 0 rate
    | 1 => half 1 rate
    | 2 => half 0 offset
    | _ => half 1 offset
  else 0#32

/-- The 32-bit register at an offset of the register window, 0 where none stands (R13, R450); where the boot has failed, only
BOOTSTS stands there (R454). -/
def State.windowRead (s : State) (off : Nat) : Word :=
  if off % 4 ≠ 0 ∨ (s.host.bootFail = true ∧ off ≠ 0x422C) then 0#32
  else if off < 0x1000 then s.windowLow off
  else if off < 0x4000 then s.windowMid off
  else if off < 0x4400 then s.host.window off
  else if 0x8000 ≤ off ∧ off < 0xE000 then
    let j := (off - 0x8000) / 0x1000
    let v := mapGet (s.port j).cfg (off % 0x1000) (Config.portConfig j (off % 0x1000))
    if off % 0x1000 = Config.linkControl j then linkStatus (s.port j) v else v
  else if 0x100000 ≤ off ∧ off < 0x108000 then (s.ctx ((off - 0x100000) / 32)).window (off % 32 / 4)
  else if 0x200000 ≤ off ∧ off < 0x240000 then (s.queue ((off - 0x200000) / 32)).window (off % 32 / 4)
  else 0#32

end Sys2Proof.Machine
end

