-- ==== Sys2Proof/Machine/Caches.lean ====
section
/-!
DEFINITION. Memory behind a core: its L1, the cluster atomic unit's buffer, the die's L2 and the homes and ports
(R183 to R187, R207, R208, R235), poison by line (R335), isolated ports and hosts in reset (R376, R459), and the check of
writes at homes on other dies (R443, R444).

Every cache holds words here, each with the validity that the spec gives it; a line or sector that the spec fills or evicts
as a whole is a set of such words.
-/

namespace Sys2Proof.Machine

/-- The fault code under which a mark is consumed (R334, R376, R461). -/
def Mark.code : Mark → Nat
  | .isolated => codeTimeoutIsolated
  | _ => codePoisonConsumed

/-- The source engine of a consumption by an engine (R99, R355, R461). -/
def Mark.src (m : Mark) (engine : Nat) : Nat :=
  match m with
  | .host => 11
  | .walk => 7
  | _ => engine

/-! ### Homes and ports -/

/-- The word at its home or port, with what the far home slices have not forwarded yet (R187); in the register window,
the register (R13). -/
def State.homeWord (s : State) (pa : Nat) : Word :=
  if inWindow pa then s.windowRead (pa - windowBase)
  else
    match mapFind s.farDirty pa with
    | some v => v
    | none => readWord s.mem pa

/-- The mark of a word read at its home or port (R335, R376, R459). -/
def State.homeMark (s : State) (pa : Nat) : Mark :=
  match regionOf pa with
  | .far j => if (s.port j).iso then .isolated else if (mapFind s.poison (lineOf pa)).isSome then .poison else .clean
  | .host h =>
    if s.host.inReset.contains h || !Config.hostAnswers s.tick pa then .host
    else if (mapFind s.poison (lineOf pa)).isSome then .poison else .clean
  | _ => if (mapFind s.poison (lineOf pa)).isSome then .poison else .clean

/-- The whole-word write at a home ends the poison of a line once all 16 words have been written (R335). -/
def State.markWritten (s : State) (pa : Nat) : State :=
  match mapFind s.poison (lineOf pa) with
  | none => s
  | some m =>
    let m := m ||| (1#16 <<< (pa % 64 / 4))
    if m = 0xFFFF#16 then { s with poison := mapDel s.poison (lineOf pa) }
    else { s with poison := mapSet s.poison (lineOf pa) m }

/-- A word that its home slice does not allocate counts towards that only where the slice holds words of the line already (R186,
R335). -/
def State.markPassed (s : State) (pa : Nat) : State :=
  if mapFind s.poison (lineOf pa) = some 0#16 then s else s.markWritten pa

/-- Makes a line poisoned at its home. -/
def State.poisonLine (s : State) (pa : Nat) : State := { s with poison := mapSet s.poison (lineOf pa) 0#16 }

/-- Makes a line poisoned in memory itself, that of an expander included. -/
def State.poisonMemory (s : State) (pa : Nat) : State :=
  { s.poisonLine pa with
    expPoison := if isFar pa && !s.expPoison.contains (lineOf pa) then lineOf pa :: s.expPoison else s.expPoison }

/-- A write dropped at an isolated port is counted (R374, R376). -/
def Port.countDrop (p : Port) : Port := { p with wdrop := if p.wdrop = 0xFFFF#16 then p.wdrop else p.wdrop + 1 }

/-- Performs the write of a word at its home or port: far words stay dirty in their home slice (R187), a write to an
isolated port is dropped and counted, once for each write or sector (R374, R376), and one that a host does not take is dropped
(R459, R461). Told so, the home slice does not allocate the line (R186). -/
def State.homeWrite (s : State) (pa : Nat) (v : Word) (counts : Bool := true) (passes : Bool := false) : State :=
  let mark (s : State) : State := if passes then s.markPassed pa else s.markWritten pa
  match regionOf pa with
  | .far j =>
    if (s.port j).iso then (if counts then s.modPort j Port.countDrop else s)
    else mark { s with farDirty := mapSet s.farDirty pa v }
  | .host h =>
    if s.host.inReset.contains h || !Config.hostAnswers s.tick pa then s
    else mark { s with mem := writeWord s.mem pa v }
  | .near _ => mark { s with mem := writeWord s.mem pa v }
  | _ => s

/-- Performs the write of several words from an address on at their home, as one write for each 64-byte sector (R374). -/
def State.homeWords (s : State) (pa : Nat) (ws : List Word) : State :=
  (List.range ws.length).foldl (fun s i =>
    s.homeWrite (pa + 4 * i) (ws.getD i 0#32) (i == 0 || (pa + 4 * i) % 64 == 0)) s

/-- A home slice writes lines back to memory or to their port: far words that it held dirty reach the port (R187, R373), and
the count of words written to a line that is still poisoned starts again (R335). An expander holds a line poisoned from then on
where it was written so. -/
def State.leaveSlice (s : State) (p : Nat → Bool) : State :=
  { s with
    mem := s.farDirty.foldl (fun m x => if p (lineOf x.1) then writeWord m x.1 x.2 else m) s.mem
    farDirty := mapDrop s.farDirty fun a => p (lineOf a)
    expPoison := (s.expPoison.filter fun line => !p line || (mapFind s.poison line).isSome) ++
      (s.poison.map (·.1)).filter fun line => p line && isFar (64 * line) && !s.expPoison.contains line
    poison := mapAll s.poison fun line m => if p line then 0#16 else m }

/-- The home slices forward every dirty sector of far memory to its port (R187 at .sys). -/
def State.forwardFar (s : State) : State :=
  s.leaveSlice fun line => s.farDirty.any fun x => lineOf x.1 == line

/-- Performs a write that its page's policy sends past the home slice: a far word goes on to its port (R186). -/
def State.portWrite (s : State) (pa : Nat) (v : Word) (counts : Bool) : State :=
  let s := s.homeWrite pa v counts true
  match mapFind s.farDirty pa with
  | some v => { s with mem := writeWord s.mem pa v, farDirty := mapDel s.farDirty pa }
  | none => s

/-! ### Writes on their way (R208, R443, R444) -/

/-- A die's copy of the PKR of a context (R443). -/
def Ctx.keysAt (c : Ctx) (die : Nat) : Word := mapGet c.pkrAt die c.pkr

/-- A write homed on another die than its core's passes the check of that die's copy of PKR (R443). -/
def State.writeAllowed (s : State) (pa : Nat) (i : WMeta) : Bool :=
  dieOfCore i.core == homeDie pa || isHostMem pa ||
    !(((s.ctx i.ctx).keysAt (homeDie pa)).getLsbD (2 * i.key) || ((s.ctx i.ctx).keysAt (homeDie pa)).getLsbD (2 * i.key + 1))

/-- The clean copies of a word on the die and in the core that a refused write came from are dropped: they hold what was not
written (R444, R448). -/
def State.dropRefused (s : State) (pa : Nat) (i : WMeta) : State :=
  { s with
    l1 := s.l1.filter fun x => !(x.1 == (i.core, pa) && !x.2.dirty)
    l2 := s.l2.filter fun x => !(x.1 == (dieOfCore i.core, pa) && !x.2.dirty) }

/-- A refused write is counted at the home's die, and its source records it (R444). -/
def State.refuse (s : State) (pa : Nat) (i : WMeta) : State :=
  let d := homeDie pa
  let n := mapGet s.rpcnt d 0#32
  let s := { s with rpcnt := mapSet s.rpcnt d (if n = 0xFFFFFFFF#32 then n else n + 1) }
  s.record
    { queue := i.queue, ctx := none, seq := 0, src := i.src, cls := 2, code := codeRemotePermission, pc := some i.pc,
      va := some i.va, pa := some pa, tmask := 0#32, loc := i.loc, skid := s.skidOf i.group i.count, time := 0, detail := 0,
      die := dieOfCore i.core }

/-- Performs a word of a write at its home, or refuses it: the refusal shows once for a write or sector, with its first word
(R443, R444). -/
def State.performWrite (s : State) (pa : Nat) (v : Word) (i : WMeta) (counts : Bool := true) : State :=
  if s.writeAllowed pa i then s.homeWrite pa v counts
  else (if counts then s.refuse pa i else s).dropRefused pa i

/-- A write is not performed in a way that is counted: it is refused, or its port is isolated (R376, R444). -/
def State.turnsAway (s : State) (pa : Nat) (i : WMeta) : Bool :=
  !s.writeAllowed pa i || (match regionOf pa with
    | .far j => (s.port j).iso
    | _ => false)

/-- A store under policy 3 is performed at its home or port, or refused (R186, R443). A refusal or a drop shows once for the words
of one access (R374, R444). -/
def State.performUncached (s : State) (w : Write) : State :=
  let shown := w.counts && s.turnsAway w.pa w.info
  let s := if s.writeAllowed w.pa w.info then s.portWrite w.pa w.val w.counts
    else (if w.counts then s.refuse w.pa w.info else s).dropRefused w.pa w.info
  if shown then { s with writes := s.writes.map fun (x : Write) => if x.access == w.access then { x with counts := false } else x }
  else s

/-- Performs and acknowledges, in order, every write on its way that meets a condition (R208). -/
def State.drain (s : State) (p : Write → Bool) : State :=
  let go := (s.writes.filter p).map (·.id)
  let s := go.foldl (fun s n => match s.writes.find? fun w => w.id == n with
    | some w => if w.performed then s else s.performUncached w
    | none => s) s
  { s with writes := s.writes.filter fun w => !go.contains w.id }

/-- Sends a store under policy 3 towards its home or port, after every earlier write of its core to the word has been acknowledged
(R186, R208). A word that is not the first of its access goes with those before it (R444). -/
def State.sendWrite (s : State) (pa : Nat) (v : Word) (i : WMeta) (counts : Bool) : State :=
  let s := s.drain fun w => w.pa == pa && w.info.core == i.core
  let (n, s) := s.uid
  let before := if counts then none else
    s.writes.reverse.find? fun w => w.info.core == i.core && lineOf w.pa == lineOf pa
  { s with writes := s.writes ++ [{ id := n, access := (before.map (·.access)).getD n, pa := pa, val := v, info := i,
                                    performed := false, counts := (before.map (·.counts)).getD true }] }

/-! ### The die's L2 and the cluster's buffer (R185, R235) -/

/-- The address is homed on the die, or its accesses are performed at a host port: the die's L2 holds no copy of it. -/
def homedAt (die pa : Nat) : Bool := homeDie pa == die || isHostMem pa

/-- What the record of a refusal names of the store that wrote a line last: its pc, group, place and queue (R444). -/
def WMeta.lastStore (x i : WMeta) : WMeta :=
  { x with
    pc := i.pc
    group := i.group
    count := i.count
    loc := i.loc
    queue := i.queue }

/-- Performs a write in a die's L2: at the home, or in a non-home copy, whose line keeps with its words what its core stored last
(R185, R187, R444). -/
def State.l2Write (s : State) (die pa : Nat) (v : Word) (i : WMeta) (counts : Bool := true) : State :=
  if homedAt die pa then s.homeWrite pa v counts
  else
    let l2 := s.l2.map fun (x : (Nat × Nat) × L2Word) =>
      if x.1.1 == die && lineOf x.1.2 == lineOf pa && x.2.info.core == i.core then (x.1, { x.2 with info := x.2.info.lastStore i }) else x
    { s with l2 := mapSet l2 (die, pa) { val := v, dirty := true, info := i } }

/-- Which words of a list of words are the first of their line that a context writes under a key: a dropped or refused sector
counts once (R374, R444). -/
def firstsOfLines {α : Type} (info : α → WMeta) :
    List ((Nat × Nat) × α) → List (Nat × Nat × Nat) → List (((Nat × Nat) × α) × Bool)
  | [], _ => []
  | x :: r, seen =>
    let k := (lineOf x.1.2, (info x.2).ctx, (info x.2).key)
    (x, !seen.contains k) :: firstsOfLines info r (k :: seen)

/-- The words of one line of a cluster's buffer go back to the die's L2 (R235). -/
def State.cluFlush (s : State) (cl : Nat) (p : Nat → Bool) : State :=
  let go := s.clu.filter fun x => x.1.1 == cl && p x.1.2
  let s := { s with clu := s.clu.filter fun x => !(x.1.1 == cl && p x.1.2) }
  (firstsOfLines (·.info) (go.filter fun x => x.2.dirty) []).foldl (fun s (x, n) => s.l2Write (cl / 4) x.1.2 x.2.val x.2.info n) s

/-- The dirty words of a die's non-home copies that meet a condition go to their homes, acknowledged (R187). -/
def State.l2Flush (s : State) (die : Nat) (p : Nat → Bool) : State :=
  let go := s.l2.filter fun x => x.1.1 == die && p x.1.2 && x.2.dirty
  let s := { s with l2 := s.l2.map fun x => if x.1.1 == die && p x.1.2 then (x.1, { x.2 with dirty := false }) else x }
  (firstsOfLines (·.info) go []).foldl (fun s (x, n) => (s.drain fun w => w.pa == x.1.2).performWrite x.1.2 x.2.val x.2.info n) s

/-- Drops the non-home copies of a die that meet a condition, dirty ones written back first (R187). -/
def State.l2Drop (s : State) (die : Nat) (p : Nat → Bool) : State :=
  let s := s.l2Flush die p
  { s with l2 := s.l2.filter fun x => !(x.1.1 == die && p x.1.2) }

/-- The 256-byte lines of other dies that a die's L2 holds copies of, newest first (R185). -/
def State.l2Lines (s : State) (die : Nat) : List Nat :=
  (s.l2.filter fun x => x.1.1 == die).foldl (fun acc x => if acc.contains (x.1.2 / 256) then acc else x.1.2 / 256 :: acc) []

/-- Makes room in a die's L2 for a copy of a line: copies take at most a quarter of its 384 MiB (R8, R185). Which line leaves is
the model's choice, the one that has been there longest (log entry 15). -/
def State.l2Room (s : State) (die pa : Nat) : State :=
  let lines := s.l2Lines die
  if lines.contains (pa / 256) ∨ lines.length < 16 * 24 * 2 ^ 20 / 256 / 4 then s
  else s.l2Drop die fun a => a / 256 == lines.getLastD 0

/-- A sector of another die's line enters a die's L2 from its home: the words that it does not hold yet (R185). -/
def State.l2Fill (s : State) (core pa : Nat) : State :=
  let die := dieOfCore core
  (upFrom (pa / 64 * 64) 4 16).foldl (fun s a =>
    if (mapFind s.l2 (die, a)).isSome then s
    else
      let s := s.drain fun w => w.pa == a && dieOfCore w.info.core == die
      { s with l2 := mapSet s.l2 (die, a) { val := s.homeWord a, dirty := false, info := .ofCore core } }) (s.l2Room die pa)

/-- The mark of a word read from a copy on the way: poison stays with the line until all of it has been overwritten. -/
def State.copyMark (s : State) (die pa : Nat) : Mark :=
  if (mapFind s.poison (lineOf pa)).isSome &&
      !(upFrom (pa / 64 * 64) 4 16).all fun a => (mapFind s.l2 (die, a)).any (·.dirty)
  then .poison else .clean

/-- Writes bytes of a scratchpad: a word written whole loses its poison, and in a window the words become dirty (R174,
R179). -/
def State.spWrite (s : State) (w off v n : Nat) (i : WMeta) : State :=
  s.modWg w fun x =>
    let line := off / 128 * 128
    let bits := (upFrom (wordOf off) 4 ((off + n - wordOf off + 3) / 4)).foldl
      (fun (acc : BitVec 32) a => acc ||| (1#32 <<< (a % 128 / 4))) 0#32
    { x with
      scratch := writeBytes x.scratch off v n
      spoison := mapDrop x.spoison fun a => decide (off ≤ a) && decide (a + 4 ≤ off + n)
      wlines := match mapFind x.wlines line with
        | some l => mapSet x.wlines line { l with dirty := l.dirty ||| bits, info := i }
        | none => x.wlines }

/-- A write is performed at the die's L2 for a core, its cluster's buffer first giving the line back (R235). -/
def State.dieTake (s : State) (core pa : Nat) (v : Word) (i : WMeta) (counts : Bool := true) : State :=
  let s := s.cluFlush (clusterOf core) fun a => lineOf a == lineOf pa
  (if homedAt (dieOfCore core) pa then s else s.l2Room (dieOfCore core) pa).l2Write (dieOfCore core) pa v i counts

/-- Performs a store on its way to a die's L2 or to a scratchpad. -/
def State.performSent (s : State) (x : Sent) : State :=
  match x.dest with
  | .die pa => s.dieTake x.info.core pa (BitVec.ofNat 32 x.val) x.info x.counts
  | .scratch w off n => s.spWrite w off x.val n x.info

/-- Performs and acknowledges, in order, every store on its way to a die's L2 or a scratchpad that meets a condition (R208). -/
def State.landSent (s : State) (p : Sent → Bool) : State :=
  let go := s.sent.filter p
  go.foldl State.performSent { s with sent := s.sent.filter fun x => !p x }

/-- A core's own stores to a word of its die's L2 are acknowledged before it comes there again (R208). -/
def State.landOwn (s : State) (core pa : Nat) : State :=
  s.landSent fun x => x.info.core == core && x.dest == .die pa

/-- Every write that a core has sent is performed and acknowledged (R208). -/
def State.acknowledge (s : State) (core : Nat) : State :=
  (s.landSent fun x => x.info.core == core).drain fun w => w.info.core == core

/-- A core has sent writes that are not acknowledged (R208). -/
def State.unacknowledged (s : State) (core : Nat) : Bool :=
  (s.sent.any fun x => x.info.core == core) || s.writes.any fun w => w.info.core == core

/-- The bytes of a store to a scratchpad and some others share a word. -/
def SentTo.meets (d : SentTo) (wg off n : Nat) : Bool :=
  match d with
  | .scratch w o m => w == wg && decide (wordOf o < off + n) && decide (wordOf off < o + m)
  | _ => false

/-- A core's own stores to some bytes of a scratchpad are acknowledged before it comes there again (R208). -/
def State.landScratch (s : State) (core w off n : Nat) : State :=
  s.landSent fun x => x.info.core == core && x.dest.meets w off n

/-- The stores on their way to a workgroup's scratchpad are performed. -/
def State.landIn (s : State) (wg : Nat) : State :=
  s.landSent fun x => match x.dest with
    | .scratch w _ _ => w == wg
    | _ => false

/-- Sends a store of a core to its die's L2, after its earlier ones to the word (R186, R208). -/
def State.sendDie (s : State) (pa : Nat) (v : Word) (i : WMeta) (counts : Bool) : State :=
  let (n, s) := (s.landOwn i.core pa).uid
  { s with sent := s.sent ++ [{ id := n, dest := .die pa, val := v.toNat, info := i, counts := counts }] }

/-- Sends a store of a core to its peer's scratchpad, after its earlier ones to the same words (R208). -/
def State.sendPeer (s : State) (w off v n : Nat) (i : WMeta) : State :=
  let (id, s) := (s.landScratch i.core w off n).uid
  { s with sent := s.sent ++ [{ id := id, dest := .scratch w off n, val := v, info := i }] }

/-- A read performed at the die's L2, in front of which the cluster's buffer stands (R185, R235). The core's own stores to the word
have been performed (R208). -/
def State.dieRead (s : State) (core pa : Nat) : Word × Mark × State :=
  let die := dieOfCore core
  let s := s.landOwn core pa
  match mapFind s.clu (clusterOf core, pa) with
  | some w => (w.val, s.copyMark die pa, s)
  | none =>
    if homedAt die pa then
      let s := s.drain fun w => w.pa == pa && w.info.core == core
      (s.homeWord pa, s.homeMark pa, s)
    else
      match mapFind s.l2 (die, pa) with
      | some w => (w.val, s.copyMark die pa, s)
      | none =>
        let s := s.drain fun w => w.pa == pa && dieOfCore w.info.core == die
        (s.homeWord pa, s.homeMark pa, if s.homeMark pa = .clean then s.l2Fill core pa else s)

/-- A write performed at the die's L2 by a core, after its earlier ones to the word (R208, R235). -/
def State.dieWrite (s : State) (core pa : Nat) (v : Word) (i : WMeta) (counts : Bool := true) : State :=
  ((s.landOwn core pa).drain fun w => w.pa == pa && w.info.core == core).dieTake core pa v i counts

/-- Before an access of a core at a home or a port, the line of the cluster's buffer goes onward to its home, acknowledged, and
so does what the die has sent or holds of the word (R208, R235). -/
def State.towardHome (s : State) (core pa : Nat) : State :=
  let buffered := s.clu.any fun x => x.1.1 == clusterOf core && lineOf x.1.2 == lineOf pa
  let mine (a : Nat) : Bool := if buffered then lineOf a == lineOf pa else a == pa
  let s := s.landSent fun x => dieOfCore x.info.core == dieOfCore core && (match x.dest with
    | .die a => mine a
    | _ => false)
  let s := s.cluFlush (clusterOf core) fun a => lineOf a == lineOf pa
  let s := s.l2Flush (dieOfCore core) mine
  s.drain fun w => mine w.pa && dieOfCore w.info.core == dieOfCore core

/-- A read performed at the home slice or port by a core (R186, R188). -/
def State.homeRead (s : State) (core pa : Nat) : Word × Mark × State :=
  let s := s.towardHome core pa
  (s.homeWord pa, s.homeMark pa, s)

/-- A write performed at the home slice or port by a core, acknowledged (R190, R208). -/
def State.homeStore (s : State) (core pa : Nat) (v : Word) (i : WMeta) (counts : Bool := true) : State :=
  let s := s.towardHome core pa
  let s := { s with l2 := mapDel s.l2 (dieOfCore core, pa) }
  s.performWrite pa v i counts

/-! ### The L1 (R183, R186, R187) -/

/-- Drops a word of a core's L1. -/
def State.l1Drop (s : State) (core pa : Nat) : State := { s with l1 := mapDel s.l1 (core, pa) }

/-- The dirty harvested words of a core's L1 that meet a condition go to the die's L2, host words to their port. -/
def State.l1Flush (s : State) (core : Nat) (p : Nat → Bool) : State :=
  let go := s.l1.filter fun x => x.1.1 == core && p x.1.2 && x.2.dirty
  let s := { s with l1 := s.l1.map fun x => if x.1.1 == core && p x.1.2 then (x.1, { x.2 with dirty := false }) else x }
  (firstsOfLines (·.info) go []).foldl (fun s (x, n) => s.dieWrite core x.1.2 x.2.val x.2.info n) s

/-- A line leaves a core's L1: its dirty words go to the die's L2 or their host port (R183). -/
def State.l1Evict (s : State) (core line : Nat) : State :=
  let s := s.l1Flush core fun a => lineOf a == line
  { s with l1 := s.l1.filter fun x => !(x.1.1 == core && lineOf x.1.2 == line) }

/-- The lines of a core's L1, newest first. -/
def State.l1Lines (s : State) (core : Nat) : List Nat :=
  (s.l1.filter fun x => x.1.1 == core).foldl (fun acc x => if acc.contains (lineOf x.1.2) then acc else lineOf x.1.2 :: acc) []

/-- Makes room for a line in a core's L1 of 256 KiB (R10, R183). A line under the streaming policy leaves first (R186); which one
else is the model's choice, the one that has been there longest (log entry 15); L1_EVICTION may take any other at any time. -/
def State.l1Room (s : State) (core pa : Nat) : State :=
  let lines := s.l1Lines core
  if lines.contains (lineOf pa) ∨ lines.length < 2 ^ 18 / 64 then s
  else
    let first := lines.filter fun l => s.l1.any fun x => x.1.1 == core && lineOf x.1.2 == l && x.2.stream
    s.l1Evict core (first.getLastD (lines.getLastD 0))

/-- Writes a word of a core's L1 as a dirty harvested word of its own (R183); the line keeps with its words what was stored last
(R444). -/
def State.l1Write (s : State) (core pa policy : Nat) (v : Word) (i : WMeta) : State :=
  let s := s.l1Room core pa
  let l1 := s.l1.map fun (x : (Nat × Nat) × L1Word) =>
    if x.1.1 == core && lineOf x.1.2 == lineOf pa then (x.1, { x.2 with info := x.2.info.lastStore i }) else x
  { s with l1 := mapSet l1 (core, pa) { val := v, dirty := true, own := true, info := i, stream := policy == 2 } }

/-- A load of a word through an L1 under a policy: the core's dirty words first whatever the policy, its valid words
under policies 0 and 2, then the die's L2, or the home under policy 3 (R186, R360). -/
def State.coreRead (s : State) (core pa policy : Nat) : Word × Mark × State :=
  match mapFind s.l1 (core, pa) with
  | some w =>
    if w.dirty || policy == 0 || policy == 2 then (w.val, .clean, s)
    else if policy == 1 then s.dieRead core pa else s.homeRead core pa
  | none =>
    if policy == 3 then s.homeRead core pa
    else
      let (v, m, s) := s.dieRead core pa
      if policy == 1 || m != .clean then (v, m, s)
      else
        let s := s.l1Room core pa
        (v, m, { s with l1 := mapSet s.l1 (core, pa) { val := v, dirty := false, own := false, info := .ofCore core, stream := policy == 2 } })

/-- A register write falls due at once, after those that are already due (R13). -/
def queueRegisterWrite (off : Nat) (v : Word) : List Act → List Act
  | .event (.registerWrite a b) :: r => .event (.registerWrite a b) :: queueRegisterWrite off v r
  | l => .event (.registerWrite off v) :: l

/-- A store of a core that is no longer held: a dirty L1 word under policies 0 and 2, on its way to the die's L2 under policy 1, to
the home under policy 3 (R45, R186, R208). -/
def State.coreWrite (s : State) (core pa policy : Nat) (v : Word) (i : WMeta) (counts : Bool := true) : State :=
  if inWindow pa then
    { s with agenda := queueRegisterWrite (pa - windowBase) v s.agenda }
  else if policy == 3 then
    (((s.l1Drop core pa).towardHome core pa).l2Drop (dieOfCore core) fun a => a == pa).sendWrite pa v i counts
  else if policy == 1 then ((s.l1Drop core pa).drain fun w => w.pa == pa && w.info.core == core).sendDie pa v i counts
  else s.l1Write core pa policy v i

/-! ### Release and acquire (R84, R187) -/

/-- The release write-backs of a core at a scope; every write that the core has sent is acknowledged first (R187, R208, R235). -/
def State.writeBack (s : State) (core scope : Nat) : State :=
  let s := (if scope < 3 then s else s.l1Flush core fun _ => true).acknowledge core
  if scope < 4 then s
  else
    let s := s.cluFlush (clusterOf core) fun _ => true
    if scope < 5 then s
    else
      let s := s.l2Flush (dieOfCore core) fun _ => true
      if scope < 6 then s else s.forwardFar

/-- A release of a core at a scope: its write-backs, after which nothing counts as written since (R187). -/
def State.release (s : State) (core scope : Nat) : State :=
  let s := s.writeBack core scope
  if scope < 3 then s
  else { s with l1 := mapAll s.l1 fun k w => if k.1 == core then { w with own := false } else w }

/-- The acquire invalidation of a core at a scope (R187). -/
def State.acquire (s : State) (core scope : Nat) : State :=
  if scope < 3 then s
  else
    let s := { s with l1 := s.l1.filter fun x => !(x.1.1 == core && !x.2.own) }
    if scope < 4 then s
    else
      let s := s.cluFlush (clusterOf core) fun _ => true
      if scope < 5 then s else s.l2Drop (dieOfCore core) fun _ => true

/-! ### The levels of scopes (R188, R190, R235) -/

/-- The policy under which an access at the level of a scope is made: a page's own policy where that asks for more
(R186, R188, R190). -/
def levelPolicy (scope policy : Nat) : Nat :=
  if scope < 3 then policy else if scope < 5 then (if policy = 3 then 3 else 1) else 3

/-- A load of a word under a policy leaves the die's caches, at a far word its home slice's dirty words too: it is a read of a port
(R186, R375). -/
def State.asksPort (s : State) (core pa policy : Nat) : Bool :=
  let die := dieOfCore core
  let l1 := match mapFind s.l1 (core, pa) with
    | some w => w.dirty || policy == 0 || policy == 2
    | none => false
  let l2 := match mapFind s.l2 (die, pa) with
    | some w => w.dirty || policy != 3
    | none => false
  (isFar pa || isHostMem pa) && !l1 && !l2 && (mapFind s.clu (clusterOf core, pa)).isNone && (mapFind s.farDirty pa).isNone

/-- A read at the level of a scope by a core: L1, the die's L2 or the home; the core's dirty word first (R188, R360). -/
def State.levelRead (s : State) (core pa scope policy : Nat) : Word × Mark × State :=
  s.coreRead core pa (levelPolicy scope policy)

/-- A release store at the level of a scope by a core: at .grp and .wg the L1, else the die's L2 or the home, with the
L1 copy updated (R190). -/
def State.levelWrite (s : State) (core pa scope policy : Nat) (v : Word) (i : WMeta) (counts : Bool := true) : State :=
  if inWindow pa ∨ scope < 3 then s.coreWrite core pa policy v i counts
  else
    let s := match mapFind s.l1 (core, pa) with
      | some w => { s with l1 := mapSet s.l1 (core, pa) { w with val := v, dirty := false, own := false } }
      | none => s
    if levelPolicy scope policy = 1 then s.dieWrite core pa v i counts else s.homeStore core pa v i counts

/-- The lines that a cluster's buffer holds, oldest first (R235). -/
def State.cluLines (s : State) (cl : Nat) : List Nat :=
  (s.clu.filter fun x => x.1.1 == cl).foldl (fun acc x => if acc.contains (lineOf x.1.2) then acc else acc ++ [lineOf x.1.2]) []

/-- A line enters a cluster's buffer by a read from the die's L2, the oldest line leaving a full buffer (R235). -/
def State.cluFill (s : State) (core pa : Nat) : State :=
  let cl := clusterOf core
  let lines := s.cluLines cl
  if lines.contains (lineOf pa) then s
  else
    let s := if lines.length < 64 then s else s.cluFlush cl fun a => lineOf a == lines.headD 0
    (upFrom (pa / 64 * 64) 4 16).foldl (fun s a =>
      let (v, _, s) := s.dieRead core a
      { s with clu := mapSet s.clu (cl, a) { val := v, dirty := false, info := .ofCore core } }) s

/-- The word that an atomic reads in the unit that performs it, and to which the core's own dirty word goes first; beyond the L1 the
core's copy of it is dropped (R235). A location that carries a mark does not enter the cluster's buffer. -/
def State.unitRead (s : State) (core pa scope : Nat) : Word × Mark × State :=
  if !isHostMem pa && scope < 3 then s.coreRead core pa 0
  else
    let s := (s.l1Flush core fun a => a == pa).l1Drop core pa
    if isHostMem pa then s.homeRead core pa
    else if scope < 4 then
      let (v, m, s) := s.dieRead core pa
      (v, m, if m = .clean then s.cluFill core pa else s)
    else
      let s := s.cluFlush (clusterOf core) fun a => lineOf a == lineOf pa
      if scope < 5 then s.dieRead core pa else s.homeRead core pa

/-- Writes the result of an atomic in the unit that performs it (R235). -/
def State.unitWrite (s : State) (core pa scope : Nat) (v : Word) (i : WMeta) (counts : Bool := true) : State :=
  if isHostMem pa then s.homeWrite pa v
  else if scope < 3 then s.l1Write core pa 0 v i
  else if scope < 4 then { s with clu := mapSet s.clu (clusterOf core, pa) { val := v, dirty := true, info := i } }
  else if scope < 5 then s.dieWrite core pa v i counts
  else s.homeStore core pa v i counts

/-- The unit of an atomic is a home on another die, which checks the key first (R443). -/
def atHome (scope : Nat) : Bool := decide (5 ≤ scope)

end Sys2Proof.Machine
end

