-- ==== Sys2Proof/Machine/Order.lean ====
section
/-!
DEFINITION. The happens-before order of R195 to R202, as far as anything in the machine depends on it: the outcomes of R303. The
record is the model's own. It is kept by group (log entry 55): what comes before a group's next event, what a release passes on to
the acquires that read its value in scope, and the edges of R202 and R325.
-/

namespace Sys2Proof.Machine

/-- The events before either of two moments. -/
def Clock.join (a b : Clock) : Clock :=
  b.foldl (fun (m : Clock) x => if (mapFind m x.1).any fun n => decide (x.2 ≤ n) then m else mapSet m x.1 x.2) a

/-- An event of a group comes before a moment. -/
def Clock.knows (c : Clock) (e : Nat × Nat) : Bool := (mapFind c e.1).any fun n => decide (e.2 ≤ n)

/-- The events before and with the present one of a group: program order at the granularity of groups (R197). -/
def State.clockOf (s : State) (gid : Nat) : Clock :=
  Clock.join (((mapFind s.groups gid).map (·.clock)).getD []) [(gid, s.tick)]

/-- Events come before the next one of a group. -/
def State.learn (s : State) (gid : Nat) (c : Clock) : State :=
  if c = [] then s else s.modGroup gid fun g => { g with clock := g.clock.join c }

/-- A party on a core, in a workgroup, lies in the scope instance of another's event (R84, R198). -/
def inScope (scope core wg core' wg' : Nat) : Bool :=
  match scope with
  | 0 => false
  | 1 => false
  | 2 => wg == wg'
  | 3 => clusterOf core == clusterOf core'
  | 4 => dieOfCore core == dieOfCore core'
  | _ => true

/-- A release and an event at a scope are mutually in scope (R198). -/
def Release.meets (r : Release) (scope core wg : Nat) : Bool :=
  inScope r.scope r.core r.wg core wg && inScope scope core wg r.core r.wg

/-- The release that a group makes now at a scope, or at that of an earlier fence where it is wider (R199). -/
def State.releaseOf (s : State) (gid scope : Nat) : Option Release :=
  match mapFind s.groups gid with
  | none => none
  | some g =>
    let scope := max scope g.relScope
    if scope = 0 then none else some { core := coreOfLane g.lane, wg := g.wg, scope := scope, clock := s.clockOf gid }

/-- A word has been written to a location, with the releases that a read of it may synchronise with (R200). Of an earlier write of
the same value nothing is kept. -/
def State.noteWrite (s : State) (loc : Nat × Nat) (v : Word) (rs : List Release) : State :=
  let l := ((mapGet s.rels loc []).filter fun x => x.1 != v) ++ rs.map fun r => (v, r)
  if l = mapGet s.rels loc [] then s
  else { s with rels := if l = [] then mapDel s.rels loc else mapSet s.rels loc l }

/-- The releases that a read of a value at a location may synchronise with. -/
def State.releasesAt (s : State) (loc : Nat × Nat) (v : Word) : List Release :=
  ((mapGet s.rels loc []).filter fun x => x.1 == v).map (·.2)

/-- A group acquires from some releases at a scope: from those mutually in scope with it (R200). -/
def State.synchronise (s : State) (gid scope : Nat) (rs : List Release) : State :=
  match mapFind s.groups gid with
  | none => s
  | some g => rs.foldl (fun s r => if r.meets scope (coreOfLane g.lane) g.wg then s.learn gid r.clock else s) s

/-- A plain load of a group has returned a value of a location: an acquire fence to come synchronises with its release (R199). -/
def State.saw (s : State) (gid : Nat) (loc : Nat × Nat) (v : Word) : State :=
  let rs := s.releasesAt loc v
  if rs = [] then s else s.modGroup gid fun g => { g with seen := g.seen ++ rs.filter fun r => !g.seen.contains r }

/-- A release fence of a group: its later stores release (R199). -/
def State.fenceOut (s : State) (gid scope : Nat) : State := s.modGroup gid fun g => { g with relScope := max g.relScope scope }

/-- An acquire fence of a group: the loads before it acquire (R199). -/
def State.fenceIn (s : State) (gid scope : Nat) : State :=
  s.synchronise gid scope (((mapFind s.groups gid).map (·.seen)).getD [])

/-- A store of a group to a location, a release where it or an earlier fence is one (R199). -/
def State.noteStore (s : State) (gid : Nat) (loc : Nat × Nat) (v : Word) (scope : Nat) : State :=
  s.noteWrite loc v (s.releaseOf gid scope).toList

/-- An atomic of a group has read a word and written another: it acquires where its entry says so, continues the release sequences
that it is in scope of, and releases (R199, R200). -/
def State.noteAtomic (s : State) (gid scope : Nat) (acquires : Bool) (loc : Nat × Nat) (old : Word) (new : Option Word) : State :=
  let rs := s.releasesAt loc old
  let own := (s.releaseOf gid scope).toList
  let s := if acquires then s.synchronise gid scope rs else s
  match new with
  | none => s
  | some v => s.noteWrite loc v (own ++ rs.filter fun r => own.any fun o => r.meets scope o.core o.wg)

/-- An arrival at a barrier, or a landing there, comes before the departures from the present phase (R202). -/
def State.barLearn (s : State) (k : BarKey) (c : Clock) : State :=
  let p := (k, (s.bar k).phase.toNat)
  { s with barClocks := mapSet s.barClocks p ((mapGet s.barClocks p []).join c) }

/-- A group departs from the phase of its latest arrival at a barrier (R202). -/
def State.barDepart (s : State) (gid : Nat) (k : BarKey) : State :=
  match (mapFind s.groups gid).bind fun g => mapFind g.stamps k with
  | some p => s.learn gid (mapGet s.barClocks (k, p.toNat) [])
  | none => s

/-- A copy has filled a line or a row: the events before it come before the reads of that (R202). -/
def State.noteLanded (s : State) (keys : List (Nat × Nat × Nat)) (c : Clock) : State :=
  { s with landed := keys.foldl (fun m k => mapSet m k ((mapGet m k []).join c)) s.landed }

/-- A group accesses lines or rows that copies have filled (R202). -/
def State.touchLanded (s : State) (gid : Nat) (keys : List (Nat × Nat × Nat)) : State :=
  keys.foldl (fun s k => s.learn gid (mapGet s.landed k [])) s

end Sys2Proof.Machine
end

