-- ==== Sys2Proof/Machine/Pan.lean ====
section
/-!
DEFINITION. The tile pan (R285, R305, R306): its bytes and errors, and the accumulator words that matrix operations still
write (R303).
-/

namespace Sys2Proof.Machine

/-! ### The pan (R285, R305) -/

/-- The bytes of a pan from a physical row and column on, as a number. -/
def State.panRead (s : State) (core row col n : Nat) : Nat :=
  (List.range n).foldl (fun acc i => acc + (mapGet s.pan (core, row, col + i) 0#8).toNat * 2 ^ (8 * i)) 0

/-- Some word of a stretch of a pan row carries an uncorrectable error (R306). -/
def State.panBad (s : State) (core row col n : Nat) : Bool :=
  s.panPoison.any fun (c, r, w) => c == core && r == row && decide (w < col + n) && decide (col < w + 4)

/-- The pan words of a stretch. -/
def panWords (core row col n : Nat) : List (Nat × Nat × Nat) :=
  (upFrom (col / 4) 1 ((col + n + 3) / 4 - col / 4)).map fun w => (core, row, w)

/-- The rows of A of an operation: those read, or those that its descriptor names (R288, R300, R304). -/
def MxOp.rows (o : MxOp) : Nat :=
  match o.kind with
  | .zero => 32 * (((o.desc.getD 1 0#32).extractLsb' 10 2).toNat + 1)
  | .rscl => 32 * (((o.desc.getD 1 0#32).extractLsb' 10 2).toNat + 1)
  | _ => if o.arows = [] then 32 * (((o.desc.getD 2 0#32).extractLsb' 5 2).toNat + 1) else o.arows.length

/-- The shape of an operation is paired (R286). -/
def MxOp.paired (o : MxOp) : Bool :=
  match o.kind with
  | .zero => (o.desc.getD 1 0#32).getLsbD 12
  | .rscl => (o.desc.getD 1 0#32).getLsbD 12
  | _ => (o.desc.getD 2 0#32).getLsbD 8

/-- The first accumulator row and the half of an operation (R290, R294). -/
def MxOp.crow (o : MxOp) : Nat := ((o.desc.getD 0 0#32).extractLsb' 0 10).toNat
/-- The accumulator half of an operation. -/
def MxOp.chalf (o : MxOp) : Nat := ((o.desc.getD 0 0#32).getLsbD 16).toNat

/-- The cores of an operation with the workgroup and the first physical row of its pan rows there (R285, R286). -/
def State.mxCores (s : State) (o : MxOp) : List (Nat × Nat) :=
  let own (w : Nat) : List (Nat × Nat) := ((s.wg w).map fun x => (x.core, x.panBase)).toList
  own o.wg ++ (if o.paired then (((s.wg o.wg).bind (·.peer)).map own).getD [] else [])

/-- A stretch of a pan row meets the accumulator words of an operation. -/
def State.accMeets (s : State) (o : MxOp) (core row col n : Nat) : Bool :=
  (s.mxCores o).any fun (c, base) => c == core && decide (base + o.crow ≤ row) && decide (row < base + o.crow + o.rows) &&
    decide (col < 512 * o.chalf + 512) && decide (512 * o.chalf < col + n)

/-- The operation reads its accumulator words: `mxc.zero` and a step with init = 1 do not (R294, R296, R304). -/
def MxOp.readsAcc (o : MxOp) : Bool :=
  match o.kind with
  | .zero => false
  | .rscl => true
  | _ => !(o.desc.getD 0 0#32).getLsbD 17

/-- An `mxw` that covers the operation has returned before a moment (R202, R303). -/
def MxOp.covered (o : MxOp) (c : Clock) : Bool := o.waits.any c.knows

/-- Some word of a stretch is one that an operation writes, and no `mxw` that covers it comes before the moment (R303). -/
def State.panHazard (s : State) (c : Clock) (core row col n : Nat) : Bool :=
  s.mxops.any fun o => !o.covered c && s.accMeets o core row col n

/-- Bytes of a pan as a lane or a copy reads them: free values where an operation that writes them has not been waited
for (R303). -/
def State.panTake (s : State) (hazard : Bool) (core row col n : Nat) : Nat × Mark × State :=
  if hazard then
    let (a, s) := s.free
    let (b, s) := s.free
    let (c, s) := s.free
    let (d, s) := s.free
    ((a.toNat + b.toNat * 2 ^ 32 + c.toNat * 2 ^ 64 + d.toNat * 2 ^ 96) % 2 ^ (8 * n), .clean, s)
  else (s.panRead core row col n, if s.panBad core row col n then .poison else .clean, s)

/-- Writes bytes of a pan; a word written whole loses its error. -/
def State.panWrite (s : State) (core row col v n : Nat) : State :=
  { s with
    pan := (List.range n).foldl (fun (m : Map (Nat × Nat × Nat) Byte) i =>
      let b : Byte := BitVec.ofNat 8 (v / 2 ^ (8 * i))
      if b = 0#8 then mapDel m (core, row, col + i) else mapSet m (core, row, col + i) b) s.pan
    panPoison := s.panPoison.filter fun (c, r, w) => !(c == core && r == row && decide (col ≤ w) && decide (w + 4 ≤ col + n)) }

/-- Pan words of an operation's cores, by the core's place among them and the workgroup's own row. -/
def State.ownWords (s : State) (o : MxOp) (words : List (Nat × Nat × Nat)) : List (Nat × Nat × Nat) :=
  words.flatMap fun (c, r, w) => (s.mxCores o).zipIdx.filterMap fun ((core, base), i) =>
    if core == c && decide (base ≤ r) then some (i, r - base, w) else none

/-- Stores bytes of a pan. Words that this writes whole no longer hold what a completed operation has written (R303). -/
def State.panPut (s : State) (core row col v n : Nat) : State :=
  let whole := (panWords core row col n).filter fun w => decide (col ≤ 4 * w.2.2) && decide (4 * w.2.2 + 4 ≤ col + n)
  let s := s.panWrite core row col v n
  { s with mxops := s.mxops.map fun (o : MxOp) =>
      if o.done && s.accMeets o core row col n then { o with ranOver := s.ownWords o whole ++ o.ranOver } else o }

/-- A lane has stored pan words: of the earlier stores only those stay that do not come before this one (R201, R303). -/
def State.stampPan (s : State) (gid : Nat) (words : List (Nat × Nat × Nat)) : State :=
  let c := s.clockOf gid
  { s with panStamps := words.foldl (fun m w =>
      mapSet m w ((gid, s.tick) :: (mapGet m w []).filter fun x => !c.knows x)) s.panStamps }

/-! ### Pan words that operations read (R303) -/

/-- A word of the descriptor. -/
def MxOp.word (o : MxOp) (i : Nat) : Word := o.desc.getD i 0#32
/-- A field of a descriptor word. -/
def MxOp.field (o : MxOp) (i lo n : Nat) : Nat := ((o.word i).extractLsb' lo n).toNat
/-- The operation is a step, not an `mxc`. -/
def MxOp.isStep (o : MxOp) : Bool := o.kind == .mma || o.kind == .cmma || o.kind == .pmma
/-- The first B row. -/
def MxOp.brow (o : MxOp) : Nat := o.field 1 0 10
/-- The planes read by `pmma`. -/
def MxOp.q (o : MxOp) : Nat := o.field 1 12 4
/-- The first group of A. -/
def MxOp.agrp (o : MxOp) : Nat := o.field 2 0 5
/-- The groups of A, minus 1. -/
def MxOp.acnt (o : MxOp) : Nat := o.field 2 5 2
/-- A group is one of those whose registers an operation reads as A (R288). -/
def State.takesPart (s : State) (gid : Nat) (o : MxOp) : Bool :=
  match mapFind s.groups gid with
  | none => false
  | some g => o.isStep && g.wg == o.wg && decide (o.agrp ≤ g.idx) && decide (g.idx ≤ o.agrp + o.acnt)

/-- The A scale row. -/
def MxOp.asrow (o : MxOp) : Nat := o.field 3 0 10
/-- The B scale row. -/
def MxOp.bsrow (o : MxOp) : Nat := o.field 3 16 10
/-- The scale row of `mxc.rscl`. -/
def MxOp.srow (o : MxOp) : Nat := o.field 1 0 10
/-- The format of A. -/
def MxOp.afmt (o : MxOp) : Nat := (o.fmt.extractLsb' 0 4).toNat
/-- The format of B. -/
def MxOp.bfmt (o : MxOp) : Nat := (o.fmt.extractLsb' 4 4).toNat
/-- The accumulator format. -/
def MxOp.cfmt (o : MxOp) : Nat := (o.fmt.extractLsb' 8 4).toNat
/-- The plane count. -/
def MxOp.planes (o : MxOp) : Nat := (o.fmt.extractLsb' 12 4).toNat
/-- The scale of A. -/
def MxOp.ascale (o : MxOp) : Nat := (o.fmt.extractLsb' 16 4).toNat
/-- The scale of B. -/
def MxOp.bscale (o : MxOp) : Nat := (o.fmt.extractLsb' 20 4).toNat
/-- The column of B that column n of the accumulators uses (R297). -/
def MxOp.column (o : MxOp) (n : Nat) : Nat := if o.kind = .cmma then n / 2 * 2 else n

/-- The step of element (m, n) on a core uses a pan word (R303); own is the issuing core with its first physical row. -/
def MxOp.uses (o : MxOp) (own : Nat × Nat) (core base m n : Nat) (t : Nat × Nat × Nat) : Bool :=
  let (c, r, w) := t
  let k := o.column n
  let here (row : Nat) : Bool := c == core && r == base + row
  let home (row : Nat) : Bool := c == own.1 && r == own.2 + row
  let acc := o.readsAcc && here (o.crow + m) && w == 128 * o.chalf + n
  match o.kind with
  | .zero => false
  | .rscl => acc || (home o.srow && w == m)
  | _ =>
    acc ||
      (if o.kind = .pmma then (List.range o.q).any (fun j => here (o.brow + j)) && w / 4 == n / 2
        else here (o.brow + k / 32) && w / 8 == k % 32) ||
      (o.ascale != 0 && home o.asrow && w == (if o.ascale = 1 then m / 2 else m)) ||
      (o.bscale != 0 && here o.bsrow && w == (if o.bscale = 1 then k / 2 else k))

/-- The accumulator words of an operation whose step used some of the pan words (R303); not those that something has overwritten
since. -/
def State.accUsing (s : State) (o : MxOp) (words : List (Nat × Nat × Nat)) : List (Nat × Nat × Nat) :=
  let cores := s.mxCores o
  cores.zipIdx.flatMap fun ((core, base), i) => (List.range o.rows).flatMap fun m => (List.range 128).filterMap fun n =>
    let col := 512 * o.chalf + 4 * n
    if words.any (o.uses (cores.headD (0, 0)) core base m n) && !o.ranOver.contains (i, o.crow + m, col / 4) then
      some (core, base + o.crow + m, col)
    else none

/-- The pan rows of B (R289, R298); `mxc` has none. -/
def MxOp.bRows (o : MxOp) : Nat := if o.isStep then (if o.kind = .pmma then o.q else 4) else 0

/-- The scale rows that the operation reads: in the issuing core's pan, and in every core's (R291, R304). -/
def MxOp.scaleRows (o : MxOp) : List Nat × List Nat :=
  match o.kind with
  | .zero => ([], [])
  | .rscl => ([o.srow], [])
  | _ => (if o.ascale = 0 then [] else [o.asrow], if o.bscale = 0 then [] else [o.bsrow])

/-- The pan rows, B and scales, that the operation reads beside its accumulators: core, first physical row, row. -/
def State.mxRows (s : State) (o : MxOp) : List (Nat × Nat × Nat) :=
  let cores := s.mxCores o
  let (own, all) := o.scaleRows
  (cores.take 1).flatMap (fun (c, b) => own.map fun r => (c, b, r)) ++
    cores.flatMap fun (c, b) => (upFrom o.brow 1 o.bRows ++ all).map fun r => (c, b, r)

/-- An operation reads some word of a stretch of a pan row as B, a scale or an accumulator. -/
def State.mxReads (s : State) (o : MxOp) (core row col n : Nat) : Bool :=
  (s.mxRows o).any (fun (c, b, r) => c == core && b + r == row) || (o.readsAcc && s.accMeets o core row col n)

/-- Pan words are written, after the events of a clock, beside an operation that reads them: unless an `mxw` that covers it is one of
those, the elements that used them end with undefined values, at once where the operation has completed (R303). One that has not
started meets the write when it starts. -/
def State.taintOp (s : State) (c : Clock) (o : MxOp) (words : List (Nat × Nat × Nat)) : State :=
  let words := words.filter fun w => s.mxReads o w.1 w.2.1 (4 * w.2.2) 4
  if words = [] ∨ !o.started ∨ o.covered c then s
  else if o.done then
    (s.accUsing o words).foldl (fun s (c, r, col) => let (v, s) := s.free; s.panWrite c r col v.toNat 4) s
  else { s with mxops := s.mxops.map fun (x : MxOp) => if x.id == o.id then { x with taint := words ++ x.taint } else x }

/-- Pan words are written, after the events of a clock, beside the operations under way and those that have completed (R303). -/
def State.taintPan (s : State) (c : Clock) (words : List (Nat × Nat × Nat)) : State :=
  s.mxops.foldl (fun s o => s.taintOp c o words) s

/-- Bytes of a pan as they are read now, after the events of a clock. -/
def State.panGet (s : State) (c : Clock) (core row col n : Nat) : Nat × Mark × State :=
  s.panTake (s.panHazard c core row col n) core row col n

/-- A copy still owes a fill to a pan row (R277). -/
def State.panBusy (s : State) (core row : Nat) : Bool := decide (0 < mapGet s.pendRows (core, row) 0)

end Sys2Proof.Machine
end

