-- ==== Sys2Proof/Machine/Translate.lean ====
section
/-!
DEFINITION. Translation: the format of table entries (R352), the walk (R351, R353), permissions and keys (R354), TLBs
(R356, R359), the accessed and dirty bits (R357), and the ranges of `tinv` and `tfen` (R365).
-/

namespace Sys2Proof.Machine

/-! ### Table entries (R351, R352) -/

/-- The physical address of the frame or table that an entry names. -/
def pteFrame (e : DWord) : Nat := (e.extractLsb' 16 40).toNat * 65536
/-- The protection key of a leaf. -/
def pteKey (e : DWord) : Nat := (e.extractLsb' 12 4).toNat
/-- The cache policy of a leaf (R186). -/
def ptePolicy (e : DWord) : Nat := (e.extractLsb' 9 3).toNat
/-- The tier of a leaf; 3 is migrating (R369). -/
def pteTier (e : DWord) : Nat := (e.extractLsb' 7 2).toNat

/-- The number of bytes that a leaf at a level maps (R351). -/
def pageSize (level : Nat) : Nat := 2 ^ (46 - 10 * level)

/-- The index that a virtual address has at a level (R351). -/
def tableIndex (level va : Nat) : Nat := va / 2 ^ (46 - 10 * level) % 1024

/-- How a walk ends at an entry, before its poison bit is judged (R353, R367). -/
inductive WalkEnd where
  | leaf
  | absent
  | malformed
  /-- A present, well-formed non-leaf entry that is poisoned. -/
  | table
  /-- A table word that could not be read. -/
  | unread
  deriving DecidableEq, Repr

/-- The end of a walk: how, the level, and the entry with its physical address. -/
structure Walked where
  how : WalkEnd
  level : Nat
  pte : DWord
  ptePa : Nat
  deriving DecidableEq, Repr

/-- A table entry read at its home (R356): the entry, and whether it could be read. -/
def State.readEntry (s : State) (pa : Nat) : DWord × Bool :=
  ((s.homeWord (pa + 4) ++ s.homeWord pa : DWord), s.homeMark pa == .clean)

/-- The entry breaks row 3 of R353. -/
def pteMalformed (level : Nat) (e : DWord) : Bool :=
  e.extractLsb' 56 7 != 0#7 || (e.getLsbD 6 && level == 0) || (!e.getLsbD 6 && level == 3) ||
    (e.getLsbD 6 && pteFrame e % pageSize level != 0)

/-- The walk of an address from a table on, with the number of levels that are left (R351, R353). -/
def State.walkFrom (s : State) (va : Nat) : Nat → Nat → Walked
  | 0, _ => { how := .malformed, level := 3, pte := 0#64, ptePa := 0 }
  | n + 1, table =>
    let level := 3 - n
    let pa := table + 8 * tableIndex level va
    let (e, ok) := s.readEntry pa
    let stop h : Walked := { how := h, level := level, pte := e, ptePa := pa }
    if !ok then stop .unread
    else if !e.getLsbD 0 then stop .absent
    else if pteMalformed level e then stop .malformed
    else if e.getLsbD 6 then stop .leaf
    else if e.getLsbD 63 then stop .table
    else s.walkFrom va n (pteFrame e)

/-- The walk of a virtual address of a context (R351). -/
def State.walk (s : State) (slot va : Nat) : Walked := s.walkFrom va 4 (s.ctx slot).root

/-! ### The outcome of a translation -/

/-- The kind of an access for the checks of R354. -/
structure AccessKind where
  write : Bool
  fetch : Bool
  /-- Keys apply: not to the accesses of the command processor and the schedulers. -/
  keys : Bool
  deriving DecidableEq, Repr

/-- What a translation answers. -/
inductive Xlat where
  /-- The physical address, the cache policy and the key. -/
  | ok (pa policy key : Nat)
  /-- PAGE-ABSENT (R358). -/
  | absent
  /-- A migrating entry (R369). -/
  | moving
  /-- A consumption of poison (R355). -/
  | poison
  /-- PROTECTION with its reason and level (R353, R354). -/
  | prot (reason level : Nat)
  deriving DecidableEq, Repr

/-- The reason for which a leaf refuses an access, in the order of R354. -/
def permit (pkr : Word) (k : AccessKind) (e : DWord) : Option Nat :=
  if k.fetch && !e.getLsbD 2 then some 2
  else if k.keys && pkr.getLsbD (2 * pteKey e) then some 3
  else if k.write && !e.getLsbD 1 then some 1
  else if k.write && k.keys && pkr.getLsbD (2 * pteKey e + 1) then some 4
  else none

/-- The reason for which rows 4 to 6 of R353 refuse a leaf. -/
def leafRefused (sys : Bool) (e : DWord) : Option Nat :=
  let f := pteFrame e
  let inTier := match pteTier e, regionOf f with
    | 3, _ => true
    | _, .window => true
    | 0, .near _ => true
    | 1, .far _ => true
    | 2, .host _ => true
    | _, _ => false
  if !backed f || decide (4 ≤ ptePolicy e) then some 5
  else if !inTier then some 7
  else if inWindow f && (!sys || ptePolicy e != 3) then some 8
  else none

/-- The physical address of a virtual address under a leaf. -/
def leafPa (level : Nat) (e : DWord) (va : Nat) : Nat := pteFrame e + va % pageSize level

/-! ### TLBs (R356, R359) -/

/-- Where a lane's accesses are looked up: its partition's TLB, then its cluster's (R356). -/
def laneTlbs (lane : Nat) : List TlbAt :=
  [.part (coreOfLane lane) (partOfLane lane), .cluster (clusterOf (coreOfLane lane))]

/-- The translation cache of a core's engine commands (R356). -/
def engineTlbs (core : Nat) : List TlbAt := [.engine core]

/-- The entry serves an address of a context. -/
def Tlb.serves (e : Tlb) (slot va : Nat) : Bool :=
  (e.ctx == none || e.ctx == some slot) && decide (e.base ≤ va) && decide (va < e.base + pageSize e.level)

/-- The entry that serves an access, in the order in which the TLBs are looked up. -/
def State.tlbFind (s : State) (at_ : List TlbAt) (slot va : Nat) : Option Tlb :=
  at_.findSome? fun a => s.tlbs.find? fun e => e.at_ == a && e.serves slot va

/-- The pages that a page-waiting split waits for (R358, R369). -/
def Wait.pagesOf : Wait → List Nat
  | .pages l => l
  | .moving l => l
  | _ => []

/-- The page-waiting splits whose group and waited page meet a condition may try their walks again (R358, R359). -/
def State.wakePages (s : State) (p : Group → Nat → Bool) : State :=
  { s with groups := s.groups.map fun (x : Nat × Group) =>
    (x.1, { x.2 with splits := x.2.splits.map fun (q : Split) =>
      if q.st == .pageWait && q.wait.pagesOf.any (p x.2) then { q with released := true } else q }) }

/-- Entries have become invalid: the splits that wait for a page which one of them covers try again (row 8 of R359). -/
def State.wakeDropped (s : State) (gone : List Tlb) : State :=
  if gone = [] then s else s.wakePages fun g va => gone.any fun e => e.serves g.ctx va

/-- Drops the entries that meet a condition, and wakes the splits that wait for their pages (R359). -/
def State.tlbDrop (s : State) (p : Tlb → Bool) : State :=
  { s with tlbs := s.tlbs.filter fun e => !p e }.wakeDropped (s.tlbs.filter p)

/-- How many entries a TLB holds; the spec gives no number for an engine's translation cache (R10, R356). -/
def TlbAt.capacity : TlbAt → Option Nat
  | .part .. => some 64
  | .cluster _ => some 4096
  | .engine _ => none

/-- Replacement: a TLB that holds too many entries loses its oldest one (R356). -/
def trimTlb (l : List Tlb) (a : TlbAt) : List Tlb :=
  match a.capacity with
  | some n => if n < (l.filter fun e => e.at_ == a).length then (l.reverse.eraseP fun e => e.at_ == a).reverse else l
  | none => l

/-- Fills a leaf into TLBs, in place of what they held for the address (R359). -/
def State.tlbFill (s : State) (at_ : List TlbAt) (slot va level ptePa : Nat) (e : DWord) : State :=
  let old := s.tlbs.filter fun x => !(at_.contains x.at_ && x.serves slot va)
  let new := at_.map fun a =>
    { at_ := a, ctx := if e.getLsbD 5 then none else some slot, base := va / pageSize level * pageSize level,
      level := level, pte := e, ptePa := ptePa : Tlb }
  let kept := at_.foldl trimTlb (new ++ old)
  { s with tlbs := kept }.wakeDropped (old.filter fun e => !kept.contains e)

/-- ORs bits into the entry at its home if V and the frame there are still those of the entry that was read; false
where they are not (R357). -/
def State.orEntry (s : State) (ptePa : Nat) (e bits : DWord) : Bool × State :=
  let (h, _) := s.readEntry ptePa
  if h.getLsbD 0 && pteFrame h == pteFrame e then
    (true, s.homeWrite ptePa (h.extractLsb' 0 32 ||| bits.extractLsb' 0 32))
  else (false, s)

/-- A walk for a page has reached a present leaf: no request for the pages it covers is pending any more (R358). -/
def State.requestsMet (s : State) (slot va level : Nat) : State :=
  s.modCtx slot fun c => { c with requests := c.requests.filter fun b => b / pageSize level != va / pageSize level }

/-- The reason for which a leaf that a walk or an entry gives refuses an access, or the translation (R353, R354). -/
def State.judgeLeaf (s : State) (slot va : Nat) (k : AccessKind) (e : DWord) (level : Nat) : Xlat :=
  if pteTier e = 3 then .moving
  else match permit (s.ctx slot).pkr k e with
    | some r => .prot r level
    | none => .ok (leafPa level e va) (ptePolicy e) (pteKey e)

/-- What a walk finds for an access (R353, R354). One that reaches a present leaf ends the requests for its pages (R358). -/
def State.lookWalk (s : State) (slot va : Nat) (k : AccessKind) : State × Xlat :=
  let w := s.walk slot va
  if w.how = .unread ∨ w.pte.getLsbD 63 then (s, .poison)
  else match w.how with
    | .absent => (s, .absent)
    | .leaf =>
      (s.requestsMet slot va w.level, match leafRefused (s.ctx slot).sys w.pte with
        | some r => .prot r w.level
        | none => s.judgeLeaf slot va k w.pte w.level)
    | _ => (s, .prot 6 w.level)

/-- A write through an entry with D = 0 finds that V or the frame have changed at home (R357). -/
def State.changedAtHome (s : State) (e : Tlb) : Bool :=
  let (h, _) := s.readEntry e.ptePa
  !e.pte.getLsbD 4 && (!h.getLsbD 0 || pteFrame h != pteFrame e.pte)

/-- What an access finds for an address: a TLB hit, or a walk. A write drops an entry that has changed at home and walks
again (R357). No bit is set and no TLB filled yet. -/
def State.look (s : State) (at_ : List TlbAt) (slot va : Nat) (k : AccessKind) : State × Xlat :=
  match s.tlbFind at_ slot va with
  | some e =>
    if k.write && s.changedAtHome e then
      (s.tlbDrop fun x => at_.contains x.at_ && x.serves slot va).lookWalk slot va k
    else (s, s.judgeLeaf slot va k e.pte e.level)
  | none => s.lookWalk slot va k

/-- The core that a TLB serves; a cluster's serves its leader core. -/
def TlbAt.core : TlbAt → Nat
  | .part c _ => c
  | .cluster c => 2 * c
  | .engine c => c

/-- The access that a walk serves sees what happens before the fence that published the leaf (R361): clean words of the page
that the core and its die have held from before are dropped, dirty non-home copies going to their homes first. -/
def State.freshPage (s : State) (core : Nat) (level : Nat) (e : DWord) : State :=
  let inPage (pa : Nat) : Bool := pa / pageSize level == pteFrame e / pageSize level
  { s with l1 := s.l1.filter fun x => !(x.1.1 == core && !x.2.dirty && inPage x.1.2) }.l2Drop (dieOfCore core) inPage

/-- A walk whose access passes its checks, or that finds a migrating leaf: A is set and the TLBs are filled (R357, R359). A
TLB hit changes nothing. -/
def State.settleWalk (s : State) (at_ : List TlbAt) (slot va : Nat) : State :=
  match s.tlbFind at_ slot va with
  | some _ => s
  | none =>
    let w := s.walk slot va
    if w.how = .leaf ∧ !w.pte.getLsbD 63 then
      let s := match at_.head? with
        | some a => s.freshPage a.core w.level w.pte
        | none => s
      ((s.orEntry w.ptePa w.pte 8#64).2).tlbFill at_ slot va w.level w.ptePa (w.pte ||| 8#64)
    else s

/-- The physical address that the leaf for an address gives, in the TLBs or by a walk, whether or not it admits an access; none where
no leaf maps it. -/
def State.leafFrame (s : State) (at_ : List TlbAt) (slot va : Nat) : Option Nat :=
  match s.tlbFind at_ slot va with
  | some e => some (leafPa e.level e.pte va)
  | none =>
    let w := s.walk slot va
    if w.how = .leaf then some (leafPa w.level w.pte va) else none

/-- The level of the leaf that maps an address. -/
def State.leafLevel (s : State) (slot va : Nat) : Nat := (s.walk slot va).level

/-- Translates an address for one access (R353 to R359). The dirty bit is not set here. -/
def State.translate (s : State) (at_ : List TlbAt) (slot va : Nat) (k : AccessKind) : State × Xlat :=
  match s.look at_ slot va k with
  | (s, .ok pa p key) => (s.settleWalk at_ slot va, .ok pa p key)
  | (s, .moving) => (s.settleWalk at_ slot va, .moving)
  | r => r

/-- An entry of a TLB that has seen D set holds it; the others keep what they hold (R357). -/
def State.markDirty (s : State) (at_ : List TlbAt) (slot va : Nat) (e : Tlb) : State :=
  { s with tlbs := s.tlbs.map fun (x : Tlb) =>
    if at_.contains x.at_ && x.serves slot va && x.pte == e.pte && x.ptePa == e.ptePa then { x with pte := x.pte ||| 24#64 } else x }

/-- Sets D, and A with it, for a write through the entry that serves it (R357). -/
def State.setDirty (s : State) (at_ : List TlbAt) (slot va : Nat) : State :=
  match s.tlbFind at_ slot va with
  | some e =>
    if e.pte.getLsbD 4 then s
    else
      let (ok, s) := s.orEntry e.ptePa e.pte 24#64
      if ok then s.markDirty at_ slot va e else s
  | none => s

/-- What one word or command finds for the distinct 64 KiB pages of its addresses; no bit is set and nothing is filled. -/
def State.lookAll (s : State) (at_ : List TlbAt) (slot : Nat) (k : AccessKind) : List Nat → State × List (Nat × Xlat)
  | [] => (s, [])
  | p :: r =>
    let (s, x) := s.look at_ slot p k
    let (s, xs) := s.lookAll at_ slot k r
    (s, (p, x) :: xs)

/-- The distinct 64 KiB pages that some addresses touch, in the order of their first touch. -/
def distinctPages (vas : List Nat) : List Nat :=
  vas.foldl (fun acc a => if acc.contains (pageOf a) then acc else acc ++ [pageOf a]) []

/-- The translation of a page is usable or substitutes a defined value: it stops nothing. -/
def Xlat.passes : Xlat → Bool
  | .ok .. => true
  | .poison => true
  | _ => false

/-- The migrating pages among some become entries of the TLBs (R359, R369). -/
def State.settleMoving (s : State) (at_ : List TlbAt) (slot : Nat) (xs : List (Nat × Xlat)) : State :=
  xs.foldl (fun s x => if x.2 == .moving then s.settleWalk at_ slot x.1 else s) s

/-- The accesses to some pages pass their checks: their walks set A and fill the TLBs, and a write sets D (R357). -/
def State.settlePages (s : State) (at_ : List TlbAt) (slot : Nat) (k : AccessKind) (xs : List (Nat × Xlat)) : State :=
  xs.foldl (fun s x => match x.2 with
    | .ok .. =>
      let s := s.settleWalk at_ slot x.1
      if k.write then s.setDirty at_ slot x.1 else s
    | _ => s) s

/-- Translates pages for accesses that all of them must pass: no bit is set unless every page passes (R168, R357). -/
def State.translateFor (s : State) (at_ : List TlbAt) (slot : Nat) (k : AccessKind) (pages : List Nat) :
    State × List (Nat × Xlat) :=
  let (s, xs) := s.lookAll at_ slot k pages
  (if xs.all fun x => x.2.passes then s.settlePages at_ slot k xs else s.settleMoving at_ slot xs, xs)

/-- The translation of an address among those of its pages. -/
def xlatOf (xs : List (Nat × Xlat)) (va : Nat) : Xlat :=
  match mapFind xs (pageOf va) with
  | some (.ok pa p k) => .ok (pa + va % 65536) p k
  | some x => x
  | none => .absent

/-- The walk of the command processor and the schedulers, for whose accesses only absence, the V, W and X bits, backing and
poison count (R354): the leaf with its level and place, or what stops it. An entry that leads nowhere is malformed. -/
def State.cpWalkFrom (s : State) (va : Nat) : Nat → Nat → Walked
  | 0, _ => { how := .malformed, level := 3, pte := 0#64, ptePa := 0 }
  | n + 1, table =>
    let level := 3 - n
    let pa := table + 8 * tableIndex level va
    let (e, ok) := s.readEntry pa
    let stop h : Walked := { how := h, level := level, pte := e, ptePa := pa }
    if !ok then stop .unread
    else if !e.getLsbD 0 then stop .absent
    else if e.getLsbD 6 then stop .leaf
    else if e.getLsbD 63 then stop .table
    else s.cpWalkFrom va n (pteFrame e)

/-- An access of the command processor or a scheduler through a context's translation (R354): no TLB and no keys. It sets A,
and D for a write (R357). A leaf's tier does not count, so a page that is being moved stops no such access. -/
def State.cpTranslate (s : State) (slot va : Nat) (write : Bool) : State × Xlat :=
  let w := s.cpWalkFrom va 4 (s.ctx slot).root
  if w.how = .unread ∨ w.pte.getLsbD 63 then (s, .poison)
  else match w.how with
    | .leaf =>
      let s := s.requestsMet slot va w.level
      if !backed (pteFrame w.pte) then (s, .prot 5 w.level)
      else if write && !w.pte.getLsbD 1 then (s, .prot 1 w.level)
      else ((s.orEntry w.ptePa w.pte (if write then 24#64 else 8#64)).2, .ok (leafPa w.level w.pte va) (ptePolicy w.pte) (pteKey w.pte))
    | .absent => (s, .absent)
    | _ => (s, .prot 6 w.level)

/-- What a walk of a probe or a prefetch does: one that reaches a present leaf ends the requests for its page (R358). -/
def State.probed (s : State) (at_ : List TlbAt) (slot va : Nat) : State :=
  let w := s.walk slot va
  if (s.tlbFind at_ slot va).isNone && w.how == .leaf then s.requestsMet slot va w.level else s

/-! ### Ranges (R365, R366) -/

/-- The entry's page meets a range of n pages. -/
def Tlb.meets (e : Tlb) (base n : Nat) : Bool :=
  decide (e.base < base + 65536 * n) && decide (base < e.base + pageSize e.level)

/-- The TLB is reached by a scope: .die reaches the issuing die, .dev every die (R365). -/
def TlbAt.inScope (die scope : Nat) : TlbAt → Bool
  | .part c _ => scope == 5 || dieOfCore c == die
  | .cluster c => scope == 5 || c / 4 == die
  | .engine c => scope == 5 || dieOfCore c == die

end Sys2Proof.Machine
end

