-- ==== Sys2Proof/Machine/Ops.lean ====
section
/-!
DEFINITION. The named operations over groups and splits that the meanings share: the word being executed, its checks in
the order of R90, advancing, stalling and suspending (R29, R30, R34), divergence and reconvergence (R37 to R41), regions
and harvest (R43 to R45), producers and consumption (R33, R334 to R339), records, taking an exception and returning from
one (R419 to R426), and the end of a context (R392).
-/

namespace Sys2Proof.Machine

/-! ### The word being executed -/

/-- The group and split whose word is being executed, with its active mask (R81). -/
structure Iss where
  gid : Nat
  sid : Nat
  G : Group
  S : Split
  act : Mask
  deriving DecidableEq, Repr

/-- The word's issuer; none where no split issues. A word that has waited off its lane keeps the active mask with which it
began (R30, R81). -/
def State.iss (s : State) : Option Iss :=
  match s.cur with
  | none => none
  | some (gid, sid) =>
    match mapFind s.groups gid with
    | none => none
    | some G =>
      match G.split sid with
      | none => none
      | some S => some { gid := gid, sid := sid, G := G, S := S, act := S.act.getD (guardMask G S) }

/-- Executes a word in the name of its issuer. -/
def State.withIss (s : State) (f : Iss → State) : Host.Outcome State Fault Refusal :=
  match s.iss with
  | some I => .next (f I)
  | none => .fault .noIssuer

/-- The issuer as a state holds it now. -/
def Iss.now (I : Iss) (s : State) : Group := mapGet s.groups I.gid I.G

/-- The core that issues the word. -/
def Iss.core (I : Iss) : Nat := I.G.core
/-- The die that issues the word. -/
def Iss.die (I : Iss) : Nat := I.G.die
/-- The group in whose name the word acts (R421). -/
def Iss.agid (I : Iss) : Nat := I.G.acting I.gid
/-- The release actions of a scope for the word's core (R187). -/
def State.releaseBy (s : State) (I : Iss) (scope : Nat) : State := s.release I.core scope
/-- The acquire actions of a scope for the word's core (R187). -/
def State.acquireBy (s : State) (I : Iss) (scope : Nat) : State := s.acquire I.core scope
/-- The word is executed in trap mode. -/
def Iss.trapped (I : Iss) : Bool := I.G.trap.isSome

/-! ### Reconvergence (R36 to R41) -/

/-- A deferred path that a split owns. -/
def StackEnt.ownedBy (sid : Nat) : StackEnt → Bool
  | .deferred o .. => o == sid
  | _ => false

/-- The pc of a deferred path. -/
def StackEnt.pcOf : StackEnt → Nat
  | .deferred _ pc .. => pc.toNat
  | _ => 0

/-- Merges into a split every deferred path it owns that has its pc (R38). Where several have, R38 names no first one: the
model takes the most recently pushed, as in R38's other tie, so the earliest one's parent values stand (log entry 10). -/
def mergePaths (sid : Nat) (p : Split) : Nat → List StackEnt → Split × List StackEnt
  | 0, st => (p, st)
  | n + 1, st =>
    match st.reverse.find? fun e => e.ownedBy sid && e.pcOf == p.pc.toNat with
    | some (.deferred o pc m mo fo pm pf rs rm rf) =>
      mergePaths sid { p with mask := p.mask ||| m, mode := pm, fmt := pf } n
        (st.reverse.erase (.deferred o pc m mo fo pm pf rs rm rf)).reverse
    | _ => (p, st)

/-- The lowest-pc deferred path that a split owns, ties to the most recently pushed (R38). -/
def lowestPath (sid : Nat) (st : List StackEnt) : Option StackEnt :=
  (st.filter (·.ownedBy sid)).foldl
    (fun best e => match best with
      | none => some e
      | some b => if e.pcOf ≤ b.pcOf then some e else some b) none

/-- The split takes a deferred path. -/
def Split.takePath (p : Split) : StackEnt → Split
  | .deferred _ pc m mo fo _ _ rs rm rf =>
    { p with pc := pc, mask := m, mode := mo, fmt := fo, rstart := rs, rmode := rm, rfmt := rf }
  | _ => p

/-- The current path of a split put in the place of a deferred path, with that entry's parent values (R38). -/
def Split.asDeferred (p : Split) : StackEnt → StackEnt
  | .deferred _ _ _ _ _ pm pf _ _ _ => .deferred p.idx p.pc p.mask p.mode p.fmt pm pf p.rstart p.rmode p.rfmt
  | e => e

/-- A run boundary of a split: deferred paths at its pc merge, and one with a lower pc is switched to (R38). -/
def Group.boundary (g : Group) (sid : Nat) : Group :=
  match g.split sid with
  | none => g
  | some p =>
    let (p, st) := mergePaths sid p g.stack.length g.stack
    let (p, st) := match lowestPath sid st with
      | some e => if e.pcOf < p.pc.toNat then (p.takePath e, st.map fun x => if x == e then p.asDeferred e else x) else (p, st)
      | none => (p, st)
    ({ g with stack := st }).modSplit sid fun _ => p

/-- A split's run ends: its next word begins a run (R29). -/
def Split.endRun (p : Split) : Split :=
  { p with run := 0, wait := .none, waited := 0, counted := false, released := false, call := none, word := none, act := none,
           st := if p.st == .issuing then .ready else p.st }

/-- The split's word has been executed: inside a macro call the next operation is due, else the next word, in a new run
where E is 1 (R29, R223). -/
def Split.next (p : Split) (e : Bool) : Split :=
  match p.call with
  | some c =>
    if c.last then
      let p := { p with pc := p.pc + 4, run := p.run + 1, wait := .none, waited := 0, call := none, word := none, act := none }
      if c.e then p.endRun else p
    else { p with call := some { c with op := c.op + 1 }, wait := .none, waited := 0 }
  | none =>
    let p := { p with pc := p.pc + 4, run := p.run + 1, wait := .none, waited := 0, counted := false, released := false,
                      word := none, act := none }
    if e then p.endRun else p

/-- A word's run ends with it. -/
def Split.endsRun (p : Split) (e : Bool) : Bool :=
  match p.call with
  | some c => c.last && c.e
  | none => e

/-- A word that counts: every word but the operations of a macro call before its last (R224). -/
def Split.counts (p : Split) : Bool :=
  match p.call with
  | some c => c.last
  | none => true

/-- The group after a split has executed a word (R29, R38, R97). -/
def Group.advance (g : Group) (sid : Nat) (e : Bool) : Group :=
  let ends := match g.split sid with
    | some p => p.endsRun e
    | none => false
  let one := match g.split sid with
    | some p => p.counts.toNat
    | none => 1
  let g := { g.modSplit sid (·.next e) with executed := g.executed + one }
  if ends then g.boundary sid else g

/-- The word has been executed; the split goes on after it. -/
def State.advance (s : State) (I : Iss) (e : Bool) : State := s.modGroup I.gid fun g => g.advance I.sid e

/-- The lowest free entry of a split table (R36). R37 says "a split entry e is free" and not which: the model's choice is the
lowest (log entry 10). -/
def Group.freeSplit (g : Group) : Option Nat := (List.range 4).find? fun i => g.splits.all fun p => p.idx != i

/-- The free entries of a split table. -/
def Group.freeCount (g : Group) : Nat := 4 - g.splits.length

/-- Puts the paths of a divergence beyond the first into free entries, then onto the stack as deferred paths; answers
the group and the union of the masks that got entries (R37). -/
def placePaths (p : Split) : List (DWord × Mask) → Group → Mask → Group × Mask
  | [], g, m => (g, m)
  | (pc, mask) :: r, g, m =>
    match g.freeSplit with
    | some i =>
      let q := { p with idx := i, st := .ready, pc := pc, mask := mask, run := 0, wait := .none, waited := 0,
                        counted := false, released := false, passed := 0, call := none, word := none, act := none }
      placePaths p r { g with splits := g.splits ++ [q] } (m ||| mask)
    | none =>
      placePaths p r
        { g with stack := g.stack ++ [.deferred p.idx pc mask p.mode p.fmt p.mode p.fmt p.rstart p.rmode p.rfmt] } m

/-- A control transfer of a split to its paths, sorted by ascending pc, none empty; none where the stack has no room
(R37). The word ends its run. -/
def Group.diverge (g : Group) (sid : Nat) (paths : List (DWord × Mask)) : Option Group :=
  match g.split sid, paths with
  | some p, (pc0, m0) :: rest =>
    let free := g.freeCount
    let need := (rest.length - free) + (if free = 0 ∨ rest.isEmpty then 0 else 1)
    if 8 < g.stack.length + need then none
    else
      let (g, m) := placePaths p rest g m0
      let g := if free = 0 ∨ rest.isEmpty then g else { g with stack := g.stack ++ [.record m p.mode p.fmt] }
      let g := g.modSplit sid fun q => { q with pc := pc0, mask := m0 }.endRun
      some ({ g with executed := g.executed + 1 }.boundary sid)
  | _, _ => some g

/-- The paths of a split's threads by their next pc, ascending (R37). -/
def pathsOf (mask : Mask) (next : Nat → DWord) : List (DWord × Mask) :=
  let pcs := (threadsOf mask).foldl (fun acc t => if acc.contains (next t).toNat then acc else acc ++ [(next t).toNat]) []
  let sorted := sortBy (fun a b => decide (a ≤ b)) pcs
  sorted.map fun pc => (BitVec.ofNat 64 pc, mask &&& maskOf fun t => (next t).toNat == pc)

/-- Removes threads from a stack entry. -/
def StackEnt.without (x : Mask) : StackEnt → StackEnt
  | .record m mo fo => .record (m &&& ~~~x) mo fo
  | .deferred o pc m mo fo pm pf rs rm rf => .deferred o pc (m &&& ~~~x) mo fo pm pf rs rm rf

/-- A deferred path that has no threads left. -/
def StackEnt.emptyPath : StackEnt → Bool
  | .deferred _ _ m .. => m == 0#32
  | _ => false

/-- A split without threads switches to the lowest-pc deferred path it owns, or becomes free (R41). -/
def Group.dropEmpty (g : Group) (sid : Nat) : Group :=
  match g.split sid with
  | none => g
  | some p =>
    if p.mask ≠ 0#32 then g
    else
      match lowestPath sid g.stack with
      | some e =>
        { g with stack := (g.stack.reverse.erase e).reverse }.modSplit sid fun q => (q.takePath e).endRun
      | none => { g with splits := g.splits.filter fun q => q.idx != sid }

/-- Removes threads that exit from every split and stack entry of the group (R41). -/
def Group.removeThreads (g : Group) (x : Mask) : Group :=
  let g := { g with exited := g.exited ||| x, stack := (g.stack.map (·.without x)).filter fun e => !e.emptyPath,
                    splits := g.splits.map fun p => { p with mask := p.mask &&& ~~~x } }
  (List.range 4).foldl Group.dropEmpty g

/-- Merges two ready splits with equal pc and region start into the lower-indexed one (R39). -/
def Group.mergeSplits (g : Group) (a b : Split) : Group :=
  let m := a.mask ||| b.mask
  let within (e : StackEnt) : Bool := match e with
    | .record x _ _ => x &&& ~~~m == 0#32
    | _ => false
  let keep := if lowest a.mask ≤ lowest b.mask then a else b
  let (mode, fmt) := match g.stack.find? within with
    | some (.record _ mo fo) => (mo, fo)
    | _ => (keep.mode, keep.fmt)
  let adopt (e : StackEnt) : StackEnt := match e with
    | .deferred o pc x mo fo pm pf rs rm rf => .deferred (if o = b.idx then a.idx else o) pc x mo fo pm pf rs rm rf
    | e => e
  { g with stack := (g.stack.filter fun e => !within e).map adopt,
           splits := (g.splits.filter fun p => p.idx != b.idx).map fun p =>
             if p.idx == a.idx then { p with mask := m, mode := mode, fmt := fmt } else p }

/-- A split that stands at a run boundary and may be chosen: none of its words is under way, and it has arrived at no barrier
on whose phase it waits (R29, R30, R43). -/
def Split.atBoundary (p : Split) : Bool := p.st == .ready && p.run == 0 && p.word.isNone && !p.counted

/-- The first two splits of a group that may merge (R39). Where three or more qualify, R39 names no first pair: the model
takes the one that comes first in the order of the split table (log entry 10). -/
def Group.mergeable (g : Group) : Option (Split × Split) :=
  let ready := g.splits.filter Split.atBoundary
  (ready.flatMap fun a => ready.filterMap fun b =>
    if a.idx < b.idx ∧ a.pc = b.pc ∧ a.rstart = b.rstart then some (a, b) else none).head?

/-! ### Waiting (R30, R34, R52) -/

/-- Two waits are one continuous wait of a word: a wait for registers goes on while some of them fill, and one for scratchpad lines or
pan rows from one of them to the next (R406). -/
def Wait.continues (a b : Wait) : Bool :=
  match a, b with
  | .regs _ x, .regs _ y => x == y
  | .line .., .line .. => true
  | .row .., .row .. => true
  | _, _ => a == b

/-- The split's word waits for something. -/
def Split.waitsFor (p : Split) (w : Wait) : Split :=
  { p with wait := w, waited := if p.wait.continues w then p.waited else 0 }

/-- The word waits while its split holds the lane. -/
def State.stall (s : State) (I : Iss) (w : Wait) : State := s.modSplit I.gid I.sid (·.waitsFor w)

/-- The word waits and its split frees the lane; it keeps its active mask (R30). -/
def State.suspend (s : State) (I : Iss) (w : Wait) : State :=
  s.modSplit I.gid I.sid fun p => { p.waitsFor w with st := .suspended, act := some I.act }

/-- A producer is still to fill a register. -/
def Group.produced (g : Group) (r : Nat) : Bool := g.prods.any fun p => p.dsts.any fun d => d.1 == r

/-- The registers that a split's outstanding poll is to fill (R189). -/
def Split.pollRegs (p : Split) : List Nat :=
  match p.wait with
  | .poll d _ n _ _ _ => (List.range (n / 4)).map (d + ·)
  | _ => []

/-- The registers among some that an outstanding load or other producer of the group is still to fill, a poll of one of its splits
among them (R33, R189). -/
def Group.due (g : Group) (rs : List Nat) : List Nat :=
  rs.filter fun r => g.produced r || g.splits.any fun p => p.pollRegs.contains r

/-- The word waits for empty registers. While producers are to fill them the split holds its lane (R30, R34); a register
that `fe.empty` has emptied may be filled by a sibling on the same lane, which R48, R149 and R150 promise to run, so the
split then frees the lane, as it does for a register that a sibling's poll is to fill (log entry 64). In the middle of a macro call it
never does (R224). -/
def State.awaitRegs (s : State) (I : Iss) (rs : List Nat) (fe : Bool) : State :=
  if I.S.call.isSome || (rs.filter fun r => !(I.G.reg r).full).all I.G.produced then s.stall I (.regs rs fe)
  else s.modSplit I.gid I.sid fun p => { p.waitsFor (.regs rs fe) with st := .suspended }

/-- The split that holds a lane. -/
def State.holder (s : State) (lane : Nat) : Option (Nat × Nat) :=
  s.groups.findSome? fun (gid, g) =>
    if g.lane = lane then (g.splits.find? fun p => p.st == .issuing).map fun p => (gid, p.idx) else none

/-- Sets the full bits of some registers, whose values and tags stay (R149, R189). -/
def Group.setFull (g : Group) (rs : List Nat) (full : Bool) : Group :=
  rs.foldl (fun g n => g.putReg n { g.reg n with full := full }) g

/-- A poll ends before its last thread is done: its d is full again, with the values it holds (R189). -/
def Group.endPoll (g : Group) (p : Split) : Group := g.setFull p.pollRegs true

/-! ### Held words and harvest (R43 to R45) -/

/-- The lines that a group holds (R44). -/
def Group.heldLines (g : Group) : List Nat :=
  g.held.foldl (fun acc h => if acc.contains (lineOf h.pa) then acc else acc ++ [lineOf h.pa]) []

/-- Holds a word stored by a thread (R44). -/
def Group.hold (g : Group) (h : Held) : Group :=
  { g with held := h :: g.held.filter fun x => !(x.pa == h.pa && x.thread == h.thread) }

/-- The newest held word of a group at an address (R44, R170, R360). -/
def Group.heldWord (g : Group) (pa : Nat) : Option Word := (g.held.find? fun h => h.pa == pa).map (·.val)

/-- Discards the held words of a mask's threads (R45). -/
def Group.discard (g : Group) (m : Mask) : Group := { g with held := g.held.filter fun h => !m.getLsbD h.thread }

/-! ### Records and consumption -/

/-- What a fault raised against a word says in its record. -/
structure Flt where
  code : Nat
  src : Nat := 0
  tmask : Mask
  va : Option Nat := none
  pa : Option Nat := none
  detail : Nat := 0
  deriving DecidableEq, Repr

/-- The detail of a fault inside a macro call names the routine and the operation (R225). -/
def Split.detail (p : Split) (f : Flt) : Nat :=
  match p.call with
  | some c => if f.code = codeMacroInvalid then f.detail else 2 ^ 47 + c.routine * 2 ^ 41 + c.op * 2 ^ 36 + f.detail % 2 ^ 36
  | none => f.detail

/-- The record of a fault or consumption of a word, with skid 0 (R97). -/
def State.recOf (s : State) (I : Iss) (f : Flt) (cls : Nat) : ErrRec where
  queue := s.queueOf I.G
  ctx := none
  seq := 0
  src := f.src
  cls := cls
  code := f.code
  pc := some I.S.pc
  va := f.va
  pa := f.pa
  tmask := f.tmask
  loc := I.G.loc I.sid
  skid := 0
  time := 0
  detail := I.S.detail f
  die := I.die
  group := some I.agid

/-- Writes the record of a fault whose class is below 4; the word goes on (R462). -/
def State.note (s : State) (I : Iss) (f : Flt) (cls : Nat) : State := s.record (s.recOf I f cls)

/-- The defined value of R335 for register i of a destination of n registers. -/
def definedPart (ty n i : Nat) : Word :=
  match ty with
  | 8 => 0x7FC00000#32
  | 9 => if n = 1 ∨ i % 2 = 1 then 0x7FF80000#32 else 0#32
  | 10 => 0x7E007E00#32
  | 11 => 0x7FC07FC0#32
  | 12 => 0x7F7F7F7F#32
  | 13 => 0x7E7E7E7E#32
  | _ => 0#32

/-- Registers take undefined values in the threads of a mask, tagged general; where told so they become full, else their
bits stay as they are (R35, R149, R339). -/
def State.freeRegs (s : State) (gid : Nat) (rs : List Nat) (m : Mask) (fill : Bool) : State :=
  rs.foldl (fun s n =>
    { s with freeCtr := s.freeCtr + 32 }.modGroup gid fun g =>
      (g.splitPair n).putReg n
        { vals := (s.freeVals m (g.reg n).vals).1, full := fill || (g.reg n).full, tag := .general }) s

/-- A producer that delivers nothing to some threads. -/
def Producer.without (p : Producer) (m : Mask) : Producer :=
  { p with
    mask := p.mask &&& ~~~m
    region := p.region &&& ~~~m
    consumed := (p.consumed.map fun (c : Consume) => { c with mask := c.mask &&& ~~~m }).filter fun c => c.mask != 0#32
    ext := (p.ext.map fun x => (x.1, x.2.1, x.2.2 &&& ~~~m)).filter fun x => x.2.2 != 0#32
    reads := (p.reads.map fun (r : LateRead) => { r with mask := r.mask &&& ~~~m }).filter fun r => r.mask != 0#32
    pan := p.pan.filter fun r => !m.getLsbD r.thread
    pred := p.pred.map fun x => (x.1, x.2 &&& ~~~m) }

/-- Cancels a producer in some of its threads, where its destinations are left undefined; they become full once it delivers to
no thread any more (R35). The predicate of a `cas` is undefined there as well. -/
def State.cancelIn (s : State) (gid : Nat) (p : Producer) (m : Mask) : State :=
  let gone := p.mask &&& ~~~m == 0#32
  let s := s.modGroup gid fun g =>
    { g with prods := if gone then g.prods.filter fun x => x.id != p.id
                      else g.prods.map fun x => if x.id == p.id then x.without m else x }
  let s := s.freeRegs gid (p.dsts.map (·.1)) m gone
  match p.pred with
  | none => s
  | some (q, _) =>
    let (v, s) := s.free
    s.modGroup gid fun g => g.setPred q m fun t => v.getLsbD t

/-- Cancels the producers of a group in the threads that a choice gives for each (R35, R45). -/
def State.cancel (s : State) (gid : Nat) (pick : Producer → Mask) : State :=
  match mapFind s.groups gid with
  | none => s
  | some g => g.prods.foldl (fun s p => if pick p &&& p.mask = 0#32 then s else s.cancelIn gid p (pick p &&& p.mask)) s

/-- The restart point of a split: the `txb` word of a transaction open in one of its threads, else its region start
(R43, R254). -/
def Group.restartOf (g : Group) (p : Split) : DWord × Word × Word :=
  match (threadsOf p.mask).findSome? fun t => mapFind g.txs t with
  | some x => (x.txb, x.mode, x.fmt)
  | none => (p.rstart, p.rmode, p.rfmt)

/-- Aborts a split's region: held words discarded, its producers of the region cancelled, its transactions dropped, and
the split back at its restart point with the mode and format recorded there (R45, R128, R254). A `bar.sync` whose arrival
is counted stays counted (R43). -/
def State.abortRegion (s : State) (gid sid : Nat) : State :=
  match (mapFind s.groups gid).bind fun g => (g.split sid).map fun p => (g, p) with
  | none => s
  | some (g, p) =>
    let (pc, mode, fmt) := g.restartOf p
    let s := s.cancel gid fun x => x.region &&& p.mask
    s.modGroup gid fun g =>
      { (g.endPoll p).discard p.mask with txs := mapDrop g.txs fun t => p.mask.getLsbD t }.modSplit sid fun p =>
        { { p with pc := pc, mode := mode, fmt := fmt }.endRun with counted := p.counted && pc == p.pc }

/-- A deferred path at its restart point: the `txb` word of a transaction open in one of its threads, else its region start
(R43, R254). -/
def Group.pathBack (g : Group) : StackEnt → StackEnt
  | .deferred o _ m _ _ pm pf rs rm rf =>
    match (threadsOf m).findSome? fun t => mapFind g.txs t with
    | some x => .deferred o x.txb m x.mode x.fmt pm pf rs rm rf
    | none => .deferred o rs m rm rf pm pf rs rm rf
  | e => e

/-- The threads of a deferred path. -/
def StackEnt.pathMask : StackEnt → Mask
  | .deferred _ _ m .. => m
  | _ => 0#32

/-- Aborts the regions of the deferred paths of a group that have threads of a mask (R38, R45). -/
def State.abortPaths (s : State) (gid : Nat) (m : Mask) : State :=
  match mapFind s.groups gid with
  | none => s
  | some g =>
    let hit (e : StackEnt) : Bool := e.pathMask &&& m != 0#32
    let all := (g.stack.filter hit).foldl (fun acc e => acc ||| e.pathMask) 0#32
    if all = 0#32 then s
    else
      let s := s.cancel gid fun x => x.region &&& all
      s.modGroup gid fun g =>
        { g.discard all with
          txs := mapDrop g.txs fun t => all.getLsbD t
          stack := g.stack.map fun e => if hit e then g.pathBack e else e }

/-- An unwind of a group to its innermost containment level (R339); full bits stay as they are (R149). The record takes class 3, and src 6
unless a poisoned table entry was met (7, R355) or a matrix operation's operand (4, R306), and is copied to
UREC (R340). -/
def State.unwind (s : State) (gid : Nat) (r : ErrRec) (dirtied : List Nat) (src : Nat := if r.src = 7 then 7 else 6) : State :=
  match mapFind s.groups gid with
  | none => s
  | some g =>
    match g.cont.getLast? with
    | none => s
    | some l =>
      let (r, s) := s.stampRec { r with cls := 3, src := src }
      let s := s.cancel gid fun _ => fullMask
      let s := s.freeRegs gid dirtied fullMask false
      let s := s.modGroup gid fun g =>
        { (g.splits.foldl Group.endPoll g) with
          held := []
          txs := []
          stack := []
          cont := g.cont.dropLast
          urec := r.urec
          splits := [{ idx := 0, st := .ready, pc := l.handler, mask := ~~~g.exited, mode := l.mode, fmt := l.fmt,
                       rstart := l.handler, rmode := l.mode, rfmt := l.fmt, run := 0, wait := .none, waited := 0,
                       counted := false, released := false, passed := 0, call := none }] }
      s.postRec r

/-- A consumption by a group: outside containment its records of class 2, inside an unwind (R334). True where the group
unwound. The word that consumes had the group's count of executed words at n. -/
def State.consumeAll (s : State) (gid : Nat) (r : ErrRec) (cs : List Consume) (dirtied : List Nat) : State × Bool :=
  match mapFind s.groups gid, cs with
  | some g, c :: _ =>
    let rec_ (c : Consume) := { r with code := c.code, src := c.src, tmask := c.mask, va := c.va, pa := c.pa, detail := c.detail }
    if g.depth = 0 then (cs.foldl (fun s c => s.record { rec_ c with cls := 2 }) s, false)
    else (s.unwind gid (rec_ c) dirtied, true)
  | _, _ => (s, false)

/-! ### Producers (R33, R335, R336) -/

/-- Adds a consumption to those of a word: one for each line, code and source, with the address of the lowest thread (R335). -/
def addConsume (c : Consume) (l : List Consume) : List Consume :=
  let same (x : Consume) : Bool := x.code == c.code && x.src == c.src && x.pa == c.pa && x.detail == c.detail
  if l.any same then
    l.map fun x => if same x then
      { x with mask := x.mask ||| c.mask, va := if lowest c.mask < lowest x.mask then c.va else x.va } else x
  else l ++ [c]

/-- A producer with values put into its destinations in some threads. -/
def Producer.setParts (p : Producer) (m : Mask) (f : Nat → Option Word) : Producer :=
  { p with dsts := (List.range p.dsts.length).map fun i =>
      let d := p.dsts.getD i (0, [])
      match f i with
      | some v => (d.1, mergeVals m (fun _ => v) d.2)
      | none => d }

/-- What a load takes of a word, as its destination receives it (R170). -/
def LateRead.value (r : LateRead) (w : Word) : Word :=
  let x := w.toNat / 2 ^ (8 * r.off) % 2 ^ (8 * r.n)
  BitVec.ofInt 32 (elemInt r.signed (8 * r.n) x)

/-- A producer whose word has been read: its value goes into the destination, or the mark that it carries is consumed and
the threads take the defined value (R170, R335). -/
def Producer.take (p : Producer) (r : LateRead) (w : Word) (m : Mark) (beyond : Bool) : Producer :=
  if m = .clean then
    { p.setParts r.mask (fun i => if i = r.part then some (r.value w) else none) with
      reads := p.reads.erase r
      ext := if beyond && (isFar r.pa || isHostMem r.pa) then p.ext ++ [(r.va, r.pa, r.mask)] else p.ext }
  else
    { p.setParts r.mask (fun i => some (definedPart p.ty p.dsts.length i)) with
      reads := p.reads.filter fun x => x.mask &&& r.mask == 0#32
      consumed := addConsume { code := m.code, src := m.src 2, mask := r.mask, va := some r.va, pa := some (r.pa / 64 * 64),
                               detail := 0 } p.consumed }

/-- A group's loads read now the words among those they still owe that meet a condition (R197, R205). -/
def State.readNow (s : State) (gid : Nat) (which : Producer → LateRead → Bool) : State :=
  match mapFind s.groups gid with
  | none => s
  | some g =>
    (g.prods.flatMap fun p => (p.reads.filter (which p)).map fun r => (p.id, r)).foldl (fun s (id, r) =>
      let beyond := s.asksPort g.core r.pa r.policy
      let (w, m, s) := s.coreRead g.core r.pa r.policy
      let s := s.saw gid (0, r.pa) w
      s.modGroup gid fun g =>
        { g with prods := g.prods.map fun p => if p.id == id && p.reads.contains r then p.take r w m beyond else p }) s

/-- The pan words of a row that is full again are read by the producers that wait for it (R305). -/
def Producer.takePan (p : Producer) (r : PanRead) (v : Nat) (m : Mark) : Producer :=
  let one : Mask := 1#32 <<< r.thread
  let p := { p with pan := p.pan.erase r }
  if m = .clean then p.setParts one fun i => some (BitVec.ofNat 32 (v / 2 ^ (32 * i)))
  else
    { p.setParts one (fun i => some (definedPart p.ty (r.n / 4) i)) with
      consumed := addConsume { code := m.code, src := 4, mask := one, va := none, pa := none, detail := 0 } p.consumed }

/-- Every producer reads the pan rows that it waits for and that no copy owes a fill any more (R305). -/
def State.readRows (s : State) : State :=
  s.groups.foldl (fun s (gid, g) => g.prods.foldl (fun s p =>
    (p.pan.filter fun r => !s.panBusy r.core r.row).foldl (fun s r =>
      let (v, m, s) := s.panTake r.hazard r.core r.row r.col r.n
      s.modGroup gid fun g => { g with prods := g.prods.map fun x => if x.id == p.id then x.takePan r v m else x }) s) s) s

/-- The returned values of a producer are written and its destination becomes full; a consumption that its data carries
is recorded, or unwinds the group (R33, R334). True where the group unwound. A pan read waits for its rows (R305). -/
def State.fill (s : State) (gid id : Nat) : State × Bool :=
  let s := s.readNow gid fun p _ => p.id == id
  match (mapFind s.groups gid).bind fun g => (g.prods.find? fun p => p.id == id).map fun p => (g, p) with
  | none => (s, false)
  | some (g, p) =>
    if p.pan ≠ [] then (s, false)
    else
      let r : ErrRec :=
        { queue := s.queueOf g, ctx := none, seq := 0, src := 2, cls := 2, code := codePoisonConsumed, pc := some p.pc,
          va := none, pa := none, tmask := p.mask, loc := g.loc p.split, skid := g.skidFrom p.at_, time := 0, detail := 0,
          die := g.die, group := some gid }
      let (s, gone) := s.consumeAll gid r p.consumed (p.dsts.map (·.1) ++ g.writtenSince p.at_)
      if gone then (s, true)
      else
        (s.modGroup gid fun g =>
          let g := { g with prods := g.prods.filter fun x => x.id != id }
          let g := match p.pred with
            | some (q, m) => g.setPred q p.mask fun t => m.getLsbD t
            | none => g
          p.dsts.foldl (fun g (n, v) =>
            let old := g.reg n
            g.putReg n { vals := mergeVals p.mask (fun t => v.getD t 0#32) old.vals, full := true,
                         tag := if p.mask = fullMask then p.tag else .general }) g, false)

/-- Every producer of a group fills; stops where one unwinds the group (R336, R417). -/
def State.settle (s : State) (gid : Nat) : State × Bool :=
  match mapFind s.groups gid with
  | none => (s, false)
  | some g =>
    g.prods.foldl (fun (acc : State × Bool) p => if acc.2 then acc else acc.1.fill gid p.id) (s, false)

/-- What a producer owes when it issues, beside its destinations: the consumptions and outside lines of what it has read, what
it has not read yet, a predicate, and the words the group had executed. -/
structure Owed where
  consumed : List Consume := []
  ext : List (Nat × Nat × Mask) := []
  reads : List LateRead := []
  pan : List PanRead := []
  pred : Option (Nat × Mask) := none
  deriving Repr

/-- A producer issues: its destinations become empty, to take their values when it fills (R33). One that is a boundary has
taken effect and belongs to no region (R43). -/
def State.produce (s : State) (I : Iss) (dsts : List (Nat × Vals)) (ty : Nat) (tag : Tag) (o : Owed)
    (inRegion : Bool := true) : State :=
  s.modGroup I.gid fun g =>
    let p : Producer :=
      { id := g.nextProd, split := I.sid, dsts := dsts, mask := I.act, region := if inRegion then I.act else 0#32,
        pc := I.S.pc, ty := ty, consumed := o.consumed, at_ := g.executed, tag := tag, ext := o.ext,
        reads := o.reads, pan := o.pan, pred := o.pred }
    { (dsts.foldl (fun g (n, _) => g.note n I.act) g).markEmpty (dsts.map (·.1)) with
      prods := g.prods ++ [p], nextProd := g.nextProd + 1 }

/-! ### Harvest (R43 to R45) -/

/-- Which of some held words are the first of their line: a dropped sector counts once (R374). -/
def firstsHeld : List Held → List Nat → List (Held × Bool)
  | [], _ => []
  | h :: r, seen => (h, !seen.contains (lineOf h.pa)) :: firstsHeld r (lineOf h.pa :: seen)

/-- Sends the held words of a group's threads of a mask, oldest first, as ordinary words of the core (R43, R186). A load of the
group that is older than a store to the same word reads before it (R173, R205). -/
def State.harvest (s : State) (gid : Nat) (m : Mask) : State :=
  match mapFind s.groups gid with
  | none => s
  | some g =>
    let go := g.held.reverse.filter fun h => m.getLsbD h.thread
    let s := s.readNow gid fun _ r => go.any fun h => h.pa == r.pa
    let s := s.modGroup gid fun g => { g with held := g.held.filter fun h => !m.getLsbD h.thread }
    (firstsHeld go []).foldl (fun s (h, n) =>
      (s.coreWrite g.core h.pa h.policy h.val h.info n).noteStore gid (0, h.pa) h.val 0) s

/-! ### Region boundaries (R43, R128, R336, R421) -/

/-- What a boundary word does first: inside containment it waits for error status, which may unwind the group; the loads
that its split's threads issued before it read what they still owe, unless the word orders nothing (R197, R201: `region`); it
harvests what is not held for an open transaction (R253; `txe` harvests nothing), and its own address is the restart
point until it takes effect. True where the group unwound. Trap mode has no regions. -/
def State.boundary (s : State) (I : Iss) (send : Bool := true) (orders : Bool := true) : State × Bool :=
  if I.trapped then (s, false)
  else
    let (s, gone) := if I.G.depth = 0 then (s, false) else s.settle I.gid
    if gone then (s, true)
    else if I.G.depth ≠ 0 ∧ (I.now s).prods ≠ [] then (s.stall I .status, true)
    else
      let s := if orders then s.readNow I.gid fun p _ => p.mask &&& I.S.mask != 0#32 else s
      let s := if send then s.harvest I.gid (I.S.mask &&& ~~~maskOf fun t => (mapFind I.G.txs t).isSome) else s
      (s.modGroup I.gid fun g =>
        { g.modSplit I.sid fun p => { p with rstart := p.pc, rmode := p.mode, rfmt := p.fmt } with
          prods := g.prods.map fun p => { p with region := p.region &&& ~~~I.S.mask } }, false)

/-- A boundary word takes effect: the word after it is the region start (R43). -/
def State.newRegion (s : State) (I : Iss) (e : Bool) : State :=
  s.modGroup I.gid fun g =>
    let g := g.modSplit I.sid fun p =>
      if I.trapped then p else { p with rstart := p.pc + 4, rmode := p.mode, rfmt := p.fmt }
    g.advance I.sid e

/-- A boundary word with its effect. One that resumes after its wait has been at its boundary before (R30). -/
def State.atBoundary (s : State) (I : Iss) (body : State → State) : State :=
  if I.S.released || I.S.counted then body s
  else
    let (s, gone) := s.boundary I
    if gone then s else body s

/-! ### Page-wait (R45, R358, R369, R421) -/

/-- The pages that a split's outstanding poll reads (R189). -/
def Split.pollPages (p : Split) : List Nat :=
  match p.wait with
  | .poll _ _ _ left _ _ => left.map fun x => pageOf x.2.1
  | _ => []

/-- A split or an engine access of a context waits on a page, wherever its workgroup stands (R358). -/
def State.waitsOnPage (s : State) (slot va : Nat) : Bool :=
  let held (g : Group) : Bool := g.ctx == slot && g.splits.any fun p =>
    (p.st == .pageWait && p.wait.pagesOf.contains va) || (g.trap.isSome && p.pollPages.contains va)
  (s.groups.any fun x => held x.2) || (s.saved.any fun x => x.2.groups.any fun y => held y.2) ||
    s.copies.any fun c => c.ctx == slot && c.waits.contains va

/-- A request for a page is pending: it has been written, no walk for the page has reached a present leaf since, and
something still waits on the page (R358). -/
def State.requested (s : State) (slot va : Nat) : Bool := (s.ctx slot).requests.contains va && s.waitsOnPage slot va

/-- Writes a page request for each absent page that has none pending (R358). -/
def State.requestPages (s : State) (slot : Nat) (r : ErrRec) (pages : List (Nat × Mask)) : State :=
  pages.foldl (fun s (va, m) =>
    if s.requested slot va then s
    else
      let s := s.modCtx slot fun c => { c with requests := va :: c.requests.filter (· != va) }
      s.record { r with queue := { slot := some slot, va := (s.ctx slot).prq }, src := 7, cls := 0,
                        code := codePageAbsent, va := some va, pa := none, tmask := m, detail := 0 }) s

/-- The word meets absent or migrating pages: its split's region aborts and the split waits, in trap mode at its word
(R45, R369, R421). A poll of trap mode, which aborts nothing, goes on polling with the threads that it has left (R189, R421). -/
def State.pageWait (s : State) (I : Iss) (absent : List (Nat × Mask)) (moving : List Nat) : State :=
  let s := s.requestPages I.G.ctx (s.recOf I { code := codePageAbsent, tmask := I.act } 0) absent
  if I.trapped && I.S.pollRegs != [] then s
  else
    let s := if I.trapped then s else s.abortRegion I.gid I.sid
    s.modSplit I.gid I.sid fun p =>
      { p with st := .pageWait, word := none, released := false, wait := match absent with
        | [] => .moving moving
        | _ => .pages (absent.map (·.1) ++ moving) }

/-! ### Trap mode (R419, R420) -/

/-- The entry address of a routine: TVEC, SVEC or RVEC by its cause (R419). -/
def trapVector (c : Ctx) : TrapCause → DWord
  | .fault _ => c.tvec
  | .save => c.svec
  | .restore _ => c.rvec

/-- The register bank of a trap slot on entry (R419). -/
def trapBank (cause : TrapCause) : Map Nat Reg :=
  let put (n : Nat) (v : Word) : Nat × Reg := (n, { vals := sameVals v, full := true, tag := .uniform })
  let pair (n v : Nat) : List (Nat × Reg) := [put n (BitVec.ofNat 32 v), put (n + 1) (BitVec.ofNat 32 (v / 2 ^ 32))]
  match cause with
  | .fault r =>
    let n := if r.code = codeTrapInstr then r.detail % 256 else 0
    put 1 (BitVec.ofNat 32 (r.code % 256 + n * 2 ^ 16)) :: pair 2 (orOnes r.va) ++
      pair 4 (orOnes (r.pc.map BitVec.toNat)) ++ [put 6 r.tmask, put 7 (BitVec.ofNat 32 r.detail)]
  | .save => [put 1 0x100#32]
  | .restore h => put 1 0x200#32 :: pair 2 h.toNat

/-- The routine that acts in a group's name, as it starts (R419). -/
def trapGroup (c : Ctx) (gid sid : Nat) (g : Group) (cause : TrapCause) : Group where
  wg := g.wg
  ctx := g.ctx
  idx := g.idx
  lane := g.lane
  slot := g.slot
  alloc := 32
  cap := 32
  regs := trapBank cause
  preds := []
  splits := [{ idx := 0, st := .ready, pc := trapVector c cause, mask := fullMask, mode := 0#32, fmt := 0x8A00#32,
               rstart := trapVector c cause, rmode := 0#32, rfmt := 0x8A00#32, run := 0, wait := .none, waited := 0,
               counted := false, released := false, passed := 0, call := none }]
  stack := []
  cont := []
  urec := g.urec
  pair := false
  pres := g.pres
  shadowLane := none
  exited := 0#32
  held := []
  txs := []
  txReg := []
  prods := []
  nextProd := 0
  executed := 0
  nopre := none
  tokens := 0
  nb := 0#32
  forming := []
  unretired := []
  stamps := []
  trap := some { of_ := gid, split := sid, cause := cause, aclk := 0, resting := false }
  stop := .none

/-- A group needs the trap slot of its lane: it enters trap mode, or waits stopped until the slot frees (R419). -/
def State.enterTrap (s : State) (gid sid : Nat) (cause : TrapCause) : State :=
  match mapFind s.groups gid with
  | none => s
  | some g =>
    if (s.lane g.lane).trap.isSome then s.modGroup gid fun g => { g with stop := .wantsTrap sid cause }
    else
      let (n, s) := s.uid
      let s := { s with groups := mapSet s.groups n (trapGroup (s.ctx g.ctx) gid sid g cause) }
      let s := s.modGroup gid fun g => { g with stop := .inTrap n }
      s.modLane g.lane fun l => { l with trap := some n }

/-- The trap slot of a lane frees: the first group in slot order that waits for it enters (R419). -/
def State.freeTrapSlot (s : State) (lane : Nat) : State :=
  let s := s.modLane lane fun l => { l with trap := none }
  let waiting := s.groups.filterMap fun (gid, g) => match g.stop with
    | .wantsTrap sid cause => if g.lane = lane then some (g.slot, gid, sid, cause) else none
    | _ => none
  match waiting.foldl (fun (best : Option (Nat × Nat × Nat × TrapCause)) x => match best with
      | some b => if x.1 < b.1 then some x else some b
      | none => some x) none with
  | some (_, gid, sid, cause) => s.enterTrap gid sid cause
  | none => s

/-! ### The end of a context (R17, R392) -/

/-- A record of class 4 that names an accepted command which a context reset has overtaken (R17). The spec gives no code
for it, so the code is a free value within the codes that may be written (R96). -/
def State.lostCommand (s : State) (src : Nat) (pc : Option DWord) (loc : Word) (q : QueueRef) : State :=
  let (v, s) := s.free
  s.record { queue := q, ctx := none, seq := 0, src := src, cls := 4, code := 1 + v.toNat % 31, pc := pc, va := none,
             pa := none, tmask := 0#32, loc := loc, skid := 0, time := 0, detail := 0, die := locDie loc }

/-- A barrier belongs to a workgroup or grid of a context. -/
def State.barOfCtx (s : State) (slot : Nat) : BarKey → Bool
  | .wg w _ => (s.wg w).any fun x => x.ctx == slot
  | .pair w => (s.wg w).any fun x => x.ctx == slot
  | .slice g _ => (mapFind s.grids g).any fun x => x.ctx == slot

/-- The groups of a workgroup as a context's reset stops them. -/
def State.stopped (s : State) (k : Nat) (w : Workgroup) : List (Nat × Group) :=
  s.groups.filterMap fun x =>
    if x.2.wg == k && x.2.trap.isNone && w.groups.contains x.1 then some (x.1, { x.2 with prods := [], stop := .none }) else none

/-- A context's reset: every workgroup stops without a save, accepted commands go on without delivering what they owe
and are recorded, grids are dropped without a signal, and the slot is resetting (R17, R392). The loads under way into registers that an
accepted matrix operation is to read fill first, and the groups' registers and tokens stay for it. -/
def State.resetContext (s : State) (slot : Nat) : State :=
  if (s.ctx slot).st ≠ .live ∧ (s.ctx slot).st ≠ .held then s
  else
    let mine (g : Group) : Bool := g.ctx == slot
    let lanes := (s.groups.filter fun x => mine x.2 && x.2.trap.isSome).map fun x => x.2.lane
    let s := (s.groups.filter fun x => mine x.2 && s.mxops.any fun o => !o.done && s.takesPart x.1 o).foldl
      (fun s x => (s.settle x.1).1) s
    let s := (s.copies.filter fun c => c.ctx == slot).foldl (fun s c => s.lostCommand 3 (some c.pc) c.loc c.queue) s
    let s := (s.mxops.filter fun c => c.ctx == slot && !c.done).foldl
      (fun s c => s.lostCommand 4 (some c.pc) c.loc c.queue) s
    let s := (s.migr.filter fun c => c.2.ctx == slot).foldl (fun s c => s.lostCommand 8 c.2.pc c.2.loc c.2.queue) s
    let s := { s with
      bars := s.bars.filter fun x => !s.barOfCtx slot x.1
      copies := s.copies.map fun (c : CopyCmd) => if c.ctx == slot then { c with delivers := false, bar := none } else c
      migr := s.migr.map fun (x : Nat × MigrCmd) =>
        if x.2.ctx == slot then (x.1, { x.2 with delivers := false, bar := none }) else x
      latches := s.latches.filter fun x => !((mapFind s.groups x.2.group).any mine)
      groups := s.groups.filter fun x => !mine x.2
      wgs := mapAll s.wgs fun k w =>
        if w.ctx == slot then { w with groups := [], exited := true, preempting := none, gone := w.gone ++ s.stopped k w } else w
      saved := s.saved.filter fun x => x.2.wg.ctx != slot
      grids := mapAll s.grids fun _ d =>
        match d.st with
        | .retired => d
        | .rejected _ => d
        | _ => if d.ctx == slot then { d with st := .dropped } else d }
    let s := s.modCtx slot fun c => { c with st := .resetting, requests := [], pre := false }
    lanes.foldl (fun s l => s.freeTrapSlot l) s

/-! ### Taking a fault (R420, R421, R462) -/

/-- A record of class 4: it is written, and the context resets (R392). -/
def State.fatal (s : State) (slot : Nat) (r : ErrRec) : State := (s.record { r with cls := 4 }).resetContext slot

/-- A fault of a split of a group enters its routine; where a fault of another split of the group has been raised before, it waits for
that one's routine to end (R419, R420). -/
def State.faultTrap (s : State) (gid sid : Nat) (r : ErrRec) : State :=
  match (mapFind s.groups gid).map Group.stop with
  | some (Stop.inTrap _) => s.modGroup gid fun g => { g with later := g.later ++ [(sid, .fault r)] }
  | some (Stop.wantsTrap ..) => s.modGroup gid fun g => { g with later := g.later ++ [(sid, .fault r)] }
  | _ => s.enterTrap gid sid (.fault r)

/-- Raises a fault against the word. In trap mode it ends the context; with a fault routine installed its split stops at
the word and the routine takes over; otherwise the class-4 record is written and the context ends (R95, R420, R421). -/
def State.raise (s : State) (I : Iss) (f : Flt) : State :=
  let r := s.recOf I f 4
  if I.trapped ∨ (s.ctx I.G.ctx).tvec = 0#64 then s.fatal I.G.ctx r
  else
    let s := (s.modGroup I.gid fun g => g.endPoll ((g.split I.sid).getD I.S)).modSplit I.gid I.sid fun p =>
      { p with st := .faulted, wait := .none, call := none, released := false, word := none, act := none }
    s.faultTrap I.gid I.sid r

/-- A fault of the word with the active mask as its threads. -/
def State.raiseCode (s : State) (I : Iss) (code : Nat) : State := s.raise I { code := code, tmask := I.act }

/-! ### The checks of a word (R90) -/

/-- What a word needs before it executes: whether its reserved fields and its type are accepted, the registers it names,
its sources with their k bits, its destinations and whether it is a producer into them, and, where U asserts it, whether its
tags allow that (R34, R74, R76, R90); and the source and detail of its records where its chapter gives them (R331). -/
structure Need where
  fieldsOk : Bool := true
  tyOk : Bool := true
  regs : List Nat := []
  srcs : List (List Nat × Bool) := []
  dsts : List Nat := []
  producer : Bool := false
  uOk : Bool := true
  mask : Mask
  src : Nat := 0
  detail : Nat := 0
  deriving Repr

/-- What the checks answer: the fault of the first that fails, a wait for empty registers, nothing to do, or go. -/
inductive Gate where
  | fault (code : Nat)
  | wait (rs : List Nat)
  | skip
  | go
  deriving DecidableEq, Repr

/-- The checks 4 to 8 of R90 that concern registers, with the empty active mask of R81 between 6 and 7. A new producer waits
for one that is still to fill its destination, and may fill a register that `fe.empty` emptied (R34, R149). -/
def Need.gate (n : Need) (g : Group) : Gate :=
  let empty (r : Nat) : Bool := !(g.reg r).full
  let inAll := n.srcs.flatMap (·.1) ++ (if n.producer then g.due n.dsts else n.dsts)
  if !n.fieldsOk then .fault codeReservedField
  else if !n.tyOk then .fault codeTypeUnsupported
  else if n.regs.any fun r => decide (g.alloc ≤ r) then .fault codeRegBound
  else if n.mask = 0#32 then .skip
  else if n.srcs.any fun x => x.2 && x.1.any empty then .fault codeEmptyRead
  else if inAll.any empty then .wait (inAll.filter empty)
  else if !n.uOk then .fault codeUniformAssert
  else .go

/-- A transaction is open in a thread of a mask. -/
def Iss.inTx (I : Iss) (m : Mask) : Bool := (threadsOf m).any fun t => (mapFind I.G.txs t).isSome

/-- What the checks of a word answer: a word that resumes after its wait, or in it, has passed them (R30, R43). -/
def Iss.gate (I : Iss) (n : Need) : Gate :=
  if I.S.released || I.S.counted then (if n.mask = 0#32 then .skip else .go) else n.gate I.G

/-- The fault of a failed check: UNIFORM-ASSERT is the scalarisation unit's (R99, R155). -/
def Need.flt (n : Need) (code : Nat) : Flt :=
  { code := code, src := if n.src = 0 ∧ code = codeUniformAssert then 1 else n.src, tmask := n.mask, detail := n.detail }

/-- Executes a region boundary after its checks. With an empty active mask only the boundary applies (R81). -/
def State.boundaryOnly (s : State) (I : Iss) (n : Need) (e : Bool) (body : State → State) : State :=
  match I.gate n with
  | .fault c => s.raise I (n.flt c)
  | .wait rs => s.awaitRegs I rs false
  | .skip => s.atBoundary I fun s => s.newRegion I e
  | .go => body s

/-- A region boundary that a transaction open in an active thread forbids (R251). -/
def State.boundaryWord (s : State) (I : Iss) (n : Need) (e : Bool) (body : State → State) : State :=
  s.boundaryOnly I n e fun s =>
    if I.inTx n.mask then s.raise I (n.flt codeTxForbidden) else body s

/-- Executes a word after its checks: a fault is raised, an empty register holds the word, an empty active mask makes the
word do nothing (R34, R81, R90). -/
def State.word (s : State) (I : Iss) (n : Need) (e : Bool) (body : State → State) : State :=
  match I.gate n with
  | .fault c => s.raise I (n.flt c)
  | .wait rs => s.awaitRegs I rs false
  | .skip => s.advance I e
  | .go => body s

end Sys2Proof.Machine
end

