-- ==== Sys2Proof/Machine/Lane.lean ====
section
/-!
DEFINITION. What the words of the lane share: their operands (R73, R101), the needs that R90 checks, the derived shape tag
(R152), and the write of a result in the active threads (R101, R102, R153).
-/

namespace Sys2Proof.Machine

/-- A register operand: its number, how many registers it names, and its k bit (R73, R74). -/
structure Opnd where
  n : Nat
  cnt : Nat := 1
  k : Bool := false
  deriving DecidableEq, Repr

/-- The operand's number is a multiple of its registers (R73). -/
def Opnd.aligned (o : Opnd) : Bool := o.n % o.cnt == 0

/-- The registers that the operand names; based at g0 it names none that has state (R73). -/
def Opnd.regs (o : Opnd) : List Nat := regsFrom o.n o.cnt

/-- The tag of the operand (R151); a quad is judged by its four registers. -/
def Group.opTag (g : Group) (o : Opnd) : Tag :=
  if o.cnt = 1 then g.tag o.n
  else if o.cnt = 2 then g.pairTag o.n
  else
    let ts := o.regs.map g.tag
    if ts.contains .general then .general else (ts.find? fun t => t != .uniform).getD .uniform

/-- A field of seven bits as an operand of one register. -/
def one (n : BitVec 7) (k : Bool := false) : Opnd := { n := n.toNat, k := k }

/-- A field of seven bits as a data operand under a type (R101). -/
def dataOp (ty : Nat) (n : BitVec 7) (k : Bool := false) : Opnd :=
  { n := n.toNat, cnt := if isWide ty then 2 else 1, k := k }

/-- A field that holds the upper six bits of a pair's register number (R73). -/
def pairOp (n : BitVec 6) (k : Bool := false) : Opnd := { n := 2 * n.toNat, cnt := 2, k := k }

/-- A field that holds the upper five bits of a quad's register number (R73). -/
def quadOp (n : BitVec 5) (k : Bool := false) : Opnd := { n := 4 * n.toNat, cnt := 4, k := k }

/-- A tag that U = 1 accepts (R155). -/
def Tag.flat (t : Tag) : Bool := t != .general

/-- The needs of a word with destinations and sources. With u, every source is uniform or affine and the tag that R152 derives for
the destination is not general, whichever register that is (R155). -/
def Iss.need (I : Iss) (u tyOk : Bool) (dsts srcs : List Opnd) (derived : Tag) : Need where
  fieldsOk := (dsts ++ srcs).all Opnd.aligned
  tyOk := tyOk
  regs := (dsts ++ srcs).flatMap Opnd.regs
  srcs := srcs.map fun o => (o.regs, o.k)
  dsts := dsts.flatMap Opnd.regs
  uOk := !u || ((srcs.all fun o => (I.G.opTag o).flat) && derived.flat)
  mask := I.act

/-- Every source is uniform. -/
def Iss.allUniform (I : Iss) (srcs : List Opnd) : Bool := srcs.all fun o => I.G.opTag o == .uniform

/-- The tag of a result that has a shape only when every source is uniform (R152). -/
def Iss.plainTag (I : Iss) (srcs : List Opnd) : Tag := if I.allUniform srcs then .uniform else .general

/-- The stride of a tag, as a number; 0 for a uniform operand. -/
def Tag.stride : Tag → Nat
  | .affine s => s.toNat
  | .affine64 s => s.toNat
  | _ => 0

/-- An affine tag of a width, from a stride (R152). -/
def Tag.ofWidth (wide : Bool) (s : Nat) : Tag :=
  if wide then .ofStride64 (BitVec.ofNat 64 s) else .ofStride (BitVec.ofNat 32 s)

/-- The tag of a result under R152: uniform when every source is, general when a result clamps or the type keeps no
stride or a source is general, else what the instruction's row gives. Where the first and the last of these fit, the first is taken
(log entry 24). -/
def Iss.shape (I : Iss) (srcs : List Opnd) (clamped : Bool) (row : Tag) : Tag :=
  if I.allUniform srcs then .uniform
  else if clamped || decide (3 < I.S.ty) || !(srcs.all fun o => (I.G.opTag o).flat) then .general
  else row

/-- Writes a data result in the active threads and goes on (R101, R102). -/
def State.result (s : State) (I : Iss) (o : Opnd) (f : Nat → Nat) (t : Tag) (e : Bool) : State :=
  s.modGroup I.gid fun g => (g.writeData (o.cnt == 2) o.n I.act f t).advance I.sid e

/-- Writes a predicate in the active threads and goes on. -/
def State.predResult (s : State) (I : Iss) (p : Nat) (f : Nat → Bool) (e : Bool) : State :=
  s.modGroup I.gid fun g => (g.setPred p I.act f).advance I.sid e

/-- A data operand's value in a thread. -/
def Group.op (g : Group) (o : Opnd) (t : Nat) : Nat := g.data (o.cnt == 2) o.n t

/-- The value of an element of a data operand as an integer under a type. -/
def Group.opInt (g : Group) (ty : Nat) (o : Opnd) (t j : Nat) : Int :=
  elemInt (isSigned ty) (elemWidth ty) (elemOf (elemWidth ty) j (g.op o t))

/-- The type's range is that of R57; b32 holds raw bits, which have none. -/
def saturates (p : Split) : Bool := p.sat && p.ty != 14

/-- A word of integer arithmetic: each element an exact integer of the sources' elements, fitted under R104, with a row
of R152 for its tag. -/
def State.arith (s : State) (I : Iss) (u : Bool) (tys : List Nat) (d : Opnd) (srcs : List Opnd)
    (x : Nat → Nat → Int) (sat : Bool) (row : Tag) (e : Bool) : State :=
  let ty := I.S.ty
  let w := elemWidth ty
  let clamped := sat && (threadsOf I.act).any fun t => (List.range (elemCount ty)).any fun j => clamps (isSigned ty) w (x t j)
  let tag := I.shape srcs clamped row
  s.word I (I.need u (tys.contains ty) [d] srcs tag) e fun s =>
    s.result I d (fun t => joinElems w (elemCount ty) fun j => fitInt sat (isSigned ty) w (x t j)) tag e

/-- A word of one result without arithmetic: a function of each thread, uniform where every source is. -/
def State.plain (s : State) (I : Iss) (u : Bool) (tyOk : Bool) (d : Opnd) (srcs : List Opnd) (f : Nat → Nat) (tag : Tag)
    (e : Bool) : State :=
  s.word I (I.need u tyOk [d] srcs tag) e fun s => s.result I d f tag e

/-- The needs of a word of one predicate: under U its sources are uniform, since R152 derives general of affine ones (R155); so
for `vote.eq`, whose result carries no tag, too (R159, log entry 84). -/
def Iss.needPred (I : Iss) (u tyOk : Bool) (srcs : List Opnd) : Need :=
  { I.need u tyOk [] srcs .uniform with uOk := !u || I.allUniform srcs }

/-- A word of one predicate. -/
def State.compare (s : State) (I : Iss) (u : Bool) (tyOk : Bool) (p : Nat) (srcs : List Opnd) (f : Nat → Bool)
    (e : Bool) : State :=
  s.word I (I.needPred u tyOk srcs) e fun s => s.predResult I p f e

/-- Types 0 to n. -/
def upTo (n : Nat) : List Nat := List.range (n + 1)

/-- The register names a quad or pair as its own field says; the value of an immediate of 16 bits, signed (R75). -/
def simm16 (i : BitVec 16) : Int := i.toInt

end Sys2Proof.Machine
end

