-- ==== Sys2Proof/Machine/Macro.lean ====
section
/-!
DEFINITION. The macro store (R216 to R226): the check of a routine, the substitution of its parameters, and `mcall`.
-/

namespace Sys2Proof.Machine

/-- A primary opcode that a routine may hold (R219). -/
def macroPermits (op : Nat) : Bool :=
  (decide (0x01 ≤ op) && decide (op ≤ 0x24)) || (decide (0x30 ≤ op) && decide (op ≤ 0x3D)) ||
    (decide (0x42 ≤ op) && decide (op ≤ 0x45)) || op == 0x48 || op == 0x7E

/-- The operations of a slot: its words up to the first with E = 1 (R216). -/
def macroOps : List Word → List Word
  | [] => []
  | w :: r => if w.getLsbD 0 then [w] else w :: macroOps r

/-- Why a routine is invalid: the reason and the operation (R219, R226). -/
def macroBad (slot : List Word) : Option (Nat × Nat) :=
  if slot.all fun w => !w.getLsbD 0 then some (1, 31)
  else
    let ops := macroOps slot
    ((List.range ops.length).find? fun i => !macroPermits ((ops.getD i 0#32).extractLsb' 25 7).toNat).map fun i => (2, i)

/-- A slot as the command processor copies it (R218, R219). -/
def macroSlot (words : List Word) : MacroSlot where
  words := macroOps words
  bad := macroBad words

/-- What a field of an operation names. -/
inductive MacroField where
  | reg
  | pred
  | other
  deriving DecidableEq, Repr

/-- What the columns d, a and [9:3] of an operation name, by its opcode and sub code (R222 and the entries of the
permitted set). -/
def macroFields (op sub : Nat) : MacroField × MacroField × MacroField :=
  if op = 0x16 ∨ op = 0x36 then (.pred, .reg, .reg)
  else if op = 0x17 then
    if sub = 12 then (.reg, .pred, .other) else if sub = 13 then (.pred, .reg, .other) else (.reg, .reg, .other)
  else if op = 0x18 then (.pred, .pred, .pred)
  else if 0x19 ≤ op ∧ op ≤ 0x1F then (.reg, .other, .other)
  else if op = 0x23 then (.pred, .reg, .other)
  else if (0x20 ≤ op ∧ op ≤ 0x24) ∨ op = 0x37 ∨ op = 0x38 ∨ op = 0x3A ∨ op = 0x43 ∨ op = 0x45 then (.reg, .reg, .other)
  else if op = 0x42 then
    if sub < 2 then (.pred, .pred, .other)
    else if sub = 2 then (.reg, .pred, .other)
    else if sub = 3 then (.pred, .reg, .other)
    else (.reg, .other, .other)
  else if op = 0x48 then (.reg, .other, .other)
  else if op = 0x7E then (.other, .other, .other)
  else (.reg, .reg, .reg)

/-- A register number after substitution (R222). -/
def macroReg (c : Call) (n : Nat) : Nat := if n < 120 then n else if n < 124 then c.x + (n - 120) else c.y + (n - 124)

/-- A column of seven bits after substitution; none where a register number exceeds 127. -/
def macroColumn (c : Call) (f : MacroField) (v : BitVec 7) : Option (BitVec 7) :=
  match f with
  | .reg => let n := macroReg c v.toNat; if 127 < n then none else some (BitVec.ofNat 7 n)
  | .pred => some (if v.extractLsb' 0 3 = 7#3 then v.extractLsb' 3 4 ++ BitVec.ofNat 3 c.q else v)
  | .other => some v

/-- The columns of an operation after substitution, E taken as 0 (R222); none where reason 3 applies. -/
def macroSubst (c : Call) (w : Word) : Option Strip :=
  let t := Strip.split w
  let xy : BitVec 7 := t.x ++ t.y
  let (fd, fa, fb) := macroFields t.op.toNat xy.toNat
  let b : Option (BitVec 7) := match fb with
    | .pred => some (if t.x = 7#3 then BitVec.ofNat 3 c.q ++ t.y else xy)
    | f => macroColumn c f xy
  match macroColumn c fd t.d, macroColumn c fa t.a, b with
  | some d, some a, some b =>
    some { t with d := d, a := a, x := b.extractLsb' 4 3, y := b.extractLsb' 0 4, e := false }
  | _, _, _ => none

/-- The detail of a MACRO record (R226). -/
def macroDetail (reason op routine : Nat) : Nat := reason * 2 ^ 11 + op * 2 ^ 6 + routine

/-- Raises MACRO against the `mcall` word (R225, R226). -/
def State.raiseMacro (s : State) (I : Iss) (reason op routine : Nat) : State :=
  s.raise I { code := codeMacroInvalid, src := 12, tmask := I.act, detail := macroDetail reason op routine }

/-- Why an `mcall` of a routine is invalid, with the operation: it has no slot, or its slot failed the check (R219, R226). -/
def macroFault (image : List MacroSlot) (r : Nat) : Option (Nat × Nat) :=
  match image[r]? with
  | none => some (0, 0)
  | some slot => slot.bad

/-- MCALL: the operations of the routine follow one by one, each a word of the split (R221, R223, R224). With an empty active mask
no MACRO is raised, and a word that would have raised it does nothing (R81). -/
def execMcall (x y : BitVec 7) (q : BitVec 3) (r : BitVec 6) (e : Bool) (s : State) : Host.Outcome State Fault Refusal :=
  s.withIss fun I =>
    let image := ((s.gridOf I.G).map (·.image)).getD []
    let words := (image[r.toNat]?.map (·.words)).getD []
    match macroFault image r.toNat with
    | some (reason, op) => if I.act = 0#32 then s.advance I e else s.raiseMacro I reason op r.toNat
    | none =>
      s.modSplit I.gid I.sid fun p =>
        { p with call := some { routine := r.toNat, op := 0, last := words.length == 1, x := x.toNat, y := y.toNat,
                                q := q.toNat, e := e } }

end Sys2Proof.Machine
end

