-- ==== Sys2Proof/Machine/Barriers.lean ====
section
/-!
DEFINITION. Barriers (R243 to R248): which barrier a word names, arrivals, postings, landings, completion and the release
of the splits that wait.
-/

namespace Sys2Proof.Machine

/-- The workgroups of a die slice: how many it holds, for a grid of W on n dies (R23). -/
def sliceSize (nwg cs n : Nat) : Nat := if cs = 2 then 2 * ((nwg + 2 * n - 1) / (2 * n)) else (nwg + n - 1) / n

/-- The die slice of a workgroup of a grid; none unless the grid is die-co-resident (R23). -/
def Grid.sliceOf (d : Grid) (w : Nat) : Option Nat :=
  if d.dcor ∧ d.sliceDies ≠ [] then some (w / max 1 (sliceSize d.nwg d.cs d.sliceDies.length)) else none

/-- The barrier that a scope and an index name for a group; none where it is not available (R243). -/
def State.barKey (s : State) (g : Group) (scope b : Nat) : Option BarKey :=
  match s.wg g.wg, s.gridOf g with
  | some x, some d =>
    match scope with
    | 2 => if b < d.barriers then some (.wg g.wg b) else none
    | 3 =>
      if b = 0 ∧ d.cs = 2 then
        match x.peer with
        | some p => some (.pair (if x.w % 2 = 0 then g.wg else p))
        | none => none
      else none
    | 4 =>
      if b = 0 then (d.sliceOf x.w).map fun k => .slice x.grid k else none
    | _ => none
  | _, _ => none

/-- A name for a barrier that a word names and its group may not use: nothing ever arrives there (R81, R245). -/
def noBarrier (g : Group) (scope b : Nat) : BarKey := .wg g.wg (16 * scope + b)

/-- The threads of a list of groups that have not exited. -/
def liveThreads (gs : List Group) : Nat := (gs.map fun g => (threadsOf (~~~g.exited)).length).sum

/-- The threads of a workgroup that have not exited, wherever the workgroup stands. -/
def State.threadsOfWg (s : State) (w : Nat) : Nat :=
  match s.wg w, mapFind s.saved w with
  | some x, _ => liveThreads (x.groups.filterMap fun g => mapFind s.groups g)
  | none, some v => liveThreads (v.groups.map (·.2))
  | none, none => 0

/-- The workgroups of a barrier's party (R243). -/
def State.party (s : State) : BarKey → List Nat
  | .wg w _ => [w]
  | .pair w =>
    match s.wg w, mapFind s.saved w with
    | some x, _ => w :: x.peer.toList
    | none, some v => w :: v.wg.peer.toList
    | none, none => [w]
  | .slice d k =>
    let mine (x : Workgroup) : Bool := x.grid == d && ((mapFind s.grids d).bind fun y => y.sliceOf x.w) == some k
    (s.wgs.filter fun x => mine x.2).map (·.1) ++ (s.saved.filter fun x => mine x.2.wg).map (·.1)

/-- The threads of a barrier's party that have not exited: its default count (R244). -/
def State.partyThreads (s : State) (k : BarKey) : Nat := ((s.party k).map s.threadsOfWg).sum

/-- The barrier's phase completes (R246). -/
def State.barComplete (s : State) (k : BarKey) : Bool :=
  let b := s.bar k
  decide (1 ≤ b.arr) && b.landed == b.posted &&
    (match b.exp with
      | some (some c) => b.arr == c
      | some none => decide (s.partyThreads k ≤ b.arr)
      | none => false)

/-- A split that waits on a barrier is released: its word, which it keeps, completes when it next holds the lane (R30, R246). -/
def Split.releaseFrom (p : Split) (k : BarKey) : Split :=
  if p.wait == .barrier k then
    { p with released := true, wait := .none, st := if p.st == .suspended then .ready else p.st } else p

/-- Tests a barrier's completion: its phase advances, its counters start again and its waiters are released, in one step
(R246). -/
def State.testBar (s : State) (k : BarKey) : State :=
  if s.barComplete k then
    { s with
      bars := mapSet s.bars k { (s.bar k) with phase := (s.bar k).phase + 1, arr := 0, exp := none, posted := 0, landed := 0 }
      groups := mapAll s.groups fun _ g => { g with splits := g.splits.map fun p => p.releaseFrom k } }
  else s

/-- The largest explicit count of a scope (R244). -/
def maxExp (scope : Nat) : Nat := if scope = 4 then 2 ^ 32 - 1 else 4095

/-- The checks of an arrival of n threads with count c; true where it may be counted (R245). A barrier that has met its count
and waits for landings takes none: under a default count, that of its party's threads (R247). -/
def arrivalOk (b : Barrier) (party scope c n : Nat) : Bool :=
  let e := if b.arr = 0 then (if c = 0 then none else some c) else (b.exp.getD none)
  decide (c ≤ maxExp scope) && (b.arr == 0 || c == e.getD 0) &&
    (match e with
      | some x => decide (b.arr + n ≤ x)
      | none => b.arr == 0 || decide (b.arr < party))

/-- Counts an arrival of n threads of a group, with what is posted in the same step, and sets the group's stamp (R245,
R248). -/
def State.arrive (s : State) (gid : Nat) (k : BarKey) (c n post : Nat) : State :=
  let b := s.bar k
  let e := if b.arr = 0 then some (if c = 0 then none else some c) else b.exp
  let s := s.barLearn k (s.clockOf gid)
  let s := { s with bars := mapSet s.bars k { b with arr := b.arr + n, exp := e, posted := b.posted + post } }
  s.modGroup gid fun g => { g with stamps := mapSet g.stamps k b.phase }

/-- Adds a posting (R248). -/
def State.post (s : State) (k : BarKey) (n : Nat) : State :=
  { s with bars := mapSet s.bars k { (s.bar k) with posted := (s.bar k).posted + n } }

/-- Adds a landing of n units of 16 bytes; one that does not fit is not counted and ends the context with a record against
the command (R248). -/
def State.land (s : State) (k : BarKey) (n slot : Nat) (r : ErrRec) : State :=
  if 2 ^ 24 ≤ (s.bar k).landed + n then s.fatal slot { r with code := codeBarrierOverflow }
  else { s with bars := mapSet s.bars k { (s.bar k) with landed := (s.bar k).landed + n } }.testBar k

/-- Threads have exited: every barrier whose default count may have fallen is tested again (R246). -/
def State.retestBars (s : State) : State := (s.bars.map (·.1)).foldl State.testBar s

end Sys2Proof.Machine
end

