-- ==== Sys2Proof/Machine/Scratch.lean ====
section
/-!
DEFINITION. Scratchpads and their windows (R174, R175, R178 to R181): reading and writing bytes, what an access does to an
absent window line, write-backs, binding and unbinding.
-/

namespace Sys2Proof.Machine

/-- The bytes of scratchpad that a workgroup of a grid has (R26). -/
def Grid.scratchBytes (d : Grid) : Nat := d.scratch * 128

/-- The workgroup and offset that a scratchpad offset of a group names, its own or its peer's; none where it lies in
neither range (R24, R167). -/
def State.scratchAt (s : State) (g : Group) (o : Nat) : Option (Nat × Nat) :=
  match s.wg g.wg, s.gridOf g with
  | some w, some d =>
    if o < d.scratchBytes then some (g.wg, o)
    else if 0x80000000 ≤ o ∧ o < 0x80000000 + d.scratchBytes then
      match w.peer with
      | some p => some (p, o - 0x80000000)
      | none => none
    else none
  | _, _ => none

/-- The bytes of a scratchpad as a number. -/
def State.spRead (s : State) (w off n : Nat) : Nat :=
  match s.wg w with
  | some x => readBytes x.scratch off n
  | none => 0

/-- The mark of a range: that of its first word that gives no value (R179, R335). -/
def State.spMark (s : State) (w off n : Nat) : Mark :=
  match s.wg w with
  | some x => ((upFrom (wordOf off) 4 ((off + n - wordOf off + 3) / 4)).findSome? (mapFind x.spoison)).getD .clean
  | none => .clean

/-- The window that covers an offset (R178). -/
def Workgroup.windowAt (w : Workgroup) (off : Nat) : Option Window :=
  (w.windows.find? fun x => decide (x.2.off ≤ off) && decide (off < x.2.off + x.2.len)).map (·.2)

/-- A store of a core to the scratchpad of a workgroup: into its own one at once, on its way to its peer's (R174, R208). -/
def State.spStore (s : State) (own w off v n : Nat) (i : WMeta) : State :=
  if w = own then s.spWrite w off v n i else s.sendPeer w off v n i

/-- What must happen before an access to some scratchpad lines: nothing, a wait for a landing, a fault of a window
line's translation, or a store that a poisoned table entry drops (R175, R179, R355). -/
inductive SpReady where
  | ok
  | wait (w line : Nat)
  | fault (va : Nat) (x : Xlat)
  | lost (va : Nat)
  deriving DecidableEq, Repr

/-- Fills an absent window line, as an ordinary load of the core (R179). -/
def State.winFill (s : State) (w line : Nat) (win : Window) (pa policy key : Nat) : State :=
  match s.wg w with
  | none => s
  | some x =>
    let i : WMeta := { core := x.core, ctx := x.ctx, key := key, va := win.va + (line - win.off), pc := 0#64, group := 0,
                       count := 0, loc := unitLoc (dieOfCore x.core), queue := s.defaultQueue x.ctx }
    let s := s.modWg w fun x =>
      { x with wlines := mapSet x.wlines line { dirty := 0#32, wr := false, pa := pa, policy := policy, info := i },
               spoison := mapDrop x.spoison fun a => a / 128 == line / 128 }
    (List.range 32).foldl (fun s j =>
      let (v, m, s) := s.coreRead x.core (pa + 4 * j) policy
      s.modWg w fun x =>
        { x with scratch := writeBytes x.scratch (line + 4 * j) v.toNat 4,
                 spoison := if m = .clean then x.spoison else mapSet x.spoison (line + 4 * j) m }) s

/-- Fills an absent window line through a translation for reading (R179). A poisoned table entry leaves its words without a
value and the line absent (R355). -/
def State.winReach (s : State) (at_ : List TlbAt) (w line : Nat) (x : Workgroup) (win : Window) : State × SpReady :=
  let va := win.va + (line - win.off)
  match s.look at_ x.ctx va { write := false, fetch := false, keys := true } with
  | (s, .ok pa p k) =>
    if inWindow pa then (s, .fault va (.prot 9 (s.leafLevel x.ctx va))) else ((s.settleWalk at_ x.ctx va).winFill w line win pa p k, .ok)
  | (s, .poison) =>
    (s.modWg w fun x =>
      { x with spoison := (upFrom line 4 32).map (fun a => (a, Mark.walk)) ++ mapDrop x.spoison fun a => a / 128 == line / 128 }, .ok)
  | (s, .moving) => (s.settleWalk at_ x.ctx va, .fault va .moving)
  | (s, e) => (s, .fault va e)

/-- What the first store to a line since its fill finds for its translation (R179); no bit is set yet. -/
def State.winLook (s : State) (at_ : List TlbAt) (line : Nat) (x : Workgroup) (win : Window) : State × SpReady :=
  let va := win.va + (line - win.off)
  match s.look at_ x.ctx va { write := true, fetch := false, keys := true } with
  | (s, .ok pa _ _) => (s, if inWindow pa then .fault va (.prot 9 (s.leafLevel x.ctx va)) else .ok)
  | (s, .poison) => (s, .lost va)
  | (s, .moving) => (s.settleWalk at_ x.ctx va, .fault va .moving)
  | (s, e) => (s, .fault va e)

/-- The first store to a line since its fill, whose translation passes, sets A and D (R179, R357). Where the page has another frame
by then, the line, which is clean, is filled again from there, so that no write reaches the old frame (R372). -/
def State.winDirty (s : State) (at_ : List TlbAt) (w line : Nat) (x : Workgroup) (win : Window) (l : WinLine) : State :=
  let va := win.va + (line - win.off)
  match s.translateFor at_ x.ctx { write := true, fetch := false, keys := true } [pageOf va] with
  | (s, [(q, .ok pa p k)]) =>
    let pa := pa + (va - q)
    let s := if pa = l.pa then s else s.winFill w line win pa p k
    s.modWg w fun x => { x with wlines := match mapFind x.wlines line with
      | some l => mapSet x.wlines line { l with wr := true, policy := p, info := { l.info with key := k } }
      | none => x.wlines }
  | (s, _) => s

/-- Makes a line hold its bytes: a landing is waited for, and an absent window line is filled (R175, R179). -/
def State.spFill (s : State) (at_ : List TlbAt) (w line : Nat) : State × SpReady :=
  match s.wg w with
  | none => (s, .ok)
  | some x =>
    if 0 < mapGet x.pendLines (line / 128) 0 then (s, .wait w (line / 128))
    else
      match x.windowAt line with
      | none => (s, .ok)
      | some win => if (mapFind x.wlines line).isSome then (s, .ok) else s.winReach at_ w line x win

/-- The translation that a store to a line needs, once the line holds its bytes: none but for the first store to a window line; one
whose fill was lost takes no store (R179, R355). -/
def State.spLook (s : State) (at_ : List TlbAt) (w line : Nat) : State × SpReady :=
  match (s.wg w).bind fun x => (x.windowAt line).map fun win => (x, win) with
  | none => (s, .ok)
  | some (x, win) =>
    match mapFind x.wlines line with
    | none => (s, .lost (win.va + (line - win.off)))
    | some l => if l.wr then (s, .ok) else s.winLook at_ line x win

/-- The store to a line is performed: its translation sets A and D (R179, R357). -/
def State.spDirty (s : State) (at_ : List TlbAt) (w line : Nat) : State :=
  match (s.wg w).bind fun x => (x.windowAt line).map fun win => (x, win) with
  | none => s
  | some (x, win) =>
    match mapFind x.wlines line with
    | none => s
    | some l => if l.wr then s else s.winDirty at_ w line x win l

/-- Something is done at each of some lines; answers those that are not ready. -/
def State.spEach (f : State → Nat → Nat → State × SpReady) (s : State) : List (Nat × Nat) → State × List (Nat × Nat × SpReady)
  | [] => (s, [])
  | (w, line) :: r =>
    let (s, x) := f s w line
    let (s, xs) := State.spEach f s r
    (s, if x == .ok then xs else (w, line, x) :: xs)

/-- The line holds back the whole access: only a dropped store does not (R355). -/
def SpReady.stops : SpReady → Bool
  | .ok => false
  | .lost _ => false
  | _ => true

/-- Makes several lines ready for an access; answers those that are not. For a write no bit is set unless every line passes
(R175, R179, R357). -/
def State.spPrepareAll (s : State) (at_ : List TlbAt) (write : Bool) (lines : List (Nat × Nat)) :
    State × List (Nat × Nat × SpReady) :=
  let (s, xs) := State.spEach (fun s w l => s.spFill at_ w l) s lines
  if !write || xs != [] then (s, xs)
  else
    let (s, ys) := State.spEach (fun s w l => s.spLook at_ w l) s lines
    if ys.any fun y => y.2.2.stops then (s, ys)
    else ((lines.filter fun l => !ys.any fun y => y.1 == l.1 && y.2.1 == l.2).foldl (fun s l => s.spDirty at_ l.1 l.2) s, ys)

/-- Writes the dirty words of the window lines that meet a condition back to their global addresses, as ordinary stores
of the core; a dirty word that still carries poison, stored in part, is written as it stands (R180). Stores of the peer on their
way there are performed first. -/
def State.winFlush (s : State) (w : Nat) (p : Nat → WinLine → Bool) : State :=
  let s := s.landIn w
  match s.wg w with
  | none => s
  | some x =>
    let go := x.wlines.filter fun y => p y.1 y.2
    let s := s.modWg w fun x => { x with wlines := mapAll x.wlines fun k l => if p k l then { l with dirty := 0#32 } else l }
    go.foldl (fun s y =>
      (List.range 32).foldl (fun s j =>
        if y.2.dirty.getLsbD j then
          s.coreWrite x.core (y.2.pa + 4 * j) y.2.policy (readWord x.scratch (y.1 + 4 * j))
            { y.2.info with va := y.2.info.va / 128 * 128 + 4 * j }
            (!(List.range (j % 16)).any fun i => y.2.dirty.getLsbD (j - 1 - i))
        else s) s) s

/-- The lines of a range of scratchpad. -/
def linesOf (off len : Nat) : List Nat := upFrom (off / 128 * 128) 128 ((off + len - off / 128 * 128 + 127) / 128)

/-- Unbinds a window: dirty words are written back, and absent lines become ordinary lines that read as zero (R180). -/
def State.winUnbind (s : State) (w n : Nat) : State :=
  match (s.wg w).bind fun x => mapFind x.windows n with
  | none => s
  | some win =>
    let inside (a : Nat) : Bool := decide (win.off ≤ a) && decide (a < win.off + win.len)
    let s := s.winFlush w fun a _ => inside a
    s.modWg w fun x =>
      let absent := (linesOf win.off win.len).filter fun a => (mapFind x.wlines a).isNone
      { x with
        windows := mapDel x.windows n
        wlines := mapDrop x.wlines inside
        scratch := x.scratch.filter fun c => !absent.contains (c.1 / 128 * 128)
        spoison := mapDrop x.spoison fun a => absent.contains (a / 128 * 128) }

/-- Unbinds every window of a workgroup. -/
def State.winUnbindAll (s : State) (w : Nat) : State := (List.range 4).foldl (fun s n => s.winUnbind w n) s

/-- Binds a window with every line of its range absent (R178). -/
def State.winBind (s : State) (w n va off len : Nat) : State :=
  (s.landIn w).modWg w fun x =>
    { x with windows := mapSet x.windows n { va := va, off := off, len := len },
             wlines := mapDrop x.wlines fun a => decide (off ≤ a) && decide (a < off + len) }

/-- A range may be bound as window n of a workgroup: multiples of 128, inside the allocation, clear of other windows
(R178). -/
def Workgroup.windowOk (x : Workgroup) (size n va off len : Nat) : Bool :=
  va % 128 == 0 && off % 128 == 0 && len % 128 == 0 && decide (off + len ≤ size) &&
    x.windows.all fun y => y.1 == n || decide (off + len ≤ y.2.off) || decide (y.2.off + y.2.len ≤ off)

end Sys2Proof.Machine
end

