-- ==== Sys2Proof/Machine/Control.lean ====
section
/-!
DEFINITION. Control words (R117 to R124), the exit of threads, groups and workgroups (R28, R41, R122), the mode and
format registers (R126, R127), `region` (R129), `nop` (R88) and the register allotment (R145).
-/

namespace Sys2Proof.Machine

/-- ILLEGAL (R87). -/
def execIllegal (_e : Bool) (s : State) : Host.Outcome State Fault Refusal :=
  s.withIss fun I => s.raiseCode I codeIllegalOpcode

/-- NOP (R88). -/
def execNop (e : Bool) (s : State) : Host.Outcome State Fault Refusal :=
  s.withIss fun I => s.advance I e

/-! ### Transfers (R117 to R121) -/

/-- A target lies in the canonical range of the address space (R120, R166). -/
def targetOk (t : Int) : Bool := decide (0 ≤ t) && canonical t.toNat

/-- A control transfer: each active thread that takes it goes to its target, every other thread of the split goes on at
the next word (R117). A relative transfer checks its target for VA-WRAP, any other one for alignment and canonical form
(R120). The link register, if any, is written once every check has passed. The order of UNIFORM-ASSERT before these, the threads
whose targets are checked, the address and the src in the records are the model's (log entries 18 and 80). -/
def State.transfer (s : State) (I : Iss) (u relative : Bool) (n : Need) (taken : Nat → Bool) (target : Nat → Int)
    (link : Group → Group) : State :=
  s.word I n true fun s =>
    let go := I.act &&& maskOf taken
    let paths := pathsOf I.S.mask fun t => if go.getLsbD t then BitVec.ofInt 64 (target t) else I.S.pc + 4
    let failing (p : Int → Bool) : Mask := go &&& maskOf fun t => p (target t)
    let fault (code : Nat) (m : Mask) : State :=
      s.raise I { code := code, tmask := m, va := some (target (lowest m) % 2 ^ 64).toNat }
    let mis := if relative then 0#32 else failing fun x => x % 4 != 0
    let out := failing fun x => !targetOk x
    if u && decide (1 < paths.length) then s.raiseCode I codeUniformAssert
    else if mis ≠ 0#32 then fault codeMisaligned mis
    else if out ≠ 0#32 then fault (if relative then codeVaWrap else codeNoncanonical) out
    else
      match (link (I.now s)).diverge I.sid paths with
      | some g => { s with groups := mapSet s.groups I.gid g }
      | none => s.raiseCode I codeReconvDepth

/-- The target of a relative transfer (R118). -/
def Iss.relTarget (I : Iss) (i : BitVec 16) : Int := (I.S.pc.toNat : Int) + 4 + 4 * i.toInt

/-- BRA (R118). -/
def execBra (u : Bool) (i : BitVec 16) (s : State) : Host.Outcome State Fault Refusal :=
  s.withIss fun I =>
    s.transfer I u true { mask := I.act } (fun _ => true) (fun _ => I.relTarget i) id

/-- BRT (R118). -/
def execBrt (u : Bool) (p : BitVec 3) (i : BitVec 16) (s : State) : Host.Outcome State Fault Refusal :=
  s.withIss fun I =>
    s.transfer I u true { mask := I.act } (I.G.pred p.toNat) (fun _ => I.relTarget i) id

/-- BRF (R118). -/
def execBrf (u : Bool) (p : BitVec 3) (i : BitVec 16) (s : State) : Host.Outcome State Fault Refusal :=
  s.withIss fun I =>
    s.transfer I u true { mask := I.act } (fun t => !I.G.pred p.toNat t) (fun _ => I.relTarget i) id

/-- CALL: the link pair takes the address of the next word in each active thread (R118). -/
def execCall (u : Bool) (c : BitVec 6) (i : BitVec 16) (s : State) : Host.Outcome State Fault Refusal :=
  s.withIss fun I =>
    s.transfer I u true (I.need u true [pairOp c] [] .uniform) (fun _ => true) (fun _ => I.relTarget i)
      fun g => g.writePair (pairOp c).n I.act (fun _ => I.S.pc + 4) .uniform

/-- JMP (R119). -/
def execJmp (u : Bool) (a : BitVec 6) (k : Bool) (s : State) : Host.Outcome State Fault Refusal :=
  s.withIss fun I =>
    let oa := pairOp a k
    s.transfer I u false (I.need u true [] [oa] .uniform) (fun _ => true) (fun t => (I.G.pairVal oa.n t).toNat) id

/-- RET: as JMP, with another hint to instruction fetch (R119). -/
def execRet (u : Bool) (a : BitVec 6) (k : Bool) (s : State) : Host.Outcome State Fault Refusal :=
  s.withIss fun I =>
    let oa := pairOp a k
    s.transfer I u false (I.need u true [] [oa] .uniform) (fun _ => true) (fun t => (I.G.pairVal oa.n t).toNat) id

/-! ### Register allotment (R27, R145) -/

/-- The bound of a group's allotment (R27). -/
def growBound (pool ngrp : Nat) : Nat := min 128 (pool - 16 * (ngrp - 1)) / 8 * 8

/-- The sum of the allotments of the other groups of the workgroup that have not exited (R145). -/
def State.otherAllotments (s : State) (gid : Nat) : Nat :=
  match mapFind s.groups gid with
  | none => 0
  | some g =>
    let others := ((s.wg g.wg).map (·.groups)).getD []
    ((others.filter (· != gid)).map fun n =>
      match mapFind s.groups n with
      | some x => x.alloc
      | none => 0).sum

/-- A group grows: the new registers are zero, full and uniform (R145). -/
def Group.growTo (g : Group) (n : Nat) : Group :=
  { g with alloc := n, regs := mapDrop g.regs fun r => decide (g.alloc ≤ r) && decide (r < n) }

/-- A group shrinks: what the released registers held is discarded (R145). -/
def Group.shrinkTo (g : Group) (n : Nat) : Group :=
  { g with alloc := n, regs := mapDrop g.regs fun r => decide (n ≤ r) }

/-- The register pool of a group's grid. -/
def State.poolOf (s : State) (g : Group) : Nat := ((s.gridOf g).map (·.pool)).getD 0

/-- The grows that wait in a workgroup, earliest request first: group, split and size (R150). -/
def State.waitingGrows (s : State) (w : Nat) : List (Nat × Nat × Nat × Nat) :=
  let all := s.groups.flatMap fun (gid, g) =>
    if g.wg = w then g.splits.filterMap fun p => match p.wait with
      | .grow n at_ => some (at_, gid, p.idx, n)
      | _ => none
    else []
  sortBy (fun a b => decide (a.1 ≤ b.1)) all

/-- A waiting grow is granted: the allotment changes and the word has taken effect, so its split is at the word after it, which is
the restart point, and is a candidate again (R30, R43, R145, R146). -/
def Group.granted (g : Group) (sid n : Nat) : Group :=
  let e := ((g.split sid).bind (·.word)).any fun w => w.getLsbD 0
  let g := (g.growTo n).modSplit sid fun p => { p with st := .ready, rstart := p.pc + 4, rmode := p.mode, rfmt := p.fmt }
  g.advance sid e

/-- Tests the waiting grows of a workgroup again; one that fits is granted (R145). -/
def State.testGrows (s : State) (w : Nat) : State :=
  (s.waitingGrows w).foldl (fun s (_, gid, sid, n) =>
    match mapFind s.groups gid with
    | none => s
    | some g =>
      if s.otherAllotments gid + n ≤ s.poolOf g then
        s.modGroup gid fun g => g.granted sid n
      else s) s

/-- RSIZE (R145). -/
def execRsize (i : BitVec 7) (e : Bool) (s : State) : Host.Outcome State Fault Refusal :=
  s.withIss fun I =>
    let n := 8 * i.toNat
    s.boundaryWord I { mask := I.S.mask } e fun s =>
      if I.trapped then s.raiseCode I codeTrapForbidden
      else if I.G.cap < n then s.raiseCode I codeRsizeLimit
      else s.atBoundary I fun s =>
        let cur := (I.now s).alloc
        let due := (I.now s).due ((List.range (cur - n)).map (n + ·))
        if n < cur then
          if s.mxops.any fun o => o.taken && !o.started && !o.done && s.takesPart I.gid o && decide (n < o.areg + 8) then
            s.stall I .collect
          else if due ≠ [] then s.awaitRegs { I with G := I.now s } due false
          else ((s.modGroup I.gid fun g => g.shrinkTo n).newRegion I e).testGrows I.G.wg
        else if cur < n ∧ s.poolOf I.G < s.otherAllotments I.gid + n then s.suspend I (.grow n s.tick)
        else (s.modGroup I.gid fun g => g.growTo n).newRegion I e

/-! ### Exit (R28, R41, R122, R181) -/

/-- A group that has exited keeps its slot until its producers have filled (R122). -/
def State.dropExited (s : State) (gid : Nat) : State :=
  match mapFind s.groups gid with
  | some g =>
    if g.splits = [] ∧ g.prods = [] ∧ g.trap.isNone then
      { s with groups := mapDel s.groups gid }.modWg g.wg fun x =>
        { x with gone := x.gone.map fun (y : Nat × Group) => if y.1 == gid then (gid, g) else y }
    else s
  | none => s

/-- A workgroup's last group has exited: the dirty words of its windows are written back and released (R180, R181). The windows stay
bound for its accepted copies, whose accesses fill their lines and set dirty bits, until its scratchpad returns (R179, R279). -/
def State.wgExit (s : State) (w core : Nat) : State :=
  let bound := ((s.wg w).map fun x => !x.windows.isEmpty).getD false
  let s := s.winFlush w fun _ _ => true
  let s := if bound then s.release core 6 else s
  s.modWg w fun x => { x with exited := true }

/-- A group has exited: it leaves its workgroup, barriers and waiting grows are tested again, and a latch that it owns is free (R41, R145, R246, R300). -/
def State.groupExit (s : State) (gid : Nat) : State :=
  match mapFind s.groups gid with
  | none => s
  | some g =>
    let s := s.modGroup gid fun g => { g with nopre := none, stop := .none, stack := [], cont := [], held := [], txs := [] }
    let s := s.modWg g.wg fun x =>
      { x with groups := x.groups.filter (· != gid), gone := x.gone ++ [(gid, g)] }
    let s := match s.wg g.wg with
      | some x => s.modGrid x.grid fun d => { d with finish := d.finish.join (s.clockOf gid) }
      | none => s
    let s := { s with latches := s.latches.filter fun l => l.2.group != gid }
    let s := if (s.wg g.wg).any fun x => x.groups.isEmpty then s.wgExit g.wg g.core else s
    (s.dropExited gid).testGrows g.wg

/-- The active threads of a word exit; threads that the guard removed go on at the next word, in a new region (R41,
R122). -/
def State.exitThreads (s : State) (I : Iss) : State :=
  let s := s.modGroup I.gid fun g =>
    let alive := I.S.mask &&& ~~~I.act != 0#32
    let g := if alive then (g.modSplit I.sid (·.next true)).modSplit I.sid fun p =>
        { p with rstart := p.pc, rmode := p.mode, rfmt := p.fmt }
      else g
    let g := { g.removeThreads I.act with executed := g.executed + 1 }
    if alive then g.boundary I.sid else g
  let s := s.retestBars
  if (I.now s).splits.isEmpty then s.groupExit I.gid else s

/-- EXIT (R122). -/
def execExit (s : State) : Host.Outcome State Fault Refusal :=
  s.withIss fun I =>
    s.boundaryWord I { mask := I.act } true fun s =>
      if I.trapped then s.raiseCode I codeTrapForbidden
      else s.atBoundary I fun s => s.exitThreads I

/-! ### TRAP and BRK (R123, R124) -/

/-- TRAP (R123). -/
def execTrap (n : BitVec 8) (s : State) : Host.Outcome State Fault Refusal :=
  s.withIss fun I =>
    s.word I { mask := I.act } true fun s =>
      s.raise I { code := codeTrapInstr, tmask := I.act, detail := n.toNat }

/-- BRK (R124, R422). -/
def execBrk (t : BitVec 16) (s : State) : Host.Outcome State Fault Refusal :=
  s.withIss fun I =>
    s.word I { mask := I.act } true fun s =>
      if I.trapped || !(s.ctx I.G.ctx).dbg then s.advance I true
      else
        let s := s.note I { code := codeBreakpoint, tmask := I.act, detail := t.toNat } 0
        (s.advance I true).modSplit I.gid I.sid fun p => { p with st := .brk }

/-! ### MODE, FMT and REGION (R82, R126, R127, R129) -/

/-- A word that writes the split's own registers; a transaction open in a thread of the split forbids it (R251). -/
def State.setsSplit (s : State) (I : Iss) (f : Split → Split) (e : Bool) : State :=
  if I.inTx I.S.mask then s.raise I { code := codeTxForbidden, tmask := I.S.mask }
  else (s.modSplit I.gid I.sid f).advance I e

/-- MODE_LO (R126). -/
def execModeLo (i : BitVec 16) (e : Bool) (s : State) : Host.Outcome State Fault Refusal :=
  s.withIss fun I => s.setsSplit I (fun p => { p with mode := p.mode.extractLsb' 16 16 ++ i }) e

/-- MODE_HI (R126). -/
def execModeHi (i : BitVec 16) (e : Bool) (s : State) : Host.Outcome State Fault Refusal :=
  s.withIss fun I => s.setsSplit I (fun p => { p with mode := i ++ p.mode.extractLsb' 0 16 }) e

/-- FMT_LO (R127). -/
def execFmtLo (i : BitVec 16) (e : Bool) (s : State) : Host.Outcome State Fault Refusal :=
  s.withIss fun I => s.setsSplit I (fun p => { p with fmt := p.fmt.extractLsb' 16 16 ++ i }) e

/-- FMT_HI (R127). -/
def execFmtHi (i : BitVec 16) (e : Bool) (s : State) : Host.Outcome State Fault Refusal :=
  s.withIss fun I => s.setsSplit I (fun p => { p with fmt := i ++ p.fmt.extractLsb' 0 16 }) e

/-- REGION (R129): in trap mode only its issue cost (R421). It sends what is held and orders nothing, so an earlier load may still
return its value later (R197, R212). -/
def execRegion (e : Bool) (s : State) : Host.Outcome State Fault Refusal :=
  s.withIss fun I =>
    s.boundaryWord I { mask := I.S.mask } e fun s =>
      let (s, gone) := s.boundary I true false
      if gone then s else s.newRegion I e

/-! ### FE (R148) -/

/-- FE_EMPTY: acts once, even with an empty active mask; g0 has no bit (R148). An empty register is general (R164). -/
def execFeEmpty (d : BitVec 7) (e : Bool) (s : State) : Host.Outcome State Fault Refusal :=
  s.withIss fun I =>
    let r := d.toNat
    if I.G.alloc ≤ r then s.raiseCode I codeRegBound
    else if I.G.due [r] ≠ [] then s.awaitRegs I [r] false
    else (s.modGroup I.gid fun g => if r = 0 then g else g.markEmpty [r]).advance I e

/-- FE_FILL: waits for producers into d, not for an empty d (R34, R148). -/
def execFeFill (d a : BitVec 7) (k e : Bool) (s : State) : Host.Outcome State Fault Refusal :=
  s.withIss fun I =>
    let oa := one a k
    let n : Need := { (I.need false true [] [oa] .uniform) with regs := [d.toNat, a.toNat] }
    s.word I n e fun s =>
      if I.G.due [d.toNat] ≠ [] then s.awaitRegs I [d.toNat] false
      else s.modGroup I.gid fun g =>
        (g.write d.toNat I.act (fun t => g.val a.toNat t) (I.shape [oa] false (I.G.opTag oa))).advance I.sid e

/-- FE_TEST: never stalls (R148). -/
def execFeTest (d : BitVec 3) (a : BitVec 7) (e : Bool) (s : State) : Host.Outcome State Fault Refusal :=
  s.withIss fun I =>
    s.word I { regs := [a.toNat], mask := I.act } e fun s =>
      s.predResult I d.toNat (fun _ => (I.G.reg a.toNat).full) e

/-- FE_WAIT (R148). -/
def execFeWait (a : BitVec 7) (k e : Bool) (s : State) : Host.Outcome State Fault Refusal :=
  s.withIss fun I =>
    let n := I.need false true [] [one a k] .uniform
    match I.gate n with
    | .wait rs => s.awaitRegs I rs true
    | _ => s.word I n e fun s => s.advance I e

end Sys2Proof.Machine
end

