-- ==== Sys2Proof/Machine/Contain.lean ====
section
/-!
DEFINITION. Containment levels and the switch of paired execution (R337, R338, R344).
-/

namespace Sys2Proof.Machine

/-- The group is not converged (R338). -/
def Group.diverged (g : Group) : Bool := decide (1 < g.splits.length) || g.stack != []

/-- CONT_OPEN: once for the group, whatever the guard (R338). -/
def execContOpen (i : BitVec 16) (e : Bool) (s : State) : Host.Outcome State Fault Refusal :=
  s.withIss fun I =>
    let target := I.relTarget i
    s.boundaryWord I { mask := I.S.mask } e fun s =>
      if I.trapped then s.raiseCode I codeTrapForbidden
      else if I.G.diverged then s.raiseCode I codeContSplit
      else if 4 ≤ I.G.cont.length then s.raiseCode I codeContDepth
      else if !targetOk target then
        s.raise I { code := codeVaWrap, tmask := I.act, va := some (target % 2 ^ 64).toNat }
      else
        s.atBoundary I fun s =>
          let l : Level := { handler := BitVec.ofInt 64 target, mode := I.S.mode, fmt := I.S.fmt }
          (s.modGroup I.gid fun g => { g with cont := g.cont ++ [l] }).newRegion I e

/-- CONT_CLOSE: a consumption that the close waits for unwinds instead (R336, R338). -/
def execContClose (e : Bool) (s : State) : Host.Outcome State Fault Refusal :=
  s.withIss fun I =>
    s.boundaryWord I { mask := I.S.mask } e fun s =>
      if I.trapped then s.raiseCode I codeTrapForbidden
      else if I.G.diverged then s.raiseCode I codeContSplit
      else if I.G.cont.length = 0 then s.raiseCode I codeContDepth
      else
        s.atBoundary I fun s =>
          (s.modGroup I.gid fun g => { g with cont := g.cont.dropLast }).newRegion I e

/-- A `dual` word: a reserved shadow, outside the basic level (R344). -/
def State.dualWord (s : State) (I : Iss) (on e : Bool) : State :=
  s.boundaryWord I { mask := I.S.mask } e fun s =>
    let due := (I.now s).prods.flatMap fun p => p.dsts.map (·.1)
    if I.trapped then s.raiseCode I codeTrapForbidden
    else if (s.ctx I.G.ctx).pair || !I.G.pres then s.raiseCode I codeDualUnreserved
    else if on && !I.G.pair && due != [] then s.stall I (.regs due false)
    else s.atBoundary I fun s => (s.modGroup I.gid fun g => { g with pair := on }).newRegion I e

/-- DUAL_ON: the shadow is loaded once awaited registers have filled (R34, R344). -/
def execDualOn (e : Bool) (s : State) : Host.Outcome State Fault Refusal := s.withIss fun I => s.dualWord I true e

/-- DUAL_OFF (R344). -/
def execDualOff (e : Bool) (s : State) : Host.Outcome State Fault Refusal := s.withIss fun I => s.dualWord I false e

end Sys2Proof.Machine
end

