-- ==== Sys2Proof/Machine/Access.lean ====
section
/-!
DEFINITION. What the memory words of the lanes share (R166 to R173, R251 to R254): the checks of an access in their order,
translation, transactions, reading and writing the words of a thread, consumption, and how a word ends.
-/

namespace Sys2Proof.Machine

/-! ### Transactions (R251 to R254) -/

/-- The group in whose name the word acts, as it stands (R421). -/
def Iss.acting (I : Iss) (s : State) : Group := mapGet s.groups I.agid I.G

/-- The threads of the issuing group that have a transaction open; a routine's own words belong to none. -/
def Iss.txMask (I : Iss) (s : State) : Mask := maskOf fun t => (mapFind (I.now s).txs t).isSome

/-- A thread whose transaction aborts, with the reason and the fault or abort code (R253). -/
structure TxAbort where
  thread : Nat
  reason : Nat
  code : Nat := 0
  deriving DecidableEq, Repr

/-- The status word of an abort (R253). -/
def TxAbort.status (x : TxAbort) : Nat :=
  x.reason + (if x.reason = 5 then x.code * 2 ^ 16 else if x.reason = 4 then x.code * 2 ^ 8 else 0)

/-- A value that a thread's register takes when a producer into it fills; the producer's other registers keep the thread's values. -/
def Producer.give (p : Producer) (g : Group) (r t : Nat) (v : Word) : Producer :=
  let m : Mask := 1#32 <<< t
  { p with
    mask := p.mask ||| m
    tag := .general
    dsts := p.dsts.map fun d =>
      (d.1, mergeVals m (fun _ => if d.1 = r then v else if p.mask.getLsbD t then d.2.getD t 0#32 else g.val d.1 t) d.2) }

/-- Writes the status word of a thread whose transaction aborts (R253). Where its status register is a destination of the very load
that aborts, which is a producer from the number `first` on, the word follows the fill (R34). -/
def Group.giveStatus (g : Group) (first r t : Nat) (v : Word) : Group :=
  if g.prods.any fun p => decide (first ≤ p.id) && p.dsts.any fun d => d.1 == r then
    { g with prods := g.prods.map fun p => if decide (first ≤ p.id) && p.dsts.any (fun d => d.1 == r) then p.give g r t v else p }
  else g.write r (1#32 <<< t) (fun _ => v) .general

/-- Aborts a thread's transaction: its held words and sets are discarded and its status word is written; answers its
abort address (R252). -/
def State.txAbort (s : State) (gid first : Nat) (x : TxAbort) : State × Option (Nat × DWord) :=
  match (mapFind s.groups gid).bind fun g => mapFind g.txs x.thread with
  | none => (s, none)
  | some tx =>
    (s.modGroup gid fun g =>
      { (g.discard (1#32 <<< x.thread)).giveStatus first tx.status x.thread (BitVec.ofNat 32 x.status) with
        txs := mapDel g.txs x.thread },
      some (x.thread, tx.abort))

/-- Aborts the transactions of several threads. -/
def State.txAbortAll (s : State) (gid first : Nat) (l : List TxAbort) : State × List (Nat × DWord) :=
  l.foldl (fun acc x =>
    let (s, t) := acc.1.txAbort gid first x
    (s, acc.2 ++ t.toList)) (s, [])

/-- The split of a macro call goes on without the threads that abort, which leave it as a divergence does (R37). -/
def Group.divergeCall (g : Group) (sid : Nat) (paths : List (DWord × Mask)) (e stay : Bool) :
    Option Group :=
  match g.split sid with
  | none => some g
  | some p =>
    let free := g.freeCount
    let need := (paths.length - free) + (if free = 0 then 0 else 1)
    let gone := paths.foldl (fun (m : Mask) x => m ||| x.2) 0#32
    if 8 < g.stack.length + need then none
    else
      let rest := p.mask &&& ~~~gone
      let (g, m) := placePaths { p with mask := rest } paths g rest
      let g := if free = 0 then g else { g with stack := g.stack ++ [.record m p.mode p.fmt] }
      let g := g.modSplit sid fun q => { q with mask := rest }
      some (if stay then g else g.advance sid e)

/-- The status registers of some aborts that an earlier producer is still to fill: the word waits for it before it writes them
(R34). -/
def Iss.abortsDue (I : Iss) (s : State) (aborts : List TxAbort) : List Nat :=
  I.G.due (aborts.filterMap fun x => (mapFind (I.now s).txs x.thread).map (·.status))

/-- Threads whose transactions abort leave the word for their abort addresses; the others of the split go on after it, or, told to
stay, execute it again (R252). The word waits for a status register that is still to be filled; where the reconvergence stack has
no room, it has no effect but the fault (R34, R37). -/
def State.abortThreads (s s0 : State) (I : Iss) (e : Bool) (aborts : List TxAbort) (stay : Bool) : State :=
  let due := I.abortsDue s aborts
  if due ≠ [] then s0.stall I (.regs due false)
  else
    let (s, targets) := s.txAbortAll I.gid I.G.nextProd aborts
    let gone := maskOf fun t => (mapFind targets t).isSome
    let g := I.now s
    let out := if I.S.call.isSome ∧ I.S.mask &&& ~~~gone ≠ 0#32 then
        g.divergeCall I.sid (pathsOf gone fun t => mapGet targets t 0#64) e stay
      else g.diverge I.sid (pathsOf I.S.mask fun t => mapGet targets t (if stay then I.S.pc else I.S.pc + 4))
    match out with
    | some g => { s with groups := mapSet s.groups I.gid g }
    | none => s0.raiseCode I codeReconvDepth

/-- A word ends: its split goes on after it, and threads whose transactions have aborted go to their abort addresses
(R252). -/
def State.endWord (s s0 : State) (I : Iss) (e : Bool) (aborts : List TxAbort) : State :=
  if aborts = [] then s.advance I e else s.abortThreads s0 I e aborts false

/-- A failed check of a word: transactions that an earlier or the same check aborts end first, and the other threads meet the
check again (R168, R252). -/
def State.failWord (s : State) (I : Iss) (f : Flt) (aborts : List TxAbort) : State :=
  if aborts = [] then s.raise I f else s.abortThreads s I false aborts true

/-! ### The checks of an access (R168) -/

/-- A fault of the threads of a mask that fail a check; none where no thread does. -/
def failing (m : Mask) (bad : Nat → Bool) (f : Mask → Flt) : Option Flt :=
  let x := m &&& maskOf bad
  if x = 0#32 then none else some (f x)

/-- Runs checks in order over the threads of a mask. Threads with open transactions that fail one abort and let the others go on
(R252); the first check that any other thread fails is the word's fault, answered with the aborts so far. -/
def runChecks (tx : Mask) : List (Mask → Option Flt) → Mask → List TxAbort → Except (Flt × List TxAbort) (Mask × List TxAbort)
  | [], live, ab => .ok (live, ab)
  | c :: r, live, ab =>
    match c live with
    | none => runChecks tx r live ab
    | some f =>
      let ab := ab ++ (threadsOf (f.tmask &&& tx)).map fun t => { thread := t, reason := 5, code := f.code }
      if f.tmask &&& ~~~tx = 0#32 then runChecks tx r (live &&& ~~~f.tmask) ab
      else .error (f, ab)

/-- An effective address as a record's va. -/
def vaField (x : Int) : Option Nat := some (x % 2 ^ 64).toNat

/-- Checks 1 to 3 of R168 for the global and private spaces. -/
def addressChecks (n : Nat) (base : Nat → DWord) (x : Nat → Int) : List (Mask → Option Flt) :=
  let flt (code : Nat) (m : Mask) : Flt := { code := code, src := 2, tmask := m, va := vaField (x (lowest m)) }
  [fun m => failing m (fun t => x t % n != 0) (flt codeMisaligned),
   fun m => failing m (fun t => !canonical (base t).toNat) (flt codeNoncanonical),
   fun m => failing m (fun t => decide (x t < 0) || !canonical (x t).toNat || !canonical ((x t).toNat + n - 1))
     (flt codeVaWrap)]

/-- How far an access gets: it has ended, or some threads may perform it, with the translations of their pages and the
transactions that abort. -/
inductive Reach where
  | stop (s : State)
  | go (s : State) (live : Mask) (aborts : List TxAbort) (xs : List (Nat × Xlat))

/-- The distinct pages of a mask's threads. -/
def pagesOf (m : Mask) (x : Nat → Nat) (n : Nat) : List Nat :=
  distinctPages ((threadsOf m).flatMap fun t => [x t, x t + n - 1])

/-- The threads of a mask that touch a page. -/
def touching (m : Mask) (x : Nat → Nat) (n p : Nat) : Mask :=
  m &&& maskOf fun t => pageOf (x t) == p || pageOf (x t + n - 1) == p

/-- Why a thread's access is refused in step 7 of R168: the reason and the level; a window access that R13 does not admit
has reason 9. -/
def State.refusal (s : State) (I : Iss) (xs : List (Nat × Xlat)) (x : Nat → Nat) (n : Nat) (windowOk : Bool) (t : Nat) :
    Option (Nat × Nat) :=
  [x t, x t + n - 1].findSome? fun a => match xlatOf xs a with
    | .prot r l => some (r, l)
    | .ok pa _ _ =>
      if inWindow pa && (!windowOk || (mapFind (I.now s).txs t).isSome) then some (9, s.leafLevel I.G.ctx a) else none
    | _ => none

/-- Steps 6 and 7 of R168 on the translations of the pages: absent and migrating pages hold the word first. -/
def State.judge (s : State) (I : Iss) (live : Mask) (ab : List TxAbort) (xs : List (Nat × Xlat)) (x : Nat → Nat) (n : Nat)
    (windowOk : Bool) : Reach :=
  let absent := (xs.filter fun p => p.2 == .absent).map fun p => (p.1, touching live x n p.1)
  let moving := (xs.filter fun p => p.2 == .moving).map (·.1)
  if absent ≠ [] ∨ moving ≠ [] then .stop ((s.settleMoving (laneTlbs I.G.lane) I.G.ctx xs).pageWait I absent moving)
  else
    let why := s.refusal I xs x n windowOk
    let check (m : Mask) : Option Flt := failing m (fun t => (why t).isSome) fun m =>
      let t := lowest m
      let (r, l) := (why t).getD (0, 0)
      { code := codeProtection, src := 7, tmask := m, va := some (x t), detail := r + 16 * l }
    match runChecks (I.txMask s) [check] live ab with
    | .error (f, ab) => .stop (s.failWord I f ab)
    | .ok (live, ab) => .go s live ab xs

/-- Translates the pages of the threads of a mask and judges them; no bit of a table entry is set yet (R168, R357). -/
def State.translateThreads (s : State) (I : Iss) (live : Mask) (ab : List TxAbort) (x : Nat → Nat) (n : Nat)
    (k : AccessKind) (windowOk : Bool) : Reach :=
  let (s, xs) := s.lookAll (laneTlbs I.G.lane) I.G.ctx k (pagesOf live x n)
  s.judge I live ab xs x n windowOk

/-- The accesses of some threads have passed every check and are performed: A, and D for a write, are set (R357). -/
def State.settleThreads (s : State) (I : Iss) (live : Mask) (xs : List (Nat × Xlat)) (x : Nat → Nat) (n : Nat)
    (k : AccessKind) : State :=
  s.settlePages (laneTlbs I.G.lane) I.G.ctx k (xs.filter fun p => touching live x n p.1 != 0#32)

/-- The checks of R168 for a global or private access. -/
def State.reach (s : State) (I : Iss) (n : Nat) (base : Nat → DWord) (x : Nat → Int) (k : AccessKind) (windowOk : Bool) :
    Reach :=
  match runChecks (I.txMask s) (addressChecks n base x) I.act [] with
  | .error (f, ab) => .stop (s.failWord I f ab)
  | .ok (live, ab) => s.translateThreads I live ab (fun t => (x t).toNat) n k windowOk

/-! ### Reading and writing the words of a thread -/

/-- What a thread reads: its bytes as a number, the mark they carry, where the line stands, the 64-byte line of a scratchpad
that it comes from, and the words that its load leaves to be read later. -/
structure Got where
  val : Nat
  mark : Mark
  pa : Option Nat
  /-- A word was read at a port (R375, R461). -/
  beyond : Bool := false
  spLine : Option (Nat × Nat) := none
  late : List LateRead := []
  deriving DecidableEq, Repr

/-- Nothing has been read, for a reason that a mark gives. -/
def Got.lost (m : Mark) : Got := { val := 0, mark := m, pa := none }

/-- How a word is read where no held word answers: by the state, the thread, the address and the policy; and the policy that a read
at its level has, for a page's. -/
structure WordRead where
  read : State → Nat → Nat → Nat → Word × Mark × State
  level : Nat → Nat := id

/-- A thread reads a word: its group's held word first (R44, R360); in a transaction its own, else the word at the home, to
which the core's own dirty word goes first, and which joins the read set (R251, R360). -/
def State.loadWord (s : State) (I : Iss) (rd : WordRead) (t pa policy : Nat) : Word × Mark × State :=
  let g := I.acting s
  match mapFind (I.now s).txs t with
  | some _ =>
    match g.held.find? fun h => h.pa == pa && h.thread == t with
    | some h => (h.val, .clean, s)
    | none =>
      let (v, m, s) := (s.l1Flush I.core fun a => a == pa).homeRead I.core pa
      (v, m, s.modGroup I.gid fun g =>
        match mapFind g.txs t with
        | some x =>
          let x := { x with reads := (pa, v) :: x.reads, readLines := lineOf pa :: x.readLines.filter (· != lineOf pa) }
          { g with txs := mapSet g.txs t x }
        | none => g)
  | none =>
    match g.heldWord pa with
    | some v => (v, .clean, s)
    | none => rd.read s t pa policy

/-- A load may leave a word to be read later, so that a later access of the thread is performed first (R197): a plain word of
memory outside trap mode and transactions, which the group does not hold. Whether it does is timing (R32). -/
def State.mayWait (s : State) (I : Iss) (t pa : Nat) : Bool :=
  !I.trapped && (mapFind (I.now s).txs t).isNone && ((I.acting s).heldWord pa).isNone && !inWindow pa &&
    Config.choice (2 ^ 72 * (s.tick + 1) + 32 * pa + t) % 2 == 1

/-- A thread reads n bytes from an address on, word by word; told whether its values are sign-extended, it may leave words to
be read later. -/
def State.readAt (s : State) (I : Iss) (rd : WordRead) (late : Option Bool) (xs : List (Nat × Xlat)) (t va n : Nat) :
    Got × State :=
  let words := upFrom (wordOf va) 4 ((va + n - wordOf va + 3) / 4)
  let (raw, got, s) := words.foldl
    (fun (acc : Nat × Got × State) a =>
      let (sum, got, s) := acc
      match xlatOf xs a with
      | .ok pa policy _ =>
        if late.isSome && s.mayWait I t pa then
          (sum, { got with late := got.late ++ [{ mask := 0#32, part := (a - wordOf va) / 4, pa := pa, policy := policy, va := a,
                                                  off := if n < 4 then va % 4 else 0, n := min n 4,
                                                  signed := late.getD false }] }, s)
        else
          let asks := ((I.acting s).heldWord pa).isNone && s.asksPort I.core pa (rd.level policy)
          let (v, m, s) := s.loadWord I rd t pa policy
          (sum + v.toNat * 2 ^ (8 * (a - wordOf va)),
            { got with mark := if got.mark = .clean then m else got.mark, pa := got.pa.orElse fun _ => some pa,
                       beyond := got.beyond || asks }, s)
      | _ => (sum, { got with mark := .walk }, s))
    (0, { val := 0, mark := .clean, pa := none }, s)
  ({ got with val := raw / 2 ^ (8 * (va % 4)) % 2 ^ (8 * n) }, s)

/-- The threads of a list read in order. -/
def State.readAll (s : State) (I : Iss) (rd : WordRead) (late : Option Bool) (xs : List (Nat × Xlat)) (x : Nat → Nat) (n : Nat) :
    List Nat → State × List (Nat × Got)
  | [] => (s, [])
  | t :: r =>
    let (g, s) := s.readAt I rd late xs t (x t) n
    let (s, l) := s.readAll I rd late xs x n r
    (s, (t, g) :: l)

/-- The consumptions of what some threads have read: one for each line and code, in the order of their lowest threads, with
the lowest thread's address (R168, R335). -/
def consumesOf (engine : Nat) (va : Nat → Option Nat) (mask : Nat → Mask) (l : List (Nat × Got)) : List Consume :=
  (l.foldl (fun (acc : List (Option (Nat × Nat) × Consume)) (t, g) =>
    if g.mark = .clean then acc
    else
      let code := g.mark.code
      let src := g.mark.src engine
      let line := g.pa.map fun p => p / 64 * 64
      let same (c : Option (Nat × Nat) × Consume) : Bool := c.1 == g.spLine && c.2.code == code && c.2.src == src &&
        c.2.pa == line && (line.isSome || g.spLine.isSome || c.2.va.map (· / 64) == (va t).map (· / 64))
      if acc.any same then acc.map fun c => if same c then (c.1, { c.2 with mask := c.2.mask ||| mask t }) else c
      else acc ++ [(g.spLine, { code := code, src := src, mask := mask t, va := va t, pa := line, detail := 0 })]) []).map (·.2)

/-- The lines that some threads have read from hosts and CXL ports: virtual address, physical address, threads (R375,
R461). -/
def outside (va : Nat → Nat) (mask : Nat → Mask) (l : List (Nat × Got)) : List (Nat × Nat × Mask) :=
  l.filterMap fun (t, g) => match g.pa with
    | some pa => if g.beyond && (isFar pa || isHostMem pa) && g.mark == .clean then some (va t, pa, mask t) else none
    | none => none

/-- The words that some threads leave to be read later, where nothing that they have read is lost (R197). -/
def lateOf (mask : Nat → Mask) (l : List (Nat × Got)) : List LateRead :=
  (l.filter fun x => x.2.mark == .clean).flatMap fun (t, g) => g.late.map fun (r : LateRead) => { r with mask := mask t }

/-- What a write of the word carries to its home (R443, R444). -/
def State.metaFor (s : State) (I : Iss) (key va : Nat) : WMeta :=
  { core := I.core, ctx := I.G.ctx, key := key, va := va, pc := I.S.pc, group := I.agid,
    count := (I.acting s).executed, loc := I.G.loc I.sid, queue := s.queueOf I.G }

/-- The word at an address after a thread's bytes are stored into it. -/
def mergeWord (old : Word) (v off n : Nat) : Word :=
  let m := (2 ^ (8 * n) - 1) * 2 ^ (8 * off)
  BitVec.ofNat 32 ((old.toNat &&& (2 ^ 32 - 1 - m % 2 ^ 32)) + v * 2 ^ (8 * off) % 2 ^ 32)

/-- A thread stores n bytes: held in the region, in trap mode performed at once (R44, R171, R421); a word that is stored
in part is read first, as a load of the thread may read it (R183, R196). A store through a poisoned entry is dropped (R355). -/
def State.storeAt (s : State) (I : Iss) (xs : List (Nat × Xlat)) (t va n v : Nat) : State :=
  let words := upFrom (wordOf va) 4 ((va + n - wordOf va + 3) / 4)
  words.foldl (fun s a =>
    match xlatOf xs a with
    | .ok pa policy key =>
      let off := va % 4
      let (w, s) :=
        if 4 ≤ n then (BitVec.ofNat 32 (v / 2 ^ (8 * (a - wordOf va))), s)
        else
          let old := if (mapFind (I.now s).txs t).isSome then
              ((I.now s).held.find? fun h => h.pa == pa && h.thread == t).map (·.val)
            else (I.acting s).heldWord pa
          match old with
          | some o => (mergeWord o v off n, s)
          | none =>
            let (o, _, s) := if (mapFind (I.now s).txs t).isSome then (s.l1Flush I.core fun a => a == pa).homeRead I.core pa
              else s.coreRead I.core pa policy
            (mergeWord o v off n, s)
      let i := s.metaFor I key a
      if I.trapped then (s.coreWrite I.core pa policy w i (a == wordOf va)).noteStore I.agid (0, pa) w 0
      else
        s.modGroup I.gid fun g =>
          let g := g.hold { pa := pa, thread := t, val := w, policy := policy, info := i }
          match mapFind g.txs t with
          | some x =>
            let x := { x with writeLines := lineOf pa :: x.writeLines.filter (· != lineOf pa) }
            { g with txs := mapSet g.txs t x }
          | none => g
    | _ => s) s

/-! ### Capacity (R44, R251) -/

/-- Adds the members of a list that are not yet in another. -/
def union (a b : List Nat) : List Nat := b.foldl (fun acc x => if acc.contains x then acc else acc ++ [x]) a

/-- The lines that a group holds, for its regions and its transactions. -/
def Group.lines (g : Group) : List Nat :=
  union g.heldLines (g.txs.flatMap fun x => x.2.readLines ++ x.2.writeLines)

/-- The line that a thread's access touches, by its translation. -/
def lineAt (xs : List (Nat × Xlat)) (va : Nat) : List Nat :=
  match xlatOf xs va with
  | .ok pa _ _ => [lineOf pa]
  | _ => []

/-- The limit of 64 lines: a store outside transactions that needs one more is refused whole; a transactional access that
does aborts every thread that needs a new line, with one record (R44, R251). -/
def State.capacity (s : State) (I : Iss) (store : Bool) (xs : List (Nat × Xlat)) (x : Nat → Nat) (live : Mask)
    (ab : List TxAbort) : Reach :=
  let tx := I.txMask s &&& live
  let old := (I.now s).lines
  let needs (m : Mask) : List Nat := union old ((threadsOf m).flatMap fun t => lineAt xs (x t))
  let fresh (m : Mask) : Mask := m &&& maskOf fun t => (lineAt xs (x t)).any fun l => !old.contains l
  let plain := if store && !I.trapped then live &&& ~~~tx else 0#32
  if 64 < (needs plain).length ∧ fresh plain ≠ 0#32 then
    let m := fresh plain
    .stop ((s.abortRegion I.gid I.sid).raise I
      { code := codeRegionOverflow, src := 2, tmask := m, va := some (x (lowest m)) })
  else
    let m := fresh tx
    if m ≠ 0#32 ∧ 64 < (needs (plain ||| tx)).length then
      let s := s.note I { code := codeTxCapacity, src := 2, tmask := m, va := some (x (lowest m)) } 0
      .go s (live &&& ~~~m) (ab ++ (threadsOf m).map fun t => { thread := t, reason := 3 }) xs
    else .go s live ab xs

/-! ### Delivering a load (R33, R170, R172, R335) -/

/-- Register i of what a thread's load delivers. -/
def Got.part (g : Got) (ty cnt : Nat) (ext : Nat → Nat) (i : Nat) : Word :=
  if g.mark = .clean then BitVec.ofNat 32 (ext g.val / 2 ^ (32 * i)) else definedPart ty cnt i

/-- Delivers what the threads have read into a destination as a producer, with what they have still to read, records the
consumption of threads in transactions, which abort with reason 6 unless a containment level takes it, and ends the word. With
one reading for all, every thread of the mask takes it. -/
def State.deliver (s s0 : State) (I : Iss) (d : Opnd) (live : Mask) (ab : List TxAbort) (all : Bool) (engine : Nat)
    (va : Nat → Option Nat) (ext : Nat → Nat) (got : List (Nat × Got)) (e : Bool) : State :=
  if live = 0#32 then s.endWord s0 I e ab
  else
    let mask (t : Nat) : Mask := if all then live else 1#32 <<< t
    let tx := if I.G.depth = 0 then I.txMask s &&& live else 0#32
    let lost := got.filter fun x => x.2.mark != .clean && tx.getLsbD x.1
    let ab := ab ++ lost.map fun x => { thread := x.1, reason := 6 }
    let r := s.recOf I { code := codePoisonConsumed, tmask := live } 2
    let (s, _) := s.consumeAll I.gid r (consumesOf engine va mask lost) []
    let kept := got.filter fun x => !(x.2.mark != .clean && tx.getLsbD x.1)
    let ty := I.S.ty
    let at_ (i t : Nat) : Word :=
      match (if all then got.head?.map (·.2) else mapFind got t) with
      | some g => g.part ty d.cnt ext i
      | none => 0#32
    let dsts := (List.range d.regs.length).map fun i => (d.n + i, (List.range 32).map (at_ i))
    let tag : Tag := if all then .uniform else .general
    let s := s.produce { I with act := live } dsts ty tag
      { consumed := consumesOf engine va mask kept, ext := outside (fun t => (va t).getD 0) mask kept, reads := lateOf mask kept }
    s.endWord s0 I e ab

/-- Stores through poisoned table entries are lost: their threads in transactions abort with reason 6, unless a containment
level takes it, and the rest is recorded or unwinds the group (R252, R355). True where the group unwound. -/
def State.loseStores (s : State) (I : Iss) (live : Mask) (va : Nat → Option Nat) (lost : List Nat) : State × Bool × List TxAbort :=
  let tx := if I.G.depth = 0 then I.txMask s else 0#32
  let (s, gone) := s.consumeAll I.gid (s.recOf I { code := codePoisonConsumed, tmask := live } 2)
    (consumesOf 2 va (fun t => 1#32 <<< t) (lost.map fun t => (t, Got.lost .walk))) []
  (s, gone, (lost.filter tx.getLsbD).map fun t => { thread := t, reason := 6 })

end Sys2Proof.Machine
end

