-- ==== Sys2Proof/Machine/LaneFloat.lean ====
section
/-!
DEFINITION. Lane floating point (R131 to R140), conversion (R141 to R143) and containers (R62, R63, R144).
-/

namespace Sys2Proof.Machine

/-! ### Rounding in the threads of a word (R59, R134, R155) -/

/-- The elements of one thread in order, each rounding with the generator as the one before left it (R59). -/
def foldElems (n w : Nat) (f : Nat → BitVec 24 → Nat × BitVec 24) (seed : BitVec 24) : Nat × BitVec 24 :=
  (List.range n).foldl
    (fun acc j => let (x, sd) := f j acc.2; (acc.1 + x % 2 ^ w * 2 ^ (w * j), sd)) (0, seed)

/-- The values of a mask's threads in index order; under U = 1 the word executes once and every thread takes its value
(R59, R155). -/
def foldThreads (u : Bool) (m : Mask) (f : Nat → BitVec 24 → Nat × BitVec 24) (seed : BitVec 24) :
    List Nat × BitVec 24 :=
  if u then let (x, sd) := f (lowest m) seed; (List.replicate 32 x, sd)
  else
    (List.range 32).foldl (fun acc t =>
      if m.getLsbD t then let (x, sd) := f t acc.2; (acc.1 ++ [x], sd) else (acc.1 ++ [0], acc.2)) ([], seed)

/-- The active threads hold one value. -/
def sameIn (m : Mask) (xs : List Nat) : Bool := (threadsOf m).all fun t => xs.getD t 0 == xs.getD (lowest m) 0

/-- A word whose elements are rounded: n elements of width w in each active thread. Threads that draw apart from uniform
sources give a result with no shape (R151, R152). -/
def State.rounded (s : State) (I : Iss) (u tyOk : Bool) (d : Opnd) (srcs : List Opnd) (n w : Nat)
    (f : Nat → Nat → BitVec 24 → Nat × BitVec 24) (e : Bool) : State :=
  s.word I (I.need u tyOk [d] srcs (I.plainTag srcs)) e fun s =>
    let seed := (s.lane I.G.lane).seed
    let (xs, seed') := foldThreads u I.act (fun t => foldElems n w (f t)) seed
    let tag := if u || sameIn I.act xs then I.plainTag srcs else .general
    let s := if seed' = seed then s else s.modLane I.G.lane fun l => { l with seed := seed' }
    s.result I d (fun t => xs.getD t 0) tag e

/-- The floating-point format of the type of a split; f32 where the type has none, which no word reaches. -/
def Split.fmtOf (p : Split) : Fmt := (tyFmt p.ty).getD .f32

/-- Types 8 to n (R132). -/
def floatUpTo (ty n : Nat) : Bool := decide (8 ≤ ty) && decide (ty ≤ n)

/-- Element j of a floating-point data operand in a thread, flushed where the type is (R61). -/
def Iss.elemF (I : Iss) (o : Opnd) (t j : Nat) : FVal :=
  let f := I.S.fmtOf
  f.value (f.flush I.S.flushes (elemOf f.width j (I.G.op o t)))

/-- The end of the procedure of R134: rounding, overflow and flush (R58 to R61). -/
def Split.finish (p : Split) (f : Fmt) (v : FVal) (seed : BitVec 24) : Nat × BitVec 24 :=
  let (x, sd) := f.ofVal p.rnd p.sat v seed
  (f.flush p.flushes x, sd)

/-- A word whose elements are each the one rounding of an exact value (R134). -/
def State.exact (s : State) (I : Iss) (u : Bool) (d : BitVec 7) (srcs : List Opnd) (f : Nat → Nat → FVal) (e : Bool) : State :=
  let ty := I.S.ty
  s.rounded I u (floatUpTo ty 13) (dataOp ty d) srcs (elemCount ty) (elemWidth ty)
    (fun t j => I.S.finish I.S.fmtOf (f t j)) e

/-- A word of two sources (R134). -/
def State.float2 (s : State) (I : Iss) (u : Bool) (d a b : BitVec 7) (k l : Bool) (f : FVal → FVal → FVal) (e : Bool) : State :=
  let oa := dataOp I.S.ty a k
  let ob := dataOp I.S.ty b l
  s.exact I u d [oa, ob] (fun t j => f (I.elemF oa t j) (I.elemF ob t j)) e

/-- A word of two sources to which d is the third (R135). -/
def State.float3 (s : State) (I : Iss) (u : Bool) (d a b : BitVec 7) (k l : Bool) (f : FVal → FVal → FVal → FVal)
    (e : Bool) : State :=
  let od := dataOp I.S.ty d
  let oa := dataOp I.S.ty a k
  let ob := dataOp I.S.ty b l
  s.exact I u d [od, oa, ob] (fun t j => f (I.elemF od t j) (I.elemF oa t j) (I.elemF ob t j)) e

/-! ### Arithmetic (R134, R135) -/

/-- FADD (R134). -/
def execFadd (u : Bool) (d a b : BitVec 7) (k l e : Bool) (s : State) : Host.Outcome State Fault Refusal :=
  s.withIss fun I => s.float2 I u d a b k l (fun x y => sumVals I.S.rnd [x, y]) e

/-- FSUB (R134). -/
def execFsub (u : Bool) (d a b : BitVec 7) (k l e : Bool) (s : State) : Host.Outcome State Fault Refusal :=
  s.withIss fun I => s.float2 I u d a b k l (fun x y => sumVals I.S.rnd [x, y.neg]) e

/-- FMUL (R134). -/
def execFmul (u : Bool) (d a b : BitVec 7) (k l e : Bool) (s : State) : Host.Outcome State Fault Refusal :=
  s.withIss fun I => s.float2 I u d a b k l FVal.mul e

/-- FFMA (R134, R135). -/
def execFfma (u : Bool) (d a b : BitVec 7) (k l e : Bool) (s : State) : Host.Outcome State Fault Refusal :=
  s.withIss fun I => s.float3 I u d a b k l (fun z x y => sumVals I.S.rnd [z, x.mul y]) e

/-- FFMS (R134, R135). -/
def execFfms (u : Bool) (d a b : BitVec 7) (k l e : Bool) (s : State) : Host.Outcome State Fault Refusal :=
  s.withIss fun I => s.float3 I u d a b k l (fun z x y => sumVals I.S.rnd [x.mul y, z.neg]) e

/-- a · 2^n. Every format rounds a value as it rounds one of a like magnitude far outside its range, so n beyond ±5000
is taken as ±5000. -/
def FVal.scale (v : FVal) (n : Int) : FVal :=
  match v with
  | .fin s m e => .fin s m (if m = 0 then e else e + max (-5000) (min 5000 n))
  | v => v

/-- FSCL: b is one register of signed integers of the element's width, i32 under f64 (R134). -/
def execFscl (u : Bool) (d a b : BitVec 7) (k l e : Bool) (s : State) : Host.Outcome State Fault Refusal :=
  s.withIss fun I =>
    let oa := dataOp I.S.ty a k
    let w := min 32 (elemWidth I.S.ty)
    s.exact I u d [oa, one b l]
      (fun t j => (I.elemF oa t j).scale (elemInt true w (elemOf w j (I.G.val b.toNat t).toNat))) e

/-- FDOT2: d is one f32 register, a and b hold two elements each (R134). -/
def execFdot2 (u : Bool) (d a b : BitVec 7) (k l e : Bool) (s : State) : Host.Outcome State Fault Refusal :=
  s.withIss fun I =>
    let srcs := [one d, one a k, one b l]
    let x (n : BitVec 7) (t j : Nat) : FVal := I.elemF (one n) t j
    s.rounded I u (I.S.ty == 10 || I.S.ty == 11) (one d) srcs 1 32
      (fun t _ => I.S.finish .f32 (sumVals I.S.rnd
        [Fmt.f32.value (Fmt.f32.flush I.S.flushes (I.G.val d.toNat t).toNat), (x a t 0).mul (x b t 0), (x a t 1).mul (x b t 1)])) e

/-! ### Minimum, maximum, compare (R136, R137) -/

/-- A word of exact elements. -/
def State.elementwise (s : State) (I : Iss) (u tyOk : Bool) (d : Opnd) (srcs : List Opnd) (f : Nat → Nat → Nat) (e : Bool) : State :=
  let ty := I.S.ty
  s.plain I u tyOk d srcs (fun t => joinElems (elemWidth ty) (elemCount ty) (f t)) (I.plainTag srcs) e

/-- Element j of a data operand as it is encoded. -/
def Iss.elemRaw (I : Iss) (o : Opnd) (t j : Nat) : Nat := elemOf (elemWidth I.S.ty) j (I.G.op o t)

/-- A minimum or maximum (R136). -/
def State.minMax (s : State) (I : Iss) (u : Bool) (d a b : BitVec 7) (k l wantMax e : Bool) : State :=
  let ty := I.S.ty
  let oa := dataOp ty a k
  let ob := dataOp ty b l
  s.elementwise I u (floatUpTo ty 13) (dataOp ty d) [oa, ob]
    (fun t j => I.S.fmtOf.minMax wantMax (I.elemRaw oa t j) (I.elemRaw ob t j)) e

/-- FMIN (R136). -/
def execFmin (u : Bool) (d a b : BitVec 7) (k l e : Bool) (s : State) : Host.Outcome State Fault Refusal :=
  s.withIss fun I => s.minMax I u d a b k l false e

/-- FMAX (R136). -/
def execFmax (u : Bool) (d a b : BitVec 7) (k l e : Bool) (s : State) : Host.Outcome State Fault Refusal :=
  s.withIss fun I => s.minMax I u d a b k l true e

/-- FCMP: the condition holds for every element (R137). -/
def execFcmp (u : Bool) (c p : BitVec 3) (a b : BitVec 7) (k l e : Bool) (s : State) : Host.Outcome State Fault Refusal :=
  s.withIss fun I =>
    let ty := I.S.ty
    let oa := dataOp ty a k
    let ob := dataOp ty b l
    let f := I.S.fmtOf
    s.compare I u (floatUpTo ty 13) p.toNat [oa, ob] (fun t => (List.range (elemCount ty)).all fun j =>
      floatCond c.toNat (f.value (I.elemRaw oa t j)) (f.value (I.elemRaw ob t j))) e

/-! ### Unary operations (R138 to R140) -/

/-- A unary word of exact elements. -/
def State.fop1 (s : State) (I : Iss) (u : Bool) (d a : BitVec 7) (k : Bool) (f : Fmt → Nat → Nat) (e : Bool) : State :=
  let ty := I.S.ty
  let oa := dataOp ty a k
  s.elementwise I u (floatUpTo ty 13) (dataOp ty d) [oa] (fun t j => f I.S.fmtOf (I.elemRaw oa t j)) e

/-- The encoding with its sign bit as given, a NaN made canonical (R138). -/
def Fmt.withSign (f : Fmt) (g : Bool → Bool) (x : Nat) : Nat :=
  if f.value x = .nan then f.nan
  else f.sign (g (x.testBit (f.width - 1))) + x % 2 ^ (f.width - 1)

/-- FOP_FNEG (R138). -/
def execFopFneg (u : Bool) (d a : BitVec 7) (k e : Bool) (s : State) : Host.Outcome State Fault Refusal :=
  s.withIss fun I => s.fop1 I u d a k (fun f x => f.withSign (!·) x) e

/-- FOP_FABS (R138). -/
def execFopFabs (u : Bool) (d a : BitVec 7) (k e : Bool) (s : State) : Host.Outcome State Fault Refusal :=
  s.withIss fun I => s.fop1 I u d a k (fun f x => f.withSign (fun _ => false) x) e

/-- FOP_FCLASS (R140). -/
def execFopFclass (u : Bool) (d a : BitVec 7) (k e : Bool) (s : State) : Host.Outcome State Fault Refusal :=
  s.withIss fun I => s.fop1 I u d a k Fmt.classOf e

/-- A rounded function (R138, R139). -/
def State.fopFun (s : State) (I : Iss) (u tyOk : Bool) (d a : BitVec 7) (k : Bool) (fn : Fun) (e : Bool) : State :=
  let ty := I.S.ty
  let oa := dataOp ty a k
  let f := I.S.fmtOf
  s.rounded I u tyOk (dataOp ty d) [oa] (elemCount ty) (elemWidth ty)
    (fun t j seed =>
      let (x, sd) := f.apply fn I.S.rnd I.S.sat (I.elemF oa t j) seed
      (f.flush I.S.flushes x, sd)) e

/-- The types of the transcendental functions: no f64 (R132). -/
def transcendental (ty : Nat) : Bool := ty == 8 || ty == 10 || ty == 11

/-- FOP_FRCP (R138). -/
def execFopFrcp (u : Bool) (d a : BitVec 7) (k e : Bool) (s : State) : Host.Outcome State Fault Refusal :=
  s.withIss fun I => s.fopFun I u (floatUpTo I.S.ty 11) d a k .rcp e

/-- FOP_FRSQ (R138). -/
def execFopFrsq (u : Bool) (d a : BitVec 7) (k e : Bool) (s : State) : Host.Outcome State Fault Refusal :=
  s.withIss fun I => s.fopFun I u (floatUpTo I.S.ty 11) d a k .rsq e

/-- FOP_FSQRT (R138). -/
def execFopFsqrt (u : Bool) (d a : BitVec 7) (k e : Bool) (s : State) : Host.Outcome State Fault Refusal :=
  s.withIss fun I => s.fopFun I u (floatUpTo I.S.ty 11) d a k .sqrt e

/-- FOP_FEX2 (R138). -/
def execFopFex2 (u : Bool) (d a : BitVec 7) (k e : Bool) (s : State) : Host.Outcome State Fault Refusal :=
  s.withIss fun I => s.fopFun I u (transcendental I.S.ty) d a k .ex2 e

/-- FOP_FLG2 (R138). -/
def execFopFlg2 (u : Bool) (d a : BitVec 7) (k e : Bool) (s : State) : Host.Outcome State Fault Refusal :=
  s.withIss fun I => s.fopFun I u (transcendental I.S.ty) d a k .lg2 e

/-- FOP_FSIN (R138). -/
def execFopFsin (u : Bool) (d a : BitVec 7) (k e : Bool) (s : State) : Host.Outcome State Fault Refusal :=
  s.withIss fun I => s.fopFun I u (transcendental I.S.ty) d a k .sin e

/-- FOP_FCOS (R138). -/
def execFopFcos (u : Bool) (d a : BitVec 7) (k e : Bool) (s : State) : Host.Outcome State Fault Refusal :=
  s.withIss fun I => s.fopFun I u (transcendental I.S.ty) d a k .cos e

/-- FOP_FTANH (R138). -/
def execFopFtanh (u : Bool) (d a : BitVec 7) (k e : Bool) (s : State) : Host.Outcome State Fault Refusal :=
  s.withIss fun I => s.fopFun I u (transcendental I.S.ty) d a k .tanh e

/-- FOP_FRNI (R138). -/
def execFopFrni (u : Bool) (d a : BitVec 7) (k e : Bool) (s : State) : Host.Outcome State Fault Refusal :=
  s.withIss fun I => s.fopFun I u (floatUpTo I.S.ty 13) d a k .rni e

/-- FOP_FRZI (R138). -/
def execFopFrzi (u : Bool) (d a : BitVec 7) (k e : Bool) (s : State) : Host.Outcome State Fault Refusal :=
  s.withIss fun I => s.fopFun I u (floatUpTo I.S.ty 13) d a k .rzi e

/-- FOP_FRPI (R138). -/
def execFopFrpi (u : Bool) (d a : BitVec 7) (k e : Bool) (s : State) : Host.Outcome State Fault Refusal :=
  s.withIss fun I => s.fopFun I u (floatUpTo I.S.ty 13) d a k .rpi e

/-- FOP_FRMI (R138). -/
def execFopFrmi (u : Bool) (d a : BitVec 7) (k e : Bool) (s : State) : Host.Outcome State Fault Refusal :=
  s.withIss fun I => s.fopFun I u (floatUpTo I.S.ty 13) d a k .rmi e

/-- FOP_FFRACT (R138). -/
def execFopFfract (u : Bool) (d a : BitVec 7) (k e : Bool) (s : State) : Host.Outcome State Fault Refusal :=
  s.withIss fun I => s.fopFun I u (floatUpTo I.S.ty 13) d a k .fract e

/-! ### Conversion (R141 to R143) -/

/-- An integer clamped to the range of an integer type (R57). -/
def clampTo (ty : Nat) (x : Int) : Nat := fitInt true (isSigned ty) (elemWidth ty) x

/-- One element of a type converted to another (R142). A value of the source's own type stays as it is, but for a NaN. -/
def convertElem (src dst rnd : Nat) (sat : Bool) (x : Nat) (seed : BitVec 24) : Nat × BitVec 24 :=
  match tyFmt src, tyFmt dst with
  | some f, some g =>
    if src = dst then (if f.value x = .nan then f.nan else x, seed) else g.ofVal rnd sat (f.value x) seed
  | none, some g =>
    let v := elemInt (isSigned src) (elemWidth src) x
    g.ofVal rnd sat (.fin (decide (v < 0)) v.natAbs 0) seed
  | some f, none =>
    match f.value x with
    | .nan => (0, seed)
    | .inf neg => (clampTo dst (if neg then -(2 ^ 64) else 2 ^ 64), seed)
    | .fin neg m e =>
      let (v, sd) := roundInteger rnd neg ⟨m, e, false⟩ seed
      (clampTo dst v, sd)
  | none, none => (fitInt sat (isSigned dst) (elemWidth dst) (elemInt (isSigned src) (elemWidth src) x), seed)

/-- CVT (R141, R142). -/
def execCvt (u : Bool) (d a : BitVec 7) (t : BitVec 4) (k e : Bool) (s : State) : Host.Outcome State Fault Refusal :=
  s.withIss fun I =>
    let ty := I.S.ty
    let dt := t.toNat
    let oa := dataOp ty a k
    let bits := elemCount ty * elemWidth dt
    s.rounded I u (decide (ty ≤ 13) && decide (bits < 128)) { n := d.toNat, cnt := if bits = 64 then 2 else 1 } [oa]
      (elemCount ty) (elemWidth dt) (fun t j => convertElem ty dt I.S.rnd I.S.sat (I.elemRaw oa t j)) e

/-- The type that the sources of `pack` are read as (R143). -/
def packSource (ty : Nat) : Nat :=
  match ty with
  | 4 => 0
  | 5 => 1
  | 6 => 4
  | 7 => 5
  | 10 => 8
  | 11 => 8
  | _ => 10

/-- PACK: the lower half of the elements from a, the upper half from b (R143). -/
def execPack (u : Bool) (d a b : BitVec 7) (k l e : Bool) (s : State) : Host.Outcome State Fault Refusal :=
  s.withIss fun I =>
    let ty := I.S.ty
    let src := packSource ty
    let half := elemCount ty / 2
    let tyOk := (decide (4 ≤ ty) && decide (ty ≤ 7)) || (decide (10 ≤ ty) && decide (ty ≤ 13))
    s.rounded I u tyOk (one d) [one a k, one b l] (elemCount ty) (elemWidth ty)
      (fun t j => convertElem src ty I.S.rnd I.S.sat
        (elemOf (elemWidth src) (j % half) (I.G.val (if j < half then a.toNat else b.toNat) t).toNat)) e

/-! ### Containers (R62, R63, R144) -/

/-- The 16 bytes of a container held in four registers. -/
def containerOf (w0 w1 w2 w3 : Word) : Nat :=
  w0.toNat + w1.toNat * 2 ^ 32 + w2.toNat * 2 ^ 64 + w3.toNat * 2 ^ 96

/-- A container's tag. -/
def cTag (c : Nat) : Nat := c / 2 ^ 124 % 16

/-- A container's payload. -/
def cPayload (c : Nat) : Nat := c % 2 ^ 120

/-- The parity of a number's low n bits. -/
def parityOf : Nat → Nat → Bool
  | 0, _ => false
  | n + 1, x => (x % 2 == 1) ^^ parityOf n (x / 2)

/-- The quarters of a container that fail their parity, as a mask (R62). -/
def cFailing (c : Nat) : Nat :=
  (List.range 4).foldl (fun acc q =>
    acc + (if parityOf 30 (cPayload c / 2 ^ (30 * q)) != (c / 2 ^ (120 + q)).testBit 0 then 2 ^ q else 0)) 0

/-- The container with par computed from its payload, and a tag (R63). -/
def makeContainer (tag payload : Nat) : Nat :=
  let par := (List.range 4).foldl (fun acc q => acc + (parityOf 30 (payload / 2 ^ (30 * q))).toNat * 2 ^ q) 0
  payload % 2 ^ 120 + par * 2 ^ 120 + tag * 2 ^ 124

/-- The width of an element of a container by its tag (R62). -/
def cWidth (tag : Nat) : Nat :=
  match tag with
  | 1 => 4
  | 2 => 4
  | 3 => 6
  | 4 => 6
  | 5 => 2
  | _ => 1

/-- The number of elements of a container by its tag (R62). -/
def cCount (tag : Nat) : Nat := 120 / cWidth tag

/-- The floating-point format of a container's elements by its tag (R62). -/
def cFmt (tag : Nat) : Option Fmt :=
  match tag with
  | 1 => some .e2m1
  | 3 => some .e3m2
  | 4 => some .e2m3
  | _ => none

/-- Element i of a container's payload. -/
def cElem (tag payload i : Nat) : Nat := if i < cCount tag then elemOf (cWidth tag) i payload else 0

/-- An element of a small format as f16, exactly (R144). -/
def toF16 (f : Fmt) (x : Nat) : Nat := (Fmt.f16.ofVal 0 false (f.value x) 1#24).1

/-- The chunk of a container's payload that `unpk` writes (R144). -/
def unpkChunk (kind c payload : Nat) : Nat :=
  match cFmt kind with
  | some f => joinElems 16 2 fun j => toF16 f (cElem kind payload (2 * c + j))
  | none =>
    if kind = 6 then payload / 2 ^ (32 * c) % 2 ^ 32
    else joinElems 8 4 fun j => (elemInt true (cWidth kind) (cElem kind payload (4 * c + j)) % 256).toNat

/-- The container in a quad of a thread. -/
def Iss.container (I : Iss) (o : Opnd) (t : Nat) : Nat :=
  containerOf (I.G.part o.n 0 t) (I.G.part o.n 1 t) (I.G.part o.n 2 t) (I.G.part o.n 3 t)

/-- UNPK_TAG: no check and no record (R144). -/
def execUnpkTag (u : Bool) (d : BitVec 7) (a : BitVec 5) (k e : Bool) (s : State) : Host.Outcome State Fault Refusal :=
  s.withIss fun I =>
    let oa := quadOp a k
    s.plain I u true (one d) [oa]
      (fun t => let c := I.container oa t; cTag c + 16 * cFailing c) (I.plainTag [oa]) e

/-- UNPK: the tag is checked first, the parity second (R63, R144, R334). The PARITY record names no address: a container in registers
has none (log entry 81). -/
def execUnpk (u : Bool) (d : BitVec 7) (a : BitVec 5) (n : BitVec 3) (c : BitVec 4) (k e : Bool) (s : State) :
    Host.Outcome State Fault Refusal :=
  s.withIss fun I =>
    let oa := quadOp a k
    let tag := I.plainTag [oa]
    s.word I (I.need u true [one d] [oa] tag) e fun s =>
      let wrong := I.act &&& maskOf fun t => cTag (I.container oa t) != n.toNat
      let bad := I.act &&& maskOf fun t => cFailing (I.container oa t) != 0
      if wrong ≠ 0#32 then s.raise I { code := codeContainer, tmask := wrong }
      else
        let r := s.recOf I { code := codeParity, tmask := bad } 2
        let cs := if bad = 0#32 then [] else
          [{ code := codeParity, src := 0, mask := bad, va := none, pa := none, detail := r.detail : Consume }]
        let (s, gone) := s.consumeAll I.gid r cs [d.toNat]
        if gone then s
        else s.result I (one d)
          (fun t => if bad.getLsbD t then 0 else unpkChunk n.toNat c.toNat (cPayload (I.container oa t)))
          tag e

end Sys2Proof.Machine
end

