-- ==== Sys2Proof/Machine/Engine.lean ====
section
/-!
DEFINITION. What the engine commands share: their issue (R15, R16, R260), the element formats of R263, the places that an
engine reads and writes (global memory, scratchpad, pan) and the records of a running command (R280).
-/

namespace Sys2Proof.Machine

/-! ### Issue (R16, R76, R260) -/

/-- An engine word: a boundary for every split that executes it; the body runs in the splits that issue its command
(R260). A descriptor tagged general is refused (R76). -/
def State.engineWord (s : State) (I : Iss) (lead : Bool) (n : Need) (e : Bool) (body : State → State) : State :=
  s.boundaryWord I n e fun s => s.atBoundary I fun s =>
    if lead && I.G.idx != 0 then s.newRegion I e else body s

/-- The needs of an engine word: its descriptors are flat, and any of them may be empty (R34, R76). -/
def Iss.descNeed (I : Iss) (srcs : List Opnd) : Need := I.need true true [] srcs .uniform

/-- A descriptor register in the lowest active thread (R260). -/
def Iss.desc (I : Iss) (n : Nat) : Word := if n = 0 then 0#32 else I.G.val n (lowest I.act)

/-- The words of a descriptor of several registers. -/
def Iss.descs (I : Iss) (n cnt : Nat) : List Word := (List.range cnt).map fun i => I.G.part n i (lowest I.act)

/-- A fault that an engine finds at acceptance, charged to the word (R276, R295). -/
def State.refuseCommand (s : State) (I : Iss) (code src detail : Nat) (va : Option Nat := none) : State :=
  s.raise I { code := code, src := src, tmask := I.act, va := va, detail := detail }

/-- The tick at which a word that waits at an engine's port came to it; none where it has not waited there. -/
def Split.portSince (p : Split) (src unit : Nat) : Option Nat :=
  match p.wait with
  | .queue a b n => if a = src ∧ b = unit then some n else none
  | _ => none

/-- A word may be accepted at an engine's port: its queue has room, which trap mode sees differently, and no word that has room
as well came before it (R15, R16). -/
def State.portOpen (s : State) (I : Iss) (src unit : Nat) (room : Bool → Bool) : Bool :=
  room I.trapped && s.groups.all fun (gid, g) => g.splits.all fun p =>
    match p.portSince src unit with
    | some n => (gid == I.gid && p.idx == I.sid) || p.st != .issuing || g.stop != .none || !room g.trap.isSome ||
        decide ((I.S.portSince src unit).getD s.tick ≤ n)
    | none => true

/-- The word waits at an engine's port, in its place of arrival (R15, R16). -/
def State.awaitPort (s : State) (I : Iss) (src unit : Nat) : State :=
  s.stall I (.queue src unit ((I.S.portSince src unit).getD s.tick))

/-! ### Element formats (R263) -/

/-- The element size of a format code, in bytes. -/
def esOf (code : Nat) : Nat := [1, 1, 2, 2, 16, 16, 16, 1, 16, 16, 4, 1, 2, 4, 8, 1].getD code 1

/-- The container tag of a format code; 0 for the other formats (R62). -/
def tagOf (code : Nat) : Nat := [0, 0, 0, 0, 1, 3, 4, 0, 2, 6].getD code 0

/-- The format holds containers or plane containers. -/
def isContainer (code : Nat) : Bool := tagOf code != 0

/-- The elements of one unit of a format: those of a container, else 1 (R263). -/
def epcOf (code : Nat) : Nat := if isContainer code then cCount (tagOf code) else 1

/-- The floating-point format of a code's elements. -/
def recFmt (code : Nat) : Option Fmt :=
  match code with
  | 0 => some .e4m3
  | 1 => some .e5m2
  | 2 => some .f16
  | 3 => some .bf16
  | 4 => some .e2m1
  | 5 => some .e3m2
  | 6 => some .e2m3
  | 10 => some .f32
  | _ => none

/-- The range of an integer format: i8, else i4. -/
def recRange (code : Nat) : Int × Int := if code = 8 then (-8, 7) else (-128, 127)

/-- An integer as an exact value. -/
def FVal.ofInt (x : Int) : FVal := .fin (decide (x < 0)) x.natAbs 0

/-- The value of an element under a code. -/
def recVal (code x : Nat) : FVal :=
  match recFmt code with
  | some f => f.value x
  | none => .ofInt (elemInt true (if code = 8 then 4 else 8) x)

/-- A value rounded to nearest-even into the format of a code (R142, R268). -/
def recEnc (code : Nat) (sat : Bool) (v : FVal) : Nat :=
  match recFmt code with
  | some f => (f.ofVal 0 sat v 1#24).1
  | none =>
    let (lo, hi) := recRange code
    let w := if code = 8 then 4 else 8
    let x : Int := match v with
      | .nan => 0
      | .inf neg => if neg then lo else hi
      | .fin neg m e => max lo (min hi (roundInteger 0 neg ⟨m, e, false⟩ 1#24).1)
    (x % 2 ^ w).toNat

/-- What an element becomes whose source carries an error (R280). -/
def recPoison (code : Nat) : Nat := if isContainer code then 0 else (match recFmt code with | some f => f.nan | none => 0)

/-- A container of a code with elements from position 0 on (R63). -/
def recContainer (code : Nat) (elems : List Nat) : Nat :=
  let w := cWidth (tagOf code)
  makeContainer (tagOf code) (joinElems w elems.length fun i => elems.getD i 0)

/-- The elements of a container's payload. -/
def recElems (code c : Nat) : List Nat :=
  (List.range (epcOf code)).map fun i => cElem (tagOf code) (cPayload c) i

/-- The value of an E8M0 byte (R64). -/
def e8m0 (b : Nat) : FVal := if b = 0xFF then .nan else .fin false 1 ((b : Int) - 127)

/-! ### Places (R265, R267) -/

/-- Where an engine reads or writes an element: a virtual address, an offset of a workgroup's scratchpad, a pan row and
column, or nowhere, since it lies out of bounds. -/
inductive Loc where
  | mem (va : Nat)
  | sp (wg off : Nat)
  | pan (core row col : Nat)
  | clip
  deriving DecidableEq, Repr

/-- The virtual address of a place. -/
def Loc.va : Loc → Option Nat
  | .mem va => some va
  | _ => none

/-- The distinct pages of some places. -/
def locPages (ls : List Loc) : List Nat := distinctPages (ls.filterMap Loc.va)

/-- Reads n bytes of memory through a core's die (R202). -/
def State.engineRead (s : State) (core pa n : Nat) : Nat × Mark × State :=
  let (v, m, s) := (upFrom (wordOf pa) 4 ((pa + n - wordOf pa + 3) / 4)).foldl
    (fun (acc : Nat × Mark × State) a =>
      let (v, m, s) := acc.2.2.dieRead core a
      (acc.1 + v.toNat * 2 ^ (8 * (a - wordOf pa)), if acc.2.1 = .clean then m else acc.2.1, s)) (0, .clean, s)
  (v / 2 ^ (8 * (pa % 4)) % 2 ^ (8 * n), m, s)

/-- Writes n bytes of memory at their home slice (R202). -/
def State.engineWrite (s : State) (core pa v n : Nat) (i : WMeta) : State :=
  (upFrom (wordOf pa) 4 ((pa + n - wordOf pa + 3) / 4)).foldl (fun s a =>
    if a < pa ∨ pa + n < a + 4 then
      let (o, _, s) := s.homeRead core a
      let first := max a pa
      let last := min (a + 4) (pa + n)
      s.homeStore core a (mergeWord o (v / 2 ^ (8 * (first - pa)) % 2 ^ (8 * (last - first))) (first - a) (last - first)) i
        (a == wordOf pa || a % 64 == 0)
    else s.homeStore core a (BitVec.ofNat 32 (v / 2 ^ (8 * (a - pa)))) i (a == wordOf pa || a % 64 == 0)) s

/-- Reads n bytes at a place, after the events of a clock, with the translations of its page at hand. -/
def State.locRead (s : State) (h : Clock) (core : Nat) (xs : List (Nat × Xlat)) (l : Loc) (n : Nat) : Got × State :=
  match l with
  | .mem va =>
    match xlatOf xs va with
    | .ok pa _ _ => let (v, m, s) := s.engineRead core pa n; ({ val := v, mark := m, pa := some pa }, s)
    | _ => (.lost .walk, s)
  | .sp w off => ({ val := s.spRead w off n, mark := s.spMark w off n, pa := none }, s)
  | .pan c r col => let (v, m, s) := s.panGet h c r col n; ({ val := v, mark := m, pa := none }, s)
  | .clip => ({ val := 0, mark := .clean, pa := none }, s)

/-- Writes n bytes at a place; after the events of a clock; a write through a poisoned entry is dropped (R355). -/
def State.locWrite (s : State) (h : Clock) (core : Nat) (xs : List (Nat × Xlat)) (l : Loc) (v n : Nat) (i : WMeta) : State :=
  match l with
  | .mem va =>
    match xlatOf xs va with
    | .ok pa _ key => s.engineWrite core pa v n { i with va := va, key := key }
    | _ => s
  | .sp w off => s.spWrite w off v n i
  | .pan c r col => (s.panPut c r col v n).taintPan h (panWords c r col n)
  | .clip => s

end Sys2Proof.Machine
end

