-- ==== Sys2Proof/Machine/Copy.lean ====
section
/-!
DEFINITION. The copy engine: layout records (R262 to R264, R283), addressing (R265 to R267), the acceptance of a copy
(R276, R277), its rows (R268 to R275, R279, R280), its landing (R278) and the drain (R281).
-/

namespace Sys2Proof.Machine

/-! ### Layout records (R262) -/

/-- The fields of a layout record: extents, strides and box extents of the five dimensions, those beyond dims counting as
1, 0 and 1. -/
structure Lay where
  base : Nat
  aux : Nat
  size : List Nat
  stride : List Nat
  box : List Nat
  pitch : Nat
  dims : Nat
  sat : Bool
  swz : Nat
  skind : Nat
  lfmt : Nat
  tfmt : Nat
  deriving DecidableEq, Repr

/-- Bits hi to lo of a 64-bit word. -/
def dbits (w : DWord) (hi lo : Nat) : Nat := w.toNat / 2 ^ lo % 2 ^ (hi + 1 - lo)

/-- The five extents that a record holds, before dims is applied. -/
def rawSizes (w : Nat → DWord) : List Nat :=
  [dbits (w 2) 31 0, dbits (w 2) 63 32, dbits (w 3) 31 0, dbits (w 3) 63 32, dbits (w 4) 31 0]

/-- The five box fields that a record holds. -/
def rawBoxes (w : Nat → DWord) : List Nat :=
  [dbits (w 6) 39 32, dbits (w 6) 47 40, dbits (w 6) 55 48, dbits (w 6) 63 56, dbits (w 7) 7 0]

/-- The fields of a record of eight words. -/
def layOf (r : List DWord) : Lay :=
  let w (i : Nat) : DWord := r.getD i 0#64
  let n := dbits (w 7) 23 21
  let upto (d : Nat) (l : List Nat) : List Nat := (List.range 5).map fun k => if k < n then l.getD k d else d
  { base := (w 0).toNat, aux := (w 1).toNat, size := upto 1 (rawSizes w),
    stride := upto 0 [0, dbits (w 4) 63 32, dbits (w 5) 31 0, dbits (w 5) 63 32, dbits (w 6) 31 0],
    box := (rawBoxes w).map (· + 1), pitch := dbits (w 7) 35 24, dims := n, sat := (w 7).getLsbD 20,
    swz := dbits (w 7) 19 18, skind := dbits (w 7) 17 16, lfmt := dbits (w 7) 15 12, tfmt := dbits (w 7) 11 8 }

/-- The units of a tile row: elements of the tile, or its containers (R267). -/
def rowUnits (tfmt lfmt box0 : Nat) : Nat :=
  if isContainer tfmt && !isContainer lfmt then box0 * epcOf tfmt
  else if isContainer lfmt && !isContainer tfmt then box0 / epcOf lfmt
  else box0

/-- The length of a tile row in bytes (R267). -/
def rowLength (tfmt lfmt box0 : Nat) : Nat := rowUnits tfmt lfmt box0 * esOf lfmt

/-- The row pitch in bytes (R262). -/
def Lay.rowPitch (l : Lay) (length : Nat) : Nat := if l.pitch = 0 then (length + 15) / 16 * 16 else 16 * l.pitch

/-- The reason for which a record is invalid (R283). -/
def layBad (r : List DWord) : Option Nat :=
  let l := layOf r
  let w (i : Nat) : DWord := r.getD i 0#64
  let len := rowLength l.tfmt l.lfmt (l.box.getD 0 1)
  let p := l.rowPitch len
  if l.dims = 0 ∨ 5 < l.dims ∨ (List.range 5).any (fun k => l.dims ≤ k && (rawBoxes w).getD k 0 != 0) then some 1
  else if l.tfmt = 15 ∨ l.lfmt = 15 ∨ l.skind = 3 then some 2
  else if l.base % esOf l.tfmt ≠ 0 ∨ (l.tfmt = 9 ∧ l.aux % 16 ≠ 0) ∨ (l.skind = 2 ∧ l.aux % 4 ≠ 0) then some 3
  else if (List.range 5).any (fun k => k < l.dims && (rawSizes w).getD k 0 == 0) then some 4
  else if dbits (w 7) 63 36 ≠ 0 then some 5
  else if (l.pitch ≠ 0 ∧ p < len) ∨ (l.swz ≠ 0 ∧ p % (16 * 2 ^ l.swz) ≠ 0) then some 6
  else none

/-! ### A command's geometry (R265 to R267) -/

/-- The tensor's record. -/
def CopyCmd.l (c : CopyCmd) : Lay := layOf c.lay
/-- The record of a kind-2 tile. -/
def CopyCmd.l2 (c : CopyCmd) : Lay := layOf c.lay2
/-- The control word of the tile side (R266). -/
def CopyCmd.ctl (c : CopyCmd) : Word := c.quad.getD 1 0#32
/-- The kind of the tile side. -/
def CopyCmd.kind (c : CopyCmd) : Nat := (c.ctl.extractLsb' 28 4).toNat
/-- The tile address. -/
def CopyCmd.tile (c : CopyCmd) : Nat := (c.quad.getD 0 0#32).toNat
/-- The format on the tile side (R267). -/
def CopyCmd.lf (c : CopyCmd) : Nat := if c.kind = 2 then c.l2.tfmt else c.l.lfmt
/-- The format on the tensor side. -/
def CopyCmd.tf (c : CopyCmd) : Nat := c.l.tfmt
/-- The extent of the box along a dimension. -/
def CopyCmd.ext (c : CopyCmd) (k : Nat) : Nat := c.l.box.getD k 1
/-- The slices that a tile row sums: more than one in `sum` alone (R274). -/
def CopyCmd.slices (c : CopyCmd) : Nat := if c.form = 6 then c.ext 4 else 1
/-- The tile rows of one plane (R267). -/
def CopyCmd.nrows (c : CopyCmd) : Nat := c.ext 1 * c.ext 2 * c.ext 3 * (if c.form = 6 then 1 else c.ext 4)
/-- The tile rows of all planes. -/
def CopyCmd.total (c : CopyCmd) : Nat := c.planes * c.nrows
/-- The units of a tile row. -/
def CopyCmd.units (c : CopyCmd) : Nat := rowUnits c.tf c.lf (c.ext 0)
/-- The length of a tile row in bytes. -/
def CopyCmd.len (c : CopyCmd) : Nat := c.units * esOf c.lf
/-- The row pitch. -/
def CopyCmd.pitch (c : CopyCmd) : Nat := c.l.rowPitch c.len
/-- The footprint of one plane (R267). -/
def CopyCmd.footprint (c : CopyCmd) : Nat :=
  match c.kind with
  | 0 => c.nrows * c.pitch
  | 1 => c.nrows * 1024
  | _ => (c.nrows * c.len + 15) / 16 * 16

/-- The box index of a tile row: i1 to i4. -/
def CopyCmd.index (c : CopyCmd) (q : Nat) : List Nat :=
  [q % c.ext 1, q / c.ext 1 % c.ext 2, q / (c.ext 1 * c.ext 2) % c.ext 3, q / (c.ext 1 * c.ext 2 * c.ext 3)]

/-- An element of a tensor, plane j of it (R265, R267); nowhere where it lies out of bounds. The plane stride of a bit-plane record
is its aux, 0 included: R65 also names a default stride, and R267 gives base + j·aux (log entry 65). -/
def Lay.place (l : Lay) (x : List Int) (plane : Nat) : Loc :=
  if (List.range 5).all fun k => decide (0 ≤ x.getD k 0) && decide (x.getD k 0 < l.size.getD k 1) then
    .mem ((l.base + plane * l.aux + (x.getD 0 0).toNat * esOf l.tfmt +
      16 * ((List.range 5).map fun k => if k = 0 then 0 else (x.getD k 0).toNat * l.stride.getD k 0).sum) % 2 ^ 64)
  else .clip

/-- The workgroup and the offset there of a scratchpad address of a workgroup (R167). -/
def State.scratchSide (s : State) (w addr : Nat) : Nat × Nat :=
  if addr < 0x80000000 then (w, addr) else (((s.wg w).bind (·.peer)).getD w, addr - 0x80000000)

/-- The core and the physical row of a kind-1 address, and its column (R266). -/
def State.panSide (s : State) (w addr : Nat) : Nat × Nat × Nat :=
  let side := if addr < 0x80000000 then w else ((s.wg w).bind (·.peer)).getD w
  let (core, base) := ((s.wg side).map fun x => (x.core, x.panBase)).getD (0, 0)
  (core, base + addr % 1024, addr / 2 ^ 16 % 1024)

/-- The swizzled offset in row q of a byte of the row (R267). -/
def swizzle (swz q j : Nat) : Nat := 16 * (j / 16 ^^^ q % 2 ^ swz) + j % 16

/-- Where unit u of tile row q of a plane lies (R267). -/
def State.tileUnit (s : State) (c : CopyCmd) (plane q u : Nat) : Loc :=
  let j := swizzle c.l.swz q (u * esOf c.lf)
  match c.kind with
  | 0 =>
    let (w, off) := s.scratchSide c.wg c.tile
    .sp w (off + plane * c.footprint + q * c.pitch + j)
  | 1 =>
    let (core, row, col) := s.panSide c.wg c.tile
    .pan core (row + plane * c.nrows + q) (col + j)
  | _ =>
    c.l2.place ((u : Int) :: (c.index q).map fun (i : Nat) => (i : Int)) plane

/-- The elements of a block that shares an E8M0 scale (R64). -/
def blockOf (tfmt : Nat) : Nat := if isContainer tfmt then 1 else if esOf tfmt = 1 then 16 else 8

/-- Where byte i of the tile side's scale array lies (R273). -/
def State.tileScale (s : State) (c : CopyCmd) (q i : Nat) : Loc :=
  let addr := (c.quad.getD 3 0#32).toNat
  let blocks := c.ext 0 / blockOf c.tf
  match c.kind with
  | 0 => let (w, off) := s.scratchSide c.wg addr; .sp w (off + q * blocks + i)
  | 1 =>
    let (core, row, col) := s.panSide c.wg addr
    .pan core (row + (col + q * blocks + i) / 1024) ((col + q * blocks + i) % 1024)
  | _ => (layOf c.lay3).place ((i : Int) :: (c.index q).map fun (i : Nat) => (i : Int)) 0

/-- Where the scale of a tensor element lies (R268): a byte for its block, blocks counted along dimension 0 and held in
order row after row; or an f32 for its row. -/
def Lay.scalePlace (l : Lay) (x : List Int) : Loc :=
  let row := (x.getD 1 0).toNat + l.size.getD 1 1 * ((x.getD 2 0).toNat + l.size.getD 2 1 *
    ((x.getD 3 0).toNat + l.size.getD 3 1 * (x.getD 4 0).toNat))
  match l.place x 0 with
  | .clip => .clip
  | _ =>
    if l.skind = 2 then .mem ((l.aux + 4 * row) % 2 ^ 64)
    else
      let b := blockOf l.tfmt
      .mem ((l.aux + (x.getD 0 0).toNat / b + (l.size.getD 0 1 + b - 1) / b * row) % 2 ^ 64)

/-- The scratchpad lines that some places touch. -/
def locLines (ls : List Loc) : List (Nat × Nat) :=
  ls.foldl (fun acc l => match l with
    | .sp w off => if acc.contains (w, off / 128) then acc else acc ++ [(w, off / 128)]
    | _ => acc) []

/-- The pan rows that some places touch. -/
def locRows (ls : List Loc) : List (Nat × Nat) :=
  ls.foldl (fun acc l => match l with
    | .pan c r _ => if acc.contains (c, r) then acc else acc ++ [(c, r)]
    | _ => acc) []

/-- The places on the tile side that a load writes in one tile row. A fill takes the whole pitch of a scratchpad row, and
the bytes of a pan row from the column on, without swizzle (R275). -/
def State.tileWrites (s : State) (c : CopyCmd) (r : Nat) : List Loc :=
  let plane := r / c.nrows
  let q := r % c.nrows
  if c.store then []
  else if c.form = 5 ∧ c.kind = 0 then
    let (w, off) := s.scratchSide c.wg c.tile
    (upFrom 0 16 (c.pitch / 16)).map fun j => .sp w (off + plane * c.footprint + q * c.pitch + j)
  else if c.form = 5 ∧ c.kind = 1 then
    let (core, row, col) := s.panSide c.wg c.tile
    (List.range c.units).map fun u => .pan core (row + plane * c.nrows + q) (col + u * esOf c.lf)
  else
    let units := (List.range c.units).map (s.tileUnit c plane q)
    if c.form = 4 then units ++ (List.range (c.ext 0 / blockOf c.tf)).map (s.tileScale c q) else units

/-! ### Acceptance (R276, R277) -/

/-- The formats that take part in conversions (R268, R271). -/
def isNum (f : Nat) : Bool := decide (f ≤ 3) || f == 7 || f == 10
/-- The floating-point formats of R268's second row. -/
def isFloat (f : Nat) : Bool := decide (f ≤ 3) || f == 10
/-- The containers that are converted. -/
def isPacked (f : Nat) : Bool := f == 4 || f == 5 || f == 6 || f == 8

/-- A pair of formats that `tile` accepts (R268). -/
def pairOk (src dst : Nat) : Bool :=
  src == dst || (isNum src && isNum dst) || (isPacked src && isFloat dst) || (isFloat src && isPacked dst)

/-- Check 3 of R276: the reason for which formats, directions, scales or rows are refused. -/
def CopyCmd.formBad (c : CopyCmd) : Option Nat :=
  let l := c.l
  let (tf, lf) := (c.tf, c.lf)
  let (src, dst) := if c.store then (lf, tf) else (tf, lf)
  let col := c.tile / 2 ^ 16 % 1024
  let formats :=
    if c.form = 5 then !isContainer (if c.store then tf else lf)
    else if c.form = 4 then true
    else if c.form = 0 ∨ ((c.form = 1 ∨ c.form = 2) ∧ src = dst) then
      (c.form == 0 || isNum src) && pairOk src dst &&
        !(isContainer lf && !isContainer tf && c.ext 0 % epcOf lf != 0)
    else isNum src && isNum dst
  let direction := ((c.form = 1 ∨ c.form = 6) ∧ c.store) ∨ (c.form = 2 ∧ !c.store)
  let scales := l.skind ≠ 0 ∧ ((c.store ∧ c.form ≠ 4) ∨ tf = 9 ∨ 11 ≤ tf ∨ (l.skind = 1 ∧ tf = 10 ∧ c.form ≠ 4))
  let b := blockOf tf
  let rescale := c.form = 4 ∧ (l.skind ≠ 1 ∨ tf ≠ lf ∨ 8 < tf ∨ (c.coords.getD 0 0) % b ≠ 0 ∨ c.ext 0 % b ≠ 0)
  let unit := 16 * 2 ^ l.swz
  let rows := (c.kind = 0 ∧ (c.pitch < c.len ∨ c.pitch % unit ≠ 0)) ∨
    (c.kind = 1 ∧ (1024 - col < c.len ∨ col % unit ≠ 0))
  if !formats then some 8
  else if direction ∨ scales then some 10
  else if rescale then some 9
  else if rows then some 6
  else none

/-- Check 2 of R276: the control word or a tile address is malformed. -/
def CopyCmd.addressBad (c : CopyCmd) : Bool :=
  let bad (a : Nat) : Bool := match c.kind with
    | 0 => false
    | 1 => a % 2 ^ 16 / 2 ^ 10 != 0 || a / 2 ^ 26 % 2 ^ 5 != 0 || a / 2 ^ 16 % 16 != 0
    | _ => decide (16 ≤ a)
  c.ctl.extractLsb' 16 5 != 0#5 || decide (2 < c.kind) || bad c.tile ||
    (c.form == 4 && bad (c.quad.getD 3 0#32).toNat)

/-- The bytes of the tile side's scale array (R273). -/
def CopyCmd.scaleBytes (c : CopyCmd) : Nat := if c.form = 4 then c.nrows * (c.ext 0 / blockOf c.tf) else 0

/-- A stretch of a workgroup's own or its peer's scratchpad is not all allocated (R276). -/
def State.stretchBad (s : State) (c : CopyCmd) (addr n : Nat) : Bool :=
  let size := match (s.wg c.wg).bind fun x => mapFind s.grids x.grid with
    | some g => g.scratchBytes
    | none => 0
  let peer := ((s.wg c.wg).bind (·.peer)).isSome
  (decide (0x80000000 ≤ addr) && !peer) || decide (size < addr % 0x80000000 + n)

/-- The lowest and the highest byte that a box has in bounds; none where it has none (R276). -/
def Lay.span (l : Lay) (from_ : List Int) (ext : List Nat) (extra : Nat) : Option (Nat × Nat) :=
  let lo (k : Nat) : Int := max 0 (from_.getD k 0)
  let hi (k : Nat) : Int := min ((l.size.getD k 1 : Int) - 1) (from_.getD k 0 + ext.getD k 1 - 1)
  let step (k : Nat) : Nat := if k = 0 then esOf l.tfmt else 16 * l.stride.getD k 0
  if (List.range 5).any fun k => decide (hi k < lo k) then none
  else
    some (l.base + ((List.range 5).map fun k => (lo k).toNat * step k).sum,
      l.base + ((List.range 5).map fun k => (hi k).toNat * step k).sum + esOf l.tfmt - 1 + extra)

/-- The boxes of a command's tensors: the record's own, and a kind-2 tile's. -/
def CopyCmd.boxes (c : CopyCmd) : List (Lay × List Int × List Nat) :=
  let e (k : Nat) : Nat := c.ext k
  let own := if c.form = 1 ∨ c.form = 2 then
      (c.l, [c.coords.getD 0 0, 0, c.coords.getD 2 0, c.coords.getD 3 0, c.coords.getD 4 0],
        [e 0, c.l.size.getD 1 1, e 2, e 3, e 4])
    else (c.l, c.coords, [e 0, e 1, e 2, e 3, e 4])
  own :: (if c.kind = 2 then [(c.l2, [0, 0, 0, 0, 0], [c.units, e 1, e 2, e 3, if c.form = 6 then 1 else e 4])] else [])

/-- Check 7 of R276: a code and an address. -/
def CopyCmd.rangeBad (c : CopyCmd) : Option (Nat × Nat) :=
  c.boxes.findSome? fun (l, x, e) =>
    match l.span x e ((c.planes - 1) * l.aux) with
    | none => none
    | some (a, b) =>
      if !canonical (a % 2 ^ 64) then some (codeNoncanonical, a % 2 ^ 64)
      else if 2 ^ 64 ≤ b then some (codeVaWrap, a % 2 ^ 64)
      else if !canonical b then some (codeNoncanonical, b)
      else none

/-- The first check of R276 that fails, as code, detail and address. -/
def State.copyBad (s : State) (I : Iss) (c : CopyCmd) (slot : Nat) : Option (Nat × Nat × Option Nat) :=
  let invalid (r : Nat) : Option (Nat × Nat × Option Nat) := some (codeLayoutInvalid, r + 16 * slot, none)
  let idx := (c.quad.getD 2 0#32).toNat
  let scales := (c.quad.getD 3 0#32).toNat
  let listed := c.form = 1 ∨ c.form = 2
  let prows := ((s.wg c.wg).map (·.panRows)).getD 0
  let peer := ((s.wg c.wg).bind (·.peer)).isSome
  let rowsBad (addr n : Nat) : Bool := decide (prows < addr % 1024 + n) || (decide (0x80000000 ≤ addr) && !peer)
  if c.lay = [] ∨ (c.kind = 2 ∧ (c.lay2 = [] ∨ c.l2.box ≠ c.l.box ∨ (c.form = 4 ∧ c.lay3 = []))) then invalid 7
  else if c.addressBad then invalid 11
  else match c.formBad with
  | some r => invalid r
  | none =>
    if c.tf = 9 ∧ (c.planes < 2 ∨ 8 < c.planes) then some (codeReservedField, 0, none)
    else if c.kind = 0 ∧ (c.tile % 16 ≠ 0 ∨ (c.form = 4 ∧ scales % 16 ≠ 0)) then some (codeMisaligned, 0, none)
    else if listed ∧ idx % 4 ≠ 0 then some (codeMisaligned, 0, none)
    else if c.kind = 0 ∧ s.stretchBad c c.tile (c.planes * c.footprint) then some (codeScratchBound, c.tile, none)
    else if c.kind = 0 ∧ s.stretchBad c scales c.scaleBytes ∧ c.form = 4 then some (codeScratchBound, scales, none)
    else if listed ∧ (s.stretchBad c idx (4 * c.ext 1) ∨ 0x80000000 ≤ idx) then some (codeScratchBound, idx, none)
    else if c.kind = 1 ∧ rowsBad c.tile c.total then some (codePanBound, c.tile % 1024, none)
    else if c.kind = 1 ∧ c.form = 4 ∧ rowsBad scales ((scales / 2 ^ 16 % 1024 + c.scaleBytes + 1023) / 1024) then
      some (codePanBound, scales % 1024, none)
    else match c.rangeBad with
    | some (code, va) => some (code, 0, some va)
    | none =>
      let bscope := (c.ctl.extractLsb' 21 3).toNat
      let bidx := (c.ctl.extractLsb' 24 4).toNat
      if bscope ≠ 0 ∧ (s.barKey I.G bscope bidx).isNone then some (codeBarrierInvalid, 0, none) else none

/-- How many commands owe a fill to a scratchpad line (R277). -/
def State.owedLine (s : State) (w line : Nat) : Nat := ((s.wg w).map fun x => mapGet x.pendLines line 0).getD 0

/-- Adds to the counts of lines and rows. -/
def State.owe (s : State) (lines rows : List (Nat × Nat)) : State :=
  let s := lines.foldl (fun s l => s.modWg l.1 fun x =>
    { x with pendLines := mapSet x.pendLines l.2 (mapGet x.pendLines l.2 0 + 1) }) s
  { s with pendRows := rows.foldl (fun m r => mapSet m r (mapGet m r 0 + 1)) s.pendRows }

/-- Lowers a count of a map; a count of 0 is not listed. -/
def lowerCount {κ : Type} [DecidableEq κ] (m : Map κ Nat) (k : κ) : Map κ Nat :=
  let n := mapGet m k 0 - 1
  if n = 0 then mapDel m k else mapSet m k n

/-- Lowers the counts of lines and rows; a `pan.ld` reads the rows that are full again (R277, R305). -/
def State.settleDebt (s : State) (lines rows : List (Nat × Nat)) : State :=
  let s := lines.foldl (fun s l => s.modWg l.1 fun x => { x with pendLines := lowerCount x.pendLines l.2 }) s
  ({ s with pendRows := rows.foldl lowerCount s.pendRows }).readRows

/-- The distinct members of a list of pairs. -/
def distinctPairs (l : List (Nat × Nat)) : List (Nat × Nat) :=
  l.foldl (fun acc x => if acc.contains x then acc else acc ++ [x]) []

/-- The tile rows that a command has not done yet: those that it has passed over while they wait for a page, and the rest. -/
def CopyCmd.left (c : CopyCmd) : List Nat := c.passed ++ upFrom c.next 1 (c.total - c.next)

/-- The lines and rows that some tile rows write. -/
def State.owedFrom (s : State) (c : CopyCmd) (left : List Nat) : List (Nat × Nat) × List (Nat × Nat) :=
  let ls := left.map fun r => s.tileWrites c r
  (distinctPairs (ls.flatMap locLines), distinctPairs (ls.flatMap locRows))

/-- The entries of a copy queue that a group may use (R15). -/
def copyRoom (trapped : Bool) : Nat := if trapped then 32 else 31

/-- A `cpy` word: the acceptance of one command (R260, R276). -/
def State.copyWord (s : State) (I : Iss) (d a : BitVec 5) (slot form : Nat) (lead store e : Bool) : State :=
  s.engineWord I lead (I.descNeed [quadOp d, quadOp a]) e fun s =>
    let quad := I.descs (quadOp d).n 4
    let ctl := quad.getD 1 0#32
    let layout (n : Nat) : List DWord := ((s.wg I.G.wg).bind fun x => mapFind x.slots n).getD []
    let tf := (layOf (layout slot)).tfmt
    let coords := (I.descs (quadOp a).n 4).map BitVec.toInt
    let c : CopyCmd :=
      { id := s.nextUid, core := I.core, wg := I.G.wg, group := I.agid, ctx := I.G.ctx, pc := I.S.pc,
        count := (I.acting s).executed, form := form, store := store, lay := layout slot,
        lay2 := layout ((quad.getD 0 0#32).toNat % 16), lay3 := layout ((quad.getD 3 0#32).toNat % 16),
        coords := coords ++ [(ctl.extractLsb' 0 16).toInt], quad := quad,
        planes := if tf = 9 then (I.S.fmt.extractLsb' 12 4).toNat else 1, bar := none, lines := [], rows := [], next := 0,
        delivers := true, recorded := [], loc := I.G.loc I.sid, queue := s.queueOf I.G, clock := s.clockOf I.agid }
    match s.copyBad I c slot with
    | some (code, detail, va) => s.refuseCommand I code 3 detail va
    | none =>
      let (lines, rows) := s.owedFrom c c.left
      if !s.portOpen I 3 I.core (fun trapped => (s.copies.filter fun x => x.core == I.core).length < copyRoom trapped) ∨
          (lines.any fun l => decide (15 ≤ s.owedLine l.1 l.2)) ∨ (rows.any fun r => decide (15 ≤ mapGet s.pendRows r 0)) then
        s.awaitPort I 3 I.core
      else
        let s := s.releaseBy I 4
        let bscope := (ctl.extractLsb' 21 3).toNat
        let c := { c with lines := lines, rows := rows,
                          bar := if bscope = 0 then none else s.barKey I.G bscope (ctl.extractLsb' 24 4).toNat }
        let s := s.owe lines rows
        { s with copies := s.copies ++ [c], nextUid := s.nextUid + 1 }.newRegion I e

/-- CPY_TILE (R269). -/
def execCpyTile (d a : BitVec 5) (n : BitVec 4) (l r e : Bool) (s : State) : Host.Outcome State Fault Refusal :=
  s.withIss fun I => s.copyWord I d a n.toNat 0 l r e

/-- CPY_GATHER (R270). -/
def execCpyGather (d a : BitVec 5) (n : BitVec 4) (l r e : Bool) (s : State) : Host.Outcome State Fault Refusal :=
  s.withIss fun I => s.copyWord I d a n.toNat 1 l r e

/-- CPY_SCATTER (R270). -/
def execCpyScatter (d a : BitVec 5) (n : BitVec 4) (l r e : Bool) (s : State) : Host.Outcome State Fault Refusal :=
  s.withIss fun I => s.copyWord I d a n.toNat 2 l r e

/-- CPY_AXPB (R272). -/
def execCpyAxpb (d a : BitVec 5) (n : BitVec 4) (l r e : Bool) (s : State) : Host.Outcome State Fault Refusal :=
  s.withIss fun I => s.copyWord I d a n.toNat 3 l r e

/-- CPY_RESCALE (R273). -/
def execCpyRescale (d a : BitVec 5) (n : BitVec 4) (l r e : Bool) (s : State) : Host.Outcome State Fault Refusal :=
  s.withIss fun I => s.copyWord I d a n.toNat 4 l r e

/-- CPY_FILL (R275). -/
def execCpyFill (d a : BitVec 5) (n : BitVec 4) (l r e : Bool) (s : State) : Host.Outcome State Fault Refusal :=
  s.withIss fun I => s.copyWord I d a n.toNat 5 l r e

/-- CPY_SUM (R274). -/
def execCpySum (d a : BitVec 5) (n : BitVec 4) (l r e : Bool) (s : State) : Host.Outcome State Fault Refusal :=
  s.withIss fun I => s.copyWord I d a n.toNat 6 l r e

/-! ### Records of a running copy (R280) -/

/-- The record of a running copy. -/
def State.copyRec (s : State) (c : CopyCmd) (code cls src : Nat) (va pa : Option Nat) : ErrRec where
  queue := c.queue
  ctx := none
  seq := 0
  src := src
  cls := cls
  code := code
  pc := some c.pc
  va := va
  pa := pa
  tmask := 0#32
  loc := c.loc
  skid := s.skidOf c.group c.count
  time := 0
  detail := 0
  die := dieOfCore c.core

/-- The line of a place, by which its error is recorded once (R280). -/
def Loc.key (l : Loc) (pa : Option Nat) : Nat × Nat :=
  match l with
  | .sp w off => (w + 1, off / 64)
  | .pan c r col => (2 ^ 64 + c, r * 16 + col / 64)
  | .mem va => (0, (pa.getD va) / 64)
  | .clip => (0, 0)

/-- Notes the error that a place carried (R280). -/
def State.copyNote (s : State) (c : CopyCmd) (l : Loc) (g : Got) : State × CopyCmd :=
  if g.mark = .clean ∨ c.recorded.contains (l.key g.pa) then (s, c)
  else
    (s.record (s.copyRec c g.mark.code 2 (g.mark.src 3) l.va g.pa),
      { c with recorded := l.key g.pa :: c.recorded })

/-- Reads n bytes at each of some places, noting the errors met. -/
def State.copyReads (s : State) (c : CopyCmd) (xs : List (Nat × Xlat)) (n : Nat) :
    List Loc → State × CopyCmd × List Got
  | [] => (s, c, [])
  | l :: r =>
    let (g, s) := s.locRead c.clock c.core xs l n
    let (s, c) := s.copyNote c l g
    let (s, c, gs) := s.copyReads c xs n r
    (s, c, g :: gs)

/-- What a copy's write carries (R443, R444). -/
def CopyCmd.info (c : CopyCmd) : WMeta where
  core := c.core
  ctx := c.ctx
  key := 0
  va := 0
  pc := c.pc
  group := c.group
  count := c.count
  loc := c.loc
  queue := c.queue
  src := 3

/-- Writes n bytes at each of some places; a write through a poisoned entry, of memory or of a window line, is dropped and
recorded (R355). -/
def State.copyWrites (s : State) (c : CopyCmd) (ys : List (Nat × Xlat)) (gone : List (Nat × Nat)) (n : Nat) (ls : List Loc)
    (vs : List Nat) : State × CopyCmd :=
  (ls.zip vs).foldl (fun (acc : State × CopyCmd) (l, v) =>
    let lost : Bool := match l with
      | .mem va => xlatOf ys va == .poison
      | .sp w off => gone.contains (w, off / 128)
      | _ => false
    if lost then acc.1.copyNote acc.2 l (.lost .walk)
    else (acc.1.locWrite c.clock c.core ys l v n c.info, acc.2)) (s, c)

/-! ### One tile row (R268 to R275) -/

/-- How far a tile row gets: it is done; it waits, for a place on the tile side or for some pages; or it stops the command with a
fault at an address. -/
inductive RowEnd where
  | done (c : CopyCmd)
  | wait
  | pages (vas : List Nat)
  | stop (code detail : Nat) (va pa : Option Nat)
  deriving DecidableEq, Repr

/-- The values of a source's units; none for an element that carries an error. A container of another format stops the
command, one that fails its parity is read as zeros and recorded (R63, R280). -/
def State.unitValues (s : State) (c : CopyCmd) (code : Nat) :
    List (Loc × Got) → State × Except (Nat × Loc × Option Nat) (List (Option FVal))
  | [] => (s, .ok [])
  | (l, g) :: r =>
    let this : State × Except (Nat × Loc × Option Nat) (List (Option FVal)) :=
      if l = .clip then (s, .ok (List.replicate (epcOf code) (some (.fin false 0 0))))
      else if g.mark ≠ .clean then (s, .ok (List.replicate (epcOf code) none))
      else if !isContainer code then (s, .ok [some (recVal code g.val)])
      else if cTag g.val ≠ tagOf code then (s, .error (codeContainer, l, g.pa))
      else if cFailing g.val ≠ 0 then
        (s.record (s.copyRec c codeParity 2 3 l.va g.pa), .ok (List.replicate (epcOf code) (some (.fin false 0 0))))
      else (s, .ok ((recElems code g.val).map fun x => some (recVal code x)))
    match this with
    | (s, .error x) => (s, .error x)
    | (s, .ok v) =>
      match s.unitValues c code r with
      | (s, .error x) => (s, .error x)
      | (s, .ok vs) => (s, .ok (v ++ vs))

/-- Cuts a list into pieces of n. -/
def chunks (n : Nat) (l : List Nat) : Nat → List (List Nat)
  | 0 => []
  | k + 1 => l.take n :: chunks n (l.drop n) k

/-- Values as the units of a destination (R268, R280). -/
def unitsFrom (code : Nat) (sat : Bool) (n : Nat) (vs : List (Option FVal)) : List Nat :=
  let enc := vs.map fun v => match v with
    | some v => recEnc code sat v
    | none => recPoison code
  if isContainer code then (chunks (epcOf code) enc n).map (recContainer code) else enc

/-- Multiplies values by the scales of their units (R268). -/
def applyScales (per : Nat) (vs : List (Option FVal)) (scales : List (Option FVal)) : List (Option FVal) :=
  (List.range vs.length).map fun i =>
    match vs.getD i none, scales.getD (i / per) (some (.fin false 1 0)) with
    | some v, some x => some (v.mul x)
    | _, _ => none

/-- The largest finite value of a format (R273). -/
def recMax (code : Nat) : FVal :=
  match recFmt code with
  | some f => f.value f.maxFinite
  | none => .ofInt (recRange code).2

/-- v · 2^n. -/
def FVal.shift (v : FVal) (n : Int) : FVal :=
  match v with
  | .fin s m e => .fin s m (e + n)
  | v => v

/-- The magnitude of a value. -/
def FVal.mag : FVal → FVal
  | .nan => .nan
  | .inf _ => .inf false
  | .fin _ m e => .fin false m e

/-- The scale byte under which the largest magnitude of a block fits its format (R273). -/
def scaleFor (mx top : FVal) : Nat :=
  match mx, top with
  | .fin _ 0 _, _ => 127
  | .fin _ m e, .fin _ n f =>
    let t0 : Int := (bitLen m + e) - (bitLen n + f)
    let fits (t : Int) : Bool := !(top.shift t).lt mx
    let t := if fits (t0 - 1) then t0 - 1 else if fits t0 then t0 else t0 + 1
    (max 0 (min 254 (127 + t))).toNat
  | _, _ => 254

/-- A rescaled block: its elements and its scale byte (R273). -/
def rescaleBlock (code old : Nat) (vs : List (Option FVal)) : List Nat × Nat :=
  let scaled := vs.map fun v => v.map fun v => v.mul (e8m0 old)
  let known := scaled.filterMap id
  if old = 0xFF ∨ known.any (· == .nan) then (vs.map fun v => if v.isNone then recPoison code else 0, 0xFF)
  else
    let mx := known.foldl (fun (m : FVal) v => if m.lt v.mag then v.mag else m) (.fin false 0 0)
    let new := scaleFor mx (recMax code)
    (scaled.map fun v => match v with
      | some v => recEnc code true (v.shift (127 - (new : Int)))
      | none => recPoison code, new)

/-- What a tile row of a copy reads and writes: the units of each source slice, of the destination, the scales of the
tensor's units, and for `rescale` the scale bytes read and written. -/
structure RowPlan where
  src : List (List Loc)
  dst : List Loc
  scales : List Loc
  inScales : List Loc
  outScales : List Loc
  deriving DecidableEq, Repr

/-- The plan of tile row r, with x1 of an index list where the form has one. -/
def State.rowPlan (s : State) (c : CopyCmd) (r : Nat) (x1 : Option Int) : RowPlan :=
  let plane := r / c.nrows
  let q := r % c.nrows
  let i := c.index q
  let co (k : Nat) : Int := c.coords.getD k 0
  let x (i0 i4 : Nat) : List Int :=
    [co 0 + i0, x1.getD (co 1 + (i.getD 0 0 : Nat)), co 2 + (i.getD 1 0 : Nat), co 3 + (i.getD 2 0 : Nat), co 4 + i4]
  let i4s := if c.form = 6 then List.range c.slices else [i.getD 3 0]
  let tensor := i4s.map fun i4 => (List.range (c.ext 0)).map fun i0 => c.l.place (x i0 i4) plane
  let tile := (List.range c.units).map (s.tileUnit c plane q)
  let b := blockOf c.tf
  let blocks := c.ext 0 / b
  let tensorScales := (List.range blocks).map fun k => c.l.scalePlace (x (k * b) (i4s.headD 0))
  let tileScales := (List.range blocks).map (s.tileScale c q)
  let scaled := c.l.skind ≠ 0 ∧ !c.store ∧ c.form ≠ 4 ∧ c.form ≠ 5 ∧ (c.form = 3 ∨ c.tf ≠ c.lf)
  { src := if c.form = 5 then [] else if c.store then [tile] else tensor
    dst := if c.store then tensor.headD [] else if c.form = 5 ∧ c.kind ≠ 2 then s.tileWrites c r else tile
    scales := if scaled then i4s.flatMap fun i4 => (List.range (c.ext 0)).map fun i0 => c.l.scalePlace (x i0 i4) else []
    inScales := if c.form ≠ 4 then [] else if c.store then tileScales else tensorScales
    outScales := if c.form ≠ 4 then [] else if c.store then tensorScales else tileScales }

/-- β of `axpb` is +0: the destination is not read (R272). -/
def CopyCmd.readsDst (c : CopyCmd) : Bool := c.form == 3 && c.quad.getD 3 0#32 != 0#32

/-- A place on the tile side stops a row: an earlier command still owes its line or row a fill, or, where the command
does not owe it one itself, any command does (R277, R279). -/
def State.placeBusy (s : State) (c : CopyCmd) (l : Loc) : Bool :=
  let before := s.copies.takeWhile fun x => x.id != c.id
  match l with
  | .sp w off =>
    let k := (w, off / 128)
    if c.lines.contains k then before.any fun x => x.lines.contains k else decide (0 < s.owedLine w (off / 128))
  | .pan core row _ =>
    let k := (core, row)
    if c.rows.contains k then before.any fun x => x.rows.contains k else decide (0 < mapGet s.pendRows k 0)
  | _ => false

/-- Makes the window lines that some places lie in present (R179, R279); it answers the translations that stop it, and the lines
whose writes a poisoned table entry drops (R355). -/
def State.copyWindows (s : State) (c : CopyCmd) (write : Bool) (ls : List Loc) :
    State × List (Nat × Xlat) × List (Nat × Nat) :=
  let lines := (locLines ls).filterMap fun (w, line) =>
    ((s.wg w).bind fun x => x.windowAt (line * 128)).map fun _ => (w, line * 128)
  -- a landing that this command itself owes a line does not hold it back
  let wgs := lines.foldl (fun (acc : List Nat) l => if acc.contains l.1 then acc else l.1 :: acc) []
  let old := wgs.map fun w => (w, ((s.wg w).map (·.pendLines)).getD [])
  let s := wgs.foldl (fun s w => s.modWg w fun x => { x with pendLines := [] }) s
  let (s, bad) := s.spPrepareAll (engineTlbs c.core) write lines
  let s := old.foldl (fun s y => s.modWg y.1 fun x => { x with pendLines := y.2 }) s
  (s, bad.filterMap fun (_, _, r) => match r with
    | .fault va x => some (va, x)
    | _ => none,
  bad.filterMap fun (w, line, r) => match r with
    | .lost _ => some (w, line / 128)
    | _ => none)

/-- What a command's translations say: nothing stops it, it waits for pages, or it stops (R280). -/
def State.pagesStop (s : State) (c : CopyCmd) (xs : List (Nat × Xlat)) (ls : List Loc) : State × Option RowEnd :=
  let absent := (xs.filter fun x => x.2 == .absent).map fun x => (pageOf x.1, 0#32)
  let moving := (xs.filter fun x => x.2 == .moving).map fun x => pageOf x.1
  let refused := xs.findSome? fun (va, x) =>
    let at_ := ((ls.filterMap Loc.va).find? fun a => pageOf a == va).getD va
    match x with
    | .prot r l => some (at_, r + 16 * l)
    | .ok pa _ _ => if inWindow pa then some (at_, 9 + 16 * s.leafLevel c.ctx va) else none
    | _ => none
  match refused with
  | some (va, d) => (s, some (.stop codeProtection d (some va) (s.leafFrame (engineTlbs c.core) c.ctx va)))
  | none =>
    if absent = [] ∧ moving = [] then (s, none)
    else
      ((s.settleMoving (engineTlbs c.core) c.ctx xs).requestPages c.ctx (s.copyRec c codePageAbsent 0 7 none none) absent,
        some (.pages (absent.map (·.1) ++ moving)))

/-- The translations that a command finds for some pages: those that it keeps, else what its core's engine looks up (R363). -/
def State.copyLook (s : State) (c : CopyCmd) (write : Bool) : List Nat → State × List (Nat × Xlat)
  | [] => (s, [])
  | page :: r =>
    let (s, x) := match c.kept.find? fun k => k.1 == page && k.2.1 == write with
      | some (_, _, pa, policy, key) => (s, Xlat.ok pa policy key)
      | none => s.look (engineTlbs c.core) c.ctx page { write := write, fetch := false, keys := true }
    let (s, xs) := s.copyLook c write r
    (s, (page, x) :: xs)

/-- The command performs accesses through some translations: their bits are set, and it keeps them until it has finished with
their pages (R357, R363). -/
def State.copyKeep (s : State) (c : CopyCmd) (write : Bool) (xs : List (Nat × Xlat)) : State × CopyCmd :=
  let new := xs.filter fun x => !c.kept.any fun k => k.1 == x.1 && k.2.1 == write
  (s.settlePages (engineTlbs c.core) c.ctx { write := write, fetch := false, keys := true } new,
    { c with kept := c.kept ++ new.filterMap fun x => match x.2 with
        | .ok pa policy key => some (x.1, write, pa, policy, key)
        | _ => none })

/-- The index list of a command names the rows that it reads or writes. -/
def CopyCmd.listed (c : CopyCmd) : Bool := c.form == 1 || c.form == 2

/-- The places of memory that the plan of a tile row names. -/
def RowPlan.pages (p : RowPlan) : List Nat := locPages (p.src.flatten ++ p.scales ++ p.inScales ++ p.dst ++ p.outScales)

/-- A command has finished with the pages that none of its other rows names; with an index list, only when it is done (R363). -/
def State.copyRelease (s : State) (c : CopyCmd) : CopyCmd :=
  if c.listed then c
  else
    let pages := c.left.flatMap fun r => (s.rowPlan c r none).pages
    { c with kept := c.kept.filter fun k => pages.contains k.1 }

/-- The end of tile row r: lines and rows that no other row writes are full (R277). -/
def State.rowDone (s : State) (c : CopyCmd) (r : Nat) : State × RowEnd :=
  let c := { c with passed := c.passed.filter (· != r), next := if r = c.next then c.next + 1 else c.next }
  let c := { c with waits := if c.passed = [] then [] else c.waits }
  let (lines, rows) := s.owedFrom c c.left
  let l := c.lines.filter fun l => !lines.contains l
  let r := c.rows.filter fun r => !rows.contains r
  let s := (s.noteLanded (l.map (fun x => (0, x)) ++ r.map fun x => (1, x)) c.clock).settleDebt l r
  (s, .done (s.copyRelease { c with lines := c.lines.filter lines.contains, rows := c.rows.filter rows.contains }))

/-- The value units that a row writes, by its form (R269 to R275). The state and command carry the records made. -/
def State.rowValues (s : State) (c : CopyCmd) (xs : List (Nat × Xlat)) (p : RowPlan) :
    State × CopyCmd × Except (Nat × Loc × Option Nat) (List Nat) :=
  let (sf, df) := if c.store then (c.lf, c.tf) else (c.tf, c.lf)
  let n := p.dst.length
  let (s, c, got) := s.copyReads c xs (esOf sf) p.src.flatten
  let units := p.src.flatten.zip got
  let (s, c, sc) := s.copyReads c xs (if c.l.skind = 2 then 4 else 1) p.scales
  let scales := sc.map fun g => if g.mark ≠ .clean then none
    else some (if c.l.skind = 2 then Fmt.f32.value g.val else e8m0 g.val)
  let scales := (p.scales.zip scales).map fun (l, v) => if l = .clip then some (.fin false 1 0) else v
  if c.form ≤ 2 ∧ sf = df then
    (s, c, .ok (units.map fun (l, g) =>
      if l = .clip ∨ g.mark ≠ .clean then
        (if isContainer sf then recContainer sf [] else if l = .clip then 0 else recPoison sf)
      else g.val))
  else
    match s.unitValues c sf units with
    | (s, .error x) => (s, c, .error x)
    | (s, .ok vs) =>
      let vs := if p.scales = [] then vs else applyScales (epcOf sf) vs scales
      if c.form = 3 then
        let f (i : Nat) : FVal := Fmt.f32.value (c.quad.getD i 0#32).toNat
        let (s, c, old) := if c.readsDst then s.copyReads c xs (esOf df) p.dst else (s, c, [])
        let at_ (i : Nat) : Option FVal :=
          match vs.getD i none, old[i]? with
          | some v, none => some (sumVals 0 [(f 2).mul v])
          | some v, some g =>
            if g.mark ≠ .clean then none else some (sumVals 0 [(f 2).mul v, (f 3).mul (recVal df g.val)])
          | none, _ => none
        (s, c, .ok (unitsFrom df c.l.sat n ((List.range n).map at_)))
      else if c.form = 6 then
        let toF (v : Option FVal) : FVal := match v with
          | some v => Fmt.f32.value (Fmt.f32.ofVal 0 false v 1#24).1
          | none => .nan
        let slice (k i : Nat) : Option FVal := vs.getD (k * c.ext 0 + i) none
        let at_ (i : Nat) : FVal := (upFrom 1 1 (c.slices - 1)).foldl (fun (a : FVal) k =>
          match slice k i with
          | some v => Fmt.f32.value (Fmt.f32.ofVal 0 false (sumVals 0 [a, v]) 1#24).1
          | none => .nan) (toF (slice 0 i))
        (s, c, .ok (unitsFrom df c.l.sat n ((List.range n).map fun i => some (at_ i))))
      else (s, c, .ok (unitsFrom df c.l.sat n vs))

/-- A row of `rescale`: the new units and scale bytes (R273). -/
def State.rowRescale (s : State) (c : CopyCmd) (xs : List (Nat × Xlat)) (p : RowPlan) :
    State × CopyCmd × Except (Nat × Loc × Option Nat) (List Nat × List Nat) :=
  let code := c.tf
  let src := p.src.flatten
  let (s, c, got) := s.copyReads c xs (esOf code) src
  let (s, c, sc) := s.copyReads c xs 1 p.inScales
  match s.unitValues c code (src.zip got) with
  | (s, .error x) => (s, c, .error x)
  | (s, .ok vs) =>
    let per := blockOf code * epcOf code
    let out := (List.range p.inScales.length).map fun k =>
      let block := (vs.drop (k * per)).take per
      let g := sc.getD k { val := 127, mark := .clean, pa := none }
      if p.inScales.getD k .clip = .clip then rescaleBlock code 127 block
      else if g.mark ≠ .clean then rescaleBlock code 127 (block.map fun _ => none)
      else rescaleBlock code g.val block
    let elems := out.flatMap (·.1)
    let units := if isContainer code then (chunks (epcOf code) elems p.dst.length).map (recContainer code) else elems
    (s, c, .ok (units, out.map (·.2)))

/-- The value that a fill writes at one place of n bytes (R275). -/
def CopyCmd.fillValue (c : CopyCmd) (n : Nat) : Nat :=
  let es := esOf (if c.store then c.tf else c.lf)
  let v := ((c.quad.getD 2 0#32).toNat + (c.quad.getD 3 0#32).toNat * 2 ^ 32) % 2 ^ (8 * es)
  joinElems (8 * es) (n / es) fun _ => v

/-- The index entry of tile row r (R270). -/
def CopyCmd.entry (c : CopyCmd) (r : Nat) : Loc := .sp c.wg ((c.quad.getD 2 0#32).toNat + 4 * (r % c.nrows % c.ext 1))

/-- The row that the index list gives tile row r; one that carries an error clips the whole row (R270, R280). -/
def State.rowIndex (s : State) (c : CopyCmd) (r : Nat) : Option Int :=
  if c.listed then
    let (g, _) := s.locRead c.clock c.core [] (c.entry r) 4
    some (if g.mark = .clean then (BitVec.ofNat 32 g.val).toInt else -1)
  else none

/-- The values and writes of tile row r, whose places are all reached. -/
def State.rowBody (s : State) (c : CopyCmd) (r : Nat) (p : RowPlan) (xs ys : List (Nat × Xlat)) (gone : List (Nat × Nat)) :
    State × RowEnd :=
  let fail (x : Nat × Loc × Option Nat) : RowEnd := .stop x.1 0 x.2.1.va x.2.2
  if c.form = 5 then
    let n := if !c.store ∧ c.kind = 0 then 16 else esOf (if c.store then c.tf else c.lf)
    let (s, c) := s.copyWrites c ys gone n p.dst (p.dst.map fun _ => c.fillValue n)
    s.rowDone c r
  else if c.form = 4 then
    match s.rowRescale c xs p with
    | (s, _, .error x) => (s, fail x)
    | (s, c, .ok (units, bytes)) =>
      let (s, c) := s.copyWrites c ys gone (esOf c.tf) p.dst units
      let (s, c) := s.copyWrites c ys gone 1 p.outScales bytes
      s.rowDone c r
  else
    match s.rowValues c xs p with
    | (s, _, .error x) => (s, fail x)
    | (s, c, .ok units) =>
      let (s, c) := s.copyWrites c ys gone (esOf (if c.store then c.tf else c.lf)) p.dst units
      s.rowDone c r

/-- Tile row r of a command: waits, translation, values and writes. The line of its index entry is filled before the entry is
read (R179, R270). -/
def State.copyRow (s : State) (c : CopyCmd) (r : Nat) : State × RowEnd :=
  let entries := if c.listed then [c.entry r] else []
  if entries.any (s.placeBusy c) then (s, .wait)
  else
    let (s, es, _) := s.copyWindows c false entries
    match s.pagesStop c es entries with
    | (s, some x) => (s, x)
    | (s, none) =>
      let p := s.rowPlan c r (s.rowIndex c r)
      let reads := p.src.flatten ++ p.scales ++ p.inScales ++ (if c.readsDst then p.dst else [])
      let writes := p.dst ++ p.outScales
      if (reads ++ writes).any (s.placeBusy c) then (s, .wait)
      else
        let (s, xs) := s.copyLook c false (locPages reads)
        let (s, ys) := s.copyLook c true (locPages writes)
        match s.pagesStop c (xs ++ ys) (reads ++ writes) with
        | (s, some x) => (s, x)
        | (s, none) =>
          let (s, ws, _) := s.copyWindows c false reads
          let (s, vs, gone) := s.copyWindows c true writes
          match s.pagesStop c (ws ++ vs) (reads ++ writes) with
          | (s, some x) => (s, x)
          | (s, none) =>
            let (s, c) := s.copyKeep c false xs
            let (s, c) := s.copyKeep c true ys
            let (s, c) := entries.foldl (fun (acc : State × CopyCmd) l =>
              let (g, s) := acc.1.locRead c.clock c.core [] l 4
              s.copyNote acc.2 l g) (s, c)
            s.rowBody c r p xs ys gone

/-- The index entry of a row can be read: its line is neither an absent window line nor one that is still to be filled (R179,
R277). -/
def State.indexKnown (s : State) (c : CopyCmd) (r : Nat) : Bool :=
  match c.entry r with
  | .sp w off => !s.placeBusy c (.sp w off) &&
      ((s.wg w).all fun x => (x.windowAt off).isNone || (mapFind x.wlines (off / 128 * 128)).isSome)
  | _ => true

/-- Two rows of a command write one place, so the earlier one goes first (R269); a scatter whose index entries cannot be read yet may
name one row with both (R270). -/
def State.rowsMeet (s : State) (c : CopyCmd) (a b : Nat) : Bool :=
  let dst (r : Nat) : List Loc := let p := s.rowPlan c r (s.rowIndex c r); p.dst ++ p.outScales
  (c.form == 2 && !(s.indexKnown c a && s.indexKnown c b)) || (dst a).any fun l => l != .clip && (dst b).contains l

/-- The rows that a command may do next: those that wait for pages, and the next one in order, unless a row that waits writes
where it writes (R269, R369). -/
def State.rowsOpen (s : State) (c : CopyCmd) : List Nat :=
  c.passed ++ (if c.next < c.total ∧ !c.passed.any (s.rowsMeet c c.next) then [c.next] else [])

/-! ### The events of a running copy -/

/-- A core's copy by its number. -/
def State.copyOf (s : State) (core id : Nat) : Option CopyCmd := s.copies.find? fun c => c.id == id && c.core == core

/-- Puts a command back in its place. -/
def State.putCopy (s : State) (c : CopyCmd) : State :=
  { s with copies := s.copies.map fun x => if x.id == c.id then c else x }

/-- Tries some rows of a command in turn: the first that gets done or stops the command decides; one that waits for pages is passed
over, so that rows on other pages go on (R280, R369). -/
def State.copyRows (s : State) (c : CopyCmd) : List Nat → State × RowEnd
  | [] => (s, .wait)
  | r :: rest =>
    match s.copyRow c r with
    | (s, .wait) => if rest = [] then (s, .wait) else s.copyRows c rest
    | (s, .pages l) =>
      let c := { c with waits := union c.waits l, passed := if r = c.next then c.passed ++ [r] else c.passed,
                        next := if r = c.next then c.next + 1 else c.next }
      if rest = [] then (s, .done c) else (s.putCopy c).copyRows c rest
    | x => x

/-- LINE_FILL: the next tile row of a copy, where nothing holds it (R277). -/
def execLineFill (core id : Nat) (s : State) : Host.Outcome State Fault Refusal :=
  .next (match s.copyOf core id with
    | none => s
    | some c =>
      match s.copyRows c (s.rowsOpen c) with
      | (s, .done c) => s.putCopy c
      | (_, .stop ..) => s
      | (s, _) => s)

/-- COPY_COMPLETION: every write of the copy has been performed; it lands on its barrier (R278). -/
def execCopyCompletion (core id : Nat) (s : State) : Host.Outcome State Fault Refusal :=
  .next (match s.copyOf core id with
    | none => s
    | some c =>
      if c.left ≠ [] then s
      else
        let s := { s with copies := s.copies.filter fun x => x.id != id }
        match c.bar with
        | some k =>
          if c.delivers then (s.barLearn k c.clock).land k (c.planes * c.footprint / 16) c.ctx (s.copyRec c codeBarrierOverflow 4 3 none none) else s
        | none => s)

/-- COPY_STOP: a fault stops the copy: its record of class 4 ends the context, its counts fall and it lands nothing
(R277, R280). -/
def execCopyStop (core id : Nat) (s : State) : Host.Outcome State Fault Refusal :=
  .next (match s.copyOf core id with
    | none => s
    | some c =>
      match s.copyRows c (s.rowsOpen c) with
        | (s, .stop code detail va pa) =>
          let s := { s with copies := s.copies.filter fun x => x.id != id }
          (s.settleDebt c.lines c.rows).fatal c.ctx { s.copyRec c code 4 3 va pa with detail := detail }
        | _ => s)

/-! ### CPYD and CPYR (R264, R281) -/

/-- The path of a copy's destination, as a bit of the mask (R281). -/
def CopyCmd.path (c : CopyCmd) : Nat :=
  if c.store || c.kind == 2 then 3 else if c.kind == 1 then 2 else if c.tile < 0x80000000 then 0 else 1

/-- CPYD (R281): the commands that it waits for are those accepted before it reached the port. -/
def execCpyd (m : BitVec 4) (l e : Bool) (s : State) : Host.Outcome State Fault Refusal :=
  s.withIss fun I =>
    s.engineWord I l (I.descNeed []) e fun s =>
      let mine := s.copies.filter fun c => c.core == I.core && m.getLsbD c.path
      let s := (s.copies.filter fun c => c.core == I.core && m.getLsbD c.path).foldl (fun s c => s.learn I.agid c.clock) s
      let ids : List Nat := match I.S.wait with
        | .drain ids => ids.filter fun n => mine.any fun c => c.id == n
        | _ => mine.map (·.id)
      if ids = [] then ((s.releaseBy I 4).acquireBy I 4).newRegion I e else s.stall I (.drain ids)

/-- CPYR (R264). It takes no queue entry, and its turn at the port comes after the words that reached it before (R16). Its acceptance
releases at .die before it reads (R202). R264's last sentence has the record's base checked as a
VA: after the other checks of the record (log entry 66). -/
def execCpyr (a : BitVec 6) (n : BitVec 4) (l e : Bool) (s : State) : Host.Outcome State Fault Refusal :=
  s.withIss fun I =>
    let oa := pairOp a
    s.engineWord I l (I.descNeed [oa]) e fun s =>
      let va := (I.G.pairVal oa.n (lowest I.act)).toNat
      let slot := n.toNat
      let refuse (code detail : Nat) : State := s.refuseCommand I code 3 detail (some va)
      let setSlot (s : State) (r : Option (List DWord)) : State := s.modWg I.G.wg fun x =>
        { x with slots := match r with
          | some r => mapSet x.slots slot r
          | none => mapDel x.slots slot }
      if va % 64 ≠ 0 then refuse codeMisaligned 0
      else if !canonical va then refuse codeNoncanonical 0
      else if !canonical (va + 63) then refuse codeVaWrap 0
      else if !s.portOpen I 3 I.core (fun _ => true) then s.awaitPort I 3 I.core
      else
        match s.translateThreads I I.act [] (fun _ => va) 64 { write := false, fetch := false, keys := true } false with
        | .stop s => s
        | .go s _ _ xs =>
          match xlatOf xs va with
          | .ok pa _ _ =>
            let s := s.settleThreads I I.act xs (fun _ => va) 64 { write := false, fetch := false, keys := true }
            let (v, m, s) := (s.releaseBy I 4).engineRead I.core pa 64
            if m ≠ .clean then
              (setSlot (s.note I { code := m.code, src := m.src 3, tmask := I.act, va := some va,
                                   pa := some (pa / 64 * 64) } 2) none).newRegion I e
            else
              let r := (List.range 8).map fun i => BitVec.ofNat 64 (v / 2 ^ (64 * i))
              let base := (layOf r).base
              match layBad r with
              | some reason => s.refuseCommand I codeLayoutInvalid 3 (reason + 16 * slot)
              | none =>
                if !canonical base then s.refuseCommand I codeNoncanonical 3 0 (some base)
                else if !canonical (base + esOf (layOf r).tfmt - 1) then s.refuseCommand I codeVaWrap 3 0 (some base)
                else (setSlot s (some r)).newRegion I e
          | _ =>
            (setSlot (s.note I { code := codePoisonConsumed, src := 7, tmask := I.act, va := some va } 2) none).newRegion I e

end Sys2Proof.Machine
end

