-- ==== Sys2Proof/Machine/Memory.lean ====
section
/-!
DEFINITION. The load-store engine: loads and stores of every space (R170 to R177), acquire loads, polls and release
stores (R188 to R190), cache maintenance (R191), scratchpad windows (R178), prefetch (R192) and fences (R210).
-/

namespace Sys2Proof.Machine

/-! ### Widths and offsets (R75) -/

/-- The bytes of an access by its width code (R75). -/
def widthBytes (w : BitVec 3) : Nat := [1, 2, 4, 8, 16, 1, 2].getD w.toNat 4

/-- The data operand of an access by its width code (R169). -/
def memOp (w : BitVec 3) (d : BitVec 7) (k : Bool := false) : Opnd :=
  { n := d.toNat, cnt := if w = 3#3 then 2 else if w = 4#3 then 4 else 1, k := k }

/-- The byte offset of a format M word (R75). -/
def memOffset (w : BitVec 3) (f : BitVec 4) : Int := f.toInt * widthBytes w

/-- What a load's bytes become: sign-extended under i8 and i16, else zero-extended (R170). -/
def extendLoad (w : BitVec 3) (v : Nat) : Nat :=
  if w = 5#3 then (elemInt true 8 v % 2 ^ 32).toNat
  else if w = 6#3 then (elemInt true 16 v % 2 ^ 32).toNat else v

/-- The width code is of a sign-extended load (R170). -/
def signedWidth (w : BitVec 3) : Bool := w == 5#3 || w == 6#3

/-- The bytes that a thread's data operand stores, as a number (R171). -/
def Group.storeData (g : Group) (d : Opnd) (n t : Nat) : Nat :=
  ((List.range d.cnt).foldl (fun acc i => acc + (g.part d.n i t).toNat * 2 ^ (32 * i)) 0) % 2 ^ (8 * n)

/-! ### Global, private and constant accesses -/

/-- A plain load reads through the core's L1 under the page's policy (R170, R186). -/
def plainRead (I : Iss) : WordRead :=
  { read := fun s _ pa policy =>
      let (v, m, s) := s.coreRead I.core pa policy
      (v, m, s.saw I.agid (0, pa) v) }

/-- What a load of this chapter needs: it is a producer into d (R34). -/
def Iss.loadNeed (I : Iss) (u : Bool) (d : Opnd) (srcs : List Opnd) : Need :=
  { I.need u true [d] srcs .uniform with producer := true }

/-- A load by translated address: checks, capacity, reading and delivery. With one base for all threads one access is
made, in the name of the lowest one (R172). Told whether its values are sign-extended, it may read words later (R197). -/
def State.loadThrough (s0 : State) (I : Iss) (d : Opnd) (n : Nat) (x : Nat → Int) (single : Bool) (rd : WordRead)
    (late : Option Bool) (ext : Nat → Nat) (vaOf : Nat → Option Nat) (r : Reach) (after : State → State) (e : Bool) : State :=
  match r with
  | .stop s => s
  | .go s live ab xs =>
    match s.capacity I false xs (fun t => (x t).toNat) live ab with
    | .stop s => s
    | .go s live ab xs =>
      let s := s.settleThreads I live xs (fun t => (x t).toNat) n { write := false, fetch := false, keys := true }
      let ts := if single then (threadsOf live).take 1 else threadsOf live
      let (s, got) := s.readAll I rd late xs (fun t => (x t).toNat) n ts
      (after s).deliver s0 I d live ab single 2 vaOf ext got e

/-- A load of the global or the private space. -/
def State.load (s : State) (I : Iss) (u : Bool) (d a : Opnd) (n : Nat) (x : Nat → Int) (isPrivate windowOk : Bool)
    (rd : WordRead) (late : Option Bool) (ext : Nat → Nat) (after : State → State) (e : Bool) : State :=
  s.word I (I.loadNeed u d [a]) e fun s =>
    let single := u && !isPrivate && I.G.opTag a == .uniform
    let r := s.reach I n (I.G.pairVal a.n) x { write := false, fetch := false, keys := true } windowOk
    s.loadThrough I d n x single rd late ext (fun t => vaField (x t)) r after e

/-- The threads whose store a poisoned table entry drops (R355). -/
def lostStores (xs : List (Nat × Xlat)) (x : Nat → Int) (ts : List Nat) : List Nat :=
  ts.filter fun t => xlatOf xs (x t).toNat == .poison

/-- A store of the global or the private space. -/
def State.store (s : State) (I : Iss) (u : Bool) (d a : Opnd) (n : Nat) (x : Nat → Int) (isPrivate windowOk e : Bool) : State :=
  s.word I (I.need u true [] [d, a] .uniform) e fun s0 =>
    let k : AccessKind := { write := true, fetch := false, keys := true }
    let single := u && !isPrivate && I.G.opTag a == .uniform
    match s0.reach I n (I.G.pairVal a.n) x k windowOk with
    | .stop s => s
    | .go s live ab xs =>
      match s.capacity I true xs (fun t => (x t).toNat) live ab with
      | .stop s => s
      | .go s live ab xs =>
        let s := s.settleThreads I live xs (fun t => (x t).toNat) n k
        let ts := if single then (threadsOf live).take 1 else threadsOf live
        let s := ts.foldl (fun s t =>
          s.storeAt I xs t (x t).toNat n (I.G.storeData d n (if single then highest live else t))) s
        let (s, gone, lost) := s.loseStores I live (fun t => vaField (x t)) (lostStores xs x ts)
        if gone then s else s.endWord s0 I e (ab ++ lost)

/-- The effective address of a global access (R167). -/
def Iss.globalAddr (I : Iss) (a : Opnd) (off : Int) (t : Nat) : Int := (I.G.pairVal a.n t).toNat + off

/-- The effective address of a private access: 32 interleaved slots (R167). -/
def Iss.privateAddr (I : Iss) (a : Opnd) (off : Int) (n t : Nat) : Int :=
  (I.G.pairVal a.n t).toNat + off + max 4 n * t

/-- A window access has the width of one or two registers (R13). -/
def windowWidth (w : BitVec 3) : Bool := w == 2#3 || w == 3#3

/-- LDG (R170). -/
def execLdg (u : Bool) (d : BitVec 7) (a : BitVec 6) (w : BitVec 3) (f : BitVec 4) (k e : Bool) (s : State) :
    Host.Outcome State Fault Refusal :=
  s.withIss fun I =>
    let oa := pairOp a k
    s.load I u (memOp w d) oa (widthBytes w) (I.globalAddr oa (memOffset w f)) false (windowWidth w) (plainRead I)
      (some (signedWidth w)) (extendLoad w) id e

/-- STG (R171). -/
def execStg (u : Bool) (d : BitVec 7) (a : BitVec 6) (w : BitVec 3) (f : BitVec 4) (k m e : Bool) (s : State) :
    Host.Outcome State Fault Refusal :=
  s.withIss fun I =>
    let oa := pairOp a k
    s.store I u (memOp w d m) oa (widthBytes w) (I.globalAddr oa (memOffset w f)) false (windowWidth w) e

/-- LDP (R170, R176). -/
def execLdp (u : Bool) (d : BitVec 7) (a : BitVec 6) (w : BitVec 3) (f : BitVec 4) (k e : Bool) (s : State) :
    Host.Outcome State Fault Refusal :=
  s.withIss fun I =>
    let oa := pairOp a k
    let n := widthBytes w
    s.load I u (memOp w d) oa n (I.privateAddr oa (memOffset w f) n) true false (plainRead I)
      (some (signedWidth w)) (extendLoad w) id e

/-- STP (R171, R176). -/
def execStp (u : Bool) (d : BitVec 7) (a : BitVec 6) (w : BitVec 3) (f : BitVec 4) (k m e : Bool) (s : State) :
    Host.Outcome State Fault Refusal :=
  s.withIss fun I =>
    let oa := pairOp a k
    let n := widthBytes w
    s.store I u (memOp w d m) oa n (I.privateAddr oa (memOffset w f) n) true false e

/-- The lines that a partition's constant cache holds for its grids, newest first. -/
def State.constLines (s : State) (core p : Nat) : List (Nat × Nat) :=
  (s.consts.filter fun x => x.1.2.1 == core && x.1.2.2.1 == p).foldl
    (fun acc x => if acc.contains (x.1.1, lineOf x.1.2.2.2) then acc else (x.1.1, lineOf x.1.2.2.2) :: acc) []

/-- A word enters a partition's constant cache of 16 KiB; where it is full a line leaves, the one that has been there longest
(R177; log entry 17). -/
def State.constFill (s : State) (grid core p pa : Nat) (v : Word) : State :=
  let lines := s.constLines core p
  let s := if lines.contains (grid, lineOf pa) ∨ lines.length < 2 ^ 14 / 64 then s
    else { s with consts := s.consts.filter fun x =>
      !(x.1.2.1 == core && x.1.2.2.1 == p && (x.1.1, lineOf x.1.2.2.2) == lines.getLastD (0, 0)) }
  { s with consts := mapSet s.consts (grid, core, p, pa) v }

/-- A word of constant space: as the partition's constant cache holds it, which may have lost it, else as the core's L1 or the
levels beyond it hold it; while a store is under way these may differ, and either may be seen (R177). -/
def constRead (grid core p : Nat) : WordRead :=
  { read := fun s _ pa policy =>
      let now := Config.choice (s.tick + pa)
      match (if now % 4 = 3 then none else mapFind s.consts (grid, core, p, pa)) with
      | some v => (v, .clean, s)
      | none =>
        let (v, m, s) := if policy = 3 then s.homeRead core pa
          else if now % 2 = 0 then s.dieRead core pa else s.coreRead core pa policy
        (v, m, if policy = 3 ∨ m ≠ .clean then s else s.constFill grid core p pa v) }

/-- LDC (R170, R177). -/
def execLdc (u : Bool) (d a : BitVec 7) (w : BitVec 3) (f : BitVec 4) (k e : Bool) (s : State) :
    Host.Outcome State Fault Refusal :=
  s.withIss fun I =>
    let oa := one a k
    let od := memOp w d
    let n := widthBytes w
    let csize := ((s.gridOf I.G).map (·.csize)).getD 0
    let cbase := ((s.gridOf I.G).map (·.cbase)).getD 0
    let o (t : Nat) : Int := (I.G.val a.toNat t).toNat + memOffset w f
    let x (t : Nat) : Int := ((cbase : Int) + o t) % 2 ^ 64
    s.word I (I.loadNeed u od [oa]) e fun s =>
      let k : AccessKind := { write := false, fetch := false, keys := true }
      let flt (code : Nat) (m : Mask) : Flt :=
        { code := code, src := 2, tmask := m, detail := if code = codeConstBound then (o (lowest m) % 2 ^ 32).toNat else 0 }
      let checks := [fun m => failing m (fun t => o t % n != 0) (flt codeMisaligned),
        fun m => failing m (fun t => decide (o t < 0) || decide ((csize : Int) ≤ o t)) (flt codeConstBound)]
      let r : Reach := match runChecks (I.txMask s) checks I.act [] with
        | .error (f, ab) => .stop (s.failWord I f ab)
        | .ok (live, ab) => s.translateThreads I live ab (fun t => (x t).toNat) n k false
      -- constant words join no read set, so no thread counts as transactional while they are read
      match r with
      | .stop s => s
      | .go t live ab xs =>
        let single := u && I.G.opTag oa == .uniform
        let ts := if single then (threadsOf live).take 1 else threadsOf live
        let rd : WordRead := constRead ((t.wg I.G.wg).map (·.grid) |>.getD 0) I.core (partOfLane I.G.lane)
        let t := t.settleThreads I live xs (fun t => (x t).toNat) n k
        let txs := (I.now t).txs
        let t := t.modGroup I.gid fun g => { g with txs := [] }
        let (t, got) := t.readAll I rd none xs (fun t => (x t).toNat) n ts
        let t := t.modGroup I.gid fun g => { g with txs := txs }
        t.deliver s I od live ab single 2 (fun t => vaField (x t)) (extendLoad w) got e

/-! ### Scratchpad (R174, R175) -/

/-- A scratchpad offset that lies in a range of the group (R167, R168). -/
def State.scratchChecks (s : State) (I : Iss) (n : Nat) (o : Nat → Int) (ok : Nat → Nat → Bool) : List (Mask → Option Flt) :=
  let g := I.acting s
  let bad (t : Nat) : Bool := decide (o t < 0) || (match s.scratchAt g (o t).toNat with
    | some (w, _) => !ok t w
    | none => true)
  [fun m => failing m (fun t => o t % n != 0) fun m => { code := codeMisaligned, src := 2, tmask := m },
   fun m => failing m bad fun m =>
     { code := codeScratchBound, src := 2, tmask := m, detail := (o (lowest m) % 2 ^ 32).toNat }]

/-- How far a scratchpad access gets: it has ended, or some threads may perform it, with the transactions that abort and the
lines whose stores a poisoned table entry drops, by workgroup and line, with their virtual addresses (R355). -/
inductive SpReach where
  | stop (s : State)
  | go (s : State) (live : Mask) (aborts : List TxAbort) (lost : List ((Nat × Nat) × Nat))

/-- Makes the lines that some threads touch ready; a landing holds the lane, a window's translation faults as steps 6 and
7 of R168 (R175, R179). -/
def State.scratchReady (s : State) (I : Iss) (live : Mask) (ab : List TxAbort) (at_ : Nat → Nat × Nat) (write : Bool) :
    SpReach :=
  let lines := (threadsOf live).foldl (fun acc t =>
    let l := ((at_ t).1, (at_ t).2 / 128 * 128)
    if acc.contains l then acc else acc ++ [l]) []
  let (s, bad) := s.spPrepareAll (laneTlbs I.G.lane) write lines
  let on (w line : Nat) : Mask := live &&& maskOf fun t => (at_ t).1 == w && (at_ t).2 / 128 * 128 == line
  let absent := bad.filterMap fun (w, l, r) => match r with
    | .fault va .absent => some (pageOf va, on w l)
    | _ => none
  let moving := bad.filterMap fun (_, _, r) => match r with
    | .fault va .moving => some (pageOf va)
    | _ => none
  if absent ≠ [] ∨ moving ≠ [] then .stop (s.pageWait I absent moving)
  else
    let why (t : Nat) : Option (Nat × Nat × Nat) := bad.findSome? fun (w, l, r) => match r with
      | .fault va (.prot p lv) => if (on w l).getLsbD t then some (va, p, lv) else none
      | _ => none
    let check (m : Mask) : Option Flt := failing m (fun t => (why t).isSome) fun m =>
      let (va, p, lv) := (why (lowest m)).getD (0, 0, 0)
      { code := codeProtection, src := 7, tmask := m, va := some va, detail := p + 16 * lv }
    match runChecks (I.txMask s) [check] live ab with
    | .error (f, ab) => .stop (s.failWord I f ab)
    | .ok (live, ab) =>
      match bad.findSome? fun (_, _, r) => match r with
          | .wait w l => some (w, l)
          | _ => none with
      | some (w, l) => .stop (s.stall I (.line w l))
      | none => .go (s.touchLanded I.agid (lines.map fun l => (0, l.1, l.2 / 128))) live ab
          (bad.filterMap fun (w, l, r) => match r with
            | .lost va => some ((w, l), va)
            | _ => none)

/-- A scratchpad access up to its being performed. -/
def State.scratchReach (s : State) (I : Iss) (n : Nat) (o : Nat → Int) (write : Bool) : SpReach :=
  match runChecks (I.txMask s) (s.scratchChecks I n o fun _ _ => true) I.act [] with
  | .error (f, ab) => .stop (s.failWord I f ab)
  | .ok (live, ab) =>
    let g := I.acting s
    s.scratchReady I live ab (fun t => (s.scratchAt g (o t).toNat).getD (0, 0)) write

/-- The offset of a scratchpad access (R167). -/
def Iss.spOffset (I : Iss) (a : Opnd) (off : Int) (t : Nat) : Int := (I.G.val a.n t).toNat + off

/-- A thread's read of a scratchpad: marks are kept by word (R334, R335). -/
def State.spGot (s : State) (w off n : Nat) : Got where
  val := s.spRead w off n
  mark := s.spMark w off n
  pa := none
  spLine := some (w, off / 64)

/-- The words of a scratchpad that an access touches, as locations with what they hold. -/
def State.spWords (s : State) (w off n : Nat) : List ((Nat × Nat) × Word) :=
  (upFrom (off / 4 * 4) 4 ((off % 4 + n + 3) / 4)).map fun a => ((w + 1, a), BitVec.ofNat 32 (s.spRead w a 4))

/-- A plain load has read words of a scratchpad (R199). -/
def State.sawSp (s : State) (I : Iss) (w off n : Nat) : State :=
  (s.spWords w off n).foldl (fun s x => s.saw I.agid x.1 x.2) s

/-- A store has written words of a scratchpad (R199). -/
def State.noteSp (s : State) (I : Iss) (w off n : Nat) : State :=
  (s.spWords w off n).foldl (fun s x => s.noteStore I.agid x.1 x.2 0) s

/-- LDS (R170). -/
def execLds (u : Bool) (d a : BitVec 7) (w : BitVec 3) (f : BitVec 4) (k e : Bool) (s : State) :
    Host.Outcome State Fault Refusal :=
  s.withIss fun I =>
    let oa := one a k
    let od := memOp w d
    let n := widthBytes w
    let o := I.spOffset oa (memOffset w f)
    s.word I (I.loadNeed u od [oa]) e fun s0 =>
      match s0.scratchReach I n o false with
      | .stop s => s
      | .go s live ab _ =>
        let single := u && I.G.opTag oa == .uniform
        let ts := if single then (threadsOf live).take 1 else threadsOf live
        let g := I.acting s
        let at_ (t : Nat) : Nat × Nat := (s.scratchAt g (o t).toNat).getD (0, 0)
        let s := ts.foldl (fun s t => s.landScratch I.core (at_ t).1 (at_ t).2 n) s
        let got := ts.map fun t => (t, s.spGot (at_ t).1 (at_ t).2 n)
        let s := ts.foldl (fun s t => s.sawSp I (at_ t).1 (at_ t).2 n) s
        s.deliver s0 I od live ab single 2 (fun _ => none) (extendLoad w) got e

/-- What a store to a scratchpad offset carries for the window line that holds it (R179, R443). -/
def State.spMeta (s : State) (I : Iss) (w off : Nat) : WMeta :=
  let va := match (s.wg w).bind fun x => (x.windowAt off).map fun win => win.va + (off - win.off) with
    | some v => v
    | none => 0
  let key := match (s.wg w).bind fun x => mapFind x.wlines (off / 128 * 128) with
    | some l => l.info.key
    | none => 0
  s.metaFor I key va

/-- The virtual address of the line to which a thread's store is dropped (R355). -/
def spLost (lost : List ((Nat × Nat) × Nat)) (at_ : Nat → Nat × Nat) (t : Nat) : Option Nat :=
  mapFind lost ((at_ t).1, (at_ t).2 / 128 * 128)

/-- STS: performed at once; a transaction open in an active thread forbids it (R171, R251). -/
def execSts (u : Bool) (d a : BitVec 7) (w : BitVec 3) (f : BitVec 4) (k m e : Bool) (s : State) :
    Host.Outcome State Fault Refusal :=
  s.withIss fun I =>
    let oa := one a k
    let od := memOp w d m
    let n := widthBytes w
    let o := I.spOffset oa (memOffset w f)
    s.word I (I.need u true [] [od, oa] .uniform) e fun s0 =>
      if I.inTx I.act then s0.raiseCode I codeTxForbidden
      else
        match s0.scratchReach I n o true with
        | .stop s => s
        | .go s live _ lost =>
          let single := u && I.G.opTag oa == .uniform
          let g := I.acting s
          let at_ (t : Nat) : Nat × Nat := (s.scratchAt g (o t).toNat).getD (0, 0)
          let (ts, gone) := (if single then (threadsOf live).take 1 else threadsOf live).partition fun t =>
            (spLost lost at_ t).isNone
          let s := ts.foldl (fun s t =>
            (s.spStore g.wg (at_ t).1 (at_ t).2 (I.G.storeData od n (if single then highest live else t)) n
              (s.spMeta I (at_ t).1 (at_ t).2)).noteSp I (at_ t).1 (at_ t).2 n) s
          let (s, stop, _) := s.loseStores I live (spLost lost at_) gone
          if stop then s else s.advance I e

/-! ### LDA, LDA_POLL, STL (R188 to R190) -/

/-- The data operand of `lda` and `stl`: one register or a pair. -/
def syncOp (w : Bool) (d : BitVec 7) (k : Bool := false) : Opnd := { n := d.toNat, cnt := if w then 2 else 1, k := k }

/-- The bytes of `lda` and `stl`. -/
def syncBytes (w : Bool) : Nat := if w then 8 else 4

/-- A read at the level of a scope (R188). -/
def levelReader (core scope : Nat) : WordRead :=
  { read := fun s _ pa policy => s.levelRead core pa scope policy, level := levelPolicy scope }

/-- A read at the level of a scope that acquires: it synchronises with the release whose value it returns (R188, R200). -/
def acquireReader (I : Iss) (scope : Nat) : WordRead :=
  { levelReader I.core scope with
    read := fun s t pa policy =>
      let (v, m, s) := (levelReader I.core scope).read s t pa policy
      (v, m, s.synchronise I.agid scope (s.releasesAt (0, pa) v)) }

/-- What some threads have read of memory acquires (R189, R199, R200). -/
def State.gotAcquires (s : State) (I : Iss) (scope n : Nat) (l : List (Nat × Got)) : State :=
  l.foldl (fun s x => match x.2.pa with
    | some pa => (List.range (n / 4)).foldl (fun s i =>
        s.synchronise I.agid scope (s.releasesAt (0, pa + 4 * i) (BitVec.ofNat 32 (x.2.val / 2 ^ (32 * i))))) s
    | none => s) s

/-- LDA: the acquire actions apply once for the split (R188). -/
def execLda (u : Bool) (d : BitVec 7) (a : BitVec 6) (c : BitVec 3) (w k e : Bool) (s : State) :
    Host.Outcome State Fault Refusal :=
  s.withIss fun I =>
    let oa := pairOp a k
    s.load I u (syncOp w d) oa (syncBytes w) (I.globalAddr oa 0) false true (acquireReader I c.toNat) none id
      (fun s => s.acquireBy I c.toNat) e

/-- The issuer of a split that a group has, with a mask of its own. -/
def State.issOf (s : State) (gid sid : Nat) : Option Iss :=
  (mapFind s.groups gid).bind fun g => (g.split sid).map fun p =>
    { gid := gid, sid := sid, G := g, S := p, act := guardMask g p }

/-- The waiting threads of a poll read their locations; those whose value has changed take it. When none is left the
acquire applies, d becomes full and the split goes on (R189). Absent pages hold it (R45), consumption may unwind it (R334). A read
that consumes poison ends its thread's wait with the defined value, whatever it expects (log entry 82). -/
def State.pollOnce (s : State) (I : Iss) (d scope n : Nat) (left : List (Nat × Nat × Nat)) (all : Option Mask) (e : Bool) :
    State :=
  let I := { I with act := maskOf fun t => left.any fun x => x.1 == t }
  let k : AccessKind := { write := false, fetch := false, keys := true }
  let va (t : Nat) : Nat := ((left.find? fun x => x.1 == t).map (·.2.1)).getD 0
  let old (t : Nat) : Nat := ((left.find? fun x => x.1 == t).map (·.2.2)).getD 0
  match s.translateThreads I I.act [] va n k false with
  | .stop s => s
  | .go s live _ xs =>
    let s := s.settleThreads I live xs va n k
    let (s, got) := s.readAll I (levelReader I.core scope) none xs va n (threadsOf live)
    let hit := got.filter fun x => x.2.mark != .clean || x.2.val != old x.1
    let s := s.gotAcquires I scope n (hit.filter fun x => x.2.mark == .clean)
    let mask (t : Nat) : Mask := all.getD (1#32 <<< t)
    let o : Opnd := { n := d, cnt := n / 4 }
    let (s, gone) := s.consumeAll I.gid (s.recOf I { code := codePoisonConsumed, tmask := I.act } 2)
      (consumesOf 2 (fun t => some (va t)) mask hit) o.regs
    if gone then s
    else
      let ty := I.S.ty
      let s := hit.foldl (fun s x =>
        s.modGroup I.gid fun g => (List.range o.regs.length).foldl (fun g i =>
          g.write (d + i) (mask x.1) (fun _ => x.2.part ty o.cnt id i) (if all.isSome then .uniform else .general)) g) s
      let left := left.filter fun x => hit.all fun h => h.1 != x.1
      if left = [] then (s.acquireBy I scope).advance I e
      else
        (s.modGroup I.gid fun g => g.markEmpty o.regs).modSplit I.gid I.sid fun p =>
          { p with st := .suspended, wait := .poll d scope n left all e }

/-- LDA_POLL: d gives the expectations; the split suspends until every thread's location has changed (R189). -/
def execLdaPoll (u : Bool) (d : BitVec 7) (a : BitVec 6) (c : BitVec 3) (w k m e : Bool) (s : State) :
    Host.Outcome State Fault Refusal :=
  s.withIss fun I =>
    let oa := pairOp a k
    let od := syncOp w d m
    let n := syncBytes w
    let x := I.globalAddr oa 0
    s.word I (I.need u true [] [od, oa] .uniform) e fun s =>
      if I.inTx I.act then s.raiseCode I codeTxForbidden
      else
        match s.reach I n (I.G.pairVal oa.n) x { write := false, fetch := false, keys := true } false with
        | .stop s => s
        | .go s live _ _ =>
          let single := u && I.G.opTag oa == .uniform
          let ts := if single then (threadsOf live).take 1 else threadsOf live
          (s.modGroup I.gid fun g => g.markEmpty od.regs).suspend I
            (.poll od.n c.toNat n (ts.map fun t => (t, (x t).toNat, I.G.data w od.n t))
              (if single then some live else none) e)

/-- POLL_COMPLETION: the polled locations of a suspended split are read again (R189). -/
def execPollCompletion (group split : Nat) (s : State) : Host.Outcome State Fault Refusal :=
  .next (match s.issOf group split with
    | some I =>
      match I.S.wait, I.S.st with
      | .poll d scope n left all e, .suspended =>
        let s := s.pollOnce I d scope n left all e
        s.modSplit group split fun p => if p.st == .suspended && p.wait == .none then { p with st := .ready } else p
      | _, _ => s
    | none => s)

/-- STL: harvest, checks, release, then each thread's store at the level of the scope (R190). -/
def execStl (u : Bool) (d : BitVec 7) (a : BitVec 6) (c : BitVec 3) (w k m e : Bool) (s : State) :
    Host.Outcome State Fault Refusal :=
  s.withIss fun I =>
    let oa := pairOp a k
    let od := syncOp w d m
    let n := syncBytes w
    let x := I.globalAddr oa 0
    s.boundaryWord I (I.need u true [] [od, oa] .uniform) e fun s => s.atBoundary I fun s =>
      match s.reach I n (I.G.pairVal oa.n) x { write := true, fetch := false, keys := true } true with
      | .stop s => s
      | .go s live _ xs =>
        let single := u && I.G.opTag oa == .uniform
        let ts := if single then (threadsOf live).take 1 else threadsOf live
        let s := s.settleThreads I live xs (fun t => (x t).toNat) n { write := true, fetch := false, keys := true }
        let s := s.releaseBy I c.toNat
        let s := ts.foldl (fun s t =>
          let v := I.G.storeData od n (if single then highest live else t)
          (List.range (n / 4)).foldl (fun s i =>
            let va := (x t).toNat + 4 * i
            match xlatOf xs va with
            | .ok pa policy key =>
              let v : Word := BitVec.ofNat 32 (v / 2 ^ (32 * i))
              (s.levelWrite I.core pa c.toNat policy v (s.metaFor I key va) (i == 0)).noteStore I.agid (0, pa) v c.toNat
            | _ => s) s) s
        let (s, gone, _) := s.loseStores I live (fun t => vaField (x t)) (lostStores xs x ts)
        if gone then s else s.newRegion I e

/-! ### FENCE (R210) -/

/-- A fence: it harvests, waits until every write that the core has sent is acknowledged, and then the parts it has take place in
order (R208, R210). A discard during the wait finds the fence word as the restart point (R215). -/
def State.fence (s : State) (I : Iss) (scope : Nat) (rel acq e : Bool) : State :=
  s.boundaryWord I { mask := I.act } e fun s => s.atBoundary I fun s =>
    if s.unacknowledged I.core then s.stall I .status
    else
      let s := if rel then (s.releaseBy I scope).fenceOut I.agid scope else s
      let s := if acq then (s.acquireBy I scope).fenceIn I.agid scope else s
      s.newRegion I e

/-- FENCE_FULL (R210). -/
def execFenceFull (c : BitVec 3) (e : Bool) (s : State) : Host.Outcome State Fault Refusal :=
  s.withIss fun I => s.fence I c.toNat true true e

/-- FENCE_REL (R210). -/
def execFenceRel (c : BitVec 3) (e : Bool) (s : State) : Host.Outcome State Fault Refusal :=
  s.withIss fun I => s.fence I c.toNat true false e

/-- FENCE_ACQ (R210). -/
def execFenceAcq (c : BitVec 3) (e : Bool) (s : State) : Host.Outcome State Fault Refusal :=
  s.withIss fun I => s.fence I c.toNat false true e

/-! ### CACHE (R191) -/

/-- A `cache` word after its checks; a transaction open in an active thread forbids it (R251). -/
def State.cacheWord (s : State) (I : Iss) (n : Need) (e : Bool) (f : State → State) : State :=
  s.word I n e fun s =>
    if I.inTx I.act then s.raiseCode I codeTxForbidden else (f s).advance I e

/-- A line form: checks 2 and 3 of R168; a thread whose page is absent or refused is skipped. -/
def State.cacheLines (s : State) (I : Iss) (u : Bool) (a : Opnd) (f : State → Nat → State) (e : Bool) : State :=
  s.word I (I.need u true [] [a] .uniform) e fun s =>
    if I.inTx I.act then s.raiseCode I codeTxForbidden
    else
      let x (t : Nat) : Int := (I.G.pairVal a.n t).toNat
      match runChecks 0#32 ((addressChecks 1 (I.G.pairVal a.n) x).drop 1) I.act [] with
      | .error (flt, _) => s.raise I flt
      | .ok _ =>
        let tlbs := laneTlbs I.G.lane
        let k : AccessKind := { write := false, fetch := false, keys := true }
        let (s, xs) := s.lookAll tlbs I.G.ctx k (pagesOf I.act (fun t => (x t).toNat) 1)
        ((threadsOf I.act).foldl (fun s t => match xlatOf xs (x t).toNat with
          | .ok pa _ _ => f s (lineOf pa)
          | _ => s) (s.settlePages tlbs I.G.ctx k xs)).advance I e

/-- The dirty words of a line go to where a release at a scope writes them (R187, R191). -/
def State.lineWriteBack (s : State) (core scope line : Nat) : State :=
  let mine (a : Nat) : Bool := lineOf a == line
  let s := s.l1Flush core mine
  let s := if scope < 4 then s else s.cluFlush (clusterOf core) mine
  let s := if scope < 5 then s else s.l2Flush (dieOfCore core) mine
  let s := s.landSent fun x => match x.dest with
    | .die a => mine a
    | _ => false
  let s := s.drain fun w => mine w.pa
  if scope < 6 then s else s.forwardFar

/-- CACHE_WBL (R191). -/
def execCacheWbl (u : Bool) (a : BitVec 6) (c : BitVec 3) (k e : Bool) (s : State) : Host.Outcome State Fault Refusal :=
  s.withIss fun I => s.cacheLines I u (pairOp a k) (fun s l => s.lineWriteBack I.core c.toNat l) e

/-- CACHE_INVL (R191). -/
def execCacheInvl (u : Bool) (a : BitVec 6) (k e : Bool) (s : State) : Host.Outcome State Fault Refusal :=
  s.withIss fun I => s.cacheLines I u (pairOp a k) (fun s l =>
    let s := s.lineWriteBack I.core 3 l
    { s with l1 := s.l1.filter fun x => !(x.1.1 == I.core && lineOf x.1.2 == l) }) e

/-- CACHE_WBALL (R191). -/
def execCacheWball (c : BitVec 3) (e : Bool) (s : State) : Host.Outcome State Fault Refusal :=
  s.withIss fun I => s.cacheWord I { mask := I.act } e fun s => s.writeBack I.core c.toNat

/-- CACHE_INVALL (R191). -/
def execCacheInvall (e : Bool) (s : State) : Host.Outcome State Fault Refusal :=
  s.withIss fun I => s.cacheWord I { mask := I.act } e fun s => s.acquireBy I 4

/-- CACHE_SWB (R180, R191). -/
def execCacheSwb (n : BitVec 2) (e : Bool) (s : State) : Host.Outcome State Fault Refusal :=
  s.withIss fun I => s.cacheWord I { mask := I.act } e fun s =>
    match (s.wg I.G.wg).bind fun x => mapFind x.windows n.toNat with
    | some win => s.winFlush I.G.wg fun a _ => decide (win.off ≤ a) && decide (a < win.off + win.len)
    | none => s

/-! ### SMAP (R178) -/

/-- Some engine still writes into a range of a workgroup's scratchpad. -/
def Workgroup.busyRange (x : Workgroup) (off len : Nat) : Bool :=
  x.pendLines.any fun p => decide (0 < p.2) && decide (off ≤ 128 * p.1) && decide (128 * p.1 < off + len)

/-- SMAP: acts once for the group; the guard does not apply (R178). -/
def execSmap (n : BitVec 2) (a b : BitVec 6) (k l e : Bool) (s : State) : Host.Outcome State Fault Refusal :=
  s.withIss fun I =>
    let oa := pairOp a k
    let ob := pairOp b l
    let t := lowest I.S.mask
    let va := (I.G.pairVal oa.n t).toNat
    let off := (I.G.part ob.n 0 t).toNat
    let len := (I.G.part ob.n 1 t).toNat
    let need := { I.need false true [] [oa, ob] .uniform with
                  mask := I.S.mask, uOk := I.G.opTag oa == .uniform && I.G.opTag ob == .uniform }
    s.boundaryWord I need e fun s =>
      let size := ((s.gridOf I.G).map Grid.scratchBytes).getD 0
      let ok := ((s.wg I.G.wg).map fun x => x.windowOk size n.toNat va off len).getD false
      let flt (code : Nat) : State := s.raise I { code := code, src := 2, tmask := I.S.mask, va := some va }
      if len ≠ 0 ∧ !ok then flt codeSmapInvalid
      else if len ≠ 0 ∧ !canonical va then flt codeNoncanonical
      else if len ≠ 0 ∧ !canonical (va + len - 1) then flt codeVaWrap
      else s.atBoundary I fun s =>
        let s := s.winUnbind I.G.wg n.toNat
        if len = 0 then s.newRegion I e
        else if (s.wg I.G.wg).any fun x => x.busyRange off len then s.stall I .range
        else (s.winBind I.G.wg n.toNat va off len).newRegion I e

/-! ### PFM (R192) -/

/-- Brings the line of an address into a level, where a usable translation is at hand; nothing else changes (R192, R357). -/
def State.prefetch (s : State) (I : Iss) (level va : Nat) : State :=
  let k : AccessKind := { write := false, fetch := false, keys := true }
  let hit := match s.tlbFind (laneTlbs I.G.lane) I.G.ctx va with
    | some x => some (x.pte, x.level)
    | none =>
      let w := s.walk I.G.ctx va
      if w.how = .leaf ∧ !w.pte.getLsbD 63 ∧ (leafRefused (s.ctx I.G.ctx).sys w.pte).isNone then some (w.pte, w.level) else none
  match hit with
  | some (e, l) =>
    let s := s.probed (laneTlbs I.G.lane) I.G.ctx va
    let pa := leafPa l e va
    if pteTier e = 3 ∨ (permit (s.ctx I.G.ctx).pkr k e).isSome ∨ inWindow pa ∨ ptePolicy e = 3 then s
    else
      (upFrom (pa / 64 * 64) 4 16).foldl (fun s a =>
        match level with
        | 0 => (s.coreRead I.core a (ptePolicy e)).2.2
        | 1 => (s.dieRead I.core a).2.2
        | _ => s) s
  | none => s

/-- PFM (R192). -/
def execPfm (u : Bool) (v : BitVec 2) (a : BitVec 6) (w : BitVec 3) (f : BitVec 4) (k e : Bool) (s : State) :
    Host.Outcome State Fault Refusal :=
  s.withIss fun I =>
    let oa := pairOp a k
    s.word I (I.need u true [] [oa] .uniform) e fun s =>
      ((threadsOf I.act).foldl (fun s t =>
        let x := I.globalAddr oa (memOffset w f) t
        if targetOk' x then s.prefetch I v.toNat x.toNat else s) s).advance I e
where
  /-- The address is in canonical form. -/
  targetOk' (x : Int) : Bool := decide (0 ≤ x) && canonical x.toNat

end Sys2Proof.Machine
end

