-- ==== Sys2Proof/Machine/Transfence.lean ====
section
/-!
DEFINITION. Translation ordering: `tfen`, `tinv` and `tprb` (R358, R359, R363 to R367), the retry of page-waiting splits,
and the walks of the table that no word waits for.
-/

namespace Sys2Proof.Machine

/-! ### Page-wait (R358, R369) -/

/-- PAGE_WAIT_RETRY: the split's walks are tried again; it stays in page-wait where a page is still absent or moving. A walk that
reaches a present leaf ends the requests for its page (R358, R369). -/
def execPageWaitRetry (group split : Nat) (s : State) : Host.Outcome State Fault Refusal :=
  .next (match s.issOf group split with
    | none => s
    | some I =>
      if I.S.st ≠ .pageWait ∨ !I.S.released then s
      else
        let at_ := laneTlbs I.G.lane
        let (s, xs) := s.lookAll at_ I.G.ctx { write := false, fetch := false, keys := true } I.S.wait.pagesOf
        let s := s.settleMoving at_ I.G.ctx xs
        if xs.any fun x => x.2 == .absent || x.2 == .moving then s.modSplit group split fun q => { q with released := false }
        else s.modSplit group split fun q => { q with st := .ready, wait := .none, waited := 0, released := false })

/-- WALK: a walk for an access that is looked up in a partition's TLB; it fills the TLBs where it reaches a usable leaf, and
changes nothing else that the access itself would (R356, R357, R359). -/
def execWalk (core part slot va : Nat) (write fetch : Bool) (s : State) : Host.Outcome State Fault Refusal :=
  .next (if (s.ctx slot).st ≠ .live then s
    else (s.translate (laneTlbs (core * 64 + part * 16)) slot va { write := write, fetch := fetch, keys := true }).1)

/-! ### Invalidation (R363, R366) -/

/-- A core is reached by a scope: .die reaches the issuing die, .dev every present die (R365). -/
def coreInScope (die scope core : Nat) : Bool := scope == 5 || dieOfCore core == die

/-- A range of pages, or every address. -/
structure PageRange where
  base : Nat
  count : Nat
  whole : Bool
  deriving DecidableEq, Repr

/-- A range covers an address. -/
def PageRange.has (r : PageRange) (va : Nat) : Bool :=
  r.whole || (decide (r.base ≤ va) && decide (va < r.base + 65536 * r.count))

/-- A range covers an entry: its page meets the range (R365). -/
def PageRange.covers (r : PageRange) (e : Tlb) : Bool := r.whole || e.meets r.base r.count

/-- A range covers the 64 KiB page of an address, or the large page that holds it in a context's tables. -/
def State.rangeHas (s : State) (r : PageRange) (slot va : Nat) : Bool :=
  r.has va || ((s.walk slot va).how == .leaf &&
    (let n := pageSize (s.walk slot va).level
     decide (va / n * n < r.base + 65536 * r.count) && decide (r.base < va / n * n + n)))

/-- The entry is one that a fence or an invalidation of a context over a range drops (R366). -/
def Tlb.retires (e : Tlb) (die scope slot : Nat) (r : PageRange) : Bool :=
  e.at_.inScope die scope && (e.ctx == none || e.ctx == some slot) && r.covers e

/-- Drops the entries of a context and the G entries that a range covers, in every TLB of a scope (R366). -/
def State.invalidate (s : State) (die scope slot : Nat) (r : PageRange) : State :=
  s.tlbDrop fun e => e.retires die scope slot r

/-- Some of the entries map the page of an address of a context to a frame. -/
def mapsTo (gone : List Tlb) (ctx va pa : Nat) : Bool :=
  gone.any fun e => e.serves ctx va && leafPa e.level e.pte va / 65536 == pa / 65536

/-- An access of a context was translated through an entry that a fence drops, whatever its table holds by now: one that the fence
has dropped, large or shared, or one of the fence's own context in its range, which a TLB may have lost before (R363). -/
def State.through (s : State) (gone : List Tlb) (slot : Nat) (r : PageRange) (ctx va pa : Nat) : Bool :=
  (ctx == slot && s.rangeHas r slot va) || mapsTo gone ctx va pa

/-- Loads of a scope that have not read yet do so before their translations go (R363, item 1). -/
def State.readThrough (s : State) (hit : Nat → Nat → Nat → Nat → Bool) : State :=
  s.groups.foldl (fun s (gid, g) => s.readNow gid fun _ x => hit g.core g.ctx x.va x.pa) s

/-- The paths of a scope that hold words through a dropped entry have their regions aborted, without a record (R363,
item 2). -/
def State.abortHeld (s : State) (hit : Nat → Nat → Nat → Nat → Bool) : State :=
  s.groups.foldl (fun s (gid, g) =>
    let m := (g.held.filter fun h => hit g.core g.ctx h.info.va h.pa).foldl (fun m h => m ||| 1#32 <<< h.thread) 0#32
    let s := (g.splits.filter fun p => p.mask &&& m != 0#32).foldl (fun s p =>
      (s.abortRegion gid p.idx).modSplit gid p.idx fun p => { p with st := if p.st == .suspended then .ready else p.st }) s
    s.abortPaths gid m) s

/-- The window lines of a scope that were translated through a dropped entry are written back and made absent (R363, item 3). -/
def State.dropWindows (s : State) (hit : Nat → Nat → Nat → Nat → Bool) : State :=
  s.wgs.foldl (fun s (w, x) =>
    let hit (line : Nat) (l : WinLine) : Bool := match x.windowAt line with
      | some win => hit x.core x.ctx (win.va + (line - win.off)) l.pa
      | none => false
    let s := s.winFlush w hit
    s.modWg w fun x => { x with wlines := x.wlines.filter fun y => !hit y.1 y.2 }) s

/-- The cores of a scope. -/
def scopeCores (die scope : Nat) : List Nat := (List.range 72).filter (coreInScope die scope)

/-- The pages of a range that engine commands of a scope keep, and those that a migration moves: by command (R363, item 1). -/
def State.pagesKept (s : State) (die scope slot : Nat) (r : PageRange) : List (Nat × Nat) × List (Nat × Nat) :=
  let gone := s.tlbs.filter fun e => e.retires die scope slot r
  ((s.copies.filter fun c => coreInScope die scope c.core).flatMap (fun c =>
      (c.kept.filter fun k => s.through gone slot r c.ctx k.1 k.2.2.1).map fun k => (c.id, k.1)),
   (s.migr.filter fun m => m.2.phase != 0 && (m.2.ctx == slot || m.2.leaf.getLsbD 5) &&
      r.has (m.2.va + 65536 * m.2.page)).map fun m => (m.2.id, m.2.page))

/-- Some of the pages are still kept or being moved. -/
def State.stillKept (s : State) (copies migr : List (Nat × Nat)) : Bool :=
  (copies.any fun (id, va) => s.copies.any fun c => c.id == id && c.kept.any fun k => k.1 == va) ||
    migr.any fun (id, n) => s.migr.any fun m => m.2.id == id && m.2.page == n

/-- What a `tfen.sync` retires over a range, beside what engine commands keep (R363, R366). -/
def State.retire (s : State) (die scope slot : Nat) (r : PageRange) : State :=
  let gone := s.tlbs.filter fun e => e.retires die scope slot r
  let hit (core ctx va pa : Nat) : Bool := coreInScope die scope core && s.through gone slot r ctx va pa
  let s := s.landSent fun x => match x.dest with
    | .scratch .. => true
    | _ => false
  let s := ((s.readThrough hit).abortHeld hit).dropWindows hit
  let s := s.invalidate die scope slot r
  (scopeCores die scope).foldl (fun s c => s.writeBack c 5) s

/-- The range that a word names, in its lowest active thread (R365). -/
def Iss.range (I : Iss) (d : BitVec 7) (a : BitVec 6) : PageRange :=
  let n := (I.G.val d.toNat (lowest I.act)).toNat % 65536
  { base := (I.G.pairVal (2 * a.toNat) (lowest I.act)).toNat, count := if n = 0 then 65536 else n, whole := false }

/-- A range word after its checks (R365): the range, or the fault. -/
def State.rangeWord (s : State) (I : Iss) (d : BitVec 7) (a : BitVec 6) (body : State → PageRange → State) : State :=
  let r := I.range d a
  let base := r.base
  let last := base + 65536 * r.count - 1
  let fault (code : Nat) : State := s.raise I { code := code, src := 7, tmask := I.act, va := some base }
  if base % 65536 ≠ 0 then fault codeMisaligned
  else if !canonical base then fault codeNoncanonical
  else if !canonical last then fault codeVaWrap
  else body s r

/-- TFEN_PTREL: the split's table stores reach their homes, and page-waiting splits retry (R358, R366). -/
def execTfenPtrel (c : BitVec 3) (e : Bool) (s : State) : Host.Outcome State Fault Refusal :=
  s.withIss fun I =>
    s.boundaryWord I { mask := I.act } e fun s => s.atBoundary I fun s =>
      let _ := c
      let s := s.writeBack I.core 5
      (s.wakePages fun _ _ => true).newRegion I e

/-- TFEN_WALKACQ: the partition's and the cluster's entries of the context are dropped (R366). -/
def execTfenWalkacq (c : BitVec 3) (e : Bool) (s : State) : Host.Outcome State Fault Refusal :=
  s.withIss fun I =>
    s.boundaryWord I { mask := I.act } e fun s => s.atBoundary I fun s =>
      let _ := c
      (s.tlbDrop fun x => (laneTlbs I.G.lane).contains x.at_ && x.ctx == some I.G.ctx).newRegion I e

/-- A `tfen.sync` completes: page-waiting splits on its range try again, and the acquire actions of its scope apply (R358, R366). -/
def State.synced (s : State) (I : Iss) (scope : Nat) (r : PageRange) (e : Bool) : State :=
  ((s.wakePages fun g va => g.ctx == I.G.ctx && s.rangeHas r I.G.ctx va).acquireBy I scope).newRegion I e

/-- TFEN_SYNC (R363, R366). -/
def execTfenSync (u : Bool) (d : BitVec 7) (a : BitVec 6) (c : BitVec 3) (k m e : Bool) (s : State) :
    Host.Outcome State Fault Refusal :=
  s.withIss fun I =>
    s.boundaryWord I (I.need u true [] [one d m, pairOp a k] .uniform) e fun s =>
      if I.S.released then s.synced I c.toNat (I.range d a) e
      else s.atBoundary I fun s => s.rangeWord I d a fun s r =>
        let scope := c.toNat
        let s := s.writeBack I.core 5
        let (cs, ms) := s.pagesKept I.die scope I.G.ctx r
        let s := s.retire I.die scope I.G.ctx r
        if s.stillKept cs ms then s.suspend I (.sync cs ms) else s.synced I scope r e

/-- An invalidation without the fence (R366). -/
def State.tinv (s : State) (I : Iss) (scope : Nat) (r : PageRange) (e : Bool) : State :=
  let s := s.invalidate I.die scope I.G.ctx r
  (s.wakePages fun g va => g.ctx == I.G.ctx && s.rangeHas r I.G.ctx va).newRegion I e

/-- TINV_PAGE (R365, R366). -/
def execTinvPage (u : Bool) (d : BitVec 7) (a : BitVec 6) (c : BitVec 3) (k m e : Bool) (s : State) :
    Host.Outcome State Fault Refusal :=
  s.withIss fun I =>
    s.boundaryWord I (I.need u true [] [one d m, pairOp a k] .uniform) e fun s => s.atBoundary I fun s =>
      s.rangeWord I d a fun s r => s.tinv I c.toNat r e

/-- TINV_CTX (R366): U asserts nothing (R364). -/
def execTinvCtx (_u : Bool) (c : BitVec 3) (e : Bool) (s : State) : Host.Outcome State Fault Refusal :=
  s.withIss fun I =>
    s.boundaryWord I { mask := I.act } e fun s => s.atBoundary I fun s =>
      s.tinv I c.toNat { base := 0, count := 0, whole := true } e

/-! ### TPRB (R367) -/

/-- The result of a probe that looks in some TLBs first. -/
def State.probe (s : State) (at_ : List TlbAt) (slot va : Nat) : DWord :=
  let word (poison hit : Bool) (level status : Nat) (e : DWord) : DWord :=
    BitVec.ofNat 64 (poison.toNat * 2 ^ 63 + hit.toNat * 2 ^ 62 + level * 2 ^ 60 + status * 2 ^ 56 + e.toNat % 2 ^ 56)
  match s.tlbFind at_ slot va with
  | some e => word (e.pte.getLsbD 63) true e.level 0 e.pte
  | none =>
    let w := s.walk slot va
    match w.how with
    | .unread => word true false w.level 3 0#64
    | .absent => word (w.pte.getLsbD 63) false w.level 1 w.pte
    | .malformed => word (w.pte.getLsbD 63) false w.level 2 w.pte
    | .leaf => word (w.pte.getLsbD 63) false w.level 0 w.pte
    | .table => word true false w.level 4 w.pte

/-- TPRB (R367). -/
def execTprb (u : Bool) (d a : BitVec 6) (k e : Bool) (s : State) : Host.Outcome State Fault Refusal :=
  s.withIss fun I =>
    let od := pairOp d
    let oa := pairOp a k
    s.word I { I.need u true [od] [oa] .uniform with producer := true } e fun s =>
      let va (t : Nat) : Nat := (I.G.pairVal oa.n t).toNat
      match failing I.act (fun t => !canonical (va t)) fun m =>
          { code := codeNoncanonical, src := 7, tmask := m, va := some (va (lowest m)) } with
      | some f => s.raise I f
      | none =>
        let single := u && I.G.opTag oa == .uniform
        let at_ (t : Nat) : DWord := s.probe (laneTlbs I.G.lane) I.G.ctx (va (if single then lowest I.act else t))
        let dsts := if od.regs = [] then [] else
          [(od.n, (List.range 32).map fun t => (at_ t).extractLsb' 0 32),
           (od.n + 1, (List.range 32).map fun t => (at_ t).extractLsb' 32 32)]
        let s := (threadsOf I.act).foldl (fun s t => s.probed (laneTlbs I.G.lane) I.G.ctx (va (if single then lowest I.act else t))) s
        (s.produce I dsts I.S.ty (if single then .uniform else .general) {}).advance I e

end Sys2Proof.Machine
end

