-- ==== Sys2Proof/Machine/Migr.lean ====
section
/-!
DEFINITION. The migration engines: the acceptance of `migr` and `thint` (R378 to R380), tier hints (R377), and the pages of
a migration (R381 to R387).
-/

namespace Sys2Proof.Machine

/-! ### Checks (R378, R380) -/

/-- The check of a range of n pages at an address (R378). -/
def migrRangeBad (va n : Nat) : Option Nat :=
  if va % 65536 ≠ 0 then some codeMisaligned
  else if !canonical va then some codeNoncanonical
  else if !canonical (va + 65536 * n - 1) then some codeVaWrap
  else none

/-- The destination frames lie in one backed range of the named tier that is not isolated (row 5 of R380). -/
def State.migrDestOk (s : State) (f0 n : Nat) (far : Bool) : Bool :=
  let last := f0 + 65536 * n - 1
  match regionOf f0 with
  | .near d => !far && s.present d && regionOf last == regionOf f0
  | .far j => far && regionOf last == regionOf f0 && backed f0 && backed last && !(s.port j).iso
  | _ => false

/-- The fields of the control register that must be 0, beside n and dtier (row 2 of R380). -/
def migrCtlBad (ctl : Word) : Bool :=
  ctl.extractLsb' 28 4 != 0#4 || ctl.extractLsb' 18 3 != 0#3 || ctl.extractLsb' 11 5 != 0#5 ||
    ctl.extractLsb' 17 1 != 0#1 || ctl.extractLsb' 0 11 == 0#11 || decide (1024 < (ctl.extractLsb' 0 11).toNat)

/-- Rows 1 to 5 of R380: the code, the detail, and the addresses that the record carries. -/
def State.migrBad (s : State) (slot va f0 : Nat) (ctl : Word) : Option (Nat × Nat × Option Nat × Option Nat) :=
  let n := (ctl.extractLsb' 0 11).toNat
  if !(s.ctx slot).migr then some (codeMigrInvalid, 1, none, none)
  else if migrCtlBad ctl then some (codeMigrInvalid, 2, none, none)
  else
    match migrRangeBad va n with
    | some c => some (c, 0, some va, none)
    | none =>
      if f0 % 65536 ≠ 0 then some (codeMisaligned, 0, none, some f0)
      else if !s.migrDestOk f0 n (ctl.getLsbD 16) then some (codeMigrInvalid, 3, none, none)
      else none

/-! ### Acceptance (R379, R380) -/

/-- The entries of a migration engine's queue that a command may take: four are kept for trap mode (R15). -/
def migrRoom (trapped : Bool) : Nat := if trapped then 64 else 60

/-- A migration engine's queue has an entry for a word (R15). -/
def State.migrOpen (s : State) (eng : Nat) (trapped : Bool) : Bool :=
  decide ((s.migr.filter fun x => x.1 == eng).length < migrRoom trapped)

/-- Accepts a command of a group, or waits for a queue entry. -/
def State.acceptMigr (s : State) (I : Iss) (e : Bool) (hint va f0 n : Nat) (far : Bool) (bar : Option BarKey) : State :=
  let eng := migrOf I.core
  if !s.portOpen I 8 eng (s.migrOpen eng) then s.awaitPort I 8 eng
  else
    let s := s.releaseBy I 4
    let c : MigrCmd :=
      { id := s.nextUid, group := some I.agid, grid := none, wg := I.G.wg, ctx := I.G.ctx, core := I.core,
        pc := some I.S.pc, count := (I.acting s).executed, hint := hint, va := va, f0 := f0, n := n, far := far, bar := bar,
        page := 0, phase := 0, leaf := 0#64, leafPa := 0, line := 0, poisoned := 0, firstPoison := 0, lost := 0,
        firstLost := 1024, delivers := true, queue := s.queueOf I.G, loc := I.G.loc I.sid }
    { s with migr := s.migr ++ [(eng, c)], nextUid := s.nextUid + 1 }.newRegion I e

/-- A `thint` word (R378). -/
def State.thint (s : State) (I : Iss) (d : BitVec 6) (a : BitVec 7) (lead e : Bool) (op : Nat) : State :=
  s.engineWord I lead (I.descNeed [pairOp d, one a]) e fun s =>
    let va := (I.G.pairVal (pairOp d).n (lowest I.act)).toNat
    let n := (I.desc a.toNat).toNat % 65536
    let n := if n = 0 then 65536 else n
    match migrRangeBad va n with
    | some code => s.refuseCommand I code 8 0 (some va)
    | none => s.acceptMigr I e op va 0 n false none

/-- THINT_PROMOTE (R378). -/
def execThintPromote (d : BitVec 6) (a : BitVec 7) (l e : Bool) (s : State) : Host.Outcome State Fault Refusal :=
  s.withIss fun I => s.thint I d a l e 1

/-- THINT_DEMOTE (R378). -/
def execThintDemote (d : BitVec 6) (a : BitVec 7) (l e : Bool) (s : State) : Host.Outcome State Fault Refusal :=
  s.withIss fun I => s.thint I d a l e 2

/-- THINT_PIN (R378). -/
def execThintPin (d : BitVec 6) (a : BitVec 7) (l e : Bool) (s : State) : Host.Outcome State Fault Refusal :=
  s.withIss fun I => s.thint I d a l e 3

/-- THINT_UNPIN (R378). -/
def execThintUnpin (d : BitVec 6) (a : BitVec 7) (l e : Bool) (s : State) : Host.Outcome State Fault Refusal :=
  s.withIss fun I => s.thint I d a l e 4

/-- THINT_RELEASE (R378). -/
def execThintRelease (d : BitVec 6) (a : BitVec 7) (l e : Bool) (s : State) : Host.Outcome State Fault Refusal :=
  s.withIss fun I => s.thint I d a l e 5

/-- MIGR (R379, R380). -/
def execMigr (d : BitVec 5) (a : BitVec 7) (l e : Bool) (s : State) : Host.Outcome State Fault Refusal :=
  s.withIss fun I =>
    s.engineWord I l (I.descNeed [quadOp d, one a]) e fun s =>
      let q := I.descs (quadOp d).n 4
      let va := (q.getD 1 0#32 ++ q.getD 0 0#32 : DWord).toNat
      let f0 := (q.getD 3 0#32 ++ q.getD 2 0#32 : DWord).toNat
      let ctl := I.desc a.toNat
      match s.migrBad I.G.ctx va f0 ctl with
      | some (code, detail, v, p) =>
        s.raise I { code := code, src := 8, tmask := I.act, va := v, pa := p, detail := detail }
      | none =>
        let scope := (ctl.extractLsb' 21 3).toNat
        let bar := s.barKey I.G scope (ctl.extractLsb' 24 4).toNat
        if scope ≠ 0 ∧ bar = none then s.refuseCommand I codeBarrierInvalid 8 0
        else s.acceptMigr I e 0 va f0 (ctl.extractLsb' 0 11).toNat (ctl.getLsbD 16) (if scope = 0 then none else bar)

/-! ### Tier hints (R377, R378) -/

/-- The payload of a hint message. -/
def hintBytes (op count seq addr : Nat) : List Byte :=
  ([1, op] ++ bytesOf 2 count ++ bytesOf 4 seq ++ bytesOf 8 addr).map (BitVec.ofNat 8)

/-- A port sends hints: hints are enabled and it is not isolated (R377). -/
def Port.sendsHints (p : Port) : Bool := p.hen && !p.iso

/-- Sends one hint message, with the device's vendor identifier (R377, R449). -/
def State.sendHint (s : State) (j op count addr : Nat) : State :=
  let seq := (s.port j).seq
  (s.modPort j fun p => { p with seq := p.seq + 1 }).modHost fun h =>
    { h with hints := h.hints ++ [{ port := j, byId := true, function := 0, code := 0x7F#8, vendor := vendorId,
                                    payload := hintBytes op count seq.toNat addr }] }

/-- The page that a hint keeps, by its port and frame: mapped, unpoisoned, in the far tier behind a port that sends hints
(R378). -/
def State.hintFrame (s : State) (core slot va : Nat) : Option (Nat × Nat) :=
  let r := s.probe (engineTlbs core) slot va
  if r.getLsbD 63 || r.extractLsb' 56 4 != 0#4 || pteTier r != 1 then none
  else
    let f := leafPa (r.extractLsb' 60 2).toNat r va
    match regionOf f with
    | .far j => if (s.port j).sendsHints then some (j, f) else none
    | _ => none

/-- The maximal runs of kept frames: the port, the first frame and the count (R378). -/
def hintRuns : List (Nat × Nat) → List (Nat × Nat × Nat) → List (Nat × Nat × Nat)
  | [], runs => runs.reverse
  | (j, f) :: r, (j', f', n) :: runs =>
    if j = j' ∧ f = f' + 65536 * n ∧ n < 65535 then hintRuns r ((j', f', n + 1) :: runs)
    else hintRuns r ((j, f, 1) :: (j', f', n) :: runs)
  | (j, f) :: r, [] => hintRuns r [(j, f, 1)]

/-- The command that an engine is at: the first of its queue (R379). -/
def State.migrHead (s : State) (eng : Nat) : Option MigrCmd := (s.migr.find? fun x => x.1 == eng).map (·.2)

/-- Removes a command from its engine's queue. -/
def State.migrDrop (s : State) (id : Nat) : State := { s with migr := s.migr.filter fun x => x.2.id != id }

/-- Puts a command back in its place. -/
def State.putMigr (s : State) (c : MigrCmd) : State :=
  { s with migr := s.migr.map fun x => if x.2.id == c.id then (x.1, c) else x }

/-- TIER_HINT_RUN: the engine probes the pages of a hint command and sends one message per run of frames (R378). -/
def execTierHintRun (eng : Nat) (s : State) : Host.Outcome State Fault Refusal :=
  .next (match s.migrHead eng with
    | none => s
    | some c =>
      if c.hint = 0 then s
      else
        let kept := (upFrom c.va 65536 c.n).filterMap (s.hintFrame c.core c.ctx)
        let s := (upFrom c.va 65536 c.n).foldl (fun s va => s.probed (engineTlbs c.core) c.ctx va) s
        (hintRuns kept []).foldl (fun s (j, f, n) => s.sendHint j c.hint n f) (s.migrDrop c.id))

/-! ### The pages of a migration (R381 to R387) -/

/-- The virtual address of the page that a command is at. -/
def MigrCmd.v (c : MigrCmd) : Nat := c.va + 65536 * c.page

/-- The destination frame of the page that a command is at. -/
def MigrCmd.f (c : MigrCmd) : Nat := c.f0 + 65536 * c.page

/-- The port of a physical address as a record names it: 15 for near memory (R387). -/
def recordPort (pa : Nat) : Nat :=
  match regionOf pa with
  | .far j => j
  | _ => 15

/-- The words that a command's group has executed since it, whether the group is resident or has exited; none for an entry of a
range list (R97). -/
def State.migrSkid (s : State) (c : MigrCmd) : Nat := (c.group.map fun g => s.skidOf g c.count).getD 0

/-- A record of the migration engine (R387). -/
def State.migrRec (s : State) (c : MigrCmd) (code cls : Nat) (va pa : Option Nat) (detail : Nat) : State :=
  s.record
    { queue := c.queue, ctx := none, seq := 0, src := 8, cls := cls, code := code, pc := c.pc, va := va, pa := pa,
      tmask := 0#32, loc := c.loc,
      skid := s.migrSkid c, time := 0, detail := detail, die := locDie c.loc }

/-- Adds to the counters of an engine: pages, skips, poisoned lines, lost lines (R385). -/
def State.migrCount (s : State) (eng pag skp pln tln : Nat) : State :=
  let (a, b, x, y) := s.mgcntOf eng
  let sum : Word × Word × Word × Word :=
    (a + BitVec.ofNat 32 pag, b + BitVec.ofNat 32 skp, x + BitVec.ofNat 32 pln, y + BitVec.ofNat 32 tln)
  { s with mgcnt := mapSet s.mgcnt eng sum }

/-- The leaf fails R353, so that the page stays where it is for reason 1 (R381). -/
def State.leafBad (s : State) (c : MigrCmd) (w : Walked) : Bool :=
  w.how != .leaf || w.pte.getLsbD 63 || (leafRefused (s.ctx c.ctx).sys w.pte).isSome

/-- The reason for which a page stays where it is (R381). -/
def State.skipReason (s : State) (c : MigrCmd) (w : Walked) : Option Nat :=
  if s.leafBad c w then some 1
  else if w.level ≠ 3 then some 2
  else if pteTier w.pte = 2 then some 4
  else if pteTier w.pte = 3 then some 3
  else if pteFrame w.pte = c.f then some 5
  else none

/-- The range-list entry of a command is done (R386). -/
def State.rangeDone (s : State) : Option (Nat × Nat) → State
  | none => s
  | some (d, i) => s.modGrid d fun g => { g with rlist := (List.range g.rlist.length).map fun k =>
      let x : RangeEnt := g.rlist.getD k { words := [], done := true }
      if k = i then { x with done := true } else x }

/-- A page has landed, moved or not: the engine goes on to the next page, or to the next command (R379, R381). -/
def State.landPage (s : State) (c : MigrCmd) : State :=
  let next := { c with page := c.page + 1, phase := 0, leaf := 0#64, leafPa := 0, line := 0, poisoned := 0,
                       firstPoison := 0, lost := 0, firstLost := 1024 }
  let s := if c.page + 1 < c.n then s.putMigr next else (s.migrDrop c.id).rangeDone c.grid
  match c.bar with
  | some k =>
    if c.delivers then
      s.land k 4096 c.ctx
        { queue := c.queue, ctx := none, seq := 0, src := 8, cls := 4, code := codeBarrierOverflow, pc := c.pc, va := none,
          pa := none, tmask := 0#32, loc := c.loc,
          skid := s.migrSkid c, time := 0, detail := 0, die := locDie c.loc }
    else s
  | none => s

/-- A page whose leaf passes its checks and names the register window, which no migration may access: PROTECTION, reason 9, with skid
0 (R13). Nothing of the page is performed; the command stops and its context ends, as with a copy's (log entry 68). -/
def State.migrProt (s : State) (c : MigrCmd) (w : Walked) : State :=
  (s.migrDrop c.id).fatal c.ctx
    { queue := c.queue, ctx := none, seq := 0, src := 7, cls := 4, code := codeProtection, pc := c.pc, va := some c.v,
      pa := some (leafPa w.level w.pte c.v), tmask := 0#32, loc := c.loc, skid := 0, time := 0, detail := 9 + 16 * w.level,
      die := locDie c.loc }

/-- Walking and Marking: the checks of the page, and its leaf marked as migrating (R381, R382). -/
def State.migrMark (s : State) (eng : Nat) (c : MigrCmd) : State :=
  let w := s.walk c.ctx c.v
  let s := if w.how = .leaf then s.requestsMet c.ctx c.v w.level else s
  let src := pteFrame w.pte
  if !s.leafBad c w && inWindow src then s.migrProt c w
  else match s.skipReason c w with
  | some r =>
    ((s.migrCount eng 0 1 0 0).migrRec c codeMigrSkipped 0 (some c.v) none
      (r * 2 ^ 36 + (if w.how = .leaf then recordPort src else 15) * 2 ^ 32)).landPage c
  | none =>
    match regionOf src with
    | .far j =>
      if (s.port j).iso then
        ((s.migrCount eng 0 1 0 0).migrRec c codeTimeoutIsolated 2 (some c.v) (some src) (j * 2 ^ 32 + 1024)).landPage c
      else (s.homeWrite w.ptePa (w.pte.extractLsb' 0 32 ||| 0x180#32)).putMigr { c with phase := 1, leaf := w.pte, leafPa := w.ptePa }
    | _ => (s.homeWrite w.ptePa (w.pte.extractLsb' 0 32 ||| 0x180#32)).putMigr { c with phase := 1, leaf := w.pte, leafPa := w.ptePa }

/-- Drops every copy of a frame's words in the L1s, the clusters' buffers and the L2 ways that are not its home (R381). -/
def State.dropFrame (s : State) (f : Nat) : State :=
  let at_ (pa : Nat) : Bool := decide (f ≤ pa) && decide (pa < f + 65536)
  { s with l1 := mapDrop s.l1 fun k => at_ k.2, clu := mapDrop s.clu fun k => at_ k.2, l2 := mapDrop s.l2 fun k => at_ k.2 }

/-- Syncing: the fence of R363 over the page, which waits for the copies that keep it (R381, R382). -/
def State.migrSync (s : State) (eng : Nat) (c : MigrCmd) : State :=
  let r : PageRange := { base := c.v, count := 1, whole := false }
  if (s.pagesKept (migrDie eng) 5 c.ctx r).1 ≠ [] then s
  else ((s.retire (migrDie eng) 5 c.ctx r).dropFrame c.f).putMigr { c with phase := 2 }

/-- Writes one line of 64 bytes at its home; a write to an isolated port is dropped and counted once (R376). -/
def State.lineWrite (s : State) (pa : Nat) (ws : List Word) (bad : Bool) : State :=
  match regionOf pa with
  | .far j =>
    if (s.port j).iso then s.modPort j Port.countDrop
    else
      let s := s.homeWords pa ((List.range 16).map fun i => ws.getD i 0#32)
      if bad then s.poisonLine pa else s
  | _ =>
    let s := s.homeWords pa ((List.range 16).map fun i => ws.getD i 0#32)
    if bad then s.poisonLine pa else s

/-- The isolation of a port while pages behind it are being copied: the first line not yet read, and every later one of the page,
is lost, even where the isolation ends before they come (R383). -/
def MigrCmd.isolated (c : MigrCmd) (port : Nat) : MigrCmd :=
  if (c.phase = 1 ∨ c.phase = 2) ∧ regionOf (pteFrame c.leaf) = .far port then { c with firstLost := min c.firstLost c.line } else c

/-- Copying: the next line; a poisoned source line, and every line after the source port's isolation, arrives poisoned
(R383). -/
def State.migrLine (s : State) (c : MigrCmd) : State :=
  let src := pteFrame c.leaf + 64 * c.line
  let dst := c.f + 64 * c.line
  let lost := decide (c.firstLost ≤ c.line)
  let bad := lost || s.homeMark src != .clean
  let s := s.lineWrite dst (if bad then [] else (List.range 16).map fun i => s.homeWord (src + 4 * i)) bad
  s.putMigr
    { c with
      line := c.line + 1
      phase := if c.line = 1023 then 3 else 2
      lost := if lost then c.lost + 1 else c.lost
      poisoned := if bad && !lost then c.poisoned + 1 else c.poisoned
      firstPoison := if bad && !lost && c.poisoned == 0 then c.line else c.firstPoison }

/-- Remapping and Publishing: the leaf names the new frame and tier, waiting splits try again, the release hint is sent, the
counters and records are written, and the page lands (R381 to R385). -/
def State.migrRemap (s : State) (eng : Nat) (c : MigrCmd) : State :=
  let (now, _) := s.readEntry c.leafPa
  let new : DWord := (now &&& ~~~0x00FFFFFFFFFF0180#64) ||| BitVec.ofNat 64 (c.f + c.far.toNat * 128)
  let s := s.homeWords c.leafPa [new.extractLsb' 0 32, new.extractLsb' 32 32]
  let src := pteFrame c.leaf
  let s := (s.wakePages fun _ _ => true).invalidate (migrDie eng) 5 c.ctx { base := c.v, count := 1, whole := false }
  let s := match pteTier c.leaf, regionOf src with
    | 1, .far j => if (s.port j).sendsHints then s.sendHint j 5 1 src else s
    | _, _ => s
  let s := s.migrCount eng 1 0 c.poisoned c.lost
  let s := if c.poisoned = 0 then s else
    s.migrRec c codePoisonMoved 0 (some (c.v + 64 * c.firstPoison)) (some (c.f + 64 * c.firstPoison))
      (c.poisoned + c.firstPoison * 2 ^ 16 + recordPort src * 2 ^ 32)
  let s := if c.lost = 0 then s else
    s.migrRec c codeTimeoutIsolated 2 (some (c.v + 64 * c.firstLost)) (some (src + 64 * c.firstLost))
      (c.lost + c.firstLost * 2 ^ 16 + recordPort src * 2 ^ 32)
  s.landPage c

/-- MIGRATION_PAGE: the next step of the page that the engine's first command is at (R381, R382). -/
def execMigrationPage (eng : Nat) (s : State) : Host.Outcome State Fault Refusal :=
  .next (match s.migrHead eng with
    | none => s
    | some c =>
      if c.hint ≠ 0 then s
      else
        match c.phase with
        | 0 => s.migrMark eng c
        | 1 => s.migrSync eng c
        | 2 => s.migrLine c
        | _ => s.migrRemap eng c)

end Sys2Proof.Machine
end

