-- ==== Sys2Proof/Machine/Place.lean ====
section
/-!
DEFINITION. The resources of a core and their grant (R26, R27, R220, R285, R315, R342), the choice of dies and cores
(R399, R400), the start of workgroups and groups (R22 to R25, R33, R202), and the return of what they held (R28).
-/

namespace Sys2Proof.Machine

/-! ### The resources of a core (R26) -/

/-- The workgroups of a core that meet a condition. -/
def State.onCore (s : State) (c : Nat) (p : Nat → Workgroup → Bool) : List Workgroup :=
  (s.wgs.filter fun x => x.2.core == c && p x.1 x.2).map (·.2)

/-- A workgroup holds its slot and its barriers: it does not meet the conditions of R28 yet. -/
def Workgroup.holdsSlot (x : Workgroup) : Bool := !x.parted

/-- A workgroup holds its scratchpad: that of a pair returns when both workgroups meet R28 (R174). -/
def State.holdsScratch (s : State) (x : Workgroup) : Bool := x.holdsSlot || (x.peer.bind s.wg).any Workgroup.holdsSlot

/-- An operation of a workgroup or of its peer that touches pan rows is under way (R285). -/
def State.touchesRows (s : State) (w : Nat) (x : Workgroup) : Bool :=
  let mine := w :: x.peer.toList
  (s.copies.any fun c => mine.contains c.wg && c.kind == 1) || s.mxops.any fun o => mine.contains o.wg && !o.done

/-- A workgroup holds its pan rows: those of a pair return when no operation that touches either's is left (R285). -/
def State.holdsRows (s : State) (w : Nat) (x : Workgroup) : Bool := s.holdsScratch x || (x.peer.isSome && s.touchesRows w x)

/-- The workgroups that hold a slot of a core. -/
def State.slotted (s : State) (c : Nat) : List Workgroup := s.onCore c fun _ x => x.holdsSlot

/-- The sum of a resource over the workgroups of a core. -/
def State.sumOf (s : State) (l : List Workgroup) (f : Grid → Nat) : Nat :=
  (l.map fun x => ((mapFind s.grids x.grid).map f).getD 0).sum

/-- The bound of a grid's groups (R27). -/
def Grid.bound (d : Grid) : Nat := growBound d.pool d.ngrp

/-- How many groups of a bound a lane could still take: slots and registers, shadows counted (R10, R26, R342). -/
def State.laneRoom (s : State) (lane bound : Nat) : Nat :=
  let (n, r) := s.groups.foldl (fun (acc : Nat × Nat) x =>
    let g := x.2
    if g.trap.isSome then acc
    else
      let k := (decide (g.lane = lane)).toNat + (g.shadowLane == some lane).toNat
      (acc.1 + k, acc.2 + k * g.cap)) (0, 0)
  min (8 - n) ((512 - r) / bound)

/-- The lane of a group's shadow (R342). -/
def shadowOf (lane : Nat) : Nat := lane / 16 * 16 + (lane + 1) % 16

/-- Lanes for groups with shadows around the ring of a partition: as many as the rooms of its 16 lanes allow, with or
without the lane whose shadow wraps to lane 0. -/
def ringLanes (room : Nat → Nat) (wrap : Bool) : List Nat :=
  let taken : Nat := wrap.toNat
  if wrap && (room 0 == 0 || room 15 == 0) then []
  else
    ((List.range 15).foldl (fun (acc : List Nat × Nat) i =>
      let next := room (i + 1) - (if i = 14 then taken else 0)
      if 0 < acc.2 ∧ 0 < next then (acc.1 ++ [i], next - 1) else (acc.1, next)) ([], room 0 - taken)).1 ++
        (if wrap then [15] else [])

/-- Distinct lanes of a core for n groups of a bound, each with room and, where shadows are reserved, with room on the
lane of its shadow; none where the core cannot grant them (R25, R26, R342). The spec names no lanes among those with room: the model
takes those with the most room first, ties to the lower, with shadows even lanes first (log entry 47). -/
def State.pickLanes (s : State) (c n bound : Nat) (pres : Bool) : Option (List Nat) :=
  let room (l : Nat) : Nat := s.laneRoom (64 * c + l) bound
  let all := List.range 64
  let best (score : Nat → Nat) (l : List Nat) : List Nat :=
    sortBy (fun a b => decide (score b < score a) || (score a == score b && decide (a ≤ b))) (l.filter fun x => decide (0 < score x))
  let picked :=
    if !pres then best room all
    else
      let even := best (fun l => min (room l) (room (shadowOf l))) (all.filter fun l => l % 2 == 0)
      if n ≤ even.length then even
      else (List.range 4).flatMap fun p =>
        let at_ (i : Nat) : Nat := room (16 * p + i)
        let a := ringLanes at_ false
        let b := ringLanes at_ true
        (if b.length ≤ a.length then a else b).map (16 * p + ·)
  if n ≤ picked.length then some ((picked.take n).map (64 * c + ·)) else none

/-- Groups of a grid have shadows (R341). -/
def State.gridPres (s : State) (d : Grid) : Bool := (s.ctx d.ctx).pair || d.paired != 0

/-- The grid's image stands on a core, or fits beside what stands there (R216, R220). -/
def State.macroFits (s : State) (dk : Nat) (d : Grid) (c : Nat) : Bool :=
  d.macroK == 0 || (s.macros.any fun x => x.1 == c && x.2.1 == dk) ||
    decide (((s.macros.filter fun x => x.1 == c).map (·.2.2)).sum + d.macroK ≤ 128)

/-- The lanes that a core grants to a workgroup of n groups of a grid, leaving some workgroup slots free; none where it
cannot grant everything at once (R26, R220, R285, R315, R342, R347). -/
def State.grant (s : State) (dk : Nat) (d : Grid) (n spare c : Nat) : Option (List Nat) :=
  if s.coresOut.any (fun x => x.1 == c) || !s.present (dieOfCore c) then none
  else if 32 < (s.slotted c).length + 1 + spare then none
  else if 4096 < s.sumOf (s.onCore c fun _ x => s.holdsScratch x) (·.scratch) + d.scratch then none
  else if 512 < s.sumOf (s.slotted c) (·.barriers) + d.barriers then none
  else if 1024 < s.sumOf (s.onCore c s.holdsRows) (·.prows) + d.prows then none
  else if !s.macroFits dk d c then none
  else if d.sluice && (mapFind s.sluHold c).any (· != dk) then none
  else s.pickLanes c n d.bound (s.gridPres d)

/-! ### Where the workgroups of a grid go (R23, R314, R399, R400) -/

/-- The dies of a grid's effective mask (R402). -/
def State.gridDies (s : State) (d : Grid) : List Nat := s.presentDies.filter fun n => d.affinity.testBit n

/-- The core of workgroup w of a sluice grid (R314). -/
def Grid.cell (d : Grid) (w : Nat) : Nat := coreAt (d.row0 + w / d.ncol) (d.col0 + w % d.ncol)

/-- A list taken in order from the element after one on, and around. -/
def after (l : List Nat) : Option Nat → List Nat
  | none => l
  | some x => (l.filter fun n => decide (x < n)) ++ l.filter fun n => decide (n ≤ x)

/-- The first of some choices with the least score. -/
def leastOf {α : Type} (score : α → Nat) : List α → Option α
  | [] => none
  | x :: r =>
    match leastOf score r with
    | some y => if score y < score x then some y else some x
    | none => some x

/-- The core of a die, or the cores of one of its clusters, that takes a workgroup or a pair of a grid, with the lanes:
fewest workgroups, ties to the lower core (R24, R400). n gives the groups of each rank. -/
def State.chooseOn (s : State) (dk : Nat) (d : Grid) (n : Nat → Nat) (spare die : Nat) : Option (List (Nat × List Nat)) :=
  let held (c : Nat) : Nat := (s.slotted c).length
  if d.cs = 2 then
    leastOf (fun l => ((l.map fun x => held x.1).sum : Nat)) ((List.range 4).filterMap fun q =>
      let c := 8 * die + 2 * q
      match s.grant dk d (n 0) spare c, s.grant dk d (n 1) spare (c + 1) with
      | some a, some b => some [(c, a), (c + 1, b)]
      | _, _ => none)
  else
    leastOf (fun l => ((l.map fun x => held x.1).sum : Nat)) ((List.range 8).filterMap fun k =>
      (s.grant dk d (n 0) spare (8 * die + k)).map fun a => [(8 * die + k, a)])

/-- A grid that declares a wait on a grid with workgroups not yet placed leaves the last workgroup slot of every core free
(R50). -/
def State.spareFor (s : State) (d : Grid) : Nat :=
  if d.deps.any fun (x : Dep) => (x.uid.bind (mapFind s.grids)).any fun y =>
      decide (y.nextW < y.nwg) && (y.st == .accepted || y.st == .migrating || y.st == .placing) then 1 else 0

/-- The die slices' dies of a die-co-resident grid as they would be now (R23). -/
def State.slicesNow (s : State) (d : Grid) : List Nat := if d.sliceDies = [] then s.gridDies d else d.sliceDies

/-- The dies that a grid waits on (R399). -/
def State.waitsOn (s : State) (d : Grid) : List Nat :=
  if d.sluice then (List.range d.nwg).map fun w => dieOfCore (d.cell w)
  else if d.dcor then
    let dies := s.slicesNow d
    dies.take ((d.nwg + sliceSize d.nwg d.cs dies.length - 1) / max 1 (sliceSize d.nwg d.cs dies.length))
  else s.gridDies d

/-- A die's block of the control plane acts: its scheduler has not stopped (R409). -/
def State.schedulerRuns (s : State) (die : Nat) : Bool := (s.vote (1 + die)).2.2.1

/-- The grids that a scheduler may place: the highest level first, ties to the earlier acceptance (R399, R401). -/
def State.readyGrids (s : State) : List (Nat × Grid) :=
  sortBy (fun a b => decide (b.2.level < a.2.level) || (a.2.level == b.2.level && decide (a.2.order ≤ b.2.order)))
    (s.grids.filter fun x => x.2.st == .placing && (s.ctx x.2.ctx).st == .live)

/-- A grid with a lower level than one that has reached level 7 by aging is held back on a die that the latter waits on
(R399). -/
def State.heldBack (s : State) (die : Nat) (d : Grid) : Bool :=
  s.readyGrids.any fun (_, y) => y.level == 7 && decide (y.prio < 7) && decide (d.level < 7) && (s.waitsOn y).contains die

/-- The die and cores that take workgroup w of a grid, or the pair that it leads (R400). -/
def State.chooseFor (s : State) (dk : Nat) (d : Grid) (n : Nat → Nat) (w : Nat) : Option (Nat × List (Nat × List Nat)) :=
  let spare := s.spareFor d
  if d.sluice then (s.grant dk d (n 0) spare (d.cell w)).map fun l => (dieOfCore (d.cell w), [(d.cell w, l)])
  else if d.dcor then
    let dies := s.slicesNow d
    match dies[w / max 1 (sliceSize d.nwg d.cs dies.length)]? with
    | some die => (s.chooseOn dk d n spare die).map fun x => (die, x)
    | none => none
  else
    (after ((s.gridDies d).filter fun die => s.schedulerRuns die && !s.heldBack die d) d.lastDie).findSome? fun die =>
      (s.chooseOn dk d n spare die).map fun x => (die, x)

/-- The grid is placed whole in one step (R49, R314). -/
def Grid.whole (d : Grid) : Bool := d.cor || d.dcor || d.sluice

/-! ### The start of a workgroup (R22, R26, R33, R202) -/

/-- A group as it starts on a lane (R33, R80, R83, R341). -/
def newGroup (w : Nat) (d : Grid) (pair pres : Bool) (idx lane slot : Nat) : Group where
  wg := w
  ctx := d.ctx
  idx := idx
  lane := lane
  slot := slot
  alloc := d.regs
  cap := d.bound
  regs := []
  preds := []
  splits := [{ idx := 0, st := .ready, pc := d.entry, mask := fullMask, mode := 0#32, fmt := 0x8A00#32, rstart := d.entry,
               rmode := 0#32, rfmt := 0x8A00#32, run := 0, wait := .none, waited := 0, counted := false,
               released := false, passed := 0, call := none }]
  stack := []
  cont := []
  urec := []
  pair := pair
  pres := pres
  shadowLane := if pres then some (shadowOf lane) else none
  exited := 0#32
  held := []
  txs := []
  txReg := []
  prods := []
  nextProd := 0
  executed := 0
  nopre := none
  tokens := 0
  nb := 0#32
  forming := []
  unretired := []
  stamps := []
  trap := none
  stop := .none
  clock := d.clock

/-- The lowest free slot of a lane. -/
def State.freeSlot (s : State) (lane : Nat) : Nat :=
  ((List.range 8).find? fun n => s.groups.all fun x => x.2.trap.isSome || x.2.lane != lane || x.2.slot != n).getD 0

/-- The first pan row of a core from which n rows are free. The numbers of physical rows have no architectural effect
(R285). -/
def State.freeRows (s : State) (c n : Nat) : Nat :=
  let used := (s.onCore c s.holdsRows).map fun x => (x.panBase, x.panRows)
  let free (b : Nat) : Bool := used.all fun x => decide (b + n ≤ x.1) || decide (x.1 + x.2 ≤ b) || x.2 == 0
  ((0 :: used.map fun x => x.1 + x.2).filter free).foldl (fun acc b => if b < acc then b else acc)
    (used.foldl (fun acc x => max acc (x.1 + x.2)) 0)

/-- Pan rows as they are granted: zero and full (R285). -/
def State.clearRows (s : State) (c base n : Nat) : State :=
  let mine (core row : Nat) : Bool := core == c && decide (base ≤ row) && decide (row < base + n)
  { s with pan := mapDrop s.pan fun k => mine k.1 k.2.1
           panPoison := s.panPoison.filter fun k => !mine k.1 k.2.1
           panStamps := mapDrop s.panStamps fun k => mine k.1 k.2.1
           landed := mapDrop s.landed fun k => k.1 == 1 && mine k.2.1 k.2.2
           pendRows := mapDrop s.pendRows fun k => mine k.1 k.2 }

/-- The grid's image is loaded into a core's macro store where it does not stand there yet (R220). -/
def State.loadMacros (s : State) (dk : Nat) (d : Grid) (c : Nat) : State :=
  if d.macroK = 0 ∨ (s.macros.any fun x => x.1 == c && x.2.1 == dk) = true then s
  else { s with macros := s.macros ++ [(c, dk, d.macroK)] }

/-- A workgroup starts on a core (R22, R26, R202). -/
def State.startWg (s : State) (dk : Nat) (d : Grid) (w c : Nat) (lanes : List Nat) (peer : Option Nat) : State :=
  let (wk, s) := s.uid
  let base := s.freeRows c d.prows
  let s := (s.clearRows c base d.prows).loadMacros dk d c
  let pres := s.gridPres d
  let pair := (s.ctx d.ctx).pair || d.paired == 2
  let x : Workgroup :=
    { grid := dk, ctx := d.ctx, w := w, core := c, peer := peer, groups := [], scratch := [], spoison := [],
      pendLines := [], windows := [], wlines := [], slots := [], panBase := base, panRows := d.prows,
      preempting := none, exited := false }
  let s := { s with wgs := mapSet s.wgs wk x }
  let s := (List.range lanes.length).foldl (fun s i =>
    let lane := lanes.getD i 0
    let (gk, s) := s.uid
    let s := { s with groups := mapSet s.groups gk (newGroup wk d pair pres i lane (s.freeSlot lane)) }
    s.modWg wk fun x => { x with groups := x.groups ++ [gk] }) s
  let s := if d.sluice then { s with sluHold := mapSet s.sluHold c dk } else s
  (s.modGrid dk fun d => { d with wgs := d.wgs ++ [wk], cores := if d.cores.contains c then d.cores else d.cores ++ [c] }).acquire c 5

/-- The workgroups of one choice start together (R24). -/
def State.startAll (s : State) (dk : Nat) (d : Grid) (w die : Nat) (l : List (Nat × List Nat)) : State :=
  let n := s.nextUid
  let second := n + 1 + (l.headD (0, [])).2.length
  let s := (List.range l.length).foldl (fun s i =>
    let (c, lanes) := l.getD i (0, [])
    s.startWg dk d (w + i) c lanes (if l.length = 2 then some (if i = 0 then second else n) else none)) s
  s.modGrid dk fun d =>
    let next := w + l.length
    { d with nextW := next, lastDie := some die, level := d.prio, st := if next = d.nwg then .placed else d.st }

/-- Places the rest of a grid, one choice after the other; none where some workgroup cannot be granted (R49). -/
def State.placeRest (s : State) (dk : Nat) : Nat → Option State
  | 0 => some s
  | fuel + 1 =>
    match mapFind s.grids dk with
    | none => none
    | some d =>
      if d.nwg ≤ d.nextW then some s
      else
        match s.chooseFor dk d (fun _ => d.ngrp) d.nextW with
        | some (die, l) => (s.startAll dk d d.nextW die l).placeRest dk fuel
        | none => none

/-- What a grid's turn on a die does: the state in which its next workgroup, or the whole grid, has been placed; none where
that cannot be granted there (R399, R400). -/
def State.placeOn (s : State) (die dk : Nat) (d : Grid) : Option State :=
  if d.whole then
    if (s.waitsOn d).headD 9 ≠ die ∨ !(s.waitsOn d).all fun n => s.schedulerRuns n && !s.heldBack n d then none
    else
      let s := s.modGrid dk fun d => { d with sliceDies := if d.dcor then s.gridDies d else [] }
      s.placeRest dk d.nwg
  else
    match s.chooseFor dk d (fun _ => d.ngrp) d.nextW with
    | some (n, l) => if n = die then some (s.startAll dk d d.nextW die l) else none
    | none => none

/-- What a scheduler's turn does; none where nothing can be placed (R399). -/
def State.placement (s : State) (die : Nat) : Option State :=
  if !s.present die || !s.schedulerRuns die then none
  else s.readyGrids.findSome? fun (dk, d) => s.placeOn die dk d

/-- WORKGROUP_PLACEMENT: the scheduler of a die places the next workgroup that it may, or a whole grid (R400). -/
def execWorkgroupPlacement (die : Nat) (s : State) : Host.Outcome State Fault Refusal :=
  .next ((s.placement die).getD s)

/-- PRIORITY_AGING: the level of a grid that waits rises by 1 (R399). -/
def execPriorityAging (grid : Nat) (s : State) : Host.Outcome State Fault Refusal :=
  .next (s.modGrid grid fun d => if d.st = .placing ∧ d.level < 7 then { d with level := d.level + 1 } else d)

/-! ### The return of resources (R28, R180, R220, R285) -/

/-- A copy writes scratchpad or pan rows of the workgroup that issued it: not one to global memory or to its peer (R266, R267). -/
def CopyCmd.fillsOwn (c : CopyCmd) : Bool := c.path == 0 || (c.path == 2 && decide (c.tile < 0x80000000))

/-- The engine commands that a workgroup issued and that write its scratchpad or pan rows are complete (R28). -/
def State.commandsOver (s : State) (w : Nat) : Bool :=
  !(s.copies.any fun c => c.wg == w && c.fillsOwn) && !s.mxops.any fun o => o.wg == w && !o.done

/-- A workgroup meets the conditions of R28: its last group has exited, and its commands that write its rows are complete. -/
def State.wgOver (s : State) (w : Nat) (x : Workgroup) : Bool := x.exited && s.commandsOver w

/-- The image of a grid leaves a core with the grid's last workgroup there whose resources have returned (R220). -/
def State.dropImage (s : State) (x : Workgroup) : State :=
  if s.wgs.any fun y => y.2.grid == x.grid && y.2.core == x.core && s.holdsRows y.1 y.2 then s
  else { s with macros := s.macros.filter fun m => !(m.1 == x.core && m.2.1 == x.grid) }

/-- A workgroup's resources are free: its rows, its matrix operations and, with the grid's last workgroup of the core, the
image (R28, R220). -/
def State.freeWg (s : State) (w : Nat) (x : Workgroup) : State :=
  let s := { s with
    wgs := mapDel s.wgs w
    mxops := s.mxops.filter fun o => o.wg != w
    rels := mapDrop s.rels fun k => k.1 == w + 1
    landed := mapDrop s.landed fun k => k.1 == 0 && k.2.1 == w }
  (s.clearRows x.core x.panBase x.panRows).dropImage x

/-- Where the pan bytes of a workgroup stand whose rows have returned while a copy still reads them: rows that no core has. -/
def leftRows (w : Nat) : Nat := 2 ^ 20 * (w + 1)

/-- A workgroup's rows have returned to its core while copies that only read its scratchpad or pan rows are under way: for those it
keeps what they read, and no row of the core (R28; log entry 69). -/
def State.leaveRows (s : State) (w : Nat) (x : Workgroup) : State :=
  if x.panBase = leftRows w then s
  else
    let mine (k : Nat × Nat × Nat) : Bool := k.1 == x.core && decide (x.panBase ≤ k.2.1) && decide (k.2.1 < x.panBase + x.panRows)
    let away (k : Nat × Nat × Nat) : Nat × Nat × Nat := (k.1, k.2.1 - x.panBase + leftRows w, k.2.2)
    let bytes := (s.pan.filter fun k => mine k.1).map fun k => (away k.1, k.2)
    let bad := (s.panPoison.filter mine).map away
    let s := s.clearRows x.core x.panBase x.panRows
    let s := { s with pan := s.pan ++ bytes, panPoison := s.panPoison ++ bad, mxops := s.mxops.filter fun o => o.wg != w }
    (s.modWg w fun x => { x with panBase := leftRows w }).dropImage x

/-- Scratchpad and pan rows return: those of a pair together, when both workgroups meet R28 and nothing touches either's pan rows
(R174, R285). What dirty window words copies have left since the exit is written back and released before (R180). -/
def State.returnRows (s : State) (w : Nat) : State :=
  match s.wg w with
  | none => s
  | some x =>
    let all := (w, x) :: (x.peer.bind fun p => (s.wg p).map fun y => (p, y)).toList
    if all.any fun y => s.holdsRows y.1 y.2 then s
    else
      let s := all.foldl (fun s y => (s.winFlush y.1 fun _ _ => true).release y.2.core 6) s
      if s.copies.any fun c => all.any fun y => y.1 == c.wg then all.foldl (fun s y => s.leaveRows y.1 y.2) s
      else all.foldl (fun s y => s.freeWg y.1 y.2) s

/-- RESOURCE_RETURN: the release actions of .sys, then the barriers and the slot of a workgroup return to the core, and its rows as
soon as they may (R28, R174, R202, R285), where the die's scheduler runs (R18). -/
def execResourceReturn (wg : Nat) (s : State) : Host.Outcome State Fault Refusal :=
  .next (match s.wg wg with
    | none => s
    | some x =>
      if !s.schedulerRuns (dieOfCore x.core) then s
      else if x.parted then s.returnRows wg
      else if !s.wgOver wg x then s
      else ((s.release x.core 6).modWg wg fun x => { x with parted := true }).returnRows wg)

end Sys2Proof.Machine
end

