-- ==== Sys2Proof/Machine/Launch.lean ====
section
/-!
DEFINITION. Launch records and their checks (R395, R397, R398), grids from their acceptance to their retirement (R394,
R396, R401, R402), host queues as the command processor consumes them (R394), and `launch` and `lwait` (R403 to R405).
-/

namespace Sys2Proof.Machine

/-! ### Accesses of the command processor (R354) -/

/-- Reads aligned words through a context's translation; none where one cannot be read (R218, R354). -/
def State.cpWords (s : State) (slot va : Nat) : Nat → State × Option (List Word)
  | 0 => (s, some [])
  | n + 1 =>
    if !canonical va then (s, none)
    else
      match s.cpTranslate slot va false with
      | (s, .ok pa _ _) =>
        if inWindow pa || s.homeMark pa != .clean then (s, none)
        else
          let v := s.homeWord pa
          match s.cpWords slot (va + 4) n with
          | (s, some l) => (s, some (v :: l))
          | r => r
      | (s, _) => (s, none)

/-- Reads aligned words at a physical address; none where one cannot be read. -/
def State.physWords (s : State) (pa n : Nat) : Option (List Word) :=
  let at_ := (List.range n).map fun i => pa + 4 * i
  if at_.all fun a => backed a && !inWindow a && s.homeMark a == .clean then some (at_.map s.homeWord) else none

/-- Pairs of words as 64-bit words. -/
def dwords : List Word → List DWord
  | a :: b :: r => (b ++ a : DWord) :: dwords r
  | _ => []

/-- Where a place in memory stands that the command processor writes: its physical address, or it cannot be reached (R346, R407, R411,
R451). -/
inductive Reached where
  | at_ (pa : Nat)
  | never
  deriving DecidableEq, Repr

/-- The line of a physical address takes a write of the command processor: it is not poisoned (R346, R407, R411). -/
def State.lineOpen (s : State) (pa : Nat) : Bool :=
  !(upFrom (64 * lineOf pa) 4 16).any fun a => s.homeMark a == .poison || s.homeMark a == .host

/-- Reaches an address of a context for a write of the command processor (R354). -/
def State.cpReach (s : State) (slot va : Nat) : State × Reached :=
  if !canonical va then (s, .never)
  else
    match s.cpTranslate slot va true with
    | (s, .ok pa _ _) => if inWindow pa || !s.lineOpen pa then (s, .never) else (s, .at_ pa)
    | (s, _) => (s, .never)

/-! ### The launch record (R395) -/

/-- Bits hi to lo of 64-bit word i of a record. -/
def field (r : List DWord) (i hi lo : Nat) : Nat := (r.getD i 0#64).toNat / 2 ^ lo % 2 ^ (hi + 1 - lo)

/-- The dependences that a record names (R398). -/
def recordDeps (r : List DWord) : List Dep :=
  ((List.range 4).map fun i => ({ kind := field r (9 + i) 33 32, id := field r (9 + i) 31 0, uid := none } : Dep)).filter
    fun x => x.kind != 0

/-- A grid as its record describes it (R395). -/
def gridOfRecord (r : List DWord) (id : Word) (slot errq depth : Nat) (parent : Option Nat) (order : Nat) : Grid where
  id := id
  ctx := slot
  entry := r.getD 0 0#64
  nwg := field r 1 31 0
  ngrp := field r 1 37 32
  cs := field r 1 39 38
  regs := field r 1 47 40
  pool := field r 1 60 48
  scratch := field r 2 12 0
  barriers := field r 2 17 13
  prows := field r 2 28 18
  prio := field r 2 31 29
  affinity := field r 2 47 32
  cor := field r 2 48 48 == 1
  dcor := field r 2 49 49 == 1
  psave := field r 2 50 50 == 1
  paired := field r 2 52 51
  sluice := field r 2 53 53 == 1
  ncol := field r 3 11 8
  col0 := field r 3 7 4
  row0 := field r 3 2 0
  csize := field r 3 63 32
  cbase := field r 4 63 0
  macroK := field r 3 22 16
  image := []
  rlist := []
  errq := errq
  signal := field r 8 63 0
  deps := recordDeps r
  depth := depth
  parent := parent
  children := []
  st := .accepted
  order := order
  nextW := 0
  wgs := []
  level := field r 2 31 29
  lastDie := none
  sliceDies := []

/-- A field that must be 0 is not (R395). -/
def recordReserved (r : List DWord) : Bool :=
  field r 1 63 61 != 0 || field r 2 63 54 != 0 || field r 3 31 31 != 0 || field r 3 23 23 != 0 || field r 3 15 12 != 0 ||
    field r 3 3 3 != 0 || ((List.range 4).any fun i => field r (9 + i) 63 34 != 0) ||
    ((List.range 3).any fun i => r.getD (13 + i) 0#64 != 0#64)

/-- A value lies outside the ranges of R395, R26 or R285. -/
def recordRange (d : Grid) (nrl : Nat) : Bool :=
  d.nwg == 0 || d.ngrp == 0 || decide (32 < d.ngrp) || (d.cs != 1 && d.cs != 2) || (d.cs == 2 && d.nwg % 2 == 1) ||
    d.regs % 8 != 0 || decide (d.regs < 16) || decide (128 < d.regs) || d.pool % 8 != 0 || decide (d.pool < 16 * d.ngrp) ||
    decide (128 * d.ngrp < d.pool) || decide (d.pool < d.ngrp * d.regs) || decide (4096 < d.scratch) ||
    decide (16 < d.barriers) || d.prows % 16 != 0 || decide (1024 < d.prows) || decide (2 ^ 31 < d.csize) ||
    decide (64 < nrl) || decide (64 < d.macroK) || decide (11 < d.col0) || decide (5 < d.row0) ||
    (if d.sluice then d.ncol == 0 || decide (12 < d.ncol) else d.ncol != 0)

/-- An address of a record is misaligned or not canonical; that of an image is not read where there is none (R217, check 2 of R397;
log entry 48). -/
def recordAddress (r : List DWord) (d : Grid) : Bool :=
  let bad (va n : Nat) : Bool := va % n != 0 || !canonical va
  bad d.entry.toNat 4 || (d.macroK != 0 && bad (field r 5 63 0) 128) || bad (field r 6 63 0) 32 || bad d.signal 8

/-- Check 2 of R397. -/
def recordInvalid (r : List DWord) (d : Grid) : Bool :=
  recordReserved r || recordRange d (field r 3 30 24) || d.paired == 3 || recordAddress r d ||
    (List.range 4).any fun i =>
      field r (9 + i) 33 32 == 3 || (field r (9 + i) 33 32 == 0 && field r (9 + i) 31 0 != 0)

/-! ### Placement of a whole grid (checks 4 and 5 of R397) -/

/-- The sluice block is refused (R314). -/
def State.sluiceBad (s : State) (d : Grid) : Bool :=
  d.cs == 2 || decide (5 < d.row0 + (d.nwg - 1) / d.ncol) || decide (11 < d.col0 + min d.nwg d.ncol - 1) ||
    !((List.range (min d.nwg 72)).all fun w => s.present (dieOfCore (d.cell w)))

/-- The cores of a die that placement may ever use: all but those that a failed test has removed (R347). -/
def State.usableCores (s : State) (die : Nat) : List Nat :=
  (upFrom (8 * die) 1 8).filter fun c => !s.coresOut.any fun x => x.1 == c && x.2

/-- The workgroups of a grid that one empty core takes (R26, R27, R342). -/
def State.coreCapacity (s : State) (d : Grid) : Nat :=
  let per := min 8 (512 / d.bound)
  let lanes := if s.gridPres d then 32 * per else 64 * per
  let cap (n use : Nat) : Nat := if use = 0 then 32 else n / use
  min 32 (min (lanes / d.ngrp) (min (cap 4096 d.scratch) (min (cap 512 d.barriers) (cap 1024 d.prows))))

/-- The workgroups of a grid that the empty cores of a die take. -/
def State.dieCapacity (s : State) (d : Grid) (die : Nat) : Nat :=
  let cores := s.usableCores die
  let n := if d.cs = 2 then 2 * (cores.filter fun c => c % 2 == 0 && cores.contains (c + 1)).length else cores.length
  n * s.coreCapacity d

/-- Check 5 of R397: a grid that is placed whole does not fit on the empty cores of its dies (R49). -/
def State.tooLarge (s : State) (d : Grid) : Bool :=
  if d.sluice then
    s.coreCapacity d == 0 ||
      !((List.range d.nwg).all fun w => s.present (dieOfCore (d.cell w)) && (s.usableCores (dieOfCore (d.cell w))).contains (d.cell w))
  else if d.dcor then
    let dies := s.gridDies d
    let size := sliceSize d.nwg d.cs dies.length
    !((List.range dies.length).all fun k => decide (min d.nwg ((k + 1) * size) - k * size ≤ s.dieCapacity d (dies.getD k 0)))
  else if d.cor then decide (((s.gridDies d).map (s.dieCapacity d)).sum < d.nwg)
  else false

/-! ### Images and range lists (R218, R386) -/

/-- The slots of an image, 32 words each (R217). -/
def slotsOf (ws : List Word) : Nat → List MacroSlot
  | 0 => []
  | n + 1 => macroSlot (ws.take 32) :: slotsOf (ws.drop 32) n

/-- An entry of a range list fails R386. -/
def State.rangeEntryBad (s : State) (slot : Nat) (x : List DWord) : Bool :=
  let ctl := (x.getD 2 0#64).extractLsb' 0 32
  (s.migrBad slot (x.getD 0 0#64).toNat (x.getD 1 0#64).toNat ctl).isSome || ctl.extractLsb' 21 7 != 0#7 ||
    (x.getD 2 0#64).extractLsb' 32 32 != 0#32 || x.getD 3 0#64 != 0#64

/-- The entries of a range list, four 64-bit words each. -/
def entriesOf (ws : List DWord) : Nat → List RangeEnt
  | 0 => []
  | n + 1 => { words := ws.take 4, done := false } :: entriesOf (ws.drop 4) n

/-! ### Dependences (R398) -/

/-- What a dependence stands at. -/
inductive DepState where
  | retired
  | live
  | pending
  | failed
  deriving DecidableEq, Repr

/-- How a grid that is known counts for those that depend on it. -/
def depOf (g : Grid) : DepState :=
  match g.st with
  | .retired => .retired
  | .rejected _ => .failed
  | .dropped => .failed
  | _ => .live

/-- A grid by context slot and identifier. -/
def State.gridById (s : State) (slot id : Nat) : Option (Nat × Grid) :=
  (mapFind s.gridIds (slot, id)).bind fun n => (mapFind s.grids n).map fun g => (n, g)

/-- The identifier belongs to a grid of another context. -/
def State.foreign (s : State) (slot id : Nat) : Bool := s.gridIds.any fun x => x.1.2 == id && x.1.1 != slot

/-- A kept outcome: the grid with the identifier, a failure where it is another context's, else an older record. -/
def State.keptOutcome (s : State) (slot id : Nat) : DepState :=
  match s.gridById slot id with
  | some (_, g) => depOf g
  | none => if s.foreign slot id then .failed else .retired

/-- The outcome of the record with an identifier is kept: it is one of the last 65,536 of its queue, or of its die's children
(R398). -/
def State.keeps (s : State) (id : Nat) : Bool :=
  if 2 ^ 31 ≤ id then
    decide (2 ^ 27 - (id % 2 ^ 27 + 2 ^ 27 - mapGet s.childCount (id / 2 ^ 27 % 16) 0 % 2 ^ 27) % 2 ^ 27 ≤ 65536)
  else decide (2 ^ 18 - (id % 2 ^ 18 + 2 ^ 18 - (s.queue (id / 2 ^ 18)).head.toNat % 2 ^ 18) % 2 ^ 18 ≤ 65536)

/-- What an identifier stands at for a grid of a context (R398). -/
def State.depState (s : State) (slot id : Nat) : DepState :=
  if 2 ^ 31 ≤ id then
    let die := id / 2 ^ 27 % 16
    let d := (id % 2 ^ 27 + 2 ^ 27 - mapGet s.childCount die 0 % 2 ^ 27) % 2 ^ 27
    if 8 < die ∨ d < 2 ^ 17 then .failed
    else if s.keeps id then s.keptOutcome slot id
    else .retired
  else
    let q := s.queue (id / 2 ^ 18)
    let d := (id % 2 ^ 18 + 2 ^ 18 - q.head.toNat % 2 ^ 18) % 2 ^ 18
    if d < 2 ^ 17 then (if q.en && q.slot == slot then .pending else .failed)
    else if s.keeps id then s.keptOutcome slot id
    else .retired

/-- Check 8 of R397 for one dependence of a grid with an identifier of its own, where it comes from a queue. -/
def State.depBad (s : State) (slot : Nat) (own : Option Nat) (x : Dep) : Bool :=
  (match own with
    | some o => x.id / 2 ^ 18 == o / 2 ^ 18 && decide ((x.id % 2 ^ 18 + 2 ^ 18 - o % 2 ^ 18) % 2 ^ 18 < 2 ^ 17)
    | none => false) || s.depState slot x.id == .failed

/-- A dependence as it stands now: by the grid where that is known; one on an older record counts as retired, and one on a record
not yet consumed waits, unless that record's queue has been disabled since (R398). -/
def State.depNow (s : State) (x : Dep) : DepState :=
  match x.uid.bind (mapFind s.grids) with
  | some g => depOf g
  | none => if x.failed then .failed else if x.pend then .pending else .retired

/-- Changes the dependences of every grid that has been accepted and not placed. -/
def State.mapDeps (s : State) (f : Nat → Dep → Dep) : State :=
  { s with grids := mapAll s.grids fun _ d => { d with deps := d.deps.map (f d.ctx) } }

/-- A queue has been disabled: dependences on its unconsumed records have failed (R398). -/
def State.failPending (s : State) (q : Nat) : State :=
  s.mapDeps fun _ (x : Dep) => if x.pend && x.id / 2 ^ 18 == q then { x with pend := false, failed := true } else x

/-! ### Acceptance (R394, R397) -/

/-- The checks 1 to 6 of R397 up to the image: the status of the first that fails. -/
def State.recordStatus (s : State) (r : List DWord) (d : Grid) : Option Nat :=
  if 10 < d.depth then some 3
  else if recordInvalid r d then some 7
  else if s.gridDies d = [] then some 1
  else if d.sluice && s.sluiceBad d then some 5
  else if s.tooLarge d then some 2
  else none

/-- The checks of R397: the status, 0 where the record is accepted, and the grid with its image and its range list. -/
def State.checkRecord (s : State) (r : List DWord) (d : Grid) (own : Option Nat) : State × Nat × Grid :=
  match s.recordStatus r d with
  | some n => (s, n, d)
  | none =>
    match s.cpWords d.ctx (field r 5 63 0) (32 * d.macroK) with
    | (s, none) => (s, 4, d)
    | (s, some ws) =>
      let d := { d with image := slotsOf ws d.macroK }
      match s.cpWords d.ctx (field r 6 63 0) (8 * field r 3 30 24) with
      | (s, none) => (s, 6, d)
      | (s, some ws) =>
        let l := entriesOf (dwords ws) (field r 3 30 24)
        if l.any fun x => s.rangeEntryBad d.ctx x.words then (s, 6, d)
        else if d.deps.any (s.depBad d.ctx own) then (s, 8, d)
        else
          let deps := d.deps.map fun (x : Dep) =>
            if s.depState d.ctx x.id = .pending then { x with pend := true }
            else if s.keeps x.id then { x with uid := mapFind s.gridIds (d.ctx, x.id) } else x
          (s, 0, { d with rlist := l, deps := deps })

/-- The error queue of a grid (R345). -/
def gridQueue (d : Grid) : QueueRef := { slot := some d.ctx, va := d.errq }

/-- Writes a grid's completion signal as a release at .sys, if it has one and its context has not begun to reset (R187, R396, R411). -/
def State.signalGrid (s : State) (d : Grid) (status : Nat) : State :=
  if d.signal = 0 ∨ ((s.ctx d.ctx).st ≠ .live ∧ (s.ctx d.ctx).st ≠ .held) then s
  else
    match s.cpReach d.ctx d.signal with
    | (s, .at_ pa) => s.forwardFar.homeWords pa [BitVec.ofNat 32 (2 ^ 31 + status), d.id]
    | (s, .never) =>
      s.record
        { queue := gridQueue d, ctx := none, seq := 0, src := 9, cls := 2, code := codeSignalLost, pc := none,
          va := some d.signal, pa := none, tmask := 0#32, loc := unitLoc 4, skid := 0, time := 0, detail := 0, die := 4 }

/-- A grid takes its place under its identifier, which no grid of another context has from then on, and the dependences that wait for
its record know it (R394, R398). -/
def State.enterGrid (s : State) (d : Grid) : Nat × State :=
  let (n, s) := s.uid
  let s := { s with grids := mapSet s.grids n { d with order := n }, gridIds := mapSet (mapDrop s.gridIds fun k => k.2 == d.id.toNat) (d.ctx, d.id.toNat) n }
  (n, s.mapDeps fun slot (x : Dep) =>
    if x.pend && slot == d.ctx && x.id == d.id.toNat then { x with pend := false, uid := some n } else x)

/-- The command processor judges a record read from a host queue (R394, R396, R397). -/
def State.acceptHost (s : State) (r : List DWord) (slot : Nat) (id : Word) : State :=
  let errq := field r 7 63 0
  let d := gridOfRecord r id slot (if errq = 0 then (s.ctx slot).dq else errq) 0 none 0
  match s.checkRecord r d (some id.toNat) with
  | (s, 0, d) => (s.enterGrid d).2
  | (s, n, d) =>
    (s.enterGrid { d with st := .rejected n }).2.signalGrid d n

/-! ### Host queues (R393, R394) -/

/-- Changes a host queue. -/
def State.modQueue (s : State) (q : Nat) (f : HostQueue → HostQueue) : State :=
  { s with queues := mapSet s.queues q (f (s.queue q)) }

/-- A queue stops with an error (R393). -/
def State.stopQueue (s : State) (q reason : Nat) : State :=
  (s.failPending q).modQueue q fun x => { x with en := false, err := true, reason := reason }

/-- The number of grids that have been accepted and have not ended (R394). -/
def State.liveGrids (s : State) : Nat :=
  (s.grids.filter fun x => x.2.st == .accepted || x.2.st == .migrating || x.2.st == .placing || x.2.st == .placed).length

/-- A queue has something for the command processor: a record that can be consumed, or a reason to stop (R393, R394). -/
def State.queueReady (s : State) (q : HostQueue) : Bool :=
  q.en && q.tail != q.head &&
    (match (s.ctx q.slot).st with
      | .held => false
      | .live => decide (s.liveGrids < 65536)
      | _ => true)

/-- The queue whose turn it is, round-robin by index (R394). -/
def State.queueTurn (s : State) : Option Nat :=
  let ready := (s.queues.filter fun x => s.queueReady x.2).map (·.1)
  let late := ready.filter fun q => decide (s.nextQueue ≤ q)
  let first (l : List Nat) : Option Nat := l.foldl (fun acc q => match acc with
    | some b => if q < b then some q else some b
    | none => some q) none
  match first late with
  | some q => some q
  | none => first ready

/-- HOST_QUEUE_CONSUME: the next record of the queue whose turn it is (R394). -/
def execHostQueueConsume (queue : Nat) (s : State) : Host.Outcome State Fault Refusal :=
  .next (if !s.cpRuns || s.queueTurn != some queue then s
    else
      let q := s.queue queue
      let s := { s with nextQueue := queue + 1 }
      if (s.ctx q.slot).st ≠ .live then s.stopQueue queue 3
      else if 2 ^ q.lg < (q.tail - q.head).toNat then s.stopQueue queue 2
      else
        match s.physWords (q.base.toNat + 128 * (q.head.toNat % 2 ^ q.lg)) 32 with
        | none => s.stopQueue queue 1
        | some ws =>
          let id := BitVec.ofNat 32 (2 ^ 18 * queue + q.head.toNat % 2 ^ 18)
          (s.acceptHost (dwords ws) q.slot id).modQueue queue fun x => { x with head := x.head + 1 })

/-! ### The life of a grid (R401) -/

/-- A grid is rejected after its acceptance, with its signal (R398, R402). -/
def State.rejectGrid (s : State) (dk : Nat) (d : Grid) (status : Nat) : State :=
  (s.modGrid dk fun d => { d with st := .rejected status }).signalGrid d status

/-- Every dependence of a grid lets it go on (R398, R401). -/
def State.depsMet (s : State) (d : Grid) : Bool :=
  d.deps.all fun x =>
    match s.depNow x with
    | .retired => true
    | .live => x.kind == 2
    | _ => false

/-- A command of a range list, for the engine of the die row that holds its destination (R386). -/
def rangeCommand (s : State) (dk i : Nat) (d : Grid) (x : RangeEnt) : Nat × MigrCmd :=
  let f0 := (x.words.getD 1 0#64).toNat
  let ctl := (x.words.getD 2 0#64).extractLsb' 0 32
  let eng := homeDie f0 / 3
  (eng,
    { id := s.nextUid, group := none, grid := some (dk, i), wg := 0, ctx := d.ctx, core := 8 * migrDie eng, pc := none,
      count := 0, hint := 0, va := (x.words.getD 0 0#64).toNat, f0 := f0, n := (ctl.extractLsb' 0 11).toNat,
      far := ctl.getLsbD 16, bar := none, page := 0, phase := 0, leaf := 0#64, leafPa := 0, line := 0, poisoned := 0,
      firstPoison := 0, lost := 0, firstLost := 1024, delivers := true, queue := gridQueue d,
      loc := unitLoc (migrDie eng) })

/-- Sends the entries of a range list that are not done and not under way, as far as the engines' queues take them (R15,
R386). -/
def State.sendRanges (s : State) (dk : Nat) (d : Grid) : State :=
  (List.range d.rlist.length).foldl (fun s i =>
    match d.rlist[i]? with
    | none => s
    | some x =>
      let c := rangeCommand s dk i d x
      if x.done || (s.migr.any fun y => y.2.grid == some (dk, i)) ||
          decide (60 ≤ (s.migr.filter fun y => y.1 == c.1).length) then s
      else { s with migr := s.migr ++ [c], nextUid := s.nextUid + 1 }) s

/-- Some entry of a grid's range list is neither done nor with an engine, whose queue has room (R386). -/
def State.rangesLeft (s : State) (dk : Nat) (d : Grid) : Bool :=
  (List.range d.rlist.length).any fun i => match d.rlist[i]? with
    | none => false
    | some x => !x.done && !(s.migr.any fun y => y.2.grid == some (dk, i)) &&
        decide ((s.migr.filter fun y => y.1 == (rangeCommand s dk i d x).1).length < 60)

/-- GRID_READY: an accepted grid whose dependences are met has its range list run; one that depends on a grid that will
never retire is rejected (R398, R401). Entries that found an engine's queue full are sent as it empties (R15, R386). A stopped
command processor does nothing (R18). -/
def execGridReady (grid : Nat) (s : State) : Host.Outcome State Fault Refusal :=
  .next (match mapFind s.grids grid with
    | none => s
    | some d =>
      if !s.cpRuns then s
      else match d.st with
      | .accepted =>
        if d.deps.any fun x => s.depNow x == .failed then s.rejectGrid grid d 8
        else if s.depsMet d then (s.modGrid grid fun d => { d with st := .migrating }).sendRanges grid d
        else s
      | .migrating => s.sendRanges grid d
      | _ => s)

/-- RANGE_LIST_COMPLETE: every entry has landed or been skipped; placement begins (R386, R401). -/
def execRangeListComplete (grid : Nat) (s : State) : Host.Outcome State Fault Refusal :=
  .next (s.modGrid grid fun d =>
    if s.cpRuns ∧ d.st = .migrating ∧ (d.rlist.all (·.done)) = true then { d with st := .placing } else d)

/-- A grid has ended in one of its ways. -/
def GridState.final : GridState → Bool
  | .retired => true
  | .rejected _ => true
  | .dropped => true
  | _ => false

/-- Every workgroup of a grid has exited and returned what it held, every command it issued is complete, and every
descendant has retired (R51, R401). -/
def State.gridOver (s : State) (dk : Nat) (d : Grid) : Bool :=
  d.st == .placed && !(s.wgs.any fun x => x.2.grid == dk) && !(s.saved.any fun x => x.2.wg.grid == dk) &&
    !(s.copies.any fun c => d.wgs.contains c.wg) && !(s.mxops.any fun o => d.wgs.contains o.wg && !o.done) &&
    !(s.migr.any fun m => d.wgs.contains m.2.wg) &&
    d.children.all fun k => (mapFind s.grids k).all fun y => y.st.final

/-- The messages that stand in the buffers of a core or travel to them. -/
def State.messagesAt (s : State) (c : Nat) : Nat :=
  ((List.range 4).map fun dir => (mapGet s.sluBuf (c, dir) []).length + (mapGet s.sluFly (c, dir) []).length).sum

/-- A core's buffers are empty, its credits all free and no grid holds them. -/
def State.clearSluice (s : State) (c : Nat) : State :=
  { s with sluHold := mapDel s.sluHold c, sluBuf := mapDrop s.sluBuf fun k => k.1 == c,
           sluFly := mapDrop s.sluFly fun k => k.1 == c, sluUsed := mapDrop s.sluUsed fun k => k.1 == c,
           sluRet := mapDrop s.sluRet fun k => k.1 == c }

/-- The cores of a retired sluice grid give back its buffers; entries left in them are discarded, with one record for each
core that held some (R315, R326). -/
def State.freeSluice (s : State) (dk : Nat) (d : Grid) : State :=
  ((s.sluHold.filter fun x => x.2 == dk).map (·.1)).foldl (fun s c =>
    let left := s.messagesAt c
    let s := if left = 0 then s else
      s.record
        { queue := gridQueue d, ctx := none, seq := 0, src := 5, cls := 0, code := codeSluiceLeft, pc := none,
          va := none, pa := none, tmask := 0#32, loc := unitLoc (dieOfCore c), skid := 0, time := 0,
          detail := left * 2 ^ 16, die := dieOfCore c }
    s.clearSluice c) s

/-- GRID_RETIREMENT: the grid retires, leaves the constant caches and writes its signal (R177, R396, R401). -/
def execGridRetirement (grid : Nat) (s : State) : Host.Outcome State Fault Refusal :=
  .next (match mapFind s.grids grid with
    | none => s
    | some d =>
      if !s.cpRuns || !s.gridOver grid d then s
      else
        let s := { s with consts := mapDrop s.consts fun k => k.1 == grid }
        let s := (s.freeSluice grid d).modGrid grid fun d => { d with st := .retired }
        (match d.parent with
          | some p => s.modGrid p fun x => { x with finish := x.finish.join d.finish }
          | none => s).signalGrid d 0)

/-! ### LAUNCH and LWAIT (R403 to R405) -/

/-- What the command processor answers to a record of a child: the status, the identifier, and the state (R394, R404). -/
def State.acceptChild (s : State) (I : Iss) (r : List DWord) (pk : Nat) (parent : Grid) : State × Nat × Word :=
  let n := mapGet s.childCount I.die 0
  let id := BitVec.ofNat 32 (2 ^ 31 + 2 ^ 27 * I.die + n % 2 ^ 27)
  let errq := field r 7 63 0
  let d := gridOfRecord r id I.G.ctx (if errq = 0 then parent.errq else errq) (parent.depth + 1) (some pk) 0
  match s.checkRecord r d none with
  | (s, 0, d) =>
    let (k, s) := s.enterGrid { d with clock := s.clockOf I.agid }
    let s := s.modGrid pk fun g => { g with children := g.children ++ [k] }
    ({ s with childCount := mapSet s.childCount I.die (n + 1) }, 0, id)
  | (s, st, _) => (s, st, 0xFFFFFFFF#32)

/-- The split's record stands in a child-launch queue. -/
def Wait.launching : Wait → Bool
  | .launch _ => true
  | _ => false

/-- LAUNCH takes effect: the predicate, the identifier and the status (R404). -/
def State.launched (s : State) (I : Iss) (q : Nat) (d : Opnd) (st : Nat) (id : Word) (e : Bool) : State :=
  (s.modGroup I.gid fun g =>
    (g.setPred q I.act fun _ => st == 0).writePair d.n I.act (fun _ => (BitVec.ofNat 32 st ++ id : DWord)) .uniform).newRegion I e

/-- The splits of a die whose records stand in its child-launch queue, with the ticks at which they came (R15, R404). -/
def State.launches (s : State) (die : Nat) : List (Nat × Nat × Nat) :=
  s.groups.flatMap fun (gid, g) => if g.die ≠ die then [] else g.splits.filterMap fun p => match p.wait with
    | .launch n => some (gid, p.idx, n)
    | _ => none

/-- A die's child-launch queue has a free entry, in trap mode as outside it (R15). -/
def State.launchRoom (s : State) (die : Nat) (_trapped : Bool) : Bool := decide ((s.launches die).length < 16)

/-- The command processor takes a word's record now: it runs, its grid table has room, and no record of the die's queue came before
(R394, R404). -/
def State.launchTurn (s : State) (I : Iss) : Bool :=
  s.cpRuns && decide (s.liveGrids < 65536) &&
    match I.S.wait with
    | .launch n => (s.launches I.die).all fun x => decide (n ≤ x.2.2)
    | _ => s.launches I.die == []

/-- LAUNCH: its record takes an entry of the die's queue, where it waits until the command processor can take it (R15, R404). -/
def execLaunch (d a : BitVec 6) (q : BitVec 3) (e : Bool) (s : State) : Host.Outcome State Fault Refusal :=
  s.withIss fun I =>
    let od := pairOp d
    s.engineWord I true (I.need true true [od] [pairOp a] .uniform) e fun s =>
      let va := (I.G.pairVal (pairOp a).n (lowest I.act)).toNat
      if va % 128 ≠ 0 then s.refuseCommand I codeMisaligned 9 0 (some va)
      else if !canonical va then s.refuseCommand I codeNoncanonical 9 0 (some va)
      else if !canonical (va + 127) then s.refuseCommand I codeVaWrap 9 0 (some va)
      else if !I.S.wait.launching && !s.portOpen I 9 I.die (s.launchRoom I.die) then s.awaitPort I 9 I.die
      else if !s.launchTurn I then s.stall I (if I.S.wait.launching then I.S.wait else .launch s.tick)
      else
        let s := s.releaseBy I 5
        let spoiled (s : State) (code src : Nat) (pa : Option Nat) : State :=
          (s.note I { code := code, src := src, tmask := I.act, va := some va, pa := pa } 2).launched I q.toNat od 7 0xFFFFFFFF#32 e
        let prot (s : State) (r level : Nat) : State :=
          s.raise I { code := codeProtection, src := 7, tmask := I.act, va := some va, detail := r + 16 * level }
        match s.cpTranslate I.G.ctx va false with
        | (s', .ok pa _ _) =>
          let at_ := (List.range 32).map fun i => pa + 4 * i
          if inWindow pa then prot s 9 (s.leafLevel I.G.ctx va)
          else match at_.find? fun x => s'.homeMark x != .clean with
          | some x => spoiled s' (s'.homeMark x).code ((s'.homeMark x).src 9) (some (x / 64 * 64))
          | none =>
            match (s'.wg I.G.wg).bind fun x => (mapFind s'.grids x.grid).map fun g => (x.grid, g) with
            | some (pk, parent) =>
              let (s, st, id) := s'.acceptChild I (dwords (at_.map s'.homeWord)) pk parent
              s.launched I q.toNat od st id e
            | none => s'.launched I q.toNat od 7 0xFFFFFFFF#32 e
        | (s, .absent) => s.pageWait I [(pageOf va, I.act)] []
        | (s, .prot r level) => prot s r level
        | (s, _) => spoiled s codePoisonConsumed 7 none

/-- The identifier names the grid or one of its ancestors (R405). -/
def State.selfOrAncestor (s : State) (id : Nat) : Nat → Option Nat → Bool
  | 0, _ => false
  | _, none => false
  | n + 1, some k =>
    match mapFind s.grids k with
    | some g => g.id.toNat == id || s.selfOrAncestor id n g.parent
    | none => false

/-- LWAIT (R405): a format-A word, whose acceptance releases at .die (R202). One that has waited answers for the grid that it waited
for (R30). -/
def execLwait (d a : BitVec 7) (e : Bool) (s : State) : Host.Outcome State Fault Refusal :=
  s.withIss fun I =>
    s.boundaryWord I (I.need true true [one d] [one a] .uniform) e fun s => s.atBoundary I fun s =>
      let id := (I.G.val a.toNat (lowest I.act)).toNat
      let s := s.releaseBy I 4
      let answer (st : Nat) (c : Clock := []) : State :=
        (((s.acquireBy I 6).learn I.agid c).modGroup I.gid fun g =>
          g.write d.toNat I.act (fun _ => BitVec.ofNat 32 st) .uniform).newRegion I e
      let waited : Option Nat := match I.S.released, I.S.wait with
        | true, .grid k => some k
        | _, _ => none
      if waited.isNone && s.selfOrAncestor id 12 ((s.wg I.G.wg).map (·.grid)) then answer 10
      else
        match (match waited with
          | some k => (mapFind s.grids k).map fun g => (k, g)
          | none => s.gridById I.G.ctx id) with
        | none => answer 9
        | some (k, g) =>
          match g.st with
          | .retired => answer 0 g.finish
          | .rejected n => answer n
          | _ => s.suspend I (.grid k)

end Sys2Proof.Machine
end

