-- ==== Sys2Proof/Machine/Delivery.lean ====
section
/-!
DEFINITION. The delivery of error records: their append at the home slice of their queue's descriptor (R345, R346), the
management queue (R451), and the errors that no word consumes (R346).
-/

namespace Sys2Proof.Machine

/-- The order of a queue's ring descriptor: its base, 2^lg, and its three counts (R345). -/
structure Ring where
  base : Nat
  lg : Nat
  widx : Nat
  ridx : Nat
  ovf : Nat
  deriving DecidableEq, Repr

/-- The ring that the words of a descriptor describe; none where lg lies outside 4 to 20 (R345, R346). -/
def ringOf (ws : List Word) : Option Ring :=
  let d (i : Nat) : Nat := ((dwords ws).getD i 0#64).toNat
  if d 1 % 32 < 4 ∨ 20 < d 1 % 32 then none
  else some { base := d 0, lg := d 1 % 32, widx := d 2, ridx := d 3, ovf := d 4 }

/-- The ring is full: 2^lg records stand in it (R346). -/
def Ring.full (r : Ring) : Bool := decide (r.ridx + 2 ^ r.lg ≤ r.widx)

/-- The address of the next record. -/
def Ring.slotAt (r : Ring) : Nat := r.base + 64 * (r.widx % 2 ^ r.lg)

/-- Reaches a 64-byte line of a queue for writing: the management queue's by its physical address, a context's by its virtual one. The
ring of the management queue lies in a host window; its descriptor may lie anywhere in memory (R346, R451). -/
def State.queueLine (s : State) (slot : Option Nat) (ring : Bool) (va : Nat) : State × Reached :=
  if va % 64 ≠ 0 then (s, .never)
  else
    match slot with
    | none =>
      if (if ring then isHostMem va else backed va && !inWindow va) && s.lineOpen va then (s, .at_ va) else (s, .never)
    | some k => s.cpReach k va

/-- Counts records that were dropped because their queue could not be reached (R346, R391, R451). -/
def State.countLost (s : State) (slot : Option Nat) (n : Nat) : State :=
  match slot with
  | some k => s.modCtx k fun c => { c with lost := min (2 ^ 32 - 1) (c.lost + n) }
  | none => s.modHost fun h => { h with mgqLost := BitVec.ofNat 32 (min (2 ^ 32 - 1) (h.mgqLost.toNat + n)) }

/-- What an append did. -/
inductive Appended where
  | written
  | full
  | lost
  deriving DecidableEq, Repr

/-- Appends the words of a record to the ring that a reachable descriptor describes, or counts it in ovf (R346). The counts
of earlier drops are added to ovf with it. -/
def State.appendAt (s : State) (slot : Option Nat) (desc drops : Nat) (ws : List Word) : State × Appended :=
  if (upFrom desc 4 16).any fun a => s.homeMark a != .clean then (s, .lost)
  else
    match ringOf ((upFrom desc 4 16).map s.homeWord) with
    | none => (s, .lost)
    | some r =>
      let put (s : State) (off v : Nat) : State := s.homeWords (desc + off) [BitVec.ofNat 32 v, BitVec.ofNat 32 (v / 2 ^ 32)]
      let count (s : State) (n : Nat) : State := if n = 0 then s else put s 32 ((r.ovf + n) % 2 ^ 64)
      if r.full then (count s (drops + (if ws = [] then 0 else 1)), .full)
      else if ws = [] then (count s drops, .written)
      else
        match s.queueLine slot true r.slotAt with
        | (s, .at_ pa) =>
          ((put ((count s drops).homeWords pa ws) 16 ((r.widx + 1) % 2 ^ 64)).forwardFar, .written)
        | (s, .never) => (count s drops, .lost)

/-- Delivers words to a queue, with drops that its die still owes it; an unreachable queue loses them (R346). -/
def State.deliverTo (s : State) (slot : Option Nat) (va drops : Nat) (ws : List Word) : State × Appended :=
  let n := drops + (if ws = [] then 0 else 1)
  if va = 0 then (s.countLost slot n, .lost)
  else
    match s.queueLine slot false va with
    | (s, .never) => (s.countLost slot n, .lost)
    | (s, .at_ pa) =>
      match s.appendAt slot pa drops ws with
      | (s, .lost) => (s.countLost slot (if ws = [] then drops else 1), .lost)
      | r => r

/-- The drops that a die owes to queues other than the one it now delivers to are added to their ovf (R346). -/
def State.settleDrops (s : State) (die : Nat) : State :=
  (s.ovfDue.filter fun x => x.1.1 == die).foldl (fun s x =>
    let s := (s.deliverTo (if x.1.2.1 = 1024 then none else some x.1.2.1) x.1.2.2 x.2 []).1
    { s with ovfDue := mapDel s.ovfDue x.1 }) s

/-- A record may be delivered next: none that its source, a place or a group wherever it ran, generated earlier for the same queue
is still on its way (R346). -/
def State.mayDeliver (s : State) (index : Nat) : Bool :=
  match s.pend[index]? with
  | none => false
  | some r => (s.pend.take index).all fun x =>
    !(x.queue == r.queue && (x.loc.toNat / 2 ^ 15 == r.loc.toNat / 2 ^ 15 || (x.group.isSome && x.group == r.group)))

/-- The MSI-X vector of the management queue on both ports: n on port A, 64 + n on port B, where the port is not in reset
(R451, R459). -/
def HostRegs.raiseMsix (h : HostRegs) : HostRegs :=
  { h with msix := h.msix ++ ([0, 1].filter fun p => !h.inReset.contains p).map fun p => 64 * p + h.mgqVec.toNat }

/-- The record belongs to a context that its slot no longer holds. -/
def State.orphan (s : State) (r : ErrRec) : Bool :=
  match r.queue.slot with
  | some k => (s.ctx k).st == .free || r.ctx != some (s.ctxId k)
  | none => false

/-- Removes a record from those on their way. -/
def State.unpend (s : State) (index : Nat) : State := { s with pend := s.pend.eraseIdx index }

/-- ERROR_RECORD_APPEND: a record of a context reaches the home slice of its queue's descriptor (R346). -/
def execErrorRecordAppend (index : Nat) (s : State) : Host.Outcome State Fault Refusal :=
  .next (match s.pend[index]? with
    | none => s
    | some r =>
      match r.queue.slot with
      | none => s
      | some k =>
        if !s.mayDeliver index then s
        else if s.orphan r then s.unpend index
        else
          (((s.deliverTo (some k) r.queue.va 0 r.urec).1.unpend index).settleDrops r.die))

/-- MANAGEMENT_RECORD_APPEND: a record of no context is appended to the hosts' management queue, and its vector is raised
(R451). -/
def execManagementRecordAppend (index : Nat) (s : State) : Host.Outcome State Fault Refusal :=
  .next (match s.pend[index]? with
    | none => s
    | some r =>
      if r.queue.slot.isSome || !s.mayDeliver index then s
      else
        match s.deliverTo none s.host.mgqDesc.toNat 0 r.urec with
        | (s, .written) => ((s.unpend index).modHost HostRegs.raiseMsix).settleDrops r.die
        | (s, _) => (s.unpend index).settleDrops r.die)

/-- UNCONSUMED_ERROR: an error of a line of memory that no word has consumed, corrected or not, is recorded to the hosts;
an uncorrectable one leaves its line poisoned (R335, R346). The spec gives the record no code, and no class where it is
not corrected: free values. -/
def execUnconsumedError (die pa : Nat) (corrected : Bool) (s : State) : Host.Outcome State Fault Refusal :=
  .next (if homeDie pa ≠ die ∨ !backed pa ∨ inWindow pa then s
    else
      let (v, s) := s.free
      let (w, s) := s.free
      let s := if corrected then s else s.poisonMemory pa
      s.manage die 13 (if corrected then 1 else 2 * (w.toNat % 2)) (1 + v.toNat % 31) 0 (some (pa / 64 * 64)))

end Sys2Proof.Machine
end

