-- ==== Sys2Proof/Machine/Matrix.lean ====
section
/-!
DEFINITION. The matrix engine: acceptance of an operation (R292 to R295, R304), tokens, the latch and batches (R299 to
R302), a step from its operands to its accumulators (R287 to R291, R296 to R298, R303, R306), and `pan` (R305).
-/

namespace Sys2Proof.Machine

/-! ### Fields of an operation (R83, R293, R294, R304) -/

/-- The complex bit. -/
def MxOp.complex (o : MxOp) : Bool := o.fmt.getLsbD 24

/-- The K class of a format (R287); none for a format that no step takes. -/
def kClass (code : Nat) : Option Nat :=
  if code = 0 ∨ code = 1 ∨ code = 7 then some 8
  else if code = 2 ∨ code = 3 then some 16
  else if code = 4 ∨ code = 8 then some 4
  else if code = 5 ∨ code = 6 then some 6
  else none

/-- The K elements of the 32 bytes of a row or column (R287). -/
def kCount (code : Nat) : Nat := if isContainer code then 2 * epcOf code else 32 / esOf code

/-! ### Registers that operations read (R303) -/

/-- A group's registers with what was written last to each. -/
def Group.newest (g : Group) : Map Nat Reg :=
  g.fresh.foldl (fun m (n, k, v) => let r := mapGet m n Reg.zero
    mapSet m n { r with vals := mergeVals k (fun t => v.getD t 0#32) r.vals }) g.regs

/-- Registers of a group show what was written last to them. -/
def Group.showNewest (g : Group) (p : Nat → Bool) : Group :=
  let due := g.fresh.filter fun x => p x.1
  { g with
    regs := due.foldl (fun m x => mapSet m x.1 (mapGet g.newest x.1 Reg.zero)) g.regs
    fresh := g.fresh.filter fun x => !p x.1 }

/-- The A registers of some operations, which an `mxw` has covered, show what was written last (R303). -/
def State.showNewest (s : State) (os : List MxOp) : State :=
  os.foldl (fun s o => o.olds.foldl (fun s (gid, _) =>
    s.modGroup gid fun g => g.showNewest fun r => decide (o.areg ≤ r) && decide (r < o.areg + 8)) s) s

/-- What a register of a group held at a token that an operation not yet waited for consumes (R303). -/
def State.oldReg (s : State) (gid r : Nat) : Option Reg :=
  s.mxops.findSome? fun o => if o.waits ≠ [] then none else (mapFind o.olds gid).bind fun m => mapFind m r

/-- OLD_REGISTER: until an `mxw` covers an operation, the group's own reads of a register that it has written since the token
return the old or the new value (R303): the register shows the old one in some threads. -/
def execOldRegister (gid r : Nat) (s : State) : Host.Outcome State Fault Refusal :=
  .next (match mapFind s.groups gid, s.oldReg gid r with
    | some g, some old =>
      if !(g.reg r).full || decide (g.alloc ≤ r) then s
      else
        let new := mapGet g.newest r Reg.zero
        let (m, s) := s.free
        s.modGroup gid fun g =>
          { (g.splitPair r).putReg r
              { new with vals := mergeVals m (fun t => old.vals.getD t 0#32) new.vals, tag := .general } with
            fresh := mapSet g.fresh r (m, new.vals) }
    | _, _ => s)

/-! ### Groups (R299, R301, R302) -/

/-- The group of a workgroup with an index: resident, or as it was when it exited, since what it wrote before an `mxr` is
ordered with the reads that consume its token (R28, R299). -/
def State.groupAt (s : State) (w idx : Nat) : Option (Nat × Group) :=
  match s.groups.find? fun x => x.2.wg == w && x.2.idx == idx && x.2.trap.isNone with
  | some x => some x
  | none => (((s.wg w).map (·.gone)).getD []).find? fun x => x.2.idx == idx

/-- The registers of a group as they were at its oldest token, with the events before it; none where it was posted before a
restore. -/
def Group.oldest (g : Group) : Option (Map Nat Reg × Clock) :=
  if g.shots.length = g.tokens then (g.shots.head?).map fun m => (m, g.posted.headD []) else none

/-- One token of a group of a workgroup is consumed (R299). -/
def State.takeToken (s : State) (w gid : Nat) : State :=
  let take (g : Group) : Group :=
    let known := g.shots.length = g.tokens
    { g with
      tokens := g.tokens - 1
      shots := if known then g.shots.drop 1 else g.shots
      posted := if known then g.posted.drop 1 else g.posted }
  (s.modGroup gid take).modWg w fun x =>
    { x with gone := x.gone.map fun (y : Nat × Group) => if y.1 == gid then (gid, take y.2) else y }

/-- A group's number, batch counter and outstanding batches, whether it is resident, pre-empted or has exited. -/
def State.batchesAt (s : State) (w idx : Nat) : Option (Nat × BitVec 32 × Map Nat (List Nat)) :=
  match s.groupAt w idx with
  | some (n, g) => some (n, g.nb, g.unretired)
  | none =>
    let away := ((mapFind s.saved w).map (·.groups)).getD []
    (away.find? fun x => x.2.idx == idx).map fun (n, g) => (n, g.nb, g.unretired)

/-- Batches from the oldest on retire while they hold no operation (R301). -/
def retireEmpty : Map Nat (List Nat) → Map Nat (List Nat)
  | (_, []) :: r => retireEmpty r
  | l => l

/-- An operation leaves the batches that hold it. -/
def leaveBatches (id : Nat) (l : Map Nat (List Nat)) : Map Nat (List Nat) :=
  retireEmpty (l.map fun x => (x.1, x.2.filter (· != id)))

/-- An operation leaves its group's batches. -/
def Group.leave (g : Group) (id : Nat) : Group :=
  { g with forming := g.forming.filter (· != id), unretired := leaveBatches id g.unretired }

/-- An operation has completed or stopped: it leaves its batch wherever its group is (R301). -/
def State.mxDone (s : State) (o : MxOp) : State :=
  let leave (l : List (Nat × Group)) : List (Nat × Group) :=
    l.map fun x => if x.1 == o.group then (x.1, x.2.leave o.id) else x
  let left (x : Workgroup) : Workgroup := { x with gone := leave x.gone }
  { s with
    groups := leave s.groups
    saved := s.saved.map fun (x : Nat × Saved) => (x.1, { x.2 with groups := leave x.2.groups, wg := left x.2.wg })
    wgs := s.wgs.map fun (x : Nat × Workgroup) => (x.1, left x.2)
    mxops := s.mxops.map fun (x : MxOp) => if x.id == o.id then { x with done := true } else x }

/-! ### Acceptance (R293, R295, R304) -/

/-- Reserved bits of a step's descriptor (R294). -/
def MxOp.reservedStep (o : MxOp) : Bool :=
  o.field 0 18 14 != 0 || o.field 0 10 6 != 0 || o.field 1 16 16 != 0 || o.field 1 10 2 != 0 ||
    (o.kind != .pmma && o.field 1 12 4 != 0) || o.field 2 9 23 != 0 || o.field 2 7 1 != 0 ||
    o.field 3 26 6 != 0 || o.field 3 10 6 != 0

/-- Reserved bits of the descriptor of an `mxc` (R304). -/
def MxOp.reservedClear (o : MxOp) : Bool := o.field 0 17 15 != 0 || o.field 0 10 6 != 0 || o.field 1 13 19 != 0

/-- The first check of R295 that fails, as code and detail; the checks of an `mxc` are 2, 5 and 8 (R304). -/
def State.mxBad (s : State) (o : MxOp) : Option (Nat × Nat) :=
  let desc (r : Nat) : Option (Nat × Nat) := some (codeMxDesc, r)
  let x := s.wg o.wg
  let grid := x.bind fun x => mapFind s.grids x.grid
  let prows := (x.map (·.panRows)).getD 0
  let leader := (grid.map (·.cs)).getD 1 == 2 && (x.map (·.w)).getD 1 % 2 == 0
  let (own, all) := o.scaleRows
  let beyond := prows < o.crow + o.rows ∨ prows < o.brow + o.bRows ∧ o.bRows ≠ 0 ∨ (own ++ all).any fun r => decide (prows ≤ r)
  if !o.isStep then
    if o.reservedClear then desc 1
    else if o.paired && !leader then desc 4
    else if beyond then some (codePanBound, 0)
    else none
  else if 10 < o.afmt ∨ 10 < o.bfmt ∨ 10 < o.cfmt ∨ 2 < o.ascale ∨ 2 < o.bscale ∨ (o.bfmt = 9 ∧ o.bscale = 1) ∨
      (o.afmt = 9 ∧ o.ascale = 1) ∨ (o.kind = .pmma ∧ (o.planes < 2 ∨ 8 < o.planes)) then some (codeReservedField, 0)
  else if o.reservedStep then desc 1
  else if o.cfmt ≠ 10 ∨ (if o.kind = .pmma then o.afmt ≠ 8 ∨ o.bfmt ≠ 9 else kClass o.afmt ≠ kClass o.bfmt ∨ (kClass o.afmt).isNone)
    then desc 2
  else if o.complex != (o.kind == .cmma) then desc 3
  else if o.paired && !leader then desc 4
  else if (grid.map (·.ngrp)).getD 0 < o.agrp + o.acnt + 1 then desc 5
  else if o.kind = .pmma ∧ (o.q = 0 ∨ o.planes < o.q) then desc 6
  else if beyond then some (codePanBound, 0)
  else none

/-- The entries of a matrix queue that a group may use (R15). -/
def matrixRoom (trapped : Bool) : Nat := if trapped then 16 else 15

/-- A cluster's matrix queue has an entry for a word (R15). -/
def State.mxRoom (s : State) (cluster : Nat) (trapped : Bool) : Bool :=
  decide ((s.mxops.filter fun x => x.cluster == cluster && !x.done).length < matrixRoom trapped)

/-- A queued matrix word: the acceptance of one operation (R293, R295). -/
def State.matrixWord (s : State) (I : Iss) (d : Opnd) (areg : Nat) (kind : MxKind) (lead reuse e : Bool) : State :=
  s.engineWord I lead (I.descNeed [d]) e fun s =>
    let o : MxOp :=
      { id := s.nextUid, cluster := clusterOf I.core, core := I.core, wg := I.G.wg, group := I.agid, gidx := I.G.idx,
        ctx := I.G.ctx, pc := I.S.pc, count := (I.acting s).executed, kind := kind, desc := I.descs d.n d.cnt, areg := areg,
        fmt := I.S.fmt, reuse := reuse, ty := I.S.ty, arows := [], started := false, done := false, taint := [],
        batch := none, waits := [], loc := I.G.loc I.sid, queue := s.queueOf I.G, clock := s.clockOf I.agid }
    match s.mxBad o with
    | some (code, detail) => s.refuseCommand I code 4 detail
    | none =>
      if !s.portOpen I 4 o.cluster (s.mxRoom o.cluster) then s.awaitPort I 4 o.cluster
      else
        let s := s.releaseBy I 4
        ({ s with mxops := s.mxops ++ [o], nextUid := s.nextUid + 1 }.modGroup o.group fun g =>
          { g with forming := g.forming ++ [o.id] }).newRegion I e

/-- MMA (R295, R296). -/
def execMma (d : BitVec 5) (a : BitVec 4) (l r e : Bool) (s : State) : Host.Outcome State Fault Refusal :=
  s.withIss fun I => s.matrixWord I (quadOp d) (8 * a.toNat) .mma l r e

/-- CMMA (R295, R297). -/
def execCmma (d : BitVec 5) (a : BitVec 4) (l r e : Bool) (s : State) : Host.Outcome State Fault Refusal :=
  s.withIss fun I => s.matrixWord I (quadOp d) (8 * a.toNat) .cmma l r e

/-- PMMA (R295, R298). -/
def execPmma (d : BitVec 5) (a : BitVec 4) (l r e : Bool) (s : State) : Host.Outcome State Fault Refusal :=
  s.withIss fun I => s.matrixWord I (quadOp d) (8 * a.toNat) .pmma l r e

/-- MXC_ZERO (R304). -/
def execMxcZero (d : BitVec 6) (l e : Bool) (s : State) : Host.Outcome State Fault Refusal :=
  s.withIss fun I => s.matrixWord I (pairOp d) 0 .zero l false e

/-- MXC_RSCL (R304). -/
def execMxcRscl (d : BitVec 6) (l e : Bool) (s : State) : Host.Outcome State Fault Refusal :=
  s.withIss fun I => s.matrixWord I (pairOp d) 0 .rscl l false e

/-! ### MXR, MXF and MXW (R299, R301, R302) -/

/-- MXR: one token for the group, even with an empty active mask (R293, R299). -/
def execMxr (e : Bool) (s : State) : Host.Outcome State Fault Refusal :=
  s.withIss fun I =>
    s.boundaryWord I { mask := I.S.mask } e fun s => s.atBoundary I fun s =>
      if 15 ≤ (I.acting s).tokens then s.stall I .token
      else ((s.releaseBy I 4).modGroup I.agid fun g =>
        { g with tokens := g.tokens + 1, shots := g.shots ++ [g.newest], posted := g.posted ++ [s.clockOf I.agid] }).newRegion I e

/-- MXF: closes the forming batch, even with an empty active mask; a ninth outstanding batch waits (R293, R301). -/
def execMxf (d : BitVec 7) (e : Bool) (s : State) : Host.Outcome State Fault Refusal :=
  s.withIss fun I =>
    let od := one d
    let n : Need := { I.need true true [od] [] .uniform with
      mask := I.S.mask, dsts := if I.act = 0#32 then [] else od.regs }
    s.boundaryWord I n e fun s => s.atBoundary I fun s =>
      let g := I.acting s
      if 8 ≤ g.unretired.length then s.stall I .batches
      else
        let nb := g.nb + 1
        let s := s.releaseBy I 4
        let s := { s with mxops := s.mxops.map fun (x : MxOp) =>
          if x.group == I.agid && x.batch.isNone then { x with batch := some nb.toNat } else x }
        let s := s.modGroup I.agid fun g =>
          { g with nb := nb, forming := [], unretired := retireEmpty (g.unretired ++ [(nb.toNat, g.forming)]) }
        (s.modGroup I.gid fun g => if I.act = 0#32 then g else g.write od.n I.act (fun _ => nb) .uniform).newRegion I e

/-- A completed operation that an `mxw` has covered and that nothing still to come can meet without order: every group, operation
and copy of its workgroup and of that one's peer has the return of such an `mxw` before it (R303). -/
def State.mxPast (s : State) (o : MxOp) : Bool :=
  let near (w : Nat) : Bool := w == o.wg || ((s.wg o.wg).bind (·.peer)) == some w
  o.done && o.waits != [] && (s.groups.all fun x => !near x.2.wg || o.covered x.2.clock) &&
    (s.saved.all fun x => !near x.1 || x.2.groups.all fun g => o.covered g.2.clock) &&
    (s.copies.all fun c => !near c.wg || o.covered c.clock) &&
    s.mxops.all fun x => x.done || !near x.wg || o.covered (x.clock.join x.token)

/-- The wait of an `mxw` returns: the batch's operations and those of the group's earlier batches are covered, and come before what
the group does next; the active threads acquire. From then on the A registers of those operations show what was written last (R202,
R302, R303). -/
def State.batchReturn (s : State) (I : Iss) (group n : Nat) (e : Bool) : State :=
  let within (b : Nat) : Bool := decide ((n + 2 ^ 32 - b) % 2 ^ 32 < 2 ^ 31)
  let mine (x : MxOp) : Bool := x.group == group && (x.batch.map within).getD false
  let s := s.showNewest (s.mxops.filter mine)
  let s := (s.mxops.filter mine).foldl (fun s x => s.learn I.agid (x.clock.join x.token)) s
  let s := { s with mxops := s.mxops.map fun (x : MxOp) => if mine x then { x with waits := (I.agid, s.tick) :: x.waits } else x }
  let s := s.learn I.agid [(I.agid, s.tick)]
  let s := { s with mxops := s.mxops.filter fun o => !s.mxPast o }
  (s.acquireBy I 4).newRegion I e

/-- An `mxw` whose batch has retired while it waited returns (R30); another begins. -/
def State.resumedBatch (s : State) (I : Iss) (e : Bool) (fresh : State) : State :=
  match I.S.released, I.S.wait with
  | true, .batch group n => s.batchReturn I group n e
  | _, _ => fresh

/-- MXW (R302). -/
def execMxw (a b : BitVec 7) (e : Bool) (s : State) : Host.Outcome State Fault Refusal :=
  s.withIss fun I =>
    s.boundaryWord I (I.descNeed [one a, one b]) e fun s => s.resumedBatch I e <| s.atBoundary I fun s =>
      let n := (I.desc a.toNat).toNat
      let sel := I.desc b.toNat
      let idx := (sel.extractLsb' 0 5).toNat
      let peer := (s.wg I.G.wg).bind (·.peer)
      let w := if sel.getLsbD 8 then peer.getD I.G.wg else I.G.wg
      let grid := (s.wg I.G.wg).bind fun x => mapFind s.grids x.grid
      let fault (code detail : Nat) : State := s.refuseCommand I code 4 detail
      if (sel &&& ~~~0x11F#32) ≠ 0#32 then fault codeMxDesc 1
      else if sel.getLsbD 8 && peer.isNone then fault codeMxDesc 4
      else if (grid.map (·.ngrp)).getD 0 ≤ idx then fault codeMxDesc 7
      else
        let s := s.releaseBy I 4
        let (group, nb, open_) := (s.batchesAt w idx).getD (0, 0#32, [])
        let ahead := (nb.toNat + 2 ^ 32 - n) % 2 ^ 32
        if 2 ^ 31 ≤ ahead then fault codeMxWait 0
        else if n = 0 ∨ 8 ≤ ahead ∨ (mapFind open_ n).isNone then s.batchReturn I group n e
        else s.suspend I (.batch group n)

/-! ### PAN (R305) -/

/-- The bytes of a `pan` access by its width code. -/
def panBytes (w : BitVec 4) : Nat := 2 ^ w.toNat

/-- The data operand of a `pan` word. -/
def panOp (w : BitVec 4) (d : BitVec 7) : Opnd := { n := d.toNat, cnt := panBytes w / 4 }

/-- The core, physical row and byte column of a `pan` address; none where it lies outside the rows (R305). -/
def State.panPlace (s : State) (w : Nat) (a : Word) (n : Nat) : Option (Nat × Nat × Nat) :=
  let row := (a.extractLsb' 0 10).toNat
  let col := (a.extractLsb' 16 10).toNat
  let side := if a.getLsbD 31 then (s.wg w).bind (·.peer) else some w
  match side.bind s.wg with
  | none => none
  | some x =>
    if a.extractLsb' 10 6 ≠ 0#6 ∨ a.extractLsb' 26 5 ≠ 0#5 ∨ x.panRows ≤ row ∨ 1024 < col + n then none
    else some (x.core, x.panBase + row, col)

/-- A `pan` word after its checks of the active threads; the body takes each thread's place (R305). -/
def State.panWord (s : State) (I : Iss) (n : Need) (a : BitVec 7) (bytes : Nat) (e : Bool)
    (body : State → (Nat → Nat × Nat × Nat) → State) : State :=
  s.boundaryWord I n e fun s => s.atBoundary I fun s =>
    let addr (t : Nat) : Word := I.G.val a.toNat t
    let place (t : Nat) : Option (Nat × Nat × Nat) := s.panPlace I.G.wg (addr t) bytes
    let odd := I.act &&& maskOf fun t => ((addr t).extractLsb' 16 10).toNat % bytes != 0
    let out := I.act &&& maskOf fun t => (place t).isNone
    if odd ≠ 0#32 then s.raise I { code := codeMisaligned, src := 4, tmask := odd }
    else if out ≠ 0#32 then s.raise I { code := codePanBound, src := 4, tmask := out }
    else body s fun t => (place t).getD (0, 0, 0)

/-- PAN_LD: a producer, whose reads take effect at acceptance where their rows are full, and else when the row fills (R305). -/
def execPanLd (d a : BitVec 7) (w : BitVec 4) (e : Bool) (s : State) : Host.Outcome State Fault Refusal :=
  s.withIss fun I =>
    let od := panOp w d
    let n := panBytes w
    s.panWord I { I.descNeed [one a] with regs := od.regs ++ (one a).regs, dsts := od.regs, producer := true } a n e fun s place =>
      let rows := (threadsOf I.act).map fun t => (1, (place t).1, (place t).2.1)
      let s := s.touchLanded I.agid (rows.filter fun x => !s.panBusy x.2.1 x.2.2)
      let reads := (threadsOf I.act).map fun t =>
        let (c, r, col) := place t
        { thread := t, core := c, row := r, col := col, n := n, hazard := s.panHazard (s.clockOf I.agid) c r col n : PanRead }
      (((s.releaseBy I 4).produce I (od.regs.map fun r => (r, sameVals 0#32)) I.S.ty .general { pan := reads } false).readRows).newRegion I e

/-- PAN_ST: waits for empty rows; the highest thread's value stands (R305). -/
def execPanSt (d a : BitVec 7) (w : BitVec 4) (e : Bool) (s : State) : Host.Outcome State Fault Refusal :=
  s.withIss fun I =>
    let od := panOp w d
    let n := panBytes w
    let need := I.descNeed [one a]
    s.panWord I { need with regs := od.regs ++ need.regs, srcs := need.srcs ++ [(od.regs, false)] } a n e fun s place =>
      match (threadsOf I.act).find? fun t => s.panBusy (place t).1 (place t).2.1 with
      | some t => s.stall I (.row (place t).1 (place t).2.1)
      | none =>
        let s := s.touchLanded I.agid ((threadsOf I.act).map fun t => (1, (place t).1, (place t).2.1))
        ((threadsOf I.act).foldl (fun s t =>
          let (c, r, col) := place t
          ((s.panPut c r col (I.G.storeData od n t) n).stampPan I.agid (panWords c r col n)).taintPan (s.clockOf I.agid)
            (panWords c r col n)) (s.releaseBy I 4)).newRegion I e

/-! ### Records of a running operation (R306) -/

/-- The record of a running operation. -/
def State.mxRec (s : State) (o : MxOp) (code cls detail : Nat) (m : Mask) : ErrRec where
  queue := o.queue
  ctx := none
  seq := 0
  src := 4
  cls := cls
  code := code
  pc := some o.pc
  va := none
  pa := none
  tmask := m
  loc := o.loc
  skid := s.skidOf o.group o.count
  time := 0
  detail := detail
  die := dieOfCore o.core

/-- Notes what an operation has consumed, one record for each row or group: of class 2, or inside containment of class 3, where the
issuing group unwinds with the first of them and what it has written since the word becomes undefined (R306, R339). That a
container of B which fails parity unwinds as one of A does is R306's reading, taken over R334's (log entry 67). -/
def State.mxConsume (s : State) (o : MxOp) (l : List ErrRec) : State :=
  match mapFind s.groups o.group, l with
  | some g, r :: rest =>
    if g.depth = 0 then l.foldl State.record s
    else (rest.map fun x => { x with cls := 3 }).foldl State.record (s.unwind o.group r (g.writtenSince o.count) 4)
  | _, _ => l.foldl State.record s

/-- An operation stops: it counts as complete, and its context ends (R306). -/
def State.mxStop (s : State) (o : MxOp) (code detail : Nat) : State :=
  (s.mxDone o).fatal o.ctx (s.mxRec o code 4 detail 0#32)

/-! ### Starting an operation (R286, R296, R299, R300) -/

/-- The operation waits behind the latch of another group, or behind an operation that is about to take it; an `mxc` never does,
nor does one that has its tokens (R299, R300). -/
def State.deferred (s : State) (o : MxOp) : Bool :=
  o.isStep && !o.started && !o.taken &&
    ((match mapFind s.latches o.cluster with
      | some l => l.group != o.group
      | none => false) ||
    s.mxops.any fun x => x.cluster == o.cluster && x.taken && !x.started && !x.done && x.reuse && x.group != o.group)

/-- Two operations share an array. -/
def State.shareArray (s : State) (o p : MxOp) : Bool :=
  (s.mxCores o).any fun x => (s.mxCores p).any fun y => x.1 == y.1

/-- The operation is next on its arrays, which are free: every earlier one there is over or waits behind a latch, and none that
passed it is under way (R286, R300). -/
def State.mxNext (s : State) (o : MxOp) : Bool :=
  !o.started && !o.done && s.mxCores o != [] && !s.deferred o &&
    ((s.mxops.takeWhile fun x => x.id != o.id).all fun x => x.done || !s.shareArray o x || s.deferred x) &&
    s.mxops.all fun x => x.id == o.id || x.done || !(x.started || x.taken) || !s.shareArray o x

/-- A container of a row of A, of its eight words. -/
def rowContainer (row : List Word) (i : Nat) : Nat :=
  containerOf (row.getD (4 * i) 0#32) (row.getD (4 * i + 1) 0#32) (row.getD (4 * i + 2) 0#32) (row.getD (4 * i + 3) 0#32)

/-- A row of A whose failing containers are read as zeros (R63). -/
def cleanRow (code : Nat) (row : List Word) : List Word :=
  if !isContainer code then row
  else
    [0, 1].flatMap fun i =>
      if cFailing (rowContainer row i) ≠ 0 then [0#32, 0#32, 0#32, BitVec.ofNat 32 (tagOf code * 2 ^ 28)]
      else (row.drop (4 * i)).take 4

/-- Two operations that update one accumulator are ordered without a wait where both are steps: they apply in the order in
which they were accepted (R66, R286). -/
def MxOp.chains (o x : MxOp) : Bool := o.isStep && x.isStep

/-- The rows in which an operation may read what another writes without order (R303): B and scales, and accumulators unless
both are steps. -/
def State.rowsBeside (s : State) (o x : MxOp) : List (Nat × Nat) :=
  (s.mxRows o).map (fun (c, b, r) => (c, b + r)) ++
    if o.readsAcc && !o.chains x then
      (s.mxCores o).flatMap fun (c, b) => (upFrom o.crow 1 o.rows).map fun r => (c, b + r)
    else []

/-- The words that an operation reads without order when it starts, after the events of a clock (R303): those that a completed
operation has written, unless an `mxw` that covers it is one of those events; those that a lane has stored in another event; and
those of accumulator rows that copies are still filling. -/
def State.unordered (s : State) (c : Clock) (o : MxOp) : List (Nat × Nat × Nat) :=
  ((s.mxops.filter fun x => x.id != o.id && x.done && !x.covered c).flatMap fun x =>
    (s.rowsBeside o x).flatMap fun (core, r) =>
      if s.accMeets x core r 0 1024 then (upFrom (128 * x.chalf) 1 128).map fun w => (core, r, w) else []) ++
  (s.panStamps.filter fun (w, l) => s.mxReads o w.1 w.2.1 (4 * w.2.2) 4 && !l.all c.knows).map (·.1) ++
  if !o.readsAcc then []
  else (s.mxCores o).flatMap fun (core, b) =>
    ((upFrom (b + o.crow) 1 o.rows).filter (s.panBusy core)).flatMap fun r =>
      (upFrom (128 * o.chalf) 1 128).map fun w => (core, r, w)

/-- The operation has read A: it is under way, after the events before its acceptance, its tokens and the fills of its rows (R202,
R299), and with reuse the engine keeps the rows (R296, R300). -/
def State.mxBegin (s : State) (o : MxOp) (rows : List (List Word)) : State :=
  let o := (s.mxops.find? fun x => x.id == o.id).getD o
  let c := o.clock.join o.token
  let fills := (s.mxRows o).map (fun (core, b, r) => (1, core, b + r)) ++
    if o.readsAcc then (s.mxCores o).flatMap fun (core, b) => (upFrom (b + o.crow) 1 o.rows).map fun r => (1, core, r) else []
  let taint := { s with mxops := s.mxops.map fun (x : MxOp) => if x.id == o.id then { x with arows := rows } else x }.unordered c
    { o with arows := rows }
  let clock := fills.foldl (fun (k : Clock) x => k.join (mapGet s.landed x [])) o.clock
  { s with
    mxops := s.mxops.map fun (x : MxOp) =>
      if x.id == o.id then { x with started := true, arows := rows, taint := taint, clock := clock } else x
    latches := if o.isStep && o.reuse then
        mapSet s.latches o.cluster { group := o.group, acnt := rows.length / 32 - 1, rows := rows, clock := o.token }
      else s.latches }

/-- A step without the latch consumes its tokens, each with what its group's registers then held (R299, R303). -/
def State.mxTokens (s : State) (o : MxOp) (gs : List (Nat × Group)) : State :=
  let mine (m : Map Nat Reg) : Map Nat Reg := m.filter fun x => decide (o.areg ≤ x.1) && decide (x.1 < o.areg + 8)
  let olds := gs.filterMap fun x => x.2.oldest.map fun m => (x.1, mine m.1)
  let token := gs.foldl (fun (c : Clock) x => match x.2.oldest with
    | some m => c.join m.2
    | none => c.join x.2.clock) []
  let s := gs.foldl (fun s x => s.takeToken o.wg x.1) s
  { s with mxops := s.mxops.map fun (x : MxOp) => if x.id == o.id then { x with taken := true, olds := olds, token := token } else x }

/-- An A register as the collector reads it: in each thread the value that it held at the token or the one written since
(R303). -/
def State.mxReg (s : State) (o : MxOp) (gid : Nat) (g : Group) (r : Nat) : Vals × State :=
  let new := (mapGet g.newest r Reg.zero).vals
  match (mapFind o.olds gid).bind fun m => mapFind m r with
  | none => (new, s)
  | some old =>
    if old.vals = new then (new, s)
    else
      let (m, s) := s.free
      (mergeVals m (fun t => old.vals.getD t 0#32) new, s)

/-- The A registers of each group as the collector reads them. -/
def State.mxRegs (s : State) (o : MxOp) (gs : List (Nat × Group)) (regs : List Nat) : List (List Vals) × State :=
  gs.foldl (fun (acc : List (List Vals) × State) x =>
    let (vs, s) := regs.foldl (fun (a : List Vals × State) r =>
      let (v, s) := a.2.mxReg o x.1 x.2 r
      (a.1 ++ [v], s)) ([], acc.2)
    (acc.1 ++ [vs], s)) ([], s)

/-- A step that has its tokens reads the rows of A through the collector (R288, R296, R306). -/
def State.mxCollect (s : State) (o : MxOp) (gs : List (Nat × Group)) : State :=
  let regs := upFrom o.areg 1 8
  match gs.find? fun x => decide (x.2.alloc < o.areg + 8) with
  | some x => s.mxStop o codeRegBound x.2.idx
  | none =>
    if gs.any fun x => regs.any fun r => !(x.2.reg r).full then s
    else
      let (vals, s) := s.mxRegs o gs regs
      let rows (i : Nat) : List (List Word) := (List.range 32).map fun t => (vals.getD i []).map fun v => v.getD t 0#32
      let wrong (row : List Word) : Bool := [0, 1].any fun i => cTag (rowContainer row i) != tagOf o.afmt
      let fails (row : List Word) : Bool := [0, 1].any fun i => cFailing (rowContainer row i) != 0
      let idx (i : Nat) : Nat := o.agrp + i
      match (List.range gs.length).find? fun i => isContainer o.afmt && (rows i).any wrong with
      | some i => s.mxStop o codeContainer (idx i)
      | none =>
        let recs := if !isContainer o.afmt then [] else (List.range gs.length).filterMap fun i =>
          let m := maskOf fun t => fails ((rows i).getD t [])
          if m = 0#32 then none else some (s.mxRec o codeParity 2 (idx i) m)
        (s.mxBegin o ((List.range gs.length).flatMap fun i => (rows i).map (cleanRow o.afmt))).mxConsume o recs

/-- A step without the latch starts: it consumes a token of each of its groups, then waits for their registers (R296, R299). -/
def State.mxStart (s : State) (o : MxOp) : State :=
  let idxs := upFrom o.agrp 1 (o.acnt + 1)
  let gs := idxs.filterMap fun i => s.groupAt o.wg i
  if gs.length ≠ idxs.length ∨ (!o.taken && gs.any fun x => x.2.tokens == 0) = true then s
  else
    let s := if o.taken then s else s.mxTokens o gs
    s.mxCollect ((s.mxops.find? fun x => x.id == o.id).getD o) gs

/-- An operation that uses the latch comes after the tokens that filled it (R299). -/
def State.mxLatched (s : State) (o : MxOp) (l : Latch) : State :=
  { s with mxops := s.mxops.map fun (x : MxOp) => if x.id == o.id then { x with token := l.clock } else x }

/-- MATRIX_STEP: the next operation of an array starts, once its rows of B and scales are full and its tokens or its latch
are there (R296). -/
def execMatrixStep (cluster id : Nat) (s : State) : Host.Outcome State Fault Refusal :=
  .next (match s.mxops.find? fun o => o.id == id && o.cluster == cluster with
    | none => s
    | some o =>
      if !s.mxNext o || (s.mxRows o).any fun (c, b, r) => s.panBusy c (b + r) then s
      else if !o.isStep then s.mxBegin o []
      else
        match mapFind s.latches cluster with
        | some l => if l.group = o.group then (s.mxLatched o l).mxBegin o l.rows else s.mxStart o
        | none => s.mxStart o)

/-! ### The step (R66, R67, R287 to R291, R296 to R298) -/

/-- The sum of R66: one rounding to f32, with a zero sum taking the sign of C when C is a zero. -/
def stepSum (c : FVal) (ps : List FVal) : Word :=
  let v := match sumVals 0 (c :: ps), c with
    | .fin _ 0 _, .fin neg 0 _ => .fin neg 0 0
    | .fin _ 0 _, _ => .fin false 0 0
    | v, _ => v
  BitVec.ofNat 32 (Fmt.f32.ofVal 0 false v 1#24).1

/-- The values of the 32 bytes of a row or column, as a number, under a format (R287). -/
def kValues (code x : Nat) : List FVal :=
  if isContainer code then
    [0, 1].flatMap fun i => (recElems code (x / 2 ^ (128 * i) % 2 ^ 128)).map (recVal code)
  else (List.range (kCount code)).map fun k => recVal code (elemOf (8 * esOf code) k x)

/-- Values times the scales of their two blocks (R64, R291). -/
def scaleBlocks (s0 s1 : FVal) (vs : List FVal) : List FVal :=
  (List.range vs.length).map fun k => (vs.getD k .nan).mul (if 2 * k < vs.length then s0 else s1)

/-- The scales of the two blocks of row or column i, from a scale row (R291); a word that carries an error is a NaN
(R306). -/
def State.mxScales (s : State) (kind core row i : Nat) : FVal × FVal :=
  match kind with
  | 0 => (.fin false 1 0, .fin false 1 0)
  | 1 =>
    let byte (j : Nat) : FVal := if s.panBad core row (2 * i + j) 1 then .nan else e8m0 (s.panRead core row (2 * i + j) 1)
    (byte 0, byte 1)
  | _ =>
    let v := if s.panBad core row (4 * i) 4 then .nan else Fmt.f32.value (s.panRead core row (4 * i) 4)
    (v, v)

/-- The elements of the container at a place of a row of B, with what R63 and R306 put in the place of what fails: zeros for a
container that fails parity, and zero for each element that lies in a word with an error. -/
def State.mxContainer (s : State) (code core row col : Nat) : List FVal :=
  let c := s.panRead core row col 16
  let w := cWidth (tagOf code)
  let bad (j : Nat) : Bool := s.panBad core row (col + 4 * j) 4
  let sound := !s.panBad core row col 16
  (List.range (epcOf code)).map fun i =>
    if sound && cFailing c != 0 then .fin false 0 0
    else if bad (w * i / 32) || bad ((w * i + w - 1) / 32) then recVal code (recPoison code)
    else recVal code (cElem (tagOf code) (cPayload c) i)

/-- The K values of a column of B, with what R306 puts in the place of an element that carries an error (R287, R289). -/
def State.mxColumn (s : State) (code core row col : Nat) : List FVal :=
  if isContainer code then s.mxContainer code core row col ++ s.mxContainer code core row (col + 16)
  else
    let es := esOf code
    (List.range (32 / es)).map fun k =>
      recVal code (if s.panBad core row (col + k * es) es then recPoison code else s.panRead core row (col + k * es) es)

/-- The value of an element of a bit-plane operand under q of p planes (R65). -/
def planeValue (p q : Nat) (bit : Nat → Bool) : Int :=
  let weight (j : Nat) : Int := if j = 0 then -(2 ^ (p - 1) : Nat) else (2 ^ (p - 1 - j) : Nat)
  (List.range q).foldl (fun (acc : Int) j => if bit j then acc + weight j else acc) 0 +
    (if q < p then (2 ^ (p - q - 1) : Nat) else 0)

/-- The K values of column n of B on a core, scaled (R289, R298). -/
def State.mxB (s : State) (o : MxOp) (core base n : Nat) : List FVal :=
  let vs :=
    if o.kind = .pmma then
      let col := n / 2 * 16
      let planes := (List.range o.q).map fun j =>
        let c := s.panRead core (base + o.brow + j) col 16
        if cFailing c = 0 || s.panBad core (base + o.brow + j) col 16 then cPayload c else 0
      (List.range 60).map fun k =>
        let bit := 60 * (n % 2) + k
        if (List.range o.q).any fun j => s.panBad core (base + o.brow + j) (col + bit / 32 * 4) 4 then .fin false 0 0
        else .ofInt (planeValue o.planes o.q fun j => (planes.getD j 0).testBit bit)
    else s.mxColumn o.bfmt core (base + o.brow + n / 32) (32 * (n % 32))
  let (s0, s1) := s.mxScales o.bscale core (base + o.bsrow) n
  scaleBlocks s0 s1 vs

/-- The K values of row m of A, scaled (R288). -/
def State.mxA (s : State) (o : MxOp) (core base m : Nat) : List FVal :=
  let row := o.arows.getD m []
  let x := rowContainer row 0 + rowContainer row 1 * 2 ^ 128
  let (s0, s1) := s.mxScales o.ascale core (base + o.asrow) m
  scaleBlocks s0 s1 (kValues o.afmt x)

/-- The products of a row and a column that an accumulator of column n adds: all of them, or under `cmma` those of the
real or the imaginary part (R66, R67). -/
def stepProducts (complex : Bool) (n : Nat) (a b : List FVal) : List FVal :=
  if !complex then (a.zip b).map fun x => x.1.mul x.2
  else
    (List.range (a.length / 2)).flatMap fun j =>
      let x (l : List FVal) (i : Nat) : FVal := l.getD (2 * j + i) .nan
      if n % 2 = 0 then [(x a 0).mul (x b 0), ((x a 1).mul (x b 1)).neg] else [(x a 0).mul (x b 1), (x a 1).mul (x b 0)]

/-- Accumulator word (m, n) as the step reads it: a word that carries an error is the NaN of R306. -/
def State.mxAcc (s : State) (o : MxOp) (core base m n : Nat) : FVal :=
  let col := 512 * o.chalf + 4 * n
  if s.panBad core (base + o.crow + m) col 4 then .nan else Fmt.f32.value (s.panRead core (base + o.crow + m) col 4)

/-- The new word of accumulator (m, n), given the scaled row and column; an operand that was touched without order leaves
a free value (R303). -/
def State.mxElement (s : State) (o : MxOp) (own : Nat × Nat) (core base m n : Nat) (a b : List FVal) : Word × State :=
  if o.taint.any (o.uses own core base m n) then s.free
  else
    (match o.kind with
      | .zero => 0#32
      | .rscl =>
        let f := (s.mxScales 2 own.1 (own.2 + o.srow) m).1
        BitVec.ofNat 32 (Fmt.f32.ofVal 0 false ((s.mxAcc o core base m n).mul f) 1#24).1
      | _ =>
        let c := if o.readsAcc then s.mxAcc o core base m n else .fin false 0 0
        stepSum c (stepProducts (o.kind == .cmma) n a b), s)

/-- The new words of an operation's accumulators, each with its core, physical row and column; rows beyond the
workgroup's are left. -/
def State.mxResults (s : State) (o : MxOp) : State × List (Nat × Nat × Nat × Word) :=
  let cores := s.mxCores o
  let own := cores.headD (0, 0)
  let prows := ((s.wg o.wg).map (·.panRows)).getD 0
  let ms := (List.range o.rows).filter fun m => decide (o.crow + m < prows)
  let as := if o.isStep then ms.map fun m => s.mxA o own.1 own.2 m else []
  cores.foldl (fun (acc : State × List (Nat × Nat × Nat × Word)) (core, base) =>
    (List.range 128).foldl (fun (acc : State × List (Nat × Nat × Nat × Word)) n =>
      let b := if o.isStep then acc.1.mxB o core base (o.column n) else []
      (List.range ms.length).foldl (fun (acc : State × List (Nat × Nat × Nat × Word)) i =>
        let m := ms.getD i 0
        let (v, s) := acc.1.mxElement o own core base m n (as.getD i []) b
        (s, (core, base + o.crow + m, 512 * o.chalf + 4 * n, v) :: acc.2)) acc) acc) (s, [])

/-! ### Errors in B, the scales and the accumulators (R306) -/

/-- The columns of a row of B that hold containers which the step reads. -/
def MxOp.containerCols (o : MxOp) : List Nat :=
  if !isContainer o.bfmt then [] else (upFrom 0 16 64).filter fun col => o.kind != .cmma || col / 32 % 2 == 0

/-- A stretch of a pan row that the operation reads in order and without an error. -/
def State.mxSound (s : State) (o : MxOp) (core row col n : Nat) : Bool :=
  !s.panBad core row col n && !o.taint.any fun (c, r, w) => c == core && r == row && decide (col / 4 ≤ w) && decide (w < (col + n) / 4)

/-- The row of B, if any, in which the step meets a container of another format. -/
def State.mxWrong (s : State) (o : MxOp) : Option Nat :=
  (s.mxCores o).findSome? fun (c, b) => (upFrom o.brow 1 o.bRows).find? fun r =>
    o.containerCols.any fun col => s.mxSound o c (b + r) col 16 && cTag (s.panRead c (b + r) col 16) != tagOf o.bfmt

/-- The stretches of n bytes that the columns of B take in a row: under `cmma` only those of even columns are read (R297). -/
def MxOp.columnBytes (o : MxOp) (n cols : Nat) : List (Nat × Nat) :=
  if o.kind = .cmma then (upFrom 0 (2 * n) (cols / 2)).map fun c => (c, n) else [(0, n * cols)]

/-- What the operation reads of pan rows: core, physical row, row, and the stretches read, as first byte and number of bytes
(R289 to R291, R298, R304). -/
def State.mxStretches (s : State) (o : MxOp) : List (Nat × Nat × Nat × List (Nat × Nat)) :=
  let cores := s.mxCores o
  let size (kind : Nat) : Nat := if kind = 1 then 2 else 4
  let acc := if o.readsAcc then upFrom o.crow 1 o.rows else []
  let b := cores.flatMap fun (c, b) =>
    (upFrom o.brow 1 o.bRows).map (fun r => (c, b + r, r, if o.kind = .pmma then [(0, 1024)] else o.columnBytes 32 32)) ++
      (if o.isStep && o.bscale != 0 then [(c, b + o.bsrow, o.bsrow, o.columnBytes (size o.bscale) 128)] else []) ++
      acc.map fun r => (c, b + r, r, [(512 * o.chalf, 512)])
  (cores.take 1).flatMap (fun (c, b) =>
    if o.kind = .rscl then [(c, b + o.srow, o.srow, [(0, 4 * o.rows)])]
    else if o.isStep && o.ascale != 0 then [(c, b + o.asrow, o.asrow, [(0, size o.ascale * o.rows)])]
    else []) ++ b

/-- The records of what the step consumes from the pan: one of each kind for each pan row that holds a failing container, or a
word with an error, which the operation reads (R306). -/
def State.mxErrors (s : State) (o : MxOp) : List ErrRec :=
  let rec_ (code row : Nat) : ErrRec := s.mxRec o code 2 row 0#32
  let parity := (s.mxCores o).flatMap fun (c, b) => (upFrom o.brow 1 o.bRows).filterMap fun r =>
    if o.containerCols.any fun col => s.mxSound o c (b + r) col 16 && cFailing (s.panRead c (b + r) col 16) != 0 then
      some (rec_ codeParity r) else none
  let bad := (s.mxStretches o).filter fun (c, p, _, l) => l.any fun (col, n) => s.panBad c p col n
  let rows := bad.foldl (fun (l : List (Nat × Nat × Nat)) (c, p, r, _) => if l.contains (c, p, r) then l else l ++ [(c, p, r)]) []
  parity ++ rows.map fun x => rec_ codePoisonConsumed x.2.2

/-- Other operations under way or complete read as B, as scales or as accumulators what this one has written: where no `mxw` that
covers them comes before it, their reads are without order (R303). -/
def State.mxTaint (s : State) (o : MxOp) (l : List (Nat × Nat × Nat × Word)) : State :=
  s.mxops.foldl (fun (s : State) (x : MxOp) =>
    if x.id == o.id then s
    else
      let rows := s.rowsBeside x o
      s.taintOp (o.clock.join o.token) x (l.filterMap fun (c, r, col, _) => if rows.contains (c, r) then some (c, r, col / 4) else none)) s

/-- MATRIX_STEP_COMPLETE: the accumulators of an operation under way are written to the pan, and it leaves its batch
(R296, R301). -/
def execMatrixStepComplete (cluster id : Nat) (s : State) : Host.Outcome State Fault Refusal :=
  .next (match s.mxops.find? fun o => o.id == id && o.cluster == cluster && o.started && !o.done with
    | none => s
    | some o =>
      match s.mxWrong o with
      | some r => s.mxStop o codeContainer r
      | none =>
        let recs := s.mxErrors o
        let (s, l) := s.mxResults o
        let s := l.foldl (fun s (c, r, col, v) => if o.readsAcc then s.panWrite c r col v.toNat 4 else s.panPut c r col v.toNat 4) s
        let s := (s.mxTaint o l).mxDone o
        let s := if o.isStep && !o.reuse then
            { s with latches := s.latches.filter fun x => !(x.1 == cluster && x.2.group == o.group) }
          else s
        s.mxConsume o recs)

end Sys2Proof.Machine
end

