-- ==== Sys2Proof/Machine/LaneInt.lean ====
section
/-!
DEFINITION. Lane integer arithmetic, logic, shifts, bit fields and compares (R101 to R116).
-/

namespace Sys2Proof.Machine

/-! ### Arithmetic (R104, R105) -/

/-- Sums and differences keep the strides of affine sources (R152). -/
def Iss.sumTag (I : Iss) (a b : Opnd) (minus : Bool) : Tag :=
  let sa := (I.G.opTag a).stride
  let sb := (I.G.opTag b).stride
  let wide := isWide I.S.ty
  let m := if wide then 2 ^ 64 else 2 ^ 32
  .ofWidth wide ((if minus then sa + (m - sb) else sa + sb) % m)

/-- A product keeps the stride of one affine source, times the value of the uniform one (R152). -/
def Iss.mulTag (I : Iss) (a b : Opnd) : Tag :=
  match I.G.opTag a, I.G.opTag b with
  | .uniform, t => .ofWidth (isWide I.S.ty) (t.stride * I.G.op a 0)
  | t, .uniform => .ofWidth (isWide I.S.ty) (t.stride * I.G.op b 0)
  | _, _ => .general

/-- A two-source arithmetic word. -/
def State.arith2 (s : State) (I : Iss) (u : Bool) (d a b : BitVec 7) (k l : Bool) (f : Int → Int → Int) (sat : Bool)
    (row : Opnd → Opnd → Tag) (e : Bool) : State :=
  let ty := I.S.ty
  let oa := dataOp ty a k
  let ob := dataOp ty b l
  s.arith I u (upTo 7) (dataOp ty d) [oa, ob] (fun t j => f (I.G.opInt ty oa t j) (I.G.opInt ty ob t j)) sat
    (row oa ob) e

/-- ADD (R105). -/
def execAdd (u : Bool) (d a b : BitVec 7) (k l e : Bool) (s : State) : Host.Outcome State Fault Refusal :=
  s.withIss fun I => s.arith2 I u d a b k l (· + ·) I.S.sat (I.sumTag · · false) e

/-- SUB (R105). -/
def execSub (u : Bool) (d a b : BitVec 7) (k l e : Bool) (s : State) : Host.Outcome State Fault Refusal :=
  s.withIss fun I => s.arith2 I u d a b k l (· - ·) I.S.sat (I.sumTag · · true) e

/-- MUL (R105). -/
def execMul (u : Bool) (d a b : BitVec 7) (k l e : Bool) (s : State) : Host.Outcome State Fault Refusal :=
  s.withIss fun I => s.arith2 I u d a b k l (· * ·) I.S.sat I.mulTag e

/-- MULHI: the upper half of the exact product (R105). -/
def execMulhi (u : Bool) (d a b : BitVec 7) (k l e : Bool) (s : State) : Host.Outcome State Fault Refusal :=
  s.withIss fun I =>
    s.arith2 I u d a b k l (fun x y => x * y / 2 ^ elemWidth I.S.ty) false (fun _ _ => .general) e

/-- MIN (R105). -/
def execMin (u : Bool) (d a b : BitVec 7) (k l e : Bool) (s : State) : Host.Outcome State Fault Refusal :=
  s.withIss fun I => s.arith2 I u d a b k l (fun x y => if x ≤ y then x else y) false (fun _ _ => .general) e

/-- MAX (R105). -/
def execMax (u : Bool) (d a b : BitVec 7) (k l e : Bool) (s : State) : Host.Outcome State Fault Refusal :=
  s.withIss fun I => s.arith2 I u d a b k l (fun x y => if x ≤ y then y else x) false (fun _ _ => .general) e

/-- MAD: d is also a source (R102, R105). -/
def execMad (u : Bool) (d a b : BitVec 7) (k l e : Bool) (s : State) : Host.Outcome State Fault Refusal :=
  s.withIss fun I =>
    let ty := I.S.ty
    let od := dataOp ty d
    let oa := dataOp ty a k
    let ob := dataOp ty b l
    s.arith I u (upTo 7) od [od, oa, ob]
      (fun t j => I.G.opInt ty od t j + I.G.opInt ty oa t j * I.G.opInt ty ob t j) I.S.sat .general e

/-- IOP_NEG (R105). -/
def execIopNeg (u : Bool) (d a : BitVec 7) (k e : Bool) (s : State) : Host.Outcome State Fault Refusal :=
  s.withIss fun I =>
    let ty := I.S.ty
    let oa := dataOp ty a k
    let m := if isWide ty then 2 ^ 64 else 2 ^ 32
    s.arith I u (upTo 7) (dataOp ty d) [oa] (fun t j => -I.G.opInt ty oa t j) I.S.sat
      (.ofWidth (isWide ty) (m - (I.G.opTag oa).stride)) e

/-- IOP_ABS (R105). -/
def execIopAbs (u : Bool) (d a : BitVec 7) (k e : Bool) (s : State) : Host.Outcome State Fault Refusal :=
  s.withIss fun I =>
    let ty := I.S.ty
    let oa := dataOp ty a k
    s.arith I u (upTo 7) (dataOp ty d) [oa] (fun t j => ((I.G.opInt ty oa t j).natAbs : Int)) I.S.sat .general e

/-- ADDI: the immediate is signed in every type (R105). -/
def execAddi (u : Bool) (d : BitVec 7) (i : BitVec 16) (e : Bool) (s : State) : Host.Outcome State Fault Refusal :=
  s.withIss fun I =>
    let ty := I.S.ty
    let od := dataOp ty d
    s.arith I u (upTo 3) od [od] (fun t j => I.G.opInt ty od t j + i.toInt) I.S.sat (I.G.opTag od) e

/-- MULI (R105). -/
def execMuli (u : Bool) (d : BitVec 7) (i : BitVec 16) (e : Bool) (s : State) : Host.Outcome State Fault Refusal :=
  s.withIss fun I =>
    let ty := I.S.ty
    let od := dataOp ty d
    let c : Nat := (i.toInt % 2 ^ 64).toNat
    s.arith I u (upTo 3) od [od] (fun t j => I.G.opInt ty od t j * i.toInt) I.S.sat
      (.ofWidth (isWide ty) ((I.G.opTag od).stride * c)) e

/-! ### Logic (R106) -/

/-- The types of the bitwise words (R102). -/
def logicTys (ty : Nat) : Bool := decide (ty ≤ 7) || ty == 14

/-- A bitwise word of two sources. -/
def State.logic2 (s : State) (I : Iss) (u : Bool) (d a b : BitVec 7) (k l : Bool) (f : Nat → Nat → Nat) (e : Bool) : State :=
  let ty := I.S.ty
  let oa := dataOp ty a k
  let ob := dataOp ty b l
  s.plain I u (logicTys ty) (dataOp ty d) [oa, ob] (fun t => f (I.G.op oa t) (I.G.op ob t)) (I.plainTag [oa, ob]) e

/-- AND (R106). -/
def execAnd (u : Bool) (d a b : BitVec 7) (k l e : Bool) (s : State) : Host.Outcome State Fault Refusal :=
  s.withIss fun I => s.logic2 I u d a b k l (· &&& ·) e

/-- OR (R106). -/
def execOr (u : Bool) (d a b : BitVec 7) (k l e : Bool) (s : State) : Host.Outcome State Fault Refusal :=
  s.withIss fun I => s.logic2 I u d a b k l (· ||| ·) e

/-- XOR (R106). -/
def execXor (u : Bool) (d a b : BitVec 7) (k l e : Bool) (s : State) : Host.Outcome State Fault Refusal :=
  s.withIss fun I => s.logic2 I u d a b k l (· ^^^ ·) e

/-- IOP_NOT (R106). -/
def execIopNot (u : Bool) (d a : BitVec 7) (k e : Bool) (s : State) : Host.Outcome State Fault Refusal :=
  s.withIss fun I =>
    let ty := I.S.ty
    let oa := dataOp ty a k
    let ones := if isWide ty then 2 ^ 64 - 1 else 2 ^ 32 - 1
    s.plain I u (logicTys ty) (dataOp ty d) [oa] (fun t => ones - I.G.op oa t) (I.plainTag [oa]) e

/-- A bitwise word with the zero-extended immediate (R106). -/
def State.logicImm (s : State) (I : Iss) (u : Bool) (d : BitVec 7) (f : Nat → Nat) (e : Bool) : State :=
  let ty := I.S.ty
  let od := dataOp ty d
  s.plain I u (decide (ty ≤ 3) || ty == 14) od [od] (fun t => f (I.G.op od t)) (I.plainTag [od]) e

/-- ANDI (R106). -/
def execAndi (u : Bool) (d : BitVec 7) (i : BitVec 16) (e : Bool) (s : State) : Host.Outcome State Fault Refusal :=
  s.withIss fun I => s.logicImm I u d (· &&& i.toNat) e

/-- ORI (R106). -/
def execOri (u : Bool) (d : BitVec 7) (i : BitVec 16) (e : Bool) (s : State) : Host.Outcome State Fault Refusal :=
  s.withIss fun I => s.logicImm I u d (· ||| i.toNat) e

/-- XORI (R106). -/
def execXori (u : Bool) (d : BitVec 7) (i : BitVec 16) (e : Bool) (s : State) : Host.Outcome State Fault Refusal :=
  s.withIss fun I => s.logicImm I u d (· ^^^ i.toNat) e

/-! ### Shifts (R107) -/

/-- The amount of a shift for an element: register b unsigned, or its element for a packed type (R107). -/
def Group.shiftAmount (g : Group) (ty : Nat) (b : Opnd) (t j : Nat) : Nat :=
  if elemCount ty = 1 then (g.val b.n t).toNat else elemOf (elemWidth ty) j (g.op b t)

/-- A shift right, a rotation: what one element becomes. -/
def shiftElem (f : Nat → Nat → Nat → Nat) (ty x : Nat) (amount : Nat → Nat) : Nat :=
  joinElems (elemWidth ty) (elemCount ty) fun j => f (elemWidth ty) (elemOf (elemWidth ty) j x) (amount j)

/-- The logical right shift of an element (R107). -/
def shrElem (w x s : Nat) : Nat := if w ≤ s then 0 else x / 2 ^ s

/-- The arithmetic right shift of an element, filling from its top bit (R107). -/
def sarElem (w x s : Nat) : Nat := ((elemInt true w x / 2 ^ min s w) % 2 ^ w).toNat

/-- The left rotation of an element (R107). -/
def rotElem (w x s : Nat) : Nat := (x * 2 ^ (s % w)) % 2 ^ w + x / 2 ^ (w - s % w)

/-- A left shift of each element, fitted under R104. -/
def State.shiftLeft (s : State) (I : Iss) (u : Bool) (d : BitVec 7) (srcs : List Opnd) (a : Opnd) (amount : Nat → Nat → Nat)
    (row : Tag) (e : Bool) : State :=
  let ty := I.S.ty
  s.arith I u (upTo 7 ++ [14]) (dataOp ty d) srcs
    (fun t j => I.G.opInt ty a t j * 2 ^ min (amount t j) (2 * elemWidth ty)) (saturates I.S) row e

/-- A right shift or rotation of each element. -/
def State.shiftWord (s : State) (I : Iss) (u : Bool) (d : BitVec 7) (srcs : List Opnd) (a : Opnd)
    (f : Nat → Nat → Nat → Nat) (amount : Nat → Nat → Nat) (e : Bool) : State :=
  let ty := I.S.ty
  s.plain I u (logicTys ty) (dataOp ty d) srcs (fun t => shiftElem f ty (I.G.op a t) (amount t)) (I.plainTag srcs) e

/-- SHL (R107). -/
def execShl (u : Bool) (d a b : BitVec 7) (k l e : Bool) (s : State) : Host.Outcome State Fault Refusal :=
  s.withIss fun I =>
    let oa := dataOp I.S.ty a k
    let ob := one b l
    let c := min (I.G.val ob.n 0).toNat 64
    let row : Tag := match I.G.opTag ob with
      | .uniform => .ofWidth (isWide I.S.ty) ((I.G.opTag oa).stride * 2 ^ c)
      | _ => .general
    s.shiftLeft I u d [oa, ob] oa (I.G.shiftAmount I.S.ty ob) row e

/-- SHR (R107). -/
def execShr (u : Bool) (d a b : BitVec 7) (k l e : Bool) (s : State) : Host.Outcome State Fault Refusal :=
  s.withIss fun I =>
    let oa := dataOp I.S.ty a k
    let ob := one b l
    s.shiftWord I u d [oa, ob] oa shrElem (I.G.shiftAmount I.S.ty ob) e

/-- SAR (R107). -/
def execSar (u : Bool) (d a b : BitVec 7) (k l e : Bool) (s : State) : Host.Outcome State Fault Refusal :=
  s.withIss fun I =>
    let oa := dataOp I.S.ty a k
    let ob := one b l
    s.shiftWord I u d [oa, ob] oa sarElem (I.G.shiftAmount I.S.ty ob) e

/-- ROT (R107). -/
def execRot (u : Bool) (d a b : BitVec 7) (k l e : Bool) (s : State) : Host.Outcome State Fault Refusal :=
  s.withIss fun I =>
    let oa := dataOp I.S.ty a k
    let ob := one b l
    s.shiftWord I u d [oa, ob] oa rotElem (I.G.shiftAmount I.S.ty ob) e

/-- SHLI (R107). -/
def execShli (u : Bool) (d a i : BitVec 7) (k e : Bool) (s : State) : Host.Outcome State Fault Refusal :=
  s.withIss fun I =>
    let oa := dataOp I.S.ty a k
    s.shiftLeft I u d [oa] oa (fun _ _ => i.toNat)
      (.ofWidth (isWide I.S.ty) ((I.G.opTag oa).stride * 2 ^ min i.toNat 64)) e

/-- SHRI (R107). -/
def execShri (u : Bool) (d a i : BitVec 7) (k e : Bool) (s : State) : Host.Outcome State Fault Refusal :=
  s.withIss fun I =>
    let oa := dataOp I.S.ty a k
    s.shiftWord I u d [oa] oa shrElem (fun _ _ => i.toNat) e

/-- SARI (R107). -/
def execSari (u : Bool) (d a i : BitVec 7) (k e : Bool) (s : State) : Host.Outcome State Fault Refusal :=
  s.withIss fun I =>
    let oa := dataOp I.S.ty a k
    s.shiftWord I u d [oa] oa sarElem (fun _ _ => i.toNat) e

/-! ### Carry chains, selection, addresses and bit fields (R108 to R112) -/

/-- The types 0, 1 and 14 (R102). -/
def bitsTys (ty : Nat) : Bool := ty == 0 || ty == 1 || ty == 14

/-- A carry-chain word: its sum or difference, with the carry in the predicate mode.sp (R108). The type sets the width of its
operands before it is checked (R90, R101). With a carry predicate other than p0 its tag is general (log entry 24). -/
def State.carryWord (s : State) (I : Iss) (u : Bool) (d a b : BitVec 7) (k l : Bool) (f : Nat → Nat → Bool → Nat × Bool)
    (e : Bool) : State :=
  let od := dataOp I.S.ty d
  let oa := dataOp I.S.ty a k
  let ob := dataOp I.S.ty b l
  let p := I.S.selP
  let at_ (t : Nat) := f (I.G.op oa t) (I.G.op ob t) (p != 0 && I.G.pred p t)
  let tag := if p = 0 then I.plainTag [oa, ob] else .general
  s.word I (I.need u (bitsTys I.S.ty) [od] [oa, ob] tag) e fun s =>
    s.modGroup I.gid fun g =>
      ((g.writeData (od.cnt == 2) od.n I.act (fun t => (at_ t).1) tag).setPred p I.act fun t => (at_ t).2).advance I.sid e

/-- ADDC (R108). -/
def execAddc (u : Bool) (d a b : BitVec 7) (k l e : Bool) (s : State) : Host.Outcome State Fault Refusal :=
  s.withIss fun I => s.carryWord I u d a b k l addCarry e

/-- SUBC (R108). -/
def execSubc (u : Bool) (d a b : BitVec 7) (k l e : Bool) (s : State) : Host.Outcome State Fault Refusal :=
  s.withIss fun I => s.carryWord I u d a b k l subBorrow e

/-- SEL (R111), whose destination R152 tags general. -/
def execSel (u : Bool) (d a b : BitVec 7) (k l e : Bool) (s : State) : Host.Outcome State Fault Refusal :=
  s.withIss fun I =>
    let ty := I.S.ty
    let oa := dataOp ty a k
    let ob := dataOp ty b l
    s.plain I u true (dataOp ty d) [oa, ob] (fun t => if I.G.pred I.S.selP t then I.G.op oa t else I.G.op ob t)
      .general e

/-- The stride of an address formed from a uniform base and an affine index, where the extension of the index crosses no
wrap; checked on the first and the last thread (R152). -/
def leaTag (ext : Nat → Int) (s : Int) (lsc : Nat) : Tag :=
  if ext 31 = ext 0 + 31 * s then .ofStride64 (BitVec.ofInt 64 (s * 2 ^ lsc)) else .general

/-- LEA (R112). -/
def execLea (u : Bool) (d a : BitVec 6) (b : BitVec 7) (k l e : Bool) (s : State) : Host.Outcome State Fault Refusal :=
  s.withIss fun I =>
    let ty := I.S.ty
    let oa := pairOp a k
    let ob := dataOp ty b l
    let ext (t : Nat) : Int := if ty = 0 then elemInt true 32 (I.G.op ob t) else I.G.op ob t
    let row : Tag := match I.G.opTag oa, I.G.opTag ob with
      | .uniform, .affine st => leaTag ext st.toInt I.S.lsc
      | .uniform, .affine64 st => .ofStride64 (st * BitVec.ofNat 64 (2 ^ I.S.lsc))
      | .affine64 st, .uniform => .ofStride64 st
      | _, _ => .general
    let tag := if I.allUniform [oa, ob] then .uniform else row
    s.plain I u (decide (ty ≤ 3)) (pairOp d) [oa, ob]
      (fun t => ((I.G.op oa t + ext t * 2 ^ I.S.lsc) % 2 ^ 64).toNat) tag e

/-- LEAI (R112). -/
def execLeai (u : Bool) (d a : BitVec 6) (i : BitVec 7) (k e : Bool) (s : State) : Host.Outcome State Fault Refusal :=
  s.withIss fun I =>
    let oa := pairOp a k
    s.plain I u true (pairOp d) [oa] (fun t => ((I.G.op oa t + i.toInt * 2 ^ I.S.lsc) % 2 ^ 64).toNat) (I.shape [oa] false (I.G.opTag oa)) e

/-- The position and the effective length of a bit field in register b (R109). -/
def fieldOf (b : Nat) : Nat × Nat := (b % 32, min (b / 256 % 64) (32 - b % 32))

/-- BFE (R109). -/
def execBfe (u : Bool) (d a b : BitVec 7) (k l e : Bool) (s : State) : Host.Outcome State Fault Refusal :=
  s.withIss fun I =>
    let oa := dataOp I.S.ty a k
    let ob := dataOp I.S.ty b l
    s.plain I u (bitsTys I.S.ty) (dataOp I.S.ty d) [oa, ob]
      (fun t =>
        let (pos, len) := fieldOf (I.G.op ob t)
        let f := I.G.op oa t / 2 ^ pos % 2 ^ len
        if len = 0 then 0 else if I.S.ty = 0 then ((elemInt true len f) % 2 ^ 32).toNat else f)
      (I.plainTag [oa, ob]) e

/-- BFI (R109): d is also a source. -/
def execBfi (u : Bool) (d a b : BitVec 7) (k l e : Bool) (s : State) : Host.Outcome State Fault Refusal :=
  s.withIss fun I =>
    let od := dataOp I.S.ty d
    let oa := dataOp I.S.ty a k
    let ob := dataOp I.S.ty b l
    s.plain I u (bitsTys I.S.ty) od [od, oa, ob]
      (fun t =>
        let (pos, len) := fieldOf (I.G.op ob t)
        let x := I.G.op od t
        x - x / 2 ^ pos % 2 ^ len * 2 ^ pos + I.G.op oa t % 2 ^ len * 2 ^ pos)
      (I.plainTag [od, oa, ob]) e

/-- A byte with its bits in reverse order. -/
def reverseByte (x : Nat) : Nat := joinElems 1 8 fun i => x / 2 ^ (7 - i)

/-- A result byte of `prmt` under its control byte (R110). -/
def permuteByte (pool c : Nat) : Nat :=
  let x := pool / 256 ^ (c % 8) % 256
  match c / 8 % 4 with
  | 0 => x
  | 1 => 0
  | 2 => 255
  | _ => reverseByte x

/-- PRMT (R110): d is also a source. -/
def execPrmt (u : Bool) (d a b : BitVec 7) (k l e : Bool) (s : State) : Host.Outcome State Fault Refusal :=
  s.withIss fun I =>
    let od := dataOp I.S.ty d
    let oa := dataOp I.S.ty a k
    let ob := dataOp I.S.ty b l
    s.plain I u (bitsTys I.S.ty) od [od, oa, ob]
      (fun t => joinElems 8 4 fun i =>
        permuteByte (I.G.op oa t + 2 ^ 32 * I.G.op od t) (I.G.op ob t / 256 ^ i % 256))
      (I.plainTag [od, oa, ob]) e

/-! ### Compares and predicates (R113 to R115) -/

/-- The types 0 to 3 and 14 (R102). -/
def countTys (ty : Nat) : Bool := decide (ty ≤ 3) || ty == 14

/-- CMP (R113). -/
def execCmp (u : Bool) (c p : BitVec 3) (a b : BitVec 7) (k l e : Bool) (s : State) : Host.Outcome State Fault Refusal :=
  s.withIss fun I =>
    let ty := I.S.ty
    let oa := dataOp ty a k
    let ob := dataOp ty b l
    s.compare I u (countTys ty) p.toNat [oa, ob]
      (fun t => intCond c.toNat (I.G.opInt ty oa t 0) (I.G.opInt ty ob t 0) (I.G.op oa t) (I.G.op ob t)) e

/-- CMPI: the immediate is signed under i32 and i64 and unsigned otherwise (R113). -/
def execCmpi (u : Bool) (c p : BitVec 3) (a i : BitVec 7) (k e : Bool) (s : State) : Host.Outcome State Fault Refusal :=
  s.withIss fun I =>
    let ty := I.S.ty
    let oa := dataOp ty a k
    let x : Int := if isSigned ty then i.toInt else i.toNat
    s.compare I u (countTys ty) p.toNat [oa]
      (fun t => intCond c.toNat (I.G.opInt ty oa t 0) x (I.G.op oa t) (x % 2 ^ elemWidth ty).toNat) e

/-- A word of `iop` on a data operand (R114). -/
def State.iop (s : State) (I : Iss) (u : Bool) (tyOk : Bool) (d a : BitVec 7) (k : Bool) (f : Nat → Nat) (e : Bool) : State :=
  let oa := dataOp I.S.ty a k
  s.plain I u tyOk (dataOp I.S.ty d) [oa] (fun t => f (I.G.op oa t)) (I.plainTag [oa]) e

/-- The number of 1 bits among the low w bits. -/
def onesIn (w x : Nat) : Nat := ((List.range w).filter x.testBit).length

/-- IOP_POPC (R114). -/
def execIopPopc (u : Bool) (d a : BitVec 7) (k e : Bool) (s : State) : Host.Outcome State Fault Refusal :=
  s.withIss fun I => s.iop I u (countTys I.S.ty) d a k (onesIn (elemWidth I.S.ty)) e

/-- IOP_CLZ (R114). -/
def execIopClz (u : Bool) (d a : BitVec 7) (k e : Bool) (s : State) : Host.Outcome State Fault Refusal :=
  s.withIss fun I => s.iop I u (countTys I.S.ty) d a k (fun x => elemWidth I.S.ty - bitLen x) e

/-- The number of 0 bits below the lowest 1 bit, w for 0. -/
def trailingZeros (w x : Nat) : Nat := ((List.range w).find? x.testBit).getD w

/-- IOP_CTZ (R114). -/
def execIopCtz (u : Bool) (d a : BitVec 7) (k e : Bool) (s : State) : Host.Outcome State Fault Refusal :=
  s.withIss fun I => s.iop I u (countTys I.S.ty) d a k (trailingZeros (elemWidth I.S.ty)) e

/-- IOP_BREV (R114). -/
def execIopBrev (u : Bool) (d a : BitVec 7) (k e : Bool) (s : State) : Host.Outcome State Fault Refusal :=
  s.withIss fun I =>
    let w := elemWidth I.S.ty
    s.iop I u (countTys I.S.ty) d a k (fun x => joinElems 1 w fun i => x / 2 ^ (w - 1 - i)) e

/-- A word of `iop` on single registers that does not read ty (R114). -/
def State.iopSingle (s : State) (I : Iss) (u : Bool) (d a : BitVec 7) (k : Bool) (f : Nat → Nat) (e : Bool) : State :=
  s.plain I u true (one d) [one a k] (fun t => f (I.G.val a.toNat t).toNat) (I.plainTag [one a k]) e

/-- IOP_SX8 (R114). -/
def execIopSx8 (u : Bool) (d a : BitVec 7) (k e : Bool) (s : State) : Host.Outcome State Fault Refusal :=
  s.withIss fun I => s.iopSingle I u d a k (fun x => (elemInt true 8 (x % 256) % 2 ^ 32).toNat) e

/-- IOP_SX16 (R114). -/
def execIopSx16 (u : Bool) (d a : BitVec 7) (k e : Bool) (s : State) : Host.Outcome State Fault Refusal :=
  s.withIss fun I => s.iopSingle I u d a k (fun x => (elemInt true 16 (x % 65536) % 2 ^ 32).toNat) e

/-- IOP_ZX8 (R114). -/
def execIopZx8 (u : Bool) (d a : BitVec 7) (k e : Bool) (s : State) : Host.Outcome State Fault Refusal :=
  s.withIss fun I => s.iopSingle I u d a k (· % 256) e

/-- IOP_ZX16 (R114). -/
def execIopZx16 (u : Bool) (d a : BitVec 7) (k e : Bool) (s : State) : Host.Outcome State Fault Refusal :=
  s.withIss fun I => s.iopSingle I u d a k (· % 65536) e

/-- IOP_MOV (R114): an affine source keeps its stride (R152). -/
def execIopMov (u : Bool) (d a : BitVec 7) (k e : Bool) (s : State) : Host.Outcome State Fault Refusal :=
  s.withIss fun I =>
    let oa := dataOp I.S.ty a k
    s.plain I u true (dataOp I.S.ty d) [oa] (fun t => I.G.op oa t) (I.shape [oa] false (I.G.opTag oa)) e

/-- IOP_MOVP (R114): a predicate carries no tag; only p0, which is true everywhere, leaves a shape. -/
def execIopMovp (u : Bool) (d : BitVec 7) (a : BitVec 3) (e : Bool) (s : State) : Host.Outcome State Fault Refusal :=
  s.withIss fun I =>
    s.plain I u true (one d) [] (fun t => (I.G.pred a.toNat t).toNat) (if a = 0#3 then .uniform else .general) e

/-- IOP_PMOV (R114): a is one register. -/
def execIopPmov (u : Bool) (d : BitVec 3) (a : BitVec 7) (k e : Bool) (s : State) : Host.Outcome State Fault Refusal :=
  s.withIss fun I => s.compare I u true d.toNat [one a k] (fun t => I.G.val a.toNat t != 0#32) e

/-- PLOG (R115). -/
def execPlog (u : Bool) (d a b : BitVec 3) (t : BitVec 4) (e : Bool) (s : State) : Host.Outcome State Fault Refusal :=
  s.withIss fun I => s.compare I u true d.toNat [] (fun x => truthTable t (I.G.pred a.toNat x) (I.G.pred b.toNat x)) e

/-! ### Moves of an immediate (R116) -/

/-- MOVI (R116). -/
def execMovi (u : Bool) (d : BitVec 7) (i : BitVec 16) (e : Bool) (s : State) : Host.Outcome State Fault Refusal :=
  s.withIss fun I =>
    s.plain I u true (dataOp I.S.ty d) [] (fun _ => (i.toInt % 2 ^ (if isWide I.S.ty then 64 else 32)).toNat) .uniform e

/-- MOVHI: d is also a source (R116). -/
def execMovhi (u : Bool) (d : BitVec 7) (i : BitVec 16) (e : Bool) (s : State) : Host.Outcome State Fault Refusal :=
  s.withIss fun I =>
    let od := one d
    s.plain I u true od [od] (fun t => i.toNat * 65536 + I.G.op od t % 65536) (I.plainTag [od]) e

end Sys2Proof.Machine
end

