-- ==== Sys2Proof/Machine/Unit.lean ====
section
/-!
DEFINITION. The words of the scalarisation unit (R158 to R164) and of the ordered sums within a group (R69, R162, R329,
R330).
-/

namespace Sys2Proof.Machine

/-! ### VOTE (R159) -/

/-- VOTE_ALL (R159). -/
def execVoteAll (d a : BitVec 3) (e : Bool) (s : State) : Host.Outcome State Fault Refusal :=
  s.withIss fun I =>
    s.compare I false true d.toNat [] (fun _ => (threadsOf I.act).all fun t => I.G.pred a.toNat t) e

/-- VOTE_ANY (R159). -/
def execVoteAny (d a : BitVec 3) (e : Bool) (s : State) : Host.Outcome State Fault Refusal :=
  s.withIss fun I =>
    s.compare I false true d.toNat [] (fun _ => (threadsOf I.act).any fun t => I.G.pred a.toNat t) e

/-- VOTE_BALLOT (R159). -/
def execVoteBallot (d : BitVec 7) (a : BitVec 3) (e : Bool) (s : State) : Host.Outcome State Fault Refusal :=
  s.withIss fun I =>
    s.plain I false true (one d) [] (fun _ => (I.G.predMask a.toNat &&& I.act).toNat) .uniform e

/-- VOTE_EQ (R159). -/
def execVoteEq (u : Bool) (d : BitVec 3) (a : BitVec 7) (k e : Bool) (s : State) : Host.Outcome State Fault Refusal :=
  s.withIss fun I =>
    s.compare I u true d.toNat [one a k]
      (fun _ => (threadsOf I.act).all fun t => I.G.val a.toNat t == I.G.val a.toNat (lowest I.act)) e

/-- VOTE_MASK (R159). -/
def execVoteMask (d : BitVec 7) (e : Bool) (s : State) : Host.Outcome State Fault Refusal :=
  s.withIss fun I => s.plain I false true (one d) [] (fun _ => I.act.toNat) .uniform e

/-! ### SHFL and BCAST (R160, R161) -/

/-- The width of a shuffle's segments by the code of imm7 [6:5] (R160). -/
def shflWidth (w : BitVec 2) : Nat := 32 / 2 ^ w.toNat

/-- The thread that a shuffle reads for a thread; none where it lies outside the segment (R160). -/
def shflSource (shm w v t : Nat) : Option Nat :=
  let base := t / w * w
  let u := t % w
  match shm with
  | 0 => some (base + v)
  | 1 => if v ≤ u then some (base + (u - v)) else none
  | 2 => if u + v < w then some (base + (u + v)) else none
  | 3 => if u ^^^ v < w then some (base + (u ^^^ v)) else none
  | _ => some (base + (u + v) % w)

/-- SHFL (R160). -/
def execShfl (u : Bool) (d a : BitVec 7) (w : BitVec 2) (v : BitVec 5) (k e : Bool) (s : State) :
    Host.Outcome State Fault Refusal :=
  s.withIss fun I =>
    let ty := I.S.ty
    let od := dataOp ty d
    let oa := dataOp ty a k
    let src (t : Nat) : Option Nat := (shflSource I.S.shm (shflWidth w) v.toNat t).filter fun x => I.act.getLsbD x
    let all := (threadsOf I.act).all fun t => (src t).isSome
    let tag : Tag :=
      if I.G.opTag oa == .uniform && all then .uniform
      else if I.S.shm == 0 && w == 0#2 && (I.G.opTag oa).flat && I.act.getLsbD v.toNat then .uniform else .general
    s.plain I u true od [od, oa] (fun t => match src t with
      | some x => I.G.op oa x
      | none => I.G.op od t) tag e

/-- BCAST (R161). -/
def execBcast (u : Bool) (d a b : BitVec 7) (k l e : Bool) (s : State) : Host.Outcome State Fault Refusal :=
  s.withIss fun I =>
    let ty := I.S.ty
    let oa := dataOp ty a k
    let low := lowest I.act
    let x := (I.G.val b.toNat low).toNat % 32
    let from_ := if I.act.getLsbD x then x else low
    s.plain I u true (dataOp ty d) [oa, one b l] (fun _ => I.G.op oa from_) .uniform e

/-! ### Sums in index order (R69, R162, R330) -/

/-- The operations of `gred` and `gscan`. -/
inductive FoldOp where
  | add
  | min
  | max
  | and
  | or
  | xor
  | mul
  deriving DecidableEq, Repr

/-- The types of a fold (R162, R330). -/
def FoldOp.tyOk (o : FoldOp) (ty : Nat) : Bool :=
  match o with
  | .and => decide (ty ≤ 3) || ty == 14
  | .or => decide (ty ≤ 3) || ty == 14
  | .xor => decide (ty ≤ 3) || ty == 14
  | _ => decide (ty ≤ 3) || ty == 8 || ty == 9

/-- One step of a fold on two encodings of a type, rounded (R69, R104, R134, R136). -/
def FoldOp.step (o : FoldOp) (ty rnd : Nat) (sat : Bool) (x y : Nat) (seed : BitVec 24) : Nat × BitVec 24 :=
  match tyFmt ty with
  | some f =>
    match o with
    | .add => f.ofVal rnd sat (sumVals rnd [f.value x, f.value y]) seed
    | .mul => f.ofVal rnd sat ((f.value x).mul (f.value y)) seed
    | .min => (f.minMax false x y, seed)
    | .max => (f.minMax true x y, seed)
    | _ => (x, seed)
  | none =>
    let w := elemWidth ty
    let i (z : Nat) : Int := elemInt (isSigned ty) w z
    (match o with
      | .add => fitInt sat (isSigned ty) w (i x + i y)
      | .mul => fitInt sat (isSigned ty) w (i x * i y)
      | .min => if i x ≤ i y then x else y
      | .max => if i x ≤ i y then y else x
      | .and => x &&& y
      | .or => x ||| y
      | .xor => x ^^^ y, seed)

/-- The running values of a fold over threads in order, each with its thread, from a first value on (R69). -/
def runFold {α : Type} (step : α → Nat → BitVec 24 → α × BitVec 24) : α → BitVec 24 → List Nat → List (Nat × α) × BitVec 24
  | _, sd, [] => ([], sd)
  | x, sd, t :: r =>
    let (y, sd) := step x t sd
    let (l, sd) := runFold step y sd r
    ((t, y) :: l, sd)

/-- The value of the first thread as R142 converts it to its own type: a NaN is made canonical. -/
def ownValue (ty x : Nat) : Nat := (convertElem ty ty 0 false x 1#24).1

/-- The running values of an operation over the active threads. -/
def Iss.foldRun (I : Iss) (o : FoldOp) (a : Opnd) (seed : BitVec 24) : List (Nat × Nat) × BitVec 24 :=
  match threadsOf I.act with
  | [] => ([], seed)
  | t0 :: r =>
    let x0 := ownValue I.S.ty (I.G.op a t0)
    let (l, sd) := runFold (fun x t sd => o.step I.S.ty I.S.rnd I.S.sat x (I.G.op a t) sd) x0 seed r
    ((t0, x0) :: l, sd)

/-- Keeps a lane's generator as a word left it (R59). -/
def State.keepSeed (s : State) (I : Iss) (seed : BitVec 24) : State :=
  if seed = (s.lane I.G.lane).seed then s else s.modLane I.G.lane fun l => { l with seed := seed }

/-- A reduction (R162). -/
def State.gred (s : State) (I : Iss) (u : Bool) (d a : BitVec 7) (k : Bool) (o : FoldOp) (e : Bool) : State :=
  let ty := I.S.ty
  let oa := dataOp ty a k
  let od := dataOp ty d
  s.word I (I.need u (o.tyOk ty) [od] [oa] .uniform) e fun s =>
    let (l, seed) := I.foldRun o oa (s.lane I.G.lane).seed
    (s.keepSeed I seed).result I od (fun _ => ((l.getLast?).map (·.2)).getD 0) .uniform e

/-- GRED_ADD (R162). -/
def execGredAdd (u : Bool) (d a : BitVec 7) (k e : Bool) (s : State) : Host.Outcome State Fault Refusal :=
  s.withIss fun I => s.gred I u d a k .add e

/-- GRED_MIN (R162). -/
def execGredMin (u : Bool) (d a : BitVec 7) (k e : Bool) (s : State) : Host.Outcome State Fault Refusal :=
  s.withIss fun I => s.gred I u d a k .min e

/-- GRED_MAX (R162). -/
def execGredMax (u : Bool) (d a : BitVec 7) (k e : Bool) (s : State) : Host.Outcome State Fault Refusal :=
  s.withIss fun I => s.gred I u d a k .max e

/-- GRED_AND (R162). -/
def execGredAnd (u : Bool) (d a : BitVec 7) (k e : Bool) (s : State) : Host.Outcome State Fault Refusal :=
  s.withIss fun I => s.gred I u d a k .and e

/-- GRED_OR (R162). -/
def execGredOr (u : Bool) (d a : BitVec 7) (k e : Bool) (s : State) : Host.Outcome State Fault Refusal :=
  s.withIss fun I => s.gred I u d a k .or e

/-- GRED_XOR (R162). -/
def execGredXor (u : Bool) (d a : BitVec 7) (k e : Bool) (s : State) : Host.Outcome State Fault Refusal :=
  s.withIss fun I => s.gred I u d a k .xor e

/-- The identity of an operation (R330). -/
def FoldOp.identity (o : FoldOp) (ty : Nat) : Nat :=
  let w := elemWidth ty
  let (lo, hi) := intRange (isSigned ty) w
  let code (x : Int) : Nat := (x % 2 ^ w).toNat
  match o, tyFmt ty with
  | .min, some f => f.infinite false false
  | .min, none => code hi
  | .max, some f => f.infinite true false
  | .max, none => code lo
  | .mul, some f => f.bias * 2 ^ f.fracBits
  | .mul, none => 1
  | .and, _ => 2 ^ w - 1
  | _, _ => 0

/-- What a scan delivers to a thread: its own step's value, or the one before it (R330). -/
def scanAt {α : Type} (exclusive : Bool) (first : α) (l : List (Nat × α)) (t : Nat) : α :=
  let before := (l.takeWhile fun x => x.1 != t).getLast?
  if exclusive then (before.map (·.2)).getD first
  else ((l.find? fun x => x.1 == t).map (·.2)).getD first

/-- A scan (R330). -/
def State.gscan (s : State) (I : Iss) (d a : BitVec 7) (x k : Bool) (o : FoldOp) (e : Bool) : State :=
  let ty := I.S.ty
  let oa := dataOp ty a k
  let od := dataOp ty d
  s.word I (I.need false (o.tyOk ty) [od] [oa] .general) e fun s =>
    let (l, seed) := I.foldRun o oa (s.lane I.G.lane).seed
    (s.keepSeed I seed).result I od (fun t => scanAt x (o.identity ty) l t) .general e

/-- GSCAN_ADD (R330). -/
def execGscanAdd (d a : BitVec 7) (x k e : Bool) (s : State) : Host.Outcome State Fault Refusal :=
  s.withIss fun I => s.gscan I d a x k .add e

/-- GSCAN_MIN (R330). -/
def execGscanMin (d a : BitVec 7) (x k e : Bool) (s : State) : Host.Outcome State Fault Refusal :=
  s.withIss fun I => s.gscan I d a x k .min e

/-- GSCAN_MAX (R330). -/
def execGscanMax (d a : BitVec 7) (x k e : Bool) (s : State) : Host.Outcome State Fault Refusal :=
  s.withIss fun I => s.gscan I d a x k .max e

/-- GSCAN_AND (R330). -/
def execGscanAnd (d a : BitVec 7) (x k e : Bool) (s : State) : Host.Outcome State Fault Refusal :=
  s.withIss fun I => s.gscan I d a x k .and e

/-- GSCAN_OR (R330). -/
def execGscanOr (d a : BitVec 7) (x k e : Bool) (s : State) : Host.Outcome State Fault Refusal :=
  s.withIss fun I => s.gscan I d a x k .or e

/-- GSCAN_XOR (R330). -/
def execGscanXor (d a : BitVec 7) (x k e : Bool) (s : State) : Host.Outcome State Fault Refusal :=
  s.withIss fun I => s.gscan I d a x k .xor e

/-- GSCAN_MUL (R330). -/
def execGscanMul (d a : BitVec 7) (x k e : Bool) (s : State) : Host.Outcome State Fault Refusal :=
  s.withIss fun I => s.gscan I d a x k .mul e

/-- A rounding into f32 of a·b + c, or of a·b alone (R328 to R330). -/
def fma32 (rnd : Nat) (sat : Bool) (a b : Nat) (c : Option Nat) (seed : BitVec 24) : Nat × BitVec 24 :=
  let p := (Fmt.f32.value a).mul (Fmt.f32.value b)
  Fmt.f32.ofVal rnd sat (match c with
    | some z => sumVals rnd [p, Fmt.f32.value z]
    | none => p) seed

/-- GSCAN_AFF: the running composition of affine maps; both components start as the first thread's own (R330). -/
def execGscanAff (d a : BitVec 6) (x k e : Bool) (s : State) : Host.Outcome State Fault Refusal :=
  s.withIss fun I =>
    let oa := pairOp a k
    let od := pairOp d
    let A (t : Nat) : Nat := (I.G.part oa.n 0 t).toNat
    let B (t : Nat) : Nat := (I.G.part oa.n 1 t).toNat
    let rnd := I.S.rnd
    let sat := I.S.sat
    s.word I (I.need false (I.S.ty == 8) [od] [oa] .general) e fun s =>
      let seed := (s.lane I.G.lane).seed
      let step (p : Nat × Nat) (t : Nat) (sd : BitVec 24) : (Nat × Nat) × BitVec 24 :=
        let (sA, sd) := fma32 rnd sat (A t) p.1 none sd
        let (sB, sd) := fma32 rnd sat (A t) p.2 (some (B t)) sd
        ((sA, sB), sd)
      let (l, seed) := match threadsOf I.act with
        | [] => ([], seed)
        | t0 :: r =>
          let p0 := (ownValue 8 (A t0), ownValue 8 (B t0))
          let (l, sd) := runFold step p0 seed r
          ((t0, p0) :: l, sd)
      (s.keepSeed I seed).result I od
        (fun t => let p := scanAt x (0x3F800000, 0) l t; p.1 + p.2 * 2 ^ 32) .general e

/-- LREC: the state h in d is f32; a packed type makes two steps (R329). -/
def execLrec (u : Bool) (d a b : BitVec 7) (k l e : Bool) (s : State) : Host.Outcome State Fault Refusal :=
  s.withIss fun I =>
    let ty := I.S.ty
    let f := I.S.fmtOf
    let n := if ty = 8 then 1 else 2
    let x (r : BitVec 7) (t j : Nat) : FVal := f.value (elemOf f.width j (I.G.val r.toNat t).toNat)
    s.rounded I u (ty == 8 || ty == 10 || ty == 11) (one d) [one d, one a k, one b l] 1 32
      (fun t _ seed => (List.range n).foldl (fun acc j =>
        Fmt.f32.ofVal I.S.rnd I.S.sat (sumVals I.S.rnd [(x a t j).mul (Fmt.f32.value acc.1), x b t j]) acc.2)
        ((I.G.val d.toNat t).toNat, seed)) e

/-! ### SREG and UTAG (R163, R164) -/

/-- The value of a special register in a thread (R163). -/
def State.sreg (s : State) (I : Iss) (n t : Nat) : Nat :=
  let w := ((s.wg I.G.wg).map (·.w)).getD 0
  let grid (f : Grid → Nat) : Nat := ((s.gridOf I.G).map f).getD 0
  match n with
  | 0 => t
  | 1 => 32 * I.G.idx + t
  | 2 => I.G.idx
  | 3 => grid (·.ngrp)
  | 4 => w
  | 5 => grid (·.nwg)
  | 6 => grid fun d => (d.sliceOf w).getD 0xFFFFFFFF
  | 7 => grid fun d => w % max 1 d.cs
  | 8 => grid fun d => w / max 1 d.cs
  | 9 => grid fun d => d.id.toNat
  | 10 => grid (·.depth)
  | 11 => I.G.alloc
  | 12 => I.S.mode.toNat
  | 13 => I.S.fmt.toNat
  | 14 => I.S.mask.toNat
  | 15 => (s.ctxId I.G.ctx).toNat
  | 16 => I.G.lane % 64
  | 17 => I.core
  | 18 => I.die
  | 19 => s.dpres.toNat
  | 20 => dinfo I.die
  | _ => I.G.slot

/-- SREG: U = 1 is always accepted (R163). -/
def execSreg (_u : Bool) (d n : BitVec 7) (e : Bool) (s : State) : Host.Outcome State Fault Refusal :=
  s.withIss fun I =>
    s.plain I false true (one d) [] (fun t => s.sreg I n.toNat t) (if n.toNat < 2 then .affine 1#32 else .uniform) e

/-- The kind code of a tag (R151). -/
def Tag.kind : Tag → Nat
  | .general => 0
  | .uniform => 1
  | .affine _ => 2
  | .affine64 _ => 3

/-- A word that reports on the tag of a register and never waits for it (R164). -/
def State.utagReport (s : State) (I : Iss) (d a : BitVec 7) (f : Tag → Nat) (e : Bool) : State :=
  let n : Need := { (I.need false true [one d] [] .uniform) with regs := [d.toNat, a.toNat] }
  s.word I n e fun s => s.result I (one d) (fun _ => f (I.G.reg a.toNat).tag) .uniform e

/-- UTAG_KIND (R164). ka has no effect: the word reads the tag alone (log entry 84). -/
def execUtagKind (d a : BitVec 7) (_k e : Bool) (s : State) : Host.Outcome State Fault Refusal :=
  s.withIss fun I => s.utagReport I d a Tag.kind e

/-- UTAG_STRIDE (R164). ka has no effect (log entry 84). -/
def execUtagStride (d a : BitVec 7) (_k e : Bool) (s : State) : Host.Outcome State Fault Refusal :=
  s.withIss fun I => s.utagReport I d a Tag.stride e

/-- Gives a register a tag. -/
def Group.setTag (g : Group) (n : Nat) (t : Tag) : Group := g.putReg n { g.reg n with tag := t }

/-- UTAG_GEN (R164). ka has no effect (log entry 84). -/
def execUtagGen (a : BitVec 7) (_k e : Bool) (s : State) : Host.Outcome State Fault Refusal :=
  s.withIss fun I =>
    s.word I { regs := [a.toNat], mask := I.act } e fun s =>
      s.modGroup I.gid fun g => (g.setTag a.toNat .general).advance I.sid e

/-- UTAG_CHK (R164). The odd register of a pair is judged by itself, and the tag of the even one stays (log entry 84). -/
def execUtagChk (a : BitVec 7) (k e : Bool) (s : State) : Host.Outcome State Fault Refusal :=
  s.withIss fun I =>
    s.word I (I.need false true [] [one a k] .uniform) e fun s =>
      s.modGroup I.gid fun g => (g.setTag a.toNat (tagOfVals (g.reg a.toNat).vals)).advance I.sid e

/-- UTAG_CHK64 (R164). -/
def execUtagChk64 (a : BitVec 6) (k e : Bool) (s : State) : Host.Outcome State Fault Refusal :=
  s.withIss fun I =>
    let o := pairOp a k
    s.word I (I.need false true [] [o] .uniform) e fun s =>
      s.modGroup I.gid fun g =>
        let tag := tagOfPair (g.reg o.n).vals (g.reg (o.n + 1)).vals
        let g := if o.n = 0 then g else
          (g.setTag o.n tag).setTag (o.n + 1) (if tag = .uniform then .uniform else .general)
        g.advance I.sid e

end Sys2Proof.Machine
end

