-- ==== Sys2Proof/Machine/Sluice.lean ====
section
/-!
DEFINITION. The sluice links (R313 to R328): the block of a grid, credits, buffers, `sput`, `sget`, `sfwd`, `xscan`, and the
events of a message on its way.
-/

namespace Sys2Proof.Machine

/-! ### Directions, the block and the buffers (R314, R315, R317) -/

/-- The opposite of a direction: 0 N, 1 S, 2 E, 3 W (R321). -/
def oppositeDir (d : Nat) : Nat := [1, 0, 3, 2].getD d 0

/-- The core beyond a core in a direction; none at the outer edge of the core grid (R9, R315). -/
def neighbour (core d : Nat) : Option Nat :=
  let r := gridRow core
  let c := gridCol core
  match d with
  | 0 => if r = 0 then none else some (coreAt (r - 1) c)
  | 1 => if r < 5 then some (coreAt (r + 1) c) else none
  | 2 => if c < 11 then some (coreAt r (c + 1)) else none
  | _ => if c = 0 then none else some (coreAt r (c - 1))

/-- A core lies in the block of a sluice grid (R314). -/
def Grid.inBlock (g : Grid) (core : Nat) : Bool :=
  let r := gridRow core
  let c := gridCol core
  decide (g.row0 ≤ r) && decide (g.col0 ≤ c) && decide (c < g.col0 + g.ncol) &&
    decide ((r - g.row0) * g.ncol + (c - g.col0) < g.nwg)

/-- The neighbour of a core in a direction that stays inside the block (R315). -/
def Grid.inside (g : Grid) (core d : Nat) : Option Nat := (neighbour core d).filter g.inBlock

/-- The grid of a group where it holds the buffers of the group's core (R315). -/
def State.sluiceGrid (s : State) (g : Group) : Option Grid :=
  match s.gridOf g, (s.wg g.wg).map (·.grid) with
  | some d, some n => if mapFind s.sluHold g.core = some n then some d else none
  | _, _ => none

/-- A credit toward a direction is there (R317). -/
def State.creditFree (s : State) (core d : Nat) : Bool := decide (mapGet s.sluUsed (core, d) 0 < 8)

/-- Puts a message on the link of a core toward a direction, for a credit (R317). -/
def State.sendMsg (s : State) (core d : Nat) (m : Msg) : State :=
  match neighbour core d with
  | none => s
  | some n =>
    let k := (n, oppositeDir d)
    { s with sluUsed := mapSet s.sluUsed (core, d) (mapGet s.sluUsed (core, d) 0 + 1),
             sluFly := mapSet s.sluFly k (mapGet s.sluFly k [] ++ [m]) }

/-- The entries of a channel in a buffer, the oldest first (R318). -/
def State.entries (s : State) (core d ch : Nat) : List Msg := (mapGet s.sluBuf (core, d) []).filter fun m => m.ch == ch

/-- A list without the entry of a channel before which n others of it stand. -/
def dropEntry (ch : Nat) : Nat → List Msg → List Msg
  | _, [] => []
  | n, m :: r => if m.ch ≠ ch then m :: dropEntry ch n r else match n with
    | 0 => r
    | n + 1 => m :: dropEntry ch n r

/-- The splits of a core that wait to receive a channel from a direction: group, split, when they began, core lane (R318). -/
def State.receivers (s : State) (core d ch : Nat) : List (Nat × Nat × Nat × Nat) :=
  s.groups.flatMap fun (gid, g) =>
    if g.core ≠ core then []
    else g.splits.filterMap fun p => match p.wait with
      | .link (some r) c _ _ since _ => if r = d ∧ c = ch then some (gid, p.idx, since, g.lane % 64) else none
      | _ => none

/-- How many splits receive before this one: those that began waiting earlier, ties to the lower lane; a word that has not
waited yet comes after all (R318). -/
def State.ahead (s : State) (gid sid core d ch : Nat) : Nat :=
  let l := s.receivers core d ch
  match l.find? fun x => x.1 == gid && x.2.1 == sid with
  | none => l.length
  | some (_, _, since, lane) =>
    (l.filter fun x => decide (x.2.2.1 < since) || (x.2.2.1 == since && decide (x.2.2.2 < lane))).length

/-- The entry of its channel that a split takes from a direction: the oldest goes to the split that began waiting first, the
next to the one after it (R318). -/
def State.entryFor (s : State) (gid sid core d ch : Nat) : Option Msg := (s.entries core d ch)[s.ahead gid sid core d ch]?

/-- A split takes its entry out of a buffer; the credit goes back to the sender (R317). -/
def State.takeMsg (s : State) (gid sid core d ch : Nat) : State :=
  match neighbour core d with
  | some n =>
    let k := (n, oppositeDir d)
    { s with
      sluBuf := mapSet s.sluBuf (core, d) (dropEntry ch (s.ahead gid sid core d ch) (mapGet s.sluBuf (core, d) []))
      sluRet := mapSet s.sluRet k (mapGet s.sluRet k 0 + 1) }
  | none => s

/-- A link wait of a split is satisfied. -/
def State.linkReady (s : State) (gid sid core : Nat) (recv : Option Nat) (ch : Nat) (send : Option Nat) : Bool :=
  (match recv with
    | some d => (s.entryFor gid sid core d ch).isSome
    | none => true) &&
    (match send with
      | some d => s.creditFree core d
      | none => true)

/-! ### What the link words share (R322, R331) -/

/-- The detail of a link word's record (R331); `sfwd` takes any size and gives 0. -/
def linkDetail (ch inDir outDir size : Nat) : Nat :=
  ch + 16 * inDir + 64 * outDir + 256 * (if size = 3 then 0 else size)

/-- The directions and the channel of a link word: what it receives from and sends toward. -/
structure LinkUse where
  recv : Option Nat
  ch : Nat
  send : Option Nat
  size : Nat
  deriving DecidableEq, Repr

/-- The detail of a word's records. -/
def LinkUse.detail (u : LinkUse) : Nat := linkDetail u.ch (u.recv.getD 0) (u.send.getD 0) u.size

/-- A link word: its checks, then its wait for an entry and a credit in one step, then the body with the entry and the
vectors to send (R322, R323, R328). A resumed word keeps the channel and what it read. Every record of the word has source 5
and its detail (R331); where the channel's register cannot be read, the channel there is what the register last held. -/
def State.linkWord (s : State) (I : Iss) (n : Need) (e : Bool) (u : LinkUse) (data : List Vals)
    (body : State → LinkUse → Option Msg → List Vals → State) : State :=
  s.boundaryWord I { n with src := 5, detail := u.detail } e fun s => s.atBoundary I fun s =>
    let (u, since, data) := match I.S.wait with
      | .link r c o _ since data => ({ u with recv := r, ch := c, send := o }, since, data)
      | _ => (u, s.time I.die, data)
    let fault (code : Nat) : State := s.raise I { code := code, src := 5, tmask := I.act, detail := u.detail }
    match s.sluiceGrid I.G with
    | none => fault codeSluiceClosed
    | some g =>
      if u.recv.toList.any (fun d => (g.inside I.core d).isNone) || u.send.toList.any fun d => (g.inside I.core d).isNone then
        fault codeSluiceEdge
      else if !s.linkReady I.gid I.sid I.core u.recv u.ch u.send then
        s.suspend I (.link u.recv u.ch u.send u.size since data)
      else
        let m := u.recv.bind fun d => s.entryFor I.gid I.sid I.core d u.ch
        if m.any (fun m => u.size < 3 && m.vecs.length != 2 ^ u.size) then fault codeSluiceSize
        else body s u m data

/-- The acquire of a scope, unless it is .thr (R322). -/
def State.linkAcquire (s : State) (I : Iss) (scope : Nat) : State := if scope = 0 then s else s.acquireBy I scope
/-- The release of a scope, unless it is .thr. -/
def State.linkRelease (s : State) (I : Iss) (scope : Nat) : State := if scope = 0 then s else s.releaseBy I scope

/-- The release that a sending word makes at the scope which it names; none at .thr (R325). -/
def State.linkRel (s : State) (I : Iss) (scope : Nat) : Option Release :=
  if scope = 0 then none else some { core := I.core, wg := I.G.wg, scope := scope, clock := s.clockOf I.agid }

/-- A poisoned message is consumed by the word that takes it (R324): outside containment its vectors are zeros, inside the
group unwinds. -/
def State.openMsg (s : State) (I : Iss) (u : LinkUse) (m : Msg) : State × Bool × List Vals :=
  if !m.poisoned then (s, false, m.vecs)
  else
    let f : Flt := { code := codePoisonConsumed, src := 5, tmask := I.act, detail := u.detail }
    let (s, gone) := s.consumeAll I.gid (s.recOf I f 2)
      [{ code := f.code, src := 5, mask := I.act, va := none, pa := none, detail := u.detail }] []
    (s, gone, m.vecs.map fun _ => sameVals 0#32)

/-- The channel that a register names in the lowest active thread (R321). -/
def Iss.channel (I : Iss) (a : BitVec 7) : Nat := (I.desc a.toNat).toNat % 16

/-- The data operand of a size code (R321). -/
def linkOp (z : BitVec 2) (d : BitVec 7) (k : Bool := false) : Opnd := { n := d.toNat, cnt := 2 ^ z.toNat, k := k }

/-- The vectors of an operand's registers in all 32 threads (R316). -/
def Group.vectors (g : Group) (o : Opnd) : List Vals :=
  (List.range o.cnt).map fun i => (List.range 32).map fun t => g.part o.n i t

/-- SPUT (R322). -/
def execSput (d a : BitVec 7) (c : BitVec 3) (z r : BitVec 2) (k m e : Bool) (s : State) : Host.Outcome State Fault Refusal :=
  s.withIss fun I =>
    let od := linkOp z d m
    let u : LinkUse := { recv := none, ch := I.channel a, send := some r.toNat, size := z.toNat }
    s.linkWord I (I.need false true [] [one a k, od] .general) e u (I.G.vectors od) fun s u _ data =>
      ((s.linkRelease I c.toNat).sendMsg I.core r.toNat { ch := u.ch, vecs := data, poisoned := false, rel := s.linkRel I c.toNat }).newRegion I e

/-- SGET (R322). -/
def execSget (d a : BitVec 7) (c : BitVec 3) (z r : BitVec 2) (k e : Bool) (s : State) : Host.Outcome State Fault Refusal :=
  s.withIss fun I =>
    let od := linkOp z d
    let u : LinkUse := { recv := some r.toNat, ch := I.channel a, send := none, size := z.toNat }
    s.linkWord I { I.need false true [od] [one a k] .general with producer := true } e u [] fun s u m _ =>
      match m with
      | none => s
      | some m =>
        let (s, gone, vecs) := (s.takeMsg I.gid I.sid I.core r.toNat u.ch).openMsg I u m
        if gone then s
        else
          let s := (s.linkAcquire I c.toNat).synchronise I.agid c.toNat m.rel.toList
          let dsts := (List.range od.regs.length).map fun i => (od.n + i, vecs.getD i [])
          (s.produce I dsts I.S.ty .general {} false).newRegion I e

/-- SFWD: the entry goes on unchanged, still marked where it is poisoned (R323, R324). -/
def execSfwd (a : BitVec 7) (c : BitVec 3) (i o : BitVec 2) (k e : Bool) (s : State) : Host.Outcome State Fault Refusal :=
  s.withIss fun I =>
    let u : LinkUse := { recv := some i.toNat, ch := I.channel a, send := some o.toNat, size := 3 }
    let n : Need := I.need false true [] [one a k] .general
    s.linkWord I n e u [] fun s u m _ =>
      match m with
      | none => s
      | some m =>
        let s := s.takeMsg I.gid I.sid I.core i.toNat u.ch
        let (s, gone) := if m.poisoned ∧ I.G.depth ≠ 0 then
            let (s, gone, _) := s.openMsg I u m
            (s, gone)
          else (s, false)
        if gone then s
        else
          let s := ((s.linkAcquire I c.toNat).synchronise I.agid c.toNat m.rel.toList).linkRelease I c.toNat
          (s.sendMsg I.core o.toNat { m with rel := s.linkRel I c.toNat }).newRegion I e

/-! ### XSCAN (R327, R328) -/

/-- The operations of `xscan`. -/
inductive ScanOp where
  | fold (o : FoldOp)
  | aff
  deriving DecidableEq, Repr

/-- The types of a scan over cores (R327). -/
def ScanOp.tyOk (o : ScanOp) (ty : Nat) : Bool :=
  match o with
  | .fold _ => ty == 0 || ty == 1 || ty == 8
  | .aff => ty == 8

/-- The result from the incoming value v and the local x and b (R327). -/
def ScanOp.apply (o : ScanOp) (p : Split) (v x b : Nat) (seed : BitVec 24) : Nat × BitVec 24 :=
  match o with
  | .fold f => f.step p.ty p.rnd p.sat v x seed
  | .aff =>
    Fmt.f32.ofVal p.rnd p.sat
      (sumVals p.rnd [(Fmt.f32.value x).mul (Fmt.f32.value v), Fmt.f32.value b]) seed

/-- The directions and the channel that the control word of an `xscan` gives (R325). -/
def scanUse (w : Word) : LinkUse :=
  let dirOf (lo : Nat) : Nat := (w.extractLsb' lo 2).toNat
  { recv := if w.getLsbD 8 then none else some (dirOf 4), ch := w.toNat % 16,
    send := if w.getLsbD 9 then none else some (dirOf 6), size := 0 }

/-- An `xscan` word (R328). -/
def State.xscan (s : State) (I : Iss) (d : BitVec 6) (a : BitVec 5) (scope : Nat) (k : Bool) (o : ScanOp) (e : Bool) :
    State :=
  let od := pairOp d
  let oa := quadOp a k
  let u := scanUse (I.desc oa.n)
  s.linkWord I (I.need false (o.tyOk I.S.ty) [od] [oa] .general) e u [] fun s u m _ =>
    let (s, gone, vecs) := match u.recv, m with
      | some r, some m => (s.takeMsg I.gid I.sid I.core r u.ch).openMsg I u m
      | _, _ => (s, false, [])
    if gone then s
    else
      let s := if u.recv.isSome then (s.linkAcquire I scope).synchronise I.agid scope ((m.bind (·.rel)).toList) else s
      let v (t : Nat) : Word := if u.recv.isNone then I.G.part oa.n 3 t else (vecs.headD []).getD t 0#32
      let (ys, seed) := (List.range 32).foldl (fun (acc : List Word × BitVec 24) t =>
        if I.act.getLsbD t then
          let (y, sd) := o.apply I.S (v t).toNat (I.G.part oa.n 1 t).toNat (I.G.part oa.n 2 t).toNat acc.2
          (acc.1 ++ [BitVec.ofNat 32 y], sd)
        else (acc.1 ++ [v t], acc.2)) ([], (s.lane I.G.lane).seed)
      let s := s.keepSeed I seed
      let s := s.modGroup I.gid fun g => g.writeParts od.n I.act 2 (fun i t => if i = 0 then v t else ys.getD t 0#32) .general
      let s := match u.send with
        | some d => (s.linkRelease I scope).sendMsg I.core d { ch := u.ch, vecs := [ys], poisoned := false, rel := s.linkRel I scope }
        | none => s
      s.newRegion I e

/-- XSCAN_ADD (R327). -/
def execXscanAdd (d : BitVec 6) (a : BitVec 5) (c : BitVec 3) (k e : Bool) (s : State) : Host.Outcome State Fault Refusal :=
  s.withIss fun I => s.xscan I d a c.toNat k (.fold .add) e

/-- XSCAN_MUL (R327). -/
def execXscanMul (d : BitVec 6) (a : BitVec 5) (c : BitVec 3) (k e : Bool) (s : State) : Host.Outcome State Fault Refusal :=
  s.withIss fun I => s.xscan I d a c.toNat k (.fold .mul) e

/-- XSCAN_MIN (R327). -/
def execXscanMin (d : BitVec 6) (a : BitVec 5) (c : BitVec 3) (k e : Bool) (s : State) : Host.Outcome State Fault Refusal :=
  s.withIss fun I => s.xscan I d a c.toNat k (.fold .min) e

/-- XSCAN_MAX (R327). -/
def execXscanMax (d : BitVec 6) (a : BitVec 5) (c : BitVec 3) (k e : Bool) (s : State) : Host.Outcome State Fault Refusal :=
  s.withIss fun I => s.xscan I d a c.toNat k (.fold .max) e

/-- XSCAN_AFF (R327). -/
def execXscanAff (d : BitVec 6) (a : BitVec 5) (c : BitVec 3) (k e : Bool) (s : State) : Host.Outcome State Fault Refusal :=
  s.withIss fun I => s.xscan I d a c.toNat k .aff e

/-! ### Events of the links -/

/-- MESSAGE_ARRIVAL: the next message on a link lands in the buffer of the receiving core (R313, R318). -/
def execMessageArrival (core dir : Nat) (s : State) : Host.Outcome State Fault Refusal :=
  .next (match mapGet s.sluFly (core, dir) [] with
    | [] => s
    | m :: r =>
      { s with sluFly := mapSet s.sluFly (core, dir) r,
               sluBuf := mapSet s.sluBuf (core, dir) (mapGet s.sluBuf (core, dir) [] ++ [m]) })

/-- MESSAGE_POISON: a flit of the next message on a link across a die edge fails for good, which marks its whole message
poisoned (R313). -/
def execMessagePoison (core dir : Nat) (s : State) : Host.Outcome State Fault Refusal :=
  .next (if (neighbour core dir).all fun n => dieOfCore n == dieOfCore core then s
    else match mapGet s.sluFly (core, dir) [] with
      | [] => s
      | m :: r => { s with sluFly := mapSet s.sluFly (core, dir) ({ m with poisoned := true } :: r) })

/-- CREDIT_RETURN: a credit of a core's port toward a direction is usable again (R317). -/
def execCreditReturn (core dir : Nat) (s : State) : Host.Outcome State Fault Refusal :=
  .next (if mapGet s.sluRet (core, dir) 0 = 0 then s
    else { s with sluRet := mapSet s.sluRet (core, dir) (mapGet s.sluRet (core, dir) 0 - 1),
                  sluUsed := mapSet s.sluUsed (core, dir) (mapGet s.sluUsed (core, dir) 0 - 1) })

/-- SLUICE_TIMEOUT: a receive wait has reached the bound of SLTO, and an entry, or for `sfwd` a credit, is not there (R319, R323,
R328). -/
def execSluiceTimeout (group split : Nat) (s : State) : Host.Outcome State Fault Refusal :=
  .next (match s.issOf group split with
    | none => s
    | some I =>
      let bound := ((s.ctx I.G.ctx).slto.extractLsb' 0 24).toNat
      match I.S.wait with
      | .link (some d) ch o z since _ =>
        if I.S.st = .suspended ∧ bound ≠ 0 ∧ 64 * bound ≤ s.time I.die - since ∧
            (if z = 3 then !s.linkReady group split I.core (some d) ch o else (s.entryFor group split I.core d ch).isNone) = true then
          s.raise I { code := codeSluiceTimeout, src := 5, tmask := I.act, detail := linkDetail ch d (o.getD 0) z }
        else s
      | _ => s)

end Sys2Proof.Machine
end

