-- ==== Sys2Proof/Machine/Trap.lean ====
section
/-!
DEFINITION. The words of trap mode and of the control registers: `csr` (R423, R424), `nopre` (R425), the return from an
exception `rfe` (R426), and `ctx` with the state blocks that it stores and loads (R427 to R433).
-/

namespace Sys2Proof.Machine

/-! ### CSR (R340, R423, R424) -/

/-- The operand of `csr` for a control register: a pair for the four of 64 bits. -/
def csrOp (n : BitVec 6) (r : BitVec 7) (k : Bool := false) : Opnd :=
  { n := r.toNat, cnt := if n.toNat < 4 then 2 else 1, k := k }

/-- CSTAT of a group (R340). -/
def Group.cstat (g : Group) : Nat := g.pres.toNat * 128 + g.pair.toNat * 64 + g.cont.length

/-- The value of a control register as a group's word reads it (R423). -/
def State.csr (s : State) (I : Iss) (n : Nat) : DWord :=
  let c := s.ctx I.G.ctx
  let g := I.acting s
  match n with
  | 0 => c.tvec
  | 1 => c.svec
  | 2 => c.rvec
  | 3 => c.svbase
  | 4 => BitVec.zeroExtend 64 c.pkr
  | 5 => BitVec.zeroExtend 64 c.slto
  | 6 => BitVec.zeroExtend 64 (s.lane I.G.lane).seed
  | 7 => BitVec.ofNat 64 g.cstat
  | _ => BitVec.zeroExtend 64 (g.urec.getD (n - 16) 0#32)

/-- CSR_RD (R424). -/
def execCsrRd (d : BitVec 7) (n : BitVec 6) (e : Bool) (s : State) : Host.Outcome State Fault Refusal :=
  s.withIss fun I =>
    let od := csrOp n d
    s.word I (I.need false true [od] [] .uniform) e fun s =>
      s.modGroup I.gid fun g =>
        (if od.cnt = 2 then g.writePair od.n I.act (fun _ => s.csr I n.toNat) .uniform
          else g.write od.n I.act (fun _ => (s.csr I n.toNat).extractLsb' 0 32) .uniform).advance I.sid e

/-- Writes a control register: the vectors, SVBASE, PKR, SLTO and SSEED (R59, R319, R423). -/
def State.setCsr (s : State) (I : Iss) (n : Nat) (v : DWord) : State :=
  let slot := I.G.ctx
  let low : Word := v.extractLsb' 0 32
  let seed : BitVec 24 := v.extractLsb' 0 24
  match n with
  | 0 => s.modCtx slot fun c => { c with tvec := v }
  | 1 => s.modCtx slot fun c => { c with svec := v }
  | 2 => s.modCtx slot fun c => { c with rvec := v }
  | 3 => s.modCtx slot fun c => { c with svbase := v }
  | 5 => s.modCtx slot fun c => { c with slto := low &&& 0x00FFFFFF#32 }
  | _ => s.modLane I.G.lane fun l => { l with seed := if seed = 0#24 then 1#24 else seed }

/-- A write of PKR sets out to the dies' copies, one at a time for a context, and its word waits until every present die's copy
holds the new value (R424, R443). -/
def State.writeKeys (s : State) (I : Iss) (v : Word) : State :=
  (s.modCtx I.G.ctx fun c => if c.pkrNew.isSome then c else { c with pkrNew := some (v, I.gid, I.sid) }).stall I .control

/-- The present dies whose copies of PKR a write has still to reach (R443). -/
def State.keyDies (s : State) (c : Ctx) : List Nat :=
  if c.pkrNew.isSome then s.presentDies.filter fun d => (mapFind c.pkrAt d).isNone else []

/-- A write of PKR is performed once it has reached the copies of the present dies: PKR holds the value, and the word that waits
for it completes (R424, R443). -/
def State.keysWritten (s : State) (slot : Nat) : State :=
  match (s.ctx slot).pkrNew with
  | some (v, gid, sid) =>
    if s.keyDies (s.ctx slot) ≠ [] then s
    else (s.modCtx slot fun c => { c with pkr := v, pkrNew := none, pkrAt := [] }).modSplit gid sid fun p =>
      if p.wait == .control then { p with released := true } else p
  | none => s

/-- A write of PKR reaches a die's copy (R443). -/
def execKeyCopy (slot die : Nat) (s : State) : Host.Outcome State Fault Refusal :=
  .next (match (s.ctx slot).pkrNew with
    | some (v, _, _) =>
      if !s.cpRuns then s
      else (s.modCtx slot fun c => { c with pkrAt := mapSet c.pkrAt die v }).keysWritten slot
    | none => s)

/-- CSR_WR: the command processor performs the writes of a context's registers (R423, R424). -/
def execCsrWr (a : BitVec 7) (n : BitVec 6) (k e : Bool) (s : State) : Host.Outcome State Fault Refusal :=
  s.withIss fun I =>
    let oa := csrOp n a k
    s.word I (I.need false true [] [oa] .uniform) e fun s =>
      let t := lowest I.act
      let v : DWord := if oa.cnt = 2 then I.G.pairVal oa.n t else BitVec.zeroExtend 64 (I.G.val oa.n t)
      let fault (code : Nat) : State := s.raise I { code := code, tmask := I.act, va := some v.toNat }
      if 1 ≤ n.toNat ∧ n.toNat ≤ 3 ∧ !I.trapped ∧ !(s.ctx I.G.ctx).sys then s.raiseCode I codeCsrPriv
      else if n.toNat < 3 ∧ v ≠ 0#64 ∧ v.toNat % 4 ≠ 0 then fault codeMisaligned
      else if n.toNat < 3 ∧ v ≠ 0#64 ∧ !canonical v.toNat then fault codeNoncanonical
      else if I.S.released then s.advance I e
      else if n.toNat < 6 ∧ !s.cpRuns then s.stall I .control
      else if n.toNat = 4 then s.writeKeys I (v.extractLsb' 0 32)
      else (s.setCsr I n.toNat v).advance I e

/-! ### NOPRE (R425) -/

/-- NOPRE_ON: opens a window where none is open; in trap mode it has no effect (R425). -/
def execNopreOn (e : Bool) (s : State) : Host.Outcome State Fault Refusal :=
  s.withIss fun I =>
    s.word I { mask := I.S.mask } e fun s =>
      (s.modGroup I.gid fun g =>
        if I.trapped || g.nopre.isSome then g
        else { g with nopre := some { count := 0, pc := I.S.pc, split := I.sid, at_ := g.executed } }).advance I e

/-- NOPRE_OFF (R425). -/
def execNopreOff (e : Bool) (s : State) : Host.Outcome State Fault Refusal :=
  s.withIss fun I =>
    s.word I { mask := I.S.mask } e fun s => (s.modGroup I.gid fun g => { g with nopre := none }).advance I e

/-- NOPRE_LIMIT: a window that has been open for 2^20 aclk ends the context (R425). -/
def execNopreLimit (group : Nat) (s : State) : Host.Outcome State Fault Refusal :=
  .next (match (mapFind s.groups group).bind fun g => g.nopre.map fun w => (g, w) with
    | none => s
    | some (g, w) =>
      if w.count < 2 ^ 20 then s
      else
        s.fatal g.ctx
          { queue := s.queueOf g, ctx := none, seq := 0, src := 0, cls := 4, code := codeNopreLimit, pc := some w.pc,
            va := none, pa := none, tmask := 0#32, loc := g.loc w.split, skid := g.skidFrom w.at_, time := 0, detail := 0,
            die := g.die })

/-! ### RFE: the return from an exception (R417, R418, R420, R426) -/

/-- A routine ends: its group leaves the trap slot, which the next group that waits for it takes (R419). -/
def State.leaveTrap (s : State) (gid lane : Nat) : State :=
  { s with groups := mapDel s.groups gid }.freeTrapSlot lane

/-- A word of a routine that must match its cause (R426). -/
def State.rfeWord (s : State) (I : Iss) (body : Trap → Option State) : State :=
  s.word I { mask := I.S.mask } true fun s =>
    match I.G.trap with
    | none => s.raise I { code := codeTrapOnly, tmask := I.S.mask }
    | some t => (body t).getD (s.raise I { code := codeTrapOnly, tmask := I.S.mask })

/-- A fault routine ends with the record at class 0; the attributed split goes on at the attributed word or after it, in a
new run, and the group's other splits become candidates, unless one of them has raised a fault meanwhile (R420, R426). An arrival
that `bar.sync` has counted stays counted when its word is tried again (R43). -/
def State.rfeResume (s : State) (I : Iss) (after : Bool) : State :=
  s.rfeWord I fun t =>
    match t.cause with
    | .fault r =>
      let s := s.record { r with cls := 0 }
      let s := s.modGroup t.of_ fun g =>
        { (g.modSplit t.split fun p =>
            { p.endRun with st := .ready, pc := if after then (r.pc.getD p.pc) + 4 else p.pc
                            counted := !after && p.counted }).boundary t.split with
          stop := match g.later with
            | (sid, c) :: _ => .wantsTrap sid c
            | [] => .none
          later := g.later.drop 1 }
      some (s.leaveTrap I.gid I.G.lane)
    | _ => none

/-- RFE_NEXT (R426). -/
def execRfeNext (s : State) : Host.Outcome State Fault Refusal := s.withIss fun I => s.rfeResume I true

/-- RFE_RETRY (R426). -/
def execRfeRetry (s : State) : Host.Outcome State Fault Refusal := s.withIss fun I => s.rfeResume I false

/-- RFE_KILL (R426). -/
def execRfeKill (s : State) : Host.Outcome State Fault Refusal :=
  s.withIss fun I =>
    s.rfeWord I fun t => match t.cause with
      | .fault r => some (s.fatal I.G.ctx r)
      | _ => none

/-- RFE_SAVE: the handle is kept, and the group is saved (R417, R426). -/
def execRfeSave (s : BitVec 6) (st : State) : Host.Outcome State Fault Refusal :=
  st.withIss fun I =>
    let o := pairOp s
    st.word I { mask := I.S.mask, regs := o.regs, srcs := [(o.regs, false)] } true fun st =>
      match I.G.trap with
      | some { of_ := g, cause := .save, .. } =>
        let h := I.G.pairVal o.n (lowest I.S.mask)
        (st.modGroup g fun x => { x with stop := .saved (some h) }).leaveTrap I.gid I.G.lane
      | _ => st.raise I { code := codeTrapOnly, tmask := I.S.mask }

/-- A group's registers take the tags that their values earn (R154). -/
def Group.retag (g : Group) : Group :=
  { g with regs := g.regs.map fun (x : Nat × Reg) =>
    let up := mapGet g.regs (x.1 + 1) Reg.zero
    let one := tagOfVals x.2.vals
    let tag := if x.1 % 2 = 0 then
        match tagOfPair x.2.vals up.vals with
        | .affine64 t => if one == .general then .affine64 t else one
        | _ => one
      else one
    (x.1, { x.2 with tag := if x.2.full then tag else .general }) }

/-- Every group of a workgroup waits at its `rfe.rest` (R418). -/
def State.allResting (s : State) (w : Workgroup) : Bool :=
  w.groups.all fun gid => match mapFind s.groups gid with
    | some g => match g.stop with
      | .inTrap n => ((mapFind s.groups n).bind (·.trap)).any (·.resting)
      | _ => false
    | none => false

/-- The groups of a workgroup leave their restore routines together; one without a valid split exits (R41, R418). -/
def State.restoreAll (s : State) (w : Workgroup) : State :=
  w.groups.foldl (fun s gid =>
    match mapFind s.groups gid with
    | some g =>
      match g.stop with
      | .inTrap n =>
        let s := (s.modGroup gid fun g => { g with stop := .none }.retag).leaveTrap n g.lane
        if g.splits = [] then (s.modGroup gid fun g => { g with exited := fullMask }).groupExit gid else s
      | _ => s
    | none => s) s

/-- RFE_REST: the last routine of the workgroup to reach it lets every group go on (R418, R426). -/
def execRfeRest (s : State) : Host.Outcome State Fault Refusal :=
  s.withIss fun I =>
    s.rfeWord I fun t =>
      match t.cause, s.wg I.G.wg with
      | .restore _, some w =>
        let s := s.modGroup I.gid fun g => { g with trap := some { t with resting := true } }
        some (if s.allResting w then (s.restoreAll w).retestBars else s.suspend I .rest)
      | _, _ => none

/-! ### Access of the `ctx` words (R427) -/

/-- The word acts once, in the lowest active thread. -/
def Iss.single (I : Iss) : Iss := { I with act := 1#32 <<< lowest I.act }

/-- The checks of a block's address: alignment to 128, canonical form, wrap, translation (R427). -/
def State.ctxReach (s : State) (I : Iss) (va n : Nat) (write : Bool) : Reach :=
  let fault (code : Nat) : Reach := .stop (s.raise I { code := code, src := 2, tmask := I.act, va := some va })
  if va % 128 ≠ 0 then fault codeMisaligned
  else if !canonical va then fault codeNoncanonical
  else if !canonical (va + n - 1) then fault codeVaWrap
  else
    let k : AccessKind := { write := write, fetch := false, keys := true }
    match s.translateThreads I I.act [] (fun _ => va) n k false with
    | .go s live ab xs => .go (s.settleThreads I live xs (fun _ => va) n k) live ab xs
    | r => r

/-- Records what the words of a block have met (R334, R355). -/
def State.ctxConsume (s : State) (I : Iss) (va : Nat) (l : List (Nat × Got)) : State :=
  (s.consumeAll I.gid (s.recOf I { code := codePoisonConsumed, tmask := I.act } 2)
    (consumesOf 2 (fun i => some (va + 4 * i)) (fun _ => I.act) l) []).1

/-- Stores the words of a block (R421). -/
def State.ctxStore (s : State) (I : Iss) (xs : List (Nat × Xlat)) (va : Nat) (ws : List Word) : State :=
  let idx := List.range ws.length
  let s := idx.foldl (fun s i => s.storeAt I xs (lowest I.act) (va + 4 * i) 4 (ws.getD i 0#32).toNat) s
  s.ctxConsume I va ((idx.filter fun i => xlatOf xs (va + 4 * i) == .poison).map fun i =>
    (i, Got.lost .walk))

/-- The words of a block read in order. -/
def State.ctxReads (s : State) (I : Iss) (xs : List (Nat × Xlat)) (va : Nat) : List Nat → List (Nat × Got) × State
  | [] => ([], s)
  | i :: r =>
    let (g, s) := s.readAt I (plainRead I) none xs (lowest I.act) (va + 4 * i) 4
    let (l, s) := s.ctxReads I xs va r
    ((i, g) :: l, s)

/-- Loads the words of a block; a poisoned word loads as zero (R428). -/
def State.ctxLoad (s : State) (I : Iss) (xs : List (Nat × Xlat)) (va n : Nat) : List Word × State :=
  let (got, s) := s.ctxReads I xs va (List.range n)
  (got.map fun x => if x.2.mark = .clean then BitVec.ofNat 32 x.2.val else 0#32, s.ctxConsume I va got)

/-- A `ctx` word: in trap mode only, and the restore forms in a restore routine only (R427). -/
def State.ctxWord (s : State) (I : Iss) (restoreOnly : Bool) (n : Need) (e : Bool) (body : Iss → State → State) : State :=
  s.word I n e fun s =>
    match I.G.trap with
    | none => s.raiseCode I codeTrapOnly
    | some t =>
      match t.cause, restoreOnly with
      | .restore _, _ => body I.single s
      | _, false => body I.single s
      | _, true => s.raiseCode I codeTrapOnly

/-- CTX-BAD with its reason (R434). -/
def State.ctxBad (s : State) (I : Iss) (reason : Nat) : State :=
  s.raise I { code := codeCtxBad, tmask := I.act, detail := reason }

/-! ### CTX_SGR and CTX_LGR (R428) -/

/-- The first register and the count that a control register gives; none where it is malformed. -/
def ctxRange (c : Word) : Option (Nat × Nat) :=
  let b := (c.extractLsb' 0 8).toNat
  let n := (c.extractLsb' 8 8).toNat
  if c.extractLsb' 16 16 = 0#16 ∧ 1 ≤ n ∧ n ≤ 128 ∧ b + n ≤ 128 then some (b, n) else none

/-- The registers of the interrupted group that a `ctx.sgr` or `ctx.lgr` moves, and their place. -/
def State.ctxRegs (s : State) (I : Iss) (d : BitVec 7) (a : BitVec 6) (write : Bool)
    (body : State → List (Nat × Xlat) → Nat → Nat → Nat → State) : State :=
  let t := lowest I.act
  let va := (I.G.pairVal (pairOp a).n t).toNat
  match ctxRange (I.G.val d.toNat t) with
  | none => s.ctxBad I 1
  | some (b, n) =>
    if (I.acting s).alloc < b + n then s.raiseCode I codeRegBound
    else
      match s.ctxReach I va (128 * n) write with
      | .stop s => s
      | .go s _ _ xs => body s xs va b n

/-- CTX_SGR: every register's value, whatever its full bit holds (R428). -/
def execCtxSgr (d : BitVec 7) (a : BitVec 6) (e : Bool) (s : State) : Host.Outcome State Fault Refusal :=
  s.withIss fun I =>
    s.ctxWord I false (I.need false true [] [one d, pairOp a] .uniform) e fun J s =>
      s.ctxRegs J d a true fun s xs va b n =>
        let g := J.acting s
        (s.ctxStore J xs va ((upFrom b 1 n).flatMap fun r => (List.range 32).map fun t => g.val r t)).advance I e

/-- CTX_LGR: full bits stay, and writes to g0 are discarded (R428). -/
def execCtxLgr (d : BitVec 7) (a : BitVec 6) (e : Bool) (s : State) : Host.Outcome State Fault Refusal :=
  s.withIss fun I =>
    s.ctxWord I false (I.need false true [] [one d, pairOp a] .uniform) e fun J s =>
      s.ctxRegs J d a false fun s xs va b n =>
        let (ws, s) := s.ctxLoad J xs va (32 * n)
        (s.modGroup J.agid fun g => (List.range n).foldl (fun g k =>
          let g := (g.splitPair (b + k)).note (b + k) fullMask
          g.putReg (b + k) { g.reg (b + k) with vals := (ws.drop (32 * k)).take 32, tag := .general }) g).advance I e

/-! ### Group state blocks (R430, R431) -/

/-- The two words of a 64-bit value. -/
def words2 (v : Nat) : List Word := [BitVec.ofNat 32 v, BitVec.ofNat 32 (v / 2 ^ 32)]

/-- The code of a split's state in its entry (R431). -/
def RunState.code : RunState → Nat
  | .pageWait => 1
  | .brk => 2
  | _ => 0

/-- A split's entry (R431). -/
def Split.entry (p : Split) : List Word :=
  [BitVec.ofNat 32 (1 + p.st.code * 2 + p.counted.toNat * 8 + p.run % 32 * 16), p.mask] ++ words2 p.pc.toNat ++
    [p.mode, p.fmt] ++ words2 p.rstart.toNat ++ [p.rmode, p.rfmt, 0#32, 0#32]

/-- A stack entry (R431). -/
def StackEnt.entry : StackEnt → List Word
  | .record m mo fo => [1#32, m, 0#32, 0#32, 0#32, 0#32, mo, fo, 0#32, 0#32, 0#32, 0#32]
  | .deferred o pc m mo fo pm pf rs rm rf =>
    [BitVec.ofNat 32 (2 + o % 4 * 4), m] ++ words2 pc.toNat ++ [mo, fo, pm, pf] ++ words2 rs.toNat ++ [rm, rf]

/-- Words filled up with zeros to a length. -/
def padTo (n : Nat) (l : List Word) : List Word := l.take n ++ List.replicate (n - l.length) 0#32

/-- The 1,280 words of a group state block (R430). -/
def gsbOf (g : Group) (latch : Option Latch) : List Word :=
  let valid := (g.splits.map fun p => 2 ^ p.idx).sum
  let empties := ((List.range 128).map fun k => if (g.reg k).full then 0 else 2 ^ k).sum
  words2 (2 ^ 48 + g.alloc * 2 ^ 40 + valid * 2 ^ 36 + g.cont.length * 2 ^ 32 + g.tokens * 2 ^ 28 +
      latch.isSome.toNat * 2 ^ 27 + g.pair.toNat * 2 ^ 26) ++
    words2 ((latch.map (·.acnt)).getD 0 * 2 ^ 32 + g.nb.toNat) ++ words2 (empties % 2 ^ 64) ++ words2 (empties / 2 ^ 64) ++
    (List.range 8).map g.predMask ++
    (List.range 4).flatMap (fun i => match g.split i with
      | some p => p.entry
      | none => List.replicate 12 0#32) ++
    padTo 96 (g.stack.flatMap (·.entry)) ++
    padTo 16 (g.cont.flatMap fun l => words2 l.handler.toNat ++ [l.mode, l.fmt]) ++ padTo 16 g.urec ++
    List.replicate 64 0#32 ++ padTo 1024 (((latch.map (·.rows)).getD []).flatMap (padTo 8))

/-- The latch that a group owns (R300). -/
def State.latchOf (s : State) (gid : Nat) : Option Latch := (s.latches.find? fun x => x.2.group == gid).map (·.2)

/-- CTX_SST (R430). -/
def execCtxSst (a : BitVec 6) (e : Bool) (s : State) : Host.Outcome State Fault Refusal :=
  s.withIss fun I =>
    s.ctxWord I false (I.need false true [] [pairOp a] .uniform) e fun J s =>
      let va := (J.G.pairVal (pairOp a).n (lowest J.act)).toNat
      match s.ctxReach J va 5120 true with
      | .stop s => s
      | .go s _ _ xs => (s.ctxStore J xs va (gsbOf (J.acting s) (s.latchOf J.agid))).advance I e

/-- Words lo to hi - 1 of a block are zero. -/
def zeroWords (ws : List Word) (lo hi : Nat) : Bool := ((ws.take hi).drop lo).all (· == 0#32)

/-- Bits of a word of a block. -/
def wbits (ws : List Word) (i lo n : Nat) : Nat := (ws.getD i 0#32).toNat / 2 ^ lo % 2 ^ n

/-- The 64-bit value at word i of a block. -/
def wpair (ws : List Word) (i : Nat) : DWord := (ws.getD (i + 1) 0#32 ++ ws.getD i 0#32 : DWord)

/-- A mode value that no mode register holds: a type, a rounding or a shuffle code that R80 never lets it hold, or a non-zero
reserved byte. -/
def modeBad (m : Word) : Bool :=
  decide (15 ≤ (m.extractLsb' 27 5).toNat) || decide (6 ≤ (m.extractLsb' 24 3).toNat) ||
    decide (5 ≤ (m.extractLsb' 8 3).toNat) || m.extractLsb' 0 8 != 0#8

/-- A format value that no format register holds (R83). -/
def fmtBad (f : Word) : Bool := f.extractLsb' 25 7 != 0#7

/-- An entry of a group state block holds a mode or format value that no register holds: a valid split entry in its own and its
recorded values, a stack entry in its parent's and, for a deferred path, all its values (R80, R83, R431). -/
def splitValuesBad (w : List Word) : Bool :=
  let at_ (i : Nat) : Word := w.getD i 0#32
  modeBad (at_ 4) || fmtBad (at_ 5) || modeBad (at_ 8) || fmtBad (at_ 9)

/-- The same for a stack entry of a kind. -/
def stackValuesBad (kind : Nat) (w : List Word) : Bool :=
  let at_ (i : Nat) : Word := w.getD i 0#32
  (kind != 0 && (modeBad (at_ 6) || fmtBad (at_ 7))) ||
    (kind == 2 && (modeBad (at_ 4) || fmtBad (at_ 5) || modeBad (at_ 10) || fmtBad (at_ 11)))

/-- Why a group state block is refused: the lowest reason that applies (R433). R433 names a malformed entry and not what makes one.
The model's choice (log entry 52): a state of 3, more than 23 words of a run, a stack kind of 3, and a mode or format value that its
register never holds (R80, R83), a non-zero reserved byte of a mode among them, are malformed, reason 6. A pc, region start or handler
that is no multiple of 4 is not: the block is accepted (R2), and a fetch there reads the four bytes at that address. -/
def gsbBad (ws : List Word) (cap : Nat) (pres : Bool) : Option Nat :=
  let alloc := wbits ws 1 8 8
  let split (i : Nat) : List Word := (ws.drop (16 + 12 * i)).take 12
  let stack (i : Nat) : List Word := (ws.drop (64 + 12 * i)).take 12
  let reserved := wbits ws 0 0 26 != 0 || wbits ws 3 2 30 != 0 || !zeroWords ws 192 256 ||
    (wbits ws 0 27 1 == 0 && !zeroWords ws 256 1280) ||
    ((List.range 4).any fun i => wbits (split i) 0 9 23 != 0 || !zeroWords (split i) 10 12) ||
    (List.range 8).any fun i => wbits (stack i) 0 4 28 != 0 || (wbits (stack i) 0 0 2 != 2 && !zeroWords (stack i) 10 12)
  let malformed := decide (4 < wbits ws 1 0 4) || (wbits ws 0 26 1 == 1 && !pres) ||
    ((List.range 4).any fun i =>
      wbits ws 1 (4 + i) 1 != wbits (split i) 0 0 1 || (wbits (split i) 0 0 1 == 1 &&
        (wbits (split i) 0 1 2 == 3 || decide (23 < wbits (split i) 0 4 5) || splitValuesBad (split i)))) ||
    ((List.range 8).any fun i => wbits (stack i) 0 0 2 == 3 || stackValuesBad (wbits (stack i) 0 0 2) (stack i)) ||
    (List.range (min 4 (wbits ws 1 0 4))).any fun i => modeBad (ws.getD (162 + 4 * i) 0#32) || fmtBad (ws.getD (163 + 4 * i) 0#32)
  if wbits ws 1 16 16 ≠ 1 then some 2
  else if reserved then some 3
  else if alloc % 8 ≠ 0 ∨ alloc < 16 ∨ cap < alloc then some 4
  else if malformed then some 6
  else none

/-- A split from its entry; one in page-wait tries its walk at once (R358, R431). -/
def splitOf (i : Nat) (w : List Word) : Split where
  idx := i
  st := match wbits w 0 1 2 with
    | 1 => .pageWait
    | 2 => .brk
    | _ => .ready
  pc := wpair w 2
  mask := w.getD 1 0#32
  mode := w.getD 4 0#32
  fmt := w.getD 5 0#32
  rstart := wpair w 6
  rmode := w.getD 8 0#32
  rfmt := w.getD 9 0#32
  run := wbits w 0 4 5
  wait := if wbits w 0 1 2 = 1 then .pages [] else .none
  waited := 0
  counted := wbits w 0 3 1 == 1
  released := wbits w 0 1 2 == 1
  passed := 0
  call := none

/-- A stack entry from its words. -/
def stackOf (w : List Word) : Option StackEnt :=
  match wbits w 0 0 2 with
  | 1 => some (.record (w.getD 1 0#32) (w.getD 6 0#32) (w.getD 7 0#32))
  | 2 => some (.deferred (wbits w 0 2 2) (wpair w 2) (w.getD 1 0#32) (w.getD 4 0#32) (w.getD 5 0#32) (w.getD 6 0#32)
      (w.getD 7 0#32) (wpair w 8) (w.getD 10 0#32) (w.getD 11 0#32))
  | _ => none

/-- The threads that the splits and the deferred paths of a group hold. -/
def Group.present (g : Group) : Mask :=
  g.stack.foldl (fun m x => match x with
    | .deferred _ _ y .. => m ||| y
    | _ => m) (g.splits.foldl (fun m p => m ||| p.mask) 0#32)

/-- A group with everything that a group state block holds, allotment first (R433). -/
def Group.loadGsb (g : Group) (ws : List Word) : Group :=
  let alloc := wbits ws 1 8 8
  let g := if alloc < g.alloc then g.shrinkTo alloc else g.growTo alloc
  let splits := (List.range 4).filterMap fun i =>
    let w := (ws.drop (16 + 12 * i)).take 12
    if wbits w 0 0 1 = 1 then some (splitOf i w) else none
  let stack := (List.range 8).filterMap fun i => stackOf ((ws.drop (64 + 12 * i)).take 12)
  let g := { g with
    splits := splits
    stack := stack
    cont := (List.range (wbits ws 1 0 4)).map fun i =>
      { handler := wpair ws (160 + 4 * i), mode := ws.getD (162 + 4 * i) 0#32, fmt := ws.getD (163 + 4 * i) 0#32 }
    urec := (ws.drop 176).take 16
    tokens := wbits ws 0 28 4
    pair := wbits ws 0 26 1 == 1
    nb := ws.getD 2 0#32
    forming := []
    unretired := []
    shots := []
    posted := []
    fresh := []
    preds := (List.range 7).map fun j => (j + 1, ws.getD (9 + j) 0#32) }
  let g := { g with exited := ~~~g.present }
  (List.range alloc).foldl (fun g k =>
    g.putReg k { g.reg k with full := wbits ws (4 + k / 32) (k % 32) 1 == 0 }) g

/-- Whether the register pool of a group's workgroup has no room yet for an allotment (R27). -/
def State.noRoomFor (s : State) (gid : Nat) (g : Group) (n : Nat) : Bool :=
  decide (g.alloc < n) && decide (s.poolOf g < s.otherAllotments gid + n)

/-- Whether an engine command accepted earlier still writes a range that a window of the list is to map (R178). -/
def State.rangesBusy (s : State) (w : Nat) (l : List (Nat × Nat × Nat × Nat)) : Bool :=
  (s.wg w).any fun x => l.any fun (_, _, off, len) => x.busyRange off len

/-- CTX_LST: where the block says that the group owns the latch, the engine's latch must be free first (R433); the pool must have
room for the allotment (R27). -/
def execCtxLst (a : BitVec 6) (e : Bool) (s : State) : Host.Outcome State Fault Refusal :=
  s.withIss fun I =>
    s.ctxWord I true (I.need false true [] [pairOp a] .uniform) e fun J s =>
      let va := (J.G.pairVal (pairOp a).n (lowest J.act)).toNat
      let g := J.acting s
      match s.ctxReach J va 5120 false with
      | .stop s => s
      | .go s _ _ xs =>
        let before := s
        let (ws, s) := s.ctxLoad J xs va 1280
        match gsbBad ws g.cap g.pres with
        | some r => s.ctxBad J r
        | none =>
          let cl := clusterOf J.core
          let own := wbits ws 0 27 1 == 1
          if own && (mapFind s.latches cl).any (·.group != J.agid) then before.stall I .latch
          else if s.noRoomFor J.agid g (wbits ws 1 8 8) then before.stall I .latch
          else
            let acnt := wbits ws 3 0 2
            let rows := (List.range (32 * (acnt + 1))).map fun m => (ws.drop (256 + 8 * m)).take 8
            let s := { s with latches := if own then mapSet s.latches cl { group := J.agid, acnt := acnt, rows := rows }
                                         else s.latches.filter fun x => x.2.group != J.agid }
            ((s.modGroup J.agid fun g => g.loadGsb ws).testGrows J.G.wg).advance I e

/-! ### Workgroup state blocks (R432) -/

/-- The words of a barrier in a workgroup state block (R432). -/
def State.barWords (s : State) (w i : Nat) : List Word :=
  let k := BarKey.wg w i
  let b := s.bar k
  let exp : Word := match b.exp with
    | none => 0xFFFFFFFE#32
    | some none => 0xFFFFFFFF#32
    | some (some n) => BitVec.ofNat 32 n
  let mine := s.groups.filter fun x => x.2.wg == w && x.2.trap.isNone
  let maskBy (p : Group → Bool) : Word := mine.foldl (fun m x => if p x.2 then m ||| (1#32 <<< x.2.idx) else m) 0#32
  [b.phase, BitVec.ofNat 32 b.arr, exp, BitVec.ofNat 32 b.posted, BitVec.ofNat 32 b.landed,
    maskBy fun g => mapFind g.stamps k == some b.phase, maskBy fun g => (mapFind g.stamps k).isNone, 0#32]

/-- The 512 words of a workgroup state block (R432). -/
def State.wsbOf (s : State) (w : Nat) (x : Workgroup) (d : Grid) : List Word :=
  let valid := ((List.range 16).map fun i => if (mapFind x.slots i).isSome then 2 ^ i else 0).sum
  words2 (2 ^ 48 + d.ngrp * 2 ^ 40 + d.barriers * 2 ^ 32 + valid * 2 ^ 16) ++ List.replicate 14 0#32 ++
    padTo 128 ((List.range d.barriers).flatMap (s.barWords w)) ++
    (List.range 16).flatMap (fun i => padTo 16 ((mapGet x.slots i []).flatMap fun v => words2 v.toNat)) ++
    (List.range 4).flatMap (fun n => match mapFind x.windows n with
      | some v => words2 v.va ++ [BitVec.ofNat 32 v.off, BitVec.ofNat 32 v.len]
      | none => List.replicate 4 0#32) ++
    List.replicate 96 0#32

/-- The workgroup of a group with its grid. -/
def State.wgGrid (s : State) (w : Nat) : Option (Workgroup × Grid) :=
  (s.wg w).bind fun x => (mapFind s.grids x.grid).map fun d => (x, d)

/-- CTX_SWG (R432). -/
def execCtxSwg (a : BitVec 6) (e : Bool) (s : State) : Host.Outcome State Fault Refusal :=
  s.withIss fun I =>
    s.ctxWord I false (I.need false true [] [pairOp a] .uniform) e fun J s =>
      let va := (J.G.pairVal (pairOp a).n (lowest J.act)).toNat
      match s.ctxReach J va 2048 true with
      | .stop s => s
      | .go s _ _ xs =>
        let ws := match s.wgGrid J.G.wg with
          | some (x, d) => s.wsbOf J.G.wg x d
          | none => []
        (s.ctxStore J xs va ws).advance I e

/-- The windows of a workgroup state block: number, address, offset, length. -/
def wsbWindows (ws : List Word) : List (Nat × Nat × Nat × Nat) :=
  ((List.range 4).map fun n =>
    (n, (wpair ws (400 + 4 * n)).toNat, (ws.getD (402 + 4 * n) 0#32).toNat, (ws.getD (403 + 4 * n) 0#32).toNat)).filter
      fun x => x.2.2.2 != 0

/-- Some window of a block fails R178. -/
def windowsBad (size : Nat) (l : List (Nat × Nat × Nat × Nat)) : Bool :=
  l.any fun (n, va, off, len) =>
    va % 128 != 0 || off % 128 != 0 || len % 128 != 0 || decide (size < off + len) || !canonical va ||
      !canonical (va + len - 1) ||
      l.any fun (m, _, o, k) => m != n && decide (o < off + len) && decide (off < o + k)

/-- Why a workgroup state block is refused (R433). -/
def wsbBad (ws : List Word) (d : Grid) : Option Nat :=
  let bars := min 16 d.barriers
  if wbits ws 1 16 16 ≠ 1 then some 2
  else if wbits ws 0 0 16 ≠ 0 ∨ !zeroWords ws 2 16 ∨ !zeroWords ws 416 512 ∨ !zeroWords ws (16 + 8 * bars) 144 ∨
      ((List.range bars).any fun i => ws.getD (23 + 8 * i) 0#32 != 0#32) ∨
      ((List.range 16).any fun i => wbits ws 0 (16 + i) 1 == 0 && !zeroWords ws (144 + 16 * i) (160 + 16 * i)) then some 3
  else if wbits ws 1 8 8 ≠ d.ngrp ∨ wbits ws 1 0 8 ≠ d.barriers then some 5
  else if windowsBad d.scratchBytes (wsbWindows ws) then some 6
  else none

/-- Loads barrier i of a workgroup with the stamps of its groups (R433). -/
def State.loadBar (s : State) (w i : Nat) (ws : List Word) : State :=
  let k := BarKey.wg w i
  let at_ (j : Nat) : Word := ws.getD (16 + 8 * i + j) 0#32
  let exp : Option (Option Nat) :=
    if at_ 2 = 0xFFFFFFFE#32 then none else if at_ 2 = 0xFFFFFFFF#32 then some none else some (some (at_ 2).toNat)
  let b : Barrier := { phase := at_ 0, arr := (at_ 1).toNat, exp := exp, posted := (at_ 3).toNat, landed := (at_ 4).toNat }
  { s with
    bars := mapSet s.bars k b
    groups := s.groups.map fun (x : Nat × Group) =>
      let stamps : Map BarKey (BitVec 32) :=
        if (at_ 5).getLsbD x.2.idx then mapSet x.2.stamps k b.phase
        else if (at_ 6).getLsbD x.2.idx then mapDel x.2.stamps k
        else mapSet x.2.stamps k (b.phase - 1)
      if x.2.wg == w && x.2.trap.isNone then (x.1, { x.2 with stamps := stamps }) else x }

/-- CTX_LWG (R433). -/
def execCtxLwg (a : BitVec 6) (e : Bool) (s : State) : Host.Outcome State Fault Refusal :=
  s.withIss fun I =>
    s.ctxWord I true (I.need false true [] [pairOp a] .uniform) e fun J s =>
      let va := (J.G.pairVal (pairOp a).n (lowest J.act)).toNat
      match s.ctxReach J va 2048 false with
      | .stop s => s
      | .go s _ _ xs =>
        let before := s
        let (ws, s) := s.ctxLoad J xs va 512
        match s.wgGrid J.G.wg with
        | none => s.advance I e
        | some (_, d) =>
          match wsbBad ws d with
          | some r => s.ctxBad J r
          | none =>
            let w := J.G.wg
            if s.rangesBusy w (wsbWindows ws) then before.stall I .range else
            let s := (List.range (min 16 d.barriers)).foldl (fun s i => s.loadBar w i ws) s
            let slots : Map Nat (List DWord) := (List.range 16).filterMap fun i =>
              if wbits ws 0 (16 + i) 1 = 1 then some (i, (List.range 8).map fun j => wpair ws (144 + 16 * i + 2 * j))
              else none
            let s := s.modWg w fun x => { x with slots := slots }
            let s := s.winUnbindAll w
            ((wsbWindows ws).foldl (fun s (n, va, off, len) => s.winBind w n va off len) s).advance I e

/-- A workgroup's accepted engine commands: copies, matrix operations, migrations, and records that a die's child-launch queue holds,
whether or not the command processor has taken them (R15, R429). -/
def State.commandsOf (s : State) (w : Nat) : Bool :=
  (s.copies.any fun c => c.wg == w) || (s.mxops.any fun o => o.wg == w && !o.done) ||
    (s.migr.any fun m => m.2.group.isSome && m.2.wg == w) ||
    s.groups.any fun x => x.2.wg == w && x.2.splits.any fun p => match p.wait with
      | .launch _ => true
      | _ => false

/-- CTX_QUIET: waits for the commands of the interrupted group's workgroup, then the acquire actions of .die (R429). -/
def execCtxQuiet (e : Bool) (s : State) : Host.Outcome State Fault Refusal :=
  s.withIss fun I =>
    s.ctxWord I false { mask := I.act } e fun _ s =>
      let w := I.G.wg
      if s.commandsOf w then s.suspend I .quiet
      else (s.acquireBy I 4).advance I e

end Sys2Proof.Machine
end

