-- ==== Sys2Proof/Machine/Preempt.lean ====
section
/-!
DEFINITION. Pre-emption and restoration of workgroups (R45, R47, R53, R414 to R418), the watchdog of trap mode (R421), the
waiting budget with its snapshots (R406 to R408) and in-field tests (R347).
-/

namespace Sys2Proof.Machine

/-! ### Asking for a pre-emption (R414, R416) -/

/-- A workgroup and its peer, which are pre-empted and restored together (R24). -/
def State.unitOf (s : State) (w : Nat) : List Nat :=
  w :: (((s.wg w).bind (·.peer)).toList.filter fun p => (s.wg p).isSome)

/-- Asks for the pre-emption of a workgroup: by save where its grid chose so and the context has both routines, else by
discard (R414). A workgroup whose groups have all exited goes with a peer that has not. -/
def State.askPreempt (s : State) (w : Nat) : State :=
  match s.wgGrid w with
  | none => s
  | some (x, d) =>
    let alone := (s.unitOf w).all fun p => (s.wg p).any (·.exited)
    if x.preempting.isSome || alone then s
    else
      let c := s.ctx d.ctx
      let save := d.psave && c.svec != 0#64 && c.rvec != 0#64
      (s.unitOf w).foldl (fun s p => s.modWg p fun x => { x with preempting := some save }) s

/-- A group that a pre-emption may stop now: no `nopre` window, no trap mode (R416). -/
def Group.preemptible (g : Group) : Bool := g.nopre.isNone && (g.stop == .none || g.stop == .pending)

/-- The groups of a workgroup that is being pre-empted begin no new run; one inside a `nopre` window goes on (R416). -/
def State.holdGroups (s : State) (w : Nat) : State :=
  { s with groups := s.groups.map fun (x : Nat × Group) =>
    if x.2.wg == w && x.2.trap.isNone then
      (x.1, { x.2 with stop := if x.2.stop == .none && x.2.nopre.isNone then .pending
                               else if x.2.stop == .pending && x.2.nopre.isSome then .none else x.2.stop })
    else x }

/-- The groups of a unit. -/
def State.unitGroups (s : State) (unit : List Nat) : List (Nat × Group) :=
  s.groups.filter fun x => unit.contains x.2.wg && x.2.trap.isNone

/-- A wait at which a run stops for a pre-emption by save: for a full/empty register or an empty line (R417). -/
def Wait.stopsRun : Wait → Bool
  | .regs .. => true
  | .pred _ => true
  | .line .. => true
  | .row .. => true
  | _ => false

/-- No split of a group is in the middle of a run that goes on: each is between runs, or waits. A pre-emption by discard abandons a
run at any wait (R53); one by save waits for the run's end, unless it has come to an empty register or line (R417). -/
def Group.still (g : Group) (save : Bool) : Bool :=
  g.splits.all fun p => p.st != .issuing || (if save then p.wait.stopsRun else p.wait != .none)

/-- A matrix operation that has not started waits for what only words of its groups can give: a token, or a full register that
no producer is to fill (R299). -/
def State.lacksToken (s : State) (o : MxOp) : Bool :=
  o.isStep && !(mapFind s.latches o.cluster).any (fun l => l.group == o.group) &&
    (upFrom o.agrp 1 (o.acnt + 1)).any fun i => match s.groupAt o.wg i with
      | some (_, g) => (!o.taken && g.tokens == 0) || (upFrom o.areg 1 8).any fun r => !(g.reg r).full && !g.produced r
      | none => true

/-- The latch of an operation's cluster is held by a group of some workgroups, or by one that is no longer resident. -/
def State.latchIn (s : State) (unit : List Nat) (o : MxOp) : Bool :=
  (mapFind s.latches o.cluster).any fun l => match mapFind s.groups l.group with
    | some g => unit.contains g.wg
    | none => true

/-- The operation cannot start before a group of some workgroups goes on: for a token, behind the latch of one, or behind an
operation of theirs that cannot. -/
def State.cannotStart (s : State) (unit : List Nat) (o : MxOp) : Bool :=
  let stuck (x : MxOp) : Bool := !x.done && !x.started && unit.contains x.wg && s.lacksToken x
  !o.started && ((s.deferred o && s.latchIn unit o) || s.lacksToken o ||
    (s.mxops.any fun x => x.cluster == o.cluster && x.taken && x.reuse && x.group != o.group && stuck x) ||
    (s.mxops.takeWhile fun x => x.id != o.id).any fun x => s.shareArray o x && stuck x)

/-- The commands that a unit's groups had accepted have completed, but for matrix operations that wait for the groups
themselves (R17, R47). -/
def State.unitQuiet (s : State) (unit : List Nat) : Bool :=
  !(s.copies.any fun c => unit.contains c.wg) && !(s.migr.any fun m => m.2.group.isSome && unit.contains m.2.wg) &&
    s.mxops.all fun o => !unit.contains o.wg || o.done || s.cannotStart unit o

/-- Every group of a unit stands where its pre-emption may act: all of its members are asked for, pre-emptible and
between words (R416). -/
def State.unitStill (s : State) (unit : List Nat) (save : Bool) : Bool :=
  unit.all (fun w => (s.wg w).any fun x => x.preempting == some save) &&
    (s.unitGroups unit).all fun x => x.2.preemptible && x.2.still save

/-! ### Taking a workgroup off its core (R414, R417) -/

/-- The workgroup leaves its core: windows are written back, the core releases at .sys, and all it held is kept in the
state of the device, while its resources return (R180, R414). -/
def State.takeOff (s : State) (w : Nat) (byRoutine : Bool) : State :=
  match s.wg w with
  | none => s
  | some x =>
    let s := s.landIn w
    let s := (if byRoutine then s.winUnbindAll w else s.winFlush w fun _ _ => true).release x.core 6
    let groups := x.groups.filterMap fun gid => (mapFind s.groups gid).map fun g => (gid, g)
    let handles := groups.filterMap fun y => match y.2.stop with
      | .saved (some h) => some (y.1, h)
      | _ => none
    let rows (row : Nat) : Bool := decide (x.panBase ≤ row) && decide (row < x.panBase + x.panRows)
    let v : Saved :=
      { wg := { (mapFind s.wgs w).getD x with preempting := none }, groups := groups
        pan := (s.pan.filter fun p => p.1.1 == x.core && rows p.1.2.1).map fun p => ((p.1.2.1 - x.panBase, p.1.2.2), p.2)
        panPoison := (s.panPoison.filter fun p => p.1 == x.core && rows p.2.1).map fun p => (p.2.1 - x.panBase, p.2.2)
        panStamps := (s.panStamps.filter fun p => p.1.1 == x.core && rows p.1.2.1).map fun p =>
          ((p.1.2.1 - x.panBase, p.1.2.2), p.2)
        latches := (s.latches.filter fun l => x.groups.contains l.2.group).map (·.2)
        byRoutine := byRoutine, handles := handles }
    let ops := s.mxops
    let s := { s with
      saved := mapSet s.saved w v
      groups := s.groups.filter fun y => !x.groups.contains y.1
      latches := s.latches.filter fun l => !x.groups.contains l.2.group }
    { s.freeWg w x with mxops := ops }

/-! ### Pre-emption by discard (R45, R47) -/

/-- A split that a boundary word inside containment holds for error status (R336) is restarted at that word (R43, R350): what its
group's loads read is reported first, which may unwind the group, and its held words are harvested (log entry 77). -/
def State.reportFirst (s : State) (gid : Nat) (p : Split) : State :=
  if p.wait = .status ∧ (mapFind s.groups gid).any fun g => g.depth != 0 then
    let (s, gone) := s.settle gid
    if gone then s
    else (s.harvest gid p.mask).modSplit gid p.idx fun q => { q with rstart := q.pc, rmode := q.mode, rfmt := q.fmt }
  else s

/-- One split of a group is stopped at its restart point. One in page-wait stays there, one whose arrival is counted goes on
waiting for its phase, and one that is stopped at `brk` stays stopped, at its restart point (R43, R45, R53, R130, log entry
51). -/
def State.discardSplit (s : State) (gid : Nat) (p : Split) : State :=
  if p.st = .pageWait ∨ p.counted then s
  else
    ((s.reportFirst gid p).abortRegion gid p.idx).modSplit gid p.idx fun q => { q with st := if p.st = .brk then .brk else .ready, passed := 0 }

/-- A group is stopped by discard: the regions of its splits and deferred paths are aborted, and what is left of its producers,
which earlier regions issued, fills. A group that the data unwinds is stopped as it then stands (R45, R47). -/
def State.discardGroup (s : State) (gid : Nat) : State :=
  match mapFind s.groups gid with
  | none => s
  | some g =>
    let s := (g.splits.foldl (fun s p => s.discardSplit gid p) s).abortPaths gid fullMask
    let s := s.modGroup gid fun g => { g with stop := .none, held := [], txs := [], txReg := [] }
    (s.settle gid).1.dropExited gid

/-- PREEMPTION_DISCARD: the groups of a workgroup stop; once every one has, and its commands are complete, the device
saves it (R47, R414). -/
def execPreemptionDiscard (wg : Nat) (s : State) : Host.Outcome State Fault Refusal :=
  .next (if (s.wg wg).any (fun x => x.preempting == some false) then
      let unit := s.unitOf wg
      let s := unit.foldl State.holdGroups s
      if !s.unitStill unit false || !s.unitQuiet unit then s
      else
        let t := ((s.unitGroups unit).map (·.1)).foldl State.discardGroup s
        if (t.unitGroups unit).any fun x => x.2.prods != [] then s
        else unit.foldl (fun s w => s.takeOff w false) t
    else s)

/-! ### Pre-emption by save (R417) -/

/-- A split at its save point: a run that waits stops at the word that waits, and a wait is left (R417). A stall inside a macro call
stops at the call. -/
def State.savePoint (s : State) (gid : Nat) (p : Split) : State :=
  s.modGroup gid fun g => (g.endPoll p).modSplit p.idx fun q =>
    if q.st = .pageWait ∨ q.st = .brk then q
    else { q with st := .ready, wait := .none, waited := 0, passed := 0, released := false, call := none, word := none, act := none }

/-- A split with an open transaction in some thread goes back to its restart point, and its held words are dropped (R254). -/
def State.dropTx (s : State) (gid : Nat) (p : Split) : State :=
  if (mapFind s.groups gid).any fun g => (threadsOf p.mask).any fun t => (mapFind g.txs t).isSome then s.abortRegion gid p.idx else s

/-- The save point of a split that is not in page-wait is its region start (R128, R417). -/
def Split.saveRegion (p : Split) : Split :=
  if p.st = .pageWait then p else { p with rstart := p.pc, rmode := p.mode, rfmt := p.fmt }

/-- A deferred path is saved where it stands (R38, R417). -/
def StackEnt.saveRegion : StackEnt → StackEnt
  | .deferred o pc m mo fo pm pf _ _ _ => .deferred o pc m mo fo pm pf pc mo fo
  | e => e

/-- A group comes to its save point: splits; producers, of which none is cancelled; regions, with open transactions dropped (steps 1
to 3 of R417). One that has exited leaves its slot with its last producer (R122). Its deferred paths harvest with their splits,
and its registers show what was written last to them (R303). -/
def State.saveGroup (s : State) (gid : Nat) : State :=
  match mapFind s.groups gid with
  | none => s
  | some g =>
    let s := ((g.splits.foldl (fun s p => s.savePoint gid p) s).settle gid).1
    let s := (((mapFind s.groups gid).map (·.splits)).getD []).foldl (fun s p => s.dropTx gid p) s
    let s := s.abortPaths gid (maskOf fun t => (mapFind g.txs t).isSome)
    let s := s.harvest gid fullMask
    (s.modGroup gid fun g =>
      { g.showNewest (fun _ => true) with
        splits := g.splits.map Split.saveRegion
        stack := g.stack.map StackEnt.saveRegion }).dropExited gid

/-- The lowest split of a group. -/
def Group.firstSplit (g : Group) : Nat := (g.splits.map (·.idx)).foldl min 3

/-- PREEMPTION_SAVE: the groups of a workgroup stop at their save points and enter the save routine; once every routine has
ended, the workgroup leaves its core (R417). -/
def execPreemptionSave (wg : Nat) (s : State) : Host.Outcome State Fault Refusal :=
  .next (if (s.wg wg).any (fun x => x.preempting == some true) then
      let unit := s.unitOf wg
      let saved (g : Group) : Bool := match g.stop with
        | .saved (some _) => true
        | _ => false
      if (s.unitGroups unit).all (fun x => saved x.2) then
        if s.unitQuiet unit then unit.foldl (fun s w => s.takeOff w true) s else s
      else
        let s := unit.foldl State.holdGroups s
        if !s.unitStill unit true then s
        else
          let t := ((s.unitGroups unit).map (·.1)).foldl State.saveGroup s
          if (t.unitGroups unit).any fun x => x.2.prods != [] then s
          else ((t.unitGroups unit).map (·.1)).foldl (fun s gid =>
            s.enterTrap gid (((mapFind s.groups gid).map Group.firstSplit).getD 0) .save) t
    else s)

/-! ### Restoration (R414, R418) -/

/-- A group placed again on a lane: under discard with all it had, its splits at their restart points and a page-waiting
one trying its walk at once; under save as a fresh group without splits, for the restore routine (R154, R414, R418). -/
def restoredGroup (d : Grid) (pair pres byRoutine : Bool) (g : Group) (lane slot : Nat) : Group :=
  let shadow := if pres then some (shadowOf lane) else none
  if byRoutine then
    { newGroup g.wg d pair pres g.idx lane slot with splits := [], exited := g.exited, executed := g.executed }
  else
    { g.retag with
      lane := lane, slot := slot, shadowLane := shadow, stop := .none,
      splits := g.splits.map fun (p : Split) => if p.st == .pageWait then { p with released := true } else p }

/-- A workgroup is placed again on a core, with lanes for its groups. -/
def State.putBack (s : State) (w : Nat) (v : Saved) (d : Grid) (core : Nat) (lanes : List Nat) : State :=
  let dk := v.wg.grid
  let base := s.freeRows core d.prows
  let s := ((s.clearRows core base d.prows).loadMacros dk d core).modGrid dk fun d =>
    { d with level := d.prio, cores := if d.cores.contains core then d.cores else d.cores ++ [core] }
  let x : Workgroup :=
    if v.byRoutine then
      { v.wg with core := core, panBase := base, scratch := [], spoison := [], pendLines := [], windows := [], wlines := [],
                  slots := [] }
    else { v.wg with core := core, panBase := base, pendLines := [], wlines := [] }
  let pres := s.gridPres d
  let s := { s with
    saved := mapDel s.saved w
    wgs := mapSet s.wgs w x
    bars := if v.byRoutine then s.bars.filter fun b => match b.1 with
        | .wg n _ => n != w
        | _ => true
      else s.bars
    mxops := s.mxops.map fun (o : MxOp) =>
      if o.wg == w && !o.done then { o with core := core, cluster := clusterOf core } else o }
  let s := if v.byRoutine then s else
    { s with
      pan := v.pan.foldl (fun m p => mapSet m (core, base + p.1.1, p.1.2) p.2) s.pan
      panPoison := (v.panPoison.map fun p => (core, base + p.1, p.2)) ++ s.panPoison
      panStamps := v.panStamps.foldl (fun m p => mapSet m (core, base + p.1.1, p.1.2) p.2) s.panStamps
      latches := v.latches.foldl (fun m l => mapSet m (clusterOf core) l) s.latches }
  let s := s.acquire core 6
  let s := (List.range v.groups.length).foldl (fun s i =>
    match v.groups[i]? with
    | none => s
    | some (gid, g) =>
      let lane := lanes.getD i 0
      let g := restoredGroup d ((s.ctx d.ctx).pair || d.paired == 2) pres v.byRoutine g lane (s.freeSlot lane)
      { s with groups := mapSet s.groups gid g }) s
  if v.byRoutine then
    v.groups.foldl (fun s (gid, _) => s.enterTrap gid 0 (.restore (mapGet v.handles gid 0#64))) s
  else s

/-- A core may take a saved workgroup again: its die is in the grid's effective mask, or it is the cell of a sluice grid,
and a latch that it owned finds the engine's latch free (R314, R402, R418, R433). -/
def State.mayReturn (s : State) (v : Saved) (d : Grid) (core : Nat) : Bool :=
  s.schedulerRuns (dieOfCore core) &&
    (if d.sluice then core == d.cell v.wg.w
      else if d.dcor then d.sliceDies[(d.sliceOf v.wg.w).getD 0]? == some (dieOfCore core)
      else (s.gridDies d).contains (dieOfCore core)) &&
    (v.latches == [] || (mapFind s.latches (clusterOf core)).isNone)

/-- The lanes that a core grants to a saved workgroup, as to a fresh one: R50 and the hold of R399 apply. None where it may not
return there now. -/
def State.returnLanes (s : State) (w core : Nat) : Option (Saved × Grid × List Nat) :=
  match mapFind s.saved w with
  | none => none
  | some v =>
    match mapFind s.grids v.wg.grid with
    | none => none
    | some d =>
      if (s.ctx d.ctx).st ≠ .live ∨ !s.mayReturn v d core ∨ s.heldBack (dieOfCore core) d then none
      else (s.grant v.wg.grid d v.groups.length (s.spareFor d) core).map fun l => (v, d, l)

/-- WORKGROUP_RESTORE: a saved workgroup of a live context is placed again on a core, a pair on the two cores of a cluster
(R24, R414, R418). -/
def execWorkgroupRestore (wg core : Nat) (s : State) : Host.Outcome State Fault Refusal :=
  .next (match s.returnLanes wg core with
    | none => s
    | some (v, d, l) =>
      match v.wg.peer with
      | none => s.putBack wg v d core l
      | some p =>
        if v.wg.w % 2 ≠ 0 ∨ core % 2 ≠ 0 then s
        else
          match s.returnLanes p (core + 1) with
          | some (v', d', l') => (s.putBack wg v d core l).putBack p v' d' (core + 1) l'
          | none => s)

/-! ### The watchdog (R421) -/

/-- TRAP_WATCHDOG: a routine that has run for 2^24 aclk without an `rfe` ends the context; a fault routine's record is written with class 4
(R420, R421). -/
def execTrapWatchdog (group : Nat) (s : State) : Host.Outcome State Fault Refusal :=
  .next (match (mapFind s.groups group).bind fun g => g.trap.map fun t => (g, t) with
    | none => s
    | some (g, t) =>
      if t.resting || t.aclk < 2 ^ 24 then s
      else
        let s := match t.cause with
          | .fault r => s.record { r with cls := 4 }
          | _ => s
        s.fatal g.ctx
          { queue := s.queueOf g, ctx := none, seq := 0, src := 0, cls := 4, code := codeTrapWatchdog,
            pc := (g.splits.head?).map (·.pc), va := none, pa := none, tmask := 0#32, loc := g.loc 0, skid := 0, time := 0,
            detail := 0, die := g.die })

/-! ### The waiting budget (R406 to R408) -/

/-- A wait counts against the budget (R52, R406). -/
def Wait.isCounted : Wait → Bool
  | .regs .. => true
  | .line .. => true
  | .row .. => true
  | .pred _ => true
  | .barrier _ => true
  | .poll .. => true
  | .batch .. => true
  | .grid _ => true
  | .token => true
  | .link .. => true
  | _ => false

/-- A split is in a counted wait: no wait counts in trap mode or at `brk` (R124, R421). -/
def Group.counts (g : Group) (p : Split) : Bool :=
  g.trap.isNone && p.wait.isCounted && (p.st == .issuing || p.st == .suspended)

/-- The splits of a context that are in a counted wait, in the order of die, core, partition, lane, slot and split
(R407). -/
def State.waiters (s : State) (slot : Nat) : List (Nat × Group × Split) :=
  let all := s.groups.flatMap fun (gid, g) =>
    if g.ctx = slot then (g.splits.filter g.counts).map fun p => (gid, g, p) else []
  sortBy (fun a b => decide ((a.2.1.loc a.2.2.idx).toNat ≤ (b.2.1.loc b.2.2.idx).toNat)) all

/-- The bound of a single wait in aclk; none for no bound (R390). -/
def Ctx.basicBound (c : Ctx) : Option Nat :=
  if c.wbud = 0xFFFFFFFF then none else if c.wbud = 0 then some (2 ^ 32) else some (c.wbud * 2 ^ 20)

/-- A split as a record names it, with the bound of the budget that its wait has passed (R407). -/
def overAs (x : Nat × Group × Split) (bound : Nat) : DWord × Word × Nat × Nat :=
  (x.2.2.pc, x.2.1.loc x.2.2.idx, x.2.1.die, bound)

/-- The bound of its context that some wait passes within the next n aclk: 0 the single wait, that of the first split to pass it, or 1
the sum, with the first split that waits then; the first in the order of R407 where several are (R406, R407). -/
def State.passing (s : State) (slot n : Nat) : Option (DWord × Word × Nat × Nat) :=
  let c := s.ctx slot
  let l := s.waiters slot
  let single := c.basicBound.bind fun b =>
    let longest := l.foldl (fun (best : Option (Nat × Group × Split)) x => match best with
      | some y => if y.2.2.waited < x.2.2.waited then some x else best
      | none => some x) none
    longest.bind fun x => if b < x.2.2.waited + n then some (x, b + 1 - x.2.2.waited) else none
  let bound := c.wtot * 2 ^ 24
  let sum := if c.wtot ≠ 0 ∧ bound < c.waited + n * l.length then
      l.head?.map fun x => (x, (bound + l.length - c.waited) / l.length) else none
  match single, sum with
  | some (x, a), some (y, b) => some (if b < a then overAs y 1 else overAs x 0)
  | some (x, _), none => some (overAs x 0)
  | none, some (y, _) => some (overAs y 1)
  | none, none => none

/-- The kind, the code of byte 5 and the number of bytes 6 and 7 of the snapshot entry of a group's wait (R408). The selector of a
batch's group is that of `mxw`, with bit 8 for the peer workgroup (R292, R302); none where that group has exited. -/
def State.waitKind (s : State) (g : Group) (w : Wait) : Nat × Nat × Nat :=
  match w with
  | .regs rs fe => (if fe then 9 else 1, 0xFF, rs.headD 0xFFFF)
  | .poll _ scope .. => (2, scope, 0xFFFF)
  | .barrier (.wg _ b) => (0, 2, b)
  | .barrier (.pair _) => (0, 3, 0)
  | .barrier (.slice ..) => (0, 4, 0)
  | .batch t _ => (3, 0xFF, ((mapFind s.groups t).map fun x => x.idx + (if x.wg = g.wg then 0 else 256)).getD 0xFFFF)
  | .grid _ => (4, 0xFF, 0xFFFF)
  | .line .. => (5, 0xFF, 0xFFFF)
  | .row .. => (5, 0xFF, 0xFFFF)
  | .link r ch d .. => (6, (r.orElse fun _ => d).getD 0xFF, ch)
  | .pred q => (7, 0xFF, q)
  | .token => (8, 0xFF, 0xFFFF)
  | _ => (0xFF, 0xFF, 0xFFFF)

/-- The words of a snapshot entry (R408). The line offset is the byte offset of a scratchpad line, and the number of a pan row within
its workgroup's rows (log entry 52). -/
def State.snapEntry (s : State) (g : Group) (p : Split) : List Word :=
  let ones : Word := 0xFFFFFFFF#32
  let (kind, code, num) := s.waitKind g p.wait
  let addr : Option (Nat × Option Nat) := match p.wait with
    | .poll _ _ _ ((_, a, x) :: _) .. => some (a, some x)
    | .line _ l => some (l * 128, none)
    | .row c r => some (((s.onCore c s.holdsRows).findSome? fun x =>
        if x.panBase ≤ r ∧ r < x.panBase + x.panRows then some (r - x.panBase) else none).getD r, none)
    | _ => none
  let wide (x : Option Nat) : List Word := match x with
    | some v => words2 v
    | none => [ones, ones]
  let bar : List Word := match p.wait with
    | .barrier k =>
      let b := s.bar k
      [b.phase, BitVec.ofNat 32 b.arr, match b.exp with
        | some (some n) => BitVec.ofNat 32 n
        | _ => ones, BitVec.ofNat 32 b.posted, BitVec.ofNat 32 b.landed]
    | _ => List.replicate 5 ones
  let target : List Word := match p.wait with
    | .batch t n => [BitVec.ofNat 32 n, ((mapFind s.groups t).map (·.nb)).getD ones]
    | .grid k => [((mapFind s.grids k).map (·.id)).getD ones, ones]
    | _ => [ones, ones]
  [g.loc p.idx, BitVec.ofNat 32 (kind + code * 2 ^ 8 + num * 2 ^ 16)] ++ words2 p.pc.toNat ++ wide (addr.map (·.1)) ++
    wide (addr.bind (·.2)) ++ bar ++ target ++ [BitVec.ofNat 32 (p.waited / 2 ^ 20)]

/-- Writes the snapshot entries of a context's waiters in their order; answers how many were written (R407). An entry whose line
cannot be reached is dropped. -/
def State.writeEntries (s : State) (slot va : Nat) : List (List Word) → State × Nat
  | [] => (s, 0)
  | ws :: r =>
    match (if va % 64 = 0 then s.cpReach slot va else (s, .never)) with
    | (s, .at_ pa) =>
      let (s, n) := (s.homeWords pa ws).writeEntries slot (va + 64) r
      (s, n + 1)
    | (s, .never) => s.writeEntries slot (va + 64) r

/-- The context is held: nothing of it is placed or consumed, and every resident workgroup is pre-empted (steps 2 and 3 of
R407, R415). -/
def State.holdContext (s : State) (slot : Nat) : State :=
  let s := s.modCtx slot fun c => { c with st := .held, pre := false }
  ((s.wgs.filter fun x => x.2.ctx == slot).map (·.1)).foldl State.askPreempt s

/-- WAIT_BUDGET: a context that has passed a bound leaves its snapshot, is held, and its record is written (R407), where the command
processor runs (R18). -/
def execWaitBudget (slot : Nat) (s : State) : Host.Outcome State Fault Refusal :=
  .next (match (s.ctx slot).passedBound with
    | none => s
    | some (pc, loc, die, bound) =>
      if !s.cpRuns || (s.ctx slot).st != .live then s
      else
        let c := s.ctx slot
        let l := s.waiters slot
        let (s', done) := s.writeEntries slot c.snap ((l.take c.nsnap).map fun x => s.snapEntry x.2.1 x.2.2)
        (s'.holdContext slot).record
          { queue := s.defaultQueue slot, ctx := none, seq := 0, src := 9, cls := 0, code := codeWaitBudget, pc := some pc,
            va := none, pa := none, tmask := 0#32, loc := loc, skid := 0, time := 0,
            detail := done % 65536 + min 65535 (l.length - done) * 2 ^ 16 + bound * 2 ^ 32, die := die })

/-! ### In-field tests (R347) -/

/-- The cores of a cluster. -/
def clusterCores (cl : Nat) : List Nat := [2 * cl, 2 * cl + 1]

/-- A cluster must not be tested yet: it holds a sluice grid's buffers, or a grid that was placed whole has used it and has not
retired (R347). -/
def State.testBarred (s : State) (cl : Nat) : Bool :=
  (s.sluHold.any fun x => (clusterCores cl).contains x.1) ||
    s.grids.any fun x => x.2.whole && !x.2.st.final && x.2.cores.any (clusterCores cl).contains

/-- A test of a cluster is due: the interval of TSTINT has passed since its last one, and TSTMSK does not exempt it
(R452). -/
def State.testDue (s : State) (cl : Nat) : Bool :=
  s.host.tstInt != 0#16 && !(mapGet s.host.tstMsk (cl / 4) 0#4).getLsbD (cl % 4) &&
    decide (s.host.tstInt.toNat * 10 ^ 9 ≤ s.time (cl / 4) - mapGet s.testedAt cl 0)

/-- IN_FIELD_TEST: a test of a cluster falls due: its cores leave placement and their workgroups are pre-empted (R347). -/
def execInFieldTest (cluster : Nat) (s : State) : Host.Outcome State Fault Refusal :=
  .next (if 35 < cluster || !s.testDue cluster || s.testBarred cluster || s.testing.contains cluster ||
        s.coresOut.any (fun x => (clusterCores cluster).contains x.1) then s
    else
      let s := { s with testing := s.testing ++ [cluster]
                        testedAt := mapSet s.testedAt cluster (s.time (cluster / 4))
                        coresOut := s.coresOut ++ (clusterCores cluster).map fun c => (c, false) }
      ((s.wgs.filter fun x => (clusterCores cluster).contains x.2.core).map (·.1)).foldl State.askPreempt s)

/-- TEST_RUN_END: the test of a cluster that stands empty ends: its cores return to placement, or leave it until module
reset with a record (R347). The spec gives that record no code: the code is a free value among those that may be written (R96). -/
def execTestRunEnd (cluster : Nat) (pass : Bool) (s : State) : Host.Outcome State Fault Refusal :=
  .next (if !s.testing.contains cluster || s.wgs.any (fun x => (clusterCores cluster).contains x.2.core) then s
    else
      let mine (c : Nat) : Bool := (clusterCores cluster).contains c
      let s := { s with testing := s.testing.filter (· != cluster) }
      if pass then { s with coresOut := s.coresOut.filter fun x => !mine x.1 }
      else
        let s := { s with coresOut := s.coresOut.map fun (x : Nat × Bool) => if mine x.1 then (x.1, true) else x }
        let (v, s) := s.free
        s.manage (cluster / 4) 6 0 (1 + v.toNat % 31) cluster none)

end Sys2Proof.Machine
end

