-- ==== Sys2Proof/Machine/Plane.lean ====
section
/-!
DEFINITION. The control plane: the votes of its triplicated blocks (R18, R409, R410), the fencing of a die (R20, R402), the
commands of a context slot (R390 to R392, R415), and the host queues as the hosts drive them (R393).
-/

namespace Sys2Proof.Machine

/-! ### Votes (R18, R409, R410) -/

/-- The die of a voted block: the command processor on die 4, then the schedulers, then the walkers (R410). -/
def blockDie (b : Nat) : Nat := if b = 0 then 4 else (b - 1) % 9

/-- The source engine of a voted block's records (R99). -/
def blockSrc (b : Nat) : Nat := if b < 10 then 9 else 7

/-- The context slots that are live or held. -/
def State.openCtxs (s : State) : List Nat :=
  (s.ctxs.filter fun x => x.2.st == .live || x.2.st == .held).map (·.1)

/-- A context has a workgroup on a die, or one that waits to be placed there (R18). -/
def State.ctxOnDie (s : State) (slot die : Nat) : Bool :=
  (s.wgs.any fun x => x.2.ctx == slot && dieOfCore x.2.core == die) ||
    (s.saved.any fun x => x.2.wg.ctx == slot &&
      (mapFind s.grids x.2.wg.grid).any fun d => (s.waitsOn d).contains die) ||
    s.grids.any fun x => x.2.ctx == slot && x.2.st == .placing && (s.waitsOn x.2).contains die

/-- Something of a context runs on a die, so that a walk of it may be outstanding there (R18). -/
def State.ctxWalksOn (s : State) (slot die : Nat) : Bool :=
  (s.groups.any fun x => x.2.ctx == slot && x.2.die == die) ||
    (s.copies.any fun c => c.ctx == slot && dieOfCore c.core == die) ||
    s.migr.any fun m => m.2.ctx == slot && migrDie m.1 == die

/-- The contexts that a block affects when it stops (R18). Which of the contexts that run on a die have a walk outstanding there
is timing: a free value for each. -/
def State.affected (s : State) (b : Nat) : List Nat × State :=
  if b = 0 then (s.openCtxs, s)
  else if b < 10 then (s.openCtxs.filter fun k => s.ctxOnDie k (b - 1), s)
  else
    (s.openCtxs.filter fun k => s.ctxWalksOn k (b - 10)).foldl (fun (acc : List Nat × State) k =>
      let (v, s) := acc.2.free
      (if v.getLsbD 0 then acc.1 ++ [k] else acc.1, s)) ([], s)

/-- VOTE_DISAGREEMENT: two copies agree or none does. Two that agree outside a resynchronisation go on, with a record of
class 1, whose code the spec does not give: a free value; else the block stops, and the contexts that this affects are those of that
moment (R18, R409). -/
def execVoteDisagreement (block : Nat) (two : Bool) (s : State) : Host.Outcome State Fault Refusal :=
  .next (let (rsy, stp, run, again) := s.vote block
    if 18 < block ∨ !run then s
    else if two && !again then
      let (v, s) := s.free
      let s := { s with votes := mapSet s.votes block (min 0xFFFF (rsy + 1), stp, true, true) }
      s.manage (blockDie block) (blockSrc block) 1 (1 + v.toNat % 31) 0 none
    else
      let s := { s with votes := mapSet s.votes block (rsy, min 0xFF (stp + 1), false, false) }
      let (l, s) := s.affected block
      let s := { s with struck := mapSet s.struck block (l.map fun k => (s.ctxId k).toNat) }
      s.manage (blockDie block) (blockSrc block) 4 codeControlPlane 0 none)

/-- RESYNC_COMPLETE: the reloaded copy votes again (R409). -/
def execResyncComplete (block : Nat) (s : State) : Host.Outcome State Fault Refusal :=
  .next (let (rsy, stp, run, again) := s.vote block
    if run && again then { s with votes := mapSet s.votes block (rsy, stp, true, false) } else s)

/-- Ends a context by the control plane: a record of class 4, and its reset (R18, R392). -/
def State.endByPlane (s : State) (slot src die : Nat) : State :=
  s.fatal slot
    { queue := s.defaultQueue slot, ctx := none, seq := 0, src := src, cls := 4, code := codeControlPlane, pc := none,
      va := none, pa := none, tmask := 0#32, loc := unitLoc die, skid := 0, time := 0, detail := 0, die := die }

/-- The contexts that a block's stop ends: those that it affected when it stopped and that still run, and those that have come to wait
for a stopped scheduler, or to be served by a stopped command processor, since (R18). -/
def State.struckBy (s : State) (block : Nat) : List Nat × State :=
  let old := s.openCtxs.filter fun k => (mapGet s.struck block []).contains (s.ctxId k).toNat
  if 10 ≤ block then (old, s) else (union old (s.affected block).1, s)

/-- A context's commands that were written while the command processor was stopped, in their order (R391, R409). -/
def State.takeTodo (s : State) : List (Nat × Nat) × State :=
  (s.ctxs.flatMap fun x => x.2.todo.map fun n => (x.1, n),
    { s with ctxs := mapAll s.ctxs fun _ c => { c with todo := [] } })

/-! ### A fenced die (R20, R402) -/

/-- A grid that has not been placed is judged again by the dies that are left (R402). -/
def State.recheckGrid (s : State) (dk : Nat) : State :=
  match mapFind s.grids dk with
  | none => s
  | some d =>
    if d.st ≠ .accepted ∧ d.st ≠ .migrating ∧ d.st ≠ .placing then s
    else if s.gridDies d = [] then s.rejectGrid dk d 1
    else if d.whole ∧ s.tooLarge d then s.rejectGrid dk d 2
    else s

/-- A saved workgroup has no die left on which it could be placed again: its slice's or its cell's is gone, or every one of its grid's
mask (R314, R402, R418). -/
def State.cannotReturn (s : State) (v : Saved) : Bool :=
  (mapFind s.grids v.wg.grid).any fun d =>
    if d.sluice then !s.present (dieOfCore (d.cell v.wg.w))
    else if d.dcor then (d.sliceDies[(d.sliceOf v.wg.w).getD 0]?).all fun die => !s.present die
    else s.gridDies d == []

/-- DIE_FENCE: the die's DPRES bit clears; contexts with a grid placed on it end, and every grid not yet wholly placed
loses the die (R18, R20, R402). The spec names no code, source or location for the class-4 record of such a context: the model's choice
is CONTROL-PLANE of the command processor, src 9, with the fenced die in die and loc (log entry 70). -/
def execDieFence (die : Nat) (s : State) : Host.Outcome State Fault Refusal :=
  .next (if !s.present die then s
    else
      let s := { s with dpres := s.dpres &&& ~~~(1#9 <<< die) }
      let hit := s.openCtxs.filter fun k => (s.wgs.any fun x => x.2.ctx == k && dieOfCore x.2.core == die) ||
        s.saved.any fun x => x.2.wg.ctx == k && s.cannotReturn x.2
      let s := hit.foldl (fun s k => s.endByPlane k 9 die) s
      (s.grids.map (·.1)).foldl State.recheckGrid s)

/-! ### Context slots (R390 to R392) -/

/-- A command of a context slot has been taken, with its result (R391). -/
def State.ctxDone (s : State) (slot err : Nat) : State := s.modCtx slot fun c => { c with err := err }

/-- A reserved bit of a context descriptor is set (R390). -/
def descReserved (r : List DWord) : Bool := field r 1 31 3 != 0 || field r 6 63 16 != 0 || field r 7 63 0 != 0

/-- The slot as a new context has it (R390, R391, R423). -/
def Ctx.created (c : Ctx) (r : List DWord) : Ctx :=
  { Ctx.reset with
    desc := c.desc
    gen := c.gen
    cmd := c.cmd
    bell := c.bell
    dbg := c.dbg
    dbgLoc := c.dbgLoc
    todo := c.todo
    st := .live
    root := field r 0 63 0
    wbud := field r 1 63 32
    sys := field r 1 2 2 == 1
    migr := field r 1 1 1 == 1
    pair := field r 1 0 0 == 1
    wtot := field r 2 63 0
    dq := field r 3 63 0
    prq := field r 4 63 0
    snap := field r 5 63 0
    nsnap := field r 6 15 0 }

/-- Creates a context: its descriptor is read and checked, every TLB entry with the new identifier is dropped (R390). -/
def State.createCtx (s : State) (slot : Nat) : State :=
  let c := s.ctx slot
  if c.st ≠ .free then s.ctxDone slot 4
  else if c.desc.toNat % 64 ≠ 0 then s.ctxDone slot 1
  else
    match s.physWords c.desc.toNat 16 with
    | none => s.ctxDone slot 1
    | some ws =>
      let r := dwords ws
      if descReserved r then s.ctxDone slot 2
      else if field r 0 63 0 % 65536 ≠ 0 ∨ !backed (field r 0 63 0) then s.ctxDone slot 3
      else (s.tlbDrop fun e => e.ctx == some slot).modCtx slot fun c => c.created r

/-- A command of a context that was accepted before the context's reset, but waits for what only its groups could have
given, can never start: the engine lets it go (R17, R299). A latch that no group and no operation under way has any more is free (R300). -/
def State.dropHopeless (s : State) (slot : Nat) : State :=
  let unit := (s.wgs.filter fun x => x.2.ctx == slot).map (·.1)
  let s := { s with mxops := s.mxops.filter fun o => !(o.ctx == slot && !o.done && s.cannotStart unit o) }
  { s with latches := s.latches.filter fun l => (mapFind s.groups l.2.group).isSome ||
      s.mxops.any fun o => o.group == l.2.group && !o.done }

/-- Every command that a context's groups had accepted has completed (R392). -/
def State.ctxQuiet (s : State) (slot : Nat) : Bool :=
  !(s.copies.any fun c => c.ctx == slot) && !(s.mxops.any fun o => o.ctx == slot && !o.done) &&
    !s.migr.any fun m => m.2.ctx == slot

/-- The link buffers that grids of a context hold are free (R315). -/
def State.freeLinks (s : State) (slot : Nat) : State :=
  ((s.sluHold.filter fun x => (mapFind s.grids x.2).any fun d => d.ctx == slot).map (·.1)).foldl State.clearSluice s

/-- What a context still holds of its cores returns to them (R28, R392). -/
def State.freeCtx (s : State) (slot : Nat) : State :=
  let s := (s.wgs.filter fun x => x.2.ctx == slot).foldl (fun s x => (s.release x.2.core 6).freeWg x.1 x.2) s
  s.freeLinks slot

/-- A context slot becomes free with a new generation. The outcomes of its grids stay, as those of a context that no slot names any
more (R392, R398). -/
def State.freeSlotOf (s : State) (slot : Nat) : State :=
  let mine := s.gridIds.filter fun x => x.1.1 == slot
  let rest := mapDrop s.gridIds fun k => k.1 == slot
  let s := { s with gridIds := mine.foldl (fun (m : Map (Nat × Nat) Nat) (x : (Nat × Nat) × Nat) => mapSet m (1024, x.1.2) x.2) rest }
  s.modCtx slot fun c => { c with st := .free, gen := c.gen + 1, destroy := false, requests := [] }

/-- CONTEXT_END: a resetting context whose commands are complete ends; one that is being destroyed frees its slot
(R392), where the command processor runs (R18). -/
def execContextEnd (slot : Nat) (s : State) : Host.Outcome State Fault Refusal :=
  .next (if !s.cpRuns || (s.ctx slot).st != .resetting then s
    else
      let s := s.dropHopeless slot
      if !s.ctxQuiet slot then s
      else
        let s := s.freeCtx slot
        if (s.ctx slot).destroy then s.freeSlotOf slot else s.modCtx slot fun c => { c with st := .ended })

/-- Destroys a context: as reset, then a new generation. Commands that were accepted complete first, during which the slot
is resetting (R17, R392). -/
def State.destroyCtx (s : State) (slot : Nat) : State :=
  if (s.ctx slot).st = .free then s.ctxDone slot 4
  else
    let s := ((s.resetContext slot).dropHopeless slot).ctxDone slot 0
    if s.ctxQuiet slot then (s.freeCtx slot).freeSlotOf slot
    else s.modCtx slot fun c => { c with destroy := true }

/-- Resumes a held context: its budget counts from 0, and its saved workgroups may be placed again (R392, R406). -/
def State.resumeCtx (s : State) (slot : Nat) : State :=
  if (s.ctx slot).st ≠ .held then s.ctxDone slot 4
  else
    let again (l : List (Nat × Group)) : List (Nat × Group) := l.map fun x =>
      if x.2.ctx == slot then (x.1, { x.2 with splits := x.2.splits.map fun (p : Split) => { p with waited := 0 } }) else x
    let s := { s with
      groups := again s.groups
      saved := s.saved.map fun (x : Nat × Saved) => (x.1, { x.2 with groups := again x.2.groups }) }
    s.modCtx slot fun c => { c with st := .live, waited := 0, passedBound := none, err := 0 }

/-- Resets a context at the host's command (R392). -/
def State.hostReset (s : State) (slot : Nat) : State :=
  if (s.ctx slot).st = .live ∨ (s.ctx slot).st = .held then (s.resetContext slot).ctxDone slot 0 else s.ctxDone slot 4

/-- A write to CTXCMD (R391): 1 create, 2 destroy, 3 resume, 4 reset; other values have no effect. A stopped command processor takes
the command when it runs again (R18, R409; log entry 31). -/
def State.ctxCommand (s : State) (slot cmd : Nat) : State :=
  let s := s.modCtx slot fun c => { c with cmd := cmd % 8 }
  if !s.cpRuns then s.modCtx slot fun c => { c with todo := c.todo ++ [cmd % 8] }
  else match cmd % 8 with
  | 1 => s.createCtx slot
  | 2 => s.destroyCtx slot
  | 3 => s.resumeCtx slot
  | 4 => s.hostReset slot
  | _ => s

/-- CONTROL_PLANE_RESTART: the copies of a stopped block have been reset; the contexts it affects end, and a stop of the
command processor disables every queue (R18, R409). Then it takes the commands that were written in the meantime (log entry 31). -/
def execControlPlaneRestart (block : Nat) (s : State) : Host.Outcome State Fault Refusal :=
  .next (let (rsy, stp, run, _) := s.vote block
    if 18 < block ∨ run then s
    else
      let s := { s with votes := mapSet s.votes block (rsy, stp, true, false) }
      let (l, s) := s.struckBy block
      let s := { s with struck := mapDel s.struck block }
      let s := l.foldl (fun s k => s.endByPlane k (blockSrc block) (blockDie block)) s
      if block ≠ 0 then s
      else
        let s := ((s.queues.filter fun x => x.2.en).map (·.1)).foldl (fun s q => s.stopQueue q 5) s
        let (l, s) := s.takeTodo
        l.foldl (fun s x => s.ctxCommand x.1 x.2) s)

/-- CONTEXT_CREATE (R390, R392). -/
def execContextCreate (slot : Nat) (s : State) : Host.Outcome State Fault Refusal :=
  .next (if 1024 ≤ slot then s else s.ctxCommand slot 1)

/-- CONTEXT_DESTROY (R392). -/
def execContextDestroy (slot : Nat) (s : State) : Host.Outcome State Fault Refusal :=
  .next (if 1024 ≤ slot then s else s.ctxCommand slot 2)

/-- CONTEXT_RESUME (R392). -/
def execContextResume (slot : Nat) (s : State) : Host.Outcome State Fault Refusal :=
  .next (if 1024 ≤ slot then s else s.ctxCommand slot 3)

/-- CONTEXT_RESET (R392). -/
def execContextReset (slot : Nat) (s : State) : Host.Outcome State Fault Refusal :=
  .next (if 1024 ≤ slot then s else s.ctxCommand slot 4)

/-! ### Pre-emption, breakpoints and page-resume at the hosts' request (R358, R391, R415) -/

/-- A write of 1 to CTXCTL.pre (R415). -/
def State.requestPre (s : State) (slot : Nat) : State := if (s.ctx slot).st = .live then s.holdContext slot else s

/-- PREEMPTION_REQUEST (R415). -/
def execPreemptionRequest (slot : Nat) (s : State) : Host.Outcome State Fault Refusal :=
  .next (if 1024 ≤ slot then s else s.requestPre slot)

/-- A write to CTXDBG: the split of the context that is stopped at `brk` and has the location goes on at the word after it
(R124, R415). -/
def State.resumeBrk (s : State) (slot : Nat) (loc : Word) : State :=
  let s := s.modCtx slot fun c => { c with dbgLoc := loc }
  { s with groups := s.groups.map fun (x : Nat × Group) =>
    if x.2.ctx == slot then
      (x.1, { x.2 with splits := x.2.splits.map fun (p : Split) =>
        if p.st == .brk && x.2.loc p.idx == loc then { p with st := .ready } else p })
    else x }

/-- BREAKPOINT_RESUME (R415). -/
def execBreakpointResume (slot : Nat) (loc : BitVec 32) (s : State) : Host.Outcome State Fault Refusal :=
  .next (if 1024 ≤ slot then s else s.resumeBrk slot loc)

/-- The page-resume doorbell of a context: its page-waiting splits may try their walks again (R358). -/
def State.ringPages (s : State) (slot : Nat) : State := s.wakePages fun g _ => g.ctx == slot

/-- PAGE_RESUME_DOORBELL (R358, R391). -/
def execPageResumeDoorbell (slot : Nat) (s : State) : Host.Outcome State Fault Refusal :=
  .next (if 1024 ≤ slot then s else s.ringPages slot)

/-! ### Host queues (R393) -/

/-- A write to HQCTL (R393). While en is 1, a write that keeps it changes nothing; a change from 0 to 1 is checked. -/
def State.writeQueueCtl (s : State) (q : Nat) (v : Word) : State :=
  let x := s.queue q
  let lg := (v.extractLsb' 16 4).toNat
  let slot := (v.extractLsb' 0 10).toNat
  if !v.getLsbD 31 then (s.modQueue q fun x => { x with en := false, lg := lg, slot := slot }).failPending q
  else if x.en then s
  else
    let s := s.modQueue q fun x => { x with lg := lg, slot := slot }
    if x.base.toNat % 128 ≠ 0 ∨ lg < 4 then s.stopQueue q 4
    else if (s.ctx slot).st ≠ .live ∧ (s.ctx slot).st ≠ .held then s.stopQueue q 3
    else s.modQueue q fun x => { x with en := true, head := 0#32, tail := 0#32 }

/-- QUEUE_ENABLE: HQCTL is written with en set (R393). -/
def execQueueEnable (queue : Nat) (ctl : BitVec 32) (s : State) : Host.Outcome State Fault Refusal :=
  .next (if 8192 ≤ queue then s else s.writeQueueCtl queue (ctl ||| 0x80000000#32))

/-- QUEUE_DISABLE: HQCTL.en is cleared, and dependences on the queue's unconsumed records fail (R393, R398). -/
def execQueueDisable (queue : Nat) (s : State) : Host.Outcome State Fault Refusal :=
  .next (if 8192 ≤ queue then s else (s.modQueue queue fun x => { x with en := false }).failPending queue)

/-- A write of HQTAIL, which rings the queue (R393). A port in reset rings no doorbell: that of a queue in its host's memory
(R459). -/
def State.ringQueue (s : State) (q : Nat) (v : Word) : State :=
  match regionOf (s.queue q).base.toNat with
  | .host h => if s.host.inReset.contains h then s else s.modQueue q fun x => { x with tail := v }
  | _ => s.modQueue q fun x => { x with tail := v }

/-- QUEUE_DOORBELL: HQTAIL is written (R393). -/
def execQueueDoorbell (queue : Nat) (tail : BitVec 32) (s : State) : Host.Outcome State Fault Refusal :=
  .next (if 8192 ≤ queue then s else s.ringQueue queue tail)

end Sys2Proof.Machine
end

