-- ==== Sys2Proof/Machine/HostSide.lean ====
section
/-!
DEFINITION. The hosts' side: CXL ports (R373 to R375, R453), host ports (R449, R459, R461), signed boot and attestation (R454
to R456), heat and resets (R457 to R459), and what a write to each register of the device window does (R5, R13, R450).
-/

namespace Sys2Proof.Machine

/-! ### Reads that end without data (R375, R461) -/

/-- The line of one unanswered read of a producer is consumed: its threads take the defined value (R334, R335). -/
def Producer.failLine (p : Producer) (code src : Nat) (x : Nat × Nat × Mask) : Producer :=
  let (va, pa, m) := x
  let line := some (pa / 64 * 64)
  let n := p.dsts.length
  let same (c : Consume) : Bool := c.code == code && c.src == src && c.pa == line
  { p with
    dsts := (List.range n).map fun i =>
      let d := p.dsts.getD i (0, [])
      (d.1, mergeVals m (fun _ => definedPart p.ty n i) d.2)
    consumed := if p.consumed.any same then
        p.consumed.map fun (c : Consume) => if same c then { c with mask := c.mask ||| m } else c
      else p.consumed ++ [{ code := code, src := src, mask := m, va := some va, pa := line, detail := 0 }] }

/-- The unanswered reads of a producer whose addresses meet a condition. -/
def Producer.failWhere (p : Producer) (code src : Nat) (hit : Nat → Bool) : Producer :=
  let bad := p.ext.filter fun x => hit x.2.1
  { bad.foldl (fun p x => p.failLine code src x) p with ext := p.ext.filter fun x => !hit x.2.1 }

/-- An address in the window of a CXL port (R11). -/
def ofPort (port pa : Nat) : Bool := regionOf pa == .far port

/-- CXL_READ_TIMEOUT: a read of a port got no data in time: the port is isolated in one step (R375, R382). -/
def execCxlReadTimeout (port : Nat) (s : State) : Host.Outcome State Fault Refusal :=
  .next (if 5 < port ∨ (s.port port).iso then s
    else
      let lines := (s.farDirty.filter fun x => ofPort port x.1).foldl
        (fun (acc : List Nat) x => if acc.contains (lineOf x.1) then acc else lineOf x.1 :: acc) []
      let drops := min 0xFFFF ((s.port port).wdrop.toNat + lines.length)
      let s := s.modPort port fun p => { p with iso := true, active := false, training := false, wdrop := BitVec.ofNat 16 drops }
      let s := { s with
        farDirty := s.farDirty.filter fun x => !ofPort port x.1
        poison := (s.expPoison.filter fun l => ofPort port (64 * l)).map (fun l => (l, 0#16)) ++
          mapDrop s.poison fun l => ofPort port (64 * l)
        groups := s.groups.map fun (x : Nat × Group) =>
          (x.1, { x.2 with prods := x.2.prods.map fun (p : Producer) => p.failWhere codeTimeoutIsolated 2 (ofPort port) })
        migr := s.migr.map fun (x : Nat × MigrCmd) => (x.1, x.2.isolated port) }
      s.manage (portDie port) 11 0 codeTimeoutIsolated port none)

/-- HOST_COMPLETION_TIMEOUT: the host answers a load's reads with no data; they are consumed as poison, and the load fills
(R461). -/
def execHostCompletionTimeout (group id : Nat) (s : State) : Host.Outcome State Fault Refusal :=
  .next (match (mapFind s.groups group).bind fun g => g.prods.find? fun p => p.id == id with
    | none => s
    | some p =>
      if !p.ext.any fun x => isHostMem x.2.1 then s
      else
        let s := s.modGroup group fun g =>
          { g with prods := g.prods.map fun (p : Producer) => if p.id == id then p.failWhere codePoisonConsumed 11 isHostMem else p }
        (s.fill group id).1.dropExited group)

/-! ### CXL ports (R374, R453) -/

/-- A write of 1 to XPSTS.iso: ends the isolation where the link has been retrained (R374, R453). -/
def State.endIsolation (s : State) (j : Nat) : State :=
  if (s.port j).iso && (s.port j).active then s.modPort j fun p => { p with iso := false, wdrop := 0#16 } else s

/-- ISOLATION_END (R453). -/
def execIsolationEnd (port : Nat) (s : State) : Host.Outcome State Fault Refusal :=
  .next (if 5 < port then s else s.endIsolation port)

/-- The Retrain Link bit of a port is set: its link trains again (R453). -/
def State.retrain (s : State) (j : Nat) : State := s.modPort j fun p => { p with active := false, training := true }

/-- LINK_RETRAIN (R453). -/
def execLinkRetrain (port : Nat) (s : State) : Host.Outcome State Fault Refusal :=
  .next (if 5 < port then s else s.retrain port)

/-- DATA_LINK_LAYER_LINK_ACTIVE: a link that trains becomes active (R453). -/
def execDataLinkLayerLinkActive (port : Nat) (s : State) : Host.Outcome State Fault Refusal :=
  .next (if 5 < port ∨ !(s.port port).training then s
    else s.modPort port fun p => { p with active := true, training := false })

/-! ### Host ports (R459) -/

/-- PORT_RESET: the link of one host port resets (R459). -/
def execPortReset (host : Nat) (s : State) : Host.Outcome State Fault Refusal :=
  .next (if 1 < host ∨ s.host.inReset.contains host then s else s.modHost fun h => { h with inReset := h.inReset ++ [host] })

/-- PORT_RESET_EXIT: a host port leaves reset (R459). -/
def execPortResetExit (host : Nat) (s : State) : Host.Outcome State Fault Refusal :=
  .next (s.modHost fun h => { h with inReset := h.inReset.filter (· != host) })

/-! ### Signed boot and attestation (R454 to R456) -/

/-- The SM3 digest of a message, 32 bytes. -/
def digestOf (m : List Byte) : List Byte := (List.range 32).map (Config.sm3 m)

/-- A measurement register, zero after reset (R455). -/
def HostRegs.measured (h : HostRegs) (m : Nat) : List Byte := mapGet h.measure m (List.replicate 32 0#8)

/-- Extends a measurement register (R455). -/
def HostRegs.extend (h : HostRegs) (m : Nat) (x : List Byte) : HostRegs :=
  { h with measure := mapSet h.measure m (digestOf (h.measured m ++ x)) }

/-- SIGNED_BOOT: the ROM checks the image, and the device stays in reset where the check fails; it measures the image and
the firmware measures the rest and trains the CXL ports (R453 to R455). -/
def execSignedBoot (s : State) : Host.Outcome State Fault Refusal :=
  .next (if s.host.booted || s.host.bootFail then s
    else if !Config.imageSigned s.tick then s.modHost fun h => { h with bootFail := true }
    else
      let s := s.modHost fun h =>
        let h := { h with booted := true, bootFail := false }.extend 0 ((List.range 32).map Config.imageDigest)
        (upFrom 1 1 7).foldl (fun h m => h.extend m ((List.range 32).map (Config.measured m))) h
      (List.range 6).foldl (fun s j => s.modPort j fun p => { p with active := decide (0 < Config.farCapacity j) }) s)

/-- The bytes of words, little-endian. -/
def wordBytes (ws : List Word) : List Byte :=
  (ws.map fun w => (List.range 4).map fun i => w.extractLsb' (8 * i) 8).flatten

/-- Bytes as 32-bit words. -/
def bytesWords : List Byte → List Word
  | a :: b :: c :: d :: r => (d ++ c ++ b ++ a : BitVec 32) :: bytesWords r
  | _ => []

/-- The signed part of a report (R456). -/
def State.reportBody (s : State) : List Byte :=
  [1#8, 0#8, s.dpres.extractLsb' 0 8, s.dpres.extractLsb' 8 8] ++ List.replicate 28 0#8 ++ wordBytes s.host.attUse ++
    ((List.range 8).map s.host.measured).flatten

/-- A write of 1 to ATTCMD.go: a report starts, with the nonce as it now stands (R456). -/
def State.startReport (s : State) : State :=
  if s.host.attGo then s else s.modHost fun h => { h with attGo := true, attUse := h.attNonce }

/-- ATTESTATION_REPORT: the report that go has started is written to ATTDST, and go clears (R456). A write to a port in reset is
dropped (R460). -/
def execAttestationReport (s : State) : Host.Outcome State Fault Refusal :=
  .next (if !s.host.attGo then s
    else
      let body := s.reportBody
      let sig := (List.range 64).map (Config.signature s.tick (digestOf body))
      let dst := s.host.attDst.toNat
      let s := if dst % 64 = 0 ∧ isHostMem dst then
          let ws := bytesWords (body ++ sig)
          s.homeWords dst ws
        else s
      s.modHost fun h => { h with attGo := false, attUse := [] })

/-! ### Reset and heat (R457, R459) -/

/-- Everything is as at reset, but for THSTS.trip, the memory of hosts and expanders with its poison, and the model's own
counters and inputs (R458, R459). -/
def State.resetModule (s : State) : State :=
  { State.reset with
    agenda := s.agenda
    tick := s.tick
    freeCtr := s.freeCtr
    nextUid := s.nextUid
    mem := s.mem.filter fun c => decide (0x80000000000 ≤ c.1)
    poison := (s.expPoison.map fun l => (l, 0#16)) ++ s.poison.filter fun x => isHostMem (64 * x.1)
    expPoison := s.expPoison
    host := { HostRegs.reset with thTrip := s.host.thTrip, msix := s.host.msix, hints := s.host.hints } }

/-- MODULE_RESET (R459). -/
def execModuleReset (s : State) : Host.Outcome State Fault Refusal := .next s.resetModule

/-- THERMAL_TRIP: THSTS.trip is set and the module resets (R457, R458). -/
def execThermalTrip (s : State) : Host.Outcome State Fault Refusal :=
  .next (s.modHost fun h => { h with thTrip := true }).resetModule

/-- THERMAL_THROTTLE: aclk is lowered on a die; no result changes (R14, R457). The event is recorded to the hosts; the spec gives its
record no class and no code: free values (R451, log entry 83). A trip's record does not outlive the reset that the trip is. -/
def execThermalThrottle (die : Nat) (s : State) : Host.Outcome State Fault Refusal :=
  .next (if 8 < die ∨ s.host.throttled.contains die then s
    else
      let (v, s) := (s.modHost fun h => { h with throttled := h.throttled ++ [die] }).free
      s.manage die 11 (v.toNat / 32 % 2) (1 + v.toNat % 31) die none)

/-! ### Writes to the device register window (R5, R13, R450) -/

/-- Half k of a 56-bit field of a 64-bit register is written. -/
def setHalf (k : Nat) (old : DWord) (v : Word) : DWord :=
  if k % 2 = 0 then old.extractLsb' 32 32 ++ v else BitVec.zeroExtend 32 (v.extractLsb' 0 24) ++ old.extractLsb' 0 32

/-- A register of a CXL port (R374). -/
def State.writePort (s : State) (j k : Nat) (v : Word) : State :=
  match k with
  | 0 => s.modPort j fun p => { p with hen := v.getLsbD 16, tmo := v.extractLsb' 0 16 }
  | 1 => if v.getLsbD 31 then s.endIsolation j else s
  | _ => s

/-- A word of a port's configuration space (R453). -/
def State.writeConfig (s : State) (j off : Nat) (v : Word) : State :=
  let s := s.modPort j fun p => { p with cfg := mapSet p.cfg off v }
  if off = Config.linkControl j ∧ v.getLsbD 5 then s.retrain j else s

/-- A register of a context slot (R391, R415). -/
def State.writeCtx (s : State) (slot k : Nat) (v : Word) : State :=
  match k with
  | 0 => s.modCtx slot fun c => { c with desc := setHalf 0 c.desc v }
  | 1 => s.modCtx slot fun c => { c with desc := setHalf 1 c.desc v }
  | 2 => s.ctxCommand slot v.toNat
  | 5 => (s.modCtx slot fun c => { c with bell := v }).ringPages slot
  | 6 =>
    let s := s.modCtx slot fun c => { c with dbg := v.getLsbD 1 }
    if v.getLsbD 0 then s.requestPre slot else s
  | 7 => s.resumeBrk slot v
  | _ => s

/-- A register of a host queue (R393). -/
def State.writeQueue (s : State) (q k : Nat) (v : Word) : State :=
  match k with
  | 0 => if (s.queue q).en then s else s.modQueue q fun x => { x with base := setHalf 0 x.base v }
  | 1 => if (s.queue q).en then s else s.modQueue q fun x => { x with base := setHalf 1 x.base v }
  | 2 => s.writeQueueCtl q v
  | 3 => s.ringQueue q v
  | 5 => if v.getLsbD 31 then s.modQueue q fun x => { x with err := false } else s
  | _ => s

/-- A register of the hosts' block (R451, R452, R456, R458, R459). -/
def State.writeHostReg (s : State) (off : Nat) (v : Word) : State :=
  if off = 0x4000 then s.modHost fun h => { h with mgqDesc := setHalf 0 h.mgqDesc v }
  else if off = 0x4004 then s.modHost fun h => { h with mgqDesc := setHalf 1 h.mgqDesc v }
  else if off = 0x400C then s.modHost fun h => { h with mgqVec := v.extractLsb' 0 6 }
  else if off = 0x4010 then s.modHost fun h => { h with tstInt := v.extractLsb' 0 16 }
  else if 0x4040 ≤ off ∧ off < 0x4064 then
    s.modHost fun h => { h with tstMsk := mapSet h.tstMsk ((off - 0x4040) / 4) (v.extractLsb' 0 4) }
  else if 0x4200 ≤ off ∧ off < 0x4220 then s.modHost fun h => { h with attNonce := h.attNonce.set ((off - 0x4200) / 4) v }
  else if off = 0x4220 then s.modHost fun h => { h with attDst := setHalf 0 h.attDst v }
  else if off = 0x4224 then s.modHost fun h => { h with attDst := setHalf 1 h.attDst v }
  else if off = 0x4228 then (if v.getLsbD 0 then s.startReport else s)
  else if off = 0x4300 then s.modHost fun h => { h with pwrCap := v }
  else if off = 0x4304 then (if v.getLsbD 0 then s.modHost fun h => { h with thTrip := false } else s)
  else if off = 0x4308 then (if v = 0x00005A5A#32 then s.resetModule else s)
  else if 0x4340 ≤ off ∧ off < 0x4364 then
    s.modHost fun h => { h with dpCap := mapSet h.dpCap ((off - 0x4340) / 4) (v.extractLsb' 0 16) }
  else s

/-- What a write of a 32-bit register of the window does: each field as its Access column states, and the action of a
register that has one (R5). An offset that no register holds ignores it (R13, R450). -/
def State.windowWrite (s : State) (off : Nat) (v : Word) : State :=
  if off % 4 ≠ 0 then s
  else if 0x100 ≤ off ∧ off < 0x160 then s.writePort ((off - 0x100) / 16) (off % 16 / 4) v
  else if off = 0x2000 then { s with qosctl := v &&& 0x0001FFFF#32 }
  else if 0x2100 ≤ off ∧ off < 0x2270 then { s with qosq := mapSet s.qosq ((off - 0x2100) / 4) (v.extractLsb' 0 16) }
  else if 0x4000 ≤ off ∧ off < 0x4400 then s.writeHostReg off v
  else if 0x8000 ≤ off ∧ off < 0xE000 then s.writeConfig ((off - 0x8000) / 0x1000) (off % 0x1000) v
  else if 0x100000 ≤ off ∧ off < 0x108000 then s.writeCtx ((off - 0x100000) / 32) (off % 32 / 4) v
  else if 0x200000 ≤ off ∧ off < 0x240000 then s.writeQueue ((off - 0x200000) / 32) (off % 32 / 4) v
  else s

/-- REGISTER_WRITE: a write reaches a register of the device window (R5). A device that has not booted takes none
(R454). -/
def execRegisterWrite (off : Nat) (value : BitVec 32) (s : State) : Host.Outcome State Fault Refusal :=
  .next (if s.host.booted then s.windowWrite off value else s)

/-- The power cap of the module in watts: values outside 600 to 3,600 act as the nearer bound (R458). That the field takes every
bit below mode is the model's choice (log entry 79). -/
def HostRegs.powerCap (h : HostRegs) : Nat := max 600 (min 3600 (h.pwrCap.toNat % 2 ^ 31))

/-- The power cap of a die in watts: its own in expert mode, a ninth of the module's peak as reset; the module's cap bounds
the total in either mode (R458). -/
def HostRegs.dieCap (h : HostRegs) (n : Nat) : Option Nat :=
  if h.pwrCap.getLsbD 31 then some (max 50 (min 3600 (mapGet h.dpCap n 400#16).toNat)) else none

end Sys2Proof.Machine
end

