-- ==== Sys2Proof/Machine/Sync.lean ====
section
/-!
DEFINITION. Synchronisation: atomics (R235 to R242), the barrier words (R243 to R248) and transactions (R249 to R254).
-/

namespace Sys2Proof.Machine

/-! ### Atomics (R235 to R242) -/

/-- The operations of `amo` and `red` (R239). -/
inductive AtomOp where
  | add
  | min
  | max
  | and
  | or
  | xor
  | exch
  | incw
  deriving DecidableEq, Repr

/-- The types that an operation accepts (R239). -/
def AtomOp.tyOk (o : AtomOp) (ty : Nat) : Bool :=
  match o with
  | .add => decide (ty ≤ 3) || (decide (8 ≤ ty) && decide (ty ≤ 11))
  | .min => decide (ty ≤ 3) || ty == 8 || ty == 9
  | .max => decide (ty ≤ 3) || ty == 8 || ty == 9
  | .exch => decide (ty ≤ 3) || ty == 8 || ty == 9 || ty == 14
  | .incw => ty == 1 || ty == 3
  | _ => decide (ty ≤ 3) || ty == 14

/-- The operations that host memory can perform (R236). -/
def AtomOp.hostOk (o : AtomOp) (ty : Nat) : Bool :=
  match o with
  | .add => decide (ty ≤ 3)
  | .exch => true
  | _ => false

/-- The new value of a location (R239): rounding to nearest-even without saturation or flush whatever the mode holds. -/
def AtomOp.apply (o : AtomOp) (ty old v : Nat) : Nat :=
  let w := elemWidth ty
  let i (x : Nat) : Int := elemInt (isSigned ty) w x
  match o with
  | .add =>
    match tyFmt ty with
    | some f => joinElems w (elemCount ty) fun j =>
        (f.ofVal 0 false (sumVals 0 [f.value (elemOf w j old), f.value (elemOf w j v)]) 1#24).1
    | none => fitInt false (isSigned ty) w (i old + i v)
  | .min =>
    match tyFmt ty with
    | some f => f.minMax false old v
    | none => if i old ≤ i v then old else v
  | .max =>
    match tyFmt ty with
    | some f => f.minMax true old v
    | none => if i old ≤ i v then v else old
  | .and => old &&& v
  | .or => old ||| v
  | .xor => old ^^^ v
  | .exch => v
  | .incw => if v ≤ old then 0 else old + 1

/-- What an atomic has done for a thread: the old value, whether it was performed, and the mark that it met. -/
structure Done where
  old : Nat
  ok : Bool
  got : Got
  deriving DecidableEq, Repr

/-- A thread's atomic that met a mark: the location is unchanged (R241). -/
def Done.lost (m : Mark) (pa : Option Nat) (spLine : Option (Nat × Nat) := none) : Done :=
  { old := 0, ok := false, got := { Got.lost m with pa := pa, spLine := spLine } }

/-- A thread's atomic that was not performed although nothing was consumed: d receives 0 (R236, R444). -/
def Done.refused : Done := { old := 0, ok := false, got := { val := 0, mark := .clean, pa := none } }

/-- The record of an atomic that a host's completer did not perform (R236). -/
def State.completerError (s : State) (I : Iss) (t va pa : Nat) : State :=
  s.record { s.recOf I { code := codeAtomicUnsupported, src := 11, tmask := 1#32 <<< t, va := some va, pa := some pa } 2
             with skid := 0 }

/-- A host's completer answers an atomic at an address with an error, or not at all (R236, R461). In reset its read is poison and
its write is dropped (R459). -/
def State.hostRefuses (s : State) (pa : Nat) : Bool :=
  match regionOf pa with
  | .host h => !s.host.inReset.contains h && !Config.hostAnswers s.tick pa
  | _ => false

/-- The write half of an atomic at an isolated port is dropped and counted, where the operation writes (R376). -/
def State.dropAtomic (s : State) (pa : Nat) (m : Mark) (v : Option Nat) : State :=
  match regionOf pa, m, v with
  | .far j, .isolated, some _ => s.modPort j Port.countDrop
  | _, _, _ => s

/-- One thread's atomic at the unit of its scope, without interruption (R235, R240). Where a host's completer refuses it,
the location's state is unknown: a free value (R236). -/
def State.atomicAt (s : State) (I : Iss) (scope t va pa key : Nat) (wide : Bool) (f : Nat → Option Nat) : State × Done :=
  let info := s.metaFor I key va
  if s.hostRefuses pa then
    let (v, s) := s.free
    let (x, s) := s.free
    let s := { s with mem := writeWord s.mem pa v }
    let s := if wide then { s with mem := writeWord s.mem (pa + 4) x } else s
    (s.completerError I t va pa, .refused)
  else
    let (lo, m, s) := s.unitRead I.core pa scope
    let (hi, m', s) := if wide then s.unitRead I.core (pa + 4) scope else (0#32, .clean, s)
    let m := if m = .clean then m' else m
    let old := lo.toNat + hi.toNat * 2 ^ 32
    if m ≠ .clean then (s.dropAtomic pa m (f 0), .lost m (some pa))
    else if atHome scope && !s.writeAllowed pa info then (s.refuse pa info, .refused)
    else
      let s := match f old with
        | some v =>
          let s := s.unitWrite I.core pa scope (BitVec.ofNat 32 v) info
          if wide then s.unitWrite I.core (pa + 4) scope (BitVec.ofNat 32 (v / 2 ^ 32)) { info with va := va + 4 } false else s
        | none => s
      (s, { old := old, ok := true, got := { val := old, mark := .clean, pa := some pa } })

/-- One thread's atomic in a scratchpad's bank (R235). -/
def State.atomicSp (s : State) (I : Iss) (w off : Nat) (wide : Bool) (f : Nat → Option Nat) : State × Done :=
  let n := if wide then 8 else 4
  let s := s.landScratch I.core w off n
  if s.spMark w off n ≠ .clean then (s, .lost (s.spMark w off n) none (some (w, off / 64)))
  else
    let old := s.spRead w off n
    let s := match f old with
      | some v => s.spWrite w off v n (s.spMeta I w off)
      | none => s
    (s, { old := old, ok := true, got := { val := old, mark := .clean, pa := none } })

/-- The place of a thread's atomic in the order of R201, where it was performed on the word or the two words at a location: it has
read one value and written another. -/
def State.noteDone (s : State) (I : Iss) (scope : Nat) (acquires wide : Bool) (loc : Nat × Nat) (x : Done) (new : Option Nat) : State :=
  if !x.ok then s
  else (List.range (if wide then 2 else 1)).foldl (fun s i =>
    let part (v : Nat) : Word := BitVec.ofNat 32 (v / 2 ^ (32 * i))
    s.noteAtomic I.agid scope acquires (loc.1, loc.2 + 4 * i) (part x.old) (new.map part)) s

/-- The threads of a list perform an atomic in order. -/
def doEach (f : State → Nat → State × Done) : State → List Nat → State × List (Nat × Done)
  | s, [] => (s, [])
  | s, t :: r =>
    let (s, x) := f s t
    let (s, l) := doEach f s r
    (s, (t, x) :: l)

/-- What an atomic word returns: the values of its destination registers, and for a `cas` the predicate with the threads that
succeeded (R240, R242). -/
abbrev AtomOut := List (Nat × Vals) × Option (Nat × Mask)

/-- The end of an atomic word: acquire where it has that order, consumption, and a new region. One that returns values has
marked its destination empty, which they fill (R33, R240). -/
def State.atomicEnd (s : State) (I : Iss) (scope : Nat) (acquires : Bool) (live : Mask) (va : Nat → Option Nat)
    (l : List (Nat × Done)) (out : Option AtomOut) (e : Bool) : State :=
  let s := if acquires then s.acquireBy I scope else s
  let cs := consumesOf 2 va (fun t => 1#32 <<< t) (l.map fun x => (x.1, x.2.got))
  let (s, gone) := s.consumeAll I.gid (s.recOf I { code := codePoisonConsumed, tmask := live } 2) cs
    ((out.map fun o => o.1.map (·.1)).getD [])
  if gone then s
  else
    (match out with
      | some (dsts, pred) => s.produce { I with act := live } dsts I.S.ty .general { pred := pred } false
      | none => s).newRegion I e

/-- An atomic word (R240): the checks, the release, each active thread's operation in index order, and its end. -/
def State.atomic (s : State) (I : Iss) (need : Need) (sp : Bool) (scope : Nat) (wide hostOk acquires : Bool) (a : Opnd)
    (f : Nat → Nat → Option Nat) (out : List (Nat × Done) → Option AtomOut) (e : Bool) : State :=
  let n := if wide then 8 else 4
  let k : AccessKind := { write := true, fetch := false, keys := true }
  s.boundaryWord I need e fun s => s.atBoundary I fun s =>
    if sp then
      let o := I.spOffset a 0
      match runChecks 0#32 (s.scratchChecks I n o fun t _ => scope != 2 || decide (o t < 0x80000000)) I.act [] with
      | .error (flt, _) => s.raise I flt
      | .ok (live, ab) =>
        let g := I.acting s
        let at_ (t : Nat) : Nat × Nat := (s.scratchAt g (o t).toNat).getD (0, 0)
        match s.scratchReady I live ab at_ true with
        | .stop s => s
        | .go s live _ lost =>
          let s := s.releaseBy I scope
          let (s, l) := doEach (fun s t =>
            if (spLost lost at_ t).isSome then (s, .lost .walk none (some ((at_ t).1, (at_ t).2 / 64)))
            else
              let (s, x) := s.atomicSp I (at_ t).1 (at_ t).2 wide (f t)
              (s.noteDone I scope acquires wide ((at_ t).1 + 1, (at_ t).2) x (f t x.old), x)) s (threadsOf live)
          s.atomicEnd I scope acquires live (fun _ => none) l (out l) e
    else
      let x := I.globalAddr a 0
      match s.reach I n (I.G.pairVal a.n) x k false with
      | .stop s => s
      | .go s live _ xs =>
        let hosted := live &&& maskOf fun t => match xlatOf xs (x t).toNat with
          | .ok pa _ _ => isHostMem pa
          | _ => false
        if hosted ≠ 0#32 ∧ !hostOk then
          s.raise I { code := codeAtomicUnsupported, src := 2, tmask := hosted, va := vaField (x (lowest hosted)) }
        else
          let s := (s.settleThreads I live xs (fun t => (x t).toNat) n k).releaseBy I scope
          let (s, l) := doEach (fun s t => match xlatOf xs (x t).toNat with
            | .ok pa _ key =>
              let (s, y) := s.atomicAt I scope t (x t).toNat pa key wide (f t)
              (s.noteDone I scope acquires wide (0, pa) y (f t y.old), y)
            | _ => (s, .lost .walk none)) s (threadsOf live)
          s.atomicEnd I scope acquires live (fun t => vaField (x t)) l (out l) e

/-- The address operand of an atomic (R238). -/
def atomAddr (sp : Bool) (a : BitVec 7) (k : Bool) : Opnd := { n := a.toNat, cnt := if sp then 1 else 2, k := k }

/-- What a thread's old value writes into part i of a destination of cnt registers. -/
def Done.part (x : Done) (ty cnt i : Nat) : Word :=
  if x.got.mark = .clean then BitVec.ofNat 32 (x.old / 2 ^ (32 * i)) else definedPart ty cnt i

/-- The old values of a destination's registers for the threads that the word served (R240). -/
def oldValues (ty : Nat) (d : Opnd) (l : List (Nat × Done)) : List (Nat × Vals) :=
  (List.range d.regs.length).map fun i =>
    (d.n + i, (List.range 32).map fun t => ((mapFind l t).map fun x => x.part ty d.cnt i).getD 0#32)

/-- An `amo` or `red` word. -/
def State.amo (s : State) (I : Iss) (u : Bool) (d a : BitVec 7) (c : BitVec 3) (t k m : Bool) (o : AtomOp) (returns e : Bool) :
    State :=
  let ty := I.S.ty
  let od := dataOp ty d m
  let oa := atomAddr t a k
  s.atomic I (I.need u (o.tyOk ty) [] [od, oa] .uniform) t c.toNat (isWide ty) (o.hostOk ty) returns oa
    (fun t old => some (o.apply ty old (I.G.op od t))) (fun l => if returns then some (oldValues ty od l, none) else none) e

/-- AMO_ADD (R239, R240). -/
def execAmoAdd (u : Bool) (d a : BitVec 7) (c : BitVec 3) (t k m e : Bool) (s : State) : Host.Outcome State Fault Refusal :=
  s.withIss fun I => s.amo I u d a c t k m .add true e

/-- AMO_MIN (R239, R240). -/
def execAmoMin (u : Bool) (d a : BitVec 7) (c : BitVec 3) (t k m e : Bool) (s : State) : Host.Outcome State Fault Refusal :=
  s.withIss fun I => s.amo I u d a c t k m .min true e

/-- AMO_MAX (R239, R240). -/
def execAmoMax (u : Bool) (d a : BitVec 7) (c : BitVec 3) (t k m e : Bool) (s : State) : Host.Outcome State Fault Refusal :=
  s.withIss fun I => s.amo I u d a c t k m .max true e

/-- AMO_AND (R239, R240). -/
def execAmoAnd (u : Bool) (d a : BitVec 7) (c : BitVec 3) (t k m e : Bool) (s : State) : Host.Outcome State Fault Refusal :=
  s.withIss fun I => s.amo I u d a c t k m .and true e

/-- AMO_OR (R239, R240). -/
def execAmoOr (u : Bool) (d a : BitVec 7) (c : BitVec 3) (t k m e : Bool) (s : State) : Host.Outcome State Fault Refusal :=
  s.withIss fun I => s.amo I u d a c t k m .or true e

/-- AMO_XOR (R239, R240). -/
def execAmoXor (u : Bool) (d a : BitVec 7) (c : BitVec 3) (t k m e : Bool) (s : State) : Host.Outcome State Fault Refusal :=
  s.withIss fun I => s.amo I u d a c t k m .xor true e

/-- AMO_EXCH (R239, R240). -/
def execAmoExch (u : Bool) (d a : BitVec 7) (c : BitVec 3) (t k m e : Bool) (s : State) : Host.Outcome State Fault Refusal :=
  s.withIss fun I => s.amo I u d a c t k m .exch true e

/-- AMO_INCW (R239, R240). -/
def execAmoIncw (u : Bool) (d a : BitVec 7) (c : BitVec 3) (t k m e : Bool) (s : State) : Host.Outcome State Fault Refusal :=
  s.withIss fun I => s.amo I u d a c t k m .incw true e

/-- RED_ADD (R239, R240). -/
def execRedAdd (u : Bool) (d a : BitVec 7) (c : BitVec 3) (t k m e : Bool) (s : State) : Host.Outcome State Fault Refusal :=
  s.withIss fun I => s.amo I u d a c t k m .add false e

/-- RED_MIN (R239, R240). -/
def execRedMin (u : Bool) (d a : BitVec 7) (c : BitVec 3) (t k m e : Bool) (s : State) : Host.Outcome State Fault Refusal :=
  s.withIss fun I => s.amo I u d a c t k m .min false e

/-- RED_MAX (R239, R240). -/
def execRedMax (u : Bool) (d a : BitVec 7) (c : BitVec 3) (t k m e : Bool) (s : State) : Host.Outcome State Fault Refusal :=
  s.withIss fun I => s.amo I u d a c t k m .max false e

/-- RED_AND (R239, R240). -/
def execRedAnd (u : Bool) (d a : BitVec 7) (c : BitVec 3) (t k m e : Bool) (s : State) : Host.Outcome State Fault Refusal :=
  s.withIss fun I => s.amo I u d a c t k m .and false e

/-- RED_OR (R239, R240). -/
def execRedOr (u : Bool) (d a : BitVec 7) (c : BitVec 3) (t k m e : Bool) (s : State) : Host.Outcome State Fault Refusal :=
  s.withIss fun I => s.amo I u d a c t k m .or false e

/-- RED_XOR (R239, R240). -/
def execRedXor (u : Bool) (d a : BitVec 7) (c : BitVec 3) (t k m e : Bool) (s : State) : Host.Outcome State Fault Refusal :=
  s.withIss fun I => s.amo I u d a c t k m .xor false e

/-- CAS: the expected part of d takes the old value, the new part keeps its own, p[q] takes success (R242). The assertion of
U judges the expected and the new value each by itself (R155, R237). -/
def execCas (u : Bool) (d a : BitVec 7) (c : BitVec 3) (t : Bool) (q : BitVec 3) (k m e : Bool) (s : State) :
    Host.Outcome State Fault Refusal :=
  s.withIss fun I =>
    let ty := I.S.ty
    let wide := isWide ty
    let cnt := if wide then 2 else 1
    let od : Opnd := { n := d.toNat, cnt := 2 * cnt, k := m }
    let oe : Opnd := { n := d.toNat, cnt := cnt }
    let oa := atomAddr t a k
    let word (i t : Nat) : Nat := (I.G.part d.toNat i t).toNat
    let expected (t : Nat) : Nat := if wide then word 0 t + word 1 t * 2 ^ 32 else word 0 t
    let new (t : Nat) : Nat := if wide then word 2 t + word 3 t * 2 ^ 32 else word 1 t
    let srcs := if d = 0#7 then [od] else [{ oe with k := m }, { oe with n := d.toNat + cnt, k := m }]
    let need := I.need u (decide (ty ≤ 3) || ty == 14) [] (srcs ++ [oa]) .uniform
    s.atomic I { need with fieldsOk := need.fieldsOk && od.aligned } t c.toNat wide true true oa
      (fun t old => if old = expected t then some (new t) else none)
      (fun l => some (oldValues ty oe l, some (q.toNat, maskOf fun t =>
        ((mapFind l t).map fun x => x.ok && x.old == expected t).getD false))) e

/-! ### Barriers (R243 to R248) -/

/-- The phase of the group's latest arrival at a barrier has completed (R245). -/
def State.passedBar (s : State) (gid : Nat) (k : BarKey) : Bool :=
  match (mapFind s.groups gid).bind fun g => mapFind g.stamps k with
  | some p => p != (s.bar k).phase
  | none => false

/-- The acquire of a departure from a barrier, after every arrival at the phase (R202, R245). -/
def State.acquireBar (s : State) (I : Iss) (k : BarKey) (scope : Nat) : State := (s.acquireBy I scope).barDepart I.agid k

/-- The split returns from its wait: acquire for its active threads, and a new region (R245). -/
def State.departBar (s : State) (I : Iss) (k : BarKey) (scope : Nat) (e : Bool) : State :=
  let s := if I.act = 0#32 then s else s.acquireBar I k scope
  s.newRegion I e

/-- The split waits for the phase of its group's latest arrival (R245). -/
def State.waitBar (s : State) (I : Iss) (k : BarKey) (scope : Nat) (e : Bool) : State :=
  if s.passedBar I.agid k then s.departBar I k scope e else s.suspend I (.barrier k)

/-- A barrier word: it names a barrier that its group may use, and is a boundary (R243, R245). An empty active mask does
not end it here, and then a barrier that the group may not use is no fault (R81): nothing arrives there, so a wait on it goes on
(log entry 41). -/
def State.barWord (s : State) (I : Iss) (srcs : List Opnd) (scope b : Nat) (body : State → BarKey → State) : State :=
  let n := I.need false true [] srcs .uniform
  match I.gate n with
  | .fault c => s.raise I (n.flt c)
  | .wait rs => s.awaitRegs I rs false
  | _ =>
    if I.inTx I.act then s.raiseCode I codeTxForbidden
    else
      match s.barKey I.G scope b with
      | none =>
        if I.act = 0#32 then s.atBoundary I fun s => body s (noBarrier I.G scope b) else s.raiseCode I codeBarrierInvalid
      | some k => s.atBoundary I fun s => body s k

/-- The number of active threads of the word. -/
def Iss.count (I : Iss) : Nat := (threadsOf I.act).length

/-- An arrival with a posting of some units, after which the word goes on (R245, R248). -/
def State.arriveWord (s : State) (I : Iss) (k : BarKey) (scope c units : Nat) (go : State → State) : State :=
  let s := s.releaseBy I scope
  if !arrivalOk (s.bar k) (s.partyThreads k) scope c I.count then s.raiseCode I codeBarrierInvalid
  else go ((s.arrive I.agid k c I.count units).testBar k)

/-- BAR_SYNC (R245). A split whose arrival is counted waits without arriving again (R43). -/
def execBarSync (a : BitVec 7) (c : BitVec 3) (b : BitVec 4) (k e : Bool) (s : State) : Host.Outcome State Fault Refusal :=
  s.withIss fun I =>
    let scope := c.toNat
    s.barWord I [one a k] scope b.toNat fun s key =>
      if I.S.released then s.departBar I key scope e
      else if I.S.counted ∨ I.act = 0#32 then s.waitBar I key scope e
      else s.arriveWord I key scope (I.G.val a.toNat (lowest I.act)).toNat 0 fun s =>
        (s.modSplit I.gid I.sid fun p => { p with counted := true }).waitBar I key scope e

/-- BAR_ARRIVE (R245). -/
def execBarArrive (a : BitVec 7) (c : BitVec 3) (b : BitVec 4) (k e : Bool) (s : State) :
    Host.Outcome State Fault Refusal :=
  s.withIss fun I =>
    s.barWord I [one a k] c.toNat b.toNat fun s key =>
      if I.act = 0#32 then s.newRegion I e
      else s.arriveWord I key c.toNat (I.G.val a.toNat (lowest I.act)).toNat 0 fun s => s.newRegion I e

/-- BAR_WAIT (R245). -/
def execBarWait (c : BitVec 3) (b : BitVec 4) (e : Bool) (s : State) : Host.Outcome State Fault Refusal :=
  s.withIss fun I =>
    s.barWord I [] c.toNat b.toNat fun s key =>
      if I.S.released then s.departBar I key c.toNat e else s.waitBar I key c.toNat e

/-- BAR_PEEK (R245). -/
def execBarPeek (q c : BitVec 3) (b : BitVec 4) (e : Bool) (s : State) : Host.Outcome State Fault Refusal :=
  s.withIss fun I =>
    s.barWord I [] c.toNat b.toNat fun s key =>
      let x := s.passedBar I.agid key
      let s := if x ∧ q ≠ 0#3 ∧ I.act ≠ 0#32 then s.acquireBar I key c.toNat else s
      (s.modGroup I.gid fun g => g.setPred q.toNat I.act fun _ => x).newRegion I e

/-- A posting: the byte count is a whole number of units that the counter still takes (R248). -/
def State.postWord (s : State) (I : Iss) (a : BitVec 7) (k : Bool) (scope b : Nat) (e : Bool)
    (go : State → BarKey → Nat → State) : State :=
  s.barWord I [one a k] scope b fun s key =>
    let n := (I.G.val a.toNat (lowest I.act)).toNat
    if I.act = 0#32 then s.newRegion I e
    else if n % 16 ≠ 0 then s.raiseCode I codeMisaligned
    else if 2 ^ 24 ≤ (s.bar key).posted + n / 16 then s.raiseCode I codeBarrierOverflow
    else go s key (n / 16)

/-- BEXP_POST (R248). -/
def execBexpPost (a : BitVec 7) (c : BitVec 3) (b : BitVec 4) (k e : Bool) (s : State) : Host.Outcome State Fault Refusal :=
  s.withIss fun I =>
    s.postWord I a k c.toNat b.toNat e fun s key n => ((s.post key n).testBar key).newRegion I e

/-- BEXP_ARRIVE (R248). -/
def execBexpArrive (a : BitVec 7) (c : BitVec 3) (b : BitVec 4) (k e : Bool) (s : State) :
    Host.Outcome State Fault Refusal :=
  s.withIss fun I =>
    s.postWord I a k c.toNat b.toNat e fun s key n =>
      s.arriveWord I key c.toNat 0 n fun s => s.newRegion I e

/-! ### Transactions (R249 to R254) -/

/-- TXB (R250). -/
def execTxb (u : Bool) (d : BitVec 7) (a : BitVec 6) (k e : Bool) (s : State) : Host.Outcome State Fault Refusal :=
  s.withIss fun I =>
    let oa := pairOp a k
    let n := { I.need false true [] [oa] .uniform with
               regs := oa.regs ++ [d.toNat], uOk := !u || I.G.opTag oa == .uniform }
    s.boundaryOnly I n e fun s => s.atBoundary I fun s =>
      let target (t : Nat) : Nat := (I.G.pairVal oa.n t).toNat
      let mis := I.act &&& maskOf fun t => target t % 4 != 0
      let out := I.act &&& maskOf fun t => !canonical (target t)
      let fault (code : Nat) (m : Mask) : State := s.raise I { code := code, tmask := m, va := some (target (lowest m)) }
      let open_ := I.act &&& maskOf fun t => (mapFind (I.now s).txs t).isSome
      if mis ≠ 0#32 then fault codeMisaligned mis
      else if out ≠ 0#32 then fault codeNoncanonical out
      else if open_ ≠ 0#32 then s.raise I { code := codeTxNesting, tmask := open_ }
      else
        let s := s.acquireBy I 5
        (s.modGroup I.gid fun g => (threadsOf I.act).foldl (fun g t =>
          { g with
            txs := mapSet g.txs t { status := d.toNat, abort := I.G.pairVal oa.n t, txb := I.S.pc, mode := I.S.mode,
                                    fmt := I.S.fmt, reads := [], readLines := [], writeLines := [] }
            txReg := mapSet g.txReg t d.toNat }) g).newRegion I e

/-- Two lists of lines meet. -/
def linesMeet (a b : List Nat) : Bool := a.any b.contains

/-- The transactions of a word that conflict with a lower one of the word that has not failed (R253). -/
def txConflicts (txs : List (Nat × Tx)) : List Nat :=
  (txs.foldl (fun (acc : List (Nat × Tx) × List Nat) x =>
    let meets (u : Nat × Tx) : Bool :=
      linesMeet x.2.writeLines (u.2.readLines ++ u.2.writeLines) || linesMeet u.2.writeLines x.2.readLines
    if acc.1.any meets then (acc.1, acc.2 ++ [x.1]) else (acc.1 ++ [x], acc.2)) ([], [])).2

/-- Every word that a transaction has read still holds the value it returned (R253). -/
def State.txValid (s : State) (core : Nat) (x : Tx) : State × Bool :=
  x.reads.foldl (fun (acc : State × Bool) r =>
    let (v, m, s) := acc.1.homeRead core r.1
    (s, acc.2 && v == r.2 && m == .clean)) (s, true)

/-- The transactions that validation lets through. -/
def State.txValidAll (s : State) (core : Nat) (l : List (Nat × Tx)) : State × List Nat :=
  l.foldl (fun (acc : State × List Nat) x =>
    let (s, ok) := acc.1.txValid core x.2
    (s, if ok then acc.2 ++ [x.1] else acc.2)) (s, [])

/-- The held words of a mask's threads are performed at their homes, oldest first (R253). -/
def State.txPerform (s : State) (I : Iss) (m : Mask) : State :=
  (firstsHeld ((I.now s).held.reverse.filter fun h => m.getLsbD h.thread) []).foldl
    (fun s (h, n) => s.homeStore I.core h.pa h.val h.info n) s

/-- TXE (R253): one step, so no other commit holds a line. -/
def execTxe (p : BitVec 3) (e : Bool) (s : State) : Host.Outcome State Fault Refusal :=
  s.withIss fun I =>
    let due := I.G.due ((threadsOf I.act).filterMap fun t => mapFind I.G.txReg t)
    let (s0, gone) := s.boundary I false
    if gone then s0
    else if I.act = 0#32 then s0.newRegion I e
    else if due ≠ [] then s.stall I (.regs due false)
    else
      let txs := (threadsOf I.act).filterMap fun t => (mapFind I.G.txs t).map fun x => (t, x)
      let s := s0.releaseBy I 5
      let clash := txConflicts txs
      let (s, done) := s.txValidAll I.core (txs.filter fun x => !clash.contains x.1)
      let s := s.txPerform I (maskOf done.contains)
      let reason (t : Nat) : Nat :=
        if (mapFind txs t).isNone then 7 else if clash.contains t then 1 else if done.contains t then 0 else 2
      let s := s.modGroup I.gid fun g =>
        let g := (threadsOf I.act).foldl (fun g t => match mapFind g.txReg t with
          | some r => g.write r (1#32 <<< t) (fun _ => BitVec.ofNat 32 (reason t)) .general
          | none => g) g
        let m := maskOf fun t => (mapFind txs t).isSome
        { (g.setPred p.toNat I.act done.contains).discard m with txs := mapDrop g.txs fun t => m.getLsbD t }
      (s.acquireBy I 5).newRegion I e

/-- The paths that some threads of a group have taken begin regions where they stand (R43). -/
def Group.regionsAt (g : Group) (m : Mask) : Group :=
  { g with
    splits := g.splits.map fun p =>
      if p.mask &&& m = 0#32 then p else { p with rstart := p.pc, rmode := p.mode, rfmt := p.fmt }
    stack := g.stack.map fun x => match x with
      | .deferred o pc n mo fo pm pf rs rm rf =>
        if n &&& m = 0#32 then .deferred o pc n mo fo pm pf rs rm rf else .deferred o pc n mo fo pm pf pc mo fo
      | x => x }

/-- TXA (R252). -/
def execTxa (n : BitVec 4) (e : Bool) (s : State) : Host.Outcome State Fault Refusal :=
  s.withIss fun I =>
    s.boundaryOnly I { mask := I.act } e fun s => s.atBoundary I fun s =>
      let open_ := (threadsOf I.act).filter fun t => (mapFind (I.now s).txs t).isSome
      if open_ = [] then s.newRegion I e
      else
        (s.endWord s I e (open_.map fun t => { thread := t, reason := 4, code := n.toNat })).modGroup I.gid fun g =>
          if I.trapped then g else g.regionsAt I.S.mask

end Sys2Proof.Machine
end

