-- ==== Sys2Proof/Machine/Schedule.lean ====
section
/-!
DEFINITION. What the hardware does between the words of a lane: the choice of the next split (R31, R38, R39), the resumption
of a suspended one (R30), the fill of a producer (R33), and the movements of the memory hierarchy that no word asks for
(R180, R183, R208, R443, R444).
-/

namespace Sys2Proof.Machine

/-! ### Lane arbitration (R31, R38 to R40) -/

/-- What a lane's arbitration does to a group before it picks: deferred paths first, then split merges (R38, R39). -/
def Group.converge (g : Group) : Group :=
  let g := ((g.splits.filter Split.atBoundary).map (·.idx)).foldl Group.boundary g
  (List.range 3).foldl (fun g _ =>
    match g.mergeable with
    | some (a, b) => g.mergeSplits a b
    | none => g) g

/-- The groups whose words a lane issues now. -/
def State.laneGroups (s : State) (lane : Nat) : List (Nat × Group) :=
  s.groups.filter fun x => x.2.lane == lane && x.2.stop == .none

/-- A group is stopped for a fault of one of its splits; the others go on to their next run boundary (R420). -/
def State.faulted (s : State) (g : Group) : Bool :=
  match g.stop with
  | .wantsTrap _ (.fault _) => true
  | .inTrap n => match (mapFind s.groups n).bind (·.trap) with
    | some { cause := .fault _, .. } => true
    | _ => false
  | _ => false

/-- A split is a candidate of its lane (R31): in a group that is stopped for a fault, only inside a run (R420). -/
def State.offers (s : State) (g : Group) (p : Split) : Bool :=
  p.st == .ready && (g.stop == .none || (s.faulted g && !p.atBoundary))

/-- The candidates of a lane: group, group number and split (R31). -/
def State.candidates (s : State) (lane : Nat) : List (Nat × Group × Split) :=
  (s.groups.filter fun x => x.2.lane == lane).flatMap fun (gid, g) => (g.splits.filter (s.offers g)).map fun p => (gid, g, p)

/-- The place of a candidate in the order of slot and split. -/
def rank (g : Group) (p : Split) : Nat := 4 * g.slot + p.idx

/-- The candidate of a list for which a score is least, the first of equals. -/
def leastBy (score : Nat × Group × Split → Nat) : List (Nat × Group × Split) → Option (Nat × Group × Split)
  | [] => none
  | x :: r => match leastBy score r with
    | some y => if score y < score x then some y else some x
    | none => some x

/-- The candidate of a list that has been passed over longest, ties to the lower slot and split. -/
def longestPassed (l : List (Nat × Group × Split)) : Option (Nat × Group × Split) :=
  let most := (l.map fun x => x.2.2.passed).foldl max 0
  leastBy (fun x => rank x.2.1 x.2.2) (l.filter fun x => x.2.2.passed == most)

/-- The candidate that a lane picks: one in trap mode; one passed over at 16 boundaries, the longest first, then by slot
and split; else in turn after the last winner (R31). Rule 1 of R31 names no first one among several splits of a routine: the model's
choice is the one passed over longest, so that each of them wins (R48, log entry 72). -/
def pickCandidate (last : Nat × Nat) (l : List (Nat × Group × Split)) : Option (Nat × Group × Split) :=
  match longestPassed (l.filter fun x => x.2.1.trap.isSome) with
  | some x => some x
  | none =>
    match longestPassed (l.filter fun x => 16 ≤ x.2.2.passed) with
    | some x => some x
    | none => leastBy (fun x => (rank x.2.1 x.2.2 + 32 - (4 * last.1 + last.2 + 1)) % 32) l

/-- A split after a run boundary of its lane: the winner holds the lane, other candidates have been passed over once
more. -/
def Split.afterPick (p : Split) (wins offered : Bool) : Split :=
  if wins then { p with st := .issuing, passed := 0 }
  else if offered then { p with passed := p.passed + 1 } else { p with passed := 0 }

/-- LANE_ARBITRATION: at a run boundary the lane picks the split that issues next (R31). -/
def execLaneArbitration (lane : Nat) (s : State) : Host.Outcome State Fault Refusal :=
  .next (if (s.holder lane).isSome then s
    else
      let s := ((s.laneGroups lane).map (·.1)).foldl (fun s gid => s.modGroup gid Group.converge) s
      match pickCandidate (s.lane lane).last (s.candidates lane) with
      | none => s
      | some (gid, g, p) =>
        let s := { s with groups := s.groups.map fun (x : Nat × Group) =>
          if x.2.lane == lane then
            (x.1, { x.2 with splits := x.2.splits.map fun q => q.afterPick (x.1 == gid && q.idx == p.idx) (s.offers x.2 q) })
          else x }
        if g.trap.isSome then s else s.modLane lane fun l => { l with last := (g.slot, p.idx) })

/-! ### Resumption (R30) -/

/-- A batch of a group has operations that are not complete (R301). -/
def State.batchOpen (s : State) (gid n : Nat) : Bool :=
  (mapFind s.groups gid).any (fun g => (mapFind g.unretired n).isSome) ||
    s.wgs.any fun x => x.2.gone.any fun y => y.1 == gid && (mapFind y.2.unretired n).isSome

/-- The wait of a suspended split is satisfied; polls, grows and the restore routines end theirs with the event that
satisfies them. -/
def State.waitOver (s : State) (gid : Nat) (g : Group) (p : Split) : Bool :=
  match p.wait with
  | .poll .. => false
  | .grow .. => false
  | .rest => false
  | .barrier k => s.passedBar (g.acting gid) k
  | .regs rs _ => rs.all fun r => (g.reg r).full
  | .batch h n => !s.batchOpen h n
  | .grid k => (mapFind s.grids k).all fun d => d.st.final
  | .link r c d .. => s.linkReady gid p.idx g.core r c d
  | .quiet => !s.commandsOf g.wg
  | .sync copies migr => !s.stillKept copies migr
  | _ => true

/-- A wait for registers ends in a new try of its word; any other wait that frees the lane is the word's last part (R30). -/
def Wait.finishes : Wait → Bool
  | .regs .. => false
  | _ => true

/-- SPLIT_RESUME: a suspended split whose wait is satisfied is a candidate again; its word completes when it next holds the
lane, and its word count carries on (R30). -/
def execSplitResume (group split : Nat) (s : State) : Host.Outcome State Fault Refusal :=
  .next (match (mapFind s.groups group).bind fun g => (g.split split).map fun p => (g, p) with
    | none => s
    | some (g, p) =>
      if p.st == .suspended && s.waitOver group g p then
        s.modSplit group split fun p => { p with st := .ready, released := p.wait.finishes }
      else s)

/-- PRODUCER_FILL (R33). A group that has exited leaves its slot with its last producer (R122). -/
def execProducerFill (group id : Nat) (s : State) : Host.Outcome State Fault Refusal :=
  .next ((s.fill group id).1.dropExited group)

/-! ### Caches, windows and writes on their way -/

/-- L1_EVICTION: a line of an L1 goes: its dirty words to the die's L2 or their host port; held words stay held (R44,
R183). -/
def execL1Eviction (core line : Nat) (s : State) : Host.Outcome State Fault Refusal :=
  .next (s.l1Evict core line)

/-- A line of another die leaves a die's L2; a dirty one goes to its home first (R185). -/
def execL2Eviction (die line : Nat) (s : State) : Host.Outcome State Fault Refusal :=
  .next (s.l2Drop die fun a => a / 256 == line)

/-- A line leaves a cluster atomic unit's buffer for the die's L2 (R235). -/
def execBufferEviction (cluster line : Nat) (s : State) : Host.Outcome State Fault Refusal :=
  .next (s.cluFlush cluster fun a => lineOf a == line)

/-- A line leaves its home slice for memory or its port (R185, R335, R373). -/
def execSliceEviction (line : Nat) (s : State) : Host.Outcome State Fault Refusal := .next (s.leaveSlice fun l => l == line)

/-- WINDOW_WRITE_BACK: a dirty word of a bound window is written back, and is then clean (R180). -/
def execWindowWriteBack (wg off : Nat) (s : State) : Host.Outcome State Fault Refusal :=
  .next (match s.wg wg with
    | none => s
    | some x =>
      let line := off / 128 * 128
      let j := off % 128 / 4
      match mapFind x.wlines line with
      | none => s
      | some l =>
        if !l.dirty.getLsbD j then s
        else
          let s := s.modWg wg fun x => { x with wlines := mapSet x.wlines line { l with dirty := l.dirty &&& ~~~(1#32 <<< j) } }
          s.coreWrite x.core (l.pa + 4 * j) l.policy (readWord x.scratch (line + 4 * j))
            { l.info with va := l.info.va / 128 * 128 + 4 * j })

/-- REMOTE_WRITE_CHECK: a write arrives at its home on another die, and is performed or refused there (R443, R444). -/
def execRemoteWriteCheck (id : Nat) (s : State) : Host.Outcome State Fault Refusal :=
  .next (match s.writes.find? fun w => w.id == id && !w.performed with
    | none => s
    | some w =>
      let s := { s with writes := s.writes.map fun (x : Write) => if x.id == id then { x with performed := true } else x }
      s.performUncached w)

/-- A store on its way to a home or port that checks no key, to a die's L2 or to a peer's scratchpad is performed there, and
acknowledged (R208). -/
def execLanding (id : Nat) (s : State) : Host.Outcome State Fault Refusal :=
  .next ((s.landSent fun x => x.id == id).drain fun w => w.id == id)

/-- WRITE_ACKNOWLEDGEMENT: a write that its home has performed or refused is complete at its source (R208, R444). -/
def execWriteAcknowledgement (id : Nat) (s : State) : Host.Outcome State Fault Refusal :=
  .next { s with writes := s.writes.filter fun w => !(w.id == id && w.performed) }

end Sys2Proof.Machine
end

