-- ==== Sys2Proof/Machine/Time.lean ====
section
/-!
DEFINITION. Time (R445 to R447): the words of `tmr`, the boundary of a fabric frame with its quotas (R439, R440), and the
conversions between the dies' time counters.
-/

namespace Sys2Proof.Machine

/-! ### `tmr` (R446, R447) -/

/-- TMR_NOW: the issuing die's counter, sampled once (R446). -/
def execTmrNow (u : Bool) (d : BitVec 6) (e : Bool) (s : State) : Host.Outcome State Fault Refusal :=
  s.withIss fun I =>
    s.plain I u true (pairOp d) [] (fun _ => s.time I.die) .uniform e

/-- TMR_FRAME: the frame count (R446). -/
def execTmrFrame (u : Bool) (d : BitVec 7) (e : Bool) (s : State) : Host.Outcome State Fault Refusal :=
  s.withIss fun I =>
    s.plain I u true (one d) [] (fun _ => s.frame.toNat) .uniform e

/-- A time converted from die i to die j; all ones where the other die of the form is absent (R445, R446). -/
def State.converted (s : State) (other i j t : Nat) : Nat := if s.present other then s.convert i j t else 2 ^ 64 - 1

/-- A conversion (R446). Its result is tagged as `iop.mov` tags it, where its values have that shape (R151, R152). -/
def State.conversion (s : State) (I : Iss) (u : Bool) (d a : BitVec 6) (k e : Bool) (f : Nat → Nat) : State :=
  let oa := pairOp a k
  let value (t : Nat) : Nat := f (I.G.op oa t)
  let tag : Tag := match I.G.opTag oa with
    | .uniform => .uniform
    | .affine64 st => if (List.range 32).all fun t =>
        BitVec.ofNat 64 (value t) == BitVec.ofNat 64 (value 0) + st * BitVec.ofNat 64 t then .affine64 st else .general
    | _ => .general
  s.plain I u true (pairOp d) [oa] value tag e

/-- TMR_TO (R446). -/
def execTmrTo (u : Bool) (d a : BitVec 6) (j : BitVec 4) (k e : Bool) (s : State) : Host.Outcome State Fault Refusal :=
  s.withIss fun I => s.conversion I u d a k e (s.converted j.toNat I.die j.toNat)

/-- TMR_FROM (R446). -/
def execTmrFrom (u : Bool) (d a : BitVec 6) (j : BitVec 4) (k e : Bool) (s : State) : Host.Outcome State Fault Refusal :=
  s.withIss fun I => s.conversion I u d a k e (s.converted j.toNat j.toNat I.die)

/-! ### Frames (R439, R440) -/

/-- FRAME_BOUNDARY: the frame count advances on every die and the quotas written since take effect (R439, R440). Every
2^16 frames the conversions are to be fitted again (R445). -/
def execFrameBoundary (s : State) : Host.Outcome State Fault Refusal :=
  let frame := s.frame + 1#32
  .next { s with
    frame := frame
    qosctlNow := s.qosctl
    qosqNow := s.qosq
    agenda := if frame.toNat % 2 ^ 16 = 0 then s.agenda ++ [.event .timeConversionUpdate] else s.agenda }

/-- The quota, in flits per frame, of a source; none where it has no limit (R440). -/
def State.quota (s : State) (src : Nat) : Option Nat :=
  let one (q : Nat) : Nat := if q = 0 then 1 else q
  if s.qosctlNow.getLsbD 16 then
    let q := (mapGet s.qosqNow src 0x0200#16).toNat
    if q = 0xFFFF then none else some (one q)
  else some (one (s.qosctlNow.toNat % 2 ^ 16))

/-! ### Conversions (R445) -/

/-- The pair fitted to two samples of two counters: the rate of the line through them, and the offset that maps the
later sample of one to that of the other. The spec fixes neither the rounding of the rate nor that of the offset within
its bound of 8 ns: two free values round them. A pair without an elapsed time stays as it is. -/
def fitPair (i0 j0 i1 j1 : Nat) (v w : Word) (old : DWord × DWord) : DWord × DWord :=
  if i1 ≤ i0 then old
  else
    let rate := (j1 - j0) * 2 ^ 32 / (i1 - i0) + v.toNat % 2
    let off : Int := (j1 : Int) - (i1 * rate / 2 ^ 32 : Nat) + (w.toNat % 3 : Nat) - 1
    (BitVec.ofNat 64 rate, BitVec.ofInt 64 off)

/-- TIME_CONVERSION_UPDATE: at a boundary of 2^16 frames the present dies' counters are sampled, and every pair is fitted
to the last two samples, the first of which are the zeros of module reset (R445). -/
def execTimeConversionUpdate (s : State) : Host.Outcome State Fault Refusal :=
  .next (if s.frame.toNat % 2 ^ 16 ≠ 0 then s
    else
      let now : Map Nat Nat := s.presentDies.map fun d => (d, s.time d)
      let before : Map Nat Nat := s.samples.getLast?.getD []
      let two : List (Map Nat Nat) := [before, now]
      let s := { s with samples := two }
      let pairs := s.presentDies.flatMap fun i => (s.presentDies.filter (· != i)).map fun j => (i, j)
      pairs.foldl (fun s (i, j) =>
        let (v, s) := s.free
        let (w, s) := s.free
        let old := mapGet s.conv (i, j) (0x100000000#64, 0#64)
        let new := fitPair (mapGet before i 0) (mapGet before j 0) (mapGet now i 0) (mapGet now j 0) v w old
        { s with conv := mapSet s.conv (i, j) new }) s)

end Sys2Proof.Machine
end

