-- ==== Sys2Proof/Machine/Dispatch.lean ====
section
/-!
DEFINITION. The dispatch: one arm for each constructor of Instr, a direct call of its meaning, or its rejection by name.
-/

namespace Sys2Proof.Machine

/-- Executes an instruction, or an event of the opcode table. -/
def exec (i : Instr) (s : State) : Host.Outcome State Fault Refusal :=
  match i with
  | .illegal e => Sys2Proof.Machine.execIllegal e s
  | .add u d a b k l e => Sys2Proof.Machine.execAdd u d a b k l e s
  | .sub u d a b k l e => Sys2Proof.Machine.execSub u d a b k l e s
  | .mul u d a b k l e => Sys2Proof.Machine.execMul u d a b k l e s
  | .mulhi u d a b k l e => Sys2Proof.Machine.execMulhi u d a b k l e s
  | .mad u d a b k l e => Sys2Proof.Machine.execMad u d a b k l e s
  | .min u d a b k l e => Sys2Proof.Machine.execMin u d a b k l e s
  | .max u d a b k l e => Sys2Proof.Machine.execMax u d a b k l e s
  | .and u d a b k l e => Sys2Proof.Machine.execAnd u d a b k l e s
  | .or u d a b k l e => Sys2Proof.Machine.execOr u d a b k l e s
  | .xor u d a b k l e => Sys2Proof.Machine.execXor u d a b k l e s
  | .shl u d a b k l e => Sys2Proof.Machine.execShl u d a b k l e s
  | .shr u d a b k l e => Sys2Proof.Machine.execShr u d a b k l e s
  | .sar u d a b k l e => Sys2Proof.Machine.execSar u d a b k l e s
  | .rot u d a b k l e => Sys2Proof.Machine.execRot u d a b k l e s
  | .addc u d a b k l e => Sys2Proof.Machine.execAddc u d a b k l e s
  | .subc u d a b k l e => Sys2Proof.Machine.execSubc u d a b k l e s
  | .sel u d a b k l e => Sys2Proof.Machine.execSel u d a b k l e s
  | .lea u d a b k l e => Sys2Proof.Machine.execLea u d a b k l e s
  | .bfe u d a b k l e => Sys2Proof.Machine.execBfe u d a b k l e s
  | .bfi u d a b k l e => Sys2Proof.Machine.execBfi u d a b k l e s
  | .prmt u d a b k l e => Sys2Proof.Machine.execPrmt u d a b k l e s
  | .cmp u c p a b k l e => Sys2Proof.Machine.execCmp u c p a b k l e s
  | .iopNeg u d a k e => Sys2Proof.Machine.execIopNeg u d a k e s
  | .iopAbs u d a k e => Sys2Proof.Machine.execIopAbs u d a k e s
  | .iopNot u d a k e => Sys2Proof.Machine.execIopNot u d a k e s
  | .iopPopc u d a k e => Sys2Proof.Machine.execIopPopc u d a k e s
  | .iopClz u d a k e => Sys2Proof.Machine.execIopClz u d a k e s
  | .iopCtz u d a k e => Sys2Proof.Machine.execIopCtz u d a k e s
  | .iopBrev u d a k e => Sys2Proof.Machine.execIopBrev u d a k e s
  | .iopSx8 u d a k e => Sys2Proof.Machine.execIopSx8 u d a k e s
  | .iopSx16 u d a k e => Sys2Proof.Machine.execIopSx16 u d a k e s
  | .iopZx8 u d a k e => Sys2Proof.Machine.execIopZx8 u d a k e s
  | .iopZx16 u d a k e => Sys2Proof.Machine.execIopZx16 u d a k e s
  | .iopMov u d a k e => Sys2Proof.Machine.execIopMov u d a k e s
  | .iopMovp u d a e => Sys2Proof.Machine.execIopMovp u d a e s
  | .iopPmov u d a k e => Sys2Proof.Machine.execIopPmov u d a k e s
  | .plog u d a b t e => Sys2Proof.Machine.execPlog u d a b t e s
  | .movi u d imm e => Sys2Proof.Machine.execMovi u d imm e s
  | .movhi u d imm e => Sys2Proof.Machine.execMovhi u d imm e s
  | .addi u d imm e => Sys2Proof.Machine.execAddi u d imm e s
  | .andi u d imm e => Sys2Proof.Machine.execAndi u d imm e s
  | .ori u d imm e => Sys2Proof.Machine.execOri u d imm e s
  | .xori u d imm e => Sys2Proof.Machine.execXori u d imm e s
  | .muli u d imm e => Sys2Proof.Machine.execMuli u d imm e s
  | .shli u d a imm k e => Sys2Proof.Machine.execShli u d a imm k e s
  | .shri u d a imm k e => Sys2Proof.Machine.execShri u d a imm k e s
  | .sari u d a imm k e => Sys2Proof.Machine.execSari u d a imm k e s
  | .cmpi u c p a imm k e => Sys2Proof.Machine.execCmpi u c p a imm k e s
  | .leai u d a imm k e => Sys2Proof.Machine.execLeai u d a imm k e s
  | .bra u imm => Sys2Proof.Machine.execBra u imm s
  | .brt u p imm => Sys2Proof.Machine.execBrt u p imm s
  | .brf u p imm => Sys2Proof.Machine.execBrf u p imm s
  | .call u c imm => Sys2Proof.Machine.execCall u c imm s
  | .jmp u a k => Sys2Proof.Machine.execJmp u a k s
  | .ret u a k => Sys2Proof.Machine.execRet u a k s
  | .exit => Sys2Proof.Machine.execExit s
  | .trap n => Sys2Proof.Machine.execTrap n s
  | .brk t => Sys2Proof.Machine.execBrk t s
  | .modeLo imm e => Sys2Proof.Machine.execModeLo imm e s
  | .modeHi imm e => Sys2Proof.Machine.execModeHi imm e s
  | .fmtLo imm e => Sys2Proof.Machine.execFmtLo imm e s
  | .fmtHi imm e => Sys2Proof.Machine.execFmtHi imm e s
  | .region e => Sys2Proof.Machine.execRegion e s
  | .fadd u d a b k l e => Sys2Proof.Machine.execFadd u d a b k l e s
  | .fsub u d a b k l e => Sys2Proof.Machine.execFsub u d a b k l e s
  | .fmul u d a b k l e => Sys2Proof.Machine.execFmul u d a b k l e s
  | .ffma u d a b k l e => Sys2Proof.Machine.execFfma u d a b k l e s
  | .fmin u d a b k l e => Sys2Proof.Machine.execFmin u d a b k l e s
  | .fmax u d a b k l e => Sys2Proof.Machine.execFmax u d a b k l e s
  | .fcmp u c p a b k l e => Sys2Proof.Machine.execFcmp u c p a b k l e s
  | .fopFneg u d a k e => Sys2Proof.Machine.execFopFneg u d a k e s
  | .fopFabs u d a k e => Sys2Proof.Machine.execFopFabs u d a k e s
  | .fopFrcp u d a k e => Sys2Proof.Machine.execFopFrcp u d a k e s
  | .fopFrsq u d a k e => Sys2Proof.Machine.execFopFrsq u d a k e s
  | .fopFsqrt u d a k e => Sys2Proof.Machine.execFopFsqrt u d a k e s
  | .fopFex2 u d a k e => Sys2Proof.Machine.execFopFex2 u d a k e s
  | .fopFlg2 u d a k e => Sys2Proof.Machine.execFopFlg2 u d a k e s
  | .fopFsin u d a k e => Sys2Proof.Machine.execFopFsin u d a k e s
  | .fopFcos u d a k e => Sys2Proof.Machine.execFopFcos u d a k e s
  | .fopFtanh u d a k e => Sys2Proof.Machine.execFopFtanh u d a k e s
  | .fopFrni u d a k e => Sys2Proof.Machine.execFopFrni u d a k e s
  | .fopFrzi u d a k e => Sys2Proof.Machine.execFopFrzi u d a k e s
  | .fopFrpi u d a k e => Sys2Proof.Machine.execFopFrpi u d a k e s
  | .fopFrmi u d a k e => Sys2Proof.Machine.execFopFrmi u d a k e s
  | .fopFfract u d a k e => Sys2Proof.Machine.execFopFfract u d a k e s
  | .fopFclass u d a k e => Sys2Proof.Machine.execFopFclass u d a k e s
  | .cvt u d a t k e => Sys2Proof.Machine.execCvt u d a t k e s
  | .pack u d a b k l e => Sys2Proof.Machine.execPack u d a b k l e s
  | .unpkTag u d a k e => Sys2Proof.Machine.execUnpkTag u d a k e s
  | .unpk u d a n c k e => Sys2Proof.Machine.execUnpk u d a n c k e s
  | .fscl u d a b k l e => Sys2Proof.Machine.execFscl u d a b k l e s
  | .fdot2 u d a b k l e => Sys2Proof.Machine.execFdot2 u d a b k l e s
  | .ffms u d a b k l e => Sys2Proof.Machine.execFfms u d a b k l e s
  | .rsize imm e => Sys2Proof.Machine.execRsize imm e s
  | .feEmpty d e => Sys2Proof.Machine.execFeEmpty d e s
  | .feFill d a k e => Sys2Proof.Machine.execFeFill d a k e s
  | .feTest d a e => Sys2Proof.Machine.execFeTest d a e s
  | .feWait a k e => Sys2Proof.Machine.execFeWait a k e s
  | .voteAll d a e => Sys2Proof.Machine.execVoteAll d a e s
  | .voteAny d a e => Sys2Proof.Machine.execVoteAny d a e s
  | .voteBallot d a e => Sys2Proof.Machine.execVoteBallot d a e s
  | .voteEq u d a k e => Sys2Proof.Machine.execVoteEq u d a k e s
  | .voteMask d e => Sys2Proof.Machine.execVoteMask d e s
  | .shfl u d a w v k e => Sys2Proof.Machine.execShfl u d a w v k e s
  | .bcast u d a b k l e => Sys2Proof.Machine.execBcast u d a b k l e s
  | .gredAdd u d a k e => Sys2Proof.Machine.execGredAdd u d a k e s
  | .gredMin u d a k e => Sys2Proof.Machine.execGredMin u d a k e s
  | .gredMax u d a k e => Sys2Proof.Machine.execGredMax u d a k e s
  | .gredAnd u d a k e => Sys2Proof.Machine.execGredAnd u d a k e s
  | .gredOr u d a k e => Sys2Proof.Machine.execGredOr u d a k e s
  | .gredXor u d a k e => Sys2Proof.Machine.execGredXor u d a k e s
  | .gscanAdd d a x k e => Sys2Proof.Machine.execGscanAdd d a x k e s
  | .gscanMin d a x k e => Sys2Proof.Machine.execGscanMin d a x k e s
  | .gscanMax d a x k e => Sys2Proof.Machine.execGscanMax d a x k e s
  | .gscanAnd d a x k e => Sys2Proof.Machine.execGscanAnd d a x k e s
  | .gscanOr d a x k e => Sys2Proof.Machine.execGscanOr d a x k e s
  | .gscanXor d a x k e => Sys2Proof.Machine.execGscanXor d a x k e s
  | .gscanMul d a x k e => Sys2Proof.Machine.execGscanMul d a x k e s
  | .gscanAff d a x k e => Sys2Proof.Machine.execGscanAff d a x k e s
  | .mcall x y q r e => Sys2Proof.Machine.execMcall x y q r e s
  | .sreg u d n e => Sys2Proof.Machine.execSreg u d n e s
  | .utagKind d a k e => Sys2Proof.Machine.execUtagKind d a k e s
  | .utagStride d a k e => Sys2Proof.Machine.execUtagStride d a k e s
  | .utagGen a k e => Sys2Proof.Machine.execUtagGen a k e s
  | .utagChk a k e => Sys2Proof.Machine.execUtagChk a k e s
  | .utagChk64 a k e => Sys2Proof.Machine.execUtagChk64 a k e s
  | .ldg u d a w f k e => Sys2Proof.Machine.execLdg u d a w f k e s
  | .stg u d a w f k m e => Sys2Proof.Machine.execStg u d a w f k m e s
  | .lds u d a w f k e => Sys2Proof.Machine.execLds u d a w f k e s
  | .sts u d a w f k m e => Sys2Proof.Machine.execSts u d a w f k m e s
  | .ldp u d a w f k e => Sys2Proof.Machine.execLdp u d a w f k e s
  | .stp u d a w f k m e => Sys2Proof.Machine.execStp u d a w f k m e s
  | .ldc u d a w f k e => Sys2Proof.Machine.execLdc u d a w f k e s
  | .lda u d a c w k e => Sys2Proof.Machine.execLda u d a c w k e s
  | .ldaPoll u d a c w k m e => Sys2Proof.Machine.execLdaPoll u d a c w k m e s
  | .stl u d a c w k m e => Sys2Proof.Machine.execStl u d a c w k m e s
  | .fenceFull c e => Sys2Proof.Machine.execFenceFull c e s
  | .fenceRel c e => Sys2Proof.Machine.execFenceRel c e s
  | .fenceAcq c e => Sys2Proof.Machine.execFenceAcq c e s
  | .cacheWbl u a c k e => Sys2Proof.Machine.execCacheWbl u a c k e s
  | .cacheInvl u a k e => Sys2Proof.Machine.execCacheInvl u a k e s
  | .cacheWball c e => Sys2Proof.Machine.execCacheWball c e s
  | .cacheInvall e => Sys2Proof.Machine.execCacheInvall e s
  | .cacheSwb n e => Sys2Proof.Machine.execCacheSwb n e s
  | .smap n a b k l e => Sys2Proof.Machine.execSmap n a b k l e s
  | .pfm u v a w f k e => Sys2Proof.Machine.execPfm u v a w f k e s
  | .amoAdd u d a c t k m e => Sys2Proof.Machine.execAmoAdd u d a c t k m e s
  | .amoMin u d a c t k m e => Sys2Proof.Machine.execAmoMin u d a c t k m e s
  | .amoMax u d a c t k m e => Sys2Proof.Machine.execAmoMax u d a c t k m e s
  | .amoAnd u d a c t k m e => Sys2Proof.Machine.execAmoAnd u d a c t k m e s
  | .amoOr u d a c t k m e => Sys2Proof.Machine.execAmoOr u d a c t k m e s
  | .amoXor u d a c t k m e => Sys2Proof.Machine.execAmoXor u d a c t k m e s
  | .amoExch u d a c t k m e => Sys2Proof.Machine.execAmoExch u d a c t k m e s
  | .amoIncw u d a c t k m e => Sys2Proof.Machine.execAmoIncw u d a c t k m e s
  | .redAdd u d a c t k m e => Sys2Proof.Machine.execRedAdd u d a c t k m e s
  | .redMin u d a c t k m e => Sys2Proof.Machine.execRedMin u d a c t k m e s
  | .redMax u d a c t k m e => Sys2Proof.Machine.execRedMax u d a c t k m e s
  | .redAnd u d a c t k m e => Sys2Proof.Machine.execRedAnd u d a c t k m e s
  | .redOr u d a c t k m e => Sys2Proof.Machine.execRedOr u d a c t k m e s
  | .redXor u d a c t k m e => Sys2Proof.Machine.execRedXor u d a c t k m e s
  | .cas u d a c t q k m e => Sys2Proof.Machine.execCas u d a c t q k m e s
  | .txb u d a k e => Sys2Proof.Machine.execTxb u d a k e s
  | .txe p e => Sys2Proof.Machine.execTxe p e s
  | .txa n e => Sys2Proof.Machine.execTxa n e s
  | .barSync a c b k e => Sys2Proof.Machine.execBarSync a c b k e s
  | .barArrive a c b k e => Sys2Proof.Machine.execBarArrive a c b k e s
  | .barWait c b e => Sys2Proof.Machine.execBarWait c b e s
  | .barPeek q c b e => Sys2Proof.Machine.execBarPeek q c b e s
  | .bexpPost a c b k e => Sys2Proof.Machine.execBexpPost a c b k e s
  | .bexpArrive a c b k e => Sys2Proof.Machine.execBexpArrive a c b k e s
  | .cpyTile d a c l r e => Sys2Proof.Machine.execCpyTile d a c l r e s
  | .cpyGather d a c l r e => Sys2Proof.Machine.execCpyGather d a c l r e s
  | .cpyScatter d a c l r e => Sys2Proof.Machine.execCpyScatter d a c l r e s
  | .cpyAxpb d a c l r e => Sys2Proof.Machine.execCpyAxpb d a c l r e s
  | .cpyRescale d a c l r e => Sys2Proof.Machine.execCpyRescale d a c l r e s
  | .cpyFill d a c l r e => Sys2Proof.Machine.execCpyFill d a c l r e s
  | .cpySum d a c l r e => Sys2Proof.Machine.execCpySum d a c l r e s
  | .cpyd m l e => Sys2Proof.Machine.execCpyd m l e s
  | .cpyr a c l e => Sys2Proof.Machine.execCpyr a c l e s
  | .mma d a l r e => Sys2Proof.Machine.execMma d a l r e s
  | .cmma d a l r e => Sys2Proof.Machine.execCmma d a l r e s
  | .pmma d a l r e => Sys2Proof.Machine.execPmma d a l r e s
  | .mxf d e => Sys2Proof.Machine.execMxf d e s
  | .mxw a b e => Sys2Proof.Machine.execMxw a b e s
  | .mxr e => Sys2Proof.Machine.execMxr e s
  | .panLd d a w e => Sys2Proof.Machine.execPanLd d a w e s
  | .panSt d a w e => Sys2Proof.Machine.execPanSt d a w e s
  | .mxcZero d l e => Sys2Proof.Machine.execMxcZero d l e s
  | .mxcRscl d l e => Sys2Proof.Machine.execMxcRscl d l e s
  | .sput d a c z r k m e => Sys2Proof.Machine.execSput d a c z r k m e s
  | .sget d a c z r k e => Sys2Proof.Machine.execSget d a c z r k e s
  | .sfwd a c imm o k e => Sys2Proof.Machine.execSfwd a c imm o k e s
  | .xscanAdd d a c k e => Sys2Proof.Machine.execXscanAdd d a c k e s
  | .xscanMul d a c k e => Sys2Proof.Machine.execXscanMul d a c k e s
  | .xscanMin d a c k e => Sys2Proof.Machine.execXscanMin d a c k e s
  | .xscanMax d a c k e => Sys2Proof.Machine.execXscanMax d a c k e s
  | .xscanAff d a c k e => Sys2Proof.Machine.execXscanAff d a c k e s
  | .lrec u d a b k l e => Sys2Proof.Machine.execLrec u d a b k l e s
  | .tfenPtrel c e => Sys2Proof.Machine.execTfenPtrel c e s
  | .tfenWalkacq c e => Sys2Proof.Machine.execTfenWalkacq c e s
  | .tfenSync u d a c k m e => Sys2Proof.Machine.execTfenSync u d a c k m e s
  | .tinvPage u d a c k m e => Sys2Proof.Machine.execTinvPage u d a c k m e s
  | .tinvCtx u c e => Sys2Proof.Machine.execTinvCtx u c e s
  | .tprb u d a k e => Sys2Proof.Machine.execTprb u d a k e s
  | .thintPromote d a l e => Sys2Proof.Machine.execThintPromote d a l e s
  | .thintDemote d a l e => Sys2Proof.Machine.execThintDemote d a l e s
  | .thintPin d a l e => Sys2Proof.Machine.execThintPin d a l e s
  | .thintUnpin d a l e => Sys2Proof.Machine.execThintUnpin d a l e s
  | .thintRelease d a l e => Sys2Proof.Machine.execThintRelease d a l e s
  | .tierHintRun eng => Sys2Proof.Machine.execTierHintRun eng s
  | .migr d a l e => Sys2Proof.Machine.execMigr d a l e s
  | .migrationPage eng => Sys2Proof.Machine.execMigrationPage eng s
  | .launch d a q e => Sys2Proof.Machine.execLaunch d a q e s
  | .lwait d a e => Sys2Proof.Machine.execLwait d a e s
  | .contOpen imm e => Sys2Proof.Machine.execContOpen imm e s
  | .contClose e => Sys2Proof.Machine.execContClose e s
  | .dualOn e => Sys2Proof.Machine.execDualOn e s
  | .dualOff e => Sys2Proof.Machine.execDualOff e s
  | .csrRd d n e => Sys2Proof.Machine.execCsrRd d n e s
  | .csrWr a n k e => Sys2Proof.Machine.execCsrWr a n k e s
  | .rfeNext => Sys2Proof.Machine.execRfeNext s
  | .rfeRetry => Sys2Proof.Machine.execRfeRetry s
  | .rfeKill => Sys2Proof.Machine.execRfeKill s
  | .rfeSave c => Sys2Proof.Machine.execRfeSave c s
  | .rfeRest => Sys2Proof.Machine.execRfeRest s
  | .ctxSgr d a e => Sys2Proof.Machine.execCtxSgr d a e s
  | .ctxLgr d a e => Sys2Proof.Machine.execCtxLgr d a e s
  | .ctxSst a e => Sys2Proof.Machine.execCtxSst a e s
  | .ctxLst a e => Sys2Proof.Machine.execCtxLst a e s
  | .ctxSwg a e => Sys2Proof.Machine.execCtxSwg a e s
  | .ctxLwg a e => Sys2Proof.Machine.execCtxLwg a e s
  | .ctxQuiet e => Sys2Proof.Machine.execCtxQuiet e s
  | .tmrNow u d e => Sys2Proof.Machine.execTmrNow u d e s
  | .tmrFrame u d e => Sys2Proof.Machine.execTmrFrame u d e s
  | .tmrTo u d a j k e => Sys2Proof.Machine.execTmrTo u d a j k e s
  | .tmrFrom u d a j k e => Sys2Proof.Machine.execTmrFrom u d a j k e s
  | .nop e => Sys2Proof.Machine.execNop e s
  | .nopreOn e => Sys2Proof.Machine.execNopreOn e s
  | .nopreOff e => Sys2Proof.Machine.execNopreOff e s
  | .nopreLimit group => Sys2Proof.Machine.execNopreLimit group s
  | .laneArbitration lane => Sys2Proof.Machine.execLaneArbitration lane s
  | .splitResume group split => Sys2Proof.Machine.execSplitResume group split s
  | .producerFill group id => Sys2Proof.Machine.execProducerFill group id s
  | .pollCompletion group split => Sys2Proof.Machine.execPollCompletion group split s
  | .walk core part ctx va write fetch => Sys2Proof.Machine.execWalk core part ctx va write fetch s
  | .pageWaitRetry group split => Sys2Proof.Machine.execPageWaitRetry group split s
  | .l1Eviction core line => Sys2Proof.Machine.execL1Eviction core line s
  | .windowWriteBack wg off => Sys2Proof.Machine.execWindowWriteBack wg off s
  | .remoteWriteCheck id => Sys2Proof.Machine.execRemoteWriteCheck id s
  | .writeAcknowledgement id => Sys2Proof.Machine.execWriteAcknowledgement id s
  | .lineFill core id => Sys2Proof.Machine.execLineFill core id s
  | .copyCompletion core id => Sys2Proof.Machine.execCopyCompletion core id s
  | .copyStop core id => Sys2Proof.Machine.execCopyStop core id s
  | .matrixStep cluster id => Sys2Proof.Machine.execMatrixStep cluster id s
  | .matrixStepComplete cluster id => Sys2Proof.Machine.execMatrixStepComplete cluster id s
  | .messageArrival core dir => Sys2Proof.Machine.execMessageArrival core dir s
  | .creditReturn core dir => Sys2Proof.Machine.execCreditReturn core dir s
  | .sluiceTimeout group split => Sys2Proof.Machine.execSluiceTimeout group split s
  | .waitBudget slot => Sys2Proof.Machine.execWaitBudget slot s
  | .trapWatchdog group => Sys2Proof.Machine.execTrapWatchdog group s
  | .preemptionDiscard wg => Sys2Proof.Machine.execPreemptionDiscard wg s
  | .preemptionSave wg => Sys2Proof.Machine.execPreemptionSave wg s
  | .workgroupRestore wg core => Sys2Proof.Machine.execWorkgroupRestore wg core s
  | .inFieldTest cluster => Sys2Proof.Machine.execInFieldTest cluster s
  | .testRunEnd cluster pass => Sys2Proof.Machine.execTestRunEnd cluster pass s
  | .resourceReturn wg => Sys2Proof.Machine.execResourceReturn wg s
  | .errorRecordAppend index => Sys2Proof.Machine.execErrorRecordAppend index s
  | .managementRecordAppend index => Sys2Proof.Machine.execManagementRecordAppend index s
  | .unconsumedError die pa corrected => Sys2Proof.Machine.execUnconsumedError die pa corrected s
  | .hostQueueConsume queue => Sys2Proof.Machine.execHostQueueConsume queue s
  | .gridReady grid => Sys2Proof.Machine.execGridReady grid s
  | .rangeListComplete grid => Sys2Proof.Machine.execRangeListComplete grid s
  | .workgroupPlacement die => Sys2Proof.Machine.execWorkgroupPlacement die s
  | .priorityAging grid => Sys2Proof.Machine.execPriorityAging grid s
  | .gridRetirement grid => Sys2Proof.Machine.execGridRetirement grid s
  | .dieFence die => Sys2Proof.Machine.execDieFence die s
  | .voteDisagreement block two => Sys2Proof.Machine.execVoteDisagreement block two s
  | .resyncComplete block => Sys2Proof.Machine.execResyncComplete block s
  | .controlPlaneRestart block => Sys2Proof.Machine.execControlPlaneRestart block s
  | .frameBoundary => Sys2Proof.Machine.execFrameBoundary s
  | .timeConversionUpdate => Sys2Proof.Machine.execTimeConversionUpdate s
  | .cxlReadTimeout port => Sys2Proof.Machine.execCxlReadTimeout port s
  | .hostCompletionTimeout group id => Sys2Proof.Machine.execHostCompletionTimeout group id s
  | .isolationEnd port => Sys2Proof.Machine.execIsolationEnd port s
  | .linkRetrain port => Sys2Proof.Machine.execLinkRetrain port s
  | .contextCreate slot => Sys2Proof.Machine.execContextCreate slot s
  | .contextDestroy slot => Sys2Proof.Machine.execContextDestroy slot s
  | .contextResume slot => Sys2Proof.Machine.execContextResume slot s
  | .contextReset slot => Sys2Proof.Machine.execContextReset slot s
  | .contextEnd slot => Sys2Proof.Machine.execContextEnd slot s
  | .preemptionRequest slot => Sys2Proof.Machine.execPreemptionRequest slot s
  | .breakpointResume slot loc => Sys2Proof.Machine.execBreakpointResume slot loc s
  | .pageResumeDoorbell slot => Sys2Proof.Machine.execPageResumeDoorbell slot s
  | .queueEnable queue ctl => Sys2Proof.Machine.execQueueEnable queue ctl s
  | .queueDisable queue => Sys2Proof.Machine.execQueueDisable queue s
  | .queueDoorbell queue tail => Sys2Proof.Machine.execQueueDoorbell queue tail s
  | .attestationReport => Sys2Proof.Machine.execAttestationReport s
  | .registerWrite off value => Sys2Proof.Machine.execRegisterWrite off value s
  | .moduleReset => Sys2Proof.Machine.execModuleReset s
  | .signedBoot => Sys2Proof.Machine.execSignedBoot s
  | .portReset host => Sys2Proof.Machine.execPortReset host s
  | .thermalTrip => Sys2Proof.Machine.execThermalTrip s
  | .thermalThrottle die => Sys2Proof.Machine.execThermalThrottle die s
  | .dataLinkLayerLinkActive port => Sys2Proof.Machine.execDataLinkLayerLinkActive port s
  | .portResetExit host => Sys2Proof.Machine.execPortResetExit host s

end Sys2Proof.Machine
end

