-- ==== Sys2Proof/Machine/Issue.lean ====
section
/-!
DEFINITION. The issue of a lane's next word: its fetch (R89), the checks of R90 that come before the word's own, the
operations of a macro call (R222 to R225), a word that paired execution finds to differ (R343), and its execution.
-/

namespace Sys2Proof.Machine

/-! ### Fetch (R89) -/

/-- What the fetch of a word answers. -/
inductive Fetched where
  /-- The word. -/
  | word (w : Word)
  /-- The page is absent; or it is being migrated (R369). -/
  | absent
  | moving
  /-- A fault against the word. -/
  | fault (f : Flt)
  /-- The word is poisoned or uncorrectable; its physical address, where its table entry is not what could not be read. -/
  | poison (src : Nat) (pa : Option Nat)
  deriving DecidableEq, Repr

/-- The versions of a code word that a core may fetch: the home's, and what the die's L2 and the core's L1 hold of it
(R89). -/
def State.codeVersions (s : State) (core pa : Nat) : List Word :=
  s.homeWord pa :: ((mapFind s.l2 (dieOfCore core, pa)).map (·.val)).toList ++ ((mapFind s.l1 (core, pa)).map (·.val)).toList

/-- A code word as it is fetched: one of its versions, chosen by timing where they differ (R89). -/
def State.codeWord (s : State) (core pa : Nat) : Word :=
  let l := s.codeVersions core pa
  if l.all (· == s.homeWord pa) then s.homeWord pa else l.getD (Config.choice s.tick % l.length) 0#32

/-- Fetches the word at a split's pc (R89, R90). No rule names a fault for a pc that is not canonical: the model's choice is
NONCANONICAL with src 0 (log entry 71). The key check of R354 applies to a fetch as to every access. -/
def State.fetch (s : State) (I : Iss) : State × Fetched :=
  let pc := I.S.pc.toNat
  let fault (code src detail : Nat) : Fetched :=
    .fault { code := code, src := src, tmask := I.act, va := some pc, detail := detail }
  if !canonical pc then (s, fault codeNoncanonical 0 0)
  else
    let at_ := laneTlbs I.G.lane
    match s.look at_ I.G.ctx pc { write := false, fetch := true, keys := true } with
    | (s, .ok pa _ _) =>
      if inWindow pa then (s, fault codeProtection 7 (9 + 16 * s.leafLevel I.G.ctx pc))
      else
        let s := s.settleWalk at_ I.G.ctx pc
        match s.homeMark pa with
        | .clean => (s, .word (s.codeWord I.core pa))
        | m => (s, .poison (m.src 2) (some (pa / 64 * 64)))
    | (s, .prot r level) => (s, fault codeProtection 7 (r + 16 * level))
    | (s, .absent) => (s, .absent)
    | (s, .moving) => (s.settleWalk at_ I.G.ctx pc, .moving)
    | (s, .poison) => (s, .poison 7 none)

/-- A poisoned code word is never executed: a fault of class 4, or an unwind inside containment (R89, R334). -/
def State.poisonedCode (s : State) (I : Iss) (src : Nat) (pa : Option Nat) : State :=
  let f : Flt := { code := codePoisonConsumed, src := src, tmask := I.act, va := some I.S.pc.toNat, pa := pa }
  if I.G.depth = 0 then s.raise I f else s.unwind I.gid (s.recOf I f 3) []

/-! ### Words that differ between the copies of a pair (R343) -/

/-- The detail of a DUAL-MISMATCH record. -/
def dualDetail (g : Group) (kind : Nat) : Nat :=
  laneInPart g.lane + 16 * laneInPart (g.shadowLane.getD (g.lane + 1)) + 256 * kind

/-- What a word has written or is to fill, in a group that had nothing noted as written before it, and the group's next producer. -/
def State.wrote (s : State) (I : Iss) : List Nat × Nat :=
  let g := I.now s
  (g.written.map (·.1), g.nextProd)

/-- The value of R335 for register n of a word's destinations: under f64 a pair takes one NaN, and a single register its high word. -/
def definedAt (ty : Nat) (dests : List Nat) (n : Nat) : Word :=
  if ty = 9 then (if n % 2 = 0 ∧ dests.contains (n + 1) then 0#32 else 0x7FF80000#32) else definedPart ty 1 0

/-- The destinations of a word take the defined value of R335 in some threads, where they do not wait for data. -/
def Group.defineIn (g : Group) (ty : Nat) (dests : List Nat) (m : Mask) : Group :=
  dests.foldl (fun g n =>
    let r := g.reg n
    if r.full then g.putReg n { r with vals := mergeVals m (fun _ => definedAt ty dests n) r.vals, tag := .general } else g) g

/-- A load that dropped some of its threads gives them the defined value when it fills. -/
def Group.defineLoad (g : Group) (m : Mask) : Group :=
  { g with prods := g.prods.map fun (p : Producer) =>
      if p.id + 1 == g.nextProd then { p.setParts m (fun i => some (definedPart p.ty p.dsts.length i)) with mask := p.mask ||| m } else p }

/-- A kind of difference that a word can show: addresses are those of a word that accesses memory, store data those of a store, an
atomic or a `pan.st`, descriptor operands those of an engine command (R343). -/
def kindFits (t : Strip) (kind : Nat) : Bool :=
  let op := t.op.toNat
  match kind with
  | 2 => [0x4A, 0x4B, 0x4C, 0x4D, 0x4E, 0x4F, 0x50, 0x51, 0x52, 0x56, 0x58, 0x59, 0x5A, 0x6A].contains op || (op == 0x54 && t.y.ult 2#4)
  | 3 => [0x4B, 0x4D, 0x4F, 0x52, 0x58, 0x59, 0x5A].contains op || (op == 0x6A && t.x == 1#3)
  | 5 => [0x60, 0x61, 0x62, 0x64, 0x65, 0x66, 0x6B, 0x74, 0x75, 0x76].contains op
  | _ => decide (kind < 5)

/-- A word has been executed: it has neither stalled nor been stopped by one of its checks. -/
def State.performed (t : State) (I : Iss) : Bool :=
  match mapFind t.groups I.gid with
  | none => false
  | some g => g.executed != I.G.executed || (g.split I.sid).any fun p => p.st == .issuing && p.call != I.S.call

/-- A word whose two copies differ again. Inside containment the group unwinds; outside, the differing results take the
values that R343 states, and the word is otherwise executed: with the threads whose address or store data differ out of its active
mask, where it accesses memory. The kinds are those of the record's detail: 0 register, 1
predicate, 2 address, 3 store data, 4 next PC, 5 descriptor. -/
def State.mismatch (s : State) (I : Iss) (t : Strip) (kind : Nat) (m : Mask) (run : State → Host.Outcome State Fault Refusal) :
    Host.Outcome State Fault Refusal :=
  let f : Flt := { code := codeDualMismatch, src := 6, tmask := m, detail := dualDetail I.G kind }
  if I.G.depth ≠ 0 then .next (s.unwind I.gid (s.recOf I f 3) [])
  else
    let wrote := match run (s.modGroup I.gid fun g => { g with written := [] }) with
      | .next t => t.wrote I
      | _ => ([], I.G.nextProd)
    let s := s.note I f 2
    if kind = 5 then .next (s.atBoundary I fun s => s.newRegion I t.e)
    else if kind = 2 ∨ kind = 3 then
      match run (s.modSplit I.gid I.sid fun p => { p with act := some (I.act &&& ~~~m) }) with
      | .next s =>
        .next (s.modGroup I.gid fun g =>
          if wrote.2 = I.G.nextProd then g
          else if g.nextProd = I.G.nextProd then g.defineIn I.S.ty wrote.1 m
          else g.defineLoad m)
      | r => r
    else
      match run s with
      | .next s => .next (if kind = 0 then s.modGroup I.gid fun g => g.defineIn I.S.ty wrote.1 m else s)
      | r => r

/-! ### Predicates that a `cas` is still to write (R242) -/

/-- The predicates that a word reads or writes. -/
def predsOf (p : Split) : Instr → List Nat
  | .cmp _ _ q _ _ _ _ _ => [q.toNat]
  | .cmpi _ _ q _ _ _ _ => [q.toNat]
  | .fcmp _ _ q _ _ _ _ _ => [q.toNat]
  | .addc .. => [p.selP]
  | .subc .. => [p.selP]
  | .sel .. => [p.selP]
  | .iopMovp _ _ a _ => [a.toNat]
  | .iopPmov _ d _ _ _ => [d.toNat]
  | .plog _ d a b _ _ => [d.toNat, a.toNat, b.toNat]
  | .brt _ q _ => [q.toNat]
  | .brf _ q _ => [q.toNat]
  | .feTest d _ _ => [d.toNat]
  | .voteAll d a _ => [d.toNat, a.toNat]
  | .voteAny d a _ => [d.toNat, a.toNat]
  | .voteBallot _ a _ => [a.toNat]
  | .voteEq _ d _ _ _ => [d.toNat]
  | .cas _ _ _ _ _ q _ _ _ => [q.toNat]
  | .txe q _ => [q.toNat]
  | .barPeek q _ _ _ => [q.toNat]
  | .launch _ _ q _ => [q.toNat]
  | _ => []

/-- The predicate that a word names, its guard's among them, and that a `cas` of the group is still to write (R242). -/
def Iss.predDue (I : Iss) (i : Instr) : Option Nat :=
  if I.S.released then none
  else ((if I.S.gv then [I.S.gp] else []) ++ predsOf I.S i).find? fun q =>
    q != 0 && I.G.prods.any fun p => p.pred.any fun x => x.1 == q

/-- What the columns of a word with the opcode of a link word name, whatever else of it is refused (R321, R331). -/
def Iss.strayLink (I : Iss) (t : Strip) : Option LinkUse :=
  let lo := (t.y.extractLsb' 0 2).toNat
  let hi := (t.y.extractLsb' 2 2).toNat
  match t.op.toNat with
  | 0x6C => some { recv := none, ch := I.channel t.a, send := some lo, size := hi }
  | 0x6D => some { recv := some lo, ch := I.channel t.a, send := none, size := hi }
  | 0x6E => some { recv := some hi, ch := I.channel t.a, send := some lo, size := 3 }
  | 0x6F => some (scanUse (I.desc t.a.toNat))
  | _ => none

/-- The fault of a word that is no instruction: one with the opcode of a link word carries that word's source and detail (R331). -/
def Iss.strayFlt (I : Iss) (t : Strip) (code : Nat) : Flt :=
  match I.strayLink t with
  | some u => { code := code, src := 5, tmask := I.act, detail := u.detail }
  | none => { code := code, tmask := I.act }

/-! ### Issue (R29, R90) -/

/-- Executes a word of a split after its fetch: an encoding that is no instruction raises its fault (R86, R90), and a predicate that
a `cas` is still to write holds the word (R242). A difference between the copies of a pair strikes the first word that is executed,
but for `dual.off`, which is executed unpaired (R343, R344). -/
def State.runStrip (s : State) (I : Iss) (t : Strip) : Host.Outcome State Fault Refusal :=
  match decodeColumns t with
  | .error .illegalOpcode => .next (s.raise I (I.strayFlt t codeIllegalOpcode))
  | .error .reservedField => .next (s.raise I (I.strayFlt t codeReservedField))
  | .ok i =>
    match I.predDue i with
    | some q => .next (s.stall I (.pred q))
    | none =>
      match (if I.G.pair && i != .dualOff t.e then mapFind s.upsets I.G.lane else none), exec i s with
      | some (kind, m), .next t' =>
        if !t'.performed I then .next t'
        else
          let s := { s with upsets := mapDel s.upsets I.G.lane }
          if m &&& I.act = 0#32 || !kindFits t kind then exec i s else s.mismatch I t kind (m &&& I.act) (exec i)
      | _, r => r

/-- The next operation of a macro call, a word of the split with its own substitution (R222, R223). With an empty active mask one that
the substitution refuses does nothing (R81). -/
def State.runOperation (s : State) (I : Iss) (c : Call) : Host.Outcome State Fault Refusal :=
  let words := ((((s.gridOf I.G).map (·.image)).getD [])[c.routine]?.map (·.words)).getD []
  let s := s.modSplit I.gid I.sid fun p => { p with call := some { c with last := decide (words.length ≤ c.op + 1) } }
  match macroSubst c (words.getD c.op 0#32), s.iss with
  | none, _ => .next (if I.act = 0#32 then s.advance I false else s.raiseMacro I 3 c.op c.routine)
  | some t, some I => s.runStrip I t
  | some _, none => .next s

/-- Executes a word that has just been fetched. -/
def State.runFetched (s : State) (t : Strip) : Host.Outcome State Fault Refusal :=
  match s.iss with
  | some I => s.runStrip I t
  | none => .next s

/-- Issues the next word of the split in whose name the state stands: RUN-LENGTH first, then the fetch, then the word
(R29, R90). A word that waited goes on as it was fetched (R30). -/
def State.issue (s : State) (I : Iss) : Host.Outcome State Fault Refusal :=
  match I.S.call, I.S.word with
  | some c, _ => s.runOperation I c
  | none, some w => s.runStrip I (Strip.split w)
  | none, none =>
    if 24 ≤ I.S.run then .next (s.raiseCode I codeRunLength)
    else
      match s.fetch I with
      | (s, .word w) => (s.modSplit I.gid I.sid fun p => { p with word := some w }).runFetched (Strip.split w)
      | (s, .absent) => .next (s.pageWait I [(pageOf I.S.pc.toNat, I.S.mask)] [])
      | (s, .moving) => .next (s.pageWait I [] [pageOf I.S.pc.toNat])
      | (s, .fault f) => .next (s.raise I f)
      | (s, .poison src pa) => .next (s.poisonedCode I src pa)

/-- A lane issues the next word of the split that holds it. -/
def State.issueLane (s : State) (lane : Nat) : Host.Outcome State Fault Refusal :=
  let s := { s with cur := s.holder lane }
  match s.iss with
  | some I => s.issue I
  | none => .next s

end Sys2Proof.Machine
end

