-- ==== Sys2Proof/Machine/Agenda.lean ====
section
/-!
DEFINITION. What happens next: the events of the opcode table as the agenda names them, what the device may do of its own
accord in a state (R31, R32), the passing of time (R406, R421, R425, R445), and the state in which a given word is next.
-/

namespace Sys2Proof.Machine

/-! ### Events -/

/-- Performs an event: the meaning of its row of the table. -/
def runEvent (e : Event) (s : State) : Host.Outcome State Fault Refusal :=
  match e with
  | .tierHintRun eng => execTierHintRun eng s
  | .migrationPage eng => execMigrationPage eng s
  | .nopreLimit group => execNopreLimit group s
  | .laneArbitration lane => execLaneArbitration lane s
  | .splitResume group split => execSplitResume group split s
  | .producerFill group id => execProducerFill group id s
  | .pollCompletion group split => execPollCompletion group split s
  | .walk core part ctx va write fetch => execWalk core part ctx va write fetch s
  | .pageWaitRetry group split => execPageWaitRetry group split s
  | .l1Eviction core line => execL1Eviction core line s
  | .windowWriteBack wg off => execWindowWriteBack wg off s
  | .remoteWriteCheck id => execRemoteWriteCheck id s
  | .writeAcknowledgement id => execWriteAcknowledgement id s
  | .lineFill core id => execLineFill core id s
  | .copyCompletion core id => execCopyCompletion core id s
  | .copyStop core id => execCopyStop core id s
  | .matrixStep cluster id => execMatrixStep cluster id s
  | .matrixStepComplete cluster id => execMatrixStepComplete cluster id s
  | .messageArrival core dir => execMessageArrival core dir s
  | .creditReturn core dir => execCreditReturn core dir s
  | .sluiceTimeout group split => execSluiceTimeout group split s
  | .waitBudget slot => execWaitBudget slot s
  | .trapWatchdog group => execTrapWatchdog group s
  | .preemptionDiscard wg => execPreemptionDiscard wg s
  | .preemptionSave wg => execPreemptionSave wg s
  | .workgroupRestore wg core => execWorkgroupRestore wg core s
  | .inFieldTest cluster => execInFieldTest cluster s
  | .testRunEnd cluster pass => execTestRunEnd cluster pass s
  | .resourceReturn wg => execResourceReturn wg s
  | .errorRecordAppend index => execErrorRecordAppend index s
  | .managementRecordAppend index => execManagementRecordAppend index s
  | .unconsumedError die pa corrected => execUnconsumedError die pa corrected s
  | .hostQueueConsume queue => execHostQueueConsume queue s
  | .gridReady grid => execGridReady grid s
  | .rangeListComplete grid => execRangeListComplete grid s
  | .workgroupPlacement die => execWorkgroupPlacement die s
  | .priorityAging grid => execPriorityAging grid s
  | .gridRetirement grid => execGridRetirement grid s
  | .dieFence die => execDieFence die s
  | .voteDisagreement block two => execVoteDisagreement block two s
  | .resyncComplete block => execResyncComplete block s
  | .controlPlaneRestart block => execControlPlaneRestart block s
  | .frameBoundary => execFrameBoundary s
  | .timeConversionUpdate => execTimeConversionUpdate s
  | .cxlReadTimeout port => execCxlReadTimeout port s
  | .hostCompletionTimeout group id => execHostCompletionTimeout group id s
  | .isolationEnd port => execIsolationEnd port s
  | .linkRetrain port => execLinkRetrain port s
  | .contextCreate slot => execContextCreate slot s
  | .contextDestroy slot => execContextDestroy slot s
  | .contextResume slot => execContextResume slot s
  | .contextReset slot => execContextReset slot s
  | .contextEnd slot => execContextEnd slot s
  | .preemptionRequest slot => execPreemptionRequest slot s
  | .breakpointResume slot loc => execBreakpointResume slot loc s
  | .pageResumeDoorbell slot => execPageResumeDoorbell slot s
  | .queueEnable queue ctl => execQueueEnable queue ctl s
  | .queueDisable queue => execQueueDisable queue s
  | .queueDoorbell queue tail => execQueueDoorbell queue tail s
  | .attestationReport => execAttestationReport s
  | .registerWrite off value => execRegisterWrite off value s
  | .moduleReset => execModuleReset s
  | .signedBoot => execSignedBoot s
  | .portReset host => execPortReset host s
  | .thermalTrip => execThermalTrip s
  | .thermalThrottle die => execThermalThrottle die s
  | .dataLinkLayerLinkActive port => execDataLinkLayerLinkActive port s
  | .portResetExit host => execPortResetExit host s

/-! ### What the device may do next (R32)

Each of these is enabled where its rule lets it happen; which of several comes first is timing. -/

/-- Events from a list of things. -/
def events {α : Type} (l : List α) (f : α → List Event) : List Act := (l.flatMap f).map .event

/-- The lanes on which some group stands. -/
def State.lanesInUse (s : State) : List Nat :=
  s.groups.foldl (fun acc x => if acc.contains x.2.lane then acc else acc ++ [x.2.lane]) []

/-- The page-table walkers of a die have not stopped (R18). -/
def State.walkersRun (s : State) (die : Nat) : Bool := (s.vote (10 + die)).2.2.1

/-- A lane issues or picks a split; not while its die's walkers have stopped, since a word may need them (R18). -/
def State.laneActs (s : State) (lane : Nat) : List Act :=
  if !s.walkersRun (dieOfCore (coreOfLane lane)) then []
  else if (s.holder lane).isSome then [.issue lane]
  else if s.candidates lane != [] then [.event (.laneArbitration lane)] else []

/-- What a split that does not issue may do. -/
def State.splitActs (s : State) (gid : Nat) (g : Group) (p : Split) : List Event :=
  match p.st with
  | .suspended =>
    (match p.wait with
      | .poll .. => [.pollCompletion gid p.idx]
      | .link .. => [.sluiceTimeout gid p.idx]
      | _ => []) ++ (if s.waitOver gid g p then [.splitResume gid p.idx] else [])
  | .pageWait => if p.released && s.walkersRun g.die then [.pageWaitRetry gid p.idx] else []
  | _ => []

/-- What a group's producers and limits may do. -/
def State.groupActs (s : State) (gid : Nat) (g : Group) : List Event :=
  g.splits.flatMap (s.splitActs gid g) ++ (g.prods.map fun p => .producerFill gid p.id) ++
    ((g.prods.filter fun p => p.ext.any fun x => match regionOf x.2.1 with
        | .host h => s.host.inReset.contains h
        | _ => false).map fun p => .hostCompletionTimeout gid p.id) ++
    (match g.nopre with
      | some w => if 2 ^ 20 ≤ w.count then [.nopreLimit gid] else []
      | none => []) ++
    (match g.trap with
      | some t => if !t.resting && decide (2 ^ 24 ≤ t.aclk) then [.trapWatchdog gid] else []
      | none => [])

/-- What a workgroup may do. -/
def State.wgActs (s : State) (w : Nat) (x : Workgroup) : List Event :=
  (match x.preempting with
    | some true => [.preemptionSave w]
    | some false => [.preemptionDiscard w]
    | none => []) ++ (if s.wgOver w x && s.schedulerRuns (dieOfCore x.core) then [.resourceReturn w] else []) ++
    x.wlines.flatMap fun l => ((List.range 32).filter fun j => l.2.dirty.getLsbD j).map fun j => .windowWriteBack w (l.1 + 4 * j)

/-- What a grid may do. -/
def State.gridActs (s : State) (k : Nat) (d : Grid) : List Event :=
  match d.st with
  | .accepted => [.gridReady k]
  | .migrating => .rangeListComplete k :: (if s.rangesLeft k d then [.gridReady k] else [])
  | .placing => [.priorityAging k]
  | .placed => if s.gridOver k d then [.gridRetirement k] else []
  | _ => []

/-- What a context slot may do, where the command processor runs (R18). -/
def State.ctxActs (s : State) (slot : Nat) (c : Ctx) : List Event :=
  if !s.cpRuns then []
  else (if c.st == .resetting then [.contextEnd slot] else []) ++ (if c.st == .live && c.passedBound.isSome then [.waitBudget slot] else [])

/-- What the copy, matrix and migration engines and the links may do. A copy or a migration on a die whose walkers have stopped
does not go on (R18). -/
def State.engineActs (s : State) : List Act :=
  events s.copies (fun c =>
    if c.left = [] then [.copyCompletion c.core c.id]
    else if s.walkersRun (dieOfCore c.core) then [.lineFill c.core c.id, .copyStop c.core c.id] else []) ++
  events s.mxops (fun o => if o.done then [] else if o.started then [.matrixStepComplete o.cluster o.id] else [.matrixStep o.cluster o.id]) ++
  s.mxops.flatMap (fun o => if o.waits ≠ [] then [] else o.olds.flatMap fun (gid, m) =>
    (m.filter fun x => (mapFind s.groups gid).any fun g => (g.reg x.1).vals != x.2.vals).map fun x => .oldRegister gid x.1) ++
  events ([0, 1, 2].filter fun e => s.walkersRun (migrDie e)) (fun e => match s.migrHead e with
    | some c => if c.hint = 0 then [.migrationPage e] else [.tierHintRun e]
    | none => []) ++
  events s.sluFly (fun x => if x.2.isEmpty then [] else [.messageArrival x.1.1 x.1.2]) ++
  (s.sluFly.filter fun x => x.2.any fun m => !m.poisoned).map (fun x => .messagePoison x.1.1 x.1.2) ++
  events s.sluRet fun x => if x.2 = 0 then [] else [.creditReturn x.1.1 x.1.2]

/-- What the memory hierarchy may do. -/
def State.memoryActs (s : State) : List Act :=
  s.writes.map (fun w =>
    if w.performed then .event (.writeAcknowledgement w.id)
    else if dieOfCore w.info.core = homeDie w.pa ∨ isHostMem w.pa then .landing w.id
    else .event (.remoteWriteCheck w.id)) ++ s.sent.map (fun x => .landing x.id) ++
  events s.l1 (fun x => [.l1Eviction x.1.1 (lineOf x.1.2)]) ++
  s.l2.map (fun x => .l2Eviction x.1.1 (x.1.2 / 256)) ++ s.clu.map (fun x => .bufferEviction x.1.1 (lineOf x.1.2)) ++
  s.farDirty.map (fun x => .sliceEviction (lineOf x.1)) ++ s.poison.map fun x => .sliceEviction x.1

/-- The writes of PKR on their way to the dies' copies; one that a die has left the device during is performed all the same
(R443). -/
def State.keyActs (s : State) : List Act :=
  if s.cpRuns then s.ctxs.flatMap fun (k, c) =>
    if c.pkrNew.isNone then [] else if s.keyDies c = [] then [.keyCopy k 4] else (s.keyDies c).map fun d => .keyCopy k d
  else []

/-- What the control plane and the hosts' side of the device may do. -/
def State.planeActs (s : State) : List Act :=
  events (List.range s.pend.length) (fun i => match s.pend[i]? with
    | some r => if !s.mayDeliver i then [] else if r.queue.slot.isSome then [.errorRecordAppend i] else [.managementRecordAppend i]
    | none => []) ++
  events (if s.cpRuns then s.queueTurn.toList else []) (fun q => [.hostQueueConsume q]) ++
  events (if s.readyGrids = [] then [] else s.presentDies) (fun d => [.workgroupPlacement d]) ++
  events s.saved (fun x => ((List.range 72).filter fun c => (s.returnLanes x.1 c).isSome).map fun c => .workgroupRestore x.1 c) ++
  events s.votes (fun x => if !x.2.2.2.1 then [.controlPlaneRestart x.1] else if x.2.2.2.2 then [.resyncComplete x.1] else []) ++
  events ((List.range 36).filter s.testDue) (fun c => [.inFieldTest c]) ++
  events s.testing (fun c => [.testRunEnd c true, .testRunEnd c false]) ++
  events s.ports (fun x => if x.2.training then [.dataLinkLayerLinkActive x.1] else []) ++
  events (if s.host.attGo then [()] else []) (fun _ => [.attestationReport]) ++
  [.event .frameBoundary]

/-- Everything that the device may do next of its own accord. -/
def State.enabled (s : State) : List Act :=
  s.lanesInUse.flatMap s.laneActs ++ events s.groups (fun x => s.groupActs x.1 x.2) ++
    events s.wgs (fun x => s.wgActs x.1 x.2) ++ events s.grids (fun x => s.gridActs x.1 x.2) ++
    events s.ctxs (fun x => s.ctxActs x.1 x.2) ++ s.keyActs ++ s.engineActs ++ s.memoryActs ++ s.planeActs

/-- Performs an act. -/
def runAct (a : Act) (s : State) : Host.Outcome State Fault Refusal :=
  match a with
  | .issue lane => s.issueLane lane
  | .event e => runEvent e s
  | .upset lane kind m => .next { s with upsets := mapSet s.upsets lane (kind, m) }
  | .l2Eviction die line => execL2Eviction die line s
  | .bufferEviction cluster line => execBufferEviction cluster line s
  | .sliceEviction line => execSliceEviction line s
  | .oldRegister group reg => execOldRegister group reg s
  | .messagePoison core dir => execMessagePoison core dir s
  | .keyCopy slot die => execKeyCopy slot die s
  | .landing id => execLanding id s

/-- An act that reaches a device which has not booted: its boot, and resets (R454, R459). -/
def Act.beforeBoot : Act → Bool
  | .event .signedBoot => true
  | .event .moduleReset => true
  | .event .thermalTrip => true
  | _ => false

/-- What happens next: what the agenda holds, the boot of a device that has not booted, or one of the enabled acts, as
timing has it. A device whose boot has failed stays in reset (R454). -/
def State.happen (s : State) : Host.Outcome State Fault Refusal :=
  match s.agenda with
  | a :: r =>
    let s := { s with agenda := r }
    if s.host.booted || a.beforeBoot then runAct a s else .next s
  | [] =>
    if !s.host.booted then (if s.host.bootFail then .next s else execSignedBoot s)
    else
      let l := s.enabled
      match l[Config.choice s.tick % l.length]? with
      | some a => runAct a s
      | none => .next s

/-! ### Time -/

/-- A split after some aclk: a counted wait goes on (R406). -/
def Split.afterAclk (p : Split) (counted : Bool) (n : Nat) : Split :=
  if counted then { p with waited := p.waited + n } else p

/-- A group after some aclk: its waits, its `nopre` window and its trap routine go on (R406, R421, R425). -/
def Group.afterAclk (g : Group) (n : Nat) : Group :=
  { g with
    splits := g.splits.map fun p => p.afterAclk (g.counts p) n
    nopre := g.nopre.map fun w => { w with count := w.count + n }
    trap := g.trap.map fun t => { t with aclk := if t.resting then t.aclk else t.aclk + n } }

/-- A context's sum of waits after some aclk (R406). -/
def State.waitsOf (s : State) (slot n : Nat) : Nat := n * (s.waiters slot).length

/-- Readings of the dies' counters at one instant: each, converted from one present die to another, differs from that die's own by at
most 8 ns (R445). -/
def State.clocksAgree (s : State) (times : Map Nat Nat) : Bool :=
  s.presentDies.all fun i => s.presentDies.all fun j =>
    i == j || (let d := (s.convert i j (mapGet times i 0) + (2 ^ 64 - mapGet times j 0)) % 2 ^ 64
      decide (d ≤ 8) || decide (2 ^ 64 - 8 ≤ d))

/-- The time that one step takes: counters of time and of waits go on; how far is free (R32, R445). -/
def State.afterStep (s : State) : State :=
  let n := Config.elapsedAclk s.tick
  let later := (List.range 9).map fun d => (d, min (2 ^ 64 - 1) (s.time d + Config.elapsedNs s.tick d))
  let times := if s.clocksAgree later then later else s.times
  { s with
    tick := s.tick + 1
    times := times
    groups := mapAll s.groups fun _ g => g.afterAclk n
    ctxs := mapAll s.ctxs fun slot c =>
      if c.st == .live then
        { c with
          waited := c.waited + s.waitsOf slot n
          passedBound := c.passedBound.orElse fun _ => s.passing slot n }
      else c }

/-! ### A word that is next -/

/-- The leaf through which the code page of `withFetchWord` is reached: V, X and A, level 3, frame 0x10000. -/
def fetchPage : Tlb where
  at_ := .part 0 0
  ctx := some 0
  base := 0x10000
  level := 3
  pte := 0x1004D#64
  ptePa := 0

/-- A grid of one workgroup of one group, for a word that is placed where it is fetched next. -/
def fetchGrid : Grid :=
  { gridOfRecord [] 0#32 0 0 0 none 0 with
    entry := 0x10000#64, nwg := 1, ngrp := 1, cs := 1, regs := 128, pool := 128, affinity := 1, st := .placed, nextW := 1 }

/-- The device with a word placed where the next step fetches one (R22, R25, R89): booted, context 0 live, and on lane 0
a group of one workgroup whose split holds the lane. -/
def State.placeWord (s : State) (w : Word) : State :=
  let dk := s.nextUid
  let wk := dk + 1
  let gk := dk + 2
  let d := { fetchGrid with wgs := [wk] }
  let x : Workgroup :=
    { grid := dk, ctx := 0, w := 0, core := 0, peer := none, groups := [gk], scratch := [], spoison := [], pendLines := [],
      windows := [], wlines := [], slots := [], panBase := 0, panRows := 0, preempting := none, exited := false }
  let g := newGroup wk d false false 0 0 0
  let g := { g with alloc := 128, cap := 128, splits := g.splits.map fun (p : Split) => { p with st := .issuing } }
  { s with
    agenda := .issue 0 :: s.agenda
    nextUid := dk + 3
    host := { s.host with booted := true }
    ctxs := mapSet s.ctxs 0 { s.ctx 0 with st := .live }
    grids := mapSet s.grids dk d
    wgs := mapSet s.wgs wk x
    groups := (gk, g) :: s.groups
    tlbs := fetchPage :: s.tlbs
    poison := mapDel s.poison (lineOf 0x10000)
    l1 := mapDel s.l1 (0, 0x10000)
    l2 := mapDel s.l2 (0, 0x10000)
    mem := writeWord s.mem 0x10000 w }

end Sys2Proof.Machine
end

