-- ==== Sys2Proof/Machine/Step.lean ====
section
/-!
DEFINITION. One step of the device, and the placing of a word where the next step fetches it.
-/

namespace Sys2Proof.Machine

/-- One step: what happens next, and the time that it takes. -/
def step (s : State) : Host.Outcome State Fault Refusal :=
  match s.happen with
  | .next t => .next t.afterStep
  | .fault r => .fault r
  | .refused r => .refused r

/-- The device with the word of a row of the opcode table placed where the next step fetches one. -/
def State.withFetchWord (s : State) (nbits w : Nat) : State := s.placeWord (BitVec.ofNat 32 (w % 2 ^ nbits))

end Sys2Proof.Machine
end

