-- ==== Sys2Proof/Safety.lean ====
section
/-!
DEFINITION. The terms in which claims are stated: what a safe run is, what a word of the lanes leaves behind, and what an
engine word is charged with.
-/

namespace Sys2Proof.Machine

/-- n steps from a state end in a next state. -/
def SafeFor (n : Nat) (s : State) : Prop := ∃ t, Host.Core.run Sys2Proof.core n s = .next t

/-- Every run from a state is safe. -/
def Safe (s : State) : Prop := ∀ n, SafeFor n s

/-! ### What a word of the lanes leaves behind -/

/-- What a word writes that has one register operand as its destination: the checks that it needs, the destination, the
value for each thread, the tag, the state of its lane's generator afterwards, and its E bit. -/
structure Row where
  need : Need
  dst : Opnd
  val : Nat → Nat
  tag : Tag
  seed : BitVec 24
  e : Bool

/-- Between two states nothing but one group and the generator of its lane has changed. -/
structure OnlyGroup (s t : State) (I : Iss) : Prop where
  others : ∀ k, k ≠ I.gid → mapFind t.groups k = mapFind s.groups k
  lanes : ∀ l, l ≠ I.G.lane → t.lane l = s.lane l
  lane : t.lane I.G.lane = { s.lane I.G.lane with seed := (t.lane I.G.lane).seed }
  rest : t = { s with groups := t.groups, lanes := t.lanes }

/-- The frame of a word that writes registers or predicates: its group has changed in nothing but its registers, its
predicates, where its splits stand, the words it counts, and the notes of which registers later words have written
(R303, R339). -/
def SameGroup (g old : Group) : Prop :=
  g = { old with regs := g.regs, preds := g.preds, splits := g.splits, stack := g.stack, executed := g.executed,
                 written := g.written, fresh := g.fresh }

/-- A split has gone on past its word, and its group's splits, deferred paths and count of words have changed in nothing else: they are
those of the group as it was, its split one word on, with the run boundary that E or the run's length makes (R29, R38). -/
def Group.WentOn (g : Group) (I : Iss) (e : Bool) : Prop :=
  g.splits = (I.G.advance I.sid e).splits ∧ g.stack = (I.G.advance I.sid e).stack ∧ g.executed = (I.G.advance I.sid e).executed

/-- Thread 0's value of the register, or of the pair, that a tag describes, from the value of thread t: the base of the tag (R151). -/
def baseFrom (pair : Bool) (d : Tag) (t : Nat) (v : DWord) : DWord :=
  match d, pair with
  | .affine s, false => v - BitVec.signExtend 64 s * BitVec.ofNat 64 t
  | .affine64 s, true => v - s * BitVec.ofNat 64 t
  | _, _ => v

/-- The tag of a written register, from its derived tag, its old tag, and whether the bases of the two are the same: the derived one in
a full mask; in a partial mask the old one where both have kind, base and stride in common, else general (R153). -/
def TagMerged (m : Mask) (derived old : Tag) (sameBase : Prop) (new : Tag) : Prop :=
  (m = fullMask → new = derived) ∧
    (m ≠ fullMask → m ≠ 0#32 → (derived = old ∧ sameBase → new = old) ∧ (¬(derived = old ∧ sameBase) → new = .general))

/-- The tag of a register that a word does not write: as it was, but where the word writes the odd register of an affine64 pair, whose
even register is then affine with its stride modulo 2^32 (R151). -/
def tagBeside (d : Opnd) (n : Nat) (old : Tag) : Tag :=
  match old with
  | .affine64 s => if d.cnt = 1 ∧ d.n % 2 = 1 ∧ n + 1 = d.n then .ofStride (s.extractLsb' 0 32) else old
  | _ => old

/-- The base of a row's result is the base that its destination had: thread 0's value, of both registers of a pair (R151, R153). A
uniform pair has its odd register compared on its own. -/
def Row.SameBase (r : Row) (I : Iss) : Prop :=
  let b := baseFrom (r.dst.cnt == 2) r.tag (lowest I.act) (BitVec.ofNat 64 (r.val (lowest I.act)))
  b.extractLsb' 0 32 = (I.G.reg r.dst.n).vals.getD 0 0#32 ∧
    (r.dst.cnt = 2 → r.tag ≠ .uniform → b.extractLsb' 32 32 = (I.G.reg (r.dst.n + 1)).vals.getD 0 0#32)

/-- The same of the odd register of a pair on its own. -/
def Row.SameOdd (r : Row) (I : Iss) : Prop :=
  (baseFrom (r.dst.cnt == 2) r.tag (lowest I.act) (BitVec.ofNat 64 (r.val (lowest I.act)))).extractLsb' 32 32 =
    (I.G.reg (r.dst.n + 1)).vals.getD 0 0#32

/-- A group holds a word's result in the threads of the active mask with the tags that the rules derive, and what it held before in
every other thread, in every other register with its tag, and in every predicate. -/
structure Row.Held (r : Row) (I : Iss) (g : Group) : Prop where
  value : ∀ x, x < 32 → r.dst.n ≠ 0 → g.op r.dst x =
    if I.act.getLsbD x then r.val x % 2 ^ (if r.dst.cnt = 2 then 64 else 32) else I.G.op r.dst x
  full : ∀ n, n ∈ r.dst.regs → (g.reg n).full = true
  tag : r.dst.n ≠ 0 →
    TagMerged I.act r.tag (I.G.reg r.dst.n).tag (r.SameBase I) (g.reg r.dst.n).tag
  odd : r.dst.n ≠ 0 → r.dst.cnt = 2 →
    TagMerged I.act (if r.tag = .uniform then .uniform else .general) (I.G.reg (r.dst.n + 1)).tag (r.SameOdd I)
      (g.reg (r.dst.n + 1)).tag
  others : ∀ n, n ∉ r.dst.regs → (g.reg n).vals = (I.G.reg n).vals ∧ (g.reg n).full = (I.G.reg n).full ∧
    (g.reg n).tag = tagBeside r.dst n (I.G.reg n).tag
  preds : g.preds = I.G.preds

/-- A word has executed as its row says, and has changed nothing else. -/
def Row.Wrote (r : Row) (s t : State) (I : Iss) : Prop :=
  (∃ g, mapFind t.groups I.gid = some g ∧ r.Held I g ∧ g.WentOn I r.e ∧ SameGroup g I.G) ∧ (t.lane I.G.lane).seed = r.seed ∧
    OnlyGroup s t I

/-- What a word writes that has a predicate as its destination. -/
structure PredRow where
  need : Need
  dst : Nat
  val : Nat → Bool
  e : Bool

/-- A group holds a word's predicate in the threads of the active mask, and what it held before everywhere else; p0 stays
true (R78). -/
structure PredRow.Held (r : PredRow) (I : Iss) (g : Group) : Prop where
  value : ∀ x, x < 32 → g.pred r.dst x = (r.dst == 0 || if I.act.getLsbD x then r.val x else I.G.pred r.dst x)
  others : ∀ p, p ≠ r.dst → ∀ x, g.pred p x = I.G.pred p x
  regs : g.regs = I.G.regs

/-- A word has written a predicate as its row says, and has changed nothing else. -/
def PredRow.Wrote (r : PredRow) (s t : State) (I : Iss) : Prop :=
  (∃ g, mapFind t.groups I.gid = some g ∧ r.Held I g ∧ g.WentOn I r.e ∧ SameGroup g I.G) ∧ OnlyGroup s t I ∧ t.lanes = s.lanes

/-! ### The rows of the shared operations -/

/-- Integer arithmetic on each element, fitted to its type: wrapped, or clamped with sat (R57, R104, R152). -/
def fitRow (s : State) (I : Iss) (u : Bool) (tys : List Nat) (d : Opnd) (srcs : List Opnd) (x : Nat → Nat → Int)
    (sat : Bool) (stride : Tag) (e : Bool) : Row :=
  let ty := I.S.ty
  let w := elemWidth ty
  let clamped := sat && (threadsOf I.act).any fun t => (List.range (elemCount ty)).any fun j => clamps (isSigned ty) w (x t j)
  let tag := I.shape srcs clamped stride
  { need := I.need u (tys.contains ty) [d] srcs tag, dst := d, tag := tag, seed := (s.lane I.G.lane).seed, e := e
    val := fun t => joinElems w (elemCount ty) fun j => fitInt sat (isSigned ty) w (x t j) }

/-- A word whose value in each thread is a function of its sources (R101, R102). -/
def plainRow (s : State) (I : Iss) (u tyOk : Bool) (d : Opnd) (srcs : List Opnd) (f : Nat → Nat) (tag : Tag) (e : Bool) : Row :=
  { need := I.need u tyOk [d] srcs tag, dst := d, val := f, tag := tag, seed := (s.lane I.G.lane).seed, e := e }

/-- A word whose elements are rounded: thread after thread, element after element, each with the generator as the one
before left it; once for all threads where U = 1 (R59, R134, R155). -/
def roundRow (s : State) (I : Iss) (u tyOk : Bool) (d : Opnd) (srcs : List Opnd) (n w : Nat)
    (f : Nat → Nat → BitVec 24 → Nat × BitVec 24) (e : Bool) : Row :=
  let seed := (s.lane I.G.lane).seed
  let r := foldThreads u I.act (fun t => foldElems n w (f t)) seed
  { need := I.need u tyOk [d] srcs (I.plainTag srcs), dst := d, val := fun t => r.1.getD t 0, seed := r.2, e := e
    tag := if u || sameIn I.act r.1 then I.plainTag srcs else .general }

/-- A word whose elements are encodings computed without rounding. -/
def elemRow (s : State) (I : Iss) (u tyOk : Bool) (d : Opnd) (srcs : List Opnd) (f : Nat → Nat → Nat) (e : Bool) : Row :=
  plainRow s I u tyOk d srcs (fun t => joinElems (elemWidth I.S.ty) (elemCount I.S.ty) (f t)) (I.plainTag srcs) e

/-- A reduction: every active thread takes the last running value (R162). -/
def redRow (s : State) (I : Iss) (u : Bool) (d a : BitVec 7) (k : Bool) (o : FoldOp) (e : Bool) : Row :=
  let ty := I.S.ty
  let oa := dataOp ty a k
  let r := I.foldRun o oa (s.lane I.G.lane).seed
  { need := I.need u (o.tyOk ty) [dataOp ty d] [oa] .uniform, dst := dataOp ty d
    val := fun _ => ((r.1.getLast?).map (·.2)).getD 0, tag := .uniform, seed := r.2, e := e }

/-- A scan: each active thread takes its own running value, or the one before it (R330). -/
def scanRow (s : State) (I : Iss) (d a : BitVec 7) (x k : Bool) (o : FoldOp) (e : Bool) : Row :=
  let ty := I.S.ty
  let oa := dataOp ty a k
  let r := I.foldRun o oa (s.lane I.G.lane).seed
  { need := I.need false (o.tyOk ty) [dataOp ty d] [oa] .general, dst := dataOp ty d
    val := fun t => scanAt x (o.identity ty) r.1 t, tag := .general, seed := r.2, e := e }

/-- A word of one predicate. -/
def predRowOf (I : Iss) (u tyOk : Bool) (p : BitVec 3) (srcs : List Opnd) (f : Nat → Bool) (e : Bool) : PredRow :=
  { need := I.needPred u tyOk srcs, dst := p.toNat, val := f, e := e }

end Sys2Proof.Machine
end

