-- ==== Sys2Proof/Certificates/Slice0/Obligations.lean ====
section
/-!
DEFINITION. The statements for the provers. The first part says, in terms of the state before, what each instruction leaves;
the obligations after it say that exec answers exactly that.
-/

namespace Sys2Proof.Claims

open Sys2Proof.Machine

/-! ### Words that write a data operand: one row for each -/

/-- An integer word of two sources. -/
def arithRow2 (s : State) (I : Iss) (u : Bool) (d a b : BitVec 7) (k l : Bool) (f : Int → Int → Int) (sat : Bool)
    (stride : Opnd → Opnd → Tag) (e : Bool) : Row :=
  let ty := I.S.ty
  let oa := dataOp ty a k
  let ob := dataOp ty b l
  fitRow s I u (upTo 7) (dataOp ty d) [oa, ob] (fun t j => f (I.G.opInt ty oa t j) (I.G.opInt ty ob t j)) sat (stride oa ob) e

/-- What the integer arithmetic writes (R102, R104, R105, R107, R152). -/
def arithRow (s : State) (I : Iss) : Instr → Option Row
  | .add u d a b k l e => some (arithRow2 s I u d a b k l (· + ·) I.S.sat (I.sumTag · · false) e)
  | .sub u d a b k l e => some (arithRow2 s I u d a b k l (· - ·) I.S.sat (I.sumTag · · true) e)
  | .mul u d a b k l e => some (arithRow2 s I u d a b k l (· * ·) I.S.sat I.mulTag e)
  | .mulhi u d a b k l e =>
    some (arithRow2 s I u d a b k l (fun x y => x * y / 2 ^ elemWidth I.S.ty) false (fun _ _ => .general) e)
  | .min u d a b k l e => some (arithRow2 s I u d a b k l (fun x y => if x ≤ y then x else y) false (fun _ _ => .general) e)
  | .max u d a b k l e => some (arithRow2 s I u d a b k l (fun x y => if x ≤ y then y else x) false (fun _ _ => .general) e)
  | .mad u d a b k l e =>
    let ty := I.S.ty
    let od := dataOp ty d
    let oa := dataOp ty a k
    let ob := dataOp ty b l
    some (fitRow s I u (upTo 7) od [od, oa, ob]
      (fun t j => I.G.opInt ty od t j + I.G.opInt ty oa t j * I.G.opInt ty ob t j) I.S.sat .general e)
  | .iopNeg u d a k e =>
    let ty := I.S.ty
    let oa := dataOp ty a k
    let m := if isWide ty then 2 ^ 64 else 2 ^ 32
    some (fitRow s I u (upTo 7) (dataOp ty d) [oa] (fun t j => -I.G.opInt ty oa t j) I.S.sat
      (.ofWidth (isWide ty) (m - (I.G.opTag oa).stride)) e)
  | .iopAbs u d a k e =>
    let ty := I.S.ty
    let oa := dataOp ty a k
    some (fitRow s I u (upTo 7) (dataOp ty d) [oa] (fun t j => ((I.G.opInt ty oa t j).natAbs : Int)) I.S.sat .general e)
  | .addi u d i e =>
    let ty := I.S.ty
    let od := dataOp ty d
    some (fitRow s I u (upTo 3) od [od] (fun t j => I.G.opInt ty od t j + i.toInt) I.S.sat (I.G.opTag od) e)
  | .muli u d i e =>
    let ty := I.S.ty
    let od := dataOp ty d
    some (fitRow s I u (upTo 3) od [od] (fun t j => I.G.opInt ty od t j * i.toInt) I.S.sat
      (.ofWidth (isWide ty) ((I.G.opTag od).stride * (i.toInt % 2 ^ 64).toNat)) e)
  | .shl u d a b k l e =>
    let ty := I.S.ty
    let oa := dataOp ty a k
    let ob := one b l
    let stride : Tag := match I.G.opTag ob with
      | .uniform => .ofWidth (isWide ty) ((I.G.opTag oa).stride * 2 ^ min (I.G.val ob.n 0).toNat 64)
      | _ => .general
    some (fitRow s I u (upTo 7 ++ [14]) (dataOp ty d) [oa, ob]
      (fun t j => I.G.opInt ty oa t j * 2 ^ min (I.G.shiftAmount ty ob t j) (2 * elemWidth ty)) (saturates I.S) stride e)
  | .shli u d a i k e =>
    let ty := I.S.ty
    let oa := dataOp ty a k
    some (fitRow s I u (upTo 7 ++ [14]) (dataOp ty d) [oa]
      (fun t j => I.G.opInt ty oa t j * 2 ^ min i.toNat (2 * elemWidth ty)) (saturates I.S)
      (.ofWidth (isWide ty) ((I.G.opTag oa).stride * 2 ^ min i.toNat 64)) e)
  | _ => none

/-- A bitwise word of two sources. -/
def logicRow2 (s : State) (I : Iss) (u : Bool) (d a b : BitVec 7) (k l : Bool) (f : Nat → Nat → Nat) (e : Bool) : Row :=
  let ty := I.S.ty
  let oa := dataOp ty a k
  let ob := dataOp ty b l
  plainRow s I u (logicTys ty) (dataOp ty d) [oa, ob] (fun t => f (I.G.op oa t) (I.G.op ob t)) (I.plainTag [oa, ob]) e

/-- A bitwise word with the zero-extended immediate. -/
def logicRowImm (s : State) (I : Iss) (u : Bool) (d : BitVec 7) (f : Nat → Nat) (e : Bool) : Row :=
  let ty := I.S.ty
  let od := dataOp ty d
  plainRow s I u (decide (ty ≤ 3) || ty == 14) od [od] (fun t => f (I.G.op od t)) (I.plainTag [od]) e

/-- A right shift or rotation of each element by register b, or by an immediate. -/
def shiftRow (s : State) (I : Iss) (u : Bool) (d a : BitVec 7) (b : Option (BitVec 7 × Bool)) (i : Nat) (k : Bool)
    (f : Nat → Nat → Nat → Nat) (e : Bool) : Row :=
  let ty := I.S.ty
  let oa := dataOp ty a k
  let srcs := match b with
    | some (b, l) => [oa, one b l]
    | none => [oa]
  let amount (t j : Nat) : Nat := match b with
    | some (b, l) => I.G.shiftAmount ty (one b l) t j
    | none => i
  plainRow s I u (logicTys ty) (dataOp ty d) srcs (fun t => shiftElem f ty (I.G.op oa t) (amount t)) (I.plainTag srcs) e

/-- What the bitwise words, the right shifts and the rotation write (R102, R106, R107). -/
def logicRow (s : State) (I : Iss) : Instr → Option Row
  | .and u d a b k l e => some (logicRow2 s I u d a b k l (· &&& ·) e)
  | .or u d a b k l e => some (logicRow2 s I u d a b k l (· ||| ·) e)
  | .xor u d a b k l e => some (logicRow2 s I u d a b k l (· ^^^ ·) e)
  | .iopNot u d a k e =>
    let ty := I.S.ty
    let oa := dataOp ty a k
    some (plainRow s I u (logicTys ty) (dataOp ty d) [oa]
      (fun t => (if isWide ty then 2 ^ 64 - 1 else 2 ^ 32 - 1) - I.G.op oa t) (I.plainTag [oa]) e)
  | .andi u d i e => some (logicRowImm s I u d (· &&& i.toNat) e)
  | .ori u d i e => some (logicRowImm s I u d (· ||| i.toNat) e)
  | .xori u d i e => some (logicRowImm s I u d (· ^^^ i.toNat) e)
  | .shr u d a b k l e => some (shiftRow s I u d a (some (b, l)) 0 k shrElem e)
  | .sar u d a b k l e => some (shiftRow s I u d a (some (b, l)) 0 k sarElem e)
  | .rot u d a b k l e => some (shiftRow s I u d a (some (b, l)) 0 k rotElem e)
  | .shri u d a i k e => some (shiftRow s I u d a none i.toNat k shrElem e)
  | .sari u d a i k e => some (shiftRow s I u d a none i.toNat k sarElem e)
  | _ => none

/-- A word of `iop` on a data operand. -/
def iopRow (s : State) (I : Iss) (u tyOk : Bool) (d a : BitVec 7) (k : Bool) (f : Nat → Nat) (e : Bool) : Row :=
  let oa := dataOp I.S.ty a k
  plainRow s I u tyOk (dataOp I.S.ty d) [oa] (fun t => f (I.G.op oa t)) (I.plainTag [oa]) e

/-- A word of `iop` on single registers. -/
def iopRow1 (s : State) (I : Iss) (u : Bool) (d a : BitVec 7) (k : Bool) (f : Nat → Nat) (e : Bool) : Row :=
  plainRow s I u true (one d) [one a k] (fun t => f (I.G.val a.toNat t).toNat) (I.plainTag [one a k]) e

/-- What selection, addresses, bit fields, bit counts and moves write (R109 to R112, R114, R116). -/
def moveRow (s : State) (I : Iss) : Instr → Option Row
  | .sel u d a b k l e =>
    let ty := I.S.ty
    some (plainRow s I u true (dataOp ty d) [dataOp ty a k, dataOp ty b l]
      (fun t => if I.G.pred I.S.selP t then I.G.op (dataOp ty a k) t else I.G.op (dataOp ty b l) t) .general e)
  | .lea u d a b k l e =>
    let ty := I.S.ty
    let oa := pairOp a k
    let ob := dataOp ty b l
    let ext (t : Nat) : Int := if ty = 0 then elemInt true 32 (I.G.op ob t) else I.G.op ob t
    let stride : Tag := match I.G.opTag oa, I.G.opTag ob with
      | .uniform, .affine st => leaTag ext st.toInt I.S.lsc
      | .uniform, .affine64 st => .ofStride64 (st * BitVec.ofNat 64 (2 ^ I.S.lsc))
      | .affine64 st, .uniform => .ofStride64 st
      | _, _ => .general
    some (plainRow s I u (decide (ty ≤ 3)) (pairOp d) [oa, ob]
      (fun t => ((I.G.op oa t + ext t * 2 ^ I.S.lsc) % 2 ^ 64).toNat) (if I.allUniform [oa, ob] then .uniform else stride) e)
  | .leai u d a i k e =>
    let oa := pairOp a k
    some (plainRow s I u true (pairOp d) [oa]
      (fun t => ((I.G.op oa t + i.toInt * 2 ^ I.S.lsc) % 2 ^ 64).toNat) (I.shape [oa] false (I.G.opTag oa)) e)
  | .bfe u d a b k l e =>
    let oa := dataOp I.S.ty a k
    let ob := dataOp I.S.ty b l
    some (plainRow s I u (bitsTys I.S.ty) (dataOp I.S.ty d) [oa, ob]
      (fun t =>
        let (pos, len) := fieldOf (I.G.op ob t)
        let f := I.G.op oa t / 2 ^ pos % 2 ^ len
        if len = 0 then 0 else if I.S.ty = 0 then ((elemInt true len f) % 2 ^ 32).toNat else f) (I.plainTag [oa, ob]) e)
  | .bfi u d a b k l e =>
    let od := dataOp I.S.ty d
    let oa := dataOp I.S.ty a k
    let ob := dataOp I.S.ty b l
    some (plainRow s I u (bitsTys I.S.ty) od [od, oa, ob]
      (fun t =>
        let (pos, len) := fieldOf (I.G.op ob t)
        let x := I.G.op od t
        x - x / 2 ^ pos % 2 ^ len * 2 ^ pos + I.G.op oa t % 2 ^ len * 2 ^ pos) (I.plainTag [od, oa, ob]) e)
  | .prmt u d a b k l e =>
    let od := dataOp I.S.ty d
    let oa := dataOp I.S.ty a k
    let ob := dataOp I.S.ty b l
    some (plainRow s I u (bitsTys I.S.ty) od [od, oa, ob]
      (fun t => joinElems 8 4 fun i => permuteByte (I.G.op oa t + 2 ^ 32 * I.G.op od t) (I.G.op ob t / 256 ^ i % 256))
      (I.plainTag [od, oa, ob]) e)
  | .iopPopc u d a k e => some (iopRow s I u (countTys I.S.ty) d a k (onesIn (elemWidth I.S.ty)) e)
  | .iopClz u d a k e => some (iopRow s I u (countTys I.S.ty) d a k (fun x => elemWidth I.S.ty - bitLen x) e)
  | .iopCtz u d a k e => some (iopRow s I u (countTys I.S.ty) d a k (trailingZeros (elemWidth I.S.ty)) e)
  | .iopBrev u d a k e =>
    let w := elemWidth I.S.ty
    some (iopRow s I u (countTys I.S.ty) d a k (fun x => joinElems 1 w fun i => x / 2 ^ (w - 1 - i)) e)
  | .iopSx8 u d a k e => some (iopRow1 s I u d a k (fun x => (elemInt true 8 (x % 256) % 2 ^ 32).toNat) e)
  | .iopSx16 u d a k e => some (iopRow1 s I u d a k (fun x => (elemInt true 16 (x % 65536) % 2 ^ 32).toNat) e)
  | .iopZx8 u d a k e => some (iopRow1 s I u d a k (· % 256) e)
  | .iopZx16 u d a k e => some (iopRow1 s I u d a k (· % 65536) e)
  | .iopMov u d a k e =>
    let oa := dataOp I.S.ty a k
    some (plainRow s I u true (dataOp I.S.ty d) [oa] (fun t => I.G.op oa t) (I.shape [oa] false (I.G.opTag oa)) e)
  | .iopMovp u d a e =>
    some (plainRow s I u true (one d) [] (fun t => (I.G.pred a.toNat t).toNat) (if a = 0#3 then .uniform else .general) e)
  | .movi u d i e =>
    some (plainRow s I u true (dataOp I.S.ty d) []
      (fun _ => (i.toInt % 2 ^ (if isWide I.S.ty then 64 else 32)).toNat) .uniform e)
  | .movhi u d i e =>
    let od := one d
    some (plainRow s I u true od [od] (fun t => i.toNat * 65536 + I.G.op od t % 65536) (I.plainTag [od]) e)
  | _ => none

/-- What the words of the scalarisation unit, special registers and time write (R159 to R164, R446). -/
def unitRow (s : State) (I : Iss) : Instr → Option Row
  | .voteBallot d a e => some (plainRow s I false true (one d) [] (fun _ => (I.G.predMask a.toNat &&& I.act).toNat) .uniform e)
  | .voteMask d e => some (plainRow s I false true (one d) [] (fun _ => I.act.toNat) .uniform e)
  | .shfl u d a w v k e =>
    let ty := I.S.ty
    let od := dataOp ty d
    let oa := dataOp ty a k
    let src (t : Nat) : Option Nat := (shflSource I.S.shm (shflWidth w) v.toNat t).filter fun x => I.act.getLsbD x
    let all := (threadsOf I.act).all fun t => (src t).isSome
    let tag : Tag :=
      if I.G.opTag oa == .uniform && all then .uniform
      else if I.S.shm == 0 && w == 0#2 && (I.G.opTag oa).flat && I.act.getLsbD v.toNat then .uniform else .general
    some (plainRow s I u true od [od, oa] (fun t => match src t with
      | some x => I.G.op oa x
      | none => I.G.op od t) tag e)
  | .bcast u d a b k l e =>
    let oa := dataOp I.S.ty a k
    let x := (I.G.val b.toNat (lowest I.act)).toNat % 32
    some (plainRow s I u true (dataOp I.S.ty d) [oa, one b l]
      (fun _ => I.G.op oa (if I.act.getLsbD x then x else lowest I.act)) .uniform e)
  | .sreg _ d n e =>
    some (plainRow s I false true (one d) [] (fun t => s.sreg I n.toNat t) (if n.toNat < 2 then .affine 1#32 else .uniform) e)
  | .utagKind d a _ e =>
    some { plainRow s I false true (one d) [] (fun _ => (I.G.reg a.toNat).tag.kind) .uniform e with
           need := { (I.need false true [one d] [] .uniform) with regs := [d.toNat, a.toNat] } }
  | .utagStride d a _ e =>
    some { plainRow s I false true (one d) [] (fun _ => (I.G.reg a.toNat).tag.stride) .uniform e with
           need := { (I.need false true [one d] [] .uniform) with regs := [d.toNat, a.toNat] } }
  | .tmrNow u d e => some (plainRow s I u true (pairOp d) [] (fun _ => s.time I.die) .uniform e)
  | .tmrFrame u d e => some (plainRow s I u true (one d) [] (fun _ => s.frame.toNat) .uniform e)
  | .unpkTag u d a k e =>
    let oa := quadOp a k
    some (plainRow s I u true (one d) [oa]
      (fun t => cTag (I.container oa t) + 16 * cFailing (I.container oa t)) (I.plainTag [oa]) e)
  | _ => none

/-- The tag of a converted time: that of its source where the values have its shape (R151, R446). -/
def timeTag (I : Iss) (o : Opnd) (f : Nat → Nat) : Tag :=
  match I.G.opTag o with
  | .uniform => .uniform
  | .affine64 st => if (List.range 32).all fun t =>
      BitVec.ofNat 64 (f (I.G.op o t)) == BitVec.ofNat 64 (f (I.G.op o 0)) + st * BitVec.ofNat 64 t then .affine64 st else .general
  | _ => .general

/-- What the conversions between the dies' time counters write: all ones where the die of the form is absent (R445,
R446). -/
def timeRow (s : State) (I : Iss) : Instr → Option Row
  | .tmrTo u d a j k e =>
    let oa := pairOp a k
    let f (t : Nat) : Nat := if s.present j.toNat then s.convert I.die j.toNat t else 2 ^ 64 - 1
    some (plainRow s I u true (pairOp d) [oa] (fun t => f (I.G.op oa t)) (timeTag I oa f) e)
  | .tmrFrom u d a j k e =>
    let oa := pairOp a k
    let f (t : Nat) : Nat := if s.present j.toNat then s.convert j.toNat I.die t else 2 ^ 64 - 1
    some (plainRow s I u true (pairOp d) [oa] (fun t => f (I.G.op oa t)) (timeTag I oa f) e)
  | _ => none

/-- A word whose elements are each the one rounding of an exact value, with overflow and flush (R58 to R61, R134). -/
def exactRow (s : State) (I : Iss) (u : Bool) (d : BitVec 7) (srcs : List Opnd) (f : Nat → Nat → FVal) (e : Bool) : Row :=
  let ty := I.S.ty
  roundRow s I u (floatUpTo ty 13) (dataOp ty d) srcs (elemCount ty) (elemWidth ty)
    (fun t j => I.S.finish I.S.fmtOf (f t j)) e

/-- A word of two floating-point sources. -/
def floatRow2 (s : State) (I : Iss) (u : Bool) (d a b : BitVec 7) (k l : Bool) (f : FVal → FVal → FVal) (e : Bool) : Row :=
  let oa := dataOp I.S.ty a k
  let ob := dataOp I.S.ty b l
  exactRow s I u d [oa, ob] (fun t j => f (I.elemF oa t j) (I.elemF ob t j)) e

/-- A word to which d is the third source. -/
def floatRow3 (s : State) (I : Iss) (u : Bool) (d a b : BitVec 7) (k l : Bool) (f : FVal → FVal → FVal → FVal) (e : Bool) : Row :=
  let od := dataOp I.S.ty d
  let oa := dataOp I.S.ty a k
  let ob := dataOp I.S.ty b l
  exactRow s I u d [od, oa, ob] (fun t j => f (I.elemF od t j) (I.elemF oa t j) (I.elemF ob t j)) e

/-- What floating-point arithmetic writes (R134 to R136). -/
def floatRow (s : State) (I : Iss) : Instr → Option Row
  | .fadd u d a b k l e => some (floatRow2 s I u d a b k l (fun x y => sumVals I.S.rnd [x, y]) e)
  | .fsub u d a b k l e => some (floatRow2 s I u d a b k l (fun x y => sumVals I.S.rnd [x, y.neg]) e)
  | .fmul u d a b k l e => some (floatRow2 s I u d a b k l FVal.mul e)
  | .ffma u d a b k l e => some (floatRow3 s I u d a b k l (fun z x y => sumVals I.S.rnd [z, x.mul y]) e)
  | .ffms u d a b k l e => some (floatRow3 s I u d a b k l (fun z x y => sumVals I.S.rnd [x.mul y, z.neg]) e)
  | .fmin u d a b k l e =>
    let oa := dataOp I.S.ty a k
    let ob := dataOp I.S.ty b l
    some (elemRow s I u (floatUpTo I.S.ty 13) (dataOp I.S.ty d) [oa, ob]
      (fun t j => I.S.fmtOf.minMax false (I.elemRaw oa t j) (I.elemRaw ob t j)) e)
  | .fmax u d a b k l e =>
    let oa := dataOp I.S.ty a k
    let ob := dataOp I.S.ty b l
    some (elemRow s I u (floatUpTo I.S.ty 13) (dataOp I.S.ty d) [oa, ob]
      (fun t j => I.S.fmtOf.minMax true (I.elemRaw oa t j) (I.elemRaw ob t j)) e)
  | .fscl u d a b k l e =>
    let oa := dataOp I.S.ty a k
    let w := min 32 (elemWidth I.S.ty)
    some (exactRow s I u d [oa, one b l]
      (fun t j => (I.elemF oa t j).scale (elemInt true w (elemOf w j (I.G.val b.toNat t).toNat))) e)
  | .fdot2 u d a b k l e =>
    let x (n : BitVec 7) (t j : Nat) : FVal := I.elemF (one n) t j
    some (roundRow s I u (I.S.ty == 10 || I.S.ty == 11) (one d) [one d, one a k, one b l] 1 32
      (fun t _ => I.S.finish .f32 (sumVals I.S.rnd
        [Fmt.f32.value (Fmt.f32.flush I.S.flushes (I.G.val d.toNat t).toNat), (x a t 0).mul (x b t 0), (x a t 1).mul (x b t 1)])) e)
  | .lrec u d a b k l e =>
    let ty := I.S.ty
    let f := I.S.fmtOf
    let x (r : BitVec 7) (t j : Nat) : FVal := f.value (elemOf f.width j (I.G.val r.toNat t).toNat)
    some (roundRow s I u (ty == 8 || ty == 10 || ty == 11) (one d) [one d, one a k, one b l] 1 32
      (fun t _ seed => (List.range (if ty = 8 then 1 else 2)).foldl (fun acc j =>
        Fmt.f32.ofVal I.S.rnd I.S.sat (sumVals I.S.rnd [(x a t j).mul (Fmt.f32.value acc.1), x b t j]) acc.2)
        ((I.G.val d.toNat t).toNat, seed)) e)
  | _ => none

/-- A rounded function of each element. -/
def funRow (s : State) (I : Iss) (u tyOk : Bool) (d a : BitVec 7) (k : Bool) (fn : Fun) (e : Bool) : Row :=
  let ty := I.S.ty
  let oa := dataOp ty a k
  let f := I.S.fmtOf
  roundRow s I u tyOk (dataOp ty d) [oa] (elemCount ty) (elemWidth ty)
    (fun t j seed => let r := f.apply fn I.S.rnd I.S.sat (I.elemF oa t j) seed; (f.flush I.S.flushes r.1, r.2)) e

/-- A unary word of exact elements. -/
def signRow (s : State) (I : Iss) (u : Bool) (d a : BitVec 7) (k : Bool) (f : Fmt → Nat → Nat) (e : Bool) : Row :=
  let oa := dataOp I.S.ty a k
  elemRow s I u (floatUpTo I.S.ty 13) (dataOp I.S.ty d) [oa] (fun t j => f I.S.fmtOf (I.elemRaw oa t j)) e

/-- What the unary floating-point words and the conversions write (R132, R138 to R143). -/
def unaryRow (s : State) (I : Iss) : Instr → Option Row
  | .fopFneg u d a k e => some (signRow s I u d a k (fun f x => f.withSign (!·) x) e)
  | .fopFabs u d a k e => some (signRow s I u d a k (fun f x => f.withSign (fun _ => false) x) e)
  | .fopFclass u d a k e => some (signRow s I u d a k Fmt.classOf e)
  | .fopFrcp u d a k e => some (funRow s I u (floatUpTo I.S.ty 11) d a k .rcp e)
  | .fopFrsq u d a k e => some (funRow s I u (floatUpTo I.S.ty 11) d a k .rsq e)
  | .fopFsqrt u d a k e => some (funRow s I u (floatUpTo I.S.ty 11) d a k .sqrt e)
  | .fopFex2 u d a k e => some (funRow s I u (transcendental I.S.ty) d a k .ex2 e)
  | .fopFlg2 u d a k e => some (funRow s I u (transcendental I.S.ty) d a k .lg2 e)
  | .fopFsin u d a k e => some (funRow s I u (transcendental I.S.ty) d a k .sin e)
  | .fopFcos u d a k e => some (funRow s I u (transcendental I.S.ty) d a k .cos e)
  | .fopFtanh u d a k e => some (funRow s I u (transcendental I.S.ty) d a k .tanh e)
  | .fopFrni u d a k e => some (funRow s I u (floatUpTo I.S.ty 13) d a k .rni e)
  | .fopFrzi u d a k e => some (funRow s I u (floatUpTo I.S.ty 13) d a k .rzi e)
  | .fopFrpi u d a k e => some (funRow s I u (floatUpTo I.S.ty 13) d a k .rpi e)
  | .fopFrmi u d a k e => some (funRow s I u (floatUpTo I.S.ty 13) d a k .rmi e)
  | .fopFfract u d a k e => some (funRow s I u (floatUpTo I.S.ty 13) d a k .fract e)
  | .cvt u d a t k e =>
    let ty := I.S.ty
    let dt := t.toNat
    let oa := dataOp ty a k
    let bits := elemCount ty * elemWidth dt
    some (roundRow s I u (decide (ty ≤ 13) && decide (bits < 128)) { n := d.toNat, cnt := if bits = 64 then 2 else 1 } [oa]
      (elemCount ty) (elemWidth dt) (fun t j => convertElem ty dt I.S.rnd I.S.sat (I.elemRaw oa t j)) e)
  | .pack u d a b k l e =>
    let ty := I.S.ty
    let src := packSource ty
    let half := elemCount ty / 2
    some (roundRow s I u ((decide (4 ≤ ty) && decide (ty ≤ 7)) || (decide (10 ≤ ty) && decide (ty ≤ 13))) (one d)
      [one a k, one b l] (elemCount ty) (elemWidth ty)
      (fun t j => convertElem src ty I.S.rnd I.S.sat
        (elemOf (elemWidth src) (j % half) (I.G.val (if j < half then a.toNat else b.toNat) t).toNat)) e)
  | _ => none

/-- What the ordered sums of a group write (R69, R162, R330). -/
def foldRow (s : State) (I : Iss) : Instr → Option Row
  | .gredAdd u d a k e => some (redRow s I u d a k .add e)
  | .gredMin u d a k e => some (redRow s I u d a k .min e)
  | .gredMax u d a k e => some (redRow s I u d a k .max e)
  | .gredAnd u d a k e => some (redRow s I u d a k .and e)
  | .gredOr u d a k e => some (redRow s I u d a k .or e)
  | .gredXor u d a k e => some (redRow s I u d a k .xor e)
  | .gscanAdd d a x k e => some (scanRow s I d a x k .add e)
  | .gscanMin d a x k e => some (scanRow s I d a x k .min e)
  | .gscanMax d a x k e => some (scanRow s I d a x k .max e)
  | .gscanAnd d a x k e => some (scanRow s I d a x k .and e)
  | .gscanOr d a x k e => some (scanRow s I d a x k .or e)
  | .gscanXor d a x k e => some (scanRow s I d a x k .xor e)
  | .gscanMul d a x k e => some (scanRow s I d a x k .mul e)
  | .gscanAff d a x k e =>
    let oa := pairOp a k
    let A (t : Nat) : Nat := (I.G.part oa.n 0 t).toNat
    let B (t : Nat) : Nat := (I.G.part oa.n 1 t).toNat
    let step (p : Nat × Nat) (t : Nat) (sd : BitVec 24) : (Nat × Nat) × BitVec 24 :=
      let (sA, sd) := fma32 I.S.rnd I.S.sat (A t) p.1 none sd
      let (sB, sd) := fma32 I.S.rnd I.S.sat (A t) p.2 (some (B t)) sd
      ((sA, sB), sd)
    let seed := (s.lane I.G.lane).seed
    let r := match threadsOf I.act with
      | [] => ([], seed)
      | t0 :: rest =>
        let p0 := (ownValue 8 (A t0), ownValue 8 (B t0))
        let (l, sd) := runFold step p0 seed rest
        ((t0, p0) :: l, sd)
    some { need := I.need false (I.S.ty == 8) [pairOp d] [oa] .general, dst := pairOp d
           val := fun t => let p := scanAt x (0x3F800000, 0) r.1 t; p.1 + p.2 * 2 ^ 32, tag := .general, seed := r.2, e := e }
  | _ => none

/-! ### Words that write a predicate -/

/-- What the compares and the words on predicates write (R113 to R115, R137, R148, R159). -/
def compareRow (I : Iss) : Instr → Option PredRow
  | .cmp u c p a b k l e =>
    let ty := I.S.ty
    let oa := dataOp ty a k
    let ob := dataOp ty b l
    some (predRowOf I u (countTys ty) p [oa, ob]
      (fun t => intCond c.toNat (I.G.opInt ty oa t 0) (I.G.opInt ty ob t 0) (I.G.op oa t) (I.G.op ob t)) e)
  | .cmpi u c p a i k e =>
    let ty := I.S.ty
    let oa := dataOp ty a k
    let x : Int := if isSigned ty then i.toInt else i.toNat
    some (predRowOf I u (countTys ty) p [oa]
      (fun t => intCond c.toNat (I.G.opInt ty oa t 0) x (I.G.op oa t) (x % 2 ^ elemWidth ty).toNat) e)
  | .fcmp u c p a b k l e =>
    let ty := I.S.ty
    let oa := dataOp ty a k
    let ob := dataOp ty b l
    some (predRowOf I u (floatUpTo ty 13) p [oa, ob] (fun t => (List.range (elemCount ty)).all fun j =>
      floatCond c.toNat (I.S.fmtOf.value (I.elemRaw oa t j)) (I.S.fmtOf.value (I.elemRaw ob t j))) e)
  | .iopPmov u d a k e => some (predRowOf I u true d [one a k] (fun t => I.G.val a.toNat t != 0#32) e)
  | .plog u d a b t e =>
    some (predRowOf I u true d [] (fun x => truthTable t (I.G.pred a.toNat x) (I.G.pred b.toNat x)) e)
  | .voteAll d a e => some (predRowOf I false true d [] (fun _ => (threadsOf I.act).all fun t => I.G.pred a.toNat t) e)
  | .voteAny d a e => some (predRowOf I false true d [] (fun _ => (threadsOf I.act).any fun t => I.G.pred a.toNat t) e)
  | .voteEq u d a k e =>
    some (predRowOf I u true d [one a k]
      (fun _ => (threadsOf I.act).all fun t => I.G.val a.toNat t == I.G.val a.toNat (lowest I.act)) e)
  | .feTest d a e =>
    some { need := { regs := [a.toNat], mask := I.act }, dst := d.toNat, val := fun _ => (I.G.reg a.toNat).full, e := e }
  | _ => none

/-- The sum or difference of a carry-chain word with its carry or borrow (R108). -/
def carryAt (I : Iss) (a b : BitVec 7) (f : Nat → Nat → Bool → Nat × Bool) (t : Nat) : Nat × Bool :=
  f (I.G.op (dataOp I.S.ty a) t) (I.G.op (dataOp I.S.ty b) t) (I.S.selP != 0 && I.G.pred I.S.selP t)

/-- What a carry-chain word writes besides its carry: where mode.sp is 0 there is no carry (R108). -/
def carryRow (s : State) (I : Iss) : Instr → Option (Row × (Nat → Bool))
  | .addc u d a b k l e =>
    let oa := dataOp I.S.ty a k
    let ob := dataOp I.S.ty b l
    let tag := if I.S.selP = 0 then I.plainTag [oa, ob] else .general
    some (plainRow s I u (bitsTys I.S.ty) (dataOp I.S.ty d) [oa, ob] (fun t => (carryAt I a b addCarry t).1) tag e,
      fun t => (carryAt I a b addCarry t).2)
  | .subc u d a b k l e =>
    let oa := dataOp I.S.ty a k
    let ob := dataOp I.S.ty b l
    let tag := if I.S.selP = 0 then I.plainTag [oa, ob] else .general
    some (plainRow s I u (bitsTys I.S.ty) (dataOp I.S.ty d) [oa, ob] (fun t => (carryAt I a b subBorrow t).1) tag e,
      fun t => (carryAt I a b subBorrow t).2)
  | _ => none

/-! ### Words with another effect: the state that each leaves

Each family below answers, for an instruction of the family, what the checks of R90 need and the state after its own
effect; no state where a further condition of its rule (stated beside it) sends the word elsewhere. -/

/-- A word that needs nothing of R90. -/
def always : Need := { mask := fullMask }

/-- The state in which a region boundary has its effect: its wait for error status is over (R43, R336). A word that resumes
after its wait has been at its boundary before (R30). -/
def throughBoundary (s : State) (I : Iss) : Option State :=
  if I.S.released ∨ I.S.counted then some s
  else match s.boundary I with
    | (t, false) => some t
    | _ => none

/-- The same for a word that a transaction open in a thread of a mask forbids (R251). -/
def atBoundary (s : State) (I : Iss) (m : Mask) : Option State :=
  if I.inTx m then none else throughBoundary s I

/-- The split's own registers change, which an open transaction forbids (R126, R127, R251). -/
def splitWord (s : State) (I : Iss) (f : Split → Split) (e : Bool) : Option State :=
  if I.inTx I.S.mask then none else some ((s.modSplit I.gid I.sid f).advance I e)

/-- A `brk` goes on, or stops its split where the context is debugged (R124, R422). -/
def brkAfter (s : State) (I : Iss) (n : Nat) : State :=
  if I.trapped || !(s.ctx I.G.ctx).dbg then s.advance I true
  else ((s.note I { code := codeBreakpoint, tmask := I.act, detail := n } 0).advance I true).modSplit I.gid I.sid
    fun p => { p with st := .brk }

/-- A `region` leaves its boundary, which waits for no error status to be taken (R43, R126). -/
def regionAfter (s : State) (I : Iss) (e : Bool) : Option State :=
  if I.inTx I.S.mask then none
  else match s.boundary I true false with
    | (t, false) => some (t.newRegion I e)
    | _ => none

/-- An `rsize` leaves the new allotment: a smaller one once no load, poll or matrix operation is outstanding at the registers
that go, a larger one once the lane has room (R145, R146, R306). -/
def rsizeAfter (s : State) (I : Iss) (n : Nat) (e : Bool) : Option State :=
  if I.inTx I.S.mask then none
  else if I.S.released then some (s.newRegion I e)
  else if I.trapped ∨ I.G.cap < n then none
  else (atBoundary s I I.S.mask).bind fun s =>
    let g := I.now s
    let busy := (upFrom n 1 (g.alloc - n)).any (fun r => g.produced r || g.splits.any fun p => p.pollRegs.contains r) ||
      s.mxops.any fun o => o.taken && !o.started && !o.done && s.takesPart I.gid o && decide (n < o.areg + 8)
    if n < g.alloc then
      if busy then none else some (((s.modGroup I.gid fun g => g.shrinkTo n).newRegion I e).testGrows I.G.wg)
    else if g.alloc < n ∧ s.poolOf I.G < s.otherAllotments I.gid + n then none
    else some ((s.modGroup I.gid fun g => g.growTo n).newRegion I e)

/-- What the control words leave that transfer nothing and end nothing (R87, R88, R123, R124, R126, R127, R129, R422). -/
def controlAfter (s : State) (I : Iss) : Instr → Option (Need × Option State)
  | .illegal _ => some (always, some (s.raise I { code := codeIllegalOpcode, tmask := I.act }))
  | .nop e => some (always, some (s.advance I e))
  | .trap n => some ({ mask := I.act }, some (s.raise I { code := codeTrapInstr, tmask := I.act, detail := n.toNat }))
  | .brk t => some ({ mask := I.act }, some (brkAfter s I t.toNat))
  | .modeLo i e => some (always, splitWord s I (fun p => { p with mode := p.mode.extractLsb' 16 16 ++ i }) e)
  | .modeHi i e => some (always, splitWord s I (fun p => { p with mode := i ++ p.mode.extractLsb' 0 16 }) e)
  | .fmtLo i e => some (always, splitWord s I (fun p => { p with fmt := p.fmt.extractLsb' 16 16 ++ i }) e)
  | .fmtHi i e => some (always, splitWord s I (fun p => { p with fmt := i ++ p.fmt.extractLsb' 0 16 }) e)
  | .region e => some ({ mask := I.S.mask }, regionAfter s I e)
  | .rsize i e => some ({ mask := I.S.mask }, rsizeAfter s I (8 * i.toNat) e)
  | _ => none

/-- An `exit` ends its threads, outside trap mode (R28, R123, R422). -/
def endAfter (s : State) (I : Iss) : Instr → Option (Need × Option State)
  | .exit => some ({ mask := I.act }, if I.trapped then none else (atBoundary s I I.act).map (·.exitThreads I))
  | _ => none

/-- What the words on tags and full bits leave, those that write no data result (R148, R164). -/
def tagAfter (s : State) (I : Iss) : Instr → Option (Need × Option State)
  | .utagGen a _ e => some ({ regs := [a.toNat], mask := I.act },
      some (s.modGroup I.gid fun g => (g.putReg a.toNat { g.reg a.toNat with tag := .general }).advance I.sid e))
  | .utagChk a k e => some (I.need false true [] [one a k] .uniform,
      some (s.modGroup I.gid fun g =>
        (g.putReg a.toNat { g.reg a.toNat with tag := tagOfVals (g.reg a.toNat).vals }).advance I.sid e))
  | .utagChk64 a k e =>
    let n := 2 * a.toNat
    some (I.need false true [] [pairOp a k] .uniform,
      some (s.modGroup I.gid fun g =>
        let tag := tagOfPair (g.reg n).vals (g.reg (n + 1)).vals
        let h := if n = 0 then g else
          (g.setTag n tag).setTag (n + 1) (if tag = .uniform then .uniform else .general)
        h.advance I.sid e))
  | .feEmpty d e => some ({ regs := [d.toNat], mask := fullMask },
      if I.G.alloc ≤ d.toNat ∨ I.G.due [d.toNat] ≠ [] then none
      else some ((s.modGroup I.gid fun g =>
        if d.toNat = 0 then g
        else let h := g.splitPair d.toNat
          h.putReg d.toNat { h.reg d.toNat with full := false, tag := .general }).advance I e))
  | .feFill d a k e => some ({ (I.need false true [] [one a k] .uniform) with regs := [d.toNat, a.toNat] },
      if I.G.due [d.toNat] ≠ [] then none
      else some (s.modGroup I.gid fun g =>
        (g.write d.toNat I.act (fun t => g.val a.toNat t) (I.shape [one a k] false (I.G.opTag (one a k)))).advance I.sid e))
  | .feWait a k e => some (I.need false true [] [one a k] .uniform, some (s.advance I e))
  | _ => none

/-- A control transfer: its needs, the threads that take it, their targets, whether it is relative to the pc, and the
link pair that it writes (R117 to R119). -/
structure Jump where
  need : Need
  u : Bool
  taken : Nat → Bool
  target : Nat → Int
  relative : Bool := true
  link : Group → Group := id

/-- The transfers (R118, R119): a relative target is the next word's address and four times the signed immediate. -/
def jumpOf (I : Iss) : Instr → Option Jump
  | .bra u i => some { need := { mask := I.act }, u := u, taken := fun _ => true, target := fun _ => I.S.pc.toNat + 4 + 4 * i.toInt }
  | .brt u p i => some { need := { mask := I.act }, u := u, taken := fun t => I.G.pred p.toNat t, target := fun _ => I.S.pc.toNat + 4 + 4 * i.toInt }
  | .brf u p i => some { need := { mask := I.act }, u := u, taken := fun t => !I.G.pred p.toNat t, target := fun _ => I.S.pc.toNat + 4 + 4 * i.toInt }
  | .call u c i => some
      { need := I.need u true [pairOp c] [] .uniform, u := u, taken := fun _ => true, target := fun _ => I.S.pc.toNat + 4 + 4 * i.toInt
        link := fun g => g.writePair (2 * c.toNat) I.act (fun _ => I.S.pc + 4) .uniform }
  | .jmp u a k => some { need := I.need u true [] [pairOp a k] .uniform, u := u, taken := fun _ => true, relative := false, target := fun t => (I.G.pairVal (2 * a.toNat) t).toNat }
  | .ret u a k => some { need := I.need u true [] [pairOp a k] .uniform, u := u, taken := fun _ => true, relative := false, target := fun t => (I.G.pairVal (2 * a.toNat) t).toNat }
  | _ => none

/-- A thread takes the transfer. -/
def Jump.goes (j : Jump) (I : Iss) (t : Nat) : Bool := I.act.getLsbD t && j.taken t

/-- The paths of the split's threads: those that take the transfer go to their targets, every other goes on (R117). -/
def Jump.paths (j : Jump) (I : Iss) : List (DWord × Mask) :=
  pathsOf I.S.mask fun t => if j.goes I t then BitVec.ofInt 64 (j.target t) else I.S.pc + 4

/-- Every target is a canonical address, an absolute one a multiple of 4, and U = 1 finds one path (R118, R120). -/
def Jump.ok (j : Jump) (I : Iss) : Prop :=
  (∀ t, t < 32 → j.goes I t = true → targetOk (j.target t) = true ∧ (j.relative = false → j.target t % 4 = 0)) ∧
    (j.u = true → (j.paths I).length ≤ 1)

/-- The chunk of an error container, and a routine of the macro store (R144, R221, R223). -/
def chunkAfter (s : State) (I : Iss) : Instr → Option (Need × Option State)
  | .unpk u d a n c k e =>
    let oa := quadOp a k
    let tag := I.plainTag [oa]
    let bad : Mask := I.act &&& maskOf fun t => cFailing (I.container oa t) != 0
    let cs := if bad = 0#32 then [] else
      [{ code := codeParity, src := 0, mask := bad, va := none, pa := none
         detail := (s.recOf I { code := codeParity, tmask := bad } 2).detail : Consume }]
    some (I.need u true [one d] [oa] tag,
      if (threadsOf I.act).any fun t => cTag (I.container oa t) != n.toNat then none
      else match s.consumeAll I.gid (s.recOf I { code := codeParity, tmask := bad } 2) cs [d.toNat] with
        | (t, false) => some (t.result I (one d)
            (fun x => if bad.getLsbD x then 0 else unpkChunk n.toNat c.toNat (cPayload (I.container oa x))) tag e)
        | _ => none)
  | .mcall x y q r e => some (always,
      match (((s.gridOf I.G).map (·.image)).getD [])[r.toNat]? with
      | some slot =>
        if slot.bad.isSome then none
        else some (s.modSplit I.gid I.sid fun p => { p with
          call := some { routine := r.toNat, op := 0, last := slot.words.length == 1, x := x.toNat, y := y.toNat,
                         q := q.toNat, e := e } })
      | none => none)
  | _ => none

/-! ### Loads and stores (R166 to R177, R188, R190) -/

/-- A load by translated address: its U bit, destination, address operand, width, effective addresses, whether it is of
the private space, whether a window may be read, how a word is read, whether words may be read later and are then
sign-extended, how bytes become a value, what applies once after the reads, and E. -/
structure LoadWord where
  u : Bool
  d : Opnd
  a : Opnd
  n : Nat
  x : Nat → Int
  isPrivate : Bool := false
  windowOk : Bool
  rd : WordRead
  late : Option Bool := none
  ext : Nat → Nat := id
  after : State → State := id
  e : Bool

/-- The loads of the global and private spaces and the acquire load (R167, R170, R176, R188). -/
def loadOf (I : Iss) : Instr → Option LoadWord
  | .ldg u d a w f k e => some
      { u := u, d := memOp w d, a := pairOp a k, n := widthBytes w
        x := fun t => (I.G.pairVal (2 * a.toNat) t).toNat + f.toInt * widthBytes w
        windowOk := w == 2#3 || w == 3#3, rd := plainRead I, late := some (w == 5#3 || w == 6#3), ext := extendLoad w
        e := e }
  | .ldp u d a w f k e => some
      { u := u, d := memOp w d, a := pairOp a k, n := widthBytes w, isPrivate := true, windowOk := false
        x := fun t => (I.G.pairVal (2 * a.toNat) t).toNat + f.toInt * widthBytes w + max 4 (widthBytes w) * t
        rd := plainRead I, late := some (w == 5#3 || w == 6#3), ext := extendLoad w, e := e }
  | .lda u d a c w k e => some
      { u := u, d := syncOp w d, a := pairOp a k, n := syncBytes w, windowOk := true
        x := fun t => (I.G.pairVal (2 * a.toNat) t).toNat
        rd := acquireReader I c.toNat, after := fun s => s.acquireBy I c.toNat, e := e }
  | _ => none

/-- With U = 1 and a uniform base one access is made, in the name of the lowest thread (R172). -/
def oneAccess (I : Iss) (u : Bool) (a : Opnd) : Bool := u && I.G.opTag a == .uniform

/-- The threads that perform an access. -/
def performing (single : Bool) (live : Mask) : List Nat := if single then (threadsOf live).take 1 else threadsOf live

/-- The state after a load whose checks and translations pass and which the limit of lines admits: each thread has read
its bytes, but for those it may read later, and the destination awaits them as a producer's (R33, R44, R168, R170, R197). -/
def LoadWord.done (l : LoadWord) (s : State) (I : Iss) : Option State :=
  match s.reach I l.n (I.G.pairVal l.a.n) l.x { write := false, fetch := false, keys := true } l.windowOk with
  | .stop _ => none
  | .go s1 live ab xs =>
    match s1.capacity I false xs (fun t => (l.x t).toNat) live ab with
    | .stop _ => none
    | .go s2 live ab xs =>
      let single := oneAccess I l.u l.a && !l.isPrivate
      let s3 := s2.settleThreads I live xs (fun t => (l.x t).toNat) l.n { write := false, fetch := false, keys := true }
      let r := s3.readAll I l.rd l.late xs (fun t => (l.x t).toNat) l.n (performing single live)
      some ((l.after r.1).deliver s I l.d live ab single 2 (fun t => vaField (l.x t)) l.ext r.2 l.e)

/-- A store of the global or the private space. -/
structure StoreWord where
  u : Bool
  d : Opnd
  a : Opnd
  n : Nat
  x : Nat → Int
  isPrivate : Bool := false
  windowOk : Bool
  e : Bool

/-- The stores (R167, R171, R176). -/
def storeOf (I : Iss) : Instr → Option StoreWord
  | .stg u d a w f k m e => some
      { u := u, d := memOp w d m, a := pairOp a k, n := widthBytes w, windowOk := w == 2#3 || w == 3#3, e := e
        x := fun t => (I.G.pairVal (2 * a.toNat) t).toNat + f.toInt * widthBytes w }
  | .stp u d a w f k m e => some
      { u := u, d := memOp w d m, a := pairOp a k, n := widthBytes w, isPrivate := true, windowOk := false, e := e
        x := fun t => (I.G.pairVal (2 * a.toNat) t).toNat + f.toInt * widthBytes w + max 4 (widthBytes w) * t }
  | _ => none

/-- The state after a store whose checks and translations pass, which the limit of lines admits and which unwinds
nothing: each thread's bytes are stored, with one base the highest thread's; a thread whose table entry is poisoned stores
nothing (R44, R168, R171, R172, R355). -/
def StoreWord.done (w : StoreWord) (s : State) (I : Iss) : Option State :=
  match s.reach I w.n (I.G.pairVal w.a.n) w.x { write := true, fetch := false, keys := true } w.windowOk with
  | .stop _ => none
  | .go s1 live ab xs =>
    match s1.capacity I true xs (fun t => (w.x t).toNat) live ab with
    | .stop _ => none
    | .go s2 live ab xs =>
      let single := oneAccess I w.u w.a && !w.isPrivate
      let s3 := (performing single live).foldl (fun s t =>
        s.storeAt I xs t (w.x t).toNat w.n (I.G.storeData w.d w.n (if single then highest live else t)))
        (s2.settleThreads I live xs (fun t => (w.x t).toNat) w.n { write := true, fetch := false, keys := true })
      match s3.loseStores I live (fun t => vaField (w.x t)) (lostStores xs w.x (performing single live)) with
      | (s4, false, lost) => some (s4.endWord s I w.e (ab ++ lost))
      | _ => none

/-- The state after a release store whose checks and translations pass and which unwinds nothing: the release has been
made before any thread's words are written at the level of the scope (R190). -/
def releaseStore (s : State) (I : Iss) (u w : Bool) (d : Opnd) (a : Opnd) (scope : Nat) (e : Bool) : Option State :=
  (atBoundary s I I.act).bind fun s =>
    let n := syncBytes w
    let x (t : Nat) : Int := (I.G.pairVal a.n t).toNat + 0
    match s.reach I n (I.G.pairVal a.n) x { write := true, fetch := false, keys := true } true with
    | .stop _ => none
    | .go s1 live _ xs =>
      let single := oneAccess I u a
      let s2 := (performing single live).foldl (fun s t =>
        (List.range (n / 4)).foldl (fun s i =>
          match xlatOf xs ((x t).toNat + 4 * i) with
          | .ok pa policy key =>
            (s.levelWrite I.core pa scope policy
              (BitVec.ofNat 32 (I.G.storeData d n (if single then highest live else t) / 2 ^ (32 * i)))
              (s.metaFor I key ((x t).toNat + 4 * i)) (i == 0)).noteStore I.agid (0, pa)
              (BitVec.ofNat 32 (I.G.storeData d n (if single then highest live else t) / 2 ^ (32 * i))) scope
          | _ => s) s)
        ((s1.settleThreads I live xs (fun t => (x t).toNat) n { write := true, fetch := false, keys := true }).releaseBy I scope)
      match s2.loseStores I live (fun t => vaField (x t)) (lostStores xs x (performing single live)) with
      | (s3, false, _) => some (s3.newRegion I e)
      | _ => none

/-- A constant access (R167, R168, R177): a load of cbase and the offset, with no lines in any read set. -/
def constLoad (s : State) (I : Iss) (u : Bool) (d a : Opnd) (w : BitVec 3) (f : BitVec 4) (e : Bool) : Option State :=
  let n := widthBytes w
  let csize := ((s.gridOf I.G).map (·.csize)).getD 0
  let cbase := ((s.gridOf I.G).map (·.cbase)).getD 0
  let o (t : Nat) : Int := (I.G.val a.n t).toNat + f.toInt * n
  let x (t : Nat) : Int := ((cbase : Int) + o t) % 2 ^ 64
  let tx := I.txMask s
  let fine (t : Nat) : Bool := o t % n == 0 && decide (0 ≤ o t) && decide (o t < csize)
  if tx &&& I.act ≠ 0#32 ∨ (threadsOf I.act).any fun t => !fine t then none
  else
    match s.translateThreads I I.act [] (fun t => (x t).toNat) n { write := false, fetch := false, keys := true } false with
    | .stop _ => none
    | .go s1 live ab xs =>
      let single := oneAccess I u a
      let grid := ((s1.wg I.G.wg).map (·.grid)).getD 0
      let s2 := s1.settleThreads I live xs (fun t => (x t).toNat) n { write := false, fetch := false, keys := true }
      let txs := (I.now s2).txs
      let r := (s2.modGroup I.gid fun g => { g with txs := [] }).readAll I (constRead grid I.core (partOfLane I.G.lane)) none
        xs (fun t => (x t).toNat) n (performing single live)
      some ((r.1.modGroup I.gid fun g => { g with txs := txs }).deliver s I d live ab single 2 (fun t => vaField (x t))
        (extendLoad w) r.2 e)

/-- A scratchpad load: each thread's bytes at its offset, delivered as a load's, after the core's own stores there that are still on
their way to a peer (R167, R170, R174, R208). -/
def scratchLoad (s : State) (I : Iss) (u : Bool) (d a : Opnd) (w : BitVec 3) (f : BitVec 4) (e : Bool) : Option State :=
  let n := widthBytes w
  let o (t : Nat) : Int := (I.G.val a.n t).toNat + f.toInt * n
  match s.scratchReach I n o false with
  | .stop _ => none
  | .go s1 live ab _ =>
    let single := oneAccess I u a
    let ts := performing single live
    let at_ (t : Nat) : Nat × Nat := (s1.scratchAt (I.acting s1) (o t).toNat).getD (0, 0)
    let s2 := ts.foldl (fun s t => s.landScratch I.core (at_ t).1 (at_ t).2 n) s1
    let got := ts.map fun t => (t, s2.spGot (at_ t).1 (at_ t).2 n)
    some ((ts.foldl (fun s t => s.sawSp I (at_ t).1 (at_ t).2 n) s2).deliver s I d live ab single 2 (fun _ => none)
      (extendLoad w) got e)

/-- The place that a thread's scratchpad store writes: the workgroup and the offset (R167). -/
def scratchPlace (s : State) (I : Iss) (a : Opnd) (off : Int) (t : Nat) : Nat × Nat :=
  (s.scratchAt (I.acting s) ((I.G.val a.n t).toNat + off).toNat).getD (0, 0)

/-- A scratchpad store: each thread's bytes at its offset, in index order, at once into the own range and on their way into the
peer's; none to a line that a poisoned table entry keeps from being filled (R167, R171, R174, R208, R355). -/
def scratchStore (s : State) (I : Iss) (u : Bool) (d a : Opnd) (w : BitVec 3) (f : BitVec 4) (e : Bool) : Option State :=
  let n := widthBytes w
  let off := f.toInt * n
  if I.inTx I.act then none
  else
    match s.scratchReach I n (fun t => (I.G.val a.n t).toNat + off) true with
    | .stop _ => none
    | .go s1 live _ lost =>
      let single := oneAccess I u a
      let line (t : Nat) : Option Nat := spLost lost (scratchPlace s1 I a off) t
      let s2 := ((performing single live).filter fun t => (line t).isNone).foldl (fun s t =>
        let p := scratchPlace s1 I a off t
        (s.spStore (I.acting s1).wg p.1 p.2 (I.G.storeData d n (if single then highest live else t)) n
          (s.spMeta I p.1 p.2)).noteSp I p.1 p.2 n) s1
      match s2.loseStores I live line ((performing single live).filter fun t => (line t).isSome) with
      | (s3, false, _) => some (s3.advance I e)
      | _ => none

/-- A poll that begins: the threads' locations and expectations are remembered, the destination is empty until the end, and the
split suspends (R189). -/
def pollStart (s : State) (I : Iss) (u w : Bool) (d a : Opnd) (scope : Nat) (e : Bool) : Option State :=
  let x (t : Nat) : Int := (I.G.pairVal a.n t).toNat + 0
  if I.inTx I.act then none
  else
    match s.reach I (syncBytes w) (I.G.pairVal a.n) x { write := false, fetch := false, keys := true } false with
    | .stop _ => none
    | .go s1 live _ _ =>
      let single := oneAccess I u a
      some ((s1.modGroup I.gid fun g => g.markEmpty d.regs).suspend I (.poll d.n scope (syncBytes w)
        ((performing single live).map fun t => (t, (x t).toNat, I.G.data w d.n t)) (if single then some live else none) e))

/-- What the constant, scratchpad, poll and release accesses leave (R167 to R177, R189, R190). -/
def accessAfter (s : State) (I : Iss) : Instr → Option (Need × Option State)
  | .ldc u d a w f k e =>
    some (I.loadNeed u (memOp w d) [one a k], constLoad s I u (memOp w d) (one a k) w f e)
  | .lds u d a w f k e =>
    some (I.loadNeed u (memOp w d) [one a k], scratchLoad s I u (memOp w d) (one a k) w f e)
  | .sts u d a w f k m e =>
    some (I.need u true [] [memOp w d m, one a k] .uniform, scratchStore s I u (memOp w d m) (one a k) w f e)
  | .ldaPoll u d a c w k m e =>
    some (I.need u true [] [syncOp w d m, pairOp a k] .uniform, pollStart s I u w (syncOp w d m) (pairOp a k) c.toNat e)
  | .stl u d a c w k m e =>
    some (I.need u true [] [syncOp w d m, pairOp a k] .uniform, releaseStore s I u w (syncOp w d m) (pairOp a k) c.toNat e)
  | _ => none

/-- A cache word that acts on the line of each active thread whose page is mapped (R191). -/
def lineWord (s : State) (I : Iss) (u : Bool) (a : Opnd) (f : State → Nat → State) (e : Bool) : Need × Option State :=
  let x (t : Nat) : Nat := (I.G.pairVal a.n t).toNat
  (I.need u true [] [a] .uniform,
    if I.inTx I.act ∨ (threadsOf I.act).any fun t => !canonical (x t) then none
    else
      let k : AccessKind := { write := false, fetch := false, keys := true }
      let r := s.lookAll (laneTlbs I.G.lane) I.G.ctx k (pagesOf I.act x 1)
      some (((threadsOf I.act).foldl (fun s t => match xlatOf r.2 (x t) with
        | .ok pa _ _ => f s (lineOf pa)
        | _ => s) (r.1.settlePages (laneTlbs I.G.lane) I.G.ctx k r.2)).advance I e))

/-- A fence has its effect once it has harvested and every write that the core has sent is acknowledged (R208, R210). -/
def atAcknowledged (s : State) (I : Iss) : Option State :=
  (atBoundary s I I.act).filter fun t => !t.unacknowledged I.core

/-- What the cache words, prefetches, fences and window bindings leave (R178, R180, R191, R192, R210). -/
def cacheAfter (s : State) (I : Iss) : Instr → Option (Need × Option State)
  | .fenceFull c e => some ({ mask := I.act }, (atAcknowledged s I).map fun s =>
      ((((s.releaseBy I c.toNat).fenceOut I.agid c.toNat).acquireBy I c.toNat).fenceIn I.agid c.toNat).newRegion I e)
  | .fenceRel c e => some ({ mask := I.act }, (atAcknowledged s I).map fun s =>
      ((s.releaseBy I c.toNat).fenceOut I.agid c.toNat).newRegion I e)
  | .fenceAcq c e => some ({ mask := I.act }, (atAcknowledged s I).map fun s =>
      ((s.acquireBy I c.toNat).fenceIn I.agid c.toNat).newRegion I e)
  | .cacheWbl u a c k e => some (lineWord s I u (pairOp a k) (fun s l => s.lineWriteBack I.core c.toNat l) e)
  | .cacheInvl u a k e => some (lineWord s I u (pairOp a k) (fun s l =>
      { (s.lineWriteBack I.core 3 l) with
        l1 := (s.lineWriteBack I.core 3 l).l1.filter fun x => !(x.1.1 == I.core && lineOf x.1.2 == l) }) e)
  | .cacheWball c e => some ({ mask := I.act }, if I.inTx I.act then none else some ((s.writeBack I.core c.toNat).advance I e))
  | .cacheInvall e => some ({ mask := I.act }, if I.inTx I.act then none else some ((s.acquireBy I 4).advance I e))
  | .cacheSwb n e => some ({ mask := I.act }, if I.inTx I.act then none else
      some ((match (s.wg I.G.wg).bind fun x => mapFind x.windows n.toNat with
        | some win => s.winFlush I.G.wg fun a _ => decide (win.off ≤ a) && decide (a < win.off + win.len)
        | none => s).advance I e))
  | .pfm u v a w f k e => some (I.need u true [] [pairOp a k] .uniform,
      some (((threadsOf I.act).foldl (fun s t =>
        let x : Int := (I.G.pairVal (2 * a.toNat) t).toNat + f.toInt * widthBytes w
        if decide (0 ≤ x) && canonical x.toNat then s.prefetch I v.toNat x.toNat else s) s).advance I e))
  | .smap n a b k l e =>
    let oa := pairOp a k
    let ob := pairOp b l
    let t := lowest I.S.mask
    let va := (I.G.pairVal oa.n t).toNat
    let off := (I.G.part ob.n 0 t).toNat
    let len := (I.G.part ob.n 1 t).toNat
    let size := ((s.gridOf I.G).map Grid.scratchBytes).getD 0
    let ok := ((s.wg I.G.wg).map fun x => x.windowOk size n.toNat va off len).getD false
    some ({ I.need false true [] [oa, ob] .uniform with
            mask := I.S.mask, uOk := I.G.opTag oa == .uniform && I.G.opTag ob == .uniform },
      if len ≠ 0 ∧ (!ok ∨ !canonical va ∨ !canonical (va + len - 1)) then none
      else (atBoundary s I I.S.mask).bind fun s =>
        let s := s.winUnbind I.G.wg n.toNat
        if len = 0 then some (s.newRegion I e)
        else if (s.wg I.G.wg).any fun x => x.busyRange off len then none
        else some ((s.winBind I.G.wg n.toNat va off len).newRegion I e))
  | _ => none

/-! ### Atomics (R235 to R242) -/

/-- An atomic word: its needs, whether it acts on a scratchpad, its scope, whether it is of two registers, whether host
memory can perform it, whether it acquires, its address operand, the new value of a location for a thread (none leaves
it alone), what the destinations and the predicate take from what the threads found there, and E. -/
structure AtomWord where
  need : Need
  sp : Bool
  scope : Nat
  wide : Bool
  hostOk : Bool
  acquires : Bool
  a : Opnd
  f : Nat → Nat → Option Nat
  out : List (Nat × Done) → Option AtomOut
  e : Bool

/-- An `amo`, which returns the old values, or a `red`, which returns nothing (R239). -/
def amoOf (I : Iss) (u : Bool) (d a : BitVec 7) (c : BitVec 3) (t k m : Bool) (o : AtomOp) (returns e : Bool) : AtomWord :=
  let ty := I.S.ty
  let od := dataOp ty d m
  { need := I.need u (o.tyOk ty) [] [od, atomAddr t a k] .uniform, sp := t, scope := c.toNat, wide := isWide ty
    hostOk := o.hostOk ty, acquires := returns, a := atomAddr t a k
    f := fun x old => some (o.apply ty old (I.G.op od x))
    out := fun l => if returns then some (oldValues ty od l, none) else none, e := e }

/-- The atomics (R239, R242): `cas` stores the new value where it finds the expected one. Its U bit judges the two each by itself
(R237). -/
def atomOf (I : Iss) : Instr → Option AtomWord
  | .amoAdd u d a c t k m e => some (amoOf I u d a c t k m .add true e)
  | .amoMin u d a c t k m e => some (amoOf I u d a c t k m .min true e)
  | .amoMax u d a c t k m e => some (amoOf I u d a c t k m .max true e)
  | .amoAnd u d a c t k m e => some (amoOf I u d a c t k m .and true e)
  | .amoOr u d a c t k m e => some (amoOf I u d a c t k m .or true e)
  | .amoXor u d a c t k m e => some (amoOf I u d a c t k m .xor true e)
  | .amoExch u d a c t k m e => some (amoOf I u d a c t k m .exch true e)
  | .amoIncw u d a c t k m e => some (amoOf I u d a c t k m .incw true e)
  | .redAdd u d a c t k m e => some (amoOf I u d a c t k m .add false e)
  | .redMin u d a c t k m e => some (amoOf I u d a c t k m .min false e)
  | .redMax u d a c t k m e => some (amoOf I u d a c t k m .max false e)
  | .redAnd u d a c t k m e => some (amoOf I u d a c t k m .and false e)
  | .redOr u d a c t k m e => some (amoOf I u d a c t k m .or false e)
  | .redXor u d a c t k m e => some (amoOf I u d a c t k m .xor false e)
  | .cas u d a c t q k m e =>
    let ty := I.S.ty
    let wide := isWide ty
    let cnt := if wide then 2 else 1
    let oe : Opnd := { n := d.toNat, cnt := cnt }
    let word (i x : Nat) : Nat := (I.G.part d.toNat i x).toNat
    let expected (x : Nat) : Nat := if wide then word 0 x + word 1 x * 2 ^ 32 else word 0 x
    let new (x : Nat) : Nat := if wide then word 2 x + word 3 x * 2 ^ 32 else word 1 x
    some
      { need :=
          let n := I.need u (decide (ty ≤ 3) || ty == 14) []
            ((if d = 0#7 then [{ n := d.toNat, cnt := 2 * cnt, k := m }]
              else [{ n := d.toNat, cnt := cnt, k := m }, { n := d.toNat + cnt, cnt := cnt, k := m }]) ++ [atomAddr t a k]) .uniform
          { n with fieldsOk := n.fieldsOk && d.toNat % (2 * cnt) == 0 }
        sp := t, scope := c.toNat, wide := wide, hostOk := true, acquires := true, a := atomAddr t a k
        f := fun x old => if old = expected x then some (new x) else none
        out := fun l => some (oldValues ty oe l, some (q.toNat, maskOf fun x =>
          ((mapFind l x).map fun y => y.ok && y.old == expected x).getD false))
        e := e }
  | _ => none

/-- What the end of an atomic leaves unless a consumption unwinds the group: acquire, records, the destinations awaiting their
values as a producer's, a new region (R33, R240). -/
def AtomWord.finish (w : AtomWord) (s : State) (I : Iss) (live : Mask) (va : Nat → Option Nat) (l : List (Nat × Done)) :
    Option State :=
  let s := if w.acquires then s.acquireBy I w.scope else s
  match s.consumeAll I.gid (s.recOf I { code := codePoisonConsumed, tmask := live } 2)
      (consumesOf 2 va (fun t => 1#32 <<< t) (l.map fun x => (x.1, x.2.got)))
    (((w.out l).map fun o => o.1.map (·.1)).getD []) with
  | (s, false) => some ((match w.out l with
      | some (dsts, pred) => s.produce { I with act := live } dsts I.S.ty .general { pred := pred } false
      | none => s).newRegion I w.e)
  | _ => none

/-- The state after an atomic whose checks and translations pass: the release, then each thread's operation in index
order, then the end of the word (R240). -/
def AtomWord.done (w : AtomWord) (s : State) (I : Iss) : Option State :=
  (atBoundary s I w.need.mask).bind fun s =>
    if w.sp then
      let o := I.spOffset w.a 0
      match runChecks 0#32 (s.scratchChecks I (if w.wide then 8 else 4) o fun t _ => w.scope != 2 || decide (o t < 0x80000000))
          I.act [] with
      | .error _ => none
      | .ok (live, ab) =>
        let at_ (t : Nat) : Nat × Nat := (s.scratchAt (I.acting s) (o t).toNat).getD (0, 0)
        match s.scratchReady I live ab at_ true with
        | .stop _ => none
        | .go s live _ lost =>
          let r := doEach (fun s t =>
            if (spLost lost at_ t).isSome then (s, .lost .walk none (some ((at_ t).1, (at_ t).2 / 64)))
            else
              let (s, x) := s.atomicSp I (at_ t).1 (at_ t).2 w.wide (w.f t)
              (s.noteDone I w.scope w.acquires w.wide ((at_ t).1 + 1, (at_ t).2) x (w.f t x.old), x)) (s.releaseBy I w.scope) (threadsOf live)
          w.finish r.1 I live (fun _ => none) r.2
    else
      let x := I.globalAddr w.a 0
      match s.reach I (if w.wide then 8 else 4) (I.G.pairVal w.a.n) x { write := true, fetch := false, keys := true } false with
      | .stop _ => none
      | .go s live _ xs =>
        let hosted := live &&& maskOf fun t => match xlatOf xs (x t).toNat with
          | .ok pa _ _ => isHostMem pa
          | _ => false
        if hosted ≠ 0#32 ∧ !w.hostOk then none
        else
          let r := doEach (fun s t => match xlatOf xs (x t).toNat with
            | .ok pa _ key =>
              let (s, y) := s.atomicAt I w.scope t (x t).toNat pa key w.wide (w.f t)
              (s.noteDone I w.scope w.acquires w.wide (0, pa) y (w.f t y.old), y)
            | _ => (s, .lost .walk none))
            ((s.settleThreads I live xs (fun t => (x t).toNat) (if w.wide then 8 else 4)
              { write := true, fetch := false, keys := true }).releaseBy I w.scope) (threadsOf live)
          w.finish r.1 I live (fun t => vaField (x t)) r.2

/-! ### Barriers and transactions (R243 to R254) -/

/-- The barrier that a word names, at its boundary. -/
def barrierOf (s : State) (I : Iss) (c : BitVec 3) (b : BitVec 4) : Option (State × BarKey) :=
  (s.barKey I.G c.toNat b.toNat).bind fun k => (atBoundary s I I.act).map fun t => (t, k)

/-- An arrival that is admitted: released, counted and tested (R245). -/
def arrived (s : State) (I : Iss) (k : BarKey) (scope c units : Nat) : Option State :=
  let s := s.releaseBy I scope
  if arrivalOk (s.bar k) (s.partyThreads k) scope c (threadsOf I.act).length then
    some ((s.arrive I.agid k c (threadsOf I.act).length units).testBar k)
  else none

/-- The split goes on when the phase of its group's arrival has completed, and else suspends (R245). -/
def waited (s : State) (I : Iss) (k : BarKey) (scope : Nat) (e : Bool) : State :=
  if s.passedBar I.agid k then (s.acquireBar I k scope).newRegion I e else s.suspend I (.barrier k)

/-- What the barrier words leave (R243 to R248). -/
def barrierAfter (s : State) (I : Iss) : Instr → Option (Need × Option State)
  | .barSync a c b k e => some (I.need false true [] [one a k] .uniform,
      (barrierOf s I c b).bind fun (s, key) =>
        if I.S.released then some ((s.acquireBar I key c.toNat).newRegion I e)
        else if I.S.counted then some (waited s I key c.toNat e)
        else (arrived s I key c.toNat (I.G.val a.toNat (lowest I.act)).toNat 0).map fun s =>
          waited (s.modSplit I.gid I.sid fun p => { p with counted := true }) I key c.toNat e)
  | .barArrive a c b k e => some (I.need false true [] [one a k] .uniform,
      (barrierOf s I c b).bind fun (s, key) =>
        (arrived s I key c.toNat (I.G.val a.toNat (lowest I.act)).toNat 0).map (·.newRegion I e))
  | .barWait c b e => some (I.need false true [] [] .uniform,
      (barrierOf s I c b).map fun (s, key) =>
        if I.S.released then (s.acquireBar I key c.toNat).newRegion I e else waited s I key c.toNat e)
  | .barPeek q c b e => some (I.need false true [] [] .uniform,
      (barrierOf s I c b).map fun (s, key) =>
        let x := s.passedBar I.agid key
        (((if x ∧ q ≠ 0#3 then s.acquireBar I key c.toNat else s)).modGroup I.gid
          fun g => g.setPred q.toNat I.act fun _ => x).newRegion I e)
  | .bexpPost a c b k e => some (I.need false true [] [one a k] .uniform,
      (barrierOf s I c b).bind fun (s, key) =>
        let n := (I.G.val a.toNat (lowest I.act)).toNat
        if n % 16 ≠ 0 ∨ 2 ^ 24 ≤ (s.bar key).posted + n / 16 then none
        else some (((s.post key (n / 16)).testBar key).newRegion I e))
  | .bexpArrive a c b k e => some (I.need false true [] [one a k] .uniform,
      (barrierOf s I c b).bind fun (s, key) =>
        let n := (I.G.val a.toNat (lowest I.act)).toNat
        if n % 16 ≠ 0 ∨ 2 ^ 24 ≤ (s.bar key).posted + n / 16 then none
        else (arrived s I key c.toNat 0 (n / 16)).map (·.newRegion I e))
  | _ => none

/-- A `txe` commits each thread's transaction that holds and is in no conflict with another's, and says of every active thread
how its own ended (R253). -/
def txeAfter (s : State) (I : Iss) (p : BitVec 3) (e : Bool) : Option State :=
  let regs := (threadsOf I.act).filterMap fun t => mapFind I.G.txReg t
  let txs := (threadsOf I.act).filterMap fun t => (mapFind I.G.txs t).map fun x => (t, x)
  let clash := txConflicts txs
  match s.boundary I false with
  | (s, false) =>
    if I.act = 0#32 ∨ I.G.due regs ≠ [] then none
    else
      let v := (s.releaseBy I 5).txValidAll I.core (txs.filter fun x => !clash.contains x.1)
      let reason (t : Nat) : Nat :=
        if (mapFind txs t).isNone then 7 else if clash.contains t then 1 else if v.2.contains t then 0 else 2
      let mine : Mask := maskOf fun t => (mapFind txs t).isSome
      some (((((v.1.txPerform I (maskOf v.2.contains)).modGroup I.gid fun g =>
        let g := (threadsOf I.act).foldl (fun g t => match mapFind g.txReg t with
          | some r => g.write r (1#32 <<< t) (fun _ => BitVec.ofNat 32 (reason t)) .general
          | none => g) g
        { (g.setPred p.toNat I.act v.2.contains).discard mine with txs := mapDrop g.txs fun t => mine.getLsbD t })).acquireBy
          I 5).newRegion I e)
  | _ => none

/-- What the transaction words leave (R250 to R253). -/
def txAfter (s : State) (I : Iss) : Instr → Option (Need × Option State)
  | .txb u d a k e =>
    let oa := pairOp a k
    let target (t : Nat) : DWord := I.G.pairVal oa.n t
    some ({ I.need false true [] [oa] .uniform with regs := oa.regs ++ [d.toNat], uOk := !u || I.G.opTag oa == .uniform },
      (throughBoundary s I).bind fun s =>
        if (threadsOf I.act).any fun t => (target t).toNat % 4 != 0 || !canonical (target t).toNat ||
            (mapFind (I.now s).txs t).isSome then none
        else some (((s.acquireBy I 5).modGroup I.gid fun g => (threadsOf I.act).foldl (fun g t =>
          { g with
            txs := mapSet g.txs t { status := d.toNat, abort := target t, txb := I.S.pc, mode := I.S.mode, fmt := I.S.fmt,
                                    reads := [], readLines := [], writeLines := [] }
            txReg := mapSet g.txReg t d.toNat }) g).newRegion I e))
  | .txe p e => some (always, txeAfter s I p e)
  | .txa n e => some ({ mask := I.act },
      (throughBoundary s I).map fun s =>
        let open_ := (threadsOf I.act).filter fun t => (mapFind (I.now s).txs t).isSome
        if open_ = [] then s.newRegion I e
          else (s.endWord s I e (open_.map fun t => { thread := t, reason := 4, code := n.toNat })).modGroup I.gid fun g =>
            if I.trapped then g else g.regionsAt I.S.mask)
  | _ => none

/-! ### Address checks (R168) -/

/-- An access by translated address: its needs, whether it is a region boundary, its address pair, each thread's effective
address, its width in bytes, whether it writes, and whether a register window takes it (R13, R167). -/
structure Access where
  need : Need
  region : Bool := false
  a : Nat
  x : Nat → Int
  n : Nat
  write : Bool
  windowOk : Bool

/-- The access that a load makes. -/
def LoadWord.access (l : LoadWord) (I : Iss) : Access :=
  { need := I.loadNeed l.u l.d [l.a], a := l.a.n, x := l.x, n := l.n, write := false, windowOk := l.windowOk }

/-- The access that a store makes. -/
def StoreWord.access (w : StoreWord) (I : Iss) : Access :=
  { need := I.need w.u true [] [w.d, w.a] .uniform, a := w.a.n, x := w.x, n := w.n, write := true, windowOk := w.windowOk }

/-- The access that an atomic on memory makes. -/
def AtomWord.access (w : AtomWord) (I : Iss) : Access :=
  { need := w.need, region := true, a := w.a.n, x := fun t => (I.G.pairVal w.a.n t).toNat, n := if w.wide then 8 else 4, write := true
    windowOk := false }

/-- The accesses by translated address (R167, R188 to R190, R239). -/
def accessOf (I : Iss) : Instr → Option Access
  | .ldg u d a w f k e => (loadOf I (.ldg u d a w f k e)).map fun l => l.access I
  | .ldp u d a w f k e => (loadOf I (.ldp u d a w f k e)).map fun l => l.access I
  | .lda u d a c w k e => (loadOf I (.lda u d a c w k e)).map fun l => l.access I
  | .stg u d a w f k m e => (storeOf I (.stg u d a w f k m e)).map fun w => w.access I
  | .stp u d a w f k m e => (storeOf I (.stp u d a w f k m e)).map fun w => w.access I
  | .ldaPoll u d a _ w k m _ => some
      { need := I.need u true [] [syncOp w d m, pairOp a k] .uniform, a := 2 * a.toNat, n := syncBytes w, write := false
        windowOk := false, x := fun t => (I.G.pairVal (2 * a.toNat) t).toNat }
  | .stl u d a _ w k m _ => some
      { need := I.need u true [] [syncOp w d m, pairOp a k] .uniform, region := true, a := 2 * a.toNat, n := syncBytes w
        write := true, windowOk := true, x := fun t => (I.G.pairVal (2 * a.toNat) t).toNat }
  | .amoAdd u d a c t k m e => if t then none else some ((amoOf I u d a c t k m .add true e).access I)
  | .amoMin u d a c t k m e => if t then none else some ((amoOf I u d a c t k m .min true e).access I)
  | .amoMax u d a c t k m e => if t then none else some ((amoOf I u d a c t k m .max true e).access I)
  | .amoAnd u d a c t k m e => if t then none else some ((amoOf I u d a c t k m .and true e).access I)
  | .amoOr u d a c t k m e => if t then none else some ((amoOf I u d a c t k m .or true e).access I)
  | .amoXor u d a c t k m e => if t then none else some ((amoOf I u d a c t k m .xor true e).access I)
  | .amoExch u d a c t k m e => if t then none else some ((amoOf I u d a c t k m .exch true e).access I)
  | .amoIncw u d a c t k m e => if t then none else some ((amoOf I u d a c t k m .incw true e).access I)
  | .redAdd u d a c t k m e => if t then none else some ((amoOf I u d a c t k m .add false e).access I)
  | .redMin u d a c t k m e => if t then none else some ((amoOf I u d a c t k m .min false e).access I)
  | .redMax u d a c t k m e => if t then none else some ((amoOf I u d a c t k m .max false e).access I)
  | .redAnd u d a c t k m e => if t then none else some ((amoOf I u d a c t k m .and false e).access I)
  | .redOr u d a c t k m e => if t then none else some ((amoOf I u d a c t k m .or false e).access I)
  | .redXor u d a c t k m e => if t then none else some ((amoOf I u d a c t k m .xor false e).access I)
  | .cas u d a c t q k m e => if t then none else (atomOf I (.cas u d a c t q k m e)).map fun w => w.access I
  | _ => none

/-- An access by an offset into the scratchpad or the constants: its needs, whether it is a region boundary, each thread's offset, its
width, and whether the peer's scratchpad may be named (R167, R237). -/
structure OffsetAccess where
  need : Need
  region : Bool := false
  o : Nat → Int
  n : Nat
  peerOk : Bool := true

/-- The access that an atomic on a scratchpad makes: at the scope of the workgroup in the own range only (R238). -/
def AtomWord.offsetAccess (w : AtomWord) (I : Iss) : OffsetAccess :=
  { need := w.need, region := true, o := fun t => (I.G.val w.a.n t).toNat, n := if w.wide then 8 else 4, peerOk := w.scope != 2 }

/-- The accesses to a scratchpad (R167, R239). -/
def scratchOf (I : Iss) : Instr → Option OffsetAccess
  | .lds u d a w f k _ => some
      { need := I.loadNeed u (memOp w d) [one a k], n := widthBytes w
        o := fun t => (I.G.val a.toNat t).toNat + f.toInt * widthBytes w }
  | .sts u d a w f k m _ => some
      { need := I.need u true [] [memOp w d m, one a k] .uniform, n := widthBytes w
        o := fun t => (I.G.val a.toNat t).toNat + f.toInt * widthBytes w }
  | .amoAdd u d a c t k m e => if t then some ((amoOf I u d a c t k m .add true e).offsetAccess I) else none
  | .amoMin u d a c t k m e => if t then some ((amoOf I u d a c t k m .min true e).offsetAccess I) else none
  | .amoMax u d a c t k m e => if t then some ((amoOf I u d a c t k m .max true e).offsetAccess I) else none
  | .amoAnd u d a c t k m e => if t then some ((amoOf I u d a c t k m .and true e).offsetAccess I) else none
  | .amoOr u d a c t k m e => if t then some ((amoOf I u d a c t k m .or true e).offsetAccess I) else none
  | .amoXor u d a c t k m e => if t then some ((amoOf I u d a c t k m .xor true e).offsetAccess I) else none
  | .amoExch u d a c t k m e => if t then some ((amoOf I u d a c t k m .exch true e).offsetAccess I) else none
  | .amoIncw u d a c t k m e => if t then some ((amoOf I u d a c t k m .incw true e).offsetAccess I) else none
  | .redAdd u d a c t k m e => if t then some ((amoOf I u d a c t k m .add false e).offsetAccess I) else none
  | .redMin u d a c t k m e => if t then some ((amoOf I u d a c t k m .min false e).offsetAccess I) else none
  | .redMax u d a c t k m e => if t then some ((amoOf I u d a c t k m .max false e).offsetAccess I) else none
  | .redAnd u d a c t k m e => if t then some ((amoOf I u d a c t k m .and false e).offsetAccess I) else none
  | .redOr u d a c t k m e => if t then some ((amoOf I u d a c t k m .or false e).offsetAccess I) else none
  | .redXor u d a c t k m e => if t then some ((amoOf I u d a c t k m .xor false e).offsetAccess I) else none
  | .cas u d a c t q k m e => if t then (atomOf I (.cas u d a c t q k m e)).map fun w => w.offsetAccess I else none
  | _ => none

/-- The access to the constants (R167, R177). -/
def constantOf (I : Iss) : Instr → Option OffsetAccess
  | .ldc u d a w f k _ => some
      { need := I.loadNeed u (memOp w d) [one a k], n := widthBytes w
        o := fun t => (I.G.val a.toNat t).toNat + f.toInt * widthBytes w }
  | _ => none

/-! ### Engine words (R260, R276, R281, R295, R299 to R305) -/

/-- The command that a copy word gives the copy engine: the descriptors of its lowest active thread, the layout records
of its slots, no debt yet (R260, R262, R266). -/
def copyCmd (s : State) (I : Iss) (d a : BitVec 5) (slot form : Nat) (store : Bool) : CopyCmd :=
  let quad := I.descs (4 * d.toNat) 4
  let ctl := quad.getD 1 0#32
  let layout (n : Nat) : List DWord := ((s.wg I.G.wg).bind fun x => mapFind x.slots n).getD []
  { id := s.nextUid, core := I.core, wg := I.G.wg, group := I.agid, ctx := I.G.ctx, pc := I.S.pc
    count := (I.acting s).executed, form := form, store := store, lay := layout slot
    lay2 := layout ((quad.getD 0 0#32).toNat % 16), lay3 := layout ((quad.getD 3 0#32).toNat % 16)
    coords := (I.descs (4 * a.toNat) 4).map BitVec.toInt ++ [(ctl.extractLsb' 0 16).toInt], quad := quad
    planes := if (layOf (layout slot)).tfmt = 9 then (I.S.fmt.extractLsb' 12 4).toNat else 1
    bar := none, lines := [], rows := [], next := 0, delivers := true, recorded := [], loc := I.G.loc I.sid
    queue := s.queueOf I.G, clock := s.clockOf I.agid }

/-- The state after a copy word: only the region boundary in a split that does not lead; else, where the queue has room and no
word came to it before, the command is in its core's queue, after a release at .die, and every line and row that it will write
owes it a fill (R15, R16, R260, R276, R277). -/
def copyDone (s : State) (I : Iss) (d a : BitVec 5) (slot form : Nat) (lead store e : Bool) : Option State :=
  (atBoundary s I I.act).bind fun s =>
    if lead && I.G.idx != 0 then some (s.newRegion I e)
    else
      let c := copyCmd s I d a slot form store
      let owed := s.owedFrom c c.left
      let room (trapped : Bool) : Bool := (s.copies.filter fun x => x.core == I.core).length < copyRoom trapped
      if (s.copyBad I c slot).isSome ∨ s.portOpen I 3 I.core room = false ∨
          (owed.1.any fun l => decide (15 ≤ s.owedLine l.1 l.2)) ∨ owed.2.any fun r => decide (15 ≤ mapGet s.pendRows r 0) then none
      else
        let t := (s.releaseBy I 4).owe owed.1 owed.2
        let bscope := (c.ctl.extractLsb' 21 3).toNat
        let bar := if bscope = 0 then none else (s.releaseBy I 4).barKey I.G bscope (c.ctl.extractLsb' 24 4).toNat
        some ({ t with copies := t.copies ++ [{ c with lines := owed.1, rows := owed.2, bar := bar }], nextUid := t.nextUid + 1 }.newRegion I e)

/-- The needs of a copy word. -/
def copyNeed (I : Iss) (d a : BitVec 5) : Need := I.descNeed [quadOp d, quadOp a]

/-- What the copy words leave (R264, R269 to R276, R281). -/
def copyAfter (s : State) (I : Iss) : Instr → Option (Need × Option State)
  | .cpyTile d a n l r e => some (copyNeed I d a, copyDone s I d a n.toNat 0 l r e)
  | .cpyGather d a n l r e => some (copyNeed I d a, copyDone s I d a n.toNat 1 l r e)
  | .cpyScatter d a n l r e => some (copyNeed I d a, copyDone s I d a n.toNat 2 l r e)
  | .cpyAxpb d a n l r e => some (copyNeed I d a, copyDone s I d a n.toNat 3 l r e)
  | .cpyRescale d a n l r e => some (copyNeed I d a, copyDone s I d a n.toNat 4 l r e)
  | .cpyFill d a n l r e => some (copyNeed I d a, copyDone s I d a n.toNat 5 l r e)
  | .cpySum d a n l r e => some (copyNeed I d a, copyDone s I d a n.toNat 6 l r e)
  | .cpyd m l e => some (I.descNeed [], (atBoundary s I I.act).bind fun s =>
      if l && I.G.idx != 0 then some (s.newRegion I e)
      else
        let mine := s.copies.filter fun c => c.core == I.core && m.getLsbD c.path
        let left : List Nat := match I.S.wait with
          | .drain ids => ids.filter fun n => mine.any fun c => c.id == n
          | _ => mine.map (·.id)
        if left = [] then
          some ((((mine.foldl (fun s c => s.learn I.agid c.clock) s).releaseBy I 4).acquireBy I 4).newRegion I e)
        else none)
  | .cpyr a n l e => some (I.descNeed [pairOp a], (atBoundary s I I.act).bind fun s =>
      if l && I.G.idx != 0 then some (s.newRegion I e)
      else
        let va := (I.G.pairVal (2 * a.toNat) (lowest I.act)).toNat
        if va % 64 ≠ 0 ∨ !canonical va ∨ !canonical (va + 63) then none
        else if s.portOpen I 3 I.core (fun _ => true) = false then none
        else match s.translateThreads I I.act [] (fun _ => va) 64 { write := false, fetch := false, keys := true } false with
          | .stop _ => none
          | .go s _ _ xs => match xlatOf xs va with
            | .ok pa _ _ =>
              let t := s.settleThreads I I.act xs (fun _ => va) 64 { write := false, fetch := false, keys := true }
              let r := (t.releaseBy I 4).engineRead I.core pa 64
              let words := (List.range 8).map fun i => BitVec.ofNat 64 (r.1 / 2 ^ (64 * i))
              let base := (layOf words).base
              if r.2.1 ≠ .clean ∨ (layBad words).isSome ∨ !canonical base ∨ !canonical (base + esOf (layOf words).tfmt - 1) then none
              else some ((r.2.2.modWg I.G.wg fun x => { x with slots := mapSet x.slots n.toNat words }).newRegion I e)
            | _ => none)
  | _ => none

/-- The operation that a matrix word gives the matrix engine (R293). -/
def matrixOp (s : State) (I : Iss) (d : Opnd) (areg : Nat) (kind : MxKind) (reuse : Bool) : MxOp :=
  { id := s.nextUid, cluster := clusterOf I.core, core := I.core, wg := I.G.wg, group := I.agid, gidx := I.G.idx
    ctx := I.G.ctx, pc := I.S.pc, count := (I.acting s).executed, kind := kind, desc := I.descs d.n d.cnt, areg := areg
    fmt := I.S.fmt, reuse := reuse, ty := I.S.ty, arows := [], started := false, done := false, taint := []
    batch := none, waits := [], loc := I.G.loc I.sid, queue := s.queueOf I.G, clock := s.clockOf I.agid }

/-- The state after a matrix word: only the boundary in a split that does not lead; else, where the queue has room and no word
came to it before, and after a release at .die, the operation is queued and belongs to the forming batch of its group (R15, R16,
R293, R295, R301). -/
def matrixDone (s : State) (I : Iss) (d : Opnd) (areg : Nat) (kind : MxKind) (lead reuse e : Bool) : Option State :=
  (atBoundary s I I.act).bind fun s =>
    if lead && I.G.idx != 0 then some (s.newRegion I e)
    else
      let o := matrixOp s I d areg kind reuse
      let room (trapped : Bool) : Bool :=
        (s.mxops.filter fun x => x.cluster == o.cluster && !x.done).length < matrixRoom trapped
      if (s.mxBad o).isSome ∨ s.portOpen I 4 o.cluster room = false then none
      else
        let t := s.releaseBy I 4
        some (({ t with mxops := t.mxops ++ [o], nextUid := t.nextUid + 1 }.modGroup I.agid
          fun g => { g with forming := g.forming ++ [o.id] }).newRegion I e)

/-- A `pan` access whose addresses are in the workgroup's rows and aligned (R305). -/
def panOk (s : State) (I : Iss) (a : BitVec 7) (n : Nat) : Bool :=
  (threadsOf I.act).all fun t =>
    ((I.G.val a.toNat t).extractLsb' 16 10).toNat % n == 0 && (s.panPlace I.G.wg (I.G.val a.toNat t) n).isSome

/-- Where a thread's `pan` access falls: core, row of the pan, column (R305). -/
def panAt (s : State) (I : Iss) (a : BitVec 7) (n t : Nat) : Nat × Nat × Nat :=
  (s.panPlace I.G.wg (I.G.val a.toNat t) n).getD (0, 0, 0)

/-- What the matrix words and the pan accesses leave (R293 to R305). -/
def matrixAfter (s : State) (I : Iss) : Instr → Option (Need × Option State)
  | .mma d a l r e => some (I.descNeed [quadOp d], matrixDone s I (quadOp d) (8 * a.toNat) .mma l r e)
  | .cmma d a l r e => some (I.descNeed [quadOp d], matrixDone s I (quadOp d) (8 * a.toNat) .cmma l r e)
  | .pmma d a l r e => some (I.descNeed [quadOp d], matrixDone s I (quadOp d) (8 * a.toNat) .pmma l r e)
  | .mxcZero d l e => some (I.descNeed [pairOp d], matrixDone s I (pairOp d) 0 .zero l false e)
  | .mxcRscl d l e => some (I.descNeed [pairOp d], matrixDone s I (pairOp d) 0 .rscl l false e)
  | .mxr e => some ({ mask := I.S.mask }, (atBoundary s I I.S.mask).bind fun s =>
      if 15 ≤ (I.acting s).tokens then none
      else some (((s.releaseBy I 4).modGroup I.agid fun g =>
        { g with tokens := g.tokens + 1, shots := g.shots ++ [g.newest], posted := g.posted ++ [s.clockOf I.agid] }).newRegion I e))
  | .mxf d e => some ({ I.need true true [one d] [] .uniform with
        mask := I.S.mask, dsts := if I.act = 0#32 then [] else (one d).regs },
      (atBoundary s I I.S.mask).bind fun s =>
        let nb := (I.acting s).nb + 1
        if 8 ≤ (I.acting s).unretired.length then none
        else
          let t := s.releaseBy I 4
          let t := { t with mxops := t.mxops.map fun (x : MxOp) =>
            if x.group == I.agid && x.batch.isNone then { x with batch := some nb.toNat } else x }
          let t := t.modGroup I.agid fun g =>
            { g with nb := nb, forming := [], unretired := retireEmpty (g.unretired ++ [(nb.toNat, g.forming)]) }
          some ((t.modGroup I.gid fun g =>
            if I.act = 0#32 then g else g.write d.toNat I.act (fun _ => nb) .uniform).newRegion I e))
  | .mxw a b e => some (I.descNeed [one a, one b],
      if I.inTx I.act then none
      else match I.S.released, I.S.wait with
      | true, .batch group n => some (s.batchReturn I group n e)
      | _, _ => (throughBoundary s I).bind fun s =>
      let n := (I.desc a.toNat).toNat
      let sel := I.desc b.toNat
      let idx := (sel.extractLsb' 0 5).toNat
      let peer := (s.wg I.G.wg).bind (·.peer)
      let w := if sel.getLsbD 8 then peer.getD I.G.wg else I.G.wg
      let grid := (s.wg I.G.wg).bind fun x => mapFind s.grids x.grid
      let t := s.releaseBy I 4
      let b := (t.batchesAt w idx).getD (0, 0#32, [])
      let ahead := (b.2.1.toNat + 2 ^ 32 - n) % 2 ^ 32
      if (sel &&& ~~~0x11F#32) ≠ 0#32 ∨ (sel.getLsbD 8 && peer.isNone) ∨ (grid.map (·.ngrp)).getD 0 ≤ idx ∨ 2 ^ 31 ≤ ahead then none
      else if n = 0 ∨ 8 ≤ ahead ∨ (mapFind b.2.2 n).isNone then some (t.batchReturn I b.1 n e)
      else some (t.suspend I (.batch b.1 n)))
  | .panLd d a w e =>
    let od := panOp w d
    let n := panBytes w
    some ({ I.descNeed [one a] with regs := od.regs ++ (one a).regs, dsts := od.regs, producer := true },
      (atBoundary s I I.act).bind fun s =>
        if !panOk s I a n then none
        else
          let s := s.touchLanded I.agid (((threadsOf I.act).map fun t => (1, (panAt s I a n t).1, (panAt s I a n t).2.1)).filter
            fun x => !s.panBusy x.2.1 x.2.2)
          let reads := (threadsOf I.act).map fun t =>
            let p := panAt s I a n t
            { thread := t, core := p.1, row := p.2.1, col := p.2.2, n := n
              hazard := s.panHazard (s.clockOf I.agid) p.1 p.2.1 p.2.2 n : PanRead }
          some ((((s.releaseBy I 4).produce I (od.regs.map fun r => (r, sameVals 0#32)) I.S.ty .general { pan := reads }
            false).readRows).newRegion I e))
  | .panSt d a w e =>
    let od := panOp w d
    let n := panBytes w
    some ({ I.descNeed [one a] with regs := od.regs ++ (I.descNeed [one a]).regs, srcs := (I.descNeed [one a]).srcs ++ [(od.regs, false)] },
      (atBoundary s I I.act).bind fun s =>
        if !panOk s I a n ∨ (threadsOf I.act).any fun t => s.panBusy (panAt s I a n t).1 (panAt s I a n t).2.1 then none
        else
          let s1 := s.touchLanded I.agid ((threadsOf I.act).map fun t => (1, (panAt s I a n t).1, (panAt s I a n t).2.1))
          some (((threadsOf I.act).foldl (fun x t =>
            let p := panAt s I a n t
            ((x.panPut p.1 p.2.1 p.2.2 (I.G.storeData od n t) n).stampPan I.agid (panWords p.1 p.2.1 p.2.2 n)).taintPan
              (x.clockOf I.agid) (panWords p.1 p.2.1 p.2.2 n)) (s1.releaseBy I 4)).newRegion I e))
  | _ => none

/-! ### Links between cores (R313 to R331) -/

/-- What a link word finds when it may go: the state after its boundary, and the message that it takes. -/
structure LinkGo where
  s : State
  u : LinkUse
  data : List Vals
  m : Option Msg

/-- A link word goes when its grid holds the buffers, the directions stay in the block, and an entry and a credit are there
at once; a resumed word keeps the channel and what it read (R314, R315, R318, R322, R328). -/
def linkGo (s : State) (I : Iss) (m : Mask) (u : LinkUse) (data : List Vals) : Option LinkGo :=
  (atBoundary s I m).bind fun s =>
    let (u, data) := match I.S.wait with
      | .link r c o _ _ data => ({ u with recv := r, ch := c, send := o }, data)
      | _ => (u, data)
    (s.sluiceGrid I.G).bind fun g =>
      if (u.recv.toList ++ u.send.toList).any fun d => (g.inside I.core d).isNone then none
      else if !s.linkReady I.gid I.sid I.core u.recv u.ch u.send then none
      else
        let m := u.recv.bind fun d => s.entryFor I.gid I.sid I.core d u.ch
        if m.any (fun m => u.size < 3 && m.vecs.length != 2 ^ u.size) then none
        else some { s := s, u := u, data := data, m := m }

/-- The use that a chain-scan step makes of the links: its control register names the channel, the neighbours, the head and the
tail (R327). -/
def xscanUse (I : Iss) (a : BitVec 5) (k : Bool) : LinkUse :=
  let w := I.desc (quadOp a k).n
  { recv := if w.getLsbD 8 then none else some (w.extractLsb' 4 2).toNat, ch := w.toNat % 16
    send := if w.getLsbD 9 then none else some (w.extractLsb' 6 2).toNat, size := 0 }

/-- A chain-scan step (R327, R328): the value that comes in, or the word's own at the head; each active thread's result of
it; both in the destination; and the results sent on, but at the tail. -/
def xscanDone (s : State) (I : Iss) (d : BitVec 6) (a : BitVec 5) (scope : Nat) (k : Bool) (o : ScanOp) (e : Bool) :
    Option State :=
  let od := pairOp d
  let oa := quadOp a k
  (linkGo s I I.act (xscanUse I a k) []).bind fun x =>
    let (s, gone, vecs) := match x.u.recv, x.m with
      | some r, some m => (x.s.takeMsg I.gid I.sid I.core r x.u.ch).openMsg I x.u m
      | _, _ => (x.s, false, [])
    if gone then none
    else
      let s := if x.u.recv.isSome then (s.linkAcquire I scope).synchronise I.agid scope ((x.m.bind (·.rel)).toList) else s
      let v (t : Nat) : Word := if x.u.recv.isNone then I.G.part oa.n 3 t else (vecs.headD []).getD t 0#32
      let r := (List.range 32).foldl (fun (acc : List Word × BitVec 24) t =>
        if I.act.getLsbD t then
          let y := o.apply I.S (v t).toNat (I.G.part oa.n 1 t).toNat (I.G.part oa.n 2 t).toNat acc.2
          (acc.1 ++ [BitVec.ofNat 32 y.1], y.2)
        else (acc.1 ++ [v t], acc.2)) ([], (s.lane I.G.lane).seed)
      let s := (s.keepSeed I r.2).modGroup I.gid fun g =>
        g.writeParts od.n I.act 2 (fun i t => if i = 0 then v t else r.1.getD t 0#32) .general
      some ((match x.u.send with
        | some d => (s.linkRelease I scope).sendMsg I.core d
            { ch := x.u.ch, vecs := [r.1], poisoned := false, rel := s.linkRel I scope }
        | none => s).newRegion I e)

/-- The needs of a link word: its records are the sluice's, and their detail names the channel, the directions and the size (R331). -/
def linkNeed (n : Need) (u : LinkUse) : Need := { n with src := 5, detail := u.detail }

/-- What the link words leave (R322 to R324, R327, R328). -/
def linkAfter (s : State) (I : Iss) : Instr → Option (Need × Option State)
  | .sput d a c z r k m e =>
    let od := linkOp z d m
    let u : LinkUse := { recv := none, ch := I.channel a, send := some r.toNat, size := z.toNat }
    some (linkNeed (I.need false true [] [one a k, od] .general) u,
      (linkGo s I I.act u (I.G.vectors od)).map
        fun x => ((x.s.linkRelease I c.toNat).sendMsg I.core r.toNat
          { ch := x.u.ch, vecs := x.data, poisoned := false, rel := x.s.linkRel I c.toNat }).newRegion I e)
  | .sget d a c z r k e =>
    let od := linkOp z d
    let u : LinkUse := { recv := some r.toNat, ch := I.channel a, send := none, size := z.toNat }
    some (linkNeed { I.need false true [od] [one a k] .general with producer := true } u,
      (linkGo s I I.act u []).bind fun x =>
        x.m.bind fun m => match (x.s.takeMsg I.gid I.sid I.core r.toNat x.u.ch).openMsg I x.u m with
          | (s, false, vecs) => some ((((s.linkAcquire I c.toNat).synchronise I.agid c.toNat m.rel.toList).produce I
              ((List.range od.regs.length).map fun i => (od.n + i, vecs.getD i [])) I.S.ty .general {} false).newRegion I e)
          | _ => none)
  | .sfwd a c i o k e =>
    let u : LinkUse := { recv := some i.toNat, ch := I.channel a, send := some o.toNat, size := 3 }
    some (linkNeed (I.need false true [] [one a k] .general) u,
      (linkGo s I I.act u []).bind fun x =>
        x.m.bind fun m =>
          let s := x.s.takeMsg I.gid I.sid I.core i.toNat x.u.ch
          let unwinds := m.poisoned ∧ I.G.depth ≠ 0 ∧ (s.openMsg I x.u m).2.1
          let s := if m.poisoned ∧ I.G.depth ≠ 0 then (s.openMsg I x.u m).1 else s
          if unwinds then none
          else
            let s := ((s.linkAcquire I c.toNat).synchronise I.agid c.toNat m.rel.toList).linkRelease I c.toNat
            some ((s.sendMsg I.core o.toNat { m with rel := s.linkRel I c.toNat }).newRegion I e))
  | .xscanAdd d a c k e => some (linkNeed (I.need false ((ScanOp.fold .add).tyOk I.S.ty) [pairOp d] [quadOp a k] .general) (xscanUse I a k), xscanDone s I d a c.toNat k (.fold .add) e)
  | .xscanMul d a c k e => some (linkNeed (I.need false ((ScanOp.fold .mul).tyOk I.S.ty) [pairOp d] [quadOp a k] .general) (xscanUse I a k), xscanDone s I d a c.toNat k (.fold .mul) e)
  | .xscanMin d a c k e => some (linkNeed (I.need false ((ScanOp.fold .min).tyOk I.S.ty) [pairOp d] [quadOp a k] .general) (xscanUse I a k), xscanDone s I d a c.toNat k (.fold .min) e)
  | .xscanMax d a c k e => some (linkNeed (I.need false ((ScanOp.fold .max).tyOk I.S.ty) [pairOp d] [quadOp a k] .general) (xscanUse I a k), xscanDone s I d a c.toNat k (.fold .max) e)
  | .xscanAff d a c k e => some (linkNeed (I.need false (ScanOp.aff.tyOk I.S.ty) [pairOp d] [quadOp a k] .general) (xscanUse I a k), xscanDone s I d a c.toNat k .aff e)
  | _ => none

/-! ### Commands that are refused at acceptance (R264, R276, R295, R365, R378, R380, R404) -/

/-- A refusal: what it is refused for, the code of its fault, its detail, and its addresses. -/
structure Ground where
  holds : Bool
  code : Nat
  detail : Nat := 0
  va : Option Nat := none
  pa : Option Nat := none

/-- The engine that records it, and the grounds on which a command may be refused, in their order, the first of which that holds is the
only fault; its needs, and whether it leads. -/
structure Refusals where
  need : Need
  lead : Bool := false
  src : Nat
  grounds : List Ground

/-- The checks of an address: a multiple of a size, canonical, and its last byte too (R168). -/
def addressGrounds (va size last : Nat) : List Ground :=
  [{ holds := va % size != 0, code := codeMisaligned, va := some va },
   { holds := !canonical va, code := codeNoncanonical, va := some va },
   { holds := !canonical last, code := codeVaWrap, va := some va }]

/-- The pages that a range word names: 65,536 where its count is 0 (R365, R378). -/
def pageCount (w : Word) : Nat := if w.toNat % 65536 = 0 then 65536 else w.toNat % 65536

/-- The words that act on a range of pages: `tfen.sync`, `tinv.page` (R365). -/
def rangeRefusals (I : Iss) (u : Bool) (d : BitVec 7) (a : BitVec 6) (k m : Bool) : Refusals :=
  let va := (I.G.pairVal (2 * a.toNat) (lowest I.act)).toNat
  { need := I.need u true [] [one d m, pairOp a k] .uniform, src := 7
    grounds := addressGrounds va 65536 (va + 65536 * pageCount (I.G.val d.toNat (lowest I.act)) - 1) }

/-- The tier hints (R378). -/
def hintRefusals (I : Iss) (d : BitVec 6) (a : BitVec 7) (l : Bool) : Refusals :=
  let va := (I.G.pairVal (2 * d.toNat) (lowest I.act)).toNat
  { need := I.descNeed [pairOp d, one a], lead := l, src := 8
    grounds := addressGrounds va 65536 (va + 65536 * pageCount (I.desc a.toNat) - 1) }

/-- A copy: an invalid slot first, then every other check of its acceptance (R276). -/
def copyRefusals (s : State) (I : Iss) (d a : BitVec 5) (slot form : Nat) (lead store : Bool) : Refusals :=
  let c := copyCmd s I d a slot form store
  { need := copyNeed I d a, lead := lead, src := 3
    grounds := { holds := c.lay == [], code := codeLayoutInvalid, detail := 7 + 16 * slot } ::
      (s.copyBad I c slot).toList.map fun x => { holds := true, code := x.1, detail := x.2.1, va := x.2.2 } }

/-- The rows that a matrix operation names lie at or beyond the workgroup's (R295). -/
def rowsBeyond (s : State) (w : Nat) (ends : List Nat) : Bool := ends.any fun n => decide (((s.wg w).map (·.panRows)).getD 0 < n)

/-- The workgroup is of rank 0 in a pair (R24). -/
def leadsPair (s : State) (w : Nat) : Bool :=
  ((s.wg w).bind fun x => mapFind s.grids x.grid).any (fun g => g.cs == 2) && (s.wg w).any fun x => x.w % 2 == 0

/-- A matrix step: formats that are reserved, reserved bits, formats that do not go together, the complex bit, the pair bit, the groups,
the planes read, the rows (R64, R65, R294, R295). -/
def stepRefusals (s : State) (I : Iss) (d : BitVec 5) (kind : MxKind) (lead : Bool) : Refusals :=
  let q (i lo n : Nat) : Nat := (((I.descs (4 * d.toNat) 4).getD i 0#32).extractLsb' lo n).toNat
  let f (lo n : Nat) : Nat := (I.S.fmt.extractLsb' lo n).toNat
  let bits := kind == .pmma
  let ngrp := (((s.wg I.G.wg).bind fun x => mapFind s.grids x.grid).map (·.ngrp)).getD 0
  { need := I.descNeed [quadOp d], lead := lead, src := 4
    grounds :=
      [{ holds := decide (10 < f 0 4 ∨ 10 < f 4 4 ∨ 10 < f 8 4 ∨ 2 < f 16 4 ∨ 2 < f 20 4) || (f 4 4 == 9 && f 20 4 == 1) ||
           (f 0 4 == 9 && f 16 4 == 1) || (bits && decide (f 12 4 < 2 ∨ 8 < f 12 4)), code := codeReservedField },
       { holds := decide (q 0 18 14 + q 0 10 6 + q 1 16 16 + q 1 10 2 + q 2 9 23 + q 2 7 1 + q 3 26 6 + q 3 10 6 ≠ 0) ||
           (!bits && q 1 12 4 != 0), code := codeMxDesc, detail := 1 },
       { holds := f 8 4 != 10 || (if bits then f 0 4 != 8 || f 4 4 != 9 else kClass (f 0 4) != kClass (f 4 4) || (kClass (f 0 4)).isNone)
         code := codeMxDesc, detail := 2 },
       { holds := (f 24 1 == 1) != (kind == .cmma), code := codeMxDesc, detail := 3 },
       { holds := q 2 8 1 == 1 && !leadsPair s I.G.wg, code := codeMxDesc, detail := 4 },
       { holds := decide (ngrp < q 2 0 5 + q 2 5 2 + 1), code := codeMxDesc, detail := 5 },
       { holds := bits && (q 1 12 4 == 0 || decide (f 12 4 < q 1 12 4)), code := codeMxDesc, detail := 6 },
       { holds := rowsBeyond s I.G.wg ([q 0 0 10 + 32 * (q 2 5 2 + 1), q 1 0 10 + (if bits then q 1 12 4 else 4)] ++
           (if f 16 4 = 0 then [] else [q 3 0 10 + 1]) ++ (if f 20 4 = 0 then [] else [q 3 16 10 + 1])), code := codePanBound }] }

/-- An operation on an accumulator tile alone: reserved bits, the pair bit, the rows (R304). -/
def tileRefusals (s : State) (I : Iss) (d : BitVec 6) (scaled lead : Bool) : Refusals :=
  let q (i lo n : Nat) : Nat := (((I.descs (2 * d.toNat) 2).getD i 0#32).extractLsb' lo n).toNat
  { need := I.descNeed [pairOp d], lead := lead, src := 4
    grounds :=
      [{ holds := decide (q 0 17 15 + q 0 10 6 + q 1 13 19 ≠ 0), code := codeMxDesc, detail := 1 },
       { holds := q 1 12 1 == 1 && !leadsPair s I.G.wg, code := codeMxDesc, detail := 4 },
       { holds := rowsBeyond s I.G.wg ((q 0 0 10 + 32 * (q 1 10 2 + 1)) :: if scaled then [q 1 0 10 + 1] else []), code := codePanBound }] }

/-- A move of pages: the context's attribute, the control bits, the range, the first frame, the frames, the barrier (R380). -/
def migrRefusals (s : State) (I : Iss) (d : BitVec 5) (a : BitVec 7) (lead : Bool) : Refusals :=
  let q (i : Nat) : Word := (I.descs (4 * d.toNat) 4).getD i 0#32
  let va := (q 1 ++ q 0 : DWord).toNat
  let f0 := (q 3 ++ q 2 : DWord).toNat
  let c (lo n : Nat) : Nat := ((I.desc a.toNat).extractLsb' lo n).toNat
  { need := I.descNeed [quadOp d, one a], lead := lead, src := 8
    grounds :=
      [{ holds := !(s.ctx I.G.ctx).migr, code := codeMigrInvalid, detail := 1 },
       { holds := decide (c 28 4 + c 18 3 + c 11 5 ≠ 0) || decide (c 0 11 = 0 ∨ 1024 < c 0 11) || decide (2 ≤ c 16 2)
         code := codeMigrInvalid, detail := 2 }] ++
      addressGrounds va 65536 (va + 65536 * c 0 11 - 1) ++
      [{ holds := f0 % 65536 != 0, code := codeMisaligned, pa := some f0 },
       { holds := !s.migrDestOk f0 (c 0 11) (c 16 1 == 1), code := codeMigrInvalid, detail := 3 },
       { holds := c 21 3 != 0 && (s.barKey I.G (c 21 3) (c 24 4)).isNone, code := codeBarrierInvalid }] }

/-- The commands that an engine may refuse, with what each is refused for. -/
def refusalsOf (s : State) (I : Iss) : Instr → Option Refusals
  | .cpyTile d a n l r _ => some (copyRefusals s I d a n.toNat 0 l r)
  | .cpyGather d a n l r _ => some (copyRefusals s I d a n.toNat 1 l r)
  | .cpyScatter d a n l r _ => some (copyRefusals s I d a n.toNat 2 l r)
  | .cpyAxpb d a n l r _ => some (copyRefusals s I d a n.toNat 3 l r)
  | .cpyRescale d a n l r _ => some (copyRefusals s I d a n.toNat 4 l r)
  | .cpyFill d a n l r _ => some (copyRefusals s I d a n.toNat 5 l r)
  | .cpySum d a n l r _ => some (copyRefusals s I d a n.toNat 6 l r)
  | .cpyr a _ l _ =>
    let va := (I.G.pairVal (2 * a.toNat) (lowest I.act)).toNat
    some { need := I.descNeed [pairOp a], lead := l, src := 3, grounds := addressGrounds va 64 (va + 63) }
  | .mma d _ l _ _ => some (stepRefusals s I d .mma l)
  | .cmma d _ l _ _ => some (stepRefusals s I d .cmma l)
  | .pmma d _ l _ _ => some (stepRefusals s I d .pmma l)
  | .mxcZero d l _ => some (tileRefusals s I d false l)
  | .mxcRscl d l _ => some (tileRefusals s I d true l)
  | .tfenSync u d a _ k m _ => some (rangeRefusals I u d a k m)
  | .tinvPage u d a _ k m _ => some (rangeRefusals I u d a k m)
  | .thintPromote d a l _ => some (hintRefusals I d a l)
  | .thintDemote d a l _ => some (hintRefusals I d a l)
  | .thintPin d a l _ => some (hintRefusals I d a l)
  | .thintUnpin d a l _ => some (hintRefusals I d a l)
  | .thintRelease d a l _ => some (hintRefusals I d a l)
  | .migr d a l _ => some (migrRefusals s I d a l)
  | .launch d a _ _ =>
    let va := (I.G.pairVal (2 * a.toNat) (lowest I.act)).toNat
    some { need := I.need true true [pairOp d] [pairOp a] .uniform, lead := true, src := 9, grounds := addressGrounds va 128 (va + 127) }
  | _ => none

/-! ### Translation, migration and launches (R363 to R367, R378 to R380, R404, R405) -/

/-- A range of pages that a range word may act on: its base on a page, both ends canonical (R365). -/
def rangeOf (I : Iss) (d : BitVec 7) (a : BitVec 6) : Option PageRange :=
  let base := (I.G.pairVal (2 * a.toNat) (lowest I.act)).toNat
  let n := (I.G.val d.toNat (lowest I.act)).toNat % 65536
  let count := if n = 0 then 65536 else n
  if base % 65536 = 0 ∧ canonical base ∧ canonical (base + 65536 * count - 1) then
    some { base := base, count := count, whole := false }
  else none

/-- The entries of a range dropped in every TLB of the scope, and the page-waiting splits of the context woken (R366). -/
def dropped (s : State) (I : Iss) (scope : Nat) (r : PageRange) (e : Bool) : State :=
  ((s.invalidate I.die scope I.G.ctx r).wakePages fun g va =>
    g.ctx == I.G.ctx && (s.invalidate I.die scope I.G.ctx r).rangeHas r I.G.ctx va).newRegion I e

/-- A range fence completes: the splits that wait on a page of its range are woken, the fence acquires at its scope, and a
new region begins (R358, R363). -/
def rangeSynced (s : State) (I : Iss) (scope : Nat) (r : PageRange) (e : Bool) : State :=
  ((s.wakePages fun g va => g.ctx == I.G.ctx && s.rangeHas r I.G.ctx va).acquireBy I scope).newRegion I e

/-- What the translation words leave (R358, R363 to R367). -/
def translationAfter (s : State) (I : Iss) : Instr → Option (Need × Option State)
  | .tfenPtrel _ e => some ({ mask := I.act }, (atBoundary s I I.act).map fun s =>
      ((s.writeBack I.core 5).wakePages fun _ _ => true).newRegion I e)
  | .tfenWalkacq _ e => some ({ mask := I.act }, (atBoundary s I I.act).map fun s =>
      (s.tlbDrop fun x => (laneTlbs I.G.lane).contains x.at_ && x.ctx == some I.G.ctx).newRegion I e)
  | .tfenSync u d a c k m e => some (I.need u true [] [one d m, pairOp a k] .uniform,
      if I.inTx I.act then none
      else if I.S.released then some (rangeSynced s I c.toNat (I.range d a) e)
      else (throughBoundary s I).bind fun s => (rangeOf I d a).map fun r =>
        let s := s.writeBack I.core 5
        let kept := s.pagesKept I.die c.toNat I.G.ctx r
        let s := s.retire I.die c.toNat I.G.ctx r
        if s.stillKept kept.1 kept.2 then s.suspend I (.sync kept.1 kept.2) else rangeSynced s I c.toNat r e)
  | .tinvPage u d a c k m e => some (I.need u true [] [one d m, pairOp a k] .uniform,
      (atBoundary s I I.act).bind fun s => (rangeOf I d a).map fun r => dropped s I c.toNat r e)
  | .tinvCtx _ c e => some ({ mask := I.act }, (atBoundary s I I.act).map fun s =>
      dropped s I c.toNat { base := 0, count := 0, whole := true } e)
  | .tprb u d a k e =>
    let od := pairOp d
    let oa := pairOp a k
    let va (t : Nat) : Nat := (I.G.pairVal oa.n t).toNat
    let single := oneAccess I u oa
    let at_ (t : Nat) : DWord := s.probe (laneTlbs I.G.lane) I.G.ctx (va (if single then lowest I.act else t))
    some ({ I.need u true [od] [oa] .uniform with producer := true },
      if (threadsOf I.act).any fun t => !canonical (va t) then none
      else some ((((threadsOf I.act).foldl (fun s t =>
          s.probed (laneTlbs I.G.lane) I.G.ctx (va (if single then lowest I.act else t))) s).produce I (if od.regs = [] then [] else
          [(od.n, (List.range 32).map fun t => (at_ t).extractLsb' 0 32),
           (od.n + 1, (List.range 32).map fun t => (at_ t).extractLsb' 32 32)])
        I.S.ty (if single then .uniform else .general) {}).advance I e))
  | _ => none

/-- The state after an engine accepts a command of a range of pages: after a release at .die, the command is in the queue
of the engine of the die's row, where that has room and no word came to it before (R15, R16, R379). -/
def migrDone (s : State) (I : Iss) (e : Bool) (hint va f0 n : Nat) (far : Bool) (bar : Option BarKey) : Option State :=
  let room (trapped : Bool) : Bool := (s.migr.filter fun x => x.1 == migrOf I.core).length < migrRoom trapped
  if s.portOpen I 8 (migrOf I.core) room = false then none
  else
    let s := s.releaseBy I 4
    some ({ s with
      migr := s.migr ++ [(migrOf I.core,
        ({ id := s.nextUid, group := some I.agid, grid := none, wg := I.G.wg, ctx := I.G.ctx, core := I.core, pc := some I.S.pc
           count := (I.acting s).executed, hint := hint, va := va, f0 := f0, n := n, far := far, bar := bar, page := 0, phase := 0
           leaf := 0#64, leafPa := 0, line := 0, poisoned := 0, firstPoison := 0, lost := 0, firstLost := 1024, delivers := true
           queue := s.queueOf I.G, loc := I.G.loc I.sid } : MigrCmd))]
      nextUid := s.nextUid + 1 }.newRegion I e)

/-- A tier hint: only the boundary in a split that does not lead, else a command of the hint's code (R378). -/
def hintDone (s : State) (I : Iss) (d : BitVec 6) (a : BitVec 7) (lead e : Bool) (op : Nat) : Option State :=
  (atBoundary s I I.act).bind fun s =>
    if lead && I.G.idx != 0 then some (s.newRegion I e)
    else
      let va := (I.G.pairVal (2 * d.toNat) (lowest I.act)).toNat
      let n := (I.desc a.toNat).toNat % 65536
      let n := if n = 0 then 65536 else n
      if (migrRangeBad va n).isSome then none else migrDone s I e op va 0 n false none

/-- What the tier hints and moves leave (R378 to R380). -/
def migrationAfter (s : State) (I : Iss) : Instr → Option (Need × Option State)
  | .thintPromote d a l e => some (I.descNeed [pairOp d, one a], hintDone s I d a l e 1)
  | .thintDemote d a l e => some (I.descNeed [pairOp d, one a], hintDone s I d a l e 2)
  | .thintPin d a l e => some (I.descNeed [pairOp d, one a], hintDone s I d a l e 3)
  | .thintUnpin d a l e => some (I.descNeed [pairOp d, one a], hintDone s I d a l e 4)
  | .thintRelease d a l e => some (I.descNeed [pairOp d, one a], hintDone s I d a l e 5)
  | .migr d a l e => some (I.descNeed [quadOp d, one a], (atBoundary s I I.act).bind fun s =>
      if l && I.G.idx != 0 then some (s.newRegion I e)
      else
        let q := I.descs (4 * d.toNat) 4
        let va := (q.getD 1 0#32 ++ q.getD 0 0#32 : DWord).toNat
        let f0 := (q.getD 3 0#32 ++ q.getD 2 0#32 : DWord).toNat
        let ctl := I.desc a.toNat
        let scope := (ctl.extractLsb' 21 3).toNat
        let bar := s.barKey I.G scope (ctl.extractLsb' 24 4).toNat
        if (s.migrBad I.G.ctx va f0 ctl).isSome ∨ (scope ≠ 0 ∧ bar = none) then none
        else migrDone s I e 0 va f0 (ctl.extractLsb' 0 11).toNat (ctl.getLsbD 16) (if scope = 0 then none else bar))
  | _ => none

/-- What the words on grids leave (R403 to R405). -/
def launchAfter (s : State) (I : Iss) : Instr → Option (Need × Option State)
  | .launch d a q e => some (I.need true true [pairOp d] [pairOp a] .uniform, (atBoundary s I I.act).bind fun s =>
      if I.G.idx ≠ 0 then some (s.newRegion I e)
      else
        let va := (I.G.pairVal (2 * a.toNat) (lowest I.act)).toNat
        if va % 128 ≠ 0 ∨ !canonical va ∨ !canonical (va + 127) ∨
            (!I.S.wait.launching && !s.portOpen I 9 I.die (s.launchRoom I.die)) ∨ s.launchTurn I = false then none
        else
          match (s.releaseBy I 5).cpTranslate I.G.ctx va false with
          | (t, .ok pa _ _) =>
            let at_ := (List.range 32).map fun i => pa + 4 * i
            if inWindow pa ∨ at_.any fun x => t.homeMark x != .clean then none
            else ((t.wg I.G.wg).bind fun x => (mapFind t.grids x.grid).map fun g => (x.grid, g)).map fun p =>
              let r := t.acceptChild I (dwords (at_.map t.homeWord)) p.1 p.2
              (r.1.modGroup I.gid fun g =>
                (g.setPred q.toNat I.act fun _ => r.2.1 == 0).writePair (2 * d.toNat) I.act
                  (fun _ => (BitVec.ofNat 32 r.2.1 ++ r.2.2 : DWord)) .uniform).newRegion I e
          | _ => none)
  | .lwait d a e => some (I.need true true [one d] [one a] .uniform, (atBoundary s I I.act).map fun s =>
      let id := (I.G.val a.toNat (lowest I.act)).toNat
      let s := s.releaseBy I 4
      let answer (st : Nat) (done : Clock) : State :=
        (((s.acquireBy I 6).learn I.agid done).modGroup I.gid fun g =>
          g.write d.toNat I.act (fun _ => BitVec.ofNat 32 st) .uniform).newRegion I e
      let waited : Option Nat := match I.S.released, I.S.wait with
        | true, .grid k => some k
        | _, _ => none
      if waited.isNone && s.selfOrAncestor id 12 ((s.wg I.G.wg).map (·.grid)) then answer 10 []
      else match (match waited with
          | some k => (mapFind s.grids k).map fun g => (k, g)
          | none => s.gridById I.G.ctx id) with
        | none => answer 9 []
        | some (k, g) => match g.st with
          | .retired => answer 0 g.finish
          | .rejected n => answer n []
          | _ => s.suspend I (.grid k))
  | _ => none

/-! ### Containment, control registers and trap mode (R337 to R344, R417 to R434) -/

/-- What the containment and paired-execution words leave (R338, R344). -/
def containAfter (s : State) (I : Iss) : Instr → Option (Need × Option State)
  | .contOpen i e =>
    let target : Int := I.S.pc.toNat + 4 + 4 * i.toInt
    some ({ mask := I.S.mask },
      if I.trapped ∨ I.G.diverged ∨ 4 ≤ I.G.cont.length ∨ !targetOk target then none
      else (atBoundary s I I.S.mask).map fun s =>
        (s.modGroup I.gid fun g => { g with
          cont := g.cont ++ [{ handler := BitVec.ofInt 64 target, mode := I.S.mode, fmt := I.S.fmt }] }).newRegion I e)
  | .contClose e => some ({ mask := I.S.mask },
      if I.trapped ∨ I.G.diverged ∨ I.G.cont.length = 0 then none
      else (atBoundary s I I.S.mask).map fun s =>
        (s.modGroup I.gid fun g => { g with cont := g.cont.dropLast }).newRegion I e)
  | .dualOn e => some ({ mask := I.S.mask },
      if I.trapped ∨ (s.ctx I.G.ctx).pair ∨ !I.G.pres ∨ (!I.G.pair ∧ I.G.prods.any fun p => !p.dsts.isEmpty) then none
      else (atBoundary s I I.S.mask).map fun s => (s.modGroup I.gid fun g => { g with pair := true }).newRegion I e)
  | .dualOff e => some ({ mask := I.S.mask },
      if I.trapped ∨ (s.ctx I.G.ctx).pair ∨ !I.G.pres then none
      else (atBoundary s I I.S.mask).map fun s => (s.modGroup I.gid fun g => { g with pair := false }).newRegion I e)
  | _ => none

/-- A control register after a write (R59, R319, R423): TVEC, SVEC, RVEC, SVBASE and SLTO of the context, else SSEED of the lane,
which a zero seed leaves at 1. -/
def csrWritten (s : State) (I : Iss) (n : Nat) (v : DWord) : State :=
  let slot := I.G.ctx
  if n = 0 then s.modCtx slot fun c => { c with tvec := v }
  else if n = 1 then s.modCtx slot fun c => { c with svec := v }
  else if n = 2 then s.modCtx slot fun c => { c with rvec := v }
  else if n = 3 then s.modCtx slot fun c => { c with svbase := v }
  else if n = 5 then s.modCtx slot fun c => { c with slto := v.extractLsb' 0 32 &&& 0x00FFFFFF#32 }
  else s.modLane I.G.lane fun l => { l with seed := if v.extractLsb' 0 24 = 0#24 then 1#24 else v.extractLsb' 0 24 }

/-- What the words on control registers and the non-pre-emption window leave (R423 to R425). A write of PKR that no other write
precedes sets out to the copies of the dies, and its word waits; once it is performed the word completes (R443). -/
def registerAfter (s : State) (I : Iss) : Instr → Option (Need × Option State)
  | .csrRd d n e =>
    let od := csrOp n d
    some (I.need false true [od] [] .uniform,
      some (s.modGroup I.gid fun g =>
        (if n.toNat < 4 then g.writePair d.toNat I.act (fun _ => s.csr I n.toNat) .uniform
          else g.write d.toNat I.act (fun _ => (s.csr I n.toNat).extractLsb' 0 32) .uniform).advance I.sid e))
  | .csrWr a n k e =>
    let oa := csrOp n a k
    let t := lowest I.act
    let v : DWord := if n.toNat < 4 then I.G.pairVal a.toNat t else BitVec.zeroExtend 64 (I.G.val a.toNat t)
    some (I.need false true [] [oa] .uniform,
      if (1 ≤ n.toNat ∧ n.toNat ≤ 3 ∧ !I.trapped ∧ !(s.ctx I.G.ctx).sys) ∨
          (n.toNat < 3 ∧ v ≠ 0#64 ∧ (v.toNat % 4 ≠ 0 ∨ !canonical v.toNat)) then none
      else if I.S.released then some (s.advance I e)
      else if n.toNat < 6 ∧ !s.cpRuns then none
      else if n.toNat = 4 then
        if (s.ctx I.G.ctx).pkrNew.isSome then none
        else some ((s.modCtx I.G.ctx fun c => { c with pkrNew := some (v.extractLsb' 0 32, I.gid, I.sid) }).stall I .control)
      else some ((csrWritten s I n.toNat v).advance I e))
  | .nopreOn e => some ({ mask := I.S.mask },
      some ((s.modGroup I.gid fun g =>
        if I.trapped || g.nopre.isSome then g
        else { g with nopre := some { count := 0, pc := I.S.pc, split := I.sid, at_ := g.executed } }).advance I e))
  | .nopreOff e => some ({ mask := I.S.mask }, some ((s.modGroup I.gid fun g => { g with nopre := none }).advance I e))
  | _ => none

/-- The group returns from a fault routine: the record is written at class 0, the attributed split goes on at a pc in a new
run, the group goes on, or waits for the routine of its next fault, and the trap slot frees (R419, R420, R426). A word run again keeps
the arrival that it has counted (R43). -/
def resumed (s : State) (I : Iss) (t : Trap) (r : ErrRec) (again : Bool) (pc : Split → DWord) : State :=
  ((s.record { r with cls := 0 }).modGroup t.of_ fun g =>
    let u := (g.modSplit t.split fun p => { p.endRun with
      st := .ready
      pc := pc p
      counted := again && p.counted }).boundary t.split
    { u with
      stop := match g.later with
        | (sid, c) :: _ => .wantsTrap sid c
        | [] => .none
      later := g.later.drop 1 }).leaveTrap I.gid I.G.lane

/-- What the returns from trap mode leave (R417, R418, R426). -/
def returnAfter (s : State) (I : Iss) : Instr → Option (Need × Option State)
  | .rfeNext => some ({ mask := I.S.mask }, match I.G.trap with
      | some { of_ := g, split := p, cause := .fault r, aclk := a, resting := b } =>
        some (resumed s I { of_ := g, split := p, cause := .fault r, aclk := a, resting := b } r false fun p => (r.pc.getD p.pc) + 4)
      | _ => none)
  | .rfeRetry => some ({ mask := I.S.mask }, match I.G.trap with
      | some { of_ := g, split := p, cause := .fault r, aclk := a, resting := b } =>
        some (resumed s I { of_ := g, split := p, cause := .fault r, aclk := a, resting := b } r true fun p => p.pc)
      | _ => none)
  | .rfeKill => some ({ mask := I.S.mask }, match I.G.trap with
      | some { of_ := _, split := _, cause := .fault r, aclk := _, resting := _ } =>
        some ((s.record { r with cls := 4 }).resetContext I.G.ctx)
      | _ => none)
  | .rfeSave h => some ({ mask := I.S.mask, regs := (pairOp h).regs, srcs := [((pairOp h).regs, false)] }, match I.G.trap with
      | some { of_ := g, split := _, cause := .save, aclk := _, resting := _ } =>
        some ((s.modGroup g fun x => { x with stop := .saved (some (I.G.pairVal (2 * h.toNat) (lowest I.S.mask))) }).leaveTrap
          I.gid I.G.lane)
      | _ => none)
  | .rfeRest => some ({ mask := I.S.mask }, match I.G.trap, s.wg I.G.wg with
      | some { of_ := g, split := p, cause := .restore h, aclk := a, resting := _ }, some w =>
        let s := s.modGroup I.gid fun x =>
          { x with trap := some { of_ := g, split := p, cause := .restore h, aclk := a, resting := true } }
        some (if s.allResting w then (s.restoreAll w).retestBars else s.suspend I .rest)
      | _, _ => none)
  | _ => none

/-- A `ctx` word may act: in trap mode, and a load of a block in a restore routine only (R427). -/
def ctxOk (I : Iss) (restoreOnly : Bool) : Bool :=
  match I.G.trap with
  | none => false
  | some t => match t.cause with
    | .restore _ => true
    | _ => !restoreOnly

/-- The block of n bytes that a `ctx` word reaches: aligned, canonical, translated (R427). -/
def ctxBlock (s : State) (J : Iss) (a : BitVec 6) (n : Nat) (write : Bool) : Option (State × List (Nat × Xlat) × Nat) :=
  let va := (J.G.pairVal (2 * a.toNat) (lowest J.act)).toNat
  if va % 128 ≠ 0 ∨ !canonical va ∨ !canonical (va + n - 1) then none
  else match s.translateThreads J J.act [] (fun _ => va) n { write := write, fetch := false, keys := true } false with
    | .stop _ => none
    | .go s live _ xs =>
      some (s.settleThreads J live xs (fun _ => va) n { write := write, fetch := false, keys := true }, xs, va)

/-- The registers that a `ctx.sgr` or `ctx.lgr` moves: the first and the count, within the interrupted group's allotment
(R428). -/
def ctxMove (s : State) (J : Iss) (d : BitVec 7) : Option (Nat × Nat) :=
  (ctxRange (J.G.val d.toNat (lowest J.act))).bind fun (b, n) => if (J.acting s).alloc < b + n then none else some (b, n)

/-- What the `ctx` words leave (R427 to R433); each acts once, in the lowest active thread. -/
def ctxAfter (s : State) (I : Iss) : Instr → Option (Need × Option State)
  | .ctxSgr d a e => some (I.need false true [] [one d, pairOp a] .uniform,
      if !ctxOk I false then none
      else (ctxMove s I.single d).bind fun (b, n) => (ctxBlock s I.single a (128 * n) true).map fun (s, xs, va) =>
        let g := I.single.acting s
        (s.ctxStore I.single xs va ((upFrom b 1 n).flatMap fun r => (List.range 32).map fun t => g.val r t)).advance I e)
  | .ctxLgr d a e => some (I.need false true [] [one d, pairOp a] .uniform,
      if !ctxOk I false then none
      else (ctxMove s I.single d).bind fun (b, n) => (ctxBlock s I.single a (128 * n) false).map fun (s, xs, va) =>
        let r := s.ctxLoad I.single xs va (32 * n)
        (r.2.modGroup I.single.agid fun g => (List.range n).foldl (fun g k =>
          let g := (g.splitPair (b + k)).note (b + k) fullMask
          g.putReg (b + k) { g.reg (b + k) with vals := (r.1.drop (32 * k)).take 32, tag := .general }) g).advance I e)
  | .ctxSst a e => some (I.need false true [] [pairOp a] .uniform,
      if !ctxOk I false then none
      else (ctxBlock s I.single a 5120 true).map fun (s, xs, va) =>
        (s.ctxStore I.single xs va (gsbOf (I.single.acting s) (s.latchOf I.single.agid))).advance I e)
  | .ctxLst a e => some (I.need false true [] [pairOp a] .uniform,
      if !ctxOk I true then none
      else
        let g := I.single.acting s
        (ctxBlock s I.single a 5120 false).bind fun (s, xs, va) =>
          let r := s.ctxLoad I.single xs va 1280
          let cl := clusterOf I.core
          let own := wbits r.1 0 27 1 == 1
          if (gsbBad r.1 g.cap g.pres).isSome ∨ (own && (mapFind r.2.latches cl).any (·.group != I.agid)) ||
              r.2.noRoomFor I.agid g (wbits r.1 1 8 8) then none
          else
            let rows := (List.range (32 * (wbits r.1 3 0 2 + 1))).map fun m => (r.1.drop (256 + 8 * m)).take 8
            let t := { r.2 with
              latches := if own then mapSet r.2.latches cl { group := I.agid, acnt := wbits r.1 3 0 2, rows := rows }
                else r.2.latches.filter fun x => x.2.group != I.agid }
            some (((t.modGroup I.agid fun g => g.loadGsb r.1).testGrows I.G.wg).advance I e))
  | .ctxSwg a e => some (I.need false true [] [pairOp a] .uniform,
      if !ctxOk I false then none
      else (ctxBlock s I.single a 2048 true).map fun (s, xs, va) =>
        (s.ctxStore I.single xs va (match s.wgGrid I.G.wg with
          | some (x, d) => s.wsbOf I.G.wg x d
          | none => [])).advance I e)
  | .ctxLwg a e => some (I.need false true [] [pairOp a] .uniform,
      if !ctxOk I true then none
      else (ctxBlock s I.single a 2048 false).bind fun (s, xs, va) =>
        let r := s.ctxLoad I.single xs va 512
        (r.2.wgGrid I.G.wg).bind fun (_, d) =>
          if (wsbBad r.1 d).isSome || r.2.rangesBusy I.G.wg (wsbWindows r.1) then none
          else
            let w := I.G.wg
            let slots : Map Nat (List DWord) := (List.range 16).filterMap fun i =>
              if wbits r.1 0 (16 + i) 1 = 1 then some (i, (List.range 8).map fun j => wpair r.1 (144 + 16 * i + 2 * j)) else none
            let t := (List.range (min 16 d.barriers)).foldl (fun s i => s.loadBar w i r.1) r.2
            let t := (t.modWg w fun x => { x with slots := slots }).winUnbindAll w
            some (((wsbWindows r.1).foldl (fun s (n, va, off, len) => s.winBind w n va off len) t).advance I e))
  | .ctxQuiet e => some ({ mask := I.act },
      if !ctxOk I false then none
      else
        let w := I.G.wg
        let launches (p : Split) : Bool := match p.wait with
          | .launch _ => true
          | _ => false
        if (s.copies.any fun c => c.wg == w) || (s.mxops.any fun o => o.wg == w && !o.done) ||
            (s.migr.any fun m => m.2.group.isSome && m.2.wg == w) ||
            s.groups.any fun x => x.2.wg == w && x.2.splits.any launches then none
        else some ((s.acquireBy I 4).advance I e))
  | _ => none

/-! ### Events: what falls due without an instruction word

Each family answers the state after an event that is due; none where the event is not due, in which case nothing has
changed. -/

/-- A group's split that stands in a state with a mask of its own. -/
def splitAt (s : State) (gid sid : Nat) : Option (Group × Split) :=
  (mapFind s.groups gid).bind fun g => (g.split sid).map fun p => (g, p)

/-- A lane between runs merges what its groups let merge, and takes its pick; the winner holds the lane, every other ready
split has been passed over once more (R31, R38, R39). -/
def picked (s : State) (lane : Nat) : State :=
  let gids := (s.laneGroups lane).map (·.1)
  let s := gids.foldl (fun s gid => s.modGroup gid Group.converge) s
  match pickCandidate (s.lane lane).last (s.candidates lane) with
  | none => s
  | some (gid, g, p) =>
    let s := { s with groups := s.groups.map fun (x : Nat × Group) =>
      if x.2.lane == lane then
        (x.1, { x.2 with splits := x.2.splits.map fun q =>
          if x.1 == gid && q.idx == p.idx then { q with st := .issuing, passed := 0 }
          else if s.offers x.2 q then { q with passed := q.passed + 1 } else { q with passed := 0 } })
      else x }
    if g.trap.isSome then s else s.modLane lane fun l => { l with last := (g.slot, p.idx) }

/-- What the events of lanes, waits and the memory hierarchy leave (R30, R31, R33, R180, R183, R189, R208, R356, R358,
R443). -/
def laneEvent (s : State) : Instr → Option State
  | .laneArbitration lane => if (s.holder lane).isSome then none else some (picked s lane)
  | .splitResume gid sid => (splitAt s gid sid).bind fun (g, p) =>
      if p.st = .suspended ∧ s.waitOver gid g p then some (s.modSplit gid sid fun p => { p with st := .ready, released := p.wait.finishes })
      else none
  | .producerFill gid id => some ((s.fill gid id).1.dropExited gid)
  | .pollCompletion gid sid => (s.issOf gid sid).bind fun I => match I.S.wait, I.S.st with
      | .poll d scope n left all e, .suspended =>
        some ((s.pollOnce I d scope n left all e).modSplit gid sid fun p =>
          if p.st == .suspended && p.wait == .none then { p with st := .ready } else p)
      | _, _ => none
  | .walk core part slot va w f =>
    if (s.ctx slot).st ≠ .live then none
    else some (s.translate (laneTlbs (core * 64 + part * 16)) slot va { write := w, fetch := f, keys := true }).1
  | .pageWaitRetry gid sid => (s.issOf gid sid).bind fun I =>
      if I.S.st ≠ .pageWait ∨ !I.S.released then none
      else
        let r := s.lookAll (laneTlbs I.G.lane) I.G.ctx { write := false, fetch := false, keys := true } I.S.wait.pagesOf
        let t := r.1.settleMoving (laneTlbs I.G.lane) I.G.ctx r.2
        some (t.modSplit gid sid fun q =>
          if r.2.any fun x => x.2 == .absent || x.2 == .moving then { q with released := false }
          else { q with st := .ready, wait := .none, waited := 0, released := false })
  | .l1Eviction core line => some (s.l1Evict core line)
  | .windowWriteBack w off => (s.wg w).bind fun x =>
      let line := off / 128 * 128
      let j := off % 128 / 4
      (mapFind x.wlines line).bind fun l =>
        if !l.dirty.getLsbD j then none
        else some ((s.modWg w fun x => { x with
            wlines := mapSet x.wlines line { l with dirty := l.dirty &&& ~~~(1#32 <<< j) } }).coreWrite x.core (l.pa + 4 * j)
          l.policy (readWord x.scratch (line + 4 * j)) { l.info with va := l.info.va / 128 * 128 + 4 * j })
  | .remoteWriteCheck id => (s.writes.find? fun w => w.id == id && !w.performed).map fun w =>
      { s with writes := s.writes.map fun (x : Write) => if x.id == id then { x with performed := true } else x }.performUncached w
  | .writeAcknowledgement id => some { s with writes := s.writes.filter fun w => !(w.id == id && w.performed) }
  | _ => none

/-- A copy of a core by its number, with the outcome of the rows that it may do next, tried in order (R277, R369). -/
def copyNext (s : State) (core id : Nat) : Option (CopyCmd × State × RowEnd) :=
  (s.copyOf core id).map fun c => (c, s.copyRows c (s.rowsOpen c))

/-- The operation of a cluster by its number. -/
def opOf (s : State) (cluster id : Nat) : Option MxOp := s.mxops.find? fun o => o.id == id && o.cluster == cluster

/-- The collector of an operation starts where every group of A is there and has posted its token; the tokens are consumed once,
before the registers are full (R296, R299). -/
def started (s : State) (o : MxOp) : Option State :=
  let gs := (upFrom o.agrp 1 (o.acnt + 1)).filterMap fun i => s.groupAt o.wg i
  if gs.length ≠ o.acnt + 1 ∨ (!o.taken && gs.any fun x => x.2.tokens == 0) = true then none
  else
    let t := if o.taken then s else s.mxTokens o gs
    some (t.mxCollect ((t.mxops.find? fun x => x.id == o.id).getD o) gs)

/-- What the events of the copy, matrix and migration engines and of the links leave (R277 to R280, R296, R313, R317, R319,
R378, R381). -/
def engineEvent (s : State) : Instr → Option State
  | .lineFill core id => (copyNext s core id).bind fun (_, t, r) => match r with
      | .done c => some (t.putCopy c)
      | .stop .. => none
      | _ => some t
  | .copyCompletion core id => (s.copyOf core id).bind fun c =>
      if c.left ≠ [] then none
      else
        let t := { s with copies := s.copies.filter fun x => x.id != id }
        some (match c.bar with
          | some k => if c.delivers then
              (t.barLearn k c.clock).land k (c.planes * c.footprint / 16) c.ctx (t.copyRec c codeBarrierOverflow 4 3 none none) else t
          | none => t)
  | .copyStop core id => (copyNext s core id).bind fun (c, t, r) => match r with
      | .stop code detail va pa =>
        let t := { t with copies := t.copies.filter fun x => x.id != id }
        some ((t.settleDebt c.lines c.rows).fatal c.ctx { t.copyRec c code 4 3 va pa with detail := detail })
      | _ => none
  | .matrixStep cluster id => (opOf s cluster id).bind fun o =>
      if !s.mxNext o ∨ (s.mxRows o).any fun (c, b, r) => s.panBusy c (b + r) then none
      else if !o.isStep then some (s.mxBegin o [])
      else match mapFind s.latches cluster with
        | some l => if l.group = o.group then some ((s.mxLatched o l).mxBegin o l.rows) else started s o
        | none => started s o
  | .matrixStepComplete cluster id =>
    (s.mxops.find? fun o => o.id == id && o.cluster == cluster && o.started && !o.done).map fun o =>
      match s.mxWrong o with
      | some r => s.mxStop o codeContainer r
      | none =>
        let r := s.mxResults o
        let t := r.2.foldl (fun s (c, r, col, v) => if o.readsAcc then s.panWrite c r col v.toNat 4 else s.panPut c r col v.toNat 4) r.1
        let t := (t.mxTaint o r.2).mxDone o
        (if o.isStep && !o.reuse then
            { t with latches := t.latches.filter fun x => !(x.1 == cluster && x.2.group == o.group) }
          else t).mxConsume o (s.mxErrors o)
  | .tierHintRun eng => (s.migrHead eng).bind fun c =>
      if c.hint = 0 then none
      else some ((hintRuns ((upFrom c.va 65536 c.n).filterMap (s.hintFrame c.core c.ctx)) []).foldl
        (fun s (j, f, n) => s.sendHint j c.hint n f)
        (((upFrom c.va 65536 c.n).foldl (fun s va => s.probed (engineTlbs c.core) c.ctx va) s).migrDrop c.id))
  | .migrationPage eng => (s.migrHead eng).bind fun c =>
      if c.hint ≠ 0 then none
      else some (if c.phase = 0 then s.migrMark eng c else if c.phase = 1 then s.migrSync eng c
        else if c.phase = 2 then s.migrLine c else s.migrRemap eng c)
  | .messageArrival core dir => match mapGet s.sluFly (core, dir) [] with
      | [] => none
      | m :: r => some { s with
          sluFly := mapSet s.sluFly (core, dir) r
          sluBuf := mapSet s.sluBuf (core, dir) (mapGet s.sluBuf (core, dir) [] ++ [m]) }
  | .creditReturn core dir =>
    if mapGet s.sluRet (core, dir) 0 = 0 then none
    else some { s with
      sluRet := mapSet s.sluRet (core, dir) (mapGet s.sluRet (core, dir) 0 - 1)
      sluUsed := mapSet s.sluUsed (core, dir) (mapGet s.sluUsed (core, dir) 0 - 1) }
  | .sluiceTimeout gid sid => (s.issOf gid sid).bind fun I =>
      let bound := ((s.ctx I.G.ctx).slto.extractLsb' 0 24).toNat
      match I.S.wait with
      | .link (some d) ch o z since _ =>
        if I.S.st = .suspended ∧ bound ≠ 0 ∧ 64 * bound ≤ s.time I.die - since ∧
            (if z = 3 then !s.linkReady gid sid I.core (some d) ch o else (s.entryFor gid sid I.core d ch).isNone) = true then
          some (s.raise I { code := codeSluiceTimeout, src := 5, tmask := I.act, detail := linkDetail ch d (o.getD 0) z })
        else none
      | _ => none
  | _ => none

/-- The groups of a workgroup and its peer stand where they may be taken off their core (R416, R417). -/
def stopped (s : State) (unit : List Nat) (save : Bool) : Option State :=
  let t := unit.foldl State.holdGroups s
  if t.unitStill unit save then some t else none

/-- What the events of workgroups leave: pre-emption, restoration, tests, limits, placement (R28, R47, R347, R399, R400, R407,
R417, R418, R421, R425). -/
def groupEvent (s : State) : Instr → Option State
  | .preemptionDiscard w =>
    if !(s.wg w).any (fun x => x.preempting == some false) then none
    else (stopped s (s.unitOf w) false).bind fun t =>
      let gids := (t.unitGroups (s.unitOf w)).map (·.1)
      let u := gids.foldl State.discardGroup t
      if !t.unitQuiet (s.unitOf w) ∨ (u.unitGroups (s.unitOf w)).any (fun x => x.2.prods != []) then none
      else some ((s.unitOf w).foldl (fun s w => s.takeOff w false) u)
  | .preemptionSave w =>
    let saved (g : Group) : Bool := match g.stop with
      | .saved (some _) => true
      | _ => false
    if !(s.wg w).any (fun x => x.preempting == some true) then none
    else if (s.unitGroups (s.unitOf w)).all fun x => saved x.2 then
      if s.unitQuiet (s.unitOf w) then some ((s.unitOf w).foldl (fun s w => s.takeOff w true) s) else none
    else (stopped s (s.unitOf w) true).bind fun t =>
      let gids := (t.unitGroups (s.unitOf w)).map (·.1)
      let u := gids.foldl State.saveGroup t
      if (u.unitGroups (s.unitOf w)).any fun x => x.2.prods != [] then none
      else some (((u.unitGroups (s.unitOf w)).map (·.1)).foldl
        (fun s gid => s.enterTrap gid (((mapFind s.groups gid).map Group.firstSplit).getD 0) .save) u)
  | .workgroupRestore w core => (s.returnLanes w core).bind fun (v, d, l) =>
      match v.wg.peer with
      | none => some (s.putBack w v d core l)
      | some p =>
        if v.wg.w % 2 ≠ 0 ∨ core % 2 ≠ 0 then none
        else (s.returnLanes p (core + 1)).map fun (v', d', l') => (s.putBack w v d core l).putBack p v' d' (core + 1) l'
  | .inFieldTest cl =>
    if 35 < cl ∨ !s.testDue cl ∨ s.testBarred cl ∨ s.testing.contains cl ∨
        s.coresOut.any (fun x => (clusterCores cl).contains x.1) then none
    else some (((s.wgs.filter fun x => (clusterCores cl).contains x.2.core).map (·.1)).foldl State.askPreempt
      { s with
        testing := s.testing ++ [cl], testedAt := mapSet s.testedAt cl (s.time (cl / 4))
        coresOut := s.coresOut ++ [(2 * cl, false), (2 * cl + 1, false)] })
  | .testRunEnd cl pass =>
    if !s.testing.contains cl ∨ s.wgs.any (fun x => (clusterCores cl).contains x.2.core) then none
    else
      let t := { s with testing := s.testing.filter (· != cl) }
      if pass then some { t with coresOut := t.coresOut.filter fun x => !(clusterCores cl).contains x.1 }
      else
        let t := { t with coresOut := t.coresOut.map fun (x : Nat × Bool) =>
          if (clusterCores cl).contains x.1 then (x.1, true) else x }
        some (t.free.2.manage (cl / 4) 6 0 (1 + t.free.1.toNat % 31) cl none)
  | .waitBudget slot => (s.ctx slot).passedBound.bind fun (pc, loc, die, bound) =>
      if !s.cpRuns ∨ (s.ctx slot).st ≠ .live then none
      else
        let c := s.ctx slot
        let l := s.waiters slot
        let r := s.writeEntries slot c.snap ((l.take c.nsnap).map fun x => s.snapEntry x.2.1 x.2.2)
        some ((r.1.holdContext slot).record
          { queue := s.defaultQueue slot, ctx := none, seq := 0, src := 9, cls := 0, code := codeWaitBudget, pc := some pc
            va := none, pa := none, tmask := 0#32, loc := loc, skid := 0, time := 0
            detail := r.2 % 65536 + min 65535 (l.length - r.2) * 2 ^ 16 + bound * 2 ^ 32, die := die })
  | .trapWatchdog gid => ((mapFind s.groups gid).bind fun g => g.trap.map fun t => (g, t)).bind fun (g, t) =>
      if t.resting ∨ t.aclk < 2 ^ 24 then none
      else
        let u := match t.cause with
          | .fault r => s.record { r with cls := 4 }
          | _ => s
        some (u.fatal g.ctx
          { queue := u.queueOf g, ctx := none, seq := 0, src := 0, cls := 4, code := codeTrapWatchdog
            pc := (g.splits.head?).map (·.pc), va := none, pa := none, tmask := 0#32, loc := g.loc 0, skid := 0, time := 0
            detail := 0, die := g.die })
  | .nopreLimit gid => ((mapFind s.groups gid).bind fun g => g.nopre.map fun w => (g, w)).bind fun (g, w) =>
      if w.count < 2 ^ 20 then none
      else some (s.fatal g.ctx
        { queue := s.queueOf g, ctx := none, seq := 0, src := 0, cls := 4, code := codeNopreLimit, pc := some w.pc, va := none
          pa := none, tmask := 0#32, loc := g.loc w.split, skid := g.skidFrom w.at_, time := 0, detail := 0, die := g.die })
  | .resourceReturn w => (s.wg w).bind fun x =>
      if !s.schedulerRuns (dieOfCore x.core) then none
      else if x.parted then some (s.returnRows w)
      else if !s.wgOver w x then none
      else some (((s.release x.core 6).modWg w fun x => { x with parted := true }).returnRows w)
  | .workgroupPlacement die => s.placement die
  | .priorityAging k => (mapFind s.grids k).bind fun d =>
      if d.st = .placing ∧ d.level < 7 then some (s.modGrid k fun d => { d with level := d.level + 1 }) else none
  | _ => none

/-- What the events of grids and of host queues leave (R394, R396, R398, R401, R402). -/
def gridEvent (s : State) : Instr → Option State
  | .gridReady k => (mapFind s.grids k).bind fun d => if !s.cpRuns then none else match d.st with
      | .accepted =>
        if d.deps.any fun x => s.depNow x == .failed then some (s.rejectGrid k d 8)
        else if s.depsMet d then some ((s.modGrid k fun d => { d with st := .migrating }).sendRanges k d) else none
      | .migrating => some (s.sendRanges k d)
      | _ => none
  | .rangeListComplete k => (mapFind s.grids k).bind fun d =>
      if s.cpRuns ∧ d.st = .migrating ∧ (d.rlist.all (·.done)) = true then some (s.modGrid k fun d => { d with st := .placing }) else none
  | .gridRetirement k => (mapFind s.grids k).bind fun d =>
      if !s.cpRuns ∨ !s.gridOver k d then none
      else
        let t := { s with consts := mapDrop s.consts fun x => x.1 == k }
        let t := (t.freeSluice k d).modGrid k fun d => { d with st := .retired }
        some ((match d.parent with
          | some p => t.modGrid p fun x => { x with finish := x.finish.join d.finish }
          | none => t).signalGrid d 0)
  | .dieFence die =>
    if !s.present die then none
    else
      let s := { s with dpres := s.dpres &&& ~~~(1#9 <<< die) }
      let hit := s.openCtxs.filter fun k => (s.wgs.any fun x => x.2.ctx == k && dieOfCore x.2.core == die) ||
        s.saved.any fun x => x.2.wg.ctx == k && s.cannotReturn x.2
      let t := hit.foldl (fun s k => s.endByPlane k 9 die) s
      some ((t.grids.map (·.1)).foldl State.recheckGrid t)
  | .hostQueueConsume q =>
    if !s.cpRuns ∨ s.queueTurn ≠ some q then none
    else
      let x := s.queue q
      let t := { s with nextQueue := q + 1 }
      some (if (t.ctx x.slot).st ≠ .live then t.stopQueue q 3
        else if 2 ^ x.lg < (x.tail - x.head).toNat then t.stopQueue q 2
        else match t.physWords (x.base.toNat + 128 * (x.head.toNat % 2 ^ x.lg)) 32 with
          | none => t.stopQueue q 1
          | some ws => (t.acceptHost (dwords ws) x.slot (BitVec.ofNat 32 (2 ^ 18 * q + x.head.toNat % 2 ^ 18))).modQueue q
              fun x => { x with head := x.head + 1 })
  | _ => none

/-- What the delivery of error records leaves (R346, R451). -/
def recordEvent (s : State) : Instr → Option State
  | .errorRecordAppend i => (s.pend[i]?).bind fun r => r.queue.slot.bind fun k =>
      if !s.mayDeliver i then none
      else if s.orphan r then some (s.unpend i)
      else some (((s.deliverTo (some k) r.queue.va 0 r.urec).1.unpend i).settleDrops r.die)
  | .managementRecordAppend i => (s.pend[i]?).bind fun r =>
      if r.queue.slot.isSome ∨ !s.mayDeliver i then none
      else match s.deliverTo none s.host.mgqDesc.toNat 0 r.urec with
        | (t, .written) => some (((t.unpend i).modHost HostRegs.raiseMsix).settleDrops r.die)
        | (t, _) => some ((t.unpend i).settleDrops r.die)
  | .unconsumedError die pa corrected =>
    if homeDie pa ≠ die ∨ !backed pa ∨ inWindow pa then none
    else
      let v := s.free
      let w := v.2.free
      let t := if corrected then w.2 else w.2.poisonMemory pa
      some (t.manage die 13 (if corrected then 1 else 2 * (w.1.toNat % 2)) (1 + v.1.toNat % 31) 0 (some (pa / 64 * 64)))
  | _ => none

/-- A command to a context slot: written in its register, and taken up at once, or when the command processor runs again
(R18, R391, R409). -/
def commanded (s : State) (k cmd : Nat) (f : State → State) : Option State :=
  let t := s.modCtx k fun c => { c with cmd := cmd }
  if 1024 ≤ k then none
  else some (if s.cpRuns then f t else t.modCtx k fun c => { c with todo := c.todo ++ [cmd] })

/-- What the control plane's events and the hosts' commands to context slots and queues leave (R18, R391 to R393, R409,
R415). -/
def planeEvent (s : State) : Instr → Option State
  | .voteDisagreement b two =>
    let v := s.vote b
    if 18 < b ∨ !v.2.2.1 then none
    else if two && !v.2.2.2 then
      some ({ s.free.2 with votes := mapSet s.votes b (min 0xFFFF (v.1 + 1), v.2.1, true, true) }.manage (blockDie b) (blockSrc b) 1
        (1 + s.free.1.toNat % 31) 0 none)
    else
      let a := { s with votes := mapSet s.votes b (v.1, min 0xFF (v.2.1 + 1), false, false) }.affected b
      some ({ a.2 with struck := mapSet a.2.struck b (a.1.map fun k => (a.2.ctxId k).toNat) }.manage (blockDie b) (blockSrc b) 4
        codeControlPlane 0 none)
  | .resyncComplete b =>
    let v := s.vote b
    if v.2.2.1 && v.2.2.2 then some { s with votes := mapSet s.votes b (v.1, v.2.1, true, false) } else none
  | .controlPlaneRestart b =>
    let v := s.vote b
    if 18 < b ∨ v.2.2.1 then none
    else
      let a := { s with votes := mapSet s.votes b (v.1, v.2.1, true, false) }.struckBy b
      let t := a.1.foldl (fun s k => s.endByPlane k (blockSrc b) (blockDie b)) { a.2 with struck := mapDel a.2.struck b }
      some (if b ≠ 0 then t
        else
          let r := (((t.queues.filter fun x => x.2.en).map (·.1)).foldl (fun s q => s.stopQueue q 5) t).takeTodo
          r.1.foldl (fun s x => s.ctxCommand x.1 x.2) r.2)
  | .contextCreate k => commanded s k 1 fun s => s.createCtx k
  | .contextDestroy k => commanded s k 2 fun s => s.destroyCtx k
  | .contextResume k => commanded s k 3 fun s => s.resumeCtx k
  | .contextReset k => commanded s k 4 fun s => s.hostReset k
  | .contextEnd k =>
    let t := s.dropHopeless k
    if !s.cpRuns ∨ (s.ctx k).st ≠ .resetting ∨ !t.ctxQuiet k then none
    else
      let u := t.freeCtx k
      some (if (u.ctx k).destroy then u.freeSlotOf k else u.modCtx k fun c => { c with st := .ended })
  | .preemptionRequest k => if 1024 ≤ k ∨ (s.ctx k).st ≠ .live then none else some (s.holdContext k)
  | .breakpointResume k loc =>
    if 1024 ≤ k then none
    else
      let t := s.modCtx k fun c => { c with dbgLoc := loc }
      some { t with groups := t.groups.map fun (x : Nat × Group) =>
        if x.2.ctx == k then
          (x.1, { x.2 with splits := x.2.splits.map fun (p : Split) =>
            if p.st == .brk && x.2.loc p.idx == loc then { p with st := .ready } else p })
        else x }
  | .pageResumeDoorbell k => if 1024 ≤ k then none else some (s.wakePages fun g _ => g.ctx == k)
  | .queueEnable q ctl =>
    let lg := (ctl.extractLsb' 16 4).toNat
    let slot := (ctl.extractLsb' 0 10).toNat
    if 8192 ≤ q ∨ (s.queue q).en then none
    else
      let t := s.modQueue q fun x => { x with lg := lg, slot := slot }
      some (if (s.queue q).base.toNat % 128 ≠ 0 ∨ lg < 4 then t.stopQueue q 4
        else if (s.ctx slot).st ≠ .live ∧ (s.ctx slot).st ≠ .held then t.stopQueue q 3
        else t.modQueue q fun x => { x with en := true, head := 0#32, tail := 0#32 })
  | .queueDisable q => if 8192 ≤ q then none else some ((s.modQueue q fun x => { x with en := false }).failPending q)
  | .queueDoorbell q tail =>
    let dark : Bool := match regionOf (s.queue q).base.toNat with
      | .host h => s.host.inReset.contains h
      | _ => false
    if 8192 ≤ q ∨ dark then none else some (s.modQueue q fun x => { x with tail := tail })
  | _ => none

/-- What the events of time, ports, boot, heat and reset leave (R375, R439, R445, R453 to R461). -/
def deviceEvent (s : State) : Instr → Option State
  | .frameBoundary => some { s with
      frame := s.frame + 1, qosctlNow := s.qosctl, qosqNow := s.qosq
      agenda := if (s.frame + 1).toNat % 2 ^ 16 = 0 then s.agenda ++ [.event .timeConversionUpdate] else s.agenda }
  | .timeConversionUpdate =>
    if s.frame.toNat % 2 ^ 16 ≠ 0 then none
    else
      let now : Map Nat Nat := s.presentDies.map fun d => (d, s.time d)
      let before : Map Nat Nat := s.samples.getLast?.getD []
      some ((s.presentDies.flatMap fun i => (s.presentDies.filter (· != i)).map fun j => (i, j)).foldl (fun s (i, j) =>
        let v := s.free
        let w := v.2.free
        let new := fitPair (mapGet before i 0) (mapGet before j 0) (mapGet now i 0) (mapGet now j 0) v.1 w.1
          (mapGet w.2.conv (i, j) (0x100000000#64, 0#64))
        { w.2 with conv := mapSet w.2.conv (i, j) new }) { s with samples := [before, now] })
  | .cxlReadTimeout j =>
    if 5 < j ∨ (s.port j).iso then none
    else
      let lines := (s.farDirty.filter fun x => ofPort j x.1).foldl
        (fun (acc : List Nat) x => if acc.contains (lineOf x.1) then acc else lineOf x.1 :: acc) []
      let t := s.modPort j fun p => { p with
        iso := true, active := false, training := false
        wdrop := BitVec.ofNat 16 (min 0xFFFF ((s.port j).wdrop.toNat + lines.length)) }
      some ({ t with
        farDirty := t.farDirty.filter fun x => !ofPort j x.1
        poison := (t.expPoison.filter fun l => ofPort j (64 * l)).map (fun l => (l, 0#16)) ++
          mapDrop t.poison fun l => ofPort j (64 * l)
        groups := t.groups.map fun (x : Nat × Group) =>
          (x.1, { x.2 with prods := x.2.prods.map fun (p : Producer) => p.failWhere codeTimeoutIsolated 2 (ofPort j) })
        migr := t.migr.map fun (x : Nat × MigrCmd) => (x.1, x.2.isolated j) }.manage
            (portDie j) 11 0 codeTimeoutIsolated j none)
  | .hostCompletionTimeout gid id =>
    ((mapFind s.groups gid).bind fun g => g.prods.find? fun p => p.id == id).bind fun p =>
      if !p.ext.any fun x => isHostMem x.2.1 then none
      else
        let t := s.modGroup gid fun g => { g with
          prods := g.prods.map fun (p : Producer) => if p.id == id then p.failWhere codePoisonConsumed 11 isHostMem else p }
        some ((t.fill gid id).1.dropExited gid)
  | .isolationEnd j =>
    if 5 < j ∨ !(s.port j).iso ∨ !(s.port j).active then none else some (s.modPort j fun p => { p with iso := false, wdrop := 0#16 })
  | .linkRetrain j => if 5 < j then none else some (s.modPort j fun p => { p with active := false, training := true })
  | .dataLinkLayerLinkActive j =>
    if 5 < j ∨ !(s.port j).training then none else some (s.modPort j fun p => { p with active := true, training := false })
  | .portReset h => if 1 < h ∨ s.host.inReset.contains h then none else some (s.modHost fun x => { x with inReset := x.inReset ++ [h] })
  | .portResetExit h => some (s.modHost fun x => { x with inReset := x.inReset.filter (· != h) })
  | .attestationReport =>
    if !s.host.attGo then none else
    let body := s.reportBody
    let ws := bytesWords (body ++ (List.range 64).map (Config.signature s.tick (digestOf body)))
    let dst := s.host.attDst.toNat
    some ((if dst % 64 = 0 ∧ isHostMem dst then
        s.homeWords dst ws
      else s).modHost fun h => { h with attGo := false, attUse := [] })
  | .registerWrite off v => if s.host.booted then some (s.windowWrite off v) else none
  | .moduleReset => some s.resetModule
  | .signedBoot =>
    if s.host.booted ∨ s.host.bootFail then none
    else if !Config.imageSigned s.tick then some (s.modHost fun h => { h with bootFail := true })
    else some ((List.range 6).foldl (fun s j => s.modPort j fun p => { p with active := decide (0 < Config.farCapacity j) })
      (s.modHost fun h => (upFrom 1 1 7).foldl (fun h m => h.extend m ((List.range 32).map (Config.measured m)))
        ({ h with booted := true, bootFail := false }.extend 0 ((List.range 32).map Config.imageDigest))))
  | .thermalTrip => some (s.modHost fun h => { h with thTrip := true }).resetModule
  | .thermalThrottle die =>
    if 8 < die ∨ s.host.throttled.contains die then none
    else
      let v := (s.modHost fun h => { h with throttled := h.throttled ++ [die] }).free
      some (v.2.manage die 11 (v.1.toNat / 32 % 2) (1 + v.1.toNat % 31) die none)
  | _ => none

/-! ### The forms of the statements

Each form is about one instruction: F gives, for the instructions of its family, what the rules say of it in a state. -/

/-- The word writes a data operand as its row says, and changes nothing else, wherever the checks of R90 pass. -/
def Writes (s : State) (I : Iss) (F : Instr → Option Row) (i : Instr) : Prop :=
  ∀ r, F i = some r → I.gate r.need = .go → ∃ t, Sys2Proof.Machine.exec i s = .next t ∧ r.Wrote s t I

/-- The word writes a predicate as its row says, and changes nothing else, wherever the checks of R90 pass. -/
def WritesPred (s : State) (I : Iss) (F : Instr → Option PredRow) (i : Instr) : Prop :=
  ∀ r, F i = some r → I.gate r.need = .go → ∃ t, Sys2Proof.Machine.exec i s = .next t ∧ r.Wrote s t I

/-- The word writes a data operand as its row says, the carry of each active thread into the predicate mode.sp unless that is
p0, and nothing else (R108). -/
def WritesCarry (s : State) (I : Iss) (F : Instr → Option (Row × (Nat → Bool))) (i : Instr) : Prop :=
  ∀ r carry, F i = some (r, carry) → I.gate r.need = .go → ∃ t g, Sys2Proof.Machine.exec i s = .next t ∧
    mapFind t.groups I.gid = some g ∧ r.Held I { g with preds := I.G.preds } ∧ g.WentOn I r.e ∧
    (∀ p y, y < 32 → g.pred p y = if p = I.S.selP ∧ p ≠ 0 ∧ I.act.getLsbD y = true then carry y else I.G.pred p y) ∧
    SameGroup g I.G ∧ t.lanes = s.lanes ∧ OnlyGroup s t I

/-- A word that fails a check of R90 raises its fault and has no other effect: UNIFORM-ASSERT is the scalarisation unit's, every
other record the word's own engine's (R99). One that finds an empty register waits for it, and one with an empty active mask
leaves what is given for it, if anything is (R34, R81, R90). -/
def Halts (s : State) (I : Iss) (n : Need) (skipped : Option State) (i : Instr) : Prop :=
  (∀ c, I.gate n = .fault c → Sys2Proof.Machine.exec i s = .next (s.raise I
    { code := c, src := if n.src = 0 ∧ c = codeUniformAssert then 1 else n.src, tmask := n.mask, detail := n.detail })) ∧
  (∀ l, I.gate n = .wait l → Sys2Proof.Machine.exec i s = .next (s.awaitRegs I l false)) ∧
  (∀ t, skipped = some t → I.gate n = .skip → Sys2Proof.Machine.exec i s = .next t)

/-- A word of registers that fails a check: with an empty active mask it only advances. -/
def Stops (s : State) (I : Iss) (F : Instr → Option Row) (i : Instr) : Prop :=
  ∀ r, F i = some r → Halts s I r.need (some (s.advance I r.e)) i

/-- The same of a word that writes a predicate. -/
def StopsPred (s : State) (I : Iss) (F : Instr → Option PredRow) (i : Instr) : Prop :=
  ∀ r, F i = some r → Halts s I r.need (some (s.advance I r.e)) i

/-- The same of the carry chain. -/
def StopsCarry (s : State) (I : Iss) (F : Instr → Option (Row × (Nat → Bool))) (i : Instr) : Prop :=
  ∀ r carry, F i = some (r, carry) → Halts s I r.need (some (s.advance I r.e)) i

/-- The same of a word whose state afterwards is given. -/
def StopsHere (s : State) (I : Iss) (e : Bool) (F : Instr → Option (Need × Option State)) (i : Instr) : Prop :=
  ∀ n o, F i = some (n, o) → Halts s I n (some (s.advance I e)) i

/-- The same of a word that begins a region: with an empty active mask it is its region boundary and no more (R43, R81). -/
def StopsBound (s : State) (I : Iss) (e : Bool) (F : Instr → Option (Need × Option State)) (i : Instr) : Prop :=
  ∀ n o, F i = some (n, o) → Halts s I n ((throughBoundary s I).map fun t => t.newRegion I e) i

/-- The same of the barrier words, of which some act with an empty active mask too (R81, R243). -/
def StopsOnly (s : State) (I : Iss) (F : Instr → Option (Need × Option State)) (i : Instr) : Prop :=
  ∀ n o, F i = some (n, o) → Halts s I n none i

/-- The same of a transfer. -/
def StopsJump (s : State) (I : Iss) (F : Instr → Option Jump) (i : Instr) : Prop :=
  ∀ j, F i = some j → Halts s I j.need (some (s.advance I true)) i

/-- The word leaves the state that its rule gives, wherever the checks of R90 pass and the rule lets it have its effect. -/
def Leaves (s : State) (I : Iss) (F : Instr → Option (Need × Option State)) (i : Instr) : Prop :=
  ∀ n t, F i = some (n, some t) → I.gate n = .go → Sys2Proof.Machine.exec i s = .next t

/-- The needs of a load by translated address, and the state after it. -/
def loadLeft (s : State) (I : Iss) (i : Instr) : Option (Need × Option State) :=
  (loadOf I i).map fun l => (I.loadNeed l.u l.d [l.a], l.done s I)

/-- The needs of a store, and the state after it. -/
def storeLeft (s : State) (I : Iss) (i : Instr) : Option (Need × Option State) :=
  (storeOf I i).map fun w => (I.need w.u true [] [w.d, w.a] .uniform, w.done s I)

/-- The needs of an atomic, and the state after it. -/
def atomLeft (s : State) (I : Iss) (i : Instr) : Option (Need × Option State) :=
  (atomOf I i).map fun w => (w.need, w.done s I)

/-- A transfer leaves its group parted into the paths of its threads, and changes nothing outside the group (R117). -/
def Transfers (s : State) (I : Iss) (F : Instr → Option Jump) (i : Instr) : Prop :=
  ∀ j g, F i = some j → I.gate j.need = .go → j.ok I → (j.link I.G).diverge I.sid (j.paths I) = some g →
    Sys2Proof.Machine.exec i s = .next { s with groups := mapSet s.groups I.gid g }

/-- The threads that take a transfer to a target that fails a check. -/
def Jump.failing (j : Jump) (I : Iss) (p : Int → Bool) : Mask := maskOf fun t => j.goes I t && p (j.target t)

/-- A transfer that may not go raises its fault in place of it, in the order of R120 after U = 1 (R90, R120, R121); one whose
paths overflow the stack raises RECONV-DEPTH (R37). -/
def TransferFails (s : State) (I : Iss) (F : Instr → Option Jump) (i : Instr) : Prop :=
  ∀ j, F i = some j → I.gate j.need = .go →
    let odd := if j.relative then 0#32 else j.failing I fun x => x % 4 != 0
    let out := j.failing I fun x => !targetOk x
    let raises (code : Nat) (m : Mask) : Prop := Sys2Proof.Machine.exec i s =
      .next (s.raise I { code := code, tmask := m, va := some (j.target (lowest m) % 2 ^ 64).toNat })
    (j.u = true ∧ 1 < (j.paths I).length → Sys2Proof.Machine.exec i s = .next (s.raiseCode I codeUniformAssert)) ∧
    (¬(j.u = true ∧ 1 < (j.paths I).length) →
      (odd ≠ 0#32 → raises codeMisaligned odd) ∧
      (odd = 0#32 → out ≠ 0#32 → raises (if j.relative then codeVaWrap else codeNoncanonical) out)) ∧
    (j.ok I → (j.link I.G).diverge I.sid (j.paths I) = none →
      Sys2Proof.Machine.exec i s = .next (s.raiseCode I codeReconvDepth))

/-- The active threads of which something holds. -/
def those (I : Iss) (p : Nat → Bool) : Mask := I.act &&& maskOf p

/-- Where the checks of R90 pass, an access by translated address makes those of R168 in their order, before any thread performs it: the
first that any thread fails is the only fault, its mask names every thread that fails it, and va is the lowest one's effective
address. A page that is absent or moving comes before any refusal, and the word waits for it (R45, R369). The thread is in no
transaction; a region word has passed its boundary. -/
def ChecksAddress (s : State) (I : Iss) (F : Instr → Option Access) (i : Instr) : Prop :=
  ∀ c z, F i = some c → I.gate c.need = .go → I.G.txs = [] → (if c.region then throughBoundary s I else some s) = some z → (I.now z).txs = [] →
    let odd := those I fun t => c.x t % c.n != 0
    let out := those I fun t =>
      (I.G.pairVal c.a t).extractLsb' 56 8 != if (I.G.pairVal c.a t).getLsbD 55 then 0xFF#8 else 0#8
    let wrap := those I fun t => decide (c.x t < 0) || !canonical (c.x t).toNat || !canonical ((c.x t).toNat + c.n - 1)
    let raises (code : Nat) (m : Mask) : Prop := Sys2Proof.Machine.exec i s =
      .next (z.raise I { code := code, src := 2, tmask := m, va := some (c.x (lowest m) % 2 ^ 64).toNat })
    (odd ≠ 0#32 → raises codeMisaligned odd) ∧
    (odd = 0#32 → out ≠ 0#32 → raises codeNoncanonical out) ∧
    (odd = 0#32 → out = 0#32 → wrap ≠ 0#32 → raises codeVaWrap wrap) ∧
    (odd = 0#32 → out = 0#32 → wrap = 0#32 →
      let x (t : Nat) : Nat := (c.x t).toNat
      let r := z.lookAll (laneTlbs I.G.lane) I.G.ctx { write := c.write, fetch := false, keys := true } (pagesOf I.act x c.n)
      let absent := (r.2.filter fun p => p.2 == .absent).map fun p => (p.1, touching I.act x c.n p.1)
      let moving := (r.2.filter fun p => p.2 == .moving).map (·.1)
      let refused := those I fun t => (r.1.refusal I r.2 x c.n c.windowOk t).isSome
      (absent ≠ [] ∨ moving ≠ [] → Sys2Proof.Machine.exec i s =
        .next ((r.1.settleMoving (laneTlbs I.G.lane) I.G.ctx r.2).pageWait I absent moving)) ∧
      (absent = [] → moving = [] → refused ≠ 0#32 →
        ∀ reason level, r.1.refusal I r.2 x c.n c.windowOk (lowest refused) = some (reason, level) →
          Sys2Proof.Machine.exec i s = .next (r.1.raise I
            { code := codeProtection, src := 7, tmask := refused, va := some (x (lowest refused)), detail := reason + 16 * level })))

/-- The same of an access to a scratchpad: an offset that is no multiple of the width, then one in neither the own range nor the
peer's (R167, R168). -/
def ChecksOffset (s : State) (I : Iss) (F : Instr → Option OffsetAccess) (i : Instr) : Prop :=
  ∀ c z, F i = some c → I.gate c.need = .go → I.G.txs = [] → (if c.region then throughBoundary s I else some s) = some z → (I.now z).txs = [] →
    let g := I.acting z
    let size : Int := (((z.gridOf g).map Grid.scratchBytes).getD 0 : Nat)
    let peer := ((z.wg g.wg).bind (·.peer)).isSome
    let odd := those I fun t => c.o t % c.n != 0
    let out := those I fun t => !(decide (0 ≤ c.o t) && (decide (c.o t < size) ||
      (peer && c.peerOk && decide (2 ^ 31 ≤ c.o t) && decide (c.o t < 2 ^ 31 + size))))
    (odd ≠ 0#32 → Sys2Proof.Machine.exec i s = .next (z.raise I { code := codeMisaligned, src := 2, tmask := odd })) ∧
    (odd = 0#32 → out ≠ 0#32 → Sys2Proof.Machine.exec i s = .next (z.raise I
      { code := codeScratchBound, src := 2, tmask := out, detail := (c.o (lowest out) % 2 ^ 32).toNat }))

/-- The same of an access to the constants: an offset that is no multiple of the width, then one at or above csize (R168, R177). -/
def ChecksConstant (s : State) (I : Iss) (F : Instr → Option OffsetAccess) (i : Instr) : Prop :=
  ∀ c, F i = some c → I.gate c.need = .go → I.G.txs = [] →
    let size : Int := (((s.gridOf I.G).map (·.csize)).getD 0 : Nat)
    let odd := those I fun t => c.o t % c.n != 0
    let out := those I fun t => decide (c.o t < 0) || decide (size ≤ c.o t)
    (odd ≠ 0#32 → Sys2Proof.Machine.exec i s = .next (s.raise I { code := codeMisaligned, src := 2, tmask := odd })) ∧
    (odd = 0#32 → out ≠ 0#32 → Sys2Proof.Machine.exec i s = .next (s.raise I
      { code := codeConstBound, src := 2, tmask := out, detail := (c.o (lowest out) % 2 ^ 32).toNat }))

/-- A command that its engine does not accept raises the first fault of its checks, precise and with no other effect, after its region
boundary and in place of its acceptance (R260). -/
def Refuses (s : State) (I : Iss) (F : State → Instr → Option Refusals) (i : Instr) : Prop :=
  ∀ c z x, atBoundary s I I.act = some z → I.S.released = false → I.S.counted = false → F z i = some c → I.gate c.need = .go →
    (c.lead = true → I.G.idx = 0) → c.grounds.find? (·.holds) = some x →
    Sys2Proof.Machine.exec i s = .next (z.raise I
      { code := x.code, src := c.src, tmask := I.act, va := x.va, pa := x.pa, detail := x.detail })

/-- An event that is due leaves the state given. -/
def Happens (s : State) (F : Instr → Option State) (i : Instr) : Prop :=
  ∀ t, F i = some t → Sys2Proof.Machine.exec i s = .next t

/-! ### A step -/

/-- What happens next in a state is an act, on the state given: the head of the agenda, where the device has booted or the
act reaches one that has not; with an empty agenda, what timing picks from what is enabled (R32). -/
def Due (s : State) (a : Act) (t : State) : Prop :=
  (∃ r, s.agenda = a :: r ∧ t = { s with agenda := r } ∧ (s.host.booted || a.beforeBoot) = true) ∨
    (s.agenda = [] ∧ s.host.booted = true ∧ t = s ∧ s.enabled[Config.choice s.tick % s.enabled.length]? = some a)

/-- An outcome with the time of its step added. -/
def timed (r : Host.Outcome State Fault Refusal) : Host.Outcome State Fault Refusal :=
  match r with
  | .next t => .next t.afterStep
  | .fault f => .fault f
  | .refused f => .refused f

/-- A lane issues in a state for a split that is in no macro call and has words of its run left: the split, as the state
holds it when the word is fetched (R29, R89). -/
def Issues (s : State) (lane : Nat) (t : State) (I : Iss) : Prop :=
  ∃ t0, Due s (.issue lane) t0 ∧ t = { t0 with cur := t0.holder lane } ∧ t.iss = some I ∧ I.S.call = none

/-- The exclusive or of one bit and the CRC so far, by the polynomial 0x1021 (R98). -/
def crcBit (c : BitVec 16) (b : Bool) : BitVec 16 := c <<< 1 ^^^ if c.msb != b then 0x1021#16 else 0#16

end Sys2Proof.Claims

open Sys2Proof Sys2Proof.Machine Sys2Proof.Claims

/-- A step runs the decoded instruction: where a lane's next word is fetched at the pc and decodes to an instruction, the step is
that instruction, run by the split that now holds its word, and the time it takes (R29, R89, R90); a word that waited goes on as
it was fetched, with no fetch of its own (R30); and a predicate that a `cas` is still to write holds the word (R242). Inside a
macro call it is the call's next operation: the routine's word with the call's registers put in (R222, R223). In paired
execution this is the step of a word whose copies agree. Where the rules leave a point open, this is the model's own reading or
choice: log entry 12. -/
def Obligations.StepRunsDecodedWord : Prop := (∀ (s t : State) (lane : Nat) (I : Iss) (w : Word) (i : Instr),
  Issues s lane t I → decode w = .ok i →
  (∀ (u : State) (J : Iss), I.S.word = none → I.S.run < 24 → t.fetch I = (u, .word w) →
    let v := u.modSplit I.gid I.sid fun p => { p with word := some w }
    v.iss = some J →
    (J.predDue i = none → (J.G.pair = true → mapFind v.upsets J.G.lane = none) →
      step s = timed (Sys2Proof.Machine.exec i v)) ∧
    (∀ q, J.predDue i = some q → step s = timed (.next (v.stall J (.pred q))))) ∧
  (I.S.word = some w →
    (I.predDue i = none → (I.G.pair = true → mapFind t.upsets I.G.lane = none) →
      step s = timed (Sys2Proof.Machine.exec i t)) ∧
    (∀ q, I.predDue i = some q → step s = timed (.next (t.stall I (.pred q)))))) ∧
  ∀ (s t : State) (lane : Nat) (I J : Iss) (c : Call) (p : Strip) (i : Instr),
  (∃ t0, Due s (.issue lane) t0 ∧ t = { t0 with cur := t0.holder lane }) → t.iss = some I → I.S.call = some c →
  let words := ((((t.gridOf I.G).map (·.image)).getD [])[c.routine]?.map (·.words)).getD []
  let u := t.modSplit I.gid I.sid fun q => { q with call := some { c with last := decide (words.length ≤ c.op + 1) } }
  macroSubst c (words.getD c.op 0#32) = some p → decodeColumns p = .ok i → u.iss = some J → J.predDue i = none →
  (J.G.pair = true → mapFind u.upsets J.G.lane = none) →
  step s = timed (Sys2Proof.Machine.exec i u)

/-- A step takes the event that is due: it is the row of that name, and the time it takes. A device that has not booted boots with
the first step that nothing else reaches, and stays in reset where its boot has failed (R31, R32, R454). Where the rules leave a
point open, this is the model's own reading or choice: log entries 3 and 7. -/
def Obligations.StepTakesEvents : Prop := ∀ s t : State,
  (∀ (eng : Nat), Due s (.event (.tierHintRun eng)) t → step s = timed (Sys2Proof.Machine.exec (.tierHintRun eng) t)) ∧
  (∀ (eng : Nat), Due s (.event (.migrationPage eng)) t → step s = timed (Sys2Proof.Machine.exec (.migrationPage eng) t)) ∧
  (∀ (group : Nat), Due s (.event (.nopreLimit group)) t → step s = timed (Sys2Proof.Machine.exec (.nopreLimit group) t)) ∧
  (∀ (lane : Nat), Due s (.event (.laneArbitration lane)) t → step s = timed (Sys2Proof.Machine.exec (.laneArbitration lane) t)) ∧
  (∀ (group split : Nat), Due s (.event (.splitResume group split)) t → step s = timed (Sys2Proof.Machine.exec (.splitResume group split) t)) ∧
  (∀ (group id : Nat), Due s (.event (.producerFill group id)) t → step s = timed (Sys2Proof.Machine.exec (.producerFill group id) t)) ∧
  (∀ (group split : Nat), Due s (.event (.pollCompletion group split)) t → step s = timed (Sys2Proof.Machine.exec (.pollCompletion group split) t)) ∧
  (∀ (core part ctx va : Nat) (write fetch : Bool), Due s (.event (.walk core part ctx va write fetch)) t → step s = timed (Sys2Proof.Machine.exec (.walk core part ctx va write fetch) t)) ∧
  (∀ (group split : Nat), Due s (.event (.pageWaitRetry group split)) t → step s = timed (Sys2Proof.Machine.exec (.pageWaitRetry group split) t)) ∧
  (∀ (core line : Nat), Due s (.event (.l1Eviction core line)) t → step s = timed (Sys2Proof.Machine.exec (.l1Eviction core line) t)) ∧
  (∀ (wg off : Nat), Due s (.event (.windowWriteBack wg off)) t → step s = timed (Sys2Proof.Machine.exec (.windowWriteBack wg off) t)) ∧
  (∀ (id : Nat), Due s (.event (.remoteWriteCheck id)) t → step s = timed (Sys2Proof.Machine.exec (.remoteWriteCheck id) t)) ∧
  (∀ (id : Nat), Due s (.event (.writeAcknowledgement id)) t → step s = timed (Sys2Proof.Machine.exec (.writeAcknowledgement id) t)) ∧
  (∀ (core id : Nat), Due s (.event (.lineFill core id)) t → step s = timed (Sys2Proof.Machine.exec (.lineFill core id) t)) ∧
  (∀ (core id : Nat), Due s (.event (.copyCompletion core id)) t → step s = timed (Sys2Proof.Machine.exec (.copyCompletion core id) t)) ∧
  (∀ (core id : Nat), Due s (.event (.copyStop core id)) t → step s = timed (Sys2Proof.Machine.exec (.copyStop core id) t)) ∧
  (∀ (cluster id : Nat), Due s (.event (.matrixStep cluster id)) t → step s = timed (Sys2Proof.Machine.exec (.matrixStep cluster id) t)) ∧
  (∀ (cluster id : Nat), Due s (.event (.matrixStepComplete cluster id)) t → step s = timed (Sys2Proof.Machine.exec (.matrixStepComplete cluster id) t)) ∧
  (∀ (core dir : Nat), Due s (.event (.messageArrival core dir)) t → step s = timed (Sys2Proof.Machine.exec (.messageArrival core dir) t)) ∧
  (∀ (core dir : Nat), Due s (.event (.creditReturn core dir)) t → step s = timed (Sys2Proof.Machine.exec (.creditReturn core dir) t)) ∧
  (∀ (group split : Nat), Due s (.event (.sluiceTimeout group split)) t → step s = timed (Sys2Proof.Machine.exec (.sluiceTimeout group split) t)) ∧
  (∀ (slot : Nat), Due s (.event (.waitBudget slot)) t → step s = timed (Sys2Proof.Machine.exec (.waitBudget slot) t)) ∧
  (∀ (group : Nat), Due s (.event (.trapWatchdog group)) t → step s = timed (Sys2Proof.Machine.exec (.trapWatchdog group) t)) ∧
  (∀ (wg : Nat), Due s (.event (.preemptionDiscard wg)) t → step s = timed (Sys2Proof.Machine.exec (.preemptionDiscard wg) t)) ∧
  (∀ (wg : Nat), Due s (.event (.preemptionSave wg)) t → step s = timed (Sys2Proof.Machine.exec (.preemptionSave wg) t)) ∧
  (∀ (wg core : Nat), Due s (.event (.workgroupRestore wg core)) t → step s = timed (Sys2Proof.Machine.exec (.workgroupRestore wg core) t)) ∧
  (∀ (cluster : Nat), Due s (.event (.inFieldTest cluster)) t → step s = timed (Sys2Proof.Machine.exec (.inFieldTest cluster) t)) ∧
  (∀ (cluster : Nat) (pass : Bool), Due s (.event (.testRunEnd cluster pass)) t → step s = timed (Sys2Proof.Machine.exec (.testRunEnd cluster pass) t)) ∧
  (∀ (wg : Nat), Due s (.event (.resourceReturn wg)) t → step s = timed (Sys2Proof.Machine.exec (.resourceReturn wg) t)) ∧
  (∀ (index : Nat), Due s (.event (.errorRecordAppend index)) t → step s = timed (Sys2Proof.Machine.exec (.errorRecordAppend index) t)) ∧
  (∀ (index : Nat), Due s (.event (.managementRecordAppend index)) t → step s = timed (Sys2Proof.Machine.exec (.managementRecordAppend index) t)) ∧
  (∀ (die pa : Nat) (corrected : Bool), Due s (.event (.unconsumedError die pa corrected)) t → step s = timed (Sys2Proof.Machine.exec (.unconsumedError die pa corrected) t)) ∧
  (∀ (queue : Nat), Due s (.event (.hostQueueConsume queue)) t → step s = timed (Sys2Proof.Machine.exec (.hostQueueConsume queue) t)) ∧
  (∀ (grid : Nat), Due s (.event (.gridReady grid)) t → step s = timed (Sys2Proof.Machine.exec (.gridReady grid) t)) ∧
  (∀ (grid : Nat), Due s (.event (.rangeListComplete grid)) t → step s = timed (Sys2Proof.Machine.exec (.rangeListComplete grid) t)) ∧
  (∀ (die : Nat), Due s (.event (.workgroupPlacement die)) t → step s = timed (Sys2Proof.Machine.exec (.workgroupPlacement die) t)) ∧
  (∀ (grid : Nat), Due s (.event (.priorityAging grid)) t → step s = timed (Sys2Proof.Machine.exec (.priorityAging grid) t)) ∧
  (∀ (grid : Nat), Due s (.event (.gridRetirement grid)) t → step s = timed (Sys2Proof.Machine.exec (.gridRetirement grid) t)) ∧
  (∀ (die : Nat), Due s (.event (.dieFence die)) t → step s = timed (Sys2Proof.Machine.exec (.dieFence die) t)) ∧
  (∀ (block : Nat) (two : Bool), Due s (.event (.voteDisagreement block two)) t → step s = timed (Sys2Proof.Machine.exec (.voteDisagreement block two) t)) ∧
  (∀ (block : Nat), Due s (.event (.resyncComplete block)) t → step s = timed (Sys2Proof.Machine.exec (.resyncComplete block) t)) ∧
  (∀ (block : Nat), Due s (.event (.controlPlaneRestart block)) t → step s = timed (Sys2Proof.Machine.exec (.controlPlaneRestart block) t)) ∧
  (Due s (.event .frameBoundary) t → step s = timed (Sys2Proof.Machine.exec .frameBoundary t)) ∧
  (Due s (.event .timeConversionUpdate) t → step s = timed (Sys2Proof.Machine.exec .timeConversionUpdate t)) ∧
  (∀ (port : Nat), Due s (.event (.cxlReadTimeout port)) t → step s = timed (Sys2Proof.Machine.exec (.cxlReadTimeout port) t)) ∧
  (∀ (group id : Nat), Due s (.event (.hostCompletionTimeout group id)) t → step s = timed (Sys2Proof.Machine.exec (.hostCompletionTimeout group id) t)) ∧
  (∀ (port : Nat), Due s (.event (.isolationEnd port)) t → step s = timed (Sys2Proof.Machine.exec (.isolationEnd port) t)) ∧
  (∀ (port : Nat), Due s (.event (.linkRetrain port)) t → step s = timed (Sys2Proof.Machine.exec (.linkRetrain port) t)) ∧
  (∀ (slot : Nat), Due s (.event (.contextCreate slot)) t → step s = timed (Sys2Proof.Machine.exec (.contextCreate slot) t)) ∧
  (∀ (slot : Nat), Due s (.event (.contextDestroy slot)) t → step s = timed (Sys2Proof.Machine.exec (.contextDestroy slot) t)) ∧
  (∀ (slot : Nat), Due s (.event (.contextResume slot)) t → step s = timed (Sys2Proof.Machine.exec (.contextResume slot) t)) ∧
  (∀ (slot : Nat), Due s (.event (.contextReset slot)) t → step s = timed (Sys2Proof.Machine.exec (.contextReset slot) t)) ∧
  (∀ (slot : Nat), Due s (.event (.contextEnd slot)) t → step s = timed (Sys2Proof.Machine.exec (.contextEnd slot) t)) ∧
  (∀ (slot : Nat), Due s (.event (.preemptionRequest slot)) t → step s = timed (Sys2Proof.Machine.exec (.preemptionRequest slot) t)) ∧
  (∀ (slot : Nat) (loc : BitVec 32), Due s (.event (.breakpointResume slot loc)) t → step s = timed (Sys2Proof.Machine.exec (.breakpointResume slot loc) t)) ∧
  (∀ (slot : Nat), Due s (.event (.pageResumeDoorbell slot)) t → step s = timed (Sys2Proof.Machine.exec (.pageResumeDoorbell slot) t)) ∧
  (∀ (queue : Nat) (ctl : BitVec 32), Due s (.event (.queueEnable queue ctl)) t → step s = timed (Sys2Proof.Machine.exec (.queueEnable queue ctl) t)) ∧
  (∀ (queue : Nat), Due s (.event (.queueDisable queue)) t → step s = timed (Sys2Proof.Machine.exec (.queueDisable queue) t)) ∧
  (∀ (queue : Nat) (tail : BitVec 32), Due s (.event (.queueDoorbell queue tail)) t → step s = timed (Sys2Proof.Machine.exec (.queueDoorbell queue tail) t)) ∧
  (Due s (.event .attestationReport) t → step s = timed (Sys2Proof.Machine.exec .attestationReport t)) ∧
  (∀ (off : Nat) (value : BitVec 32), Due s (.event (.registerWrite off value)) t → step s = timed (Sys2Proof.Machine.exec (.registerWrite off value) t)) ∧
  (Due s (.event .moduleReset) t → step s = timed (Sys2Proof.Machine.exec .moduleReset t)) ∧
  (Due s (.event .signedBoot) t → step s = timed (Sys2Proof.Machine.exec .signedBoot t)) ∧
  (∀ (host : Nat), Due s (.event (.portReset host)) t → step s = timed (Sys2Proof.Machine.exec (.portReset host) t)) ∧
  (Due s (.event .thermalTrip) t → step s = timed (Sys2Proof.Machine.exec .thermalTrip t)) ∧
  (∀ (die : Nat), Due s (.event (.thermalThrottle die)) t → step s = timed (Sys2Proof.Machine.exec (.thermalThrottle die) t)) ∧
  (∀ (port : Nat), Due s (.event (.dataLinkLayerLinkActive port)) t → step s = timed (Sys2Proof.Machine.exec (.dataLinkLayerLinkActive port) t)) ∧
  (∀ (host : Nat), Due s (.event (.portResetExit host)) t → step s = timed (Sys2Proof.Machine.exec (.portResetExit host) t)) ∧
  (s.agenda = [] → s.host.booted = false →
    (s.host.bootFail = false → step s = timed (Sys2Proof.Machine.exec .signedBoot s)) ∧
    (s.host.bootFail = true → step s = .next s.afterStep))

/-- A word that is fetched through a present page of memory, at a clean line of which no cache holds another version, is the word
that memory holds there (R2, R89). A 25th word without E raises RUN-LENGTH before it is fetched; a word that is no instruction
raises ILLEGAL-OPCODE or RESERVED-FIELD and has no other effect (R29, R86, R90); one with the opcode of a link word raises it as
the sluice's, with the channel and directions that its fields name (R331). Where the rules leave a point open, this is the
model's own reading or choice: log entries 13 and 14. -/
def Obligations.FetchedWords : Prop := (∀ (s t : State) (I : Iss) (pa policy key die : Nat),
  canonical I.S.pc.toNat = true → I.S.pc.toNat % 4 = 0 →
  s.look (laneTlbs I.G.lane) I.G.ctx I.S.pc.toNat { write := false, fetch := true, keys := true } = (t, .ok pa policy key) →
  let u := t.settleWalk (laneTlbs I.G.lane) I.G.ctx I.S.pc.toNat
  regionOf pa = .near die → mapFind u.farDirty pa = none → mapFind u.poison (lineOf pa) = none →
  mapFind u.l1 (I.core, pa) = none → mapFind u.l2 (dieOfCore I.core, pa) = none →
  s.fetch I = (u, .word (readWord u.mem pa))) ∧
  ∀ (s t : State) (lane : Nat) (I : Iss), Issues s lane t I → I.S.word = none →
  (24 ≤ I.S.run → step s = timed (.next (t.raiseCode I codeRunLength))) ∧
  (∀ u w J, I.S.run < 24 → t.fetch I = (u, .word w) →
    let v := u.modSplit I.gid I.sid fun p => { p with word := some w }
    v.iss = some J →
    let raises (code : Nat) : Prop := if 0x6C ≤ (w.extractLsb' 25 7).toNat ∧ (w.extractLsb' 25 7).toNat ≤ 0x6F then
        ∃ u : LinkUse, J.strayLink (.split w) = some u ∧
          step s = timed (.next (v.raise J { code := code, src := 5, tmask := J.act, detail := u.detail }))
      else step s = timed (.next (v.raiseCode J code))
    (decode w = .error .illegalOpcode → raises codeIllegalOpcode) ∧
    (decode w = .error .reservedField → raises codeReservedField))

/-- Words whose encodings the spec writes out decode to the instructions they stand for. -/
def Obligations.DecodeSpecWords : Prop :=
  decode 0x020A183B#32 = .ok (.add false 5#7 6#7 7#7 false true true) ∧
  decode 0x9114_0000#32 = .ok (.sreg true 10#7 0#7 false) ∧
  decode 0xF408_0018#32 = .ok (.csrRd 4#7 3#6 false) ∧
  decode 0xF400_1A28#32 = .ok (.csrWr 6#7 5#6 false false) ∧
  decode 0x5C02_8000#32 = .ok (.modeHi 0x4000#16 false) ∧
  decode 0x5C00_8000#32 = .ok (.modeLo 0x4000#16 false) ∧
  decode 0xFC00_0001#32 = .ok (.nop true) ∧
  decode 0xBC00_0118#32 = .ok (.barSync 0#7 2#3 3#4 false false) ∧
  decode 0xF000_0001#32 = .ok (.contOpen 0#16 true)

/-- Decoding the word of a well-formed instruction gives it back, whatever its operands. -/
def Obligations.DecodeEncode : Prop := ∀ (i : Instr) (w : Word), wellFormed i = true → encode i = some w → decode w = .ok i

/-- A word that decodes is the word of its instruction: no bit of it is dropped, and no two words are one instruction. -/
def Obligations.EncodeDecode : Prop := ∀ (w : Word) (i : Instr), decode w = .ok i → encode i = some w ∧ wellFormed i = true

/-- `illegal` is the two words 0x0000_0000 and 0x0000_0001 and no other, and executing either raises ILLEGAL-OPCODE (R87). -/
def Obligations.IllegalWords : Prop :=
  decode 0#32 = .ok (.illegal false) ∧ decode 1#32 = .ok (.illegal true) ∧
  (∀ (w : Word) (e : Bool), decode w = .ok (.illegal e) → w = 0#32 ∨ w = 1#32) ∧
  ∀ (s : State) (I : Iss) (e : Bool), s.iss = some I →
    Sys2Proof.Machine.exec (.illegal e) s = .next (s.raiseCode I codeIllegalOpcode)

/-- `nop` is two words, any other word of its opcode raises RESERVED-FIELD, and it changes nothing but where its split stands:
outside a macro call, without E, one word on in the same run (R88). -/
def Obligations.NopWord : Prop :=
  decode 0xFC000000#32 = .ok (.nop false) ∧ decode 0xFC000001#32 = .ok (.nop true) ∧
  (∀ w : Word, w.extractLsb' 25 7 = 0x7E#7 → w ≠ 0xFC000000#32 → w ≠ 0xFC000001#32 → decode w = .error .reservedField) ∧
  ∀ (s : State) (I : Iss) (e : Bool), s.iss = some I → ∃ t g, Sys2Proof.Machine.exec (.nop e) s = .next t ∧
    mapFind t.groups I.gid = some g ∧ SameGroup g I.G ∧ g.regs = I.G.regs ∧ g.preds = I.G.preds ∧ g.prods = I.G.prods ∧
    t.lanes = s.lanes ∧ OnlyGroup s t I ∧
    (e = false → I.S.call = none → ∃ p, g.split I.sid = some p ∧ p.pc = I.S.pc + 4 ∧ p.run = I.S.run + 1 ∧ p.mask = I.S.mask ∧
      p.mode = I.S.mode ∧ p.fmt = I.S.fmt ∧ p.rstart = I.S.rstart)

/-- For add, sub, mul, mulhi, min, max, mad, iop.neg, iop.abs, addi and muli: Wherever the checks of R90 pass, each word answers a
next state in which its destination holds the value, tag and full bit that the rules give for every active thread, and every
other register, predicate, lane, group and byte of memory is as before. Where the rules leave a point open, this is the model's
own reading or choice: log entry 24. -/
def Obligations.ArithmeticWords : Prop := ∀ (s : State) (I : Iss), s.iss = some I →
  (∀ (u : Bool) (d a b : BitVec 7) (k l e : Bool), Writes s I (arithRow s I) (.add u d a b k l e)) ∧
  (∀ (u : Bool) (d a b : BitVec 7) (k l e : Bool), Writes s I (arithRow s I) (.sub u d a b k l e)) ∧
  (∀ (u : Bool) (d a b : BitVec 7) (k l e : Bool), Writes s I (arithRow s I) (.mul u d a b k l e)) ∧
  (∀ (u : Bool) (d a b : BitVec 7) (k l e : Bool), Writes s I (arithRow s I) (.mulhi u d a b k l e)) ∧
  (∀ (u : Bool) (d a b : BitVec 7) (k l e : Bool), Writes s I (arithRow s I) (.min u d a b k l e)) ∧
  (∀ (u : Bool) (d a b : BitVec 7) (k l e : Bool), Writes s I (arithRow s I) (.max u d a b k l e)) ∧
  (∀ (u : Bool) (d a b : BitVec 7) (k l e : Bool), Writes s I (arithRow s I) (.mad u d a b k l e)) ∧
  (∀ (u : Bool) (d a : BitVec 7) (k e : Bool), Writes s I (arithRow s I) (.iopNeg u d a k e)) ∧
  (∀ (u : Bool) (d a : BitVec 7) (k e : Bool), Writes s I (arithRow s I) (.iopAbs u d a k e)) ∧
  (∀ (u : Bool) (d : BitVec 7) (i : BitVec 16) (e : Bool), Writes s I (arithRow s I) (.addi u d i e)) ∧
  (∀ (u : Bool) (d : BitVec 7) (i : BitVec 16) (e : Bool), Writes s I (arithRow s I) (.muli u d i e))

/-- For shl, shli, shr, shri, sar, sari and rot: Wherever the checks of R90 pass, each word answers a next state in which its
destination holds the value, tag and full bit that the rules give for every active thread, and every other register, predicate,
lane, group and byte of memory is as before. Where the rules leave a point open, this is the model's own reading or choice: log
entry 24. -/
def Obligations.ShiftWords : Prop := ∀ (s : State) (I : Iss), s.iss = some I →
  (∀ (u : Bool) (d a b : BitVec 7) (k l e : Bool), Writes s I (arithRow s I) (.shl u d a b k l e)) ∧
  (∀ (u : Bool) (d a i : BitVec 7) (k e : Bool), Writes s I (arithRow s I) (.shli u d a i k e)) ∧
  (∀ (u : Bool) (d a b : BitVec 7) (k l e : Bool), Writes s I (logicRow s I) (.shr u d a b k l e)) ∧
  (∀ (u : Bool) (d a b : BitVec 7) (k l e : Bool), Writes s I (logicRow s I) (.sar u d a b k l e)) ∧
  (∀ (u : Bool) (d a b : BitVec 7) (k l e : Bool), Writes s I (logicRow s I) (.rot u d a b k l e)) ∧
  (∀ (u : Bool) (d a i : BitVec 7) (k e : Bool), Writes s I (logicRow s I) (.shri u d a i k e)) ∧
  (∀ (u : Bool) (d a i : BitVec 7) (k e : Bool), Writes s I (logicRow s I) (.sari u d a i k e))

/-- For and, or, xor, iop.not, andi, ori and xori: Wherever the checks of R90 pass, each word answers a next state in which its
destination holds the value, tag and full bit that the rules give for every active thread, and every other register, predicate,
lane, group and byte of memory is as before. -/
def Obligations.BitwiseWords : Prop := ∀ (s : State) (I : Iss), s.iss = some I →
  (∀ (u : Bool) (d a b : BitVec 7) (k l e : Bool), Writes s I (logicRow s I) (.and u d a b k l e)) ∧
  (∀ (u : Bool) (d a b : BitVec 7) (k l e : Bool), Writes s I (logicRow s I) (.or u d a b k l e)) ∧
  (∀ (u : Bool) (d a b : BitVec 7) (k l e : Bool), Writes s I (logicRow s I) (.xor u d a b k l e)) ∧
  (∀ (u : Bool) (d a : BitVec 7) (k e : Bool), Writes s I (logicRow s I) (.iopNot u d a k e)) ∧
  (∀ (u : Bool) (d : BitVec 7) (i : BitVec 16) (e : Bool), Writes s I (logicRow s I) (.andi u d i e)) ∧
  (∀ (u : Bool) (d : BitVec 7) (i : BitVec 16) (e : Bool), Writes s I (logicRow s I) (.ori u d i e)) ∧
  (∀ (u : Bool) (d : BitVec 7) (i : BitVec 16) (e : Bool), Writes s I (logicRow s I) (.xori u d i e))

/-- For addc and subc: wherever the checks of R90 pass, the word answers a next state in which d holds the sum or difference modulo
2^32 with the carry of the predicate mode.sp, that predicate holds each active thread's carry unless it is p0, and every other
register, predicate, lane, group and byte of memory is as before. Where the rules leave a point open, this is the model's own
reading or choice: log entry 24. -/
def Obligations.CarryWords : Prop := ∀ (s : State) (I : Iss), s.iss = some I →
  (∀ (u : Bool) (d a b : BitVec 7) (k l e : Bool), WritesCarry s I (carryRow s I) (.addc u d a b k l e)) ∧
  (∀ (u : Bool) (d a b : BitVec 7) (k l e : Bool), WritesCarry s I (carryRow s I) (.subc u d a b k l e))

/-- For sel, lea, leai, bfe, bfi, prmt, movi, movhi and the iop forms that count bits, reverse, extend and move: Wherever the checks
of R90 pass, each word answers a next state in which its destination holds the value, tag and full bit that the rules give for
every active thread, and every other register, predicate, lane, group and byte of memory is as before. Where the rules leave a
point open, this is the model's own reading or choice: log entry 24. -/
def Obligations.MoveWords : Prop := ∀ (s : State) (I : Iss), s.iss = some I →
  (∀ (u : Bool) (d a b : BitVec 7) (k l e : Bool), Writes s I (moveRow s I) (.sel u d a b k l e)) ∧
  (∀ (u : Bool) (d a : BitVec 6) (b : BitVec 7) (k l e : Bool), Writes s I (moveRow s I) (.lea u d a b k l e)) ∧
  (∀ (u : Bool) (d a : BitVec 6) (i : BitVec 7) (k e : Bool), Writes s I (moveRow s I) (.leai u d a i k e)) ∧
  (∀ (u : Bool) (d a b : BitVec 7) (k l e : Bool), Writes s I (moveRow s I) (.bfe u d a b k l e)) ∧
  (∀ (u : Bool) (d a b : BitVec 7) (k l e : Bool), Writes s I (moveRow s I) (.bfi u d a b k l e)) ∧
  (∀ (u : Bool) (d a b : BitVec 7) (k l e : Bool), Writes s I (moveRow s I) (.prmt u d a b k l e)) ∧
  (∀ (u : Bool) (d a : BitVec 7) (k e : Bool), Writes s I (moveRow s I) (.iopPopc u d a k e)) ∧
  (∀ (u : Bool) (d a : BitVec 7) (k e : Bool), Writes s I (moveRow s I) (.iopClz u d a k e)) ∧
  (∀ (u : Bool) (d a : BitVec 7) (k e : Bool), Writes s I (moveRow s I) (.iopCtz u d a k e)) ∧
  (∀ (u : Bool) (d a : BitVec 7) (k e : Bool), Writes s I (moveRow s I) (.iopBrev u d a k e)) ∧
  (∀ (u : Bool) (d a : BitVec 7) (k e : Bool), Writes s I (moveRow s I) (.iopSx8 u d a k e)) ∧
  (∀ (u : Bool) (d a : BitVec 7) (k e : Bool), Writes s I (moveRow s I) (.iopSx16 u d a k e)) ∧
  (∀ (u : Bool) (d a : BitVec 7) (k e : Bool), Writes s I (moveRow s I) (.iopZx8 u d a k e)) ∧
  (∀ (u : Bool) (d a : BitVec 7) (k e : Bool), Writes s I (moveRow s I) (.iopZx16 u d a k e)) ∧
  (∀ (u : Bool) (d a : BitVec 7) (k e : Bool), Writes s I (moveRow s I) (.iopMov u d a k e)) ∧
  (∀ (u : Bool) (d : BitVec 7) (a : BitVec 3) (e : Bool), Writes s I (moveRow s I) (.iopMovp u d a e)) ∧
  (∀ (u : Bool) (d : BitVec 7) (i : BitVec 16) (e : Bool), Writes s I (moveRow s I) (.movi u d i e)) ∧
  (∀ (u : Bool) (d : BitVec 7) (i : BitVec 16) (e : Bool), Writes s I (moveRow s I) (.movhi u d i e))

/-- For vote.ballot, vote.mask, shfl, bcast, sreg, the reads of tags, unpk.tag, tmr.now, tmr.frame, tmr.to and tmr.from: Wherever
the checks of R90 pass, each word answers a next state in which its destination holds the value, tag and full bit that the rules
give for every active thread, and every other register, predicate, lane, group and byte of memory is as before. Where the rules
leave a point open, this is the model's own reading or choice: log entries 23, 24 and 84. -/
def Obligations.UnitAndTimeWords : Prop := ∀ (s : State) (I : Iss), s.iss = some I →
  (∀ (d : BitVec 7) (a : BitVec 3) (e : Bool), Writes s I (unitRow s I) (.voteBallot d a e)) ∧
  (∀ (d : BitVec 7) (e : Bool), Writes s I (unitRow s I) (.voteMask d e)) ∧
  (∀ (u : Bool) (d a : BitVec 7) (w : BitVec 2) (v : BitVec 5) (k e : Bool), Writes s I (unitRow s I) (.shfl u d a w v k e)) ∧
  (∀ (u : Bool) (d a b : BitVec 7) (k l e : Bool), Writes s I (unitRow s I) (.bcast u d a b k l e)) ∧
  (∀ (u : Bool) (d n : BitVec 7) (e : Bool), Writes s I (unitRow s I) (.sreg u d n e)) ∧
  (∀ (d a : BitVec 7) (k e : Bool), Writes s I (unitRow s I) (.utagKind d a k e)) ∧
  (∀ (d a : BitVec 7) (k e : Bool), Writes s I (unitRow s I) (.utagStride d a k e)) ∧
  (∀ (u : Bool) (d : BitVec 6) (e : Bool), Writes s I (unitRow s I) (.tmrNow u d e)) ∧
  (∀ (u : Bool) (d : BitVec 7) (e : Bool), Writes s I (unitRow s I) (.tmrFrame u d e)) ∧
  (∀ (u : Bool) (d : BitVec 7) (a : BitVec 5) (k e : Bool), Writes s I (unitRow s I) (.unpkTag u d a k e)) ∧
  (∀ (u : Bool) (d a : BitVec 6) (j : BitVec 4) (k e : Bool), Writes s I (timeRow s I) (.tmrTo u d a j k e)) ∧
  (∀ (u : Bool) (d a : BitVec 6) (j : BitVec 4) (k e : Bool), Writes s I (timeRow s I) (.tmrFrom u d a j k e))

/-- For fadd, fsub, fmul, ffma, ffms, fmin, fmax, fscl, fdot2 and lrec, with every element rounded once in mode.rm and mode.sat:
Wherever the checks of R90 pass, each word answers a next state in which its destination holds the value, tag and full bit that
the rules give for every active thread, and every other register, predicate, lane, group and byte of memory is as before. Where
the rules leave a point open, this is the model's own reading or choice: log entries 24 and 73. -/
def Obligations.FloatWords : Prop := ∀ (s : State) (I : Iss), s.iss = some I →
  (∀ (u : Bool) (d a b : BitVec 7) (k l e : Bool), Writes s I (floatRow s I) (.fadd u d a b k l e)) ∧
  (∀ (u : Bool) (d a b : BitVec 7) (k l e : Bool), Writes s I (floatRow s I) (.fsub u d a b k l e)) ∧
  (∀ (u : Bool) (d a b : BitVec 7) (k l e : Bool), Writes s I (floatRow s I) (.fmul u d a b k l e)) ∧
  (∀ (u : Bool) (d a b : BitVec 7) (k l e : Bool), Writes s I (floatRow s I) (.ffma u d a b k l e)) ∧
  (∀ (u : Bool) (d a b : BitVec 7) (k l e : Bool), Writes s I (floatRow s I) (.ffms u d a b k l e)) ∧
  (∀ (u : Bool) (d a b : BitVec 7) (k l e : Bool), Writes s I (floatRow s I) (.fmin u d a b k l e)) ∧
  (∀ (u : Bool) (d a b : BitVec 7) (k l e : Bool), Writes s I (floatRow s I) (.fmax u d a b k l e)) ∧
  (∀ (u : Bool) (d a b : BitVec 7) (k l e : Bool), Writes s I (floatRow s I) (.fscl u d a b k l e)) ∧
  (∀ (u : Bool) (d a b : BitVec 7) (k l e : Bool), Writes s I (floatRow s I) (.fdot2 u d a b k l e)) ∧
  (∀ (u : Bool) (d a b : BitVec 7) (k l e : Bool), Writes s I (floatRow s I) (.lrec u d a b k l e))

/-- For the fop forms, cvt and pack: Wherever the checks of R90 pass, each word answers a next state in which its destination holds
the value, tag and full bit that the rules give for every active thread, and every other register, predicate, lane, group and
byte of memory is as before. Where the rules leave a point open, this is the model's own reading or choice: log entries 24, 25,
63 and 73. -/
def Obligations.UnaryFloatWords : Prop := ∀ (s : State) (I : Iss), s.iss = some I →
  (∀ (u : Bool) (d a : BitVec 7) (k e : Bool), Writes s I (unaryRow s I) (.fopFneg u d a k e)) ∧
  (∀ (u : Bool) (d a : BitVec 7) (k e : Bool), Writes s I (unaryRow s I) (.fopFabs u d a k e)) ∧
  (∀ (u : Bool) (d a : BitVec 7) (k e : Bool), Writes s I (unaryRow s I) (.fopFclass u d a k e)) ∧
  (∀ (u : Bool) (d a : BitVec 7) (k e : Bool), Writes s I (unaryRow s I) (.fopFrcp u d a k e)) ∧
  (∀ (u : Bool) (d a : BitVec 7) (k e : Bool), Writes s I (unaryRow s I) (.fopFrsq u d a k e)) ∧
  (∀ (u : Bool) (d a : BitVec 7) (k e : Bool), Writes s I (unaryRow s I) (.fopFsqrt u d a k e)) ∧
  (∀ (u : Bool) (d a : BitVec 7) (k e : Bool), Writes s I (unaryRow s I) (.fopFex2 u d a k e)) ∧
  (∀ (u : Bool) (d a : BitVec 7) (k e : Bool), Writes s I (unaryRow s I) (.fopFlg2 u d a k e)) ∧
  (∀ (u : Bool) (d a : BitVec 7) (k e : Bool), Writes s I (unaryRow s I) (.fopFsin u d a k e)) ∧
  (∀ (u : Bool) (d a : BitVec 7) (k e : Bool), Writes s I (unaryRow s I) (.fopFcos u d a k e)) ∧
  (∀ (u : Bool) (d a : BitVec 7) (k e : Bool), Writes s I (unaryRow s I) (.fopFtanh u d a k e)) ∧
  (∀ (u : Bool) (d a : BitVec 7) (k e : Bool), Writes s I (unaryRow s I) (.fopFrni u d a k e)) ∧
  (∀ (u : Bool) (d a : BitVec 7) (k e : Bool), Writes s I (unaryRow s I) (.fopFrzi u d a k e)) ∧
  (∀ (u : Bool) (d a : BitVec 7) (k e : Bool), Writes s I (unaryRow s I) (.fopFrpi u d a k e)) ∧
  (∀ (u : Bool) (d a : BitVec 7) (k e : Bool), Writes s I (unaryRow s I) (.fopFrmi u d a k e)) ∧
  (∀ (u : Bool) (d a : BitVec 7) (k e : Bool), Writes s I (unaryRow s I) (.fopFfract u d a k e)) ∧
  (∀ (u : Bool) (d a : BitVec 7) (t : BitVec 4) (k e : Bool), Writes s I (unaryRow s I) (.cvt u d a t k e)) ∧
  (∀ (u : Bool) (d a b : BitVec 7) (k l e : Bool), Writes s I (unaryRow s I) (.pack u d a b k l e))

/-- For gred and gscan in each operation, in the order of the threads that the rules fix: Wherever the checks of R90 pass, each word
answers a next state in which its destination holds the value, tag and full bit that the rules give for every active thread, and
every other register, predicate, lane, group and byte of memory is as before. Where the rules leave a point open, this is the
model's own reading or choice: log entry 26. -/
def Obligations.FoldWords : Prop := ∀ (s : State) (I : Iss), s.iss = some I →
  (∀ (u : Bool) (d a : BitVec 7) (k e : Bool), Writes s I (foldRow s I) (.gredAdd u d a k e)) ∧
  (∀ (u : Bool) (d a : BitVec 7) (k e : Bool), Writes s I (foldRow s I) (.gredMin u d a k e)) ∧
  (∀ (u : Bool) (d a : BitVec 7) (k e : Bool), Writes s I (foldRow s I) (.gredMax u d a k e)) ∧
  (∀ (u : Bool) (d a : BitVec 7) (k e : Bool), Writes s I (foldRow s I) (.gredAnd u d a k e)) ∧
  (∀ (u : Bool) (d a : BitVec 7) (k e : Bool), Writes s I (foldRow s I) (.gredOr u d a k e)) ∧
  (∀ (u : Bool) (d a : BitVec 7) (k e : Bool), Writes s I (foldRow s I) (.gredXor u d a k e)) ∧
  (∀ (d a : BitVec 7) (x k e : Bool), Writes s I (foldRow s I) (.gscanAdd d a x k e)) ∧
  (∀ (d a : BitVec 7) (x k e : Bool), Writes s I (foldRow s I) (.gscanMin d a x k e)) ∧
  (∀ (d a : BitVec 7) (x k e : Bool), Writes s I (foldRow s I) (.gscanMax d a x k e)) ∧
  (∀ (d a : BitVec 7) (x k e : Bool), Writes s I (foldRow s I) (.gscanAnd d a x k e)) ∧
  (∀ (d a : BitVec 7) (x k e : Bool), Writes s I (foldRow s I) (.gscanOr d a x k e)) ∧
  (∀ (d a : BitVec 7) (x k e : Bool), Writes s I (foldRow s I) (.gscanXor d a x k e)) ∧
  (∀ (d a : BitVec 7) (x k e : Bool), Writes s I (foldRow s I) (.gscanMul d a x k e)) ∧
  (∀ (d a : BitVec 6) (x k e : Bool), Writes s I (foldRow s I) (.gscanAff d a x k e))

/-- For cmp, cmpi, fcmp, iop.pmov, plog, vote.all, vote.any, vote.eq and fe.test: wherever the checks of R90 pass, the word answers
a next state in which its predicate holds the value that the rule gives for each active thread, p0 stays true, and every
register, other predicate, lane, group and byte of memory is as before. Where the rules leave a point open, this is the model's
own reading or choice: log entries 24 and 84. -/
def Obligations.PredicateWords : Prop := ∀ (s : State) (I : Iss), s.iss = some I →
  (∀ (u : Bool) (c p : BitVec 3) (a b : BitVec 7) (k l e : Bool), WritesPred s I (compareRow I) (.cmp u c p a b k l e)) ∧
  (∀ (u : Bool) (c p : BitVec 3) (a i : BitVec 7) (k e : Bool), WritesPred s I (compareRow I) (.cmpi u c p a i k e)) ∧
  (∀ (u : Bool) (c p : BitVec 3) (a b : BitVec 7) (k l e : Bool), WritesPred s I (compareRow I) (.fcmp u c p a b k l e)) ∧
  (∀ (u : Bool) (d : BitVec 3) (a : BitVec 7) (k e : Bool), WritesPred s I (compareRow I) (.iopPmov u d a k e)) ∧
  (∀ (u : Bool) (d a b : BitVec 3) (t : BitVec 4) (e : Bool), WritesPred s I (compareRow I) (.plog u d a b t e)) ∧
  (∀ (d a : BitVec 3) (e : Bool), WritesPred s I (compareRow I) (.voteAll d a e)) ∧
  (∀ (d a : BitVec 3) (e : Bool), WritesPred s I (compareRow I) (.voteAny d a e)) ∧
  (∀ (u : Bool) (d : BitVec 3) (a : BitVec 7) (k e : Bool), WritesPred s I (compareRow I) (.voteEq u d a k e)) ∧
  (∀ (d : BitVec 3) (a : BitVec 7) (e : Bool), WritesPred s I (compareRow I) (.feTest d a e))

/-- For every integer, move, unit, time, float, conversion, reduction and predicate word and the carry chain: where a check of R90
fails, the word raises that fault and nothing else; where an operand is empty it waits; with an empty active mask it only
advances. And the checks are made in the order of R90. Where the rules leave a point open, this is the model's own reading or
choice: log entries 18, 22, 64 and 84. -/
def Obligations.FailedChecks : Prop := ∀ (s : State) (I : Iss), s.iss = some I →
  (∀ n : Need, I.S.released = false → I.S.counted = false →
    let beyond : Prop := ∃ r, r ∈ n.regs ∧ I.G.alloc ≤ r
    let empty (r : Nat) : Prop := (I.G.reg r).full = false
    let reads (r : Nat) : Prop := (∃ x, x ∈ n.srcs ∧ r ∈ x.1) ∨ (n.producer = false ∧ r ∈ n.dsts) ∨ (n.producer = true ∧ r ∈ I.G.due n.dsts)
    let asserted : Prop := ∃ x, x ∈ n.srcs ∧ x.2 = true ∧ ∃ r, r ∈ x.1 ∧ empty r
    (n.fieldsOk = false → I.gate n = .fault codeReservedField) ∧
    (n.fieldsOk = true → n.tyOk = false → I.gate n = .fault codeTypeUnsupported) ∧
    (n.fieldsOk = true → n.tyOk = true → beyond → I.gate n = .fault codeRegBound) ∧
    (n.fieldsOk = true → n.tyOk = true → ¬beyond → n.mask = 0#32 → I.gate n = .skip) ∧
    (n.fieldsOk = true → n.tyOk = true → ¬beyond → n.mask ≠ 0#32 → asserted → I.gate n = .fault codeEmptyRead) ∧
    (n.fieldsOk = true → n.tyOk = true → ¬beyond → n.mask ≠ 0#32 → ¬asserted → (∃ r, reads r ∧ empty r) →
      ∃ l, I.gate n = .wait l ∧ ∀ r, r ∈ l ↔ reads r ∧ empty r) ∧
    (n.fieldsOk = true → n.tyOk = true → ¬beyond → n.mask ≠ 0#32 → ¬asserted → ¬(∃ r, reads r ∧ empty r) →
      I.gate n = if n.uOk then .go else .fault codeUniformAssert)) ∧
  (∀ (u : Bool) (d a b : BitVec 7) (k l e : Bool), Stops s I (arithRow s I) (.add u d a b k l e)) ∧
  (∀ (u : Bool) (d a b : BitVec 7) (k l e : Bool), Stops s I (arithRow s I) (.sub u d a b k l e)) ∧
  (∀ (u : Bool) (d a b : BitVec 7) (k l e : Bool), Stops s I (arithRow s I) (.mul u d a b k l e)) ∧
  (∀ (u : Bool) (d a b : BitVec 7) (k l e : Bool), Stops s I (arithRow s I) (.mulhi u d a b k l e)) ∧
  (∀ (u : Bool) (d a b : BitVec 7) (k l e : Bool), Stops s I (arithRow s I) (.min u d a b k l e)) ∧
  (∀ (u : Bool) (d a b : BitVec 7) (k l e : Bool), Stops s I (arithRow s I) (.max u d a b k l e)) ∧
  (∀ (u : Bool) (d a b : BitVec 7) (k l e : Bool), Stops s I (arithRow s I) (.mad u d a b k l e)) ∧
  (∀ (u : Bool) (d a : BitVec 7) (k e : Bool), Stops s I (arithRow s I) (.iopNeg u d a k e)) ∧
  (∀ (u : Bool) (d a : BitVec 7) (k e : Bool), Stops s I (arithRow s I) (.iopAbs u d a k e)) ∧
  (∀ (u : Bool) (d : BitVec 7) (i : BitVec 16) (e : Bool), Stops s I (arithRow s I) (.addi u d i e)) ∧
  (∀ (u : Bool) (d : BitVec 7) (i : BitVec 16) (e : Bool), Stops s I (arithRow s I) (.muli u d i e)) ∧
  (∀ (u : Bool) (d a b : BitVec 7) (k l e : Bool), Stops s I (arithRow s I) (.shl u d a b k l e)) ∧
  (∀ (u : Bool) (d a i : BitVec 7) (k e : Bool), Stops s I (arithRow s I) (.shli u d a i k e)) ∧
  (∀ (u : Bool) (d a b : BitVec 7) (k l e : Bool), Stops s I (logicRow s I) (.and u d a b k l e)) ∧
  (∀ (u : Bool) (d a b : BitVec 7) (k l e : Bool), Stops s I (logicRow s I) (.or u d a b k l e)) ∧
  (∀ (u : Bool) (d a b : BitVec 7) (k l e : Bool), Stops s I (logicRow s I) (.xor u d a b k l e)) ∧
  (∀ (u : Bool) (d a : BitVec 7) (k e : Bool), Stops s I (logicRow s I) (.iopNot u d a k e)) ∧
  (∀ (u : Bool) (d : BitVec 7) (i : BitVec 16) (e : Bool), Stops s I (logicRow s I) (.andi u d i e)) ∧
  (∀ (u : Bool) (d : BitVec 7) (i : BitVec 16) (e : Bool), Stops s I (logicRow s I) (.ori u d i e)) ∧
  (∀ (u : Bool) (d : BitVec 7) (i : BitVec 16) (e : Bool), Stops s I (logicRow s I) (.xori u d i e)) ∧
  (∀ (u : Bool) (d a b : BitVec 7) (k l e : Bool), Stops s I (logicRow s I) (.shr u d a b k l e)) ∧
  (∀ (u : Bool) (d a b : BitVec 7) (k l e : Bool), Stops s I (logicRow s I) (.sar u d a b k l e)) ∧
  (∀ (u : Bool) (d a b : BitVec 7) (k l e : Bool), Stops s I (logicRow s I) (.rot u d a b k l e)) ∧
  (∀ (u : Bool) (d a i : BitVec 7) (k e : Bool), Stops s I (logicRow s I) (.shri u d a i k e)) ∧
  (∀ (u : Bool) (d a i : BitVec 7) (k e : Bool), Stops s I (logicRow s I) (.sari u d a i k e)) ∧
  (∀ (u : Bool) (d a b : BitVec 7) (k l e : Bool), Stops s I (moveRow s I) (.sel u d a b k l e)) ∧
  (∀ (u : Bool) (d a : BitVec 6) (b : BitVec 7) (k l e : Bool), Stops s I (moveRow s I) (.lea u d a b k l e)) ∧
  (∀ (u : Bool) (d a : BitVec 6) (i : BitVec 7) (k e : Bool), Stops s I (moveRow s I) (.leai u d a i k e)) ∧
  (∀ (u : Bool) (d a b : BitVec 7) (k l e : Bool), Stops s I (moveRow s I) (.bfe u d a b k l e)) ∧
  (∀ (u : Bool) (d a b : BitVec 7) (k l e : Bool), Stops s I (moveRow s I) (.bfi u d a b k l e)) ∧
  (∀ (u : Bool) (d a b : BitVec 7) (k l e : Bool), Stops s I (moveRow s I) (.prmt u d a b k l e)) ∧
  (∀ (u : Bool) (d a : BitVec 7) (k e : Bool), Stops s I (moveRow s I) (.iopPopc u d a k e)) ∧
  (∀ (u : Bool) (d a : BitVec 7) (k e : Bool), Stops s I (moveRow s I) (.iopClz u d a k e)) ∧
  (∀ (u : Bool) (d a : BitVec 7) (k e : Bool), Stops s I (moveRow s I) (.iopCtz u d a k e)) ∧
  (∀ (u : Bool) (d a : BitVec 7) (k e : Bool), Stops s I (moveRow s I) (.iopBrev u d a k e)) ∧
  (∀ (u : Bool) (d a : BitVec 7) (k e : Bool), Stops s I (moveRow s I) (.iopSx8 u d a k e)) ∧
  (∀ (u : Bool) (d a : BitVec 7) (k e : Bool), Stops s I (moveRow s I) (.iopSx16 u d a k e)) ∧
  (∀ (u : Bool) (d a : BitVec 7) (k e : Bool), Stops s I (moveRow s I) (.iopZx8 u d a k e)) ∧
  (∀ (u : Bool) (d a : BitVec 7) (k e : Bool), Stops s I (moveRow s I) (.iopZx16 u d a k e)) ∧
  (∀ (u : Bool) (d a : BitVec 7) (k e : Bool), Stops s I (moveRow s I) (.iopMov u d a k e)) ∧
  (∀ (u : Bool) (d : BitVec 7) (a : BitVec 3) (e : Bool), Stops s I (moveRow s I) (.iopMovp u d a e)) ∧
  (∀ (u : Bool) (d : BitVec 7) (i : BitVec 16) (e : Bool), Stops s I (moveRow s I) (.movi u d i e)) ∧
  (∀ (u : Bool) (d : BitVec 7) (i : BitVec 16) (e : Bool), Stops s I (moveRow s I) (.movhi u d i e)) ∧
  (∀ (d : BitVec 7) (a : BitVec 3) (e : Bool), Stops s I (unitRow s I) (.voteBallot d a e)) ∧
  (∀ (d : BitVec 7) (e : Bool), Stops s I (unitRow s I) (.voteMask d e)) ∧
  (∀ (u : Bool) (d a : BitVec 7) (w : BitVec 2) (v : BitVec 5) (k e : Bool), Stops s I (unitRow s I) (.shfl u d a w v k e)) ∧
  (∀ (u : Bool) (d a b : BitVec 7) (k l e : Bool), Stops s I (unitRow s I) (.bcast u d a b k l e)) ∧
  (∀ (u : Bool) (d n : BitVec 7) (e : Bool), Stops s I (unitRow s I) (.sreg u d n e)) ∧
  (∀ (d a : BitVec 7) (k e : Bool), Stops s I (unitRow s I) (.utagKind d a k e)) ∧
  (∀ (d a : BitVec 7) (k e : Bool), Stops s I (unitRow s I) (.utagStride d a k e)) ∧
  (∀ (u : Bool) (d : BitVec 6) (e : Bool), Stops s I (unitRow s I) (.tmrNow u d e)) ∧
  (∀ (u : Bool) (d : BitVec 7) (e : Bool), Stops s I (unitRow s I) (.tmrFrame u d e)) ∧
  (∀ (u : Bool) (d : BitVec 7) (a : BitVec 5) (k e : Bool), Stops s I (unitRow s I) (.unpkTag u d a k e)) ∧
  (∀ (u : Bool) (d a : BitVec 6) (j : BitVec 4) (k e : Bool), Stops s I (timeRow s I) (.tmrTo u d a j k e)) ∧
  (∀ (u : Bool) (d a : BitVec 6) (j : BitVec 4) (k e : Bool), Stops s I (timeRow s I) (.tmrFrom u d a j k e)) ∧
  (∀ (u : Bool) (d a b : BitVec 7) (k l e : Bool), Stops s I (floatRow s I) (.fadd u d a b k l e)) ∧
  (∀ (u : Bool) (d a b : BitVec 7) (k l e : Bool), Stops s I (floatRow s I) (.fsub u d a b k l e)) ∧
  (∀ (u : Bool) (d a b : BitVec 7) (k l e : Bool), Stops s I (floatRow s I) (.fmul u d a b k l e)) ∧
  (∀ (u : Bool) (d a b : BitVec 7) (k l e : Bool), Stops s I (floatRow s I) (.ffma u d a b k l e)) ∧
  (∀ (u : Bool) (d a b : BitVec 7) (k l e : Bool), Stops s I (floatRow s I) (.ffms u d a b k l e)) ∧
  (∀ (u : Bool) (d a b : BitVec 7) (k l e : Bool), Stops s I (floatRow s I) (.fmin u d a b k l e)) ∧
  (∀ (u : Bool) (d a b : BitVec 7) (k l e : Bool), Stops s I (floatRow s I) (.fmax u d a b k l e)) ∧
  (∀ (u : Bool) (d a b : BitVec 7) (k l e : Bool), Stops s I (floatRow s I) (.fscl u d a b k l e)) ∧
  (∀ (u : Bool) (d a b : BitVec 7) (k l e : Bool), Stops s I (floatRow s I) (.fdot2 u d a b k l e)) ∧
  (∀ (u : Bool) (d a b : BitVec 7) (k l e : Bool), Stops s I (floatRow s I) (.lrec u d a b k l e)) ∧
  (∀ (u : Bool) (d a : BitVec 7) (k e : Bool), Stops s I (unaryRow s I) (.fopFneg u d a k e)) ∧
  (∀ (u : Bool) (d a : BitVec 7) (k e : Bool), Stops s I (unaryRow s I) (.fopFabs u d a k e)) ∧
  (∀ (u : Bool) (d a : BitVec 7) (k e : Bool), Stops s I (unaryRow s I) (.fopFclass u d a k e)) ∧
  (∀ (u : Bool) (d a : BitVec 7) (k e : Bool), Stops s I (unaryRow s I) (.fopFrcp u d a k e)) ∧
  (∀ (u : Bool) (d a : BitVec 7) (k e : Bool), Stops s I (unaryRow s I) (.fopFrsq u d a k e)) ∧
  (∀ (u : Bool) (d a : BitVec 7) (k e : Bool), Stops s I (unaryRow s I) (.fopFsqrt u d a k e)) ∧
  (∀ (u : Bool) (d a : BitVec 7) (k e : Bool), Stops s I (unaryRow s I) (.fopFex2 u d a k e)) ∧
  (∀ (u : Bool) (d a : BitVec 7) (k e : Bool), Stops s I (unaryRow s I) (.fopFlg2 u d a k e)) ∧
  (∀ (u : Bool) (d a : BitVec 7) (k e : Bool), Stops s I (unaryRow s I) (.fopFsin u d a k e)) ∧
  (∀ (u : Bool) (d a : BitVec 7) (k e : Bool), Stops s I (unaryRow s I) (.fopFcos u d a k e)) ∧
  (∀ (u : Bool) (d a : BitVec 7) (k e : Bool), Stops s I (unaryRow s I) (.fopFtanh u d a k e)) ∧
  (∀ (u : Bool) (d a : BitVec 7) (k e : Bool), Stops s I (unaryRow s I) (.fopFrni u d a k e)) ∧
  (∀ (u : Bool) (d a : BitVec 7) (k e : Bool), Stops s I (unaryRow s I) (.fopFrzi u d a k e)) ∧
  (∀ (u : Bool) (d a : BitVec 7) (k e : Bool), Stops s I (unaryRow s I) (.fopFrpi u d a k e)) ∧
  (∀ (u : Bool) (d a : BitVec 7) (k e : Bool), Stops s I (unaryRow s I) (.fopFrmi u d a k e)) ∧
  (∀ (u : Bool) (d a : BitVec 7) (k e : Bool), Stops s I (unaryRow s I) (.fopFfract u d a k e)) ∧
  (∀ (u : Bool) (d a : BitVec 7) (t : BitVec 4) (k e : Bool), Stops s I (unaryRow s I) (.cvt u d a t k e)) ∧
  (∀ (u : Bool) (d a b : BitVec 7) (k l e : Bool), Stops s I (unaryRow s I) (.pack u d a b k l e)) ∧
  (∀ (u : Bool) (d a : BitVec 7) (k e : Bool), Stops s I (foldRow s I) (.gredAdd u d a k e)) ∧
  (∀ (u : Bool) (d a : BitVec 7) (k e : Bool), Stops s I (foldRow s I) (.gredMin u d a k e)) ∧
  (∀ (u : Bool) (d a : BitVec 7) (k e : Bool), Stops s I (foldRow s I) (.gredMax u d a k e)) ∧
  (∀ (u : Bool) (d a : BitVec 7) (k e : Bool), Stops s I (foldRow s I) (.gredAnd u d a k e)) ∧
  (∀ (u : Bool) (d a : BitVec 7) (k e : Bool), Stops s I (foldRow s I) (.gredOr u d a k e)) ∧
  (∀ (u : Bool) (d a : BitVec 7) (k e : Bool), Stops s I (foldRow s I) (.gredXor u d a k e)) ∧
  (∀ (d a : BitVec 7) (x k e : Bool), Stops s I (foldRow s I) (.gscanAdd d a x k e)) ∧
  (∀ (d a : BitVec 7) (x k e : Bool), Stops s I (foldRow s I) (.gscanMin d a x k e)) ∧
  (∀ (d a : BitVec 7) (x k e : Bool), Stops s I (foldRow s I) (.gscanMax d a x k e)) ∧
  (∀ (d a : BitVec 7) (x k e : Bool), Stops s I (foldRow s I) (.gscanAnd d a x k e)) ∧
  (∀ (d a : BitVec 7) (x k e : Bool), Stops s I (foldRow s I) (.gscanOr d a x k e)) ∧
  (∀ (d a : BitVec 7) (x k e : Bool), Stops s I (foldRow s I) (.gscanXor d a x k e)) ∧
  (∀ (d a : BitVec 7) (x k e : Bool), Stops s I (foldRow s I) (.gscanMul d a x k e)) ∧
  (∀ (d a : BitVec 6) (x k e : Bool), Stops s I (foldRow s I) (.gscanAff d a x k e)) ∧
  (∀ (u : Bool) (c p : BitVec 3) (a b : BitVec 7) (k l e : Bool), StopsPred s I (compareRow I) (.cmp u c p a b k l e)) ∧
  (∀ (u : Bool) (c p : BitVec 3) (a i : BitVec 7) (k e : Bool), StopsPred s I (compareRow I) (.cmpi u c p a i k e)) ∧
  (∀ (u : Bool) (c p : BitVec 3) (a b : BitVec 7) (k l e : Bool), StopsPred s I (compareRow I) (.fcmp u c p a b k l e)) ∧
  (∀ (u : Bool) (d : BitVec 3) (a : BitVec 7) (k e : Bool), StopsPred s I (compareRow I) (.iopPmov u d a k e)) ∧
  (∀ (u : Bool) (d a b : BitVec 3) (t : BitVec 4) (e : Bool), StopsPred s I (compareRow I) (.plog u d a b t e)) ∧
  (∀ (d a : BitVec 3) (e : Bool), StopsPred s I (compareRow I) (.voteAll d a e)) ∧
  (∀ (d a : BitVec 3) (e : Bool), StopsPred s I (compareRow I) (.voteAny d a e)) ∧
  (∀ (u : Bool) (d : BitVec 3) (a : BitVec 7) (k e : Bool), StopsPred s I (compareRow I) (.voteEq u d a k e)) ∧
  (∀ (d : BitVec 3) (a : BitVec 7) (e : Bool), StopsPred s I (compareRow I) (.feTest d a e)) ∧
  (∀ (u : Bool) (d a b : BitVec 7) (k l e : Bool), StopsCarry s I (carryRow s I) (.addc u d a b k l e)) ∧
  (∀ (u : Bool) (d a b : BitVec 7) (k l e : Bool), StopsCarry s I (carryRow s I) (.subc u d a b k l e))

/-- For every transfer, load, store, atomic, cache, synchronisation, engine, link, translation, launch, containment, register and
trap-mode word: where a check of R90 fails, the word raises that fault, with the engine and detail of its records, and nothing
else; where an operand is empty it waits; with an empty active mask it only advances, or is only its region boundary. Where the
rules leave a point open, this is the model's own reading or choice: log entries 18, 20, 22, 41, 64 and 78. -/
def Obligations.FailedCommands : Prop := ∀ (s : State) (I : Iss), s.iss = some I →
  (∀ (n : BitVec 8), StopsHere s I true (controlAfter s I) (.trap n)) ∧
  (∀ (t : BitVec 16), StopsHere s I true (controlAfter s I) (.brk t)) ∧
  (∀ (e : Bool), StopsBound s I e (controlAfter s I) (.region e)) ∧
  (∀ (i : BitVec 7) (e : Bool), StopsBound s I e (controlAfter s I) (.rsize i e)) ∧
  StopsBound s I true (endAfter s I) .exit ∧
  (∀ (a : BitVec 7) (k e : Bool), StopsHere s I e (tagAfter s I) (.utagGen a k e)) ∧
  (∀ (a : BitVec 7) (k e : Bool), StopsHere s I e (tagAfter s I) (.utagChk a k e)) ∧
  (∀ (a : BitVec 6) (k e : Bool), StopsHere s I e (tagAfter s I) (.utagChk64 a k e)) ∧
  (∀ (d a : BitVec 7) (k e : Bool), StopsHere s I e (tagAfter s I) (.feFill d a k e)) ∧
  (∀ (u : Bool) (d : BitVec 7) (a : BitVec 5) (n : BitVec 3) (c : BitVec 4) (k e : Bool), StopsHere s I e (chunkAfter s I) (.unpk u d a n c k e)) ∧
  (∀ (u : Bool) (i : BitVec 16), StopsJump s I (jumpOf I) (.bra u i)) ∧
  (∀ (u : Bool) (p : BitVec 3) (i : BitVec 16), StopsJump s I (jumpOf I) (.brt u p i)) ∧
  (∀ (u : Bool) (p : BitVec 3) (i : BitVec 16), StopsJump s I (jumpOf I) (.brf u p i)) ∧
  (∀ (u : Bool) (c : BitVec 6) (i : BitVec 16), StopsJump s I (jumpOf I) (.call u c i)) ∧
  (∀ (u : Bool) (a : BitVec 6) (k : Bool), StopsJump s I (jumpOf I) (.jmp u a k)) ∧
  (∀ (u : Bool) (a : BitVec 6) (k : Bool), StopsJump s I (jumpOf I) (.ret u a k)) ∧
  (∀ (u : Bool) (d : BitVec 7) (a : BitVec 6) (w : BitVec 3) (f : BitVec 4) (k e : Bool), StopsHere s I e (loadLeft s I) (.ldg u d a w f k e)) ∧
  (∀ (u : Bool) (d : BitVec 7) (a : BitVec 6) (w : BitVec 3) (f : BitVec 4) (k e : Bool), StopsHere s I e (loadLeft s I) (.ldp u d a w f k e)) ∧
  (∀ (u : Bool) (d : BitVec 7) (a : BitVec 6) (c : BitVec 3) (w k e : Bool), StopsHere s I e (loadLeft s I) (.lda u d a c w k e)) ∧
  (∀ (u : Bool) (d : BitVec 7) (a : BitVec 6) (w : BitVec 3) (f : BitVec 4) (k m e : Bool), StopsHere s I e (storeLeft s I) (.stg u d a w f k m e)) ∧
  (∀ (u : Bool) (d : BitVec 7) (a : BitVec 6) (w : BitVec 3) (f : BitVec 4) (k m e : Bool), StopsHere s I e (storeLeft s I) (.stp u d a w f k m e)) ∧
  (∀ (u : Bool) (d a : BitVec 7) (w : BitVec 3) (f : BitVec 4) (k e : Bool), StopsHere s I e (accessAfter s I) (.ldc u d a w f k e)) ∧
  (∀ (u : Bool) (d a : BitVec 7) (w : BitVec 3) (f : BitVec 4) (k e : Bool), StopsHere s I e (accessAfter s I) (.lds u d a w f k e)) ∧
  (∀ (u : Bool) (d a : BitVec 7) (w : BitVec 3) (f : BitVec 4) (k m e : Bool), StopsHere s I e (accessAfter s I) (.sts u d a w f k m e)) ∧
  (∀ (u : Bool) (d : BitVec 7) (a : BitVec 6) (c : BitVec 3) (w k m e : Bool), StopsHere s I e (accessAfter s I) (.ldaPoll u d a c w k m e)) ∧
  (∀ (u : Bool) (d : BitVec 7) (a : BitVec 6) (c : BitVec 3) (w k m e : Bool), StopsBound s I e (accessAfter s I) (.stl u d a c w k m e)) ∧
  (∀ (c : BitVec 3) (e : Bool), StopsBound s I e (cacheAfter s I) (.fenceFull c e)) ∧
  (∀ (c : BitVec 3) (e : Bool), StopsBound s I e (cacheAfter s I) (.fenceRel c e)) ∧
  (∀ (c : BitVec 3) (e : Bool), StopsBound s I e (cacheAfter s I) (.fenceAcq c e)) ∧
  (∀ (u : Bool) (a : BitVec 6) (c : BitVec 3) (k e : Bool), StopsHere s I e (cacheAfter s I) (.cacheWbl u a c k e)) ∧
  (∀ (u : Bool) (a : BitVec 6) (k e : Bool), StopsHere s I e (cacheAfter s I) (.cacheInvl u a k e)) ∧
  (∀ (c : BitVec 3) (e : Bool), StopsHere s I e (cacheAfter s I) (.cacheWball c e)) ∧
  (∀ (e : Bool), StopsHere s I e (cacheAfter s I) (.cacheInvall e)) ∧
  (∀ (n : BitVec 2) (e : Bool), StopsHere s I e (cacheAfter s I) (.cacheSwb n e)) ∧
  (∀ (u : Bool) (v : BitVec 2) (a : BitVec 6) (w : BitVec 3) (f : BitVec 4) (k e : Bool), StopsHere s I e (cacheAfter s I) (.pfm u v a w f k e)) ∧
  (∀ (n : BitVec 2) (a b : BitVec 6) (k l e : Bool), StopsBound s I e (cacheAfter s I) (.smap n a b k l e)) ∧
  (∀ (u : Bool) (d a : BitVec 7) (c : BitVec 3) (t k m e : Bool), StopsBound s I e (atomLeft s I) (.amoAdd u d a c t k m e)) ∧
  (∀ (u : Bool) (d a : BitVec 7) (c : BitVec 3) (t k m e : Bool), StopsBound s I e (atomLeft s I) (.amoMin u d a c t k m e)) ∧
  (∀ (u : Bool) (d a : BitVec 7) (c : BitVec 3) (t k m e : Bool), StopsBound s I e (atomLeft s I) (.amoMax u d a c t k m e)) ∧
  (∀ (u : Bool) (d a : BitVec 7) (c : BitVec 3) (t k m e : Bool), StopsBound s I e (atomLeft s I) (.amoAnd u d a c t k m e)) ∧
  (∀ (u : Bool) (d a : BitVec 7) (c : BitVec 3) (t k m e : Bool), StopsBound s I e (atomLeft s I) (.amoOr u d a c t k m e)) ∧
  (∀ (u : Bool) (d a : BitVec 7) (c : BitVec 3) (t k m e : Bool), StopsBound s I e (atomLeft s I) (.amoXor u d a c t k m e)) ∧
  (∀ (u : Bool) (d a : BitVec 7) (c : BitVec 3) (t k m e : Bool), StopsBound s I e (atomLeft s I) (.amoExch u d a c t k m e)) ∧
  (∀ (u : Bool) (d a : BitVec 7) (c : BitVec 3) (t k m e : Bool), StopsBound s I e (atomLeft s I) (.amoIncw u d a c t k m e)) ∧
  (∀ (u : Bool) (d a : BitVec 7) (c : BitVec 3) (t k m e : Bool), StopsBound s I e (atomLeft s I) (.redAdd u d a c t k m e)) ∧
  (∀ (u : Bool) (d a : BitVec 7) (c : BitVec 3) (t k m e : Bool), StopsBound s I e (atomLeft s I) (.redMin u d a c t k m e)) ∧
  (∀ (u : Bool) (d a : BitVec 7) (c : BitVec 3) (t k m e : Bool), StopsBound s I e (atomLeft s I) (.redMax u d a c t k m e)) ∧
  (∀ (u : Bool) (d a : BitVec 7) (c : BitVec 3) (t k m e : Bool), StopsBound s I e (atomLeft s I) (.redAnd u d a c t k m e)) ∧
  (∀ (u : Bool) (d a : BitVec 7) (c : BitVec 3) (t k m e : Bool), StopsBound s I e (atomLeft s I) (.redOr u d a c t k m e)) ∧
  (∀ (u : Bool) (d a : BitVec 7) (c : BitVec 3) (t k m e : Bool), StopsBound s I e (atomLeft s I) (.redXor u d a c t k m e)) ∧
  (∀ (u : Bool) (d a : BitVec 7) (c : BitVec 3) (t : Bool) (q : BitVec 3) (k m e : Bool), StopsBound s I e (atomLeft s I) (.cas u d a c t q k m e)) ∧
  (∀ (a : BitVec 7) (c : BitVec 3) (b : BitVec 4) (k e : Bool), StopsOnly s I (barrierAfter s I) (.barSync a c b k e)) ∧
  (∀ (a : BitVec 7) (c : BitVec 3) (b : BitVec 4) (k e : Bool), StopsOnly s I (barrierAfter s I) (.barArrive a c b k e)) ∧
  (∀ (c : BitVec 3) (b : BitVec 4) (e : Bool), StopsOnly s I (barrierAfter s I) (.barWait c b e)) ∧
  (∀ (q c : BitVec 3) (b : BitVec 4) (e : Bool), StopsOnly s I (barrierAfter s I) (.barPeek q c b e)) ∧
  (∀ (a : BitVec 7) (c : BitVec 3) (b : BitVec 4) (k e : Bool), StopsOnly s I (barrierAfter s I) (.bexpPost a c b k e)) ∧
  (∀ (a : BitVec 7) (c : BitVec 3) (b : BitVec 4) (k e : Bool), StopsOnly s I (barrierAfter s I) (.bexpArrive a c b k e)) ∧
  (∀ (u : Bool) (d : BitVec 7) (a : BitVec 6) (k e : Bool), StopsBound s I e (txAfter s I) (.txb u d a k e)) ∧
  (∀ (n : BitVec 4) (e : Bool), StopsBound s I e (txAfter s I) (.txa n e)) ∧
  (∀ (d a : BitVec 5) (n : BitVec 4) (l r e : Bool), StopsBound s I e (copyAfter s I) (.cpyTile d a n l r e)) ∧
  (∀ (d a : BitVec 5) (n : BitVec 4) (l r e : Bool), StopsBound s I e (copyAfter s I) (.cpyGather d a n l r e)) ∧
  (∀ (d a : BitVec 5) (n : BitVec 4) (l r e : Bool), StopsBound s I e (copyAfter s I) (.cpyScatter d a n l r e)) ∧
  (∀ (d a : BitVec 5) (n : BitVec 4) (l r e : Bool), StopsBound s I e (copyAfter s I) (.cpyAxpb d a n l r e)) ∧
  (∀ (d a : BitVec 5) (n : BitVec 4) (l r e : Bool), StopsBound s I e (copyAfter s I) (.cpyRescale d a n l r e)) ∧
  (∀ (d a : BitVec 5) (n : BitVec 4) (l r e : Bool), StopsBound s I e (copyAfter s I) (.cpyFill d a n l r e)) ∧
  (∀ (d a : BitVec 5) (n : BitVec 4) (l r e : Bool), StopsBound s I e (copyAfter s I) (.cpySum d a n l r e)) ∧
  (∀ (m : BitVec 4) (l e : Bool), StopsBound s I e (copyAfter s I) (.cpyd m l e)) ∧
  (∀ (a : BitVec 6) (n : BitVec 4) (l e : Bool), StopsBound s I e (copyAfter s I) (.cpyr a n l e)) ∧
  (∀ (d : BitVec 5) (a : BitVec 4) (l r e : Bool), StopsBound s I e (matrixAfter s I) (.mma d a l r e)) ∧
  (∀ (d : BitVec 5) (a : BitVec 4) (l r e : Bool), StopsBound s I e (matrixAfter s I) (.cmma d a l r e)) ∧
  (∀ (d : BitVec 5) (a : BitVec 4) (l r e : Bool), StopsBound s I e (matrixAfter s I) (.pmma d a l r e)) ∧
  (∀ (d : BitVec 6) (l e : Bool), StopsBound s I e (matrixAfter s I) (.mxcZero d l e)) ∧
  (∀ (d : BitVec 6) (l e : Bool), StopsBound s I e (matrixAfter s I) (.mxcRscl d l e)) ∧
  (∀ (e : Bool), StopsBound s I e (matrixAfter s I) (.mxr e)) ∧
  (∀ (d : BitVec 7) (e : Bool), StopsBound s I e (matrixAfter s I) (.mxf d e)) ∧
  (∀ (a b : BitVec 7) (e : Bool), StopsBound s I e (matrixAfter s I) (.mxw a b e)) ∧
  (∀ (d a : BitVec 7) (w : BitVec 4) (e : Bool), StopsBound s I e (matrixAfter s I) (.panLd d a w e)) ∧
  (∀ (d a : BitVec 7) (w : BitVec 4) (e : Bool), StopsBound s I e (matrixAfter s I) (.panSt d a w e)) ∧
  (∀ (d a : BitVec 7) (c : BitVec 3) (z r : BitVec 2) (k m e : Bool), StopsBound s I e (linkAfter s I) (.sput d a c z r k m e)) ∧
  (∀ (d a : BitVec 7) (c : BitVec 3) (z r : BitVec 2) (k e : Bool), StopsBound s I e (linkAfter s I) (.sget d a c z r k e)) ∧
  (∀ (a : BitVec 7) (c : BitVec 3) (i o : BitVec 2) (k e : Bool), StopsBound s I e (linkAfter s I) (.sfwd a c i o k e)) ∧
  (∀ (d : BitVec 6) (a : BitVec 5) (c : BitVec 3) (k e : Bool), StopsBound s I e (linkAfter s I) (.xscanAdd d a c k e)) ∧
  (∀ (d : BitVec 6) (a : BitVec 5) (c : BitVec 3) (k e : Bool), StopsBound s I e (linkAfter s I) (.xscanMul d a c k e)) ∧
  (∀ (d : BitVec 6) (a : BitVec 5) (c : BitVec 3) (k e : Bool), StopsBound s I e (linkAfter s I) (.xscanMin d a c k e)) ∧
  (∀ (d : BitVec 6) (a : BitVec 5) (c : BitVec 3) (k e : Bool), StopsBound s I e (linkAfter s I) (.xscanMax d a c k e)) ∧
  (∀ (d : BitVec 6) (a : BitVec 5) (c : BitVec 3) (k e : Bool), StopsBound s I e (linkAfter s I) (.xscanAff d a c k e)) ∧
  (∀ (x0 : BitVec 3) (e : Bool), StopsBound s I e (translationAfter s I) (.tfenPtrel x0 e)) ∧
  (∀ (x0 : BitVec 3) (e : Bool), StopsBound s I e (translationAfter s I) (.tfenWalkacq x0 e)) ∧
  (∀ (u : Bool) (d : BitVec 7) (a : BitVec 6) (c : BitVec 3) (k m e : Bool), StopsBound s I e (translationAfter s I) (.tfenSync u d a c k m e)) ∧
  (∀ (u : Bool) (d : BitVec 7) (a : BitVec 6) (c : BitVec 3) (k m e : Bool), StopsBound s I e (translationAfter s I) (.tinvPage u d a c k m e)) ∧
  (∀ (u : Bool) (c : BitVec 3) (e : Bool), StopsBound s I e (translationAfter s I) (.tinvCtx u c e)) ∧
  (∀ (u : Bool) (d a : BitVec 6) (k e : Bool), StopsHere s I e (translationAfter s I) (.tprb u d a k e)) ∧
  (∀ (d : BitVec 6) (a : BitVec 7) (l e : Bool), StopsBound s I e (migrationAfter s I) (.thintPromote d a l e)) ∧
  (∀ (d : BitVec 6) (a : BitVec 7) (l e : Bool), StopsBound s I e (migrationAfter s I) (.thintDemote d a l e)) ∧
  (∀ (d : BitVec 6) (a : BitVec 7) (l e : Bool), StopsBound s I e (migrationAfter s I) (.thintPin d a l e)) ∧
  (∀ (d : BitVec 6) (a : BitVec 7) (l e : Bool), StopsBound s I e (migrationAfter s I) (.thintUnpin d a l e)) ∧
  (∀ (d : BitVec 6) (a : BitVec 7) (l e : Bool), StopsBound s I e (migrationAfter s I) (.thintRelease d a l e)) ∧
  (∀ (d : BitVec 5) (a : BitVec 7) (l e : Bool), StopsBound s I e (migrationAfter s I) (.migr d a l e)) ∧
  (∀ (d a : BitVec 6) (q : BitVec 3) (e : Bool), StopsBound s I e (launchAfter s I) (.launch d a q e)) ∧
  (∀ (d a : BitVec 7) (e : Bool), StopsBound s I e (launchAfter s I) (.lwait d a e)) ∧
  (∀ (i : BitVec 16) (e : Bool), StopsBound s I e (containAfter s I) (.contOpen i e)) ∧
  (∀ (e : Bool), StopsBound s I e (containAfter s I) (.contClose e)) ∧
  (∀ (e : Bool), StopsBound s I e (containAfter s I) (.dualOn e)) ∧
  (∀ (e : Bool), StopsBound s I e (containAfter s I) (.dualOff e)) ∧
  (∀ (d : BitVec 7) (n : BitVec 6) (e : Bool), StopsHere s I e (registerAfter s I) (.csrRd d n e)) ∧
  (∀ (a : BitVec 7) (n : BitVec 6) (k e : Bool), StopsHere s I e (registerAfter s I) (.csrWr a n k e)) ∧
  (∀ (e : Bool), StopsHere s I e (registerAfter s I) (.nopreOn e)) ∧
  (∀ (e : Bool), StopsHere s I e (registerAfter s I) (.nopreOff e)) ∧
  StopsHere s I true (returnAfter s I) .rfeNext ∧
  StopsHere s I true (returnAfter s I) .rfeRetry ∧
  StopsHere s I true (returnAfter s I) .rfeKill ∧
  (∀ (h : BitVec 6), StopsHere s I true (returnAfter s I) (.rfeSave h)) ∧
  StopsHere s I true (returnAfter s I) .rfeRest ∧
  (∀ (d : BitVec 7) (a : BitVec 6) (e : Bool), StopsHere s I e (ctxAfter s I) (.ctxSgr d a e)) ∧
  (∀ (d : BitVec 7) (a : BitVec 6) (e : Bool), StopsHere s I e (ctxAfter s I) (.ctxLgr d a e)) ∧
  (∀ (a : BitVec 6) (e : Bool), StopsHere s I e (ctxAfter s I) (.ctxSst a e)) ∧
  (∀ (a : BitVec 6) (e : Bool), StopsHere s I e (ctxAfter s I) (.ctxLst a e)) ∧
  (∀ (a : BitVec 6) (e : Bool), StopsHere s I e (ctxAfter s I) (.ctxSwg a e)) ∧
  (∀ (a : BitVec 6) (e : Bool), StopsHere s I e (ctxAfter s I) (.ctxLwg a e)) ∧
  (∀ (e : Bool), StopsHere s I e (ctxAfter s I) (.ctxQuiet e)) ∧
  (∀ (d : BitVec 7) (e : Bool), I.G.alloc ≤ d.toNat →
    Sys2Proof.Machine.exec (.feEmpty d e) s = .next (s.raiseCode I codeRegBound)) ∧
  (∀ (a : BitVec 7) (k e : Bool), let n := I.need false true [] [one a k] .uniform
    (∀ c, I.gate n = .fault c → Sys2Proof.Machine.exec (.feWait a k e) s = .next (s.raise I { code := c, tmask := I.act })) ∧
    (∀ l, I.gate n = .wait l → Sys2Proof.Machine.exec (.feWait a k e) s = .next (s.awaitRegs I l true)) ∧
    (I.gate n = .skip → Sys2Proof.Machine.exec (.feWait a k e) s = .next (s.advance I e))) ∧
  (∀ (x y : BitVec 7) (q : BitVec 3) (r : BitVec 6) (e : Bool) (reason op : Nat),
    macroFault (((s.gridOf I.G).map (·.image)).getD []) r.toNat = some (reason, op) →
      Sys2Proof.Machine.exec (.mcall x y q r e) s =
        .next (if I.act = 0#32 then s.advance I e else s.raiseMacro I reason op r.toNat))

/-- The checks of `add` in the order of R90: the first that fails is the only one that shows. A word that goes on after a wait it
has already had is no new word, and is not checked again (R30). Where the rules leave a point open, this is the model's own
reading or choice: log entries 18, 22 and 64. -/
def Obligations.CheckOrderOfAdd : Prop := ∀ (s : State) (I : Iss) (u : Bool) (d a b : BitVec 7) (k l e : Bool), s.iss = some I →
  I.S.released = false → I.S.counted = false →
  let i : Instr := .add u d a b k l e
  let oa := dataOp I.S.ty a k
  let ob := dataOp I.S.ty b l
  let ops := [dataOp I.S.ty d, oa, ob]
  let raises (code src : Nat) : Prop := Sys2Proof.Machine.exec i s = .next (s.raise I { code := code, src := src, tmask := I.act })
  let empty (o : Opnd) : Prop := ∃ r, r ∈ o.regs ∧ (I.G.reg r).full = false
  let odd : Prop := ∃ o, o ∈ ops ∧ o.n % o.cnt ≠ 0
  let beyond : Prop := ∃ o, o ∈ ops ∧ ∃ r, r ∈ o.regs ∧ I.G.alloc ≤ r
  let asserted : Prop := (k = true ∧ empty oa) ∨ (l = true ∧ empty ob)
  let awaits : Prop := ∃ o, o ∈ ops ∧ empty o
  (odd → raises codeReservedField 0) ∧
  (¬odd → 7 < I.S.ty → raises codeTypeUnsupported 0) ∧
  (¬odd → I.S.ty ≤ 7 → beyond → raises codeRegBound 0) ∧
  (¬odd → I.S.ty ≤ 7 → ¬beyond → I.act = 0#32 → Sys2Proof.Machine.exec i s = .next (s.advance I e)) ∧
  (¬odd → I.S.ty ≤ 7 → ¬beyond → I.act ≠ 0#32 → asserted → raises codeEmptyRead 0) ∧
  (¬odd → I.S.ty ≤ 7 → ¬beyond → I.act ≠ 0#32 → ¬asserted → awaits →
    ∃ r, r ≠ [] ∧ (∀ n, n ∈ r → (I.G.reg n).full = false) ∧ Sys2Proof.Machine.exec i s = .next (s.awaitRegs I r false)) ∧
  (¬odd → I.S.ty ≤ 7 → ¬beyond → I.act ≠ 0#32 → ¬awaits → u = true →
    (I.G.opTag oa).flat = false ∨ (I.G.opTag ob).flat = false → raises codeUniformAssert 1)

/-- g0 reads 0, is full and discards writes; p0 reads true and discards writes (R78). The generator of stochastic rounding steps by
its polynomial, and is never zero (R59). -/
def Obligations.HardWiredRegisters : Prop := (∀ (g : Group) (m : Mask) (f : Nat → Word) (v : Nat → Bool) (d : Tag) (r : Reg) (t : Nat),
  g.val 0 t = 0#32 ∧ (g.reg 0).full = true ∧ g.write 0 m f d = g ∧ g.putReg 0 r = g ∧ g.pred 0 t = true ∧ g.setPred 0 m v = g) ∧
  ∀ x : BitVec 24,
  (x ≠ 0#24 → drawSeed x ≠ 0#24) ∧
  (∀ i, 0 < i → i < 24 → (drawSeed x).getLsbD i = x.getLsbD (i - 1)) ∧
  (drawSeed x).getLsbD 0 = (x.getLsbD 23 ^^ (x.getLsbD 22 ^^ (x.getLsbD 21 ^^ x.getLsbD 16)))

/-- For illegal, nop, trap, brk, mode, fmt, region, exit, rsize, utag.gen, utag.chk, utag.chk64, fe.empty, fe.fill and fe.wait:
Wherever the checks of R90 pass and the rule lets the word have its effect, the word answers exactly the next state given: what
the rule changes, and the split one word on or at its new run. Where the rules leave a point open, this is the model's own
reading or choice: log entries 42, 45, 51 and 84. -/
def Obligations.ControlAndTagWords : Prop := ∀ (s : State) (I : Iss), s.iss = some I →
  (∀ (e : Bool), Leaves s I (controlAfter s I) (.illegal e)) ∧
  (∀ (e : Bool), Leaves s I (controlAfter s I) (.nop e)) ∧
  (∀ (n : BitVec 8), Leaves s I (controlAfter s I) (.trap n)) ∧
  (∀ (t : BitVec 16), Leaves s I (controlAfter s I) (.brk t)) ∧
  (∀ (i : BitVec 16) (e : Bool), Leaves s I (controlAfter s I) (.modeLo i e)) ∧
  (∀ (i : BitVec 16) (e : Bool), Leaves s I (controlAfter s I) (.modeHi i e)) ∧
  (∀ (i : BitVec 16) (e : Bool), Leaves s I (controlAfter s I) (.fmtLo i e)) ∧
  (∀ (i : BitVec 16) (e : Bool), Leaves s I (controlAfter s I) (.fmtHi i e)) ∧
  (∀ (e : Bool), Leaves s I (controlAfter s I) (.region e)) ∧
  (∀ (i : BitVec 7) (e : Bool), Leaves s I (controlAfter s I) (.rsize i e)) ∧
  Leaves s I (endAfter s I) .exit ∧
  (∀ (a : BitVec 7) (k e : Bool), Leaves s I (tagAfter s I) (.utagGen a k e)) ∧
  (∀ (a : BitVec 7) (k e : Bool), Leaves s I (tagAfter s I) (.utagChk a k e)) ∧
  (∀ (a : BitVec 6) (k e : Bool), Leaves s I (tagAfter s I) (.utagChk64 a k e)) ∧
  (∀ (d : BitVec 7) (e : Bool), Leaves s I (tagAfter s I) (.feEmpty d e)) ∧
  (∀ (d a : BitVec 7) (k e : Bool), Leaves s I (tagAfter s I) (.feFill d a k e)) ∧
  (∀ (a : BitVec 7) (k e : Bool), Leaves s I (tagAfter s I) (.feWait a k e))

/-- For bra, brt, brf, call, jmp and ret: where the checks pass and the stack holds the deferred paths, the group is parted into the
paths of its threads in the order of R37, the link written, and nothing outside the group changes. Where the rules leave a point
open, this is the model's own reading or choice: log entry 10. -/
def Obligations.TransferWords : Prop := ∀ (s : State) (I : Iss), s.iss = some I →
  (∀ (u : Bool) (i : BitVec 16), Transfers s I (jumpOf I) (.bra u i)) ∧
  (∀ (u : Bool) (p : BitVec 3) (i : BitVec 16), Transfers s I (jumpOf I) (.brt u p i)) ∧
  (∀ (u : Bool) (p : BitVec 3) (i : BitVec 16), Transfers s I (jumpOf I) (.brf u p i)) ∧
  (∀ (u : Bool) (c : BitVec 6) (i : BitVec 16), Transfers s I (jumpOf I) (.call u c i)) ∧
  (∀ (u : Bool) (a : BitVec 6) (k : Bool), Transfers s I (jumpOf I) (.jmp u a k)) ∧
  (∀ (u : Bool) (a : BitVec 6) (k : Bool), Transfers s I (jumpOf I) (.ret u a k))

/-- For bra, brt, brf, call, jmp and ret: where a target fails a check, the fault is the first of the table with a mask of every
thread that fails it and no register or pc changes; under U = 1 differing targets raise UNIFORM-ASSERT first; paths past the
stack raise RECONV-DEPTH. Where the rules leave a point open, this is the model's own reading or choice: log entries 18 and 80. -/
def Obligations.TransferFaults : Prop := ∀ (s : State) (I : Iss), s.iss = some I →
  (∀ (u : Bool) (i : BitVec 16), TransferFails s I (jumpOf I) (.bra u i)) ∧
  (∀ (u : Bool) (p : BitVec 3) (i : BitVec 16), TransferFails s I (jumpOf I) (.brt u p i)) ∧
  (∀ (u : Bool) (p : BitVec 3) (i : BitVec 16), TransferFails s I (jumpOf I) (.brf u p i)) ∧
  (∀ (u : Bool) (c : BitVec 6) (i : BitVec 16), TransferFails s I (jumpOf I) (.call u c i)) ∧
  (∀ (u : Bool) (a : BitVec 6) (k : Bool), TransferFails s I (jumpOf I) (.jmp u a k)) ∧
  (∀ (u : Bool) (a : BitVec 6) (k : Bool), TransferFails s I (jumpOf I) (.ret u a k))

/-- A branch that every thread of the split takes goes to its target; a conditional branch that no thread takes goes on at the next
word. Either begins a new run, and changes nothing but where the split stands (R29, R117, R118). The group has no deferred path,
so the run boundary merges and switches nothing (R38). Where the rules leave a point open, this is the model's own reading or
choice: log entry 10. -/
def Obligations.BranchesGo : Prop := ∀ (s : State) (I : Iss) (u : Bool) (p : BitVec 3) (i : BitVec 16), s.iss = some I →
  I.G.stack = [] → I.act ≠ 0#32 →
  let target : Int := I.S.pc.toNat + 4 + 4 * i.toInt
  let stands (x : Instr) (pc : DWord) : Prop := ∃ t g, Sys2Proof.Machine.exec x s = .next t ∧ mapFind t.groups I.gid = some g ∧
    g.split I.sid = some { I.S with pc := pc }.endRun ∧ SameGroup g I.G ∧ g.regs = I.G.regs ∧ g.preds = I.G.preds ∧
    t.lanes = s.lanes ∧ OnlyGroup s t I
  let all (v : Bool) : Prop := ∀ t, I.act.getLsbD t = true → I.G.pred p.toNat t = v
  (I.act = I.S.mask → targetOk target = true →
    stands (.bra u i) (BitVec.ofInt 64 target) ∧ (all true → stands (.brt u p i) (BitVec.ofInt 64 target)) ∧
    (all false → stands (.brf u p i) (BitVec.ofInt 64 target))) ∧
  (all false → stands (.brt u p i) (I.S.pc + 4)) ∧ (all true → stands (.brf u p i) (I.S.pc + 4))

/-- For ldg, ldp and lda: where the address and translation checks pass, the word answers the next state in which its destination is
empty and what its threads have read is to be delivered. Where the rules leave a point open, this is the model's own reading or
choice: log entries 16 and 21. -/
def Obligations.LoadWords : Prop := ∀ (s : State) (I : Iss), s.iss = some I →
  (∀ (u : Bool) (d : BitVec 7) (a : BitVec 6) (w : BitVec 3) (f : BitVec 4) (k e : Bool), Leaves s I (loadLeft s I) (.ldg u d a w f k e)) ∧
  (∀ (u : Bool) (d : BitVec 7) (a : BitVec 6) (w : BitVec 3) (f : BitVec 4) (k e : Bool), Leaves s I (loadLeft s I) (.ldp u d a w f k e)) ∧
  (∀ (u : Bool) (d : BitVec 7) (a : BitVec 6) (c : BitVec 3) (w k e : Bool), Leaves s I (loadLeft s I) (.lda u d a c w k e))

/-- For stg and stp: where the checks pass, the word answers the next state in which each active thread's bytes are stored at its
address, in the order of the threads; a uniform base under U = 1 makes one access, whose data are those of the highest active
thread, and a store through a poisoned entry of a table is lost with its record. Where the rules leave a point open, this is the
model's own reading or choice: log entries 21 and 62. -/
def Obligations.StoreWords : Prop := ∀ (s : State) (I : Iss), s.iss = some I →
  (∀ (u : Bool) (d : BitVec 7) (a : BitVec 6) (w : BitVec 3) (f : BitVec 4) (k m e : Bool), Leaves s I (storeLeft s I) (.stg u d a w f k m e)) ∧
  (∀ (u : Bool) (d : BitVec 7) (a : BitVec 6) (w : BitVec 3) (f : BitVec 4) (k m e : Bool), Leaves s I (storeLeft s I) (.stp u d a w f k m e))

/-- For every load, store, release store, poll and atomic: where the checks of R90 pass and no transaction is open, the first check
of R168 that any active thread fails is the only fault raised, its tmask names every thread that fails it, its va is the lowest
one's address (or its detail the lowest one's offset), and no thread performs its access; an absent page makes the word wait,
with its region aborted. Where the rules leave a point open, this is the model's own reading or choice: log entry 18. -/
def Obligations.AddressFaults : Prop := ∀ (s : State) (I : Iss), s.iss = some I →
  (∀ (u : Bool) (d : BitVec 7) (a : BitVec 6) (w : BitVec 3) (f : BitVec 4) (k e : Bool), ChecksAddress s I (accessOf I) (.ldg u d a w f k e)) ∧
  (∀ (u : Bool) (d : BitVec 7) (a : BitVec 6) (w : BitVec 3) (f : BitVec 4) (k e : Bool), ChecksAddress s I (accessOf I) (.ldp u d a w f k e)) ∧
  (∀ (u : Bool) (d : BitVec 7) (a : BitVec 6) (c : BitVec 3) (w k e : Bool), ChecksAddress s I (accessOf I) (.lda u d a c w k e)) ∧
  (∀ (u : Bool) (d : BitVec 7) (a : BitVec 6) (w : BitVec 3) (f : BitVec 4) (k m e : Bool), ChecksAddress s I (accessOf I) (.stg u d a w f k m e)) ∧
  (∀ (u : Bool) (d : BitVec 7) (a : BitVec 6) (w : BitVec 3) (f : BitVec 4) (k m e : Bool), ChecksAddress s I (accessOf I) (.stp u d a w f k m e)) ∧
  (∀ (u : Bool) (d : BitVec 7) (a : BitVec 6) (x3 : BitVec 3) (w k m e : Bool), ChecksAddress s I (accessOf I) (.ldaPoll u d a x3 w k m e)) ∧
  (∀ (u : Bool) (d : BitVec 7) (a : BitVec 6) (x3 : BitVec 3) (w k m e : Bool), ChecksAddress s I (accessOf I) (.stl u d a x3 w k m e)) ∧
  (∀ (u : Bool) (d a : BitVec 7) (c : BitVec 3) (t k m e : Bool), ChecksAddress s I (accessOf I) (.amoAdd u d a c t k m e)) ∧
  (∀ (u : Bool) (d a : BitVec 7) (c : BitVec 3) (t k m e : Bool), ChecksAddress s I (accessOf I) (.amoMin u d a c t k m e)) ∧
  (∀ (u : Bool) (d a : BitVec 7) (c : BitVec 3) (t k m e : Bool), ChecksAddress s I (accessOf I) (.amoMax u d a c t k m e)) ∧
  (∀ (u : Bool) (d a : BitVec 7) (c : BitVec 3) (t k m e : Bool), ChecksAddress s I (accessOf I) (.amoAnd u d a c t k m e)) ∧
  (∀ (u : Bool) (d a : BitVec 7) (c : BitVec 3) (t k m e : Bool), ChecksAddress s I (accessOf I) (.amoOr u d a c t k m e)) ∧
  (∀ (u : Bool) (d a : BitVec 7) (c : BitVec 3) (t k m e : Bool), ChecksAddress s I (accessOf I) (.amoXor u d a c t k m e)) ∧
  (∀ (u : Bool) (d a : BitVec 7) (c : BitVec 3) (t k m e : Bool), ChecksAddress s I (accessOf I) (.amoExch u d a c t k m e)) ∧
  (∀ (u : Bool) (d a : BitVec 7) (c : BitVec 3) (t k m e : Bool), ChecksAddress s I (accessOf I) (.amoIncw u d a c t k m e)) ∧
  (∀ (u : Bool) (d a : BitVec 7) (c : BitVec 3) (t k m e : Bool), ChecksAddress s I (accessOf I) (.redAdd u d a c t k m e)) ∧
  (∀ (u : Bool) (d a : BitVec 7) (c : BitVec 3) (t k m e : Bool), ChecksAddress s I (accessOf I) (.redMin u d a c t k m e)) ∧
  (∀ (u : Bool) (d a : BitVec 7) (c : BitVec 3) (t k m e : Bool), ChecksAddress s I (accessOf I) (.redMax u d a c t k m e)) ∧
  (∀ (u : Bool) (d a : BitVec 7) (c : BitVec 3) (t k m e : Bool), ChecksAddress s I (accessOf I) (.redAnd u d a c t k m e)) ∧
  (∀ (u : Bool) (d a : BitVec 7) (c : BitVec 3) (t k m e : Bool), ChecksAddress s I (accessOf I) (.redOr u d a c t k m e)) ∧
  (∀ (u : Bool) (d a : BitVec 7) (c : BitVec 3) (t k m e : Bool), ChecksAddress s I (accessOf I) (.redXor u d a c t k m e)) ∧
  (∀ (u : Bool) (d a : BitVec 7) (c : BitVec 3) (t : Bool) (q : BitVec 3) (k m e : Bool), ChecksAddress s I (accessOf I) (.cas u d a c t q k m e)) ∧
  (∀ (u : Bool) (d a : BitVec 7) (w : BitVec 3) (f : BitVec 4) (k e : Bool), ChecksOffset s I (scratchOf I) (.lds u d a w f k e)) ∧
  (∀ (u : Bool) (d a : BitVec 7) (w : BitVec 3) (f : BitVec 4) (k m e : Bool), ChecksOffset s I (scratchOf I) (.sts u d a w f k m e)) ∧
  (∀ (u : Bool) (d a : BitVec 7) (c : BitVec 3) (t k m e : Bool), ChecksOffset s I (scratchOf I) (.amoAdd u d a c t k m e)) ∧
  (∀ (u : Bool) (d a : BitVec 7) (c : BitVec 3) (t k m e : Bool), ChecksOffset s I (scratchOf I) (.amoMin u d a c t k m e)) ∧
  (∀ (u : Bool) (d a : BitVec 7) (c : BitVec 3) (t k m e : Bool), ChecksOffset s I (scratchOf I) (.amoMax u d a c t k m e)) ∧
  (∀ (u : Bool) (d a : BitVec 7) (c : BitVec 3) (t k m e : Bool), ChecksOffset s I (scratchOf I) (.amoAnd u d a c t k m e)) ∧
  (∀ (u : Bool) (d a : BitVec 7) (c : BitVec 3) (t k m e : Bool), ChecksOffset s I (scratchOf I) (.amoOr u d a c t k m e)) ∧
  (∀ (u : Bool) (d a : BitVec 7) (c : BitVec 3) (t k m e : Bool), ChecksOffset s I (scratchOf I) (.amoXor u d a c t k m e)) ∧
  (∀ (u : Bool) (d a : BitVec 7) (c : BitVec 3) (t k m e : Bool), ChecksOffset s I (scratchOf I) (.amoExch u d a c t k m e)) ∧
  (∀ (u : Bool) (d a : BitVec 7) (c : BitVec 3) (t k m e : Bool), ChecksOffset s I (scratchOf I) (.amoIncw u d a c t k m e)) ∧
  (∀ (u : Bool) (d a : BitVec 7) (c : BitVec 3) (t k m e : Bool), ChecksOffset s I (scratchOf I) (.redAdd u d a c t k m e)) ∧
  (∀ (u : Bool) (d a : BitVec 7) (c : BitVec 3) (t k m e : Bool), ChecksOffset s I (scratchOf I) (.redMin u d a c t k m e)) ∧
  (∀ (u : Bool) (d a : BitVec 7) (c : BitVec 3) (t k m e : Bool), ChecksOffset s I (scratchOf I) (.redMax u d a c t k m e)) ∧
  (∀ (u : Bool) (d a : BitVec 7) (c : BitVec 3) (t k m e : Bool), ChecksOffset s I (scratchOf I) (.redAnd u d a c t k m e)) ∧
  (∀ (u : Bool) (d a : BitVec 7) (c : BitVec 3) (t k m e : Bool), ChecksOffset s I (scratchOf I) (.redOr u d a c t k m e)) ∧
  (∀ (u : Bool) (d a : BitVec 7) (c : BitVec 3) (t k m e : Bool), ChecksOffset s I (scratchOf I) (.redXor u d a c t k m e)) ∧
  (∀ (u : Bool) (d a : BitVec 7) (c : BitVec 3) (t : Bool) (q : BitVec 3) (k m e : Bool), ChecksOffset s I (scratchOf I) (.cas u d a c t q k m e)) ∧
  (∀ (u : Bool) (d a : BitVec 7) (w : BitVec 3) (f : BitVec 4) (k e : Bool), ChecksConstant s I (constantOf I) (.ldc u d a w f k e))

/-- For ldc, lds, sts, lda.poll and stl: Wherever the checks of R90 pass and the rule lets the word have its effect, the word
answers exactly the next state given: what the rule changes, and the split one word on or at its new run. Where the rules leave
a point open, this is the model's own reading or choice: log entries 16, 17, 21, 62 and 82. -/
def Obligations.AccessWords : Prop := ∀ (s : State) (I : Iss), s.iss = some I →
  (∀ (u : Bool) (d a : BitVec 7) (w : BitVec 3) (f : BitVec 4) (k e : Bool), Leaves s I (accessAfter s I) (.ldc u d a w f k e)) ∧
  (∀ (u : Bool) (d a : BitVec 7) (w : BitVec 3) (f : BitVec 4) (k e : Bool), Leaves s I (accessAfter s I) (.lds u d a w f k e)) ∧
  (∀ (u : Bool) (d a : BitVec 7) (w : BitVec 3) (f : BitVec 4) (k m e : Bool), Leaves s I (accessAfter s I) (.sts u d a w f k m e)) ∧
  (∀ (u : Bool) (d : BitVec 7) (a : BitVec 6) (c : BitVec 3) (w k m e : Bool), Leaves s I (accessAfter s I) (.ldaPoll u d a c w k m e)) ∧
  (∀ (u : Bool) (d : BitVec 7) (a : BitVec 6) (c : BitVec 3) (w k m e : Bool), Leaves s I (accessAfter s I) (.stl u d a c w k m e))

/-- For unpk and mcall: Wherever the checks of R90 pass and the rule lets the word have its effect, the word answers exactly the
next state given: what the rule changes, and the split one word on or at its new run. Where the rules leave a point open, this
is the model's own reading or choice: log entry 81. -/
def Obligations.ContainerAndMacroWords : Prop := ∀ (s : State) (I : Iss), s.iss = some I →
  (∀ (u : Bool) (d : BitVec 7) (a : BitVec 5) (n : BitVec 3) (c : BitVec 4) (k e : Bool), Leaves s I (chunkAfter s I) (.unpk u d a n c k e)) ∧
  (∀ (x y : BitVec 7) (q : BitVec 3) (r : BitVec 6) (e : Bool), Leaves s I (chunkAfter s I) (.mcall x y q r e))

/-- For fence, cache, pfm and smap: Wherever the checks of R90 pass and the rule lets the word have its effect, the word answers
exactly the next state given: what the rule changes, and the split one word on or at its new run. Where the rules leave a point
open, this is the model's own reading or choice: log entries 15, 57 and 62. -/
def Obligations.CacheWords : Prop := ∀ (s : State) (I : Iss), s.iss = some I →
  (∀ (c : BitVec 3) (e : Bool), Leaves s I (cacheAfter s I) (.fenceFull c e)) ∧
  (∀ (c : BitVec 3) (e : Bool), Leaves s I (cacheAfter s I) (.fenceRel c e)) ∧
  (∀ (c : BitVec 3) (e : Bool), Leaves s I (cacheAfter s I) (.fenceAcq c e)) ∧
  (∀ (u : Bool) (a : BitVec 6) (c : BitVec 3) (k e : Bool), Leaves s I (cacheAfter s I) (.cacheWbl u a c k e)) ∧
  (∀ (u : Bool) (a : BitVec 6) (k e : Bool), Leaves s I (cacheAfter s I) (.cacheInvl u a k e)) ∧
  (∀ (c : BitVec 3) (e : Bool), Leaves s I (cacheAfter s I) (.cacheWball c e)) ∧
  (∀ (e : Bool), Leaves s I (cacheAfter s I) (.cacheInvall e)) ∧
  (∀ (n : BitVec 2) (e : Bool), Leaves s I (cacheAfter s I) (.cacheSwb n e)) ∧
  (∀ (u : Bool) (v : BitVec 2) (a : BitVec 6) (w : BitVec 3) (f : BitVec 4) (k e : Bool), Leaves s I (cacheAfter s I) (.pfm u v a w f k e)) ∧
  (∀ (n : BitVec 2) (a b : BitVec 6) (k l e : Bool), Leaves s I (cacheAfter s I) (.smap n a b k l e))

/-- For amo, red and cas: where the checks pass, each active thread's operation is performed on its word in memory in the order of
the threads, and the old value returned by amo and cas. Where the rules leave a point open, this is the model's own reading or
choice: log entries 16, 40 and 55. -/
def Obligations.AtomicWords : Prop := ∀ (s : State) (I : Iss), s.iss = some I →
  (∀ (u : Bool) (d a : BitVec 7) (c : BitVec 3) (t k m e : Bool), Leaves s I (atomLeft s I) (.amoAdd u d a c t k m e)) ∧
  (∀ (u : Bool) (d a : BitVec 7) (c : BitVec 3) (t k m e : Bool), Leaves s I (atomLeft s I) (.amoMin u d a c t k m e)) ∧
  (∀ (u : Bool) (d a : BitVec 7) (c : BitVec 3) (t k m e : Bool), Leaves s I (atomLeft s I) (.amoMax u d a c t k m e)) ∧
  (∀ (u : Bool) (d a : BitVec 7) (c : BitVec 3) (t k m e : Bool), Leaves s I (atomLeft s I) (.amoAnd u d a c t k m e)) ∧
  (∀ (u : Bool) (d a : BitVec 7) (c : BitVec 3) (t k m e : Bool), Leaves s I (atomLeft s I) (.amoOr u d a c t k m e)) ∧
  (∀ (u : Bool) (d a : BitVec 7) (c : BitVec 3) (t k m e : Bool), Leaves s I (atomLeft s I) (.amoXor u d a c t k m e)) ∧
  (∀ (u : Bool) (d a : BitVec 7) (c : BitVec 3) (t k m e : Bool), Leaves s I (atomLeft s I) (.amoExch u d a c t k m e)) ∧
  (∀ (u : Bool) (d a : BitVec 7) (c : BitVec 3) (t k m e : Bool), Leaves s I (atomLeft s I) (.amoIncw u d a c t k m e)) ∧
  (∀ (u : Bool) (d a : BitVec 7) (c : BitVec 3) (t k m e : Bool), Leaves s I (atomLeft s I) (.redAdd u d a c t k m e)) ∧
  (∀ (u : Bool) (d a : BitVec 7) (c : BitVec 3) (t k m e : Bool), Leaves s I (atomLeft s I) (.redMin u d a c t k m e)) ∧
  (∀ (u : Bool) (d a : BitVec 7) (c : BitVec 3) (t k m e : Bool), Leaves s I (atomLeft s I) (.redMax u d a c t k m e)) ∧
  (∀ (u : Bool) (d a : BitVec 7) (c : BitVec 3) (t k m e : Bool), Leaves s I (atomLeft s I) (.redAnd u d a c t k m e)) ∧
  (∀ (u : Bool) (d a : BitVec 7) (c : BitVec 3) (t k m e : Bool), Leaves s I (atomLeft s I) (.redOr u d a c t k m e)) ∧
  (∀ (u : Bool) (d a : BitVec 7) (c : BitVec 3) (t k m e : Bool), Leaves s I (atomLeft s I) (.redXor u d a c t k m e)) ∧
  (∀ (u : Bool) (d a : BitVec 7) (c : BitVec 3) (t : Bool) (q : BitVec 3) (k m e : Bool), Leaves s I (atomLeft s I) (.cas u d a c t q k m e))

/-- For bar, bexp, txb, txe and txa: Wherever the checks of R90 pass and the rule lets the word have its effect, the word answers
exactly the next state given: what the rule changes, and the split one word on or at its new run. Where the rules leave a point
open, this is the model's own reading or choice: log entries 12, 41, 42 and 55. -/
def Obligations.BarrierAndTransactionWords : Prop := ∀ (s : State) (I : Iss), s.iss = some I →
  (∀ (a : BitVec 7) (c : BitVec 3) (b : BitVec 4) (k e : Bool), Leaves s I (barrierAfter s I) (.barSync a c b k e)) ∧
  (∀ (a : BitVec 7) (c : BitVec 3) (b : BitVec 4) (k e : Bool), Leaves s I (barrierAfter s I) (.barArrive a c b k e)) ∧
  (∀ (c : BitVec 3) (b : BitVec 4) (e : Bool), Leaves s I (barrierAfter s I) (.barWait c b e)) ∧
  (∀ (q c : BitVec 3) (b : BitVec 4) (e : Bool), Leaves s I (barrierAfter s I) (.barPeek q c b e)) ∧
  (∀ (a : BitVec 7) (c : BitVec 3) (b : BitVec 4) (k e : Bool), Leaves s I (barrierAfter s I) (.bexpPost a c b k e)) ∧
  (∀ (a : BitVec 7) (c : BitVec 3) (b : BitVec 4) (k e : Bool), Leaves s I (barrierAfter s I) (.bexpArrive a c b k e)) ∧
  (∀ (u : Bool) (d : BitVec 7) (a : BitVec 6) (k e : Bool), Leaves s I (txAfter s I) (.txb u d a k e)) ∧
  (∀ (p : BitVec 3) (e : Bool), Leaves s I (txAfter s I) (.txe p e)) ∧
  (∀ (n : BitVec 4) (e : Bool), Leaves s I (txAfter s I) (.txa n e))

/-- For cpy, cpyd and cpyr: Wherever the checks of R90 pass and the rule lets the word have its effect, the word answers exactly the
next state given: what the rule changes, and the split one word on or at its new run. Where the rules leave a point open, this
is the model's own reading or choice: log entries 53, 55 and 66. -/
def Obligations.CopyWords : Prop := ∀ (s : State) (I : Iss), s.iss = some I →
  (∀ (d a : BitVec 5) (n : BitVec 4) (l r e : Bool), Leaves s I (copyAfter s I) (.cpyTile d a n l r e)) ∧
  (∀ (d a : BitVec 5) (n : BitVec 4) (l r e : Bool), Leaves s I (copyAfter s I) (.cpyGather d a n l r e)) ∧
  (∀ (d a : BitVec 5) (n : BitVec 4) (l r e : Bool), Leaves s I (copyAfter s I) (.cpyScatter d a n l r e)) ∧
  (∀ (d a : BitVec 5) (n : BitVec 4) (l r e : Bool), Leaves s I (copyAfter s I) (.cpyAxpb d a n l r e)) ∧
  (∀ (d a : BitVec 5) (n : BitVec 4) (l r e : Bool), Leaves s I (copyAfter s I) (.cpyRescale d a n l r e)) ∧
  (∀ (d a : BitVec 5) (n : BitVec 4) (l r e : Bool), Leaves s I (copyAfter s I) (.cpyFill d a n l r e)) ∧
  (∀ (d a : BitVec 5) (n : BitVec 4) (l r e : Bool), Leaves s I (copyAfter s I) (.cpySum d a n l r e)) ∧
  (∀ (m : BitVec 4) (l e : Bool), Leaves s I (copyAfter s I) (.cpyd m l e)) ∧
  (∀ (a : BitVec 6) (n : BitVec 4) (l e : Bool), Leaves s I (copyAfter s I) (.cpyr a n l e))

/-- For mma, cmma, pmma, mxc, mxr, mxf, mxw and pan: Wherever the checks of R90 pass and the rule lets the word have its effect, the
word answers exactly the next state given: what the rule changes, and the split one word on or at its new run. Where the rules
leave a point open, this is the model's own reading or choice: log entries 54, 55 and 74. -/
def Obligations.MatrixWords : Prop := ∀ (s : State) (I : Iss), s.iss = some I →
  (∀ (d : BitVec 5) (a : BitVec 4) (l r e : Bool), Leaves s I (matrixAfter s I) (.mma d a l r e)) ∧
  (∀ (d : BitVec 5) (a : BitVec 4) (l r e : Bool), Leaves s I (matrixAfter s I) (.cmma d a l r e)) ∧
  (∀ (d : BitVec 5) (a : BitVec 4) (l r e : Bool), Leaves s I (matrixAfter s I) (.pmma d a l r e)) ∧
  (∀ (d : BitVec 6) (l e : Bool), Leaves s I (matrixAfter s I) (.mxcZero d l e)) ∧
  (∀ (d : BitVec 6) (l e : Bool), Leaves s I (matrixAfter s I) (.mxcRscl d l e)) ∧
  (∀ (e : Bool), Leaves s I (matrixAfter s I) (.mxr e)) ∧
  (∀ (d : BitVec 7) (e : Bool), Leaves s I (matrixAfter s I) (.mxf d e)) ∧
  (∀ (a b : BitVec 7) (e : Bool), Leaves s I (matrixAfter s I) (.mxw a b e)) ∧
  (∀ (d a : BitVec 7) (w : BitVec 4) (e : Bool), Leaves s I (matrixAfter s I) (.panLd d a w e)) ∧
  (∀ (d a : BitVec 7) (w : BitVec 4) (e : Bool), Leaves s I (matrixAfter s I) (.panSt d a w e))

/-- For cpy, cpyr, mma, cmma, pmma, mxc, tfen.sync, tinv.page, thint, migr and launch: where the checks of R90 pass, the first check
of acceptance that fails is the only fault, precise, with the engine, detail and address that its table gives, and nothing is
queued. Where the rules leave a point open, this is the model's own reading or choice: log entries 18, 53 and 66. -/
def Obligations.EngineRefusals : Prop := ∀ (s : State) (I : Iss), s.iss = some I →
  (∀ (d a : BitVec 5) (n : BitVec 4) (l r e : Bool), Refuses s I (fun z => refusalsOf z I) (.cpyTile d a n l r e)) ∧
  (∀ (d a : BitVec 5) (n : BitVec 4) (l r e : Bool), Refuses s I (fun z => refusalsOf z I) (.cpyGather d a n l r e)) ∧
  (∀ (d a : BitVec 5) (n : BitVec 4) (l r e : Bool), Refuses s I (fun z => refusalsOf z I) (.cpyScatter d a n l r e)) ∧
  (∀ (d a : BitVec 5) (n : BitVec 4) (l r e : Bool), Refuses s I (fun z => refusalsOf z I) (.cpyAxpb d a n l r e)) ∧
  (∀ (d a : BitVec 5) (n : BitVec 4) (l r e : Bool), Refuses s I (fun z => refusalsOf z I) (.cpyRescale d a n l r e)) ∧
  (∀ (d a : BitVec 5) (n : BitVec 4) (l r e : Bool), Refuses s I (fun z => refusalsOf z I) (.cpyFill d a n l r e)) ∧
  (∀ (d a : BitVec 5) (n : BitVec 4) (l r e : Bool), Refuses s I (fun z => refusalsOf z I) (.cpySum d a n l r e)) ∧
  (∀ (a : BitVec 6) (x1 : BitVec 4) (l e : Bool), Refuses s I (fun z => refusalsOf z I) (.cpyr a x1 l e)) ∧
  (∀ (d : BitVec 5) (a : BitVec 4) (l r e : Bool), Refuses s I (fun z => refusalsOf z I) (.mma d a l r e)) ∧
  (∀ (d : BitVec 5) (a : BitVec 4) (l r e : Bool), Refuses s I (fun z => refusalsOf z I) (.cmma d a l r e)) ∧
  (∀ (d : BitVec 5) (a : BitVec 4) (l r e : Bool), Refuses s I (fun z => refusalsOf z I) (.pmma d a l r e)) ∧
  (∀ (d : BitVec 6) (l e : Bool), Refuses s I (fun z => refusalsOf z I) (.mxcZero d l e)) ∧
  (∀ (d : BitVec 6) (l e : Bool), Refuses s I (fun z => refusalsOf z I) (.mxcRscl d l e)) ∧
  (∀ (u : Bool) (d : BitVec 7) (a : BitVec 6) (x3 : BitVec 3) (k m e : Bool), Refuses s I (fun z => refusalsOf z I) (.tfenSync u d a x3 k m e)) ∧
  (∀ (u : Bool) (d : BitVec 7) (a : BitVec 6) (x3 : BitVec 3) (k m e : Bool), Refuses s I (fun z => refusalsOf z I) (.tinvPage u d a x3 k m e)) ∧
  (∀ (d : BitVec 6) (a : BitVec 7) (l e : Bool), Refuses s I (fun z => refusalsOf z I) (.thintPromote d a l e)) ∧
  (∀ (d : BitVec 6) (a : BitVec 7) (l e : Bool), Refuses s I (fun z => refusalsOf z I) (.thintDemote d a l e)) ∧
  (∀ (d : BitVec 6) (a : BitVec 7) (l e : Bool), Refuses s I (fun z => refusalsOf z I) (.thintPin d a l e)) ∧
  (∀ (d : BitVec 6) (a : BitVec 7) (l e : Bool), Refuses s I (fun z => refusalsOf z I) (.thintUnpin d a l e)) ∧
  (∀ (d : BitVec 6) (a : BitVec 7) (l e : Bool), Refuses s I (fun z => refusalsOf z I) (.thintRelease d a l e)) ∧
  (∀ (d : BitVec 5) (a : BitVec 7) (l e : Bool), Refuses s I (fun z => refusalsOf z I) (.migr d a l e)) ∧
  (∀ (d a : BitVec 6) (q : BitVec 3) (e : Bool), Refuses s I (fun z => refusalsOf z I) (.launch d a q e))

/-- For sput, sget, sfwd and xscan: Wherever the checks of R90 pass and the rule lets the word have its effect, the word answers
exactly the next state given: what the rule changes, and the split one word on or at its new run. Where the rules leave a point
open, this is the model's own reading or choice: log entries 12, 49 and 78. -/
def Obligations.LinkWords : Prop := ∀ (s : State) (I : Iss), s.iss = some I →
  (∀ (d a : BitVec 7) (c : BitVec 3) (z r : BitVec 2) (k m e : Bool), Leaves s I (linkAfter s I) (.sput d a c z r k m e)) ∧
  (∀ (d a : BitVec 7) (c : BitVec 3) (z r : BitVec 2) (k e : Bool), Leaves s I (linkAfter s I) (.sget d a c z r k e)) ∧
  (∀ (a : BitVec 7) (c : BitVec 3) (i o : BitVec 2) (k e : Bool), Leaves s I (linkAfter s I) (.sfwd a c i o k e)) ∧
  (∀ (d : BitVec 6) (a : BitVec 5) (c : BitVec 3) (k e : Bool), Leaves s I (linkAfter s I) (.xscanAdd d a c k e)) ∧
  (∀ (d : BitVec 6) (a : BitVec 5) (c : BitVec 3) (k e : Bool), Leaves s I (linkAfter s I) (.xscanMul d a c k e)) ∧
  (∀ (d : BitVec 6) (a : BitVec 5) (c : BitVec 3) (k e : Bool), Leaves s I (linkAfter s I) (.xscanMin d a c k e)) ∧
  (∀ (d : BitVec 6) (a : BitVec 5) (c : BitVec 3) (k e : Bool), Leaves s I (linkAfter s I) (.xscanMax d a c k e)) ∧
  (∀ (d : BitVec 6) (a : BitVec 5) (c : BitVec 3) (k e : Bool), Leaves s I (linkAfter s I) (.xscanAff d a c k e))

/-- For tfen, tinv, tprb, thint and migr: Wherever the checks of R90 pass and the rule lets the word have its effect, the word
answers exactly the next state given: what the rule changes, and the split one word on or at its new run. Where the rules leave
a point open, this is the model's own reading or choice: log entries 12 and 57. -/
def Obligations.TranslationAndMigrationWords : Prop := ∀ (s : State) (I : Iss), s.iss = some I →
  (∀ (x0 : BitVec 3) (e : Bool), Leaves s I (translationAfter s I) (.tfenPtrel x0 e)) ∧
  (∀ (x0 : BitVec 3) (e : Bool), Leaves s I (translationAfter s I) (.tfenWalkacq x0 e)) ∧
  (∀ (u : Bool) (d : BitVec 7) (a : BitVec 6) (c : BitVec 3) (k m e : Bool), Leaves s I (translationAfter s I) (.tfenSync u d a c k m e)) ∧
  (∀ (u : Bool) (d : BitVec 7) (a : BitVec 6) (c : BitVec 3) (k m e : Bool), Leaves s I (translationAfter s I) (.tinvPage u d a c k m e)) ∧
  (∀ (u : Bool) (c : BitVec 3) (e : Bool), Leaves s I (translationAfter s I) (.tinvCtx u c e)) ∧
  (∀ (u : Bool) (d a : BitVec 6) (k e : Bool), Leaves s I (translationAfter s I) (.tprb u d a k e)) ∧
  (∀ (d : BitVec 6) (a : BitVec 7) (l e : Bool), Leaves s I (migrationAfter s I) (.thintPromote d a l e)) ∧
  (∀ (d : BitVec 6) (a : BitVec 7) (l e : Bool), Leaves s I (migrationAfter s I) (.thintDemote d a l e)) ∧
  (∀ (d : BitVec 6) (a : BitVec 7) (l e : Bool), Leaves s I (migrationAfter s I) (.thintPin d a l e)) ∧
  (∀ (d : BitVec 6) (a : BitVec 7) (l e : Bool), Leaves s I (migrationAfter s I) (.thintUnpin d a l e)) ∧
  (∀ (d : BitVec 6) (a : BitVec 7) (l e : Bool), Leaves s I (migrationAfter s I) (.thintRelease d a l e)) ∧
  (∀ (d : BitVec 5) (a : BitVec 7) (l e : Bool), Leaves s I (migrationAfter s I) (.migr d a l e))

/-- For launch and lwait: Wherever the checks of R90 pass and the rule lets the word have its effect, the word answers exactly the
next state given: what the rule changes, and the split one word on or at its new run. Where the rules leave a point open, this
is the model's own reading or choice: log entries 12 and 48. -/
def Obligations.LaunchWords : Prop := ∀ (s : State) (I : Iss), s.iss = some I →
  (∀ (d a : BitVec 6) (q : BitVec 3) (e : Bool), Leaves s I (launchAfter s I) (.launch d a q e)) ∧
  (∀ (d a : BitVec 7) (e : Bool), Leaves s I (launchAfter s I) (.lwait d a e))

/-- For cont, dual, csr and nopre: Wherever the checks of R90 pass and the rule lets the word have its effect, the word answers
exactly the next state given: what the rule changes, and the split one word on or at its new run. Where the rules leave a point
open, this is the model's own reading or choice: log entries 39, 45, 75 and 77. -/
def Obligations.ContainmentAndRegisterWords : Prop := ∀ (s : State) (I : Iss), s.iss = some I →
  (∀ (i : BitVec 16) (e : Bool), Leaves s I (containAfter s I) (.contOpen i e)) ∧
  (∀ (e : Bool), Leaves s I (containAfter s I) (.contClose e)) ∧
  (∀ (e : Bool), Leaves s I (containAfter s I) (.dualOn e)) ∧
  (∀ (e : Bool), Leaves s I (containAfter s I) (.dualOff e)) ∧
  (∀ (d : BitVec 7) (n : BitVec 6) (e : Bool), Leaves s I (registerAfter s I) (.csrRd d n e)) ∧
  (∀ (a : BitVec 7) (n : BitVec 6) (k e : Bool), Leaves s I (registerAfter s I) (.csrWr a n k e)) ∧
  (∀ (e : Bool), Leaves s I (registerAfter s I) (.nopreOn e)) ∧
  (∀ (e : Bool), Leaves s I (registerAfter s I) (.nopreOff e))

/-- For rfe.next, rfe.retry, rfe.kill, rfe.save, rfe.rest and the ctx forms: Wherever the checks of R90 pass and the rule lets the
word have its effect, the word answers exactly the next state given: what the rule changes, and the split one word on or at its
new run. Where the rules leave a point open, this is the model's own reading or choice: log entries 43, 44, 45, 52 and 75. -/
def Obligations.TrapModeWords : Prop := ∀ (s : State) (I : Iss), s.iss = some I →
  Leaves s I (returnAfter s I) .rfeNext ∧
  Leaves s I (returnAfter s I) .rfeRetry ∧
  Leaves s I (returnAfter s I) .rfeKill ∧
  (∀ (h : BitVec 6), Leaves s I (returnAfter s I) (.rfeSave h)) ∧
  Leaves s I (returnAfter s I) .rfeRest ∧
  (∀ (d : BitVec 7) (a : BitVec 6) (e : Bool), Leaves s I (ctxAfter s I) (.ctxSgr d a e)) ∧
  (∀ (d : BitVec 7) (a : BitVec 6) (e : Bool), Leaves s I (ctxAfter s I) (.ctxLgr d a e)) ∧
  (∀ (a : BitVec 6) (e : Bool), Leaves s I (ctxAfter s I) (.ctxSst a e)) ∧
  (∀ (a : BitVec 6) (e : Bool), Leaves s I (ctxAfter s I) (.ctxLst a e)) ∧
  (∀ (a : BitVec 6) (e : Bool), Leaves s I (ctxAfter s I) (.ctxSwg a e)) ∧
  (∀ (a : BitVec 6) (e : Bool), Leaves s I (ctxAfter s I) (.ctxLwg a e)) ∧
  (∀ (e : Bool), Leaves s I (ctxAfter s I) (.ctxQuiet e))

/-- Each event, where it is due, answers the next state that its rule gives. Where the rules leave a point open, this is the model's
own reading or choice: log entries 10, 11, 15, 57, 62, 72 and 82. -/
def Obligations.LaneEvents : Prop := ∀ s : State,
  (∀ (lane : Nat), Happens s (laneEvent s) (.laneArbitration lane)) ∧
  (∀ (gid sid : Nat), Happens s (laneEvent s) (.splitResume gid sid)) ∧
  (∀ (gid id : Nat), Happens s (laneEvent s) (.producerFill gid id)) ∧
  (∀ (gid sid : Nat), Happens s (laneEvent s) (.pollCompletion gid sid)) ∧
  (∀ (core part slot va : Nat) (w f : Bool), Happens s (laneEvent s) (.walk core part slot va w f)) ∧
  (∀ (gid sid : Nat), Happens s (laneEvent s) (.pageWaitRetry gid sid)) ∧
  (∀ (core line : Nat), Happens s (laneEvent s) (.l1Eviction core line)) ∧
  (∀ (w off : Nat), Happens s (laneEvent s) (.windowWriteBack w off)) ∧
  (∀ (id : Nat), Happens s (laneEvent s) (.remoteWriteCheck id)) ∧
  (∀ (id : Nat), Happens s (laneEvent s) (.writeAcknowledgement id))

/-- Each event, where it is due, answers the next state that its rule gives. Where the rules leave a point open, this is the model's
own reading or choice: log entries 32, 49, 53, 54, 56, 67, 68 and 74. -/
def Obligations.EngineEvents : Prop := ∀ s : State,
  (∀ (core id : Nat), Happens s (engineEvent s) (.lineFill core id)) ∧
  (∀ (core id : Nat), Happens s (engineEvent s) (.copyCompletion core id)) ∧
  (∀ (core id : Nat), Happens s (engineEvent s) (.copyStop core id)) ∧
  (∀ (cluster id : Nat), Happens s (engineEvent s) (.matrixStep cluster id)) ∧
  (∀ (cluster id : Nat), Happens s (engineEvent s) (.matrixStepComplete cluster id)) ∧
  (∀ (eng : Nat), Happens s (engineEvent s) (.tierHintRun eng)) ∧
  (∀ (eng : Nat), Happens s (engineEvent s) (.migrationPage eng)) ∧
  (∀ (core dir : Nat), Happens s (engineEvent s) (.messageArrival core dir)) ∧
  (∀ (core dir : Nat), Happens s (engineEvent s) (.creditReturn core dir)) ∧
  (∀ (gid sid : Nat), Happens s (engineEvent s) (.sluiceTimeout gid sid))

/-- Each event, where it is due, answers the next state that its rule gives. Where the rules leave a point open, this is the model's
own reading or choice: log entries 28, 38, 46, 47, 51, 52, 69 and 77. -/
def Obligations.WorkgroupEvents : Prop := ∀ s : State,
  (∀ (w : Nat), Happens s (groupEvent s) (.preemptionDiscard w)) ∧
  (∀ (w : Nat), Happens s (groupEvent s) (.preemptionSave w)) ∧
  (∀ (w core : Nat), Happens s (groupEvent s) (.workgroupRestore w core)) ∧
  (∀ (cl : Nat), Happens s (groupEvent s) (.inFieldTest cl)) ∧
  (∀ (cl : Nat) (pass : Bool), Happens s (groupEvent s) (.testRunEnd cl pass)) ∧
  (∀ (slot : Nat), Happens s (groupEvent s) (.waitBudget slot)) ∧
  (∀ (gid : Nat), Happens s (groupEvent s) (.trapWatchdog gid)) ∧
  (∀ (gid : Nat), Happens s (groupEvent s) (.nopreLimit gid)) ∧
  (∀ (w : Nat), Happens s (groupEvent s) (.resourceReturn w)) ∧
  (∀ (die : Nat), Happens s (groupEvent s) (.workgroupPlacement die)) ∧
  (∀ (k : Nat), Happens s (groupEvent s) (.priorityAging k))

/-- Each event, where it is due, answers the next state that its rule gives. Where the rules leave a point open, this is the model's
own reading or choice: log entries 27, 28, 33, 47, 48, 50 and 70. -/
def Obligations.GridAndRecordEvents : Prop := ∀ s : State,
  (∀ (k : Nat), Happens s (gridEvent s) (.gridReady k)) ∧
  (∀ (k : Nat), Happens s (gridEvent s) (.rangeListComplete k)) ∧
  (∀ (k : Nat), Happens s (gridEvent s) (.gridRetirement k)) ∧
  (∀ (die : Nat), Happens s (gridEvent s) (.dieFence die)) ∧
  (∀ (q : Nat), Happens s (gridEvent s) (.hostQueueConsume q)) ∧
  (∀ (i : Nat), Happens s (recordEvent s) (.errorRecordAppend i)) ∧
  (∀ (i : Nat), Happens s (recordEvent s) (.managementRecordAppend i)) ∧
  (∀ (die pa : Nat) (corrected : Bool), Happens s (recordEvent s) (.unconsumedError die pa corrected))

/-- Each event, where it is due, answers the next state that its rule gives. Where the rules leave a point open, this is the model's
own reading or choice: log entries 28, 30, 31, 33 and 51. -/
def Obligations.PlaneEvents : Prop := ∀ s : State,
  (∀ (b : Nat) (two : Bool), Happens s (planeEvent s) (.voteDisagreement b two)) ∧
  (∀ (b : Nat), Happens s (planeEvent s) (.resyncComplete b)) ∧
  (∀ (b : Nat), Happens s (planeEvent s) (.controlPlaneRestart b)) ∧
  (∀ (k : Nat), Happens s (planeEvent s) (.contextCreate k)) ∧
  (∀ (k : Nat), Happens s (planeEvent s) (.contextDestroy k)) ∧
  (∀ (k : Nat), Happens s (planeEvent s) (.contextResume k)) ∧
  (∀ (k : Nat), Happens s (planeEvent s) (.contextReset k)) ∧
  (∀ (k : Nat), Happens s (planeEvent s) (.contextEnd k)) ∧
  (∀ (k : Nat), Happens s (planeEvent s) (.preemptionRequest k)) ∧
  (∀ (k : Nat) (loc : BitVec 32), Happens s (planeEvent s) (.breakpointResume k loc)) ∧
  (∀ (k : Nat), Happens s (planeEvent s) (.pageResumeDoorbell k)) ∧
  (∀ (q : Nat) (ctl : BitVec 32), Happens s (planeEvent s) (.queueEnable q ctl)) ∧
  (∀ (q : Nat), Happens s (planeEvent s) (.queueDisable q)) ∧
  (∀ (q : Nat) (tail : BitVec 32), Happens s (planeEvent s) (.queueDoorbell q tail))

/-- Each event, where it is due, answers the next state that its rule gives. Where the rules leave a point open, this is the model's
own reading or choice: log entries 7, 23, 28, 34, 35, 36, 37, 58, 59 and 83. -/
def Obligations.DeviceEvents : Prop := ∀ s : State,
  Happens s (deviceEvent s) .frameBoundary ∧
  Happens s (deviceEvent s) .timeConversionUpdate ∧
  (∀ (j : Nat), Happens s (deviceEvent s) (.cxlReadTimeout j)) ∧
  (∀ (gid id : Nat), Happens s (deviceEvent s) (.hostCompletionTimeout gid id)) ∧
  (∀ (j : Nat), Happens s (deviceEvent s) (.isolationEnd j)) ∧
  (∀ (j : Nat), Happens s (deviceEvent s) (.linkRetrain j)) ∧
  (∀ (j : Nat), Happens s (deviceEvent s) (.dataLinkLayerLinkActive j)) ∧
  (∀ (h : Nat), Happens s (deviceEvent s) (.portReset h)) ∧
  (∀ (h : Nat), Happens s (deviceEvent s) (.portResetExit h)) ∧
  Happens s (deviceEvent s) .attestationReport ∧
  (∀ (off : Nat) (v : BitVec 32), Happens s (deviceEvent s) (.registerWrite off v)) ∧
  Happens s (deviceEvent s) .moduleReset ∧
  Happens s (deviceEvent s) .signedBoot ∧
  Happens s (deviceEvent s) .thermalTrip ∧
  (∀ (die : Nat), Happens s (deviceEvent s) (.thermalThrottle die))

/-- A fault outside trap mode enters the fault routine of a context that has one: its one split stands at TVEC with mode 0 and
format 0x8A00 in the lane's trap slot, its bank holds what the fault gives and zero, and the record is not yet written. With no
routine, and in trap mode, the record is written with class 4 and the context resets. A group with one fault being handled, or
one waiting for the lane's slot, keeps a second split's fault for later (R419 to R421). Where the rules leave a point open, this
is the model's own reading or choice: log entries 18 and 43. -/
def Obligations.FaultEntry : Prop := ∀ (s : State) (I : Iss) (f : Flt), s.iss = some I →
  (I.trapped = true ∨ (s.ctx I.G.ctx).tvec = 0#64 →
    s.raise I f = (s.record { s.recOf I f 4 with cls := 4 }).resetContext I.G.ctx) ∧
  (I.trapped = false → (s.ctx I.G.ctx).tvec ≠ 0#64 → ∃ g q, mapFind (s.raise I f).groups I.gid = some g ∧
    g.split I.sid = some q ∧ q.st = .faulted ∧ q.pc = I.S.pc ∧ q.mask = I.S.mask ∧ q.mode = I.S.mode ∧
    (∀ n t, g.val n t = I.G.val n t) ∧ ((∀ d sc n l a e, I.S.wait ≠ .poll d sc n l a e) → g.regs = I.G.regs) ∧
    g.preds = I.G.preds ∧ (s.raise I f).mem = s.mem ∧ (s.raise I f).pend = s.pend ∧
    let cause : TrapCause := .fault (s.recOf I f 4)
    ((∃ n, I.G.stop = .inTrap n) ∨ (∃ p c, I.G.stop = .wantsTrap p c) →
      g.stop = I.G.stop ∧ g.later = I.G.later ++ [(I.sid, cause)] ∧ (s.raise I f).lanes = s.lanes) ∧
    (I.G.stop = .none → (s.lane I.G.lane).trap ≠ none → g.stop = .wantsTrap I.sid cause ∧ (s.raise I f).lanes = s.lanes)) ∧
  (I.trapped = false → (s.ctx I.G.ctx).tvec ≠ 0#64 → I.G.stop = .none → (s.lane I.G.lane).trap = none →
    mapFind s.groups s.nextUid = none →
    ∃ h p g, mapFind (s.raise I f).groups s.nextUid = some h ∧ h.splits = [p] ∧ h.wg = I.G.wg ∧ h.ctx = I.G.ctx ∧ h.alloc = 32 ∧
      h.trap = some { of_ := I.gid, split := I.sid, cause := .fault (s.recOf I f 4), aclk := 0, resting := false } ∧
      p.st = .ready ∧ p.pc = (s.ctx I.G.ctx).tvec ∧ p.mask = fullMask ∧ p.mode = 0#32 ∧ p.fmt = 0x8A00#32 ∧ p.run = 0 ∧
      (∀ t, t < 32 →
        h.val 1 t = BitVec.ofNat 32 (f.code % 256 + if f.code = codeTrapInstr then I.S.detail f % 256 * 65536 else 0) ∧
        h.pairVal 2 t = BitVec.ofNat 64 (orOnes f.va) ∧ h.pairVal 4 t = I.S.pc ∧ h.val 6 t = f.tmask ∧
        h.val 7 t = BitVec.ofNat 32 (I.S.detail f) ∧ ∀ n, 8 ≤ n → h.val n t = 0#32) ∧
      (∀ n, (h.reg n).full = true) ∧ (∀ n t, n ≠ 0 → h.pred n t = false) ∧
      mapFind (s.raise I f).groups I.gid = some g ∧ g.stop = .inTrap s.nextUid ∧
      ((s.raise I f).lane I.G.lane).trap = some s.nextUid)

/-- What a harvest changes, where the L1 has room for the group's lines: no byte of memory and no word of any cache but the L1's,
and there only the words that the threads named hold, which become dirty with the newest value held; the group keeps what its
other threads hold (R43, R44). The words are of the policies that stay in L1 (R186), and no load still waits for one of them.
Where the rules leave a point open, this is the model's own reading or choice: log entries 15 and 42. -/
def Obligations.HarvestFillsTheL1 : Prop := ∀ (s : State) (gid : Nat) (g : Group) (m : Mask), mapFind s.groups gid = some g →
  (s.l1Lines g.core).length + g.held.length ≤ 4096 →
  (∀ h, h ∈ g.held → m.getLsbD h.thread = true → inWindow h.pa = false ∧ (h.policy = 0 ∨ h.policy = 2) ∧
    ∀ p, p ∈ g.prods → ∀ r, r ∈ p.reads → r.pa ≠ h.pa) →
  let t := s.harvest gid m
  let newest (pa : Nat) : Option Held := g.held.find? fun h => h.pa == pa && m.getLsbD h.thread
  t.mem = s.mem ∧ t.poison = s.poison ∧ t.clu = s.clu ∧ t.l2 = s.l2 ∧ t.sent = s.sent ∧ t.writes = s.writes ∧ t.wgs = s.wgs ∧
  mapFind t.groups gid = some { g with held := g.held.filter fun h => !m.getLsbD h.thread } ∧
  (∀ k, k ≠ gid → mapFind t.groups k = mapFind s.groups k) ∧
  ∀ core pa, match if core = g.core then newest pa else none with
    | some h => ∃ w, mapFind t.l1 (core, pa) = some w ∧ w.val = h.val ∧ w.dirty = true
    | none => (mapFind t.l1 (core, pa)).map (fun w => (w.val, w.dirty)) = (mapFind s.l1 (core, pa)).map fun w => (w.val, w.dirty)

/-- Words that trap mode forbids, words that only trap mode allows, and the control registers that only trap mode or a system
context writes (R422, R423, R426). Where the rules leave a point open, this is the model's own reading or choice: log entries 18
and 45. -/
def Obligations.ModeChecks : Prop := ∀ (s : State) (I : Iss), s.iss = some I →
  let raises (i : Instr) (code : Nat) (m : Mask) : Prop := Sys2Proof.Machine.exec i s = .next (s.raise I { code := code, tmask := m })
  (I.trapped = true → I.S.mask ≠ 0#32 → I.inTx I.S.mask = false →
    (I.act ≠ 0#32 → I.inTx I.act = false → raises .exit codeTrapForbidden I.act) ∧
    (I.S.released = false → ∀ n e, raises (.rsize n e) codeTrapForbidden I.act) ∧
    (∀ i e, raises (.contOpen i e) codeTrapForbidden I.act) ∧ (∀ e, raises (.contClose e) codeTrapForbidden I.act) ∧
    (∀ e, raises (.dualOn e) codeTrapForbidden I.act) ∧ (∀ e, raises (.dualOff e) codeTrapForbidden I.act) ∧
    (∀ n, Sys2Proof.Machine.exec (.brk n) s = .next (s.advance I true)) ∧
    (∀ e, Sys2Proof.Machine.exec (.nopreOn e) s = .next (s.advance I e))) ∧
  (I.trapped = false → I.S.mask ≠ 0#32 →
    raises .rfeNext codeTrapOnly I.S.mask ∧ raises .rfeRetry codeTrapOnly I.S.mask ∧ raises .rfeKill codeTrapOnly I.S.mask ∧
    raises .rfeRest codeTrapOnly I.S.mask ∧
    (∀ h, I.gate { mask := I.S.mask, regs := (pairOp h).regs, srcs := [((pairOp h).regs, false)] } = .go →
      raises (.rfeSave h) codeTrapOnly I.S.mask) ∧
    ∀ (a : BitVec 7) (n : BitVec 6) (k e : Bool), 1 ≤ n.toNat → n.toNat ≤ 3 → (s.ctx I.G.ctx).sys = false →
      I.gate (I.need false true [] [csrOp n a k] .uniform) = .go → raises (.csrWr a n k e) codeCsrPriv I.act)

/-- What the spec states that reset leaves: every die present, the quotas, the generators, the control registers of a context, the
queues and ports, the limits of power and tests; the mode and format registers of a group that begins; and no memory contents,
in canonical form (R20, R59, R80, R83, R374, R393, R423, R440, R451, R458). -/
def Obligations.ResetValues : Prop :=
  State.reset.dpres = 0x1FF#9 ∧ State.reset.qosctl = 0x0200#32 ∧ State.reset.host.booted = false ∧
  State.reset.host.pwrCap = 3600#32 ∧ State.reset.host.tstInt = 0x0E10#16 ∧
  (∀ core lane, core < 72 → lane < 64 → (State.reset.lane (64 * core + lane)).seed = BitVec.ofNat 24 (1 + 64 * core + lane)) ∧
  (∀ k, (State.reset.ctx k).tvec = 0#64 ∧ (State.reset.ctx k).svec = 0#64 ∧ (State.reset.ctx k).rvec = 0#64 ∧
    (State.reset.ctx k).svbase = 0#64 ∧ (State.reset.ctx k).pkr = 0#32 ∧ (State.reset.ctx k).slto = 0x4000#32) ∧
  (∀ q, (State.reset.queue q).en = false ∧ (State.reset.queue q).head = 0#32 ∧ (State.reset.queue q).tail = 0#32) ∧
  (∀ j, (State.reset.port j).hen = true ∧ (State.reset.port j).tmo = 0x64#16 ∧ (State.reset.port j).iso = false) ∧
  (∀ w d pair pres i lane slot, (newGroup w d pair pres i lane slot).splits.all
    (fun p => p.mode == 0#32 && p.fmt == 0x8A00#32 && p.mask == fullMask && p.pc == d.entry) = true) ∧
  State.reset.groups = [] ∧ Memory.wf State.reset.mem

/-- Memory that holds its canonical form keeps it through a write of any number of bytes; a word that has been written reads back,
little-endian; every byte outside it reads as before (R2). -/
def Obligations.MemoryLaws : Prop := ∀ (m : List Host.Cell) (a : Nat), Memory.wf m →
  (∀ v n, Memory.wf (writeBytes m a v n)) ∧
  (∀ w, readWord (writeWord m a w) a = w) ∧
  (∀ (w : Word) (i : Nat), i < 4 → readCell (writeWord m a w) (a + i) = w.extractLsb' (8 * i) 8) ∧
  (∀ v n b, b < a ∨ a + n ≤ b → readCell (writeBytes m a v n) b = readCell m b)

/-- A scratchpad store changes no byte of memory, and no byte of any workgroup's scratchpad but those at the places that its active
threads' addresses name, n bytes from each. The windows of R178, through which lines come in from memory, are unbound here; the
statement on `sts` itself covers them. Where the rules leave a point open, this is the model's own reading or choice: log entry
21. -/
def Obligations.ScratchStoreFrame : Prop := ∀ (s t : State) (I : Iss) (u : Bool) (d a : BitVec 7) (w : BitVec 3) (f : BitVec 4)
    (k m e : Bool), s.iss = some I → (∀ x, x ∈ s.wgs → x.2.windows = [] ∧ x.2.wlines = [] ∧ Memory.wf x.2.scratch) →
  scratchStore s I u (memOp w d m) (one a k) w f e = some t →
  t.mem = s.mem ∧
  ∀ (n off : Nat) (x : Workgroup), mapFind s.wgs n = some x →
    (∀ th, th ∈ threadsOf I.act →
      let p := scratchPlace s I (one a k) (f.toInt * widthBytes w) th
      p.1 ≠ n ∨ off < p.2 ∨ p.2 + widthBytes w ≤ off) →
    ∃ y, mapFind t.wgs n = some y ∧ readCell y.scratch off = readCell x.scratch off

/-- A global store outside trap mode is held: of the state it changes its group alone, and of the group the held words and the lines
that its thread's transaction has written; then each word that it stores is held for its thread, and one of a byte or a halfword
is what was held, or else what the core reads there, with those bytes changed (R44, R171, R250). A word that nothing holds must
be read first, which may fill a cache. Where the rules leave a point open, this is the model's own reading or choice: log entry
21. -/
def Obligations.StoresAreHeld : Prop := ∀ (s : State) (I : Iss) (xs : List (Nat × Xlat)) (th va n v : Nat), s.iss = some I →
  I.trapped = false → n ∈ [1, 2, 4, 8, 16] → va % n = 0 → v < 2 ^ (8 * n) →
  (∀ i, 4 * i < n → ∃ pa policy key, xlatOf xs (wordOf va + 4 * i) = .ok pa policy key) →
  let t := s.storeAt I xs th va n v
  let place (i : Nat) : Nat := match xlatOf xs (wordOf va + 4 * i) with
    | .ok pa _ _ => pa
    | _ => 0
  let own (g : Group) (pa : Nat) : Option Word := (g.held.find? fun h => h.pa == pa && h.thread == th).map (·.val)
  let seen (g : Group) (pa : Nat) : Option Word := if (mapFind g.txs th).isSome then own g pa else g.heldWord pa
  (4 ≤ n ∨ seen I.G (place 0) ≠ none → ∃ g, t = { s with groups := mapSet s.groups I.gid g } ∧
    g = { I.G with held := g.held, txs := g.txs } ∧ (∀ k, k ≠ th → mapFind g.txs k = mapFind I.G.txs k) ∧
    (∀ h, h ∈ I.G.held → (h.thread ≠ th ∨ ∀ i, 4 * i < n → h.pa ≠ place i) → h ∈ g.held)) ∧
  ∃ g, mapFind t.groups I.gid = some g ∧ g.regs = I.G.regs ∧ g.preds = I.G.preds ∧ g.splits = I.G.splits ∧
    (∀ x, mapFind I.G.txs th = some x → ∃ y, mapFind g.txs th = some { x with writeLines := y } ∧
      ∀ i, 4 * i < n → lineOf (place i) ∈ y) ∧
    (4 ≤ n → ∀ i, 4 * i < n → own g (place i) = some (BitVec.ofNat 32 (v / 2 ^ (32 * i)))) ∧
    (n < 4 → ∃ w, own g (place 0) = some w ∧
      ∀ o, seen I.G (place 0) = some o ∨ (seen I.G (place 0) = none ∧ mapFind I.G.txs th = none ∧
          ∃ policy key, xlatOf xs (wordOf va) = .ok (place 0) policy key ∧ o = (s.coreRead I.core (place 0) policy).1) →
        ∀ b, b < 4 → w.extractLsb' (8 * b) 8 =
          if va % 4 ≤ b ∧ b < va % 4 + n then BitVec.ofNat 8 (v / 2 ^ (8 * (b - va % 4))) else o.extractLsb' (8 * b) 8)

/-- Memory that holds its canonical form keeps it through every step, whatever the step is: no instruction, event or command of a
host leaves memory that lists an address twice, out of order, or with the value that it has anyway. (That reset leaves it so is
part of the statement on reset.) Where the rules leave a point open, this is the model's own reading or choice: log entry 1. -/
def Obligations.MemoryStaysCanonical : Prop := ∀ s t : State, Memory.wf s.mem → step s = .next t → Memory.wf t.mem

/-- What the host reads in the device register window after it has written there, offset by offset: a field that is written reads
back, reserved bits read 0, a field that the device alone writes keeps its value, and a 1 clears a field that is cleared so;
what a read of each field that the device writes gives; and an offset that no register holds reads 0 and ignores writes (R374,
R391, R393, R410, R440, R444, R450 to R458). All of PWRCAP [30:0] reads back: that the spec gives its cap field no width is log
entry 79. Where the rules leave a point open, this is the model's own reading or choice: log entries 31, 33, 34 and 79. -/
def Obligations.RegisterWindow : Prop := ∀ (s : State) (v : Word), s.host.booted = true → s.host.bootFail = false →
  let put (off : Nat) : State := match Sys2Proof.Machine.exec (.registerWrite off v) s with
    | .next t => t
    | _ => s
  let holds (off : Nat) (mask : Word) : Prop := (put off).windowRead off = v &&& mask
  let keeps (off : Nat) : Prop := put off = s
  (∀ off, ∃ t, Sys2Proof.Machine.exec (.registerWrite off v) s = .next t) ∧
  -- ports (R374)
  (∀ j, j < 6 → holds (0x100 + 16 * j) 0x0001FFFF#32 ∧ keeps (0x108 + 16 * j) ∧
    s.windowRead (0x108 + 16 * j) = (s.port j).seq ∧
    s.windowRead (0x104 + 16 * j) = BitVec.ofNat 32 ((if (s.port j).iso then 2 ^ 31 else 0) + (s.port j).wdrop.toNat) ∧
    (v.getLsbD 31 = false → keeps (0x104 + 16 * j)) ∧
    (v.getLsbD 31 = true → (s.port j).iso = true → (s.port j).active = true → (put (0x104 + 16 * j)).windowRead (0x104 + 16 * j) = 0#32)) ∧
  -- quotas and refusals (R440, R444), the control plane's votes (R410)
  holds 0x2000 0x0001FFFF#32 ∧ (∀ k, k < 92 → holds (0x2100 + 4 * k) 0x0000FFFF#32) ∧
  (∀ n, n < 9 → keeps (0x2400 + 4 * n) ∧ s.windowRead (0x2400 + 4 * n) = mapGet s.rpcnt n 0#32) ∧
  (∀ b, b < 19 → keeps (0x1000 + 4 * b) ∧ s.windowRead (0x1000 + 4 * b) =
    BitVec.ofNat 32 (2 ^ 16 * (s.vote b).1 + 2 ^ 8 * (s.vote b).2.1 + if (s.vote b).2.2.1 then 1 else 0)) ∧
  -- context slots (R391)
  (∀ k, k < 1024 → let at_ (i : Nat) : Nat := 0x100000 + 32 * k + i
    holds (at_ 0) 0xFFFFFFFF#32 ∧ holds (at_ 4) 0x00FFFFFF#32 ∧ keeps (at_ 12) ∧ keeps (at_ 16) ∧ holds (at_ 20) 0xFFFFFFFF#32 ∧
    s.windowRead (at_ 16) = BitVec.ofNat 32 (s.ctx k).lost ∧
    s.windowRead (at_ 12) = BitVec.ofNat 32 ((s.ctx k).gen.toNat * 2 ^ 10 + (s.ctx k).err * 2 ^ 4 + match (s.ctx k).st with
      | .free => 0
      | .live => 1
      | .held => 2
      | .resetting => 3
      | .ended => 4)) ∧
  -- host queues (R393)
  (∀ q, q < 8192 → let at_ (i : Nat) : Nat := 0x200000 + 32 * q + i
    keeps (at_ 16) ∧ s.windowRead (at_ 16) = (s.queue q).head ∧
    s.windowRead (at_ 20) = BitVec.ofNat 32 ((if (s.queue q).err then 2 ^ 31 else 0) + (s.queue q).reason) ∧
    (v.getLsbD 31 = false → keeps (at_ 20)) ∧ (v.getLsbD 31 = true → ((put (at_ 20)).queue q).err = false) ∧
    ((s.queue q).en = false → holds (at_ 0) 0xFFFFFFFF#32 ∧ holds (at_ 4) 0x00FFFFFF#32) ∧
    ((s.queue q).en = true → keeps (at_ 0) ∧ keeps (at_ 4) ∧ (v.getLsbD 31 = true → keeps (at_ 8))) ∧
    ((∀ h, regionOf (s.queue q).base.toNat = .host h → h ∉ s.host.inReset) → holds (at_ 12) 0xFFFFFFFF#32) ∧
    (v.getLsbD 31 = false → (put (at_ 8)).windowRead (at_ 8) = v &&& 0x000F03FF#32) ∧
    ((s.queue q).en = false → v.getLsbD 31 = true →
      let n := (put (at_ 8)).queue q
      let lg := (v.extractLsb' 16 4).toNat
      let st := (s.ctx (v.extractLsb' 0 10).toNat).st
      n.base = (s.queue q).base ∧ n.lg = lg ∧ n.slot = (v.extractLsb' 0 10).toNat ∧
      ((s.queue q).base.toNat % 128 ≠ 0 ∨ lg < 4 → n.en = false ∧ n.err = true ∧ n.reason = 4) ∧
      ((s.queue q).base.toNat % 128 = 0 → 4 ≤ lg →
        (st = .free ∨ st = .resetting ∨ st = .ended → n.en = false ∧ n.err = true ∧ n.reason = 3) ∧
        (st = .live ∨ st = .held → n.en = true ∧ n.head = 0#32 ∧ n.tail = 0#32)))) ∧
  -- the management queue, tests, attestation, boot and power (R451, R452, R455 to R458)
  holds 0x4000 0xFFFFFFFF#32 ∧ holds 0x4004 0x00FFFFFF#32 ∧ keeps 0x4008 ∧ s.windowRead 0x4008 = s.host.mgqLost ∧
  holds 0x400C 0x3F#32 ∧ holds 0x4010 0xFFFF#32 ∧ (∀ n, n < 9 → holds (0x4040 + 4 * n) 0xF#32) ∧
  (∀ k, k < 16 → keeps (0x4100 + 4 * k)) ∧
  (∀ k, k < 8 → s.host.attNonce.length = 8 → holds (0x4200 + 4 * k) 0xFFFFFFFF#32) ∧
  holds 0x4220 0xFFFFFFFF#32 ∧ holds 0x4224 0x00FFFFFF#32 ∧
  (v.getLsbD 0 = true → (put 0x4228).windowRead 0x4228 = 1#32) ∧ (v.getLsbD 0 = false → keeps 0x4228) ∧
  keeps 0x422C ∧ s.windowRead 0x422C = 0#32 ∧ holds 0x4300 0xFFFFFFFF#32 ∧
  (v.getLsbD 0 = true → (put 0x4304).windowRead 0x4304 = 0#32) ∧ (v.getLsbD 0 = false → keeps 0x4304) ∧
  (v ≠ 0x00005A5A#32 → keeps 0x4308) ∧ (∀ n, n < 9 → holds (0x4340 + 4 * n) 0xFFFF#32) ∧
  -- everywhere else (R450)
  (∀ off, (off % 4 ≠ 0 ∨ (0x4 ≤ off ∧ off < 0x40) ∨ (0x64 ≤ off ∧ off < 0x100) ∨ (0x160 ≤ off ∧ off < 0x180) ∨
      (0x1B0 ≤ off ∧ off < 0x1000) ∨ (0x104C ≤ off ∧ off < 0x2000) ∨ (0x2004 ≤ off ∧ off < 0x2100) ∨ (0x2270 ≤ off ∧ off < 0x2400) ∨
      (0x2424 ≤ off ∧ off < 0x3000) ∨ (0x3510 ≤ off ∧ off < 0x4000) ∨ (0x4014 ≤ off ∧ off < 0x4040) ∨ (0x4064 ≤ off ∧ off < 0x4100) ∨
      (0x4140 ≤ off ∧ off < 0x4200) ∨ (0x4230 ≤ off ∧ off < 0x4300) ∨ (0x430C ≤ off ∧ off < 0x4340) ∨ (0x4364 ≤ off ∧ off < 0x8000) ∨
      (0xE000 ≤ off ∧ off < 0x100000) ∨ (0x108000 ≤ off ∧ off < 0x200000) ∨ 0x240000 ≤ off) →
    keeps off ∧ s.windowRead off = 0#32)

/-- The table of the context slots: what each command of a host does in each state, with the error that it leaves in CTXSTS, while
the command processor runs; and the end of a slot that is resetting (R390 to R392). Where the rules leave a point open, this is
the model's own reading or choice: log entry 31. -/
def Obligations.ContextSlots : Prop := ∀ (s : State) (k : Nat), k < 1024 → s.cpRuns = true →
  let c := s.ctx k
  let after (i : Instr) : State := match Sys2Proof.Machine.exec i s with
    | .next t => t
    | _ => s
  let refused (i : Instr) (cmd err : Nat) : Prop :=
    Sys2Proof.Machine.exec i s = .next (s.modCtx k fun c => { c with cmd := cmd, err := err })
  -- create
  (c.st ≠ .free → refused (.contextCreate k) 1 4) ∧
  (c.st = .free → c.desc.toNat % 64 ≠ 0 ∨ s.physWords c.desc.toNat 16 = none → refused (.contextCreate k) 1 1) ∧
  (c.st = .free → c.desc.toNat % 64 = 0 → ∀ ws, s.physWords c.desc.toNat 16 = some ws →
    let r := dwords ws
    let zeros := field r 1 31 3 = 0 ∧ field r 6 63 16 = 0 ∧ field r 7 63 0 = 0
    let rooted := field r 0 63 0 % 65536 = 0 ∧ backed (field r 0 63 0) = true
    (¬zeros → refused (.contextCreate k) 1 2) ∧ (zeros → ¬rooted → refused (.contextCreate k) 1 3) ∧
    (zeros → rooted →
      let t := after (.contextCreate k)
      let n := t.ctx k
      n.st = .live ∧ n.err = 0 ∧ n.gen = c.gen ∧ n.desc = c.desc ∧ n.lost = 0 ∧ n.seq = 0 ∧ n.root = field r 0 63 0 ∧
      n.wbud = field r 1 63 32 ∧ n.sys = (field r 1 2 2 == 1) ∧ n.migr = (field r 1 1 1 == 1) ∧ n.pair = (field r 1 0 0 == 1) ∧
      n.wtot = field r 2 63 0 ∧ n.dq = field r 3 63 0 ∧ n.prq = field r 4 63 0 ∧ n.snap = field r 5 63 0 ∧
      n.nsnap = field r 6 15 0 ∧ n.tvec = 0#64 ∧ n.svec = 0#64 ∧ n.rvec = 0#64 ∧ n.svbase = 0#64 ∧ n.pkr = 0#32 ∧
      n.slto = 0x4000#32 ∧ (∀ e, e ∈ t.tlbs ↔ e ∈ s.tlbs ∧ e.ctx ≠ some k) ∧ t.mem = s.mem ∧ ∀ j, j ≠ k → t.ctx j = s.ctx j)) ∧
  -- resume
  (c.st ≠ .held → refused (.contextResume k) 3 4) ∧
  (c.st = .held →
    let t := after (.contextResume k)
    (t.ctx k).st = .live ∧ (t.ctx k).err = 0 ∧ (t.ctx k).waited = 0 ∧ t.mem = s.mem ∧ (∀ j, j ≠ k → t.ctx j = s.ctx j) ∧
    (∀ g, g ∈ t.groups → g.2.ctx = k → ∀ p, p ∈ g.2.splits → p.waited = 0) ∧
    (∀ x, x ∈ t.saved → ∀ g, g ∈ x.2.groups → g.2.ctx = k → ∀ p, p ∈ g.2.splits → p.waited = 0)) ∧
  -- reset
  (c.st ≠ .live → c.st ≠ .held → refused (.contextReset k) 4 4) ∧
  (c.st = .live ∨ c.st = .held →
    let t := after (.contextReset k)
    (t.ctx k).st = .resetting ∧ (t.ctx k).err = 0 ∧ (t.ctx k).gen = c.gen ∧ (∀ g, g ∈ t.groups → g.2.ctx ≠ k) ∧
    (∀ x, x ∈ t.saved → x.2.wg.ctx ≠ k) ∧ ∀ d, d ∈ t.grids → d.2.ctx = k → d.2.st = .retired ∨ d.2.st = .dropped ∨
      ∃ n, d.2.st = .rejected n) ∧
  -- destroy
  (c.st = .free → refused (.contextDestroy k) 2 4) ∧
  (c.st ≠ .free →
    let n := (after (.contextDestroy k)).ctx k
    n.err = 0 ∧ (∀ g, g ∈ (after (.contextDestroy k)).groups → (c.st = .live ∨ c.st = .held) → g.2.ctx ≠ k) ∧
    ((n.st = .free ∧ n.gen = c.gen + 1) ∨ ((n.st = .resetting ∨ n.st = .ended) ∧ n.destroy = true ∧ n.gen = c.gen))) ∧
  -- the commands that a resetting slot's groups left are over
  (c.st ≠ .resetting → Sys2Proof.Machine.exec (.contextEnd k) s = .next s) ∧
  (c.st = .resetting → (s.dropHopeless k).ctxQuiet k = true →
    let n := (after (.contextEnd k)).ctx k
    if c.destroy then n.st = .free ∧ n.gen = c.gen + 1 else n.st = .ended ∧ n.gen = c.gen)

/-- An error record: its 64 bytes, field by field, with the CRC of R98 over the first 62, most significant bit first; its location;
the count that it takes of its context's or the management queue's records, written or not; its place among the records on their
way; and its append to the management queue's ring, or the count of it where that ring is full (R97 to R100, R346, R451). And
the two control registers that show a group's containment state (R340). Where the rules leave a point open, this is the model's
own reading or choice: log entries 27 and 29. -/
def Obligations.RecordContents : Prop :=
  (∀ r : ErrRec,
    let w (i : Nat) : DWord := r.urec.getD (2 * i + 1) 0#32 ++ r.urec.getD (2 * i) 0#32
    let byte (i : Nat) : Byte := (r.urec.getD (i / 4) 0#32).extractLsb' (8 * (i % 4)) 8
    let ones (x : Option Nat) : DWord := match x with
      | some n => BitVec.ofNat 64 n
      | none => BitVec.allOnes 64
    r.urec.length = 16 ∧
    (w 0).extractLsb' 32 32 = r.ctx.getD (BitVec.allOnes 32) ∧ (w 0).extractLsb' 16 16 = BitVec.ofNat 16 r.seq ∧
    (w 0).extractLsb' 12 4 = BitVec.ofNat 4 r.src ∧ (w 0).extractLsb' 8 4 = BitVec.ofNat 4 r.cls ∧
    (w 0).extractLsb' 0 8 = BitVec.ofNat 8 r.code ∧ w 1 = ones (r.pc.map BitVec.toNat) ∧ w 2 = ones r.va ∧ w 3 = ones r.pa ∧
    (w 4).extractLsb' 32 32 = r.tmask ∧ (w 4).extractLsb' 0 32 = r.loc ∧
    w 5 = BitVec.ofNat 64 (r.skid % 512) ∧ w 6 = BitVec.ofNat 64 r.time ∧ (w 7).extractLsb' 0 48 = BitVec.ofNat 48 r.detail ∧
    (w 7).extractLsb' 48 16 = ((List.range 62).flatMap fun i => (List.range 8).map fun j => (byte i).getLsbD (7 - j)).foldl
      crcBit 0xFFFF#16) ∧
  (∀ (g : Group) (split : Nat), g.lane < 4608 → g.slot < 8 → split < 4 →
    let l := g.loc split
    (l.extractLsb' 28 4).toNat = g.lane / 512 ∧ (l.extractLsb' 24 4).toNat = g.lane / 64 % 8 ∧
    (l.extractLsb' 22 2).toNat = g.lane / 16 % 4 ∧ (l.extractLsb' 18 4).toNat = g.lane % 16 ∧ (l.extractLsb' 15 3).toNat = g.slot ∧
    (l.extractLsb' 13 2).toNat = split ∧ l.getLsbD 12 = g.trap.isSome ∧ l.extractLsb' 0 12 = 0#12) ∧
  (∀ (s : State) (r : ErrRec),
    let t := s.record r
    let full := 256 ≤ (s.pend.filter fun x => x.die == r.die).length
    let key := (r.die, r.queue.slot.getD 1024, r.queue.va)
    let clock (time : Nat) : Prop := r.die = (r.loc.extractLsb' 28 4).toNat → time = s.time r.die
    t.mem = s.mem ∧ t.groups = s.groups ∧
    (full → t.pend = s.pend ∧ mapGet t.ovfDue key 0 = mapGet s.ovfDue key 0 + 1) ∧
    (∀ k, r.queue.slot = some k → (t.ctx k).seq = ((s.ctx k).seq + 1) % 2 ^ 16 ∧ (¬full → ∃ time, clock time ∧ t.pend = s.pend ++
      [{ r with ctx := some (BitVec.ofNat 32 (2 ^ 10 * (s.ctx k).gen.toNat + k)), seq := (s.ctx k).seq, time := time }])) ∧
    (r.queue.slot = none → t.host.mgSeq = (s.host.mgSeq + 1) % 2 ^ 16 ∧ (¬full → ∃ time, clock time ∧ t.pend = s.pend ++
      [{ r with ctx := none, seq := s.host.mgSeq, time := time }]))) ∧
  (∀ (s : State) (i : Nat) (r : ErrRec), s.pend[i]? = some r → r.queue.slot = none → s.mayDeliver i = true → s.ovfDue = [] →
    s.farDirty = [] → Memory.wf s.mem →
    let d := s.host.mgqDesc.toNat
    let read (j : Nat) : Nat := (readWord s.mem (d + 8 * j + 4) ++ readWord s.mem (d + 8 * j) : DWord).toNat
    let lg := read 1 % 32
    let slot := read 0 + 64 * (read 2 % 2 ^ lg)
    let reachable (a : Nat) : Prop := a % 64 = 0 ∧ ∀ j, j < 16 → isHostMem (a + 4 * j) = true ∧ s.homeMark (a + 4 * j) = .clean
    d ≠ 0 → reachable d → 4 ≤ lg → lg ≤ 20 →
    ∃ t, Sys2Proof.Machine.exec (.managementRecordAppend i) s = .next t ∧ t.pend = s.pend.eraseIdx i ∧
      (read 2 < read 3 + 2 ^ lg → slot / 64 ≠ d / 64 → reachable slot →
        (∀ j, j < 16 → readWord t.mem (slot + 4 * j) = r.urec.getD j 0#32) ∧
        readWord t.mem (d + 16) = BitVec.ofNat 32 (read 2 + 1) ∧ readWord t.mem (d + 20) = BitVec.ofNat 32 ((read 2 + 1) / 2 ^ 32) ∧
        (∀ a, (a < slot ∨ slot + 64 ≤ a) → (a < d + 16 ∨ d + 24 ≤ a) → readCell t.mem a = readCell s.mem a) ∧
        t.host.msix = s.host.msix ++ ([0, 1].filter fun p => !s.host.inReset.contains p).map fun p => 64 * p + s.host.mgqVec.toNat) ∧
      (read 3 + 2 ^ lg ≤ read 2 →
        readWord t.mem (d + 32) = BitVec.ofNat 32 (read 4 + 1) ∧ readWord t.mem (d + 36) = BitVec.ofNat 32 ((read 4 + 1) / 2 ^ 32) ∧
        (∀ a, (a < d + 32 ∨ d + 40 ≤ a) → readCell t.mem a = readCell s.mem a) ∧ t.host.msix = s.host.msix)) ∧
  (∀ (s : State) (I : Iss) (d : BitVec 7) (n : BitVec 6) (e : Bool), s.iss = some I → n = 7#6 ∨ (16 ≤ n.toNat ∧ n.toNat < 32) →
    d ≠ 0#7 → I.gate (I.need false true [csrOp n d] [] .uniform) = .go →
    ∃ t g, Sys2Proof.Machine.exec (.csrRd d n e) s = .next t ∧ mapFind t.groups I.gid = some g ∧
      ∀ x, I.act.getLsbD x = true → g.val d.toNat x = if n = 7#6
        then BitVec.ofNat 32 ((if (I.acting s).pres then 128 else 0) + (if (I.acting s).pair then 64 else 0) + (I.acting s).cont.length)
        else (I.acting s).urec.getD (n.toNat - 16) 0#32)

/-- What some events leave, spelled out. An eviction leaves no word of its line in the L1, and, where the line held no dirty word,
changes nothing else (R183). A producer whose values have all been read and met no poison ends: its destinations are full and
hold its values in its threads, its predicate too, and it is gone (R33). A walk that passes puts its leaf, with A set, into both
of its TLBs (R356, R357). A reset of the module leaves what State.reset has, but for the memories that it does not reach, the
trip of THSTS, and what has gone to the hosts already (R458, R459). Where the rules leave a point open, this is the model's own
reading or choice: log entries 1, 15, 16 and 36. -/
def Obligations.EventEffects : Prop := ∀ s : State,
  (∀ core line : Nat, ∃ t, Sys2Proof.Machine.exec (.l1Eviction core line) s = .next t ∧
    (∀ a, lineOf a = line → mapFind t.l1 (core, a) = none) ∧
    ((∀ x, x ∈ s.l1 → x.1.1 = core → lineOf x.1.2 = line → x.2.dirty = false) →
      t = { s with l1 := t.l1 } ∧ ∀ c a, c ≠ core ∨ lineOf a ≠ line → mapFind t.l1 (c, a) = mapFind s.l1 (c, a))) ∧
  (∀ (gid id : Nat) (g : Group) (p : Producer), mapFind s.groups gid = some g → g.splits ≠ [] →
    g.prods.find? (fun x => x.id == id) = some p → p.pan = [] → p.consumed = [] → (∀ x, x ∈ g.prods → x.id = id → x.reads = []) →
    (p.dsts.map (·.1)).Nodup → 0 ∉ p.dsts.map (·.1) →
    ∃ h, Sys2Proof.Machine.exec (.producerFill gid id) s = .next (s.modGroup gid fun _ => h) ∧
      h = { g with regs := h.regs, preds := h.preds, prods := g.prods.filter fun x => x.id != id } ∧
      (∀ n v, (n, v) ∈ p.dsts → (h.reg n).full = true ∧
        ∀ x, x < 32 → h.val n x = if p.mask.getLsbD x then v.getD x 0#32 else g.val n x) ∧
      (∀ n, n ∉ p.dsts.map (·.1) → h.reg n = g.reg n) ∧
      (∀ q x, x < 32 → h.pred q x = match p.pred with
        | some (r, m) => if q = r ∧ q ≠ 0 ∧ p.mask.getLsbD x = true then m.getLsbD x else g.pred q x
        | none => g.pred q x)) ∧
  (∀ (core part slot va pa policy key : Nat) (w f : Bool) (u : State), (s.ctx slot).st = .live →
    let at_ := laneTlbs (core * 64 + part * 16)
    s.tlbFind at_ slot va = none →
    s.look at_ slot va { write := w, fetch := f, keys := true } = (u, .ok pa policy key) →
    let leaf := u.walk slot va
    ∃ t, Sys2Proof.Machine.exec (.walk core part slot va w f) s = .next t ∧ leaf.how = .leaf ∧
      ∀ a, a ∈ at_ → ∃ e, e ∈ t.tlbs ∧ e.at_ = a ∧ e.serves slot va = true ∧ e.level = leaf.level ∧ e.pte = leaf.pte ||| 8#64) ∧
  (∃ t, Sys2Proof.Machine.exec .moduleReset s = .next t ∧ t.groups = [] ∧ t.wgs = [] ∧ t.saved = [] ∧ t.grids = [] ∧ t.gridIds = [] ∧
    t.bars = [] ∧ t.ctxs = [] ∧ t.queues = [] ∧ t.copies = [] ∧ t.mxops = [] ∧ t.latches = [] ∧ t.migr = [] ∧ t.tlbs = [] ∧
    t.l1 = [] ∧ t.clu = [] ∧ t.l2 = [] ∧ t.writes = [] ∧ t.sent = [] ∧ t.farDirty = [] ∧ t.pend = [] ∧ t.ports = [] ∧ t.pan = [] ∧
    t.sluBuf = [] ∧ t.rpcnt = [] ∧ t.votes = [] ∧ t.mgcnt = [] ∧ t.lanes = [] ∧ t.times = [] ∧ t.dpres = 0x1FF#9 ∧
    t.qosctl = 0x0200#32 ∧ t.host.booted = false ∧ t.host.pwrCap = 3600#32 ∧ t.host.tstInt = 0x0E10#16 ∧ t.host.mgSeq = 0 ∧
    t.host.thTrip = s.host.thTrip ∧
    ∀ a, 0x80000000000 ≤ a → readCell t.mem a = readCell s.mem a)
end

