-- ==== Sys2Proof/Laws/Encoding.lean ====
section
/-!
SUPPORT. The nine columns of an instruction word and the word itself: each gives the other back (R71, R72).
-/

namespace Sys2Proof

/-- Each bit of the word that columns form. -/
theorem Strip.getLsbD_pack (t : Strip) (i : Nat) : t.pack.getLsbD i =
    if i < 1 then t.e else if i < 2 then t.g else if i < 3 then t.f else if i < 7 then t.y.getLsbD (i - 3)
    else if i < 10 then t.x.getLsbD (i - 7) else if i < 17 then t.a.getLsbD (i - 10) else if i < 24 then t.d.getLsbD (i - 17)
    else if i < 25 then t.u else t.op.getLsbD (i - 25) := by
  have app {n m : Nat} (x : BitVec n) (y : BitVec m) (j : Nat) : BitVec.getLsbD (w := n + m) (x ++ y) j =
    if j < m then y.getLsbD j else x.getLsbD (j - m) := by
    rw [BitVec.getLsbD_append]
  have one (b : Bool) (j : Nat) : (BitVec.ofBool b).getLsbD j = (decide (j = 0) && b) := by
    cases b <;> simp
  refine (app (n := 31) (m := 1) _ _ i).trans ?_
  refine (congrArg (fun z => ite _ _ z) (app (n := 30) (m := 1) _ _ _)).trans ?_
  refine (congrArg (fun z => ite _ _ (ite _ _ z)) (app (n := 29) (m := 1) _ _ _)).trans ?_
  refine (congrArg (fun z => ite _ _ (ite _ _ (ite _ _ z))) (app (n := 25) (m := 4) _ _ _)).trans ?_
  refine (congrArg (fun z => ite _ _ (ite _ _ (ite _ _ (ite _ _ z)))) (app (n := 22) (m := 3) _ _ _)).trans ?_
  refine (congrArg (fun z => ite _ _ (ite _ _ (ite _ _ (ite _ _ (ite _ _ z))))) (app (n := 15) (m := 7) _ _ _)).trans ?_
  refine (congrArg (fun z => ite _ _ (ite _ _ (ite _ _ (ite _ _ (ite _ _ (ite _ _ z)))))) (app (n := 8) (m := 7) _ _ _)).trans ?_
  refine (congrArg (fun z => ite _ _ (ite _ _ (ite _ _ (ite _ _ (ite _ _ (ite _ _ (ite _ _ z))))))) (app (n := 7) (m := 1) _ _ _)).trans ?_
  simp only [one, Nat.sub_sub, Nat.reduceAdd]
  have h : i < 1 ∨ (1 ≤ i ∧ i < 2) ∨ (2 ≤ i ∧ i < 3) ∨ (3 ≤ i ∧ i < 7) ∨ (7 ≤ i ∧ i < 10) ∨ (10 ≤ i ∧ i < 17) ∨ (17 ≤ i ∧ i < 24) ∨
    (24 ≤ i ∧ i < 25) ∨ 25 ≤ i := by omega
  rcases h with h | h | h | h | h | h | h | h | h <;>
    simp (disch := omega) only [if_pos, if_neg, decide_eq_true, Bool.true_and]

/-- The columns of the word that columns form are those columns (R72). -/
theorem Strip.split_pack (t : Strip) : Strip.split t.pack = t := by
  obtain ⟨op, u, d, a, x, y, f, g, e⟩ := t
  simp only [Strip.split, Strip.mk.injEq]
  refine ⟨?_, ?_, ?_, ?_, ?_, ?_, ?_, ?_, ?_⟩ <;>
    first
    | (apply BitVec.eq_of_getLsbD_eq; intro i hi
       simp (disch := omega) only [BitVec.getLsbD_extractLsb', Strip.getLsbD_pack, if_pos, if_neg, Nat.add_sub_cancel_left, decide_eq_true, Bool.true_and])
    | (rw [Strip.getLsbD_pack]; rfl)

/-- The word that the columns of a word form is that word (R72). -/
theorem Strip.pack_split (w : Word) : (Strip.split w).pack = w := by
  apply BitVec.eq_of_getLsbD_eq
  intro i hi
  rw [Strip.getLsbD_pack]
  have h : i < 1 ∨ (1 ≤ i ∧ i < 2) ∨ (2 ≤ i ∧ i < 3) ∨ (3 ≤ i ∧ i < 7) ∨ (7 ≤ i ∧ i < 10) ∨ (10 ≤ i ∧ i < 17) ∨ (17 ≤ i ∧ i < 24) ∨
    (24 ≤ i ∧ i < 25) ∨ 25 ≤ i := by omega
  simp only [Strip.split, BitVec.getLsbD_extractLsb']
  rcases h with h | h | h | h | h | h | h | h | h <;>
    simp (disch := omega) only [if_pos, if_neg, decide_eq_true, Bool.true_and, Nat.add_sub_cancel'] <;> congr 1 <;> omega

end Sys2Proof
end

