-- ==== Sys2Proof/Laws/Group.lean ====
section
/-!
SUPPORT. Reading a field of a group after its split has changed, met a run boundary or gone on: one lemma for each.
-/

namespace Sys2Proof.Machine

variable (g : Group) (sid : Nat)

/-! ### A change of a split: nothing but the splits -/

@[simp] theorem Group.modSplit_wg (h : Split → Split) : (g.modSplit sid h).wg = g.wg := rfl
@[simp] theorem Group.modSplit_ctx (h : Split → Split) : (g.modSplit sid h).ctx = g.ctx := rfl
@[simp] theorem Group.modSplit_idx (h : Split → Split) : (g.modSplit sid h).idx = g.idx := rfl
@[simp] theorem Group.modSplit_lane (h : Split → Split) : (g.modSplit sid h).lane = g.lane := rfl
@[simp] theorem Group.modSplit_slot (h : Split → Split) : (g.modSplit sid h).slot = g.slot := rfl
@[simp] theorem Group.modSplit_alloc (h : Split → Split) : (g.modSplit sid h).alloc = g.alloc := rfl
@[simp] theorem Group.modSplit_cap (h : Split → Split) : (g.modSplit sid h).cap = g.cap := rfl
@[simp] theorem Group.modSplit_regs (h : Split → Split) : (g.modSplit sid h).regs = g.regs := rfl
@[simp] theorem Group.modSplit_preds (h : Split → Split) : (g.modSplit sid h).preds = g.preds := rfl
@[simp] theorem Group.modSplit_stack (h : Split → Split) : (g.modSplit sid h).stack = g.stack := rfl
@[simp] theorem Group.modSplit_cont (h : Split → Split) : (g.modSplit sid h).cont = g.cont := rfl
@[simp] theorem Group.modSplit_urec (h : Split → Split) : (g.modSplit sid h).urec = g.urec := rfl
@[simp] theorem Group.modSplit_pair (h : Split → Split) : (g.modSplit sid h).pair = g.pair := rfl
@[simp] theorem Group.modSplit_pres (h : Split → Split) : (g.modSplit sid h).pres = g.pres := rfl
@[simp] theorem Group.modSplit_shadowLane (h : Split → Split) : (g.modSplit sid h).shadowLane = g.shadowLane := rfl
@[simp] theorem Group.modSplit_exited (h : Split → Split) : (g.modSplit sid h).exited = g.exited := rfl
@[simp] theorem Group.modSplit_held (h : Split → Split) : (g.modSplit sid h).held = g.held := rfl
@[simp] theorem Group.modSplit_txs (h : Split → Split) : (g.modSplit sid h).txs = g.txs := rfl
@[simp] theorem Group.modSplit_txReg (h : Split → Split) : (g.modSplit sid h).txReg = g.txReg := rfl
@[simp] theorem Group.modSplit_prods (h : Split → Split) : (g.modSplit sid h).prods = g.prods := rfl
@[simp] theorem Group.modSplit_nextProd (h : Split → Split) : (g.modSplit sid h).nextProd = g.nextProd := rfl
@[simp] theorem Group.modSplit_executed (h : Split → Split) : (g.modSplit sid h).executed = g.executed := rfl
@[simp] theorem Group.modSplit_nopre (h : Split → Split) : (g.modSplit sid h).nopre = g.nopre := rfl
@[simp] theorem Group.modSplit_tokens (h : Split → Split) : (g.modSplit sid h).tokens = g.tokens := rfl
@[simp] theorem Group.modSplit_nb (h : Split → Split) : (g.modSplit sid h).nb = g.nb := rfl
@[simp] theorem Group.modSplit_forming (h : Split → Split) : (g.modSplit sid h).forming = g.forming := rfl
@[simp] theorem Group.modSplit_unretired (h : Split → Split) : (g.modSplit sid h).unretired = g.unretired := rfl
@[simp] theorem Group.modSplit_stamps (h : Split → Split) : (g.modSplit sid h).stamps = g.stamps := rfl
@[simp] theorem Group.modSplit_trap (h : Split → Split) : (g.modSplit sid h).trap = g.trap := rfl
@[simp] theorem Group.modSplit_stop (h : Split → Split) : (g.modSplit sid h).stop = g.stop := rfl
@[simp] theorem Group.modSplit_later (h : Split → Split) : (g.modSplit sid h).later = g.later := rfl
@[simp] theorem Group.modSplit_written (h : Split → Split) : (g.modSplit sid h).written = g.written := rfl
@[simp] theorem Group.modSplit_shots (h : Split → Split) : (g.modSplit sid h).shots = g.shots := rfl
@[simp] theorem Group.modSplit_fresh (h : Split → Split) : (g.modSplit sid h).fresh = g.fresh := rfl
@[simp] theorem Group.modSplit_clock (h : Split → Split) : (g.modSplit sid h).clock = g.clock := rfl
@[simp] theorem Group.modSplit_posted (h : Split → Split) : (g.modSplit sid h).posted = g.posted := rfl
@[simp] theorem Group.modSplit_relScope (h : Split → Split) : (g.modSplit sid h).relScope = g.relScope := rfl
@[simp] theorem Group.modSplit_seen (h : Split → Split) : (g.modSplit sid h).seen = g.seen := rfl

/-! ### A run boundary (R38): nothing but the splits and the stack -/

@[simp] theorem Group.boundary_wg : (g.boundary sid).wg = g.wg := by unfold Group.boundary; split <;> rfl
@[simp] theorem Group.boundary_ctx : (g.boundary sid).ctx = g.ctx := by unfold Group.boundary; split <;> rfl
@[simp] theorem Group.boundary_idx : (g.boundary sid).idx = g.idx := by unfold Group.boundary; split <;> rfl
@[simp] theorem Group.boundary_lane : (g.boundary sid).lane = g.lane := by unfold Group.boundary; split <;> rfl
@[simp] theorem Group.boundary_slot : (g.boundary sid).slot = g.slot := by unfold Group.boundary; split <;> rfl
@[simp] theorem Group.boundary_alloc : (g.boundary sid).alloc = g.alloc := by unfold Group.boundary; split <;> rfl
@[simp] theorem Group.boundary_cap : (g.boundary sid).cap = g.cap := by unfold Group.boundary; split <;> rfl
@[simp] theorem Group.boundary_regs : (g.boundary sid).regs = g.regs := by unfold Group.boundary; split <;> rfl
@[simp] theorem Group.boundary_preds : (g.boundary sid).preds = g.preds := by unfold Group.boundary; split <;> rfl
@[simp] theorem Group.boundary_cont : (g.boundary sid).cont = g.cont := by unfold Group.boundary; split <;> rfl
@[simp] theorem Group.boundary_urec : (g.boundary sid).urec = g.urec := by unfold Group.boundary; split <;> rfl
@[simp] theorem Group.boundary_pair : (g.boundary sid).pair = g.pair := by unfold Group.boundary; split <;> rfl
@[simp] theorem Group.boundary_pres : (g.boundary sid).pres = g.pres := by unfold Group.boundary; split <;> rfl
@[simp] theorem Group.boundary_shadowLane : (g.boundary sid).shadowLane = g.shadowLane := by unfold Group.boundary; split <;> rfl
@[simp] theorem Group.boundary_exited : (g.boundary sid).exited = g.exited := by unfold Group.boundary; split <;> rfl
@[simp] theorem Group.boundary_held : (g.boundary sid).held = g.held := by unfold Group.boundary; split <;> rfl
@[simp] theorem Group.boundary_txs : (g.boundary sid).txs = g.txs := by unfold Group.boundary; split <;> rfl
@[simp] theorem Group.boundary_txReg : (g.boundary sid).txReg = g.txReg := by unfold Group.boundary; split <;> rfl
@[simp] theorem Group.boundary_prods : (g.boundary sid).prods = g.prods := by unfold Group.boundary; split <;> rfl
@[simp] theorem Group.boundary_nextProd : (g.boundary sid).nextProd = g.nextProd := by unfold Group.boundary; split <;> rfl
@[simp] theorem Group.boundary_executed : (g.boundary sid).executed = g.executed := by unfold Group.boundary; split <;> rfl
@[simp] theorem Group.boundary_nopre : (g.boundary sid).nopre = g.nopre := by unfold Group.boundary; split <;> rfl
@[simp] theorem Group.boundary_tokens : (g.boundary sid).tokens = g.tokens := by unfold Group.boundary; split <;> rfl
@[simp] theorem Group.boundary_nb : (g.boundary sid).nb = g.nb := by unfold Group.boundary; split <;> rfl
@[simp] theorem Group.boundary_forming : (g.boundary sid).forming = g.forming := by unfold Group.boundary; split <;> rfl
@[simp] theorem Group.boundary_unretired : (g.boundary sid).unretired = g.unretired := by unfold Group.boundary; split <;> rfl
@[simp] theorem Group.boundary_stamps : (g.boundary sid).stamps = g.stamps := by unfold Group.boundary; split <;> rfl
@[simp] theorem Group.boundary_trap : (g.boundary sid).trap = g.trap := by unfold Group.boundary; split <;> rfl
@[simp] theorem Group.boundary_stop : (g.boundary sid).stop = g.stop := by unfold Group.boundary; split <;> rfl
@[simp] theorem Group.boundary_later : (g.boundary sid).later = g.later := by unfold Group.boundary; split <;> rfl
@[simp] theorem Group.boundary_written : (g.boundary sid).written = g.written := by unfold Group.boundary; split <;> rfl
@[simp] theorem Group.boundary_shots : (g.boundary sid).shots = g.shots := by unfold Group.boundary; split <;> rfl
@[simp] theorem Group.boundary_fresh : (g.boundary sid).fresh = g.fresh := by unfold Group.boundary; split <;> rfl
@[simp] theorem Group.boundary_clock : (g.boundary sid).clock = g.clock := by unfold Group.boundary; split <;> rfl
@[simp] theorem Group.boundary_posted : (g.boundary sid).posted = g.posted := by unfold Group.boundary; split <;> rfl
@[simp] theorem Group.boundary_relScope : (g.boundary sid).relScope = g.relScope := by unfold Group.boundary; split <;> rfl
@[simp] theorem Group.boundary_seen : (g.boundary sid).seen = g.seen := by unfold Group.boundary; split <;> rfl

/-! ### Going on after a word (R29): nothing but the splits, the stack and the count of words -/

@[simp] theorem Group.advance_wg (e : Bool) : (g.advance sid e).wg = g.wg := by
  unfold Group.advance; dsimp only; split <;> split <;> simp
@[simp] theorem Group.advance_ctx (e : Bool) : (g.advance sid e).ctx = g.ctx := by
  unfold Group.advance; dsimp only; split <;> split <;> simp
@[simp] theorem Group.advance_idx (e : Bool) : (g.advance sid e).idx = g.idx := by
  unfold Group.advance; dsimp only; split <;> split <;> simp
@[simp] theorem Group.advance_lane (e : Bool) : (g.advance sid e).lane = g.lane := by
  unfold Group.advance; dsimp only; split <;> split <;> simp
@[simp] theorem Group.advance_slot (e : Bool) : (g.advance sid e).slot = g.slot := by
  unfold Group.advance; dsimp only; split <;> split <;> simp
@[simp] theorem Group.advance_alloc (e : Bool) : (g.advance sid e).alloc = g.alloc := by
  unfold Group.advance; dsimp only; split <;> split <;> simp
@[simp] theorem Group.advance_cap (e : Bool) : (g.advance sid e).cap = g.cap := by
  unfold Group.advance; dsimp only; split <;> split <;> simp
@[simp] theorem Group.advance_regs (e : Bool) : (g.advance sid e).regs = g.regs := by
  unfold Group.advance; dsimp only; split <;> split <;> simp
@[simp] theorem Group.advance_preds (e : Bool) : (g.advance sid e).preds = g.preds := by
  unfold Group.advance; dsimp only; split <;> split <;> simp
@[simp] theorem Group.advance_cont (e : Bool) : (g.advance sid e).cont = g.cont := by
  unfold Group.advance; dsimp only; split <;> split <;> simp
@[simp] theorem Group.advance_urec (e : Bool) : (g.advance sid e).urec = g.urec := by
  unfold Group.advance; dsimp only; split <;> split <;> simp
@[simp] theorem Group.advance_pair (e : Bool) : (g.advance sid e).pair = g.pair := by
  unfold Group.advance; dsimp only; split <;> split <;> simp
@[simp] theorem Group.advance_pres (e : Bool) : (g.advance sid e).pres = g.pres := by
  unfold Group.advance; dsimp only; split <;> split <;> simp
@[simp] theorem Group.advance_shadowLane (e : Bool) : (g.advance sid e).shadowLane = g.shadowLane := by
  unfold Group.advance; dsimp only; split <;> split <;> simp
@[simp] theorem Group.advance_exited (e : Bool) : (g.advance sid e).exited = g.exited := by
  unfold Group.advance; dsimp only; split <;> split <;> simp
@[simp] theorem Group.advance_held (e : Bool) : (g.advance sid e).held = g.held := by
  unfold Group.advance; dsimp only; split <;> split <;> simp
@[simp] theorem Group.advance_txs (e : Bool) : (g.advance sid e).txs = g.txs := by
  unfold Group.advance; dsimp only; split <;> split <;> simp
@[simp] theorem Group.advance_txReg (e : Bool) : (g.advance sid e).txReg = g.txReg := by
  unfold Group.advance; dsimp only; split <;> split <;> simp
@[simp] theorem Group.advance_prods (e : Bool) : (g.advance sid e).prods = g.prods := by
  unfold Group.advance; dsimp only; split <;> split <;> simp
@[simp] theorem Group.advance_nextProd (e : Bool) : (g.advance sid e).nextProd = g.nextProd := by
  unfold Group.advance; dsimp only; split <;> split <;> simp
@[simp] theorem Group.advance_nopre (e : Bool) : (g.advance sid e).nopre = g.nopre := by
  unfold Group.advance; dsimp only; split <;> split <;> simp
@[simp] theorem Group.advance_tokens (e : Bool) : (g.advance sid e).tokens = g.tokens := by
  unfold Group.advance; dsimp only; split <;> split <;> simp
@[simp] theorem Group.advance_nb (e : Bool) : (g.advance sid e).nb = g.nb := by
  unfold Group.advance; dsimp only; split <;> split <;> simp
@[simp] theorem Group.advance_forming (e : Bool) : (g.advance sid e).forming = g.forming := by
  unfold Group.advance; dsimp only; split <;> split <;> simp
@[simp] theorem Group.advance_unretired (e : Bool) : (g.advance sid e).unretired = g.unretired := by
  unfold Group.advance; dsimp only; split <;> split <;> simp
@[simp] theorem Group.advance_stamps (e : Bool) : (g.advance sid e).stamps = g.stamps := by
  unfold Group.advance; dsimp only; split <;> split <;> simp
@[simp] theorem Group.advance_trap (e : Bool) : (g.advance sid e).trap = g.trap := by
  unfold Group.advance; dsimp only; split <;> split <;> simp
@[simp] theorem Group.advance_stop (e : Bool) : (g.advance sid e).stop = g.stop := by
  unfold Group.advance; dsimp only; split <;> split <;> simp
@[simp] theorem Group.advance_later (e : Bool) : (g.advance sid e).later = g.later := by
  unfold Group.advance; dsimp only; split <;> split <;> simp
@[simp] theorem Group.advance_written (e : Bool) : (g.advance sid e).written = g.written := by
  unfold Group.advance; dsimp only; split <;> split <;> simp
@[simp] theorem Group.advance_shots (e : Bool) : (g.advance sid e).shots = g.shots := by
  unfold Group.advance; dsimp only; split <;> split <;> simp
@[simp] theorem Group.advance_fresh (e : Bool) : (g.advance sid e).fresh = g.fresh := by
  unfold Group.advance; dsimp only; split <;> split <;> simp
@[simp] theorem Group.advance_clock (e : Bool) : (g.advance sid e).clock = g.clock := by
  unfold Group.advance; dsimp only; split <;> split <;> simp
@[simp] theorem Group.advance_posted (e : Bool) : (g.advance sid e).posted = g.posted := by
  unfold Group.advance; dsimp only; split <;> split <;> simp
@[simp] theorem Group.advance_relScope (e : Bool) : (g.advance sid e).relScope = g.relScope := by
  unfold Group.advance; dsimp only; split <;> split <;> simp
@[simp] theorem Group.advance_seen (e : Bool) : (g.advance sid e).seen = g.seen := by
  unfold Group.advance; dsimp only; split <;> split <;> simp

end Sys2Proof.Machine
end

