-- ==== Sys2Proof/Laws/Maps.lean ====
section
/-!
SUPPORT. Reading a finite map after it has been written.
-/

namespace Sys2Proof.Machine

variable {κ α : Type} [DecidableEq κ]

/-- A key that has just been set has its value. -/
@[simp] theorem mapFind_mapSet_self (m : Map κ α) (k : κ) (v : α) : mapFind (mapSet m k v) k = some v := by
  induction m with
  | nil => simp [mapSet, mapFind]
  | cons x r ih =>
    obtain ⟨k', v'⟩ := x
    by_cases h : k' = k
    · simp [mapSet, h, mapFind]
    · simp [mapSet, h, mapFind, ih]

/-- Setting a key leaves every other key alone. -/
theorem mapFind_mapSet_ne (m : Map κ α) {k j : κ} (v : α) (h : j ≠ k) : mapFind (mapSet m k v) j = mapFind m j := by
  induction m with
  | nil => simp [mapSet, mapFind, Ne.symm h]
  | cons x r ih =>
    obtain ⟨k', v'⟩ := x
    by_cases hk : k' = k
    · subst hk; simp [mapSet, mapFind, Ne.symm h]
    · simp only [mapSet, hk, if_false, mapFind, ih]

/-- Reading any key after one has been set. -/
theorem mapFind_mapSet (m : Map κ α) (k j : κ) (v : α) :
    mapFind (mapSet m k v) j = if j = k then some v else mapFind m j := by
  by_cases h : j = k
  · subst h; simp
  · simp [h, mapFind_mapSet_ne m v h]

/-- Reading any key with a default after one has been set. -/
theorem mapGet_mapSet (m : Map κ α) (k j : κ) (v d : α) :
    mapGet (mapSet m k v) j d = if j = k then v else mapGet m j d := by
  unfold mapGet
  rw [mapFind_mapSet]
  by_cases h : j = k <;> simp [h]

/-- A key that has been dropped is not listed. -/
@[simp] theorem mapFind_mapDel_self (m : Map κ α) (k : κ) : mapFind (mapDel m k) k = none := by
  induction m with
  | nil => rfl
  | cons x r ih =>
    obtain ⟨k', v'⟩ := x
    simp only [mapDel, mapDrop] at ih ⊢
    by_cases h : k' = k
    · simpa [List.filter_cons, h] using ih
    · simpa [List.filter_cons, h, mapFind] using ih

end Sys2Proof.Machine
end

