-- ==== Sys2Proof/Laws/State.lean ====
section
/-!
SUPPORT. Reading a field of the state after an update of another: one lemma for each field and update, so that no proof
unfolds a record update.
-/

namespace Sys2Proof.Machine

variable (s : State)

/-! ### modGroup: nothing but groups changes -/

@[simp] theorem State.modGroup_agenda (n : Nat) (f : Group → Group) : (s.modGroup n f).agenda = s.agenda := by unfold State.modGroup; split <;> rfl
@[simp] theorem State.modGroup_cur (n : Nat) (f : Group → Group) : (s.modGroup n f).cur = s.cur := by unfold State.modGroup; split <;> rfl
@[simp] theorem State.modGroup_tick (n : Nat) (f : Group → Group) : (s.modGroup n f).tick = s.tick := by unfold State.modGroup; split <;> rfl
@[simp] theorem State.modGroup_freeCtr (n : Nat) (f : Group → Group) : (s.modGroup n f).freeCtr = s.freeCtr := by unfold State.modGroup; split <;> rfl
@[simp] theorem State.modGroup_nextUid (n : Nat) (f : Group → Group) : (s.modGroup n f).nextUid = s.nextUid := by unfold State.modGroup; split <;> rfl
@[simp] theorem State.modGroup_wgs (n : Nat) (f : Group → Group) : (s.modGroup n f).wgs = s.wgs := by unfold State.modGroup; split <;> rfl
@[simp] theorem State.modGroup_saved (n : Nat) (f : Group → Group) : (s.modGroup n f).saved = s.saved := by unfold State.modGroup; split <;> rfl
@[simp] theorem State.modGroup_grids (n : Nat) (f : Group → Group) : (s.modGroup n f).grids = s.grids := by unfold State.modGroup; split <;> rfl
@[simp] theorem State.modGroup_gridIds (n : Nat) (f : Group → Group) : (s.modGroup n f).gridIds = s.gridIds := by unfold State.modGroup; split <;> rfl
@[simp] theorem State.modGroup_bars (n : Nat) (f : Group → Group) : (s.modGroup n f).bars = s.bars := by unfold State.modGroup; split <;> rfl
@[simp] theorem State.modGroup_lanes (n : Nat) (f : Group → Group) : (s.modGroup n f).lanes = s.lanes := by unfold State.modGroup; split <;> rfl
@[simp] theorem State.modGroup_upsets (n : Nat) (f : Group → Group) : (s.modGroup n f).upsets = s.upsets := by unfold State.modGroup; split <;> rfl
@[simp] theorem State.modGroup_ctxs (n : Nat) (f : Group → Group) : (s.modGroup n f).ctxs = s.ctxs := by unfold State.modGroup; split <;> rfl
@[simp] theorem State.modGroup_queues (n : Nat) (f : Group → Group) : (s.modGroup n f).queues = s.queues := by unfold State.modGroup; split <;> rfl
@[simp] theorem State.modGroup_nextQueue (n : Nat) (f : Group → Group) : (s.modGroup n f).nextQueue = s.nextQueue := by unfold State.modGroup; split <;> rfl
@[simp] theorem State.modGroup_mem (n : Nat) (f : Group → Group) : (s.modGroup n f).mem = s.mem := by unfold State.modGroup; split <;> rfl
@[simp] theorem State.modGroup_poison (n : Nat) (f : Group → Group) : (s.modGroup n f).poison = s.poison := by unfold State.modGroup; split <;> rfl
@[simp] theorem State.modGroup_l1 (n : Nat) (f : Group → Group) : (s.modGroup n f).l1 = s.l1 := by unfold State.modGroup; split <;> rfl
@[simp] theorem State.modGroup_clu (n : Nat) (f : Group → Group) : (s.modGroup n f).clu = s.clu := by unfold State.modGroup; split <;> rfl
@[simp] theorem State.modGroup_l2 (n : Nat) (f : Group → Group) : (s.modGroup n f).l2 = s.l2 := by unfold State.modGroup; split <;> rfl
@[simp] theorem State.modGroup_consts (n : Nat) (f : Group → Group) : (s.modGroup n f).consts = s.consts := by unfold State.modGroup; split <;> rfl
@[simp] theorem State.modGroup_farDirty (n : Nat) (f : Group → Group) : (s.modGroup n f).farDirty = s.farDirty := by unfold State.modGroup; split <;> rfl
@[simp] theorem State.modGroup_writes (n : Nat) (f : Group → Group) : (s.modGroup n f).writes = s.writes := by unfold State.modGroup; split <;> rfl
@[simp] theorem State.modGroup_sent (n : Nat) (f : Group → Group) : (s.modGroup n f).sent = s.sent := by unfold State.modGroup; split <;> rfl
@[simp] theorem State.modGroup_expPoison (n : Nat) (f : Group → Group) : (s.modGroup n f).expPoison = s.expPoison := by unfold State.modGroup; split <;> rfl
@[simp] theorem State.modGroup_tlbs (n : Nat) (f : Group → Group) : (s.modGroup n f).tlbs = s.tlbs := by unfold State.modGroup; split <;> rfl
@[simp] theorem State.modGroup_pend (n : Nat) (f : Group → Group) : (s.modGroup n f).pend = s.pend := by unfold State.modGroup; split <;> rfl
@[simp] theorem State.modGroup_ovfDue (n : Nat) (f : Group → Group) : (s.modGroup n f).ovfDue = s.ovfDue := by unfold State.modGroup; split <;> rfl
@[simp] theorem State.modGroup_dpres (n : Nat) (f : Group → Group) : (s.modGroup n f).dpres = s.dpres := by unfold State.modGroup; split <;> rfl
@[simp] theorem State.modGroup_times (n : Nat) (f : Group → Group) : (s.modGroup n f).times = s.times := by unfold State.modGroup; split <;> rfl
@[simp] theorem State.modGroup_frame (n : Nat) (f : Group → Group) : (s.modGroup n f).frame = s.frame := by unfold State.modGroup; split <;> rfl
@[simp] theorem State.modGroup_qosctl (n : Nat) (f : Group → Group) : (s.modGroup n f).qosctl = s.qosctl := by unfold State.modGroup; split <;> rfl
@[simp] theorem State.modGroup_qosq (n : Nat) (f : Group → Group) : (s.modGroup n f).qosq = s.qosq := by unfold State.modGroup; split <;> rfl
@[simp] theorem State.modGroup_qosctlNow (n : Nat) (f : Group → Group) : (s.modGroup n f).qosctlNow = s.qosctlNow := by unfold State.modGroup; split <;> rfl
@[simp] theorem State.modGroup_qosqNow (n : Nat) (f : Group → Group) : (s.modGroup n f).qosqNow = s.qosqNow := by unfold State.modGroup; split <;> rfl
@[simp] theorem State.modGroup_rpcnt (n : Nat) (f : Group → Group) : (s.modGroup n f).rpcnt = s.rpcnt := by unfold State.modGroup; split <;> rfl
@[simp] theorem State.modGroup_conv (n : Nat) (f : Group → Group) : (s.modGroup n f).conv = s.conv := by unfold State.modGroup; split <;> rfl
@[simp] theorem State.modGroup_samples (n : Nat) (f : Group → Group) : (s.modGroup n f).samples = s.samples := by unfold State.modGroup; split <;> rfl
@[simp] theorem State.modGroup_votes (n : Nat) (f : Group → Group) : (s.modGroup n f).votes = s.votes := by unfold State.modGroup; split <;> rfl
@[simp] theorem State.modGroup_struck (n : Nat) (f : Group → Group) : (s.modGroup n f).struck = s.struck := by unfold State.modGroup; split <;> rfl
@[simp] theorem State.modGroup_macros (n : Nat) (f : Group → Group) : (s.modGroup n f).macros = s.macros := by unfold State.modGroup; split <;> rfl
@[simp] theorem State.modGroup_coresOut (n : Nat) (f : Group → Group) : (s.modGroup n f).coresOut = s.coresOut := by unfold State.modGroup; split <;> rfl
@[simp] theorem State.modGroup_childCount (n : Nat) (f : Group → Group) : (s.modGroup n f).childCount = s.childCount := by unfold State.modGroup; split <;> rfl
@[simp] theorem State.modGroup_copies (n : Nat) (f : Group → Group) : (s.modGroup n f).copies = s.copies := by unfold State.modGroup; split <;> rfl
@[simp] theorem State.modGroup_pan (n : Nat) (f : Group → Group) : (s.modGroup n f).pan = s.pan := by unfold State.modGroup; split <;> rfl
@[simp] theorem State.modGroup_panPoison (n : Nat) (f : Group → Group) : (s.modGroup n f).panPoison = s.panPoison := by unfold State.modGroup; split <;> rfl
@[simp] theorem State.modGroup_panStamps (n : Nat) (f : Group → Group) : (s.modGroup n f).panStamps = s.panStamps := by unfold State.modGroup; split <;> rfl
@[simp] theorem State.modGroup_rels (n : Nat) (f : Group → Group) : (s.modGroup n f).rels = s.rels := by unfold State.modGroup; split <;> rfl
@[simp] theorem State.modGroup_barClocks (n : Nat) (f : Group → Group) : (s.modGroup n f).barClocks = s.barClocks := by unfold State.modGroup; split <;> rfl
@[simp] theorem State.modGroup_landed (n : Nat) (f : Group → Group) : (s.modGroup n f).landed = s.landed := by unfold State.modGroup; split <;> rfl
@[simp] theorem State.modGroup_pendRows (n : Nat) (f : Group → Group) : (s.modGroup n f).pendRows = s.pendRows := by unfold State.modGroup; split <;> rfl
@[simp] theorem State.modGroup_mxops (n : Nat) (f : Group → Group) : (s.modGroup n f).mxops = s.mxops := by unfold State.modGroup; split <;> rfl
@[simp] theorem State.modGroup_latches (n : Nat) (f : Group → Group) : (s.modGroup n f).latches = s.latches := by unfold State.modGroup; split <;> rfl
@[simp] theorem State.modGroup_sluBuf (n : Nat) (f : Group → Group) : (s.modGroup n f).sluBuf = s.sluBuf := by unfold State.modGroup; split <;> rfl
@[simp] theorem State.modGroup_sluFly (n : Nat) (f : Group → Group) : (s.modGroup n f).sluFly = s.sluFly := by unfold State.modGroup; split <;> rfl
@[simp] theorem State.modGroup_sluUsed (n : Nat) (f : Group → Group) : (s.modGroup n f).sluUsed = s.sluUsed := by unfold State.modGroup; split <;> rfl
@[simp] theorem State.modGroup_sluRet (n : Nat) (f : Group → Group) : (s.modGroup n f).sluRet = s.sluRet := by unfold State.modGroup; split <;> rfl
@[simp] theorem State.modGroup_sluHold (n : Nat) (f : Group → Group) : (s.modGroup n f).sluHold = s.sluHold := by unfold State.modGroup; split <;> rfl
@[simp] theorem State.modGroup_migr (n : Nat) (f : Group → Group) : (s.modGroup n f).migr = s.migr := by unfold State.modGroup; split <;> rfl
@[simp] theorem State.modGroup_mgcnt (n : Nat) (f : Group → Group) : (s.modGroup n f).mgcnt = s.mgcnt := by unfold State.modGroup; split <;> rfl
@[simp] theorem State.modGroup_ports (n : Nat) (f : Group → Group) : (s.modGroup n f).ports = s.ports := by unfold State.modGroup; split <;> rfl
@[simp] theorem State.modGroup_host (n : Nat) (f : Group → Group) : (s.modGroup n f).host = s.host := by unfold State.modGroup; split <;> rfl
@[simp] theorem State.modGroup_testing (n : Nat) (f : Group → Group) : (s.modGroup n f).testing = s.testing := by unfold State.modGroup; split <;> rfl
@[simp] theorem State.modGroup_testedAt (n : Nat) (f : Group → Group) : (s.modGroup n f).testedAt = s.testedAt := by unfold State.modGroup; split <;> rfl

/-! ### modSplit: nothing but groups changes -/

@[simp] theorem State.modSplit_agenda (n p : Nat) (f : Split → Split) : (s.modSplit n p f).agenda = s.agenda := by unfold State.modSplit State.modGroup; split <;> rfl
@[simp] theorem State.modSplit_cur (n p : Nat) (f : Split → Split) : (s.modSplit n p f).cur = s.cur := by unfold State.modSplit State.modGroup; split <;> rfl
@[simp] theorem State.modSplit_tick (n p : Nat) (f : Split → Split) : (s.modSplit n p f).tick = s.tick := by unfold State.modSplit State.modGroup; split <;> rfl
@[simp] theorem State.modSplit_freeCtr (n p : Nat) (f : Split → Split) : (s.modSplit n p f).freeCtr = s.freeCtr := by unfold State.modSplit State.modGroup; split <;> rfl
@[simp] theorem State.modSplit_nextUid (n p : Nat) (f : Split → Split) : (s.modSplit n p f).nextUid = s.nextUid := by unfold State.modSplit State.modGroup; split <;> rfl
@[simp] theorem State.modSplit_wgs (n p : Nat) (f : Split → Split) : (s.modSplit n p f).wgs = s.wgs := by unfold State.modSplit State.modGroup; split <;> rfl
@[simp] theorem State.modSplit_saved (n p : Nat) (f : Split → Split) : (s.modSplit n p f).saved = s.saved := by unfold State.modSplit State.modGroup; split <;> rfl
@[simp] theorem State.modSplit_grids (n p : Nat) (f : Split → Split) : (s.modSplit n p f).grids = s.grids := by unfold State.modSplit State.modGroup; split <;> rfl
@[simp] theorem State.modSplit_gridIds (n p : Nat) (f : Split → Split) : (s.modSplit n p f).gridIds = s.gridIds := by unfold State.modSplit State.modGroup; split <;> rfl
@[simp] theorem State.modSplit_bars (n p : Nat) (f : Split → Split) : (s.modSplit n p f).bars = s.bars := by unfold State.modSplit State.modGroup; split <;> rfl
@[simp] theorem State.modSplit_lanes (n p : Nat) (f : Split → Split) : (s.modSplit n p f).lanes = s.lanes := by unfold State.modSplit State.modGroup; split <;> rfl
@[simp] theorem State.modSplit_upsets (n p : Nat) (f : Split → Split) : (s.modSplit n p f).upsets = s.upsets := by unfold State.modSplit State.modGroup; split <;> rfl
@[simp] theorem State.modSplit_ctxs (n p : Nat) (f : Split → Split) : (s.modSplit n p f).ctxs = s.ctxs := by unfold State.modSplit State.modGroup; split <;> rfl
@[simp] theorem State.modSplit_queues (n p : Nat) (f : Split → Split) : (s.modSplit n p f).queues = s.queues := by unfold State.modSplit State.modGroup; split <;> rfl
@[simp] theorem State.modSplit_nextQueue (n p : Nat) (f : Split → Split) : (s.modSplit n p f).nextQueue = s.nextQueue := by unfold State.modSplit State.modGroup; split <;> rfl
@[simp] theorem State.modSplit_mem (n p : Nat) (f : Split → Split) : (s.modSplit n p f).mem = s.mem := by unfold State.modSplit State.modGroup; split <;> rfl
@[simp] theorem State.modSplit_poison (n p : Nat) (f : Split → Split) : (s.modSplit n p f).poison = s.poison := by unfold State.modSplit State.modGroup; split <;> rfl
@[simp] theorem State.modSplit_l1 (n p : Nat) (f : Split → Split) : (s.modSplit n p f).l1 = s.l1 := by unfold State.modSplit State.modGroup; split <;> rfl
@[simp] theorem State.modSplit_clu (n p : Nat) (f : Split → Split) : (s.modSplit n p f).clu = s.clu := by unfold State.modSplit State.modGroup; split <;> rfl
@[simp] theorem State.modSplit_l2 (n p : Nat) (f : Split → Split) : (s.modSplit n p f).l2 = s.l2 := by unfold State.modSplit State.modGroup; split <;> rfl
@[simp] theorem State.modSplit_consts (n p : Nat) (f : Split → Split) : (s.modSplit n p f).consts = s.consts := by unfold State.modSplit State.modGroup; split <;> rfl
@[simp] theorem State.modSplit_farDirty (n p : Nat) (f : Split → Split) : (s.modSplit n p f).farDirty = s.farDirty := by unfold State.modSplit State.modGroup; split <;> rfl
@[simp] theorem State.modSplit_writes (n p : Nat) (f : Split → Split) : (s.modSplit n p f).writes = s.writes := by unfold State.modSplit State.modGroup; split <;> rfl
@[simp] theorem State.modSplit_sent (n p : Nat) (f : Split → Split) : (s.modSplit n p f).sent = s.sent := by unfold State.modSplit State.modGroup; split <;> rfl
@[simp] theorem State.modSplit_expPoison (n p : Nat) (f : Split → Split) : (s.modSplit n p f).expPoison = s.expPoison := by unfold State.modSplit State.modGroup; split <;> rfl
@[simp] theorem State.modSplit_tlbs (n p : Nat) (f : Split → Split) : (s.modSplit n p f).tlbs = s.tlbs := by unfold State.modSplit State.modGroup; split <;> rfl
@[simp] theorem State.modSplit_pend (n p : Nat) (f : Split → Split) : (s.modSplit n p f).pend = s.pend := by unfold State.modSplit State.modGroup; split <;> rfl
@[simp] theorem State.modSplit_ovfDue (n p : Nat) (f : Split → Split) : (s.modSplit n p f).ovfDue = s.ovfDue := by unfold State.modSplit State.modGroup; split <;> rfl
@[simp] theorem State.modSplit_dpres (n p : Nat) (f : Split → Split) : (s.modSplit n p f).dpres = s.dpres := by unfold State.modSplit State.modGroup; split <;> rfl
@[simp] theorem State.modSplit_times (n p : Nat) (f : Split → Split) : (s.modSplit n p f).times = s.times := by unfold State.modSplit State.modGroup; split <;> rfl
@[simp] theorem State.modSplit_frame (n p : Nat) (f : Split → Split) : (s.modSplit n p f).frame = s.frame := by unfold State.modSplit State.modGroup; split <;> rfl
@[simp] theorem State.modSplit_qosctl (n p : Nat) (f : Split → Split) : (s.modSplit n p f).qosctl = s.qosctl := by unfold State.modSplit State.modGroup; split <;> rfl
@[simp] theorem State.modSplit_qosq (n p : Nat) (f : Split → Split) : (s.modSplit n p f).qosq = s.qosq := by unfold State.modSplit State.modGroup; split <;> rfl
@[simp] theorem State.modSplit_qosctlNow (n p : Nat) (f : Split → Split) : (s.modSplit n p f).qosctlNow = s.qosctlNow := by unfold State.modSplit State.modGroup; split <;> rfl
@[simp] theorem State.modSplit_qosqNow (n p : Nat) (f : Split → Split) : (s.modSplit n p f).qosqNow = s.qosqNow := by unfold State.modSplit State.modGroup; split <;> rfl
@[simp] theorem State.modSplit_rpcnt (n p : Nat) (f : Split → Split) : (s.modSplit n p f).rpcnt = s.rpcnt := by unfold State.modSplit State.modGroup; split <;> rfl
@[simp] theorem State.modSplit_conv (n p : Nat) (f : Split → Split) : (s.modSplit n p f).conv = s.conv := by unfold State.modSplit State.modGroup; split <;> rfl
@[simp] theorem State.modSplit_samples (n p : Nat) (f : Split → Split) : (s.modSplit n p f).samples = s.samples := by unfold State.modSplit State.modGroup; split <;> rfl
@[simp] theorem State.modSplit_votes (n p : Nat) (f : Split → Split) : (s.modSplit n p f).votes = s.votes := by unfold State.modSplit State.modGroup; split <;> rfl
@[simp] theorem State.modSplit_struck (n p : Nat) (f : Split → Split) : (s.modSplit n p f).struck = s.struck := by unfold State.modSplit State.modGroup; split <;> rfl
@[simp] theorem State.modSplit_macros (n p : Nat) (f : Split → Split) : (s.modSplit n p f).macros = s.macros := by unfold State.modSplit State.modGroup; split <;> rfl
@[simp] theorem State.modSplit_coresOut (n p : Nat) (f : Split → Split) : (s.modSplit n p f).coresOut = s.coresOut := by unfold State.modSplit State.modGroup; split <;> rfl
@[simp] theorem State.modSplit_childCount (n p : Nat) (f : Split → Split) : (s.modSplit n p f).childCount = s.childCount := by unfold State.modSplit State.modGroup; split <;> rfl
@[simp] theorem State.modSplit_copies (n p : Nat) (f : Split → Split) : (s.modSplit n p f).copies = s.copies := by unfold State.modSplit State.modGroup; split <;> rfl
@[simp] theorem State.modSplit_pan (n p : Nat) (f : Split → Split) : (s.modSplit n p f).pan = s.pan := by unfold State.modSplit State.modGroup; split <;> rfl
@[simp] theorem State.modSplit_panPoison (n p : Nat) (f : Split → Split) : (s.modSplit n p f).panPoison = s.panPoison := by unfold State.modSplit State.modGroup; split <;> rfl
@[simp] theorem State.modSplit_panStamps (n p : Nat) (f : Split → Split) : (s.modSplit n p f).panStamps = s.panStamps := by unfold State.modSplit State.modGroup; split <;> rfl
@[simp] theorem State.modSplit_rels (n p : Nat) (f : Split → Split) : (s.modSplit n p f).rels = s.rels := by unfold State.modSplit State.modGroup; split <;> rfl
@[simp] theorem State.modSplit_barClocks (n p : Nat) (f : Split → Split) : (s.modSplit n p f).barClocks = s.barClocks := by unfold State.modSplit State.modGroup; split <;> rfl
@[simp] theorem State.modSplit_landed (n p : Nat) (f : Split → Split) : (s.modSplit n p f).landed = s.landed := by unfold State.modSplit State.modGroup; split <;> rfl
@[simp] theorem State.modSplit_pendRows (n p : Nat) (f : Split → Split) : (s.modSplit n p f).pendRows = s.pendRows := by unfold State.modSplit State.modGroup; split <;> rfl
@[simp] theorem State.modSplit_mxops (n p : Nat) (f : Split → Split) : (s.modSplit n p f).mxops = s.mxops := by unfold State.modSplit State.modGroup; split <;> rfl
@[simp] theorem State.modSplit_latches (n p : Nat) (f : Split → Split) : (s.modSplit n p f).latches = s.latches := by unfold State.modSplit State.modGroup; split <;> rfl
@[simp] theorem State.modSplit_sluBuf (n p : Nat) (f : Split → Split) : (s.modSplit n p f).sluBuf = s.sluBuf := by unfold State.modSplit State.modGroup; split <;> rfl
@[simp] theorem State.modSplit_sluFly (n p : Nat) (f : Split → Split) : (s.modSplit n p f).sluFly = s.sluFly := by unfold State.modSplit State.modGroup; split <;> rfl
@[simp] theorem State.modSplit_sluUsed (n p : Nat) (f : Split → Split) : (s.modSplit n p f).sluUsed = s.sluUsed := by unfold State.modSplit State.modGroup; split <;> rfl
@[simp] theorem State.modSplit_sluRet (n p : Nat) (f : Split → Split) : (s.modSplit n p f).sluRet = s.sluRet := by unfold State.modSplit State.modGroup; split <;> rfl
@[simp] theorem State.modSplit_sluHold (n p : Nat) (f : Split → Split) : (s.modSplit n p f).sluHold = s.sluHold := by unfold State.modSplit State.modGroup; split <;> rfl
@[simp] theorem State.modSplit_migr (n p : Nat) (f : Split → Split) : (s.modSplit n p f).migr = s.migr := by unfold State.modSplit State.modGroup; split <;> rfl
@[simp] theorem State.modSplit_mgcnt (n p : Nat) (f : Split → Split) : (s.modSplit n p f).mgcnt = s.mgcnt := by unfold State.modSplit State.modGroup; split <;> rfl
@[simp] theorem State.modSplit_ports (n p : Nat) (f : Split → Split) : (s.modSplit n p f).ports = s.ports := by unfold State.modSplit State.modGroup; split <;> rfl
@[simp] theorem State.modSplit_host (n p : Nat) (f : Split → Split) : (s.modSplit n p f).host = s.host := by unfold State.modSplit State.modGroup; split <;> rfl
@[simp] theorem State.modSplit_testing (n p : Nat) (f : Split → Split) : (s.modSplit n p f).testing = s.testing := by unfold State.modSplit State.modGroup; split <;> rfl
@[simp] theorem State.modSplit_testedAt (n p : Nat) (f : Split → Split) : (s.modSplit n p f).testedAt = s.testedAt := by unfold State.modSplit State.modGroup; split <;> rfl

/-! ### modWg: nothing but wgs changes -/

@[simp] theorem State.modWg_agenda (n : Nat) (f : Workgroup → Workgroup) : (s.modWg n f).agenda = s.agenda := by unfold State.modWg; split <;> rfl
@[simp] theorem State.modWg_cur (n : Nat) (f : Workgroup → Workgroup) : (s.modWg n f).cur = s.cur := by unfold State.modWg; split <;> rfl
@[simp] theorem State.modWg_tick (n : Nat) (f : Workgroup → Workgroup) : (s.modWg n f).tick = s.tick := by unfold State.modWg; split <;> rfl
@[simp] theorem State.modWg_freeCtr (n : Nat) (f : Workgroup → Workgroup) : (s.modWg n f).freeCtr = s.freeCtr := by unfold State.modWg; split <;> rfl
@[simp] theorem State.modWg_nextUid (n : Nat) (f : Workgroup → Workgroup) : (s.modWg n f).nextUid = s.nextUid := by unfold State.modWg; split <;> rfl
@[simp] theorem State.modWg_groups (n : Nat) (f : Workgroup → Workgroup) : (s.modWg n f).groups = s.groups := by unfold State.modWg; split <;> rfl
@[simp] theorem State.modWg_saved (n : Nat) (f : Workgroup → Workgroup) : (s.modWg n f).saved = s.saved := by unfold State.modWg; split <;> rfl
@[simp] theorem State.modWg_grids (n : Nat) (f : Workgroup → Workgroup) : (s.modWg n f).grids = s.grids := by unfold State.modWg; split <;> rfl
@[simp] theorem State.modWg_gridIds (n : Nat) (f : Workgroup → Workgroup) : (s.modWg n f).gridIds = s.gridIds := by unfold State.modWg; split <;> rfl
@[simp] theorem State.modWg_bars (n : Nat) (f : Workgroup → Workgroup) : (s.modWg n f).bars = s.bars := by unfold State.modWg; split <;> rfl
@[simp] theorem State.modWg_lanes (n : Nat) (f : Workgroup → Workgroup) : (s.modWg n f).lanes = s.lanes := by unfold State.modWg; split <;> rfl
@[simp] theorem State.modWg_upsets (n : Nat) (f : Workgroup → Workgroup) : (s.modWg n f).upsets = s.upsets := by unfold State.modWg; split <;> rfl
@[simp] theorem State.modWg_ctxs (n : Nat) (f : Workgroup → Workgroup) : (s.modWg n f).ctxs = s.ctxs := by unfold State.modWg; split <;> rfl
@[simp] theorem State.modWg_queues (n : Nat) (f : Workgroup → Workgroup) : (s.modWg n f).queues = s.queues := by unfold State.modWg; split <;> rfl
@[simp] theorem State.modWg_nextQueue (n : Nat) (f : Workgroup → Workgroup) : (s.modWg n f).nextQueue = s.nextQueue := by unfold State.modWg; split <;> rfl
@[simp] theorem State.modWg_mem (n : Nat) (f : Workgroup → Workgroup) : (s.modWg n f).mem = s.mem := by unfold State.modWg; split <;> rfl
@[simp] theorem State.modWg_poison (n : Nat) (f : Workgroup → Workgroup) : (s.modWg n f).poison = s.poison := by unfold State.modWg; split <;> rfl
@[simp] theorem State.modWg_l1 (n : Nat) (f : Workgroup → Workgroup) : (s.modWg n f).l1 = s.l1 := by unfold State.modWg; split <;> rfl
@[simp] theorem State.modWg_clu (n : Nat) (f : Workgroup → Workgroup) : (s.modWg n f).clu = s.clu := by unfold State.modWg; split <;> rfl
@[simp] theorem State.modWg_l2 (n : Nat) (f : Workgroup → Workgroup) : (s.modWg n f).l2 = s.l2 := by unfold State.modWg; split <;> rfl
@[simp] theorem State.modWg_consts (n : Nat) (f : Workgroup → Workgroup) : (s.modWg n f).consts = s.consts := by unfold State.modWg; split <;> rfl
@[simp] theorem State.modWg_farDirty (n : Nat) (f : Workgroup → Workgroup) : (s.modWg n f).farDirty = s.farDirty := by unfold State.modWg; split <;> rfl
@[simp] theorem State.modWg_writes (n : Nat) (f : Workgroup → Workgroup) : (s.modWg n f).writes = s.writes := by unfold State.modWg; split <;> rfl
@[simp] theorem State.modWg_sent (n : Nat) (f : Workgroup → Workgroup) : (s.modWg n f).sent = s.sent := by unfold State.modWg; split <;> rfl
@[simp] theorem State.modWg_expPoison (n : Nat) (f : Workgroup → Workgroup) : (s.modWg n f).expPoison = s.expPoison := by unfold State.modWg; split <;> rfl
@[simp] theorem State.modWg_tlbs (n : Nat) (f : Workgroup → Workgroup) : (s.modWg n f).tlbs = s.tlbs := by unfold State.modWg; split <;> rfl
@[simp] theorem State.modWg_pend (n : Nat) (f : Workgroup → Workgroup) : (s.modWg n f).pend = s.pend := by unfold State.modWg; split <;> rfl
@[simp] theorem State.modWg_ovfDue (n : Nat) (f : Workgroup → Workgroup) : (s.modWg n f).ovfDue = s.ovfDue := by unfold State.modWg; split <;> rfl
@[simp] theorem State.modWg_dpres (n : Nat) (f : Workgroup → Workgroup) : (s.modWg n f).dpres = s.dpres := by unfold State.modWg; split <;> rfl
@[simp] theorem State.modWg_times (n : Nat) (f : Workgroup → Workgroup) : (s.modWg n f).times = s.times := by unfold State.modWg; split <;> rfl
@[simp] theorem State.modWg_frame (n : Nat) (f : Workgroup → Workgroup) : (s.modWg n f).frame = s.frame := by unfold State.modWg; split <;> rfl
@[simp] theorem State.modWg_qosctl (n : Nat) (f : Workgroup → Workgroup) : (s.modWg n f).qosctl = s.qosctl := by unfold State.modWg; split <;> rfl
@[simp] theorem State.modWg_qosq (n : Nat) (f : Workgroup → Workgroup) : (s.modWg n f).qosq = s.qosq := by unfold State.modWg; split <;> rfl
@[simp] theorem State.modWg_qosctlNow (n : Nat) (f : Workgroup → Workgroup) : (s.modWg n f).qosctlNow = s.qosctlNow := by unfold State.modWg; split <;> rfl
@[simp] theorem State.modWg_qosqNow (n : Nat) (f : Workgroup → Workgroup) : (s.modWg n f).qosqNow = s.qosqNow := by unfold State.modWg; split <;> rfl
@[simp] theorem State.modWg_rpcnt (n : Nat) (f : Workgroup → Workgroup) : (s.modWg n f).rpcnt = s.rpcnt := by unfold State.modWg; split <;> rfl
@[simp] theorem State.modWg_conv (n : Nat) (f : Workgroup → Workgroup) : (s.modWg n f).conv = s.conv := by unfold State.modWg; split <;> rfl
@[simp] theorem State.modWg_samples (n : Nat) (f : Workgroup → Workgroup) : (s.modWg n f).samples = s.samples := by unfold State.modWg; split <;> rfl
@[simp] theorem State.modWg_votes (n : Nat) (f : Workgroup → Workgroup) : (s.modWg n f).votes = s.votes := by unfold State.modWg; split <;> rfl
@[simp] theorem State.modWg_struck (n : Nat) (f : Workgroup → Workgroup) : (s.modWg n f).struck = s.struck := by unfold State.modWg; split <;> rfl
@[simp] theorem State.modWg_macros (n : Nat) (f : Workgroup → Workgroup) : (s.modWg n f).macros = s.macros := by unfold State.modWg; split <;> rfl
@[simp] theorem State.modWg_coresOut (n : Nat) (f : Workgroup → Workgroup) : (s.modWg n f).coresOut = s.coresOut := by unfold State.modWg; split <;> rfl
@[simp] theorem State.modWg_childCount (n : Nat) (f : Workgroup → Workgroup) : (s.modWg n f).childCount = s.childCount := by unfold State.modWg; split <;> rfl
@[simp] theorem State.modWg_copies (n : Nat) (f : Workgroup → Workgroup) : (s.modWg n f).copies = s.copies := by unfold State.modWg; split <;> rfl
@[simp] theorem State.modWg_pan (n : Nat) (f : Workgroup → Workgroup) : (s.modWg n f).pan = s.pan := by unfold State.modWg; split <;> rfl
@[simp] theorem State.modWg_panPoison (n : Nat) (f : Workgroup → Workgroup) : (s.modWg n f).panPoison = s.panPoison := by unfold State.modWg; split <;> rfl
@[simp] theorem State.modWg_panStamps (n : Nat) (f : Workgroup → Workgroup) : (s.modWg n f).panStamps = s.panStamps := by unfold State.modWg; split <;> rfl
@[simp] theorem State.modWg_rels (n : Nat) (f : Workgroup → Workgroup) : (s.modWg n f).rels = s.rels := by unfold State.modWg; split <;> rfl
@[simp] theorem State.modWg_barClocks (n : Nat) (f : Workgroup → Workgroup) : (s.modWg n f).barClocks = s.barClocks := by unfold State.modWg; split <;> rfl
@[simp] theorem State.modWg_landed (n : Nat) (f : Workgroup → Workgroup) : (s.modWg n f).landed = s.landed := by unfold State.modWg; split <;> rfl
@[simp] theorem State.modWg_pendRows (n : Nat) (f : Workgroup → Workgroup) : (s.modWg n f).pendRows = s.pendRows := by unfold State.modWg; split <;> rfl
@[simp] theorem State.modWg_mxops (n : Nat) (f : Workgroup → Workgroup) : (s.modWg n f).mxops = s.mxops := by unfold State.modWg; split <;> rfl
@[simp] theorem State.modWg_latches (n : Nat) (f : Workgroup → Workgroup) : (s.modWg n f).latches = s.latches := by unfold State.modWg; split <;> rfl
@[simp] theorem State.modWg_sluBuf (n : Nat) (f : Workgroup → Workgroup) : (s.modWg n f).sluBuf = s.sluBuf := by unfold State.modWg; split <;> rfl
@[simp] theorem State.modWg_sluFly (n : Nat) (f : Workgroup → Workgroup) : (s.modWg n f).sluFly = s.sluFly := by unfold State.modWg; split <;> rfl
@[simp] theorem State.modWg_sluUsed (n : Nat) (f : Workgroup → Workgroup) : (s.modWg n f).sluUsed = s.sluUsed := by unfold State.modWg; split <;> rfl
@[simp] theorem State.modWg_sluRet (n : Nat) (f : Workgroup → Workgroup) : (s.modWg n f).sluRet = s.sluRet := by unfold State.modWg; split <;> rfl
@[simp] theorem State.modWg_sluHold (n : Nat) (f : Workgroup → Workgroup) : (s.modWg n f).sluHold = s.sluHold := by unfold State.modWg; split <;> rfl
@[simp] theorem State.modWg_migr (n : Nat) (f : Workgroup → Workgroup) : (s.modWg n f).migr = s.migr := by unfold State.modWg; split <;> rfl
@[simp] theorem State.modWg_mgcnt (n : Nat) (f : Workgroup → Workgroup) : (s.modWg n f).mgcnt = s.mgcnt := by unfold State.modWg; split <;> rfl
@[simp] theorem State.modWg_ports (n : Nat) (f : Workgroup → Workgroup) : (s.modWg n f).ports = s.ports := by unfold State.modWg; split <;> rfl
@[simp] theorem State.modWg_host (n : Nat) (f : Workgroup → Workgroup) : (s.modWg n f).host = s.host := by unfold State.modWg; split <;> rfl
@[simp] theorem State.modWg_testing (n : Nat) (f : Workgroup → Workgroup) : (s.modWg n f).testing = s.testing := by unfold State.modWg; split <;> rfl
@[simp] theorem State.modWg_testedAt (n : Nat) (f : Workgroup → Workgroup) : (s.modWg n f).testedAt = s.testedAt := by unfold State.modWg; split <;> rfl

/-! ### modGrid: nothing but grids changes -/

@[simp] theorem State.modGrid_agenda (n : Nat) (f : Grid → Grid) : (s.modGrid n f).agenda = s.agenda := by unfold State.modGrid; split <;> rfl
@[simp] theorem State.modGrid_cur (n : Nat) (f : Grid → Grid) : (s.modGrid n f).cur = s.cur := by unfold State.modGrid; split <;> rfl
@[simp] theorem State.modGrid_tick (n : Nat) (f : Grid → Grid) : (s.modGrid n f).tick = s.tick := by unfold State.modGrid; split <;> rfl
@[simp] theorem State.modGrid_freeCtr (n : Nat) (f : Grid → Grid) : (s.modGrid n f).freeCtr = s.freeCtr := by unfold State.modGrid; split <;> rfl
@[simp] theorem State.modGrid_nextUid (n : Nat) (f : Grid → Grid) : (s.modGrid n f).nextUid = s.nextUid := by unfold State.modGrid; split <;> rfl
@[simp] theorem State.modGrid_groups (n : Nat) (f : Grid → Grid) : (s.modGrid n f).groups = s.groups := by unfold State.modGrid; split <;> rfl
@[simp] theorem State.modGrid_wgs (n : Nat) (f : Grid → Grid) : (s.modGrid n f).wgs = s.wgs := by unfold State.modGrid; split <;> rfl
@[simp] theorem State.modGrid_saved (n : Nat) (f : Grid → Grid) : (s.modGrid n f).saved = s.saved := by unfold State.modGrid; split <;> rfl
@[simp] theorem State.modGrid_gridIds (n : Nat) (f : Grid → Grid) : (s.modGrid n f).gridIds = s.gridIds := by unfold State.modGrid; split <;> rfl
@[simp] theorem State.modGrid_bars (n : Nat) (f : Grid → Grid) : (s.modGrid n f).bars = s.bars := by unfold State.modGrid; split <;> rfl
@[simp] theorem State.modGrid_lanes (n : Nat) (f : Grid → Grid) : (s.modGrid n f).lanes = s.lanes := by unfold State.modGrid; split <;> rfl
@[simp] theorem State.modGrid_upsets (n : Nat) (f : Grid → Grid) : (s.modGrid n f).upsets = s.upsets := by unfold State.modGrid; split <;> rfl
@[simp] theorem State.modGrid_ctxs (n : Nat) (f : Grid → Grid) : (s.modGrid n f).ctxs = s.ctxs := by unfold State.modGrid; split <;> rfl
@[simp] theorem State.modGrid_queues (n : Nat) (f : Grid → Grid) : (s.modGrid n f).queues = s.queues := by unfold State.modGrid; split <;> rfl
@[simp] theorem State.modGrid_nextQueue (n : Nat) (f : Grid → Grid) : (s.modGrid n f).nextQueue = s.nextQueue := by unfold State.modGrid; split <;> rfl
@[simp] theorem State.modGrid_mem (n : Nat) (f : Grid → Grid) : (s.modGrid n f).mem = s.mem := by unfold State.modGrid; split <;> rfl
@[simp] theorem State.modGrid_poison (n : Nat) (f : Grid → Grid) : (s.modGrid n f).poison = s.poison := by unfold State.modGrid; split <;> rfl
@[simp] theorem State.modGrid_l1 (n : Nat) (f : Grid → Grid) : (s.modGrid n f).l1 = s.l1 := by unfold State.modGrid; split <;> rfl
@[simp] theorem State.modGrid_clu (n : Nat) (f : Grid → Grid) : (s.modGrid n f).clu = s.clu := by unfold State.modGrid; split <;> rfl
@[simp] theorem State.modGrid_l2 (n : Nat) (f : Grid → Grid) : (s.modGrid n f).l2 = s.l2 := by unfold State.modGrid; split <;> rfl
@[simp] theorem State.modGrid_consts (n : Nat) (f : Grid → Grid) : (s.modGrid n f).consts = s.consts := by unfold State.modGrid; split <;> rfl
@[simp] theorem State.modGrid_farDirty (n : Nat) (f : Grid → Grid) : (s.modGrid n f).farDirty = s.farDirty := by unfold State.modGrid; split <;> rfl
@[simp] theorem State.modGrid_writes (n : Nat) (f : Grid → Grid) : (s.modGrid n f).writes = s.writes := by unfold State.modGrid; split <;> rfl
@[simp] theorem State.modGrid_sent (n : Nat) (f : Grid → Grid) : (s.modGrid n f).sent = s.sent := by unfold State.modGrid; split <;> rfl
@[simp] theorem State.modGrid_expPoison (n : Nat) (f : Grid → Grid) : (s.modGrid n f).expPoison = s.expPoison := by unfold State.modGrid; split <;> rfl
@[simp] theorem State.modGrid_tlbs (n : Nat) (f : Grid → Grid) : (s.modGrid n f).tlbs = s.tlbs := by unfold State.modGrid; split <;> rfl
@[simp] theorem State.modGrid_pend (n : Nat) (f : Grid → Grid) : (s.modGrid n f).pend = s.pend := by unfold State.modGrid; split <;> rfl
@[simp] theorem State.modGrid_ovfDue (n : Nat) (f : Grid → Grid) : (s.modGrid n f).ovfDue = s.ovfDue := by unfold State.modGrid; split <;> rfl
@[simp] theorem State.modGrid_dpres (n : Nat) (f : Grid → Grid) : (s.modGrid n f).dpres = s.dpres := by unfold State.modGrid; split <;> rfl
@[simp] theorem State.modGrid_times (n : Nat) (f : Grid → Grid) : (s.modGrid n f).times = s.times := by unfold State.modGrid; split <;> rfl
@[simp] theorem State.modGrid_frame (n : Nat) (f : Grid → Grid) : (s.modGrid n f).frame = s.frame := by unfold State.modGrid; split <;> rfl
@[simp] theorem State.modGrid_qosctl (n : Nat) (f : Grid → Grid) : (s.modGrid n f).qosctl = s.qosctl := by unfold State.modGrid; split <;> rfl
@[simp] theorem State.modGrid_qosq (n : Nat) (f : Grid → Grid) : (s.modGrid n f).qosq = s.qosq := by unfold State.modGrid; split <;> rfl
@[simp] theorem State.modGrid_qosctlNow (n : Nat) (f : Grid → Grid) : (s.modGrid n f).qosctlNow = s.qosctlNow := by unfold State.modGrid; split <;> rfl
@[simp] theorem State.modGrid_qosqNow (n : Nat) (f : Grid → Grid) : (s.modGrid n f).qosqNow = s.qosqNow := by unfold State.modGrid; split <;> rfl
@[simp] theorem State.modGrid_rpcnt (n : Nat) (f : Grid → Grid) : (s.modGrid n f).rpcnt = s.rpcnt := by unfold State.modGrid; split <;> rfl
@[simp] theorem State.modGrid_conv (n : Nat) (f : Grid → Grid) : (s.modGrid n f).conv = s.conv := by unfold State.modGrid; split <;> rfl
@[simp] theorem State.modGrid_samples (n : Nat) (f : Grid → Grid) : (s.modGrid n f).samples = s.samples := by unfold State.modGrid; split <;> rfl
@[simp] theorem State.modGrid_votes (n : Nat) (f : Grid → Grid) : (s.modGrid n f).votes = s.votes := by unfold State.modGrid; split <;> rfl
@[simp] theorem State.modGrid_struck (n : Nat) (f : Grid → Grid) : (s.modGrid n f).struck = s.struck := by unfold State.modGrid; split <;> rfl
@[simp] theorem State.modGrid_macros (n : Nat) (f : Grid → Grid) : (s.modGrid n f).macros = s.macros := by unfold State.modGrid; split <;> rfl
@[simp] theorem State.modGrid_coresOut (n : Nat) (f : Grid → Grid) : (s.modGrid n f).coresOut = s.coresOut := by unfold State.modGrid; split <;> rfl
@[simp] theorem State.modGrid_childCount (n : Nat) (f : Grid → Grid) : (s.modGrid n f).childCount = s.childCount := by unfold State.modGrid; split <;> rfl
@[simp] theorem State.modGrid_copies (n : Nat) (f : Grid → Grid) : (s.modGrid n f).copies = s.copies := by unfold State.modGrid; split <;> rfl
@[simp] theorem State.modGrid_pan (n : Nat) (f : Grid → Grid) : (s.modGrid n f).pan = s.pan := by unfold State.modGrid; split <;> rfl
@[simp] theorem State.modGrid_panPoison (n : Nat) (f : Grid → Grid) : (s.modGrid n f).panPoison = s.panPoison := by unfold State.modGrid; split <;> rfl
@[simp] theorem State.modGrid_panStamps (n : Nat) (f : Grid → Grid) : (s.modGrid n f).panStamps = s.panStamps := by unfold State.modGrid; split <;> rfl
@[simp] theorem State.modGrid_rels (n : Nat) (f : Grid → Grid) : (s.modGrid n f).rels = s.rels := by unfold State.modGrid; split <;> rfl
@[simp] theorem State.modGrid_barClocks (n : Nat) (f : Grid → Grid) : (s.modGrid n f).barClocks = s.barClocks := by unfold State.modGrid; split <;> rfl
@[simp] theorem State.modGrid_landed (n : Nat) (f : Grid → Grid) : (s.modGrid n f).landed = s.landed := by unfold State.modGrid; split <;> rfl
@[simp] theorem State.modGrid_pendRows (n : Nat) (f : Grid → Grid) : (s.modGrid n f).pendRows = s.pendRows := by unfold State.modGrid; split <;> rfl
@[simp] theorem State.modGrid_mxops (n : Nat) (f : Grid → Grid) : (s.modGrid n f).mxops = s.mxops := by unfold State.modGrid; split <;> rfl
@[simp] theorem State.modGrid_latches (n : Nat) (f : Grid → Grid) : (s.modGrid n f).latches = s.latches := by unfold State.modGrid; split <;> rfl
@[simp] theorem State.modGrid_sluBuf (n : Nat) (f : Grid → Grid) : (s.modGrid n f).sluBuf = s.sluBuf := by unfold State.modGrid; split <;> rfl
@[simp] theorem State.modGrid_sluFly (n : Nat) (f : Grid → Grid) : (s.modGrid n f).sluFly = s.sluFly := by unfold State.modGrid; split <;> rfl
@[simp] theorem State.modGrid_sluUsed (n : Nat) (f : Grid → Grid) : (s.modGrid n f).sluUsed = s.sluUsed := by unfold State.modGrid; split <;> rfl
@[simp] theorem State.modGrid_sluRet (n : Nat) (f : Grid → Grid) : (s.modGrid n f).sluRet = s.sluRet := by unfold State.modGrid; split <;> rfl
@[simp] theorem State.modGrid_sluHold (n : Nat) (f : Grid → Grid) : (s.modGrid n f).sluHold = s.sluHold := by unfold State.modGrid; split <;> rfl
@[simp] theorem State.modGrid_migr (n : Nat) (f : Grid → Grid) : (s.modGrid n f).migr = s.migr := by unfold State.modGrid; split <;> rfl
@[simp] theorem State.modGrid_mgcnt (n : Nat) (f : Grid → Grid) : (s.modGrid n f).mgcnt = s.mgcnt := by unfold State.modGrid; split <;> rfl
@[simp] theorem State.modGrid_ports (n : Nat) (f : Grid → Grid) : (s.modGrid n f).ports = s.ports := by unfold State.modGrid; split <;> rfl
@[simp] theorem State.modGrid_host (n : Nat) (f : Grid → Grid) : (s.modGrid n f).host = s.host := by unfold State.modGrid; split <;> rfl
@[simp] theorem State.modGrid_testing (n : Nat) (f : Grid → Grid) : (s.modGrid n f).testing = s.testing := by unfold State.modGrid; split <;> rfl
@[simp] theorem State.modGrid_testedAt (n : Nat) (f : Grid → Grid) : (s.modGrid n f).testedAt = s.testedAt := by unfold State.modGrid; split <;> rfl

/-! ### modCtx: nothing but ctxs changes -/

@[simp] theorem State.modCtx_agenda (n : Nat) (f : Ctx → Ctx) : (s.modCtx n f).agenda = s.agenda := rfl
@[simp] theorem State.modCtx_cur (n : Nat) (f : Ctx → Ctx) : (s.modCtx n f).cur = s.cur := rfl
@[simp] theorem State.modCtx_tick (n : Nat) (f : Ctx → Ctx) : (s.modCtx n f).tick = s.tick := rfl
@[simp] theorem State.modCtx_freeCtr (n : Nat) (f : Ctx → Ctx) : (s.modCtx n f).freeCtr = s.freeCtr := rfl
@[simp] theorem State.modCtx_nextUid (n : Nat) (f : Ctx → Ctx) : (s.modCtx n f).nextUid = s.nextUid := rfl
@[simp] theorem State.modCtx_groups (n : Nat) (f : Ctx → Ctx) : (s.modCtx n f).groups = s.groups := rfl
@[simp] theorem State.modCtx_wgs (n : Nat) (f : Ctx → Ctx) : (s.modCtx n f).wgs = s.wgs := rfl
@[simp] theorem State.modCtx_saved (n : Nat) (f : Ctx → Ctx) : (s.modCtx n f).saved = s.saved := rfl
@[simp] theorem State.modCtx_grids (n : Nat) (f : Ctx → Ctx) : (s.modCtx n f).grids = s.grids := rfl
@[simp] theorem State.modCtx_gridIds (n : Nat) (f : Ctx → Ctx) : (s.modCtx n f).gridIds = s.gridIds := rfl
@[simp] theorem State.modCtx_bars (n : Nat) (f : Ctx → Ctx) : (s.modCtx n f).bars = s.bars := rfl
@[simp] theorem State.modCtx_lanes (n : Nat) (f : Ctx → Ctx) : (s.modCtx n f).lanes = s.lanes := rfl
@[simp] theorem State.modCtx_upsets (n : Nat) (f : Ctx → Ctx) : (s.modCtx n f).upsets = s.upsets := rfl
@[simp] theorem State.modCtx_queues (n : Nat) (f : Ctx → Ctx) : (s.modCtx n f).queues = s.queues := rfl
@[simp] theorem State.modCtx_nextQueue (n : Nat) (f : Ctx → Ctx) : (s.modCtx n f).nextQueue = s.nextQueue := rfl
@[simp] theorem State.modCtx_mem (n : Nat) (f : Ctx → Ctx) : (s.modCtx n f).mem = s.mem := rfl
@[simp] theorem State.modCtx_poison (n : Nat) (f : Ctx → Ctx) : (s.modCtx n f).poison = s.poison := rfl
@[simp] theorem State.modCtx_l1 (n : Nat) (f : Ctx → Ctx) : (s.modCtx n f).l1 = s.l1 := rfl
@[simp] theorem State.modCtx_clu (n : Nat) (f : Ctx → Ctx) : (s.modCtx n f).clu = s.clu := rfl
@[simp] theorem State.modCtx_l2 (n : Nat) (f : Ctx → Ctx) : (s.modCtx n f).l2 = s.l2 := rfl
@[simp] theorem State.modCtx_consts (n : Nat) (f : Ctx → Ctx) : (s.modCtx n f).consts = s.consts := rfl
@[simp] theorem State.modCtx_farDirty (n : Nat) (f : Ctx → Ctx) : (s.modCtx n f).farDirty = s.farDirty := rfl
@[simp] theorem State.modCtx_writes (n : Nat) (f : Ctx → Ctx) : (s.modCtx n f).writes = s.writes := rfl
@[simp] theorem State.modCtx_sent (n : Nat) (f : Ctx → Ctx) : (s.modCtx n f).sent = s.sent := rfl
@[simp] theorem State.modCtx_expPoison (n : Nat) (f : Ctx → Ctx) : (s.modCtx n f).expPoison = s.expPoison := rfl
@[simp] theorem State.modCtx_tlbs (n : Nat) (f : Ctx → Ctx) : (s.modCtx n f).tlbs = s.tlbs := rfl
@[simp] theorem State.modCtx_pend (n : Nat) (f : Ctx → Ctx) : (s.modCtx n f).pend = s.pend := rfl
@[simp] theorem State.modCtx_ovfDue (n : Nat) (f : Ctx → Ctx) : (s.modCtx n f).ovfDue = s.ovfDue := rfl
@[simp] theorem State.modCtx_dpres (n : Nat) (f : Ctx → Ctx) : (s.modCtx n f).dpres = s.dpres := rfl
@[simp] theorem State.modCtx_times (n : Nat) (f : Ctx → Ctx) : (s.modCtx n f).times = s.times := rfl
@[simp] theorem State.modCtx_frame (n : Nat) (f : Ctx → Ctx) : (s.modCtx n f).frame = s.frame := rfl
@[simp] theorem State.modCtx_qosctl (n : Nat) (f : Ctx → Ctx) : (s.modCtx n f).qosctl = s.qosctl := rfl
@[simp] theorem State.modCtx_qosq (n : Nat) (f : Ctx → Ctx) : (s.modCtx n f).qosq = s.qosq := rfl
@[simp] theorem State.modCtx_qosctlNow (n : Nat) (f : Ctx → Ctx) : (s.modCtx n f).qosctlNow = s.qosctlNow := rfl
@[simp] theorem State.modCtx_qosqNow (n : Nat) (f : Ctx → Ctx) : (s.modCtx n f).qosqNow = s.qosqNow := rfl
@[simp] theorem State.modCtx_rpcnt (n : Nat) (f : Ctx → Ctx) : (s.modCtx n f).rpcnt = s.rpcnt := rfl
@[simp] theorem State.modCtx_conv (n : Nat) (f : Ctx → Ctx) : (s.modCtx n f).conv = s.conv := rfl
@[simp] theorem State.modCtx_samples (n : Nat) (f : Ctx → Ctx) : (s.modCtx n f).samples = s.samples := rfl
@[simp] theorem State.modCtx_votes (n : Nat) (f : Ctx → Ctx) : (s.modCtx n f).votes = s.votes := rfl
@[simp] theorem State.modCtx_struck (n : Nat) (f : Ctx → Ctx) : (s.modCtx n f).struck = s.struck := rfl
@[simp] theorem State.modCtx_macros (n : Nat) (f : Ctx → Ctx) : (s.modCtx n f).macros = s.macros := rfl
@[simp] theorem State.modCtx_coresOut (n : Nat) (f : Ctx → Ctx) : (s.modCtx n f).coresOut = s.coresOut := rfl
@[simp] theorem State.modCtx_childCount (n : Nat) (f : Ctx → Ctx) : (s.modCtx n f).childCount = s.childCount := rfl
@[simp] theorem State.modCtx_copies (n : Nat) (f : Ctx → Ctx) : (s.modCtx n f).copies = s.copies := rfl
@[simp] theorem State.modCtx_pan (n : Nat) (f : Ctx → Ctx) : (s.modCtx n f).pan = s.pan := rfl
@[simp] theorem State.modCtx_panPoison (n : Nat) (f : Ctx → Ctx) : (s.modCtx n f).panPoison = s.panPoison := rfl
@[simp] theorem State.modCtx_panStamps (n : Nat) (f : Ctx → Ctx) : (s.modCtx n f).panStamps = s.panStamps := rfl
@[simp] theorem State.modCtx_rels (n : Nat) (f : Ctx → Ctx) : (s.modCtx n f).rels = s.rels := rfl
@[simp] theorem State.modCtx_barClocks (n : Nat) (f : Ctx → Ctx) : (s.modCtx n f).barClocks = s.barClocks := rfl
@[simp] theorem State.modCtx_landed (n : Nat) (f : Ctx → Ctx) : (s.modCtx n f).landed = s.landed := rfl
@[simp] theorem State.modCtx_pendRows (n : Nat) (f : Ctx → Ctx) : (s.modCtx n f).pendRows = s.pendRows := rfl
@[simp] theorem State.modCtx_mxops (n : Nat) (f : Ctx → Ctx) : (s.modCtx n f).mxops = s.mxops := rfl
@[simp] theorem State.modCtx_latches (n : Nat) (f : Ctx → Ctx) : (s.modCtx n f).latches = s.latches := rfl
@[simp] theorem State.modCtx_sluBuf (n : Nat) (f : Ctx → Ctx) : (s.modCtx n f).sluBuf = s.sluBuf := rfl
@[simp] theorem State.modCtx_sluFly (n : Nat) (f : Ctx → Ctx) : (s.modCtx n f).sluFly = s.sluFly := rfl
@[simp] theorem State.modCtx_sluUsed (n : Nat) (f : Ctx → Ctx) : (s.modCtx n f).sluUsed = s.sluUsed := rfl
@[simp] theorem State.modCtx_sluRet (n : Nat) (f : Ctx → Ctx) : (s.modCtx n f).sluRet = s.sluRet := rfl
@[simp] theorem State.modCtx_sluHold (n : Nat) (f : Ctx → Ctx) : (s.modCtx n f).sluHold = s.sluHold := rfl
@[simp] theorem State.modCtx_migr (n : Nat) (f : Ctx → Ctx) : (s.modCtx n f).migr = s.migr := rfl
@[simp] theorem State.modCtx_mgcnt (n : Nat) (f : Ctx → Ctx) : (s.modCtx n f).mgcnt = s.mgcnt := rfl
@[simp] theorem State.modCtx_ports (n : Nat) (f : Ctx → Ctx) : (s.modCtx n f).ports = s.ports := rfl
@[simp] theorem State.modCtx_host (n : Nat) (f : Ctx → Ctx) : (s.modCtx n f).host = s.host := rfl
@[simp] theorem State.modCtx_testing (n : Nat) (f : Ctx → Ctx) : (s.modCtx n f).testing = s.testing := rfl
@[simp] theorem State.modCtx_testedAt (n : Nat) (f : Ctx → Ctx) : (s.modCtx n f).testedAt = s.testedAt := rfl

/-! ### modLane: nothing but lanes changes -/

@[simp] theorem State.modLane_agenda (n : Nat) (f : Lane → Lane) : (s.modLane n f).agenda = s.agenda := rfl
@[simp] theorem State.modLane_cur (n : Nat) (f : Lane → Lane) : (s.modLane n f).cur = s.cur := rfl
@[simp] theorem State.modLane_tick (n : Nat) (f : Lane → Lane) : (s.modLane n f).tick = s.tick := rfl
@[simp] theorem State.modLane_freeCtr (n : Nat) (f : Lane → Lane) : (s.modLane n f).freeCtr = s.freeCtr := rfl
@[simp] theorem State.modLane_nextUid (n : Nat) (f : Lane → Lane) : (s.modLane n f).nextUid = s.nextUid := rfl
@[simp] theorem State.modLane_groups (n : Nat) (f : Lane → Lane) : (s.modLane n f).groups = s.groups := rfl
@[simp] theorem State.modLane_wgs (n : Nat) (f : Lane → Lane) : (s.modLane n f).wgs = s.wgs := rfl
@[simp] theorem State.modLane_saved (n : Nat) (f : Lane → Lane) : (s.modLane n f).saved = s.saved := rfl
@[simp] theorem State.modLane_grids (n : Nat) (f : Lane → Lane) : (s.modLane n f).grids = s.grids := rfl
@[simp] theorem State.modLane_gridIds (n : Nat) (f : Lane → Lane) : (s.modLane n f).gridIds = s.gridIds := rfl
@[simp] theorem State.modLane_bars (n : Nat) (f : Lane → Lane) : (s.modLane n f).bars = s.bars := rfl
@[simp] theorem State.modLane_upsets (n : Nat) (f : Lane → Lane) : (s.modLane n f).upsets = s.upsets := rfl
@[simp] theorem State.modLane_ctxs (n : Nat) (f : Lane → Lane) : (s.modLane n f).ctxs = s.ctxs := rfl
@[simp] theorem State.modLane_queues (n : Nat) (f : Lane → Lane) : (s.modLane n f).queues = s.queues := rfl
@[simp] theorem State.modLane_nextQueue (n : Nat) (f : Lane → Lane) : (s.modLane n f).nextQueue = s.nextQueue := rfl
@[simp] theorem State.modLane_mem (n : Nat) (f : Lane → Lane) : (s.modLane n f).mem = s.mem := rfl
@[simp] theorem State.modLane_poison (n : Nat) (f : Lane → Lane) : (s.modLane n f).poison = s.poison := rfl
@[simp] theorem State.modLane_l1 (n : Nat) (f : Lane → Lane) : (s.modLane n f).l1 = s.l1 := rfl
@[simp] theorem State.modLane_clu (n : Nat) (f : Lane → Lane) : (s.modLane n f).clu = s.clu := rfl
@[simp] theorem State.modLane_l2 (n : Nat) (f : Lane → Lane) : (s.modLane n f).l2 = s.l2 := rfl
@[simp] theorem State.modLane_consts (n : Nat) (f : Lane → Lane) : (s.modLane n f).consts = s.consts := rfl
@[simp] theorem State.modLane_farDirty (n : Nat) (f : Lane → Lane) : (s.modLane n f).farDirty = s.farDirty := rfl
@[simp] theorem State.modLane_writes (n : Nat) (f : Lane → Lane) : (s.modLane n f).writes = s.writes := rfl
@[simp] theorem State.modLane_sent (n : Nat) (f : Lane → Lane) : (s.modLane n f).sent = s.sent := rfl
@[simp] theorem State.modLane_expPoison (n : Nat) (f : Lane → Lane) : (s.modLane n f).expPoison = s.expPoison := rfl
@[simp] theorem State.modLane_tlbs (n : Nat) (f : Lane → Lane) : (s.modLane n f).tlbs = s.tlbs := rfl
@[simp] theorem State.modLane_pend (n : Nat) (f : Lane → Lane) : (s.modLane n f).pend = s.pend := rfl
@[simp] theorem State.modLane_ovfDue (n : Nat) (f : Lane → Lane) : (s.modLane n f).ovfDue = s.ovfDue := rfl
@[simp] theorem State.modLane_dpres (n : Nat) (f : Lane → Lane) : (s.modLane n f).dpres = s.dpres := rfl
@[simp] theorem State.modLane_times (n : Nat) (f : Lane → Lane) : (s.modLane n f).times = s.times := rfl
@[simp] theorem State.modLane_frame (n : Nat) (f : Lane → Lane) : (s.modLane n f).frame = s.frame := rfl
@[simp] theorem State.modLane_qosctl (n : Nat) (f : Lane → Lane) : (s.modLane n f).qosctl = s.qosctl := rfl
@[simp] theorem State.modLane_qosq (n : Nat) (f : Lane → Lane) : (s.modLane n f).qosq = s.qosq := rfl
@[simp] theorem State.modLane_qosctlNow (n : Nat) (f : Lane → Lane) : (s.modLane n f).qosctlNow = s.qosctlNow := rfl
@[simp] theorem State.modLane_qosqNow (n : Nat) (f : Lane → Lane) : (s.modLane n f).qosqNow = s.qosqNow := rfl
@[simp] theorem State.modLane_rpcnt (n : Nat) (f : Lane → Lane) : (s.modLane n f).rpcnt = s.rpcnt := rfl
@[simp] theorem State.modLane_conv (n : Nat) (f : Lane → Lane) : (s.modLane n f).conv = s.conv := rfl
@[simp] theorem State.modLane_samples (n : Nat) (f : Lane → Lane) : (s.modLane n f).samples = s.samples := rfl
@[simp] theorem State.modLane_votes (n : Nat) (f : Lane → Lane) : (s.modLane n f).votes = s.votes := rfl
@[simp] theorem State.modLane_struck (n : Nat) (f : Lane → Lane) : (s.modLane n f).struck = s.struck := rfl
@[simp] theorem State.modLane_macros (n : Nat) (f : Lane → Lane) : (s.modLane n f).macros = s.macros := rfl
@[simp] theorem State.modLane_coresOut (n : Nat) (f : Lane → Lane) : (s.modLane n f).coresOut = s.coresOut := rfl
@[simp] theorem State.modLane_childCount (n : Nat) (f : Lane → Lane) : (s.modLane n f).childCount = s.childCount := rfl
@[simp] theorem State.modLane_copies (n : Nat) (f : Lane → Lane) : (s.modLane n f).copies = s.copies := rfl
@[simp] theorem State.modLane_pan (n : Nat) (f : Lane → Lane) : (s.modLane n f).pan = s.pan := rfl
@[simp] theorem State.modLane_panPoison (n : Nat) (f : Lane → Lane) : (s.modLane n f).panPoison = s.panPoison := rfl
@[simp] theorem State.modLane_panStamps (n : Nat) (f : Lane → Lane) : (s.modLane n f).panStamps = s.panStamps := rfl
@[simp] theorem State.modLane_rels (n : Nat) (f : Lane → Lane) : (s.modLane n f).rels = s.rels := rfl
@[simp] theorem State.modLane_barClocks (n : Nat) (f : Lane → Lane) : (s.modLane n f).barClocks = s.barClocks := rfl
@[simp] theorem State.modLane_landed (n : Nat) (f : Lane → Lane) : (s.modLane n f).landed = s.landed := rfl
@[simp] theorem State.modLane_pendRows (n : Nat) (f : Lane → Lane) : (s.modLane n f).pendRows = s.pendRows := rfl
@[simp] theorem State.modLane_mxops (n : Nat) (f : Lane → Lane) : (s.modLane n f).mxops = s.mxops := rfl
@[simp] theorem State.modLane_latches (n : Nat) (f : Lane → Lane) : (s.modLane n f).latches = s.latches := rfl
@[simp] theorem State.modLane_sluBuf (n : Nat) (f : Lane → Lane) : (s.modLane n f).sluBuf = s.sluBuf := rfl
@[simp] theorem State.modLane_sluFly (n : Nat) (f : Lane → Lane) : (s.modLane n f).sluFly = s.sluFly := rfl
@[simp] theorem State.modLane_sluUsed (n : Nat) (f : Lane → Lane) : (s.modLane n f).sluUsed = s.sluUsed := rfl
@[simp] theorem State.modLane_sluRet (n : Nat) (f : Lane → Lane) : (s.modLane n f).sluRet = s.sluRet := rfl
@[simp] theorem State.modLane_sluHold (n : Nat) (f : Lane → Lane) : (s.modLane n f).sluHold = s.sluHold := rfl
@[simp] theorem State.modLane_migr (n : Nat) (f : Lane → Lane) : (s.modLane n f).migr = s.migr := rfl
@[simp] theorem State.modLane_mgcnt (n : Nat) (f : Lane → Lane) : (s.modLane n f).mgcnt = s.mgcnt := rfl
@[simp] theorem State.modLane_ports (n : Nat) (f : Lane → Lane) : (s.modLane n f).ports = s.ports := rfl
@[simp] theorem State.modLane_host (n : Nat) (f : Lane → Lane) : (s.modLane n f).host = s.host := rfl
@[simp] theorem State.modLane_testing (n : Nat) (f : Lane → Lane) : (s.modLane n f).testing = s.testing := rfl
@[simp] theorem State.modLane_testedAt (n : Nat) (f : Lane → Lane) : (s.modLane n f).testedAt = s.testedAt := rfl

/-! ### modPort: nothing but ports changes -/

@[simp] theorem State.modPort_agenda (n : Nat) (f : Port → Port) : (s.modPort n f).agenda = s.agenda := rfl
@[simp] theorem State.modPort_cur (n : Nat) (f : Port → Port) : (s.modPort n f).cur = s.cur := rfl
@[simp] theorem State.modPort_tick (n : Nat) (f : Port → Port) : (s.modPort n f).tick = s.tick := rfl
@[simp] theorem State.modPort_freeCtr (n : Nat) (f : Port → Port) : (s.modPort n f).freeCtr = s.freeCtr := rfl
@[simp] theorem State.modPort_nextUid (n : Nat) (f : Port → Port) : (s.modPort n f).nextUid = s.nextUid := rfl
@[simp] theorem State.modPort_groups (n : Nat) (f : Port → Port) : (s.modPort n f).groups = s.groups := rfl
@[simp] theorem State.modPort_wgs (n : Nat) (f : Port → Port) : (s.modPort n f).wgs = s.wgs := rfl
@[simp] theorem State.modPort_saved (n : Nat) (f : Port → Port) : (s.modPort n f).saved = s.saved := rfl
@[simp] theorem State.modPort_grids (n : Nat) (f : Port → Port) : (s.modPort n f).grids = s.grids := rfl
@[simp] theorem State.modPort_gridIds (n : Nat) (f : Port → Port) : (s.modPort n f).gridIds = s.gridIds := rfl
@[simp] theorem State.modPort_bars (n : Nat) (f : Port → Port) : (s.modPort n f).bars = s.bars := rfl
@[simp] theorem State.modPort_lanes (n : Nat) (f : Port → Port) : (s.modPort n f).lanes = s.lanes := rfl
@[simp] theorem State.modPort_upsets (n : Nat) (f : Port → Port) : (s.modPort n f).upsets = s.upsets := rfl
@[simp] theorem State.modPort_ctxs (n : Nat) (f : Port → Port) : (s.modPort n f).ctxs = s.ctxs := rfl
@[simp] theorem State.modPort_queues (n : Nat) (f : Port → Port) : (s.modPort n f).queues = s.queues := rfl
@[simp] theorem State.modPort_nextQueue (n : Nat) (f : Port → Port) : (s.modPort n f).nextQueue = s.nextQueue := rfl
@[simp] theorem State.modPort_mem (n : Nat) (f : Port → Port) : (s.modPort n f).mem = s.mem := rfl
@[simp] theorem State.modPort_poison (n : Nat) (f : Port → Port) : (s.modPort n f).poison = s.poison := rfl
@[simp] theorem State.modPort_l1 (n : Nat) (f : Port → Port) : (s.modPort n f).l1 = s.l1 := rfl
@[simp] theorem State.modPort_clu (n : Nat) (f : Port → Port) : (s.modPort n f).clu = s.clu := rfl
@[simp] theorem State.modPort_l2 (n : Nat) (f : Port → Port) : (s.modPort n f).l2 = s.l2 := rfl
@[simp] theorem State.modPort_consts (n : Nat) (f : Port → Port) : (s.modPort n f).consts = s.consts := rfl
@[simp] theorem State.modPort_farDirty (n : Nat) (f : Port → Port) : (s.modPort n f).farDirty = s.farDirty := rfl
@[simp] theorem State.modPort_writes (n : Nat) (f : Port → Port) : (s.modPort n f).writes = s.writes := rfl
@[simp] theorem State.modPort_sent (n : Nat) (f : Port → Port) : (s.modPort n f).sent = s.sent := rfl
@[simp] theorem State.modPort_expPoison (n : Nat) (f : Port → Port) : (s.modPort n f).expPoison = s.expPoison := rfl
@[simp] theorem State.modPort_tlbs (n : Nat) (f : Port → Port) : (s.modPort n f).tlbs = s.tlbs := rfl
@[simp] theorem State.modPort_pend (n : Nat) (f : Port → Port) : (s.modPort n f).pend = s.pend := rfl
@[simp] theorem State.modPort_ovfDue (n : Nat) (f : Port → Port) : (s.modPort n f).ovfDue = s.ovfDue := rfl
@[simp] theorem State.modPort_dpres (n : Nat) (f : Port → Port) : (s.modPort n f).dpres = s.dpres := rfl
@[simp] theorem State.modPort_times (n : Nat) (f : Port → Port) : (s.modPort n f).times = s.times := rfl
@[simp] theorem State.modPort_frame (n : Nat) (f : Port → Port) : (s.modPort n f).frame = s.frame := rfl
@[simp] theorem State.modPort_qosctl (n : Nat) (f : Port → Port) : (s.modPort n f).qosctl = s.qosctl := rfl
@[simp] theorem State.modPort_qosq (n : Nat) (f : Port → Port) : (s.modPort n f).qosq = s.qosq := rfl
@[simp] theorem State.modPort_qosctlNow (n : Nat) (f : Port → Port) : (s.modPort n f).qosctlNow = s.qosctlNow := rfl
@[simp] theorem State.modPort_qosqNow (n : Nat) (f : Port → Port) : (s.modPort n f).qosqNow = s.qosqNow := rfl
@[simp] theorem State.modPort_rpcnt (n : Nat) (f : Port → Port) : (s.modPort n f).rpcnt = s.rpcnt := rfl
@[simp] theorem State.modPort_conv (n : Nat) (f : Port → Port) : (s.modPort n f).conv = s.conv := rfl
@[simp] theorem State.modPort_samples (n : Nat) (f : Port → Port) : (s.modPort n f).samples = s.samples := rfl
@[simp] theorem State.modPort_votes (n : Nat) (f : Port → Port) : (s.modPort n f).votes = s.votes := rfl
@[simp] theorem State.modPort_struck (n : Nat) (f : Port → Port) : (s.modPort n f).struck = s.struck := rfl
@[simp] theorem State.modPort_macros (n : Nat) (f : Port → Port) : (s.modPort n f).macros = s.macros := rfl
@[simp] theorem State.modPort_coresOut (n : Nat) (f : Port → Port) : (s.modPort n f).coresOut = s.coresOut := rfl
@[simp] theorem State.modPort_childCount (n : Nat) (f : Port → Port) : (s.modPort n f).childCount = s.childCount := rfl
@[simp] theorem State.modPort_copies (n : Nat) (f : Port → Port) : (s.modPort n f).copies = s.copies := rfl
@[simp] theorem State.modPort_pan (n : Nat) (f : Port → Port) : (s.modPort n f).pan = s.pan := rfl
@[simp] theorem State.modPort_panPoison (n : Nat) (f : Port → Port) : (s.modPort n f).panPoison = s.panPoison := rfl
@[simp] theorem State.modPort_panStamps (n : Nat) (f : Port → Port) : (s.modPort n f).panStamps = s.panStamps := rfl
@[simp] theorem State.modPort_rels (n : Nat) (f : Port → Port) : (s.modPort n f).rels = s.rels := rfl
@[simp] theorem State.modPort_barClocks (n : Nat) (f : Port → Port) : (s.modPort n f).barClocks = s.barClocks := rfl
@[simp] theorem State.modPort_landed (n : Nat) (f : Port → Port) : (s.modPort n f).landed = s.landed := rfl
@[simp] theorem State.modPort_pendRows (n : Nat) (f : Port → Port) : (s.modPort n f).pendRows = s.pendRows := rfl
@[simp] theorem State.modPort_mxops (n : Nat) (f : Port → Port) : (s.modPort n f).mxops = s.mxops := rfl
@[simp] theorem State.modPort_latches (n : Nat) (f : Port → Port) : (s.modPort n f).latches = s.latches := rfl
@[simp] theorem State.modPort_sluBuf (n : Nat) (f : Port → Port) : (s.modPort n f).sluBuf = s.sluBuf := rfl
@[simp] theorem State.modPort_sluFly (n : Nat) (f : Port → Port) : (s.modPort n f).sluFly = s.sluFly := rfl
@[simp] theorem State.modPort_sluUsed (n : Nat) (f : Port → Port) : (s.modPort n f).sluUsed = s.sluUsed := rfl
@[simp] theorem State.modPort_sluRet (n : Nat) (f : Port → Port) : (s.modPort n f).sluRet = s.sluRet := rfl
@[simp] theorem State.modPort_sluHold (n : Nat) (f : Port → Port) : (s.modPort n f).sluHold = s.sluHold := rfl
@[simp] theorem State.modPort_migr (n : Nat) (f : Port → Port) : (s.modPort n f).migr = s.migr := rfl
@[simp] theorem State.modPort_mgcnt (n : Nat) (f : Port → Port) : (s.modPort n f).mgcnt = s.mgcnt := rfl
@[simp] theorem State.modPort_host (n : Nat) (f : Port → Port) : (s.modPort n f).host = s.host := rfl
@[simp] theorem State.modPort_testing (n : Nat) (f : Port → Port) : (s.modPort n f).testing = s.testing := rfl
@[simp] theorem State.modPort_testedAt (n : Nat) (f : Port → Port) : (s.modPort n f).testedAt = s.testedAt := rfl

/-! ### modHost: nothing but host changes -/

@[simp] theorem State.modHost_agenda (f : HostRegs → HostRegs) : (s.modHost f).agenda = s.agenda := rfl
@[simp] theorem State.modHost_cur (f : HostRegs → HostRegs) : (s.modHost f).cur = s.cur := rfl
@[simp] theorem State.modHost_tick (f : HostRegs → HostRegs) : (s.modHost f).tick = s.tick := rfl
@[simp] theorem State.modHost_freeCtr (f : HostRegs → HostRegs) : (s.modHost f).freeCtr = s.freeCtr := rfl
@[simp] theorem State.modHost_nextUid (f : HostRegs → HostRegs) : (s.modHost f).nextUid = s.nextUid := rfl
@[simp] theorem State.modHost_groups (f : HostRegs → HostRegs) : (s.modHost f).groups = s.groups := rfl
@[simp] theorem State.modHost_wgs (f : HostRegs → HostRegs) : (s.modHost f).wgs = s.wgs := rfl
@[simp] theorem State.modHost_saved (f : HostRegs → HostRegs) : (s.modHost f).saved = s.saved := rfl
@[simp] theorem State.modHost_grids (f : HostRegs → HostRegs) : (s.modHost f).grids = s.grids := rfl
@[simp] theorem State.modHost_gridIds (f : HostRegs → HostRegs) : (s.modHost f).gridIds = s.gridIds := rfl
@[simp] theorem State.modHost_bars (f : HostRegs → HostRegs) : (s.modHost f).bars = s.bars := rfl
@[simp] theorem State.modHost_lanes (f : HostRegs → HostRegs) : (s.modHost f).lanes = s.lanes := rfl
@[simp] theorem State.modHost_upsets (f : HostRegs → HostRegs) : (s.modHost f).upsets = s.upsets := rfl
@[simp] theorem State.modHost_ctxs (f : HostRegs → HostRegs) : (s.modHost f).ctxs = s.ctxs := rfl
@[simp] theorem State.modHost_queues (f : HostRegs → HostRegs) : (s.modHost f).queues = s.queues := rfl
@[simp] theorem State.modHost_nextQueue (f : HostRegs → HostRegs) : (s.modHost f).nextQueue = s.nextQueue := rfl
@[simp] theorem State.modHost_mem (f : HostRegs → HostRegs) : (s.modHost f).mem = s.mem := rfl
@[simp] theorem State.modHost_poison (f : HostRegs → HostRegs) : (s.modHost f).poison = s.poison := rfl
@[simp] theorem State.modHost_l1 (f : HostRegs → HostRegs) : (s.modHost f).l1 = s.l1 := rfl
@[simp] theorem State.modHost_clu (f : HostRegs → HostRegs) : (s.modHost f).clu = s.clu := rfl
@[simp] theorem State.modHost_l2 (f : HostRegs → HostRegs) : (s.modHost f).l2 = s.l2 := rfl
@[simp] theorem State.modHost_consts (f : HostRegs → HostRegs) : (s.modHost f).consts = s.consts := rfl
@[simp] theorem State.modHost_farDirty (f : HostRegs → HostRegs) : (s.modHost f).farDirty = s.farDirty := rfl
@[simp] theorem State.modHost_writes (f : HostRegs → HostRegs) : (s.modHost f).writes = s.writes := rfl
@[simp] theorem State.modHost_sent (f : HostRegs → HostRegs) : (s.modHost f).sent = s.sent := rfl
@[simp] theorem State.modHost_expPoison (f : HostRegs → HostRegs) : (s.modHost f).expPoison = s.expPoison := rfl
@[simp] theorem State.modHost_tlbs (f : HostRegs → HostRegs) : (s.modHost f).tlbs = s.tlbs := rfl
@[simp] theorem State.modHost_pend (f : HostRegs → HostRegs) : (s.modHost f).pend = s.pend := rfl
@[simp] theorem State.modHost_ovfDue (f : HostRegs → HostRegs) : (s.modHost f).ovfDue = s.ovfDue := rfl
@[simp] theorem State.modHost_dpres (f : HostRegs → HostRegs) : (s.modHost f).dpres = s.dpres := rfl
@[simp] theorem State.modHost_times (f : HostRegs → HostRegs) : (s.modHost f).times = s.times := rfl
@[simp] theorem State.modHost_frame (f : HostRegs → HostRegs) : (s.modHost f).frame = s.frame := rfl
@[simp] theorem State.modHost_qosctl (f : HostRegs → HostRegs) : (s.modHost f).qosctl = s.qosctl := rfl
@[simp] theorem State.modHost_qosq (f : HostRegs → HostRegs) : (s.modHost f).qosq = s.qosq := rfl
@[simp] theorem State.modHost_qosctlNow (f : HostRegs → HostRegs) : (s.modHost f).qosctlNow = s.qosctlNow := rfl
@[simp] theorem State.modHost_qosqNow (f : HostRegs → HostRegs) : (s.modHost f).qosqNow = s.qosqNow := rfl
@[simp] theorem State.modHost_rpcnt (f : HostRegs → HostRegs) : (s.modHost f).rpcnt = s.rpcnt := rfl
@[simp] theorem State.modHost_conv (f : HostRegs → HostRegs) : (s.modHost f).conv = s.conv := rfl
@[simp] theorem State.modHost_samples (f : HostRegs → HostRegs) : (s.modHost f).samples = s.samples := rfl
@[simp] theorem State.modHost_votes (f : HostRegs → HostRegs) : (s.modHost f).votes = s.votes := rfl
@[simp] theorem State.modHost_struck (f : HostRegs → HostRegs) : (s.modHost f).struck = s.struck := rfl
@[simp] theorem State.modHost_macros (f : HostRegs → HostRegs) : (s.modHost f).macros = s.macros := rfl
@[simp] theorem State.modHost_coresOut (f : HostRegs → HostRegs) : (s.modHost f).coresOut = s.coresOut := rfl
@[simp] theorem State.modHost_childCount (f : HostRegs → HostRegs) : (s.modHost f).childCount = s.childCount := rfl
@[simp] theorem State.modHost_copies (f : HostRegs → HostRegs) : (s.modHost f).copies = s.copies := rfl
@[simp] theorem State.modHost_pan (f : HostRegs → HostRegs) : (s.modHost f).pan = s.pan := rfl
@[simp] theorem State.modHost_panPoison (f : HostRegs → HostRegs) : (s.modHost f).panPoison = s.panPoison := rfl
@[simp] theorem State.modHost_panStamps (f : HostRegs → HostRegs) : (s.modHost f).panStamps = s.panStamps := rfl
@[simp] theorem State.modHost_rels (f : HostRegs → HostRegs) : (s.modHost f).rels = s.rels := rfl
@[simp] theorem State.modHost_barClocks (f : HostRegs → HostRegs) : (s.modHost f).barClocks = s.barClocks := rfl
@[simp] theorem State.modHost_landed (f : HostRegs → HostRegs) : (s.modHost f).landed = s.landed := rfl
@[simp] theorem State.modHost_pendRows (f : HostRegs → HostRegs) : (s.modHost f).pendRows = s.pendRows := rfl
@[simp] theorem State.modHost_mxops (f : HostRegs → HostRegs) : (s.modHost f).mxops = s.mxops := rfl
@[simp] theorem State.modHost_latches (f : HostRegs → HostRegs) : (s.modHost f).latches = s.latches := rfl
@[simp] theorem State.modHost_sluBuf (f : HostRegs → HostRegs) : (s.modHost f).sluBuf = s.sluBuf := rfl
@[simp] theorem State.modHost_sluFly (f : HostRegs → HostRegs) : (s.modHost f).sluFly = s.sluFly := rfl
@[simp] theorem State.modHost_sluUsed (f : HostRegs → HostRegs) : (s.modHost f).sluUsed = s.sluUsed := rfl
@[simp] theorem State.modHost_sluRet (f : HostRegs → HostRegs) : (s.modHost f).sluRet = s.sluRet := rfl
@[simp] theorem State.modHost_sluHold (f : HostRegs → HostRegs) : (s.modHost f).sluHold = s.sluHold := rfl
@[simp] theorem State.modHost_migr (f : HostRegs → HostRegs) : (s.modHost f).migr = s.migr := rfl
@[simp] theorem State.modHost_mgcnt (f : HostRegs → HostRegs) : (s.modHost f).mgcnt = s.mgcnt := rfl
@[simp] theorem State.modHost_ports (f : HostRegs → HostRegs) : (s.modHost f).ports = s.ports := rfl
@[simp] theorem State.modHost_testing (f : HostRegs → HostRegs) : (s.modHost f).testing = s.testing := rfl
@[simp] theorem State.modHost_testedAt (f : HostRegs → HostRegs) : (s.modHost f).testedAt = s.testedAt := rfl

/-! ### free: nothing but freeCtr changes -/

@[simp] theorem State.free_agenda : s.free.2.agenda = s.agenda := rfl
@[simp] theorem State.free_cur : s.free.2.cur = s.cur := rfl
@[simp] theorem State.free_tick : s.free.2.tick = s.tick := rfl
@[simp] theorem State.free_nextUid : s.free.2.nextUid = s.nextUid := rfl
@[simp] theorem State.free_groups : s.free.2.groups = s.groups := rfl
@[simp] theorem State.free_wgs : s.free.2.wgs = s.wgs := rfl
@[simp] theorem State.free_saved : s.free.2.saved = s.saved := rfl
@[simp] theorem State.free_grids : s.free.2.grids = s.grids := rfl
@[simp] theorem State.free_gridIds : s.free.2.gridIds = s.gridIds := rfl
@[simp] theorem State.free_bars : s.free.2.bars = s.bars := rfl
@[simp] theorem State.free_lanes : s.free.2.lanes = s.lanes := rfl
@[simp] theorem State.free_upsets : s.free.2.upsets = s.upsets := rfl
@[simp] theorem State.free_ctxs : s.free.2.ctxs = s.ctxs := rfl
@[simp] theorem State.free_queues : s.free.2.queues = s.queues := rfl
@[simp] theorem State.free_nextQueue : s.free.2.nextQueue = s.nextQueue := rfl
@[simp] theorem State.free_mem : s.free.2.mem = s.mem := rfl
@[simp] theorem State.free_poison : s.free.2.poison = s.poison := rfl
@[simp] theorem State.free_l1 : s.free.2.l1 = s.l1 := rfl
@[simp] theorem State.free_clu : s.free.2.clu = s.clu := rfl
@[simp] theorem State.free_l2 : s.free.2.l2 = s.l2 := rfl
@[simp] theorem State.free_consts : s.free.2.consts = s.consts := rfl
@[simp] theorem State.free_farDirty : s.free.2.farDirty = s.farDirty := rfl
@[simp] theorem State.free_writes : s.free.2.writes = s.writes := rfl
@[simp] theorem State.free_sent : s.free.2.sent = s.sent := rfl
@[simp] theorem State.free_expPoison : s.free.2.expPoison = s.expPoison := rfl
@[simp] theorem State.free_tlbs : s.free.2.tlbs = s.tlbs := rfl
@[simp] theorem State.free_pend : s.free.2.pend = s.pend := rfl
@[simp] theorem State.free_ovfDue : s.free.2.ovfDue = s.ovfDue := rfl
@[simp] theorem State.free_dpres : s.free.2.dpres = s.dpres := rfl
@[simp] theorem State.free_times : s.free.2.times = s.times := rfl
@[simp] theorem State.free_frame : s.free.2.frame = s.frame := rfl
@[simp] theorem State.free_qosctl : s.free.2.qosctl = s.qosctl := rfl
@[simp] theorem State.free_qosq : s.free.2.qosq = s.qosq := rfl
@[simp] theorem State.free_qosctlNow : s.free.2.qosctlNow = s.qosctlNow := rfl
@[simp] theorem State.free_qosqNow : s.free.2.qosqNow = s.qosqNow := rfl
@[simp] theorem State.free_rpcnt : s.free.2.rpcnt = s.rpcnt := rfl
@[simp] theorem State.free_conv : s.free.2.conv = s.conv := rfl
@[simp] theorem State.free_samples : s.free.2.samples = s.samples := rfl
@[simp] theorem State.free_votes : s.free.2.votes = s.votes := rfl
@[simp] theorem State.free_struck : s.free.2.struck = s.struck := rfl
@[simp] theorem State.free_macros : s.free.2.macros = s.macros := rfl
@[simp] theorem State.free_coresOut : s.free.2.coresOut = s.coresOut := rfl
@[simp] theorem State.free_childCount : s.free.2.childCount = s.childCount := rfl
@[simp] theorem State.free_copies : s.free.2.copies = s.copies := rfl
@[simp] theorem State.free_pan : s.free.2.pan = s.pan := rfl
@[simp] theorem State.free_panPoison : s.free.2.panPoison = s.panPoison := rfl
@[simp] theorem State.free_panStamps : s.free.2.panStamps = s.panStamps := rfl
@[simp] theorem State.free_rels : s.free.2.rels = s.rels := rfl
@[simp] theorem State.free_barClocks : s.free.2.barClocks = s.barClocks := rfl
@[simp] theorem State.free_landed : s.free.2.landed = s.landed := rfl
@[simp] theorem State.free_pendRows : s.free.2.pendRows = s.pendRows := rfl
@[simp] theorem State.free_mxops : s.free.2.mxops = s.mxops := rfl
@[simp] theorem State.free_latches : s.free.2.latches = s.latches := rfl
@[simp] theorem State.free_sluBuf : s.free.2.sluBuf = s.sluBuf := rfl
@[simp] theorem State.free_sluFly : s.free.2.sluFly = s.sluFly := rfl
@[simp] theorem State.free_sluUsed : s.free.2.sluUsed = s.sluUsed := rfl
@[simp] theorem State.free_sluRet : s.free.2.sluRet = s.sluRet := rfl
@[simp] theorem State.free_sluHold : s.free.2.sluHold = s.sluHold := rfl
@[simp] theorem State.free_migr : s.free.2.migr = s.migr := rfl
@[simp] theorem State.free_mgcnt : s.free.2.mgcnt = s.mgcnt := rfl
@[simp] theorem State.free_ports : s.free.2.ports = s.ports := rfl
@[simp] theorem State.free_host : s.free.2.host = s.host := rfl
@[simp] theorem State.free_testing : s.free.2.testing = s.testing := rfl
@[simp] theorem State.free_testedAt : s.free.2.testedAt = s.testedAt := rfl

/-! ### uid: nothing but nextUid changes -/

@[simp] theorem State.uid_agenda : s.uid.2.agenda = s.agenda := rfl
@[simp] theorem State.uid_cur : s.uid.2.cur = s.cur := rfl
@[simp] theorem State.uid_tick : s.uid.2.tick = s.tick := rfl
@[simp] theorem State.uid_freeCtr : s.uid.2.freeCtr = s.freeCtr := rfl
@[simp] theorem State.uid_groups : s.uid.2.groups = s.groups := rfl
@[simp] theorem State.uid_wgs : s.uid.2.wgs = s.wgs := rfl
@[simp] theorem State.uid_saved : s.uid.2.saved = s.saved := rfl
@[simp] theorem State.uid_grids : s.uid.2.grids = s.grids := rfl
@[simp] theorem State.uid_gridIds : s.uid.2.gridIds = s.gridIds := rfl
@[simp] theorem State.uid_bars : s.uid.2.bars = s.bars := rfl
@[simp] theorem State.uid_lanes : s.uid.2.lanes = s.lanes := rfl
@[simp] theorem State.uid_upsets : s.uid.2.upsets = s.upsets := rfl
@[simp] theorem State.uid_ctxs : s.uid.2.ctxs = s.ctxs := rfl
@[simp] theorem State.uid_queues : s.uid.2.queues = s.queues := rfl
@[simp] theorem State.uid_nextQueue : s.uid.2.nextQueue = s.nextQueue := rfl
@[simp] theorem State.uid_mem : s.uid.2.mem = s.mem := rfl
@[simp] theorem State.uid_poison : s.uid.2.poison = s.poison := rfl
@[simp] theorem State.uid_l1 : s.uid.2.l1 = s.l1 := rfl
@[simp] theorem State.uid_clu : s.uid.2.clu = s.clu := rfl
@[simp] theorem State.uid_l2 : s.uid.2.l2 = s.l2 := rfl
@[simp] theorem State.uid_consts : s.uid.2.consts = s.consts := rfl
@[simp] theorem State.uid_farDirty : s.uid.2.farDirty = s.farDirty := rfl
@[simp] theorem State.uid_writes : s.uid.2.writes = s.writes := rfl
@[simp] theorem State.uid_sent : s.uid.2.sent = s.sent := rfl
@[simp] theorem State.uid_expPoison : s.uid.2.expPoison = s.expPoison := rfl
@[simp] theorem State.uid_tlbs : s.uid.2.tlbs = s.tlbs := rfl
@[simp] theorem State.uid_pend : s.uid.2.pend = s.pend := rfl
@[simp] theorem State.uid_ovfDue : s.uid.2.ovfDue = s.ovfDue := rfl
@[simp] theorem State.uid_dpres : s.uid.2.dpres = s.dpres := rfl
@[simp] theorem State.uid_times : s.uid.2.times = s.times := rfl
@[simp] theorem State.uid_frame : s.uid.2.frame = s.frame := rfl
@[simp] theorem State.uid_qosctl : s.uid.2.qosctl = s.qosctl := rfl
@[simp] theorem State.uid_qosq : s.uid.2.qosq = s.qosq := rfl
@[simp] theorem State.uid_qosctlNow : s.uid.2.qosctlNow = s.qosctlNow := rfl
@[simp] theorem State.uid_qosqNow : s.uid.2.qosqNow = s.qosqNow := rfl
@[simp] theorem State.uid_rpcnt : s.uid.2.rpcnt = s.rpcnt := rfl
@[simp] theorem State.uid_conv : s.uid.2.conv = s.conv := rfl
@[simp] theorem State.uid_samples : s.uid.2.samples = s.samples := rfl
@[simp] theorem State.uid_votes : s.uid.2.votes = s.votes := rfl
@[simp] theorem State.uid_struck : s.uid.2.struck = s.struck := rfl
@[simp] theorem State.uid_macros : s.uid.2.macros = s.macros := rfl
@[simp] theorem State.uid_coresOut : s.uid.2.coresOut = s.coresOut := rfl
@[simp] theorem State.uid_childCount : s.uid.2.childCount = s.childCount := rfl
@[simp] theorem State.uid_copies : s.uid.2.copies = s.copies := rfl
@[simp] theorem State.uid_pan : s.uid.2.pan = s.pan := rfl
@[simp] theorem State.uid_panPoison : s.uid.2.panPoison = s.panPoison := rfl
@[simp] theorem State.uid_panStamps : s.uid.2.panStamps = s.panStamps := rfl
@[simp] theorem State.uid_rels : s.uid.2.rels = s.rels := rfl
@[simp] theorem State.uid_barClocks : s.uid.2.barClocks = s.barClocks := rfl
@[simp] theorem State.uid_landed : s.uid.2.landed = s.landed := rfl
@[simp] theorem State.uid_pendRows : s.uid.2.pendRows = s.pendRows := rfl
@[simp] theorem State.uid_mxops : s.uid.2.mxops = s.mxops := rfl
@[simp] theorem State.uid_latches : s.uid.2.latches = s.latches := rfl
@[simp] theorem State.uid_sluBuf : s.uid.2.sluBuf = s.sluBuf := rfl
@[simp] theorem State.uid_sluFly : s.uid.2.sluFly = s.sluFly := rfl
@[simp] theorem State.uid_sluUsed : s.uid.2.sluUsed = s.sluUsed := rfl
@[simp] theorem State.uid_sluRet : s.uid.2.sluRet = s.sluRet := rfl
@[simp] theorem State.uid_sluHold : s.uid.2.sluHold = s.sluHold := rfl
@[simp] theorem State.uid_migr : s.uid.2.migr = s.migr := rfl
@[simp] theorem State.uid_mgcnt : s.uid.2.mgcnt = s.mgcnt := rfl
@[simp] theorem State.uid_ports : s.uid.2.ports = s.ports := rfl
@[simp] theorem State.uid_host : s.uid.2.host = s.host := rfl
@[simp] theorem State.uid_testing : s.uid.2.testing = s.testing := rfl
@[simp] theorem State.uid_testedAt : s.uid.2.testedAt = s.testedAt := rfl

end Sys2Proof.Machine
end

