-- ==== Sys2Proof/Laws/Lane.lean ====
section
/-!
SUPPORT. What the shared operations of a word do: its issuer, its checks (R90), the write of a register (R78, R153) and
going on after a word.
-/

namespace Sys2Proof.Machine

/-! ### The issuer and the checks -/

/-- A word with an issuer has its effect. -/
theorem State.withIss_some {s : State} {I : Iss} (f : Iss → State) (h : s.iss = some I) : s.withIss f = .next (f I) := by
  simp [State.withIss, h]

/-- A word without an issuer stops. -/
theorem State.withIss_none {s : State} (f : Iss → State) (h : s.iss = none) : s.withIss f = .fault .noIssuer := by
  simp [State.withIss, h]

/-- The issuer's group is in the state. -/
theorem State.iss_group {s : State} {I : Iss} (h : s.iss = some I) : mapFind s.groups I.gid = some I.G := by
  unfold State.iss at h
  split at h
  · cases h
  · split at h
    · cases h
    · rename_i G hG
      split at h
      · cases h
      · rename_i S hS
        cases h
        exact hG

/-- The issuer's split is in its group. -/
theorem State.iss_split {s : State} {I : Iss} (h : s.iss = some I) : I.G.split I.sid = some I.S := by
  unfold State.iss at h
  split at h
  · cases h
  · split at h
    · cases h
    · split at h
      · cases h
      · rename_i hS
        cases h
        exact hS

/-- The active mask of a word is the guard's (R81), or the one its wait began with. -/
theorem State.iss_act {s : State} {I : Iss} (h : s.iss = some I) : I.act = I.S.act.getD (guardMask I.G I.S) := by
  unfold State.iss at h
  split at h
  · cases h
  · split at h
    · cases h
    · split at h
      · cases h
      · cases h
        rfl

/-- A word that no wait has let on goes through its checks (R90). -/
theorem Iss.gate_first {I : Iss} (n : Need) (hr : I.S.released = false) (hc : I.S.counted = false) :
    I.gate n = n.gate I.G := by
  simp [Iss.gate, hr, hc]

/-- A word whose wait is over makes no check a second time (R30). -/
theorem Iss.gate_released {I : Iss} (n : Need) (hr : I.S.released = true) :
    I.gate n = if n.mask = 0#32 then .skip else .go := by
  simp [Iss.gate, hr]

/-- A word whose checks let it go has its own effect. -/
theorem State.word_go {s : State} {I : Iss} {n : Need} (e : Bool) (body : State → State) (h : I.gate n = .go) :
    s.word I n e body = body s := by
  simp [State.word, h]

/-- A word with an empty active mask does nothing (R81). -/
theorem State.word_skip {s : State} {I : Iss} {n : Need} (e : Bool) (body : State → State) (h : I.gate n = .skip) :
    s.word I n e body = s.advance I e := by
  simp [State.word, h]

/-- A word that names an empty register waits for it (R34). -/
theorem State.word_wait {s : State} {I : Iss} {n : Need} {rs : List Nat} (e : Bool) (body : State → State)
    (h : I.gate n = .wait rs) : s.word I n e body = s.awaitRegs I rs false := by
  simp [State.word, h]

/-- A word that fails a check raises its fault (R90). -/
theorem State.word_fault {s : State} {I : Iss} {n : Need} {c : Nat} (e : Bool) (body : State → State)
    (h : I.gate n = .fault c) : s.word I n e body = s.raise I (n.flt c) := by
  simp [State.word, h]

/-- A boundary word whose checks let it go, with no transaction open, has its own effect. -/
theorem State.boundaryWord_go {s : State} {I : Iss} {n : Need} (e : Bool) (body : State → State) (h : I.gate n = .go)
    (ht : I.inTx n.mask = false) : s.boundaryWord I n e body = body s := by
  simp [State.boundaryWord, State.boundaryOnly, h, ht]

/-- A boundary word that fails a check raises its fault, before its boundary (R43, R90). -/
theorem State.boundaryOnly_fault {s : State} {I : Iss} {n : Need} {c : Nat} (e : Bool) (body : State → State)
    (h : I.gate n = .fault c) : s.boundaryOnly I n e body = s.raise I (n.flt c) := by
  simp [State.boundaryOnly, h]

/-- A boundary word that names an empty register waits for it (R34). -/
theorem State.boundaryOnly_wait {s : State} {I : Iss} {n : Need} {rs : List Nat} (e : Bool) (body : State → State)
    (h : I.gate n = .wait rs) : s.boundaryOnly I n e body = s.awaitRegs I rs false := by
  simp [State.boundaryOnly, h]

/-- A boundary word with an empty active mask is its boundary and no more (R81). -/
theorem State.boundaryOnly_skip {s : State} {I : Iss} {n : Need} (e : Bool) (body : State → State) (h : I.gate n = .skip) :
    s.boundaryOnly I n e body = s.atBoundary I fun s => s.newRegion I e := by
  simp [State.boundaryOnly, h]

/-! ### Changing a group -/

/-- A group that exists takes its change. -/
theorem State.modGroup_some {s : State} {gid : Nat} {g : Group} (f : Group → Group) (h : mapFind s.groups gid = some g) :
    s.modGroup gid f = { s with groups := mapSet s.groups gid (f g) } := by
  simp [State.modGroup, h]

/-- The group that was changed. -/
theorem State.modGroup_find {s : State} {gid : Nat} {g : Group} (f : Group → Group) (h : mapFind s.groups gid = some g) :
    mapFind (s.modGroup gid f).groups gid = some (f g) := by
  simp [State.modGroup_some f h]

/-- Every other group stays as it was. -/
theorem State.modGroup_find_ne (s : State) {gid k : Nat} (f : Group → Group) (h : k ≠ gid) :
    mapFind (s.modGroup gid f).groups k = mapFind s.groups k := by
  unfold State.modGroup
  split
  · simp [mapFind_mapSet_ne _ _ h]
  · rfl

variable (g : Group)

/-! ### Registers (R78, R153) -/

/-- Going on after a word changes no register. -/
@[simp] theorem Group.advance_reg (sid : Nat) (e : Bool) (n : Nat) : (g.advance sid e).reg n = g.reg n := by
  unfold Group.reg; rw [Group.advance_regs]

/-- Going on after a word changes no operand. -/
@[simp] theorem Group.advance_op (sid : Nat) (e : Bool) (o : Opnd) (t : Nat) : (g.advance sid e).op o t = g.op o t := by
  unfold Group.op Group.data Group.pairVal Group.val; simp only [Group.advance_reg]

/-- Going on after a word changes no predicate. -/
@[simp] theorem Group.advance_pred (sid : Nat) (e : Bool) (p t : Nat) : (g.advance sid e).pred p t = g.pred p t := by
  unfold Group.pred; rw [Group.advance_preds]

/-- g0 discards writes (R78). -/
@[simp] theorem Group.putReg_zero (r : Reg) : g.putReg 0 r = g := rfl

/-- g0 discards writes (R78). -/
@[simp] theorem Group.write_zero (m : Mask) (f : Nat → Word) (d : Tag) : g.write 0 m f d = g := rfl

/-- A register that has been stored reads as it was stored; every other register is unchanged (R78). -/
theorem Group.reg_putReg (n k : Nat) (r : Reg) (hn : n ≠ 0) : (g.putReg n r).reg k = if k = n then r else g.reg k := by
  unfold Group.putReg Group.reg
  by_cases hk : k = 0
  · subst hk; simp [Ne.symm hn]
  · simp [hn, hk, mapGet_mapSet]

/-- Thirty-two values written under a mask, read back. -/
theorem mergeVals_getD (m : Mask) (f : Nat → Word) (old : Vals) (t : Nat) (h : t < 32) :
    (mergeVals m f old).getD t 0#32 = if m.getLsbD t then f t else old.getD t 0#32 := by
  simp [mergeVals, List.getD_eq_getElem?_getD, h]

/-- Noting a later write changes no register. -/
@[simp] theorem Group.reg_note (n k : Nat) (m : Mask) : (g.note n m).reg k = g.reg k := rfl

/-- The pair tag of an even register may go when its odd register is written alone (R151); no value does. -/
theorem Group.reg_splitPair (n k : Nat) :
    ((g.splitPair n).reg k).vals = (g.reg k).vals ∧ ((g.splitPair n).reg k).full = (g.reg k).full ∧
      (k = n → (g.splitPair n).reg k = g.reg k) := by
  unfold Group.splitPair
  split
  · split
    · rename_i h st ht
      by_cases hk : k = 0
      · subst hk; exact ⟨rfl, rfl, fun _ => rfl⟩
      · by_cases hm : k = n - 1
        · subst hm
          simp [Group.reg, hk, mapGet_mapSet]
          omega
        · simp [Group.reg, hk, mapGet_mapSet, hm]
    · exact ⟨rfl, rfl, fun _ => rfl⟩
  · exact ⟨rfl, rfl, fun _ => rfl⟩

/-- Every field of a group but its registers and the notes of later writes survives the write of a register. -/
theorem Group.write_same (n : Nat) (m : Mask) (f : Nat → Word) (d : Tag) :
    g.write n m f d =
      { g with
        regs := (g.write n m f d).regs
        written := (g.write n m f d).written
        fresh := (g.write n m f d).fresh } := by
  unfold Group.write
  split
  · rfl
  · unfold Group.putReg Group.note Group.splitPair
    split <;> first | rfl | (split <;> first | rfl | (split <;> rfl))

/-- A write of one register: its values under the mask, that it is full, and its tag (R153). -/
theorem Group.reg_write_self (n : Nat) (m : Mask) (f : Nat → Word) (d : Tag) (hn : n ≠ 0) :
    (g.write n m f d).reg n =
      { vals := mergeVals m f (g.reg n).vals, full := true,
        tag := mergeTag m d (g.reg n).tag (baseOf d (lowest m) (f (lowest m)) == (g.reg n).vals.getD 0 0#32) } := by
  have h := (g.reg_splitPair n n).2.2 rfl
  simp [Group.write, hn, Group.reg_putReg _ _ _ _ hn, h]

/-- A write of one register leaves the values of every other one alone. -/
theorem Group.reg_write_ne (n k : Nat) (m : Mask) (f : Nat → Word) (d : Tag) (hk : k ≠ n) :
    ((g.write n m f d).reg k).vals = (g.reg k).vals ∧ ((g.write n m f d).reg k).full = (g.reg k).full := by
  by_cases hn : n = 0
  · subst hn; exact ⟨rfl, rfl⟩
  · have h := g.reg_splitPair n k
    simp [Group.write, hn, Group.reg_putReg _ _ _ _ hn, hk, h]

/-- A write of one register leaves the tag of every other one alone, but for the even register of the pair whose odd one it writes. -/
theorem Group.tag_write_ne (n k : Nat) (m : Mask) (f : Nat → Word) (d : Tag) (hk : k ≠ n) (hn : n ≠ 0) :
    ((g.write n m f d).reg k).tag = match (g.reg k).tag with
      | .affine64 s => if n % 2 = 1 ∧ k + 1 = n then .ofStride (s.extractLsb' 0 32) else (g.reg k).tag
      | _ => (g.reg k).tag := by
  have hs : ((g.write n m f d).reg k).tag = ((g.splitPair n).reg k).tag := by
    simp [Group.write, hn, Group.reg_putReg _ _ _ _ hn, hk]
  rw [hs]
  unfold Group.splitPair
  by_cases ho : n % 2 = 1
  · rw [if_pos ho]
    by_cases hk1 : k + 1 = n
    · have hkn : n - 1 = k := by omega
      rw [hkn]
      cases ht : (g.reg k).tag <;> simp [ht, ho, hk1]
      by_cases hk0 : k = 0
      · subst hk0; simp [Group.reg, Reg.zero] at ht
      · simp [Group.reg, hk0, mapGet_mapSet]
    · have : ∀ x : Group, x = g ∨ (∃ r, x = { g with regs := mapSet g.regs (n - 1) r }) → (x.reg k).tag = (g.reg k).tag := by
        rintro x (rfl | ⟨r, rfl⟩)
        · rfl
        · by_cases hk0 : k = 0
          · subst hk0; rfl
          · simp [Group.reg, hk0, mapGet_mapSet, show k ≠ n - 1 by omega]
      rw [this _ (by split <;> first | exact .inl rfl | exact .inr ⟨_, rfl⟩)]
      split <;> simp_all
  · rw [if_neg ho]
    split <;> simp_all

/-- Every field of a group but its registers and the notes of later writes survives the write of a pair. -/
theorem Group.writePair_same (n : Nat) (m : Mask) (f : Nat → DWord) (d : Tag) :
    g.writePair n m f d =
      { g with
        regs := (g.writePair n m f d).regs
        written := (g.writePair n m f d).written
        fresh := (g.writePair n m f d).fresh } := by
  unfold Group.writePair
  split
  · rfl
  · unfold Group.putReg Group.note
    simp_all

/-- A write of a pair: both registers (R73). -/
theorem Group.reg_writePair (n k : Nat) (m : Mask) (f : Nat → DWord) (d : Tag) (hn : n ≠ 0) :
    ((g.writePair n m f d).reg k).vals =
        (if k = n then mergeVals m (fun t => (f t).extractLsb' 0 32) (g.reg n).vals
         else if k = n + 1 then mergeVals m (fun t => (f t).extractLsb' 32 32) (g.reg (n + 1)).vals
         else (g.reg k).vals) ∧
      ((g.writePair n m f d).reg k).full = (decide (k = n) || decide (k = n + 1) || (g.reg k).full) := by
  unfold Group.writePair
  simp only [hn, if_false]
  rw [Group.reg_putReg _ _ _ _ (by omega : n + 1 ≠ 0), Group.reg_putReg _ _ _ _ hn]
  by_cases h1 : k = n
  · subst h1; simp
  · by_cases h2 : k = n + 1
    · subst h2; simp
    · simp [h1, h2]

/-- The tag of the even register of a pair after it has been written (R153). -/
theorem Group.tag_writePair_lo (n : Nat) (m : Mask) (f : Nat → DWord) (d : Tag) (hn : n ≠ 0) :
    ((g.writePair n m f d).reg n).tag =
      let b : DWord := match d with | .affine64 s => f (lowest m) - s * BitVec.ofNat 64 (lowest m) | _ => f (lowest m)
      mergeTag m d (g.reg n).tag (b.extractLsb' 0 32 == (g.reg n).vals.getD 0 0#32 &&
        (d == .uniform || b.extractLsb' 32 32 == (g.reg (n + 1)).vals.getD 0 0#32)) := by
  unfold Group.writePair
  simp only [hn, if_false]
  rw [Group.reg_putReg _ _ _ _ (by omega : n + 1 ≠ 0), Group.reg_putReg _ _ _ _ hn]
  cases d <;> simp

/-- The tag of the odd register of a pair after it has been written (R151, R153). -/
theorem Group.tag_writePair_hi (n : Nat) (m : Mask) (f : Nat → DWord) (d : Tag) (hn : n ≠ 0) :
    ((g.writePair n m f d).reg (n + 1)).tag =
      let b : DWord := match d with | .affine64 s => f (lowest m) - s * BitVec.ofNat 64 (lowest m) | _ => f (lowest m)
      mergeTag m (if d = .uniform then .uniform else .general) (g.reg (n + 1)).tag
        (b.extractLsb' 32 32 == (g.reg (n + 1)).vals.getD 0 0#32) := by
  unfold Group.writePair
  simp only [hn, if_false]
  rw [Group.reg_putReg _ _ _ _ (by omega : n + 1 ≠ 0)]
  cases d <;> simp

/-- A write of a pair leaves the tag of every other register alone. -/
theorem Group.tag_writePair_ne (n k : Nat) (m : Mask) (f : Nat → DWord) (d : Tag) (h0 : k ≠ n) (h1 : k ≠ n + 1) :
    ((g.writePair n m f d).reg k).tag = (g.reg k).tag := by
  unfold Group.writePair
  by_cases hn : n = 0
  · rw [if_pos hn]
  · simp only [hn, if_false]
    rw [Group.reg_putReg _ _ _ _ (by omega : n + 1 ≠ 0), Group.reg_putReg _ _ _ _ hn]
    simp [h0, h1]

end Sys2Proof.Machine
end

