-- ==== Sys2Proof/Laws/Memory.lean ====
section
/-!
SUPPORT. The canonical form of memory: every operation that writes memory keeps it, and the memory after reset has it.
-/

namespace Sys2Proof.Machine

/-- Memory that lies above a bound also lies above any lower one. -/
theorem cellsAbove_weaken {b c : Nat} (h : c ≤ b) : ∀ {m : List Host.Cell}, cellsAbove (some b) m = true → cellsAbove (some c) m = true
  | [], _ => rfl
  | (a, v) :: r, hm => by
    simp only [cellsAbove, Bool.and_eq_true, decide_eq_true_eq] at hm ⊢
    exact ⟨⟨by omega, hm.1.2⟩, hm.2⟩

/-- Memory that lies above a bound is canonical. -/
theorem cellsAbove_none {b : Nat} : ∀ {m : List Host.Cell}, cellsAbove (some b) m = true → cellsAbove none m = true
  | [], _ => rfl
  | (a, v) :: r, hm => by
    simp only [cellsAbove, Bool.and_eq_true, decide_eq_true_eq] at hm ⊢
    exact ⟨⟨trivial, hm.1.2⟩, hm.2⟩

/-- A write above a bound keeps memory above it. -/
theorem cellsAbove_writeCell {b a : Nat} {v : Byte} (hb : b < a) :
    ∀ {m : List Host.Cell}, cellsAbove (some b) m = true → cellsAbove (some b) (writeCell m a v) = true := by
  intro m
  induction m generalizing b with
  | nil =>
    intro _
    by_cases hv : v = unlistedByte <;> simp [writeCell, cellsAbove, hv, hb]
  | cons x r ih =>
    obtain ⟨a', v'⟩ := x
    intro hm
    have hm' := hm
    simp only [cellsAbove, Bool.and_eq_true, decide_eq_true_eq] at hm
    obtain ⟨⟨h1, h2⟩, h3⟩ := hm
    unfold writeCell
    by_cases hlt : a < a'
    · by_cases hv : v = unlistedByte
      · simp [hlt, hv, hm']
      · simp [hlt, hv, cellsAbove, hb, h3, h2]
    · by_cases he : a' = a
      · subst he
        by_cases hv : v = unlistedByte
        · simp [hv]
          exact cellsAbove_weaken (by omega) h3
        · simp [hv, cellsAbove, hb, h3]
      · have : a' < a := by omega
        have h := ih this h3
        simp only [hlt, he, if_false, cellsAbove, Bool.and_eq_true, decide_eq_true_eq]
        exact ⟨⟨h1, h2⟩, h⟩

/-- Writing a byte keeps the canonical form. -/
theorem wf_writeCell {m : List Host.Cell} (h : Memory.wf m) (a : Nat) (v : Byte) : Memory.wf (writeCell m a v) := by
  cases m with
  | nil => by_cases hv : v = unlistedByte <;> simp [Memory.wf, writeCell, cellsAbove, hv]
  | cons x r =>
    obtain ⟨a', v'⟩ := x
    have h' := h
    simp only [Memory.wf, cellsAbove, Bool.and_eq_true] at h
    obtain ⟨⟨_, h2⟩, h3⟩ := h
    unfold writeCell
    by_cases hlt : a < a'
    · by_cases hv : v = unlistedByte
      · simpa [hlt, hv] using h'
      · simp [Memory.wf, hlt, hv, cellsAbove, h3]
        simpa using h2
    · by_cases he : a' = a
      · subst he
        by_cases hv : v = unlistedByte
        · simp [Memory.wf, hv]
          exact cellsAbove_none h3
        · simp [Memory.wf, hv, cellsAbove, h3]
      · simp only [Memory.wf, hlt, he, if_false, cellsAbove, Bool.and_eq_true]
        exact ⟨⟨trivial, h2⟩, cellsAbove_writeCell (by omega) h3⟩

/-- Writing bytes keeps the canonical form. -/
theorem wf_writeBytes (n : Nat) : ∀ {m : List Host.Cell}, Memory.wf m → ∀ a v, Memory.wf (writeBytes m a v n) := by
  induction n with
  | zero => intro m h a v; exact h
  | succ n ih => intro m h a v; exact ih (wf_writeCell h a _) _ _

/-- Writing a word keeps the canonical form. -/
theorem wf_writeWord {m : List Host.Cell} (h : Memory.wf m) (a : Nat) (v : Word) : Memory.wf (writeWord m a v) :=
  wf_writeBytes 4 h a _

/-- Memory after reset is canonical: it lists nothing. -/
theorem wf_reset : Memory.wf State.reset.mem := by decide

/-- An address that lies below everything listed reads as an unlisted one. -/
theorem readCell_below {b a : Nat} (h : a ≤ b) : ∀ {m : List Host.Cell}, cellsAbove (some b) m = true → readCell m a = unlistedByte
  | [], _ => rfl
  | (a', v) :: r, hm => by
    simp only [cellsAbove, Bool.and_eq_true, decide_eq_true_eq] at hm
    have hne : a' ≠ a := by omega
    simp only [readCell, if_neg hne]
    exact readCell_below (by omega : a ≤ a') hm.2

end Sys2Proof.Machine
end

