-- ==== Sys2Proof/Laws/Result.lean ====
section
/-!
SUPPORT. What the write of a word's result leaves behind: the destination in the active threads, and nothing else.
-/

namespace Sys2Proof.Machine

/-- Every field of a group but its splits and its deferred paths survives a run boundary. -/
theorem Group.boundary_same (g : Group) (sid : Nat) :
    g.boundary sid = { g with splits := (g.boundary sid).splits, stack := (g.boundary sid).stack } := by
  unfold Group.boundary
  cases g.split sid <;> rfl

/-- A run boundary looks at a group's splits and deferred paths alone. -/
theorem Group.boundary_congr {g h : Group} (sid : Nat) (h1 : g.splits = h.splits) (h2 : g.stack = h.stack) :
    (g.boundary sid).splits = (h.boundary sid).splits ∧ (g.boundary sid).stack = (h.boundary sid).stack := by
  have hp : g.split sid = h.split sid := by unfold Group.split; rw [h1]
  unfold Group.boundary Group.modSplit
  rw [hp]
  cases h.split sid with
  | none => exact ⟨h1, h2⟩
  | some p => dsimp only; rw [h1, h2]; exact ⟨rfl, rfl⟩

/-- Every field of a group but its splits, its deferred paths and its count of words survives its going on. -/
theorem Group.advance_same (g : Group) (sid : Nat) (e : Bool) :
    g.advance sid e =
      { g with
        splits := (g.advance sid e).splits
        stack := (g.advance sid e).stack
        executed := (g.advance sid e).executed } := by
  unfold Group.advance
  dsimp only
  split
  · split
    · rw [Group.boundary_same]; rfl
    · rfl
  · rfl

/-- Going on looks at a group's splits, deferred paths and count of words alone. -/
theorem Group.advance_congr {g h : Group} (sid : Nat) (e : Bool) (h1 : g.splits = h.splits) (h2 : g.stack = h.stack)
    (h3 : g.executed = h.executed) : (g.advance sid e).splits = (h.advance sid e).splits ∧
      (g.advance sid e).stack = (h.advance sid e).stack ∧ (g.advance sid e).executed = (h.advance sid e).executed := by
  have hp : g.split sid = h.split sid := by unfold Group.split; rw [h1]
  have hb : ∀ (x y : Group), x.executed = y.executed → (x.boundary sid).executed = (y.boundary sid).executed := by
    intro x y hx; rw [x.boundary_same, y.boundary_same]; exact hx
  unfold Group.advance
  dsimp only
  rw [hp]
  split
  · split
    · refine ⟨(boundary_congr sid ?_ ?_).1, (boundary_congr sid ?_ ?_).2, hb _ _ ?_⟩ <;>
        simp [Group.modSplit, h1, h2, h3]
    · simp [Group.modSplit, h1, h2, h3]
  · simp [Group.modSplit, h1, h2, h3]

/-- A group differs from an earlier one in nothing but what a word of the lanes changes. -/
theorem SameGroup.intro {g old h : Group} (e : Bool) (sid : Nat)
    (hh : h = { old with regs := h.regs, preds := h.preds, written := h.written, fresh := h.fresh }) (hg : g = h.advance sid e) :
    SameGroup g old := by
  subst hg
  unfold SameGroup
  rw [h.advance_same sid e]
  generalize (h.advance sid e).splits = a
  generalize (h.advance sid e).stack = b
  generalize (h.advance sid e).executed = c
  rw [hh]

/-- A group that differs from an earlier one in its registers and predicates alone goes on as the earlier one does. -/
theorem Group.WentOn.intro {I : Iss} {h : Group} (e : Bool)
    (hh : h = { I.G with regs := h.regs, preds := h.preds, written := h.written, fresh := h.fresh }) :
    (h.advance I.sid e).WentOn I e := by
  have h1 : h.splits = I.G.splits := by rw [hh]
  have h2 : h.stack = I.G.stack := by rw [hh]
  have h3 : h.executed = I.G.executed := by rw [hh]
  exact Group.advance_congr I.sid e h1 h2 h3

/-- A change of one group changes nothing else. -/
theorem OnlyGroup.of_modGroup (s : State) (I : Iss) (f : Group → Group) : OnlyGroup s (s.modGroup I.gid f) I where
  others k hk := s.modGroup_find_ne f hk
  lanes l _ := by simp [State.lane]
  lane := by simp [State.lane]
  rest := by unfold State.modGroup; split <;> rfl

/-- The pair of a group after it has been written. -/
theorem Group.pairVal_writePair (g : Group) (n : Nat) (m : Mask) (f : Nat → DWord) (d : Tag) (hn : n ≠ 0) (x : Nat)
    (hx : x < 32) : (g.writePair n m f d).pairVal n x = if m.getLsbD x then f x else g.pairVal n x := by
  have h0 := (g.reg_writePair n n m f d hn).1
  have h1 := (g.reg_writePair n (n + 1) m f d hn).1
  rw [if_pos rfl] at h0
  rw [if_neg (by omega), if_pos rfl] at h1
  unfold Group.pairVal Group.val
  rw [if_neg hn, if_neg hn, h0, h1, mergeVals_getD _ _ _ _ hx, mergeVals_getD _ _ _ _ hx]
  by_cases hm : m.getLsbD x = true
  · rw [if_pos hm, if_pos hm, if_pos hm]
    apply BitVec.eq_of_getLsbD_eq
    intro i hi
    rw [BitVec.getLsbD_append]
    by_cases h : i < 32
    · simp [h]
    · simp [h, show i - 32 < 32 by omega, show 32 + (i - 32) = i by omega]
  · rw [if_neg hm, if_neg hm, if_neg hm]

/-- A data operand that has been written reads as it was written in the threads of the mask. -/
theorem Group.op_writeData (g : Group) (o : Opnd) (m : Mask) (f : Nat → Nat) (d : Tag) (hc : o.cnt = 1 ∨ o.cnt = 2)
    (hn : o.n ≠ 0) (x : Nat) (hx : x < 32) :
    (g.writeData (o.cnt == 2) o.n m f d).op o x =
      if m.getLsbD x then f x % 2 ^ (if o.cnt = 2 then 64 else 32) else g.op o x := by
  unfold Group.op Group.data Group.writeData
  rcases hc with hc | hc <;> rw [hc]
  · have h1 : ((1 : Nat) == 2) = false := rfl
    have h2 : ¬ (1 : Nat) = 2 := by decide
    simp only [h1, h2, Bool.false_eq_true, if_false]
    unfold Group.val
    rw [g.reg_write_self o.n m _ d hn, mergeVals_getD _ _ _ _ hx]
    split
    · rw [BitVec.toNat_ofNat]
    · rfl
  · have h1 : ((2 : Nat) == 2) = true := rfl
    simp only [h1, if_true]
    rw [g.pairVal_writePair o.n m _ d hn x hx]
    split
    · rw [BitVec.toNat_ofNat]
    · rfl

/-- The registers of a data operand are full once it has been written. -/
theorem Group.full_writeData (g : Group) (o : Opnd) (m : Mask) (f : Nat → Nat) (d : Tag) (hc : o.cnt = 1 ∨ o.cnt = 2)
    (n : Nat) (hm : n ∈ o.regs) : ((g.writeData (o.cnt == 2) o.n m f d).reg n).full = true := by
  unfold Opnd.regs regsFrom at hm
  by_cases hn : o.n = 0
  · rw [if_pos hn] at hm; exact absurd hm List.not_mem_nil
  · rw [if_neg hn, List.mem_map] at hm
    obtain ⟨i, hi, rfl⟩ := hm
    rw [List.mem_range] at hi
    unfold Group.writeData
    rcases hc with hc | hc <;> rw [hc] at hi ⊢
    · obtain rfl : i = 0 := by omega
      rw [if_neg (by decide), Nat.add_zero, g.reg_write_self o.n m _ d hn]
    · rw [if_pos (by decide), (g.reg_writePair o.n (o.n + i) m _ d hn).2]
      have : i = 0 ∨ i = 1 := by omega
      rcases this with rfl | rfl <;> simp

/-- What the merge of a derived tag and an old one gives (R153). -/
theorem tagMerged_mergeTag {m : Mask} {d old : Tag} {p : Prop} {b : Bool} (h : d = old → d ≠ .general → (b = true ↔ p)) :
    TagMerged m d old p (mergeTag m d old b) := by
  unfold TagMerged mergeTag
  refine ⟨fun hm => by rw [if_pos hm], fun hm h0 => ?_⟩
  rw [if_neg hm, if_neg h0]
  by_cases hd : d = old
  · by_cases hg : d = .general
    · subst hg; subst hd; simp
    · have := h hd hg
      cases b <;> simp_all
  · simp [hd]

/-- The base of a register's tag is the low half of what 64 bits give. -/
theorem low_baseFrom (d : Tag) (t v : Nat) :
    (baseFrom ((1 : Nat) == 2) d t (BitVec.ofNat 64 v)).extractLsb' 0 32 = baseOf d t (BitVec.ofNat 32 v) := by
  have hl : ∀ x : DWord, x.extractLsb' 0 32 = x.setWidth 32 := fun x => by
    apply BitVec.eq_of_getLsbD_eq; intro i hi; simp
  have hn : ∀ k, (BitVec.ofNat 64 k).setWidth 32 = BitVec.ofNat 32 k := fun k => by
    apply BitVec.eq_of_toNat_eq; simp
  have hs : ∀ a b : DWord, (a - b).setWidth 32 = a.setWidth 32 - b.setWidth 32 := fun a b => by
    apply BitVec.eq_of_toNat_eq; simp [BitVec.toNat_sub]; omega
  unfold baseFrom baseOf
  rw [hl]
  cases d with
  | affine s =>
    show (BitVec.ofNat 64 v - BitVec.signExtend 64 s * BitVec.ofNat 64 t).setWidth 32 = _
    rw [hs, BitVec.setWidth_mul _ _ (by omega), hn, hn]
    congr 2
    apply BitVec.eq_of_getLsbD_eq
    intro i hi
    simp [BitVec.getLsbD_signExtend, hi]
    omega
  | _ => exact hn v

/-- The tag of a data operand that has been written. -/
theorem Group.tag_writeData (r : Row) (I : Iss) (hc : r.dst.cnt = 1 ∨ r.dst.cnt = 2) (hn : r.dst.n ≠ 0) :
    TagMerged I.act r.tag (I.G.reg r.dst.n).tag (r.SameBase I)
      ((I.G.writeData (r.dst.cnt == 2) r.dst.n I.act r.val r.tag).reg r.dst.n).tag := by
  unfold Group.writeData Row.SameBase
  rcases hc with hc | hc <;> rw [hc]
  · rw [if_neg (by decide), I.G.reg_write_self r.dst.n _ _ r.tag hn]
    refine tagMerged_mergeTag fun _ _ => ?_
    dsimp only
    rw [low_baseFrom, beq_iff_eq]
    exact ⟨fun h => ⟨h, fun h => absurd h (by decide)⟩, fun h => h.1⟩
  · rw [if_pos (by decide), I.G.tag_writePair_lo r.dst.n _ _ r.tag hn]
    refine tagMerged_mergeTag fun _ _ => ?_
    cases ht : r.tag <;> simp [baseFrom]

/-- The tag of the odd register of a pair that has been written. -/
theorem Group.tag_writeData_odd (r : Row) (I : Iss) (hc : r.dst.cnt = 2) (hn : r.dst.n ≠ 0) :
    TagMerged I.act (if r.tag = .uniform then .uniform else .general) (I.G.reg (r.dst.n + 1)).tag (r.SameOdd I)
      ((I.G.writeData (r.dst.cnt == 2) r.dst.n I.act r.val r.tag).reg (r.dst.n + 1)).tag := by
  have hw : (r.dst.cnt == 2) = true := by rw [hc]; rfl
  unfold Group.writeData Row.SameOdd
  simp only [hw, if_true]
  rw [I.G.tag_writePair_hi r.dst.n _ _ r.tag hn]
  refine tagMerged_mergeTag fun _ _ => ?_
  rw [beq_iff_eq]
  cases r.tag <;> rfl

/-- Every register that a data operand does not name keeps its values. -/
theorem Group.reg_writeData_ne (g : Group) (o : Opnd) (m : Mask) (f : Nat → Nat) (d : Tag) (hc : o.cnt = 1 ∨ o.cnt = 2)
    (n : Nat) (hm : n ∉ o.regs) :
    ((g.writeData (o.cnt == 2) o.n m f d).reg n).vals = (g.reg n).vals ∧
      ((g.writeData (o.cnt == 2) o.n m f d).reg n).full = (g.reg n).full ∧
      ((g.writeData (o.cnt == 2) o.n m f d).reg n).tag = tagBeside o n (g.reg n).tag := by
  unfold Group.writeData
  by_cases hn : o.n = 0
  · have : tagBeside o n (g.reg n).tag = (g.reg n).tag := by
      unfold tagBeside; split <;> simp [hn]
    rw [this]
    rcases hc with hc | hc <;> rw [hc, hn] <;> exact ⟨rfl, rfl, rfl⟩
  · unfold Opnd.regs regsFrom at hm
    rw [if_neg hn, List.mem_map] at hm
    have hne : ∀ i, i < o.cnt → n ≠ o.n + i := fun i hi h => hm ⟨i, List.mem_range.2 hi, h.symm⟩
    rcases hc with hc | hc <;> rw [hc] at hne ⊢
    · rw [if_neg (by decide)]
      have h0 : n ≠ o.n := by simpa using hne 0 (by omega)
      refine ⟨(g.reg_write_ne o.n n m _ d h0).1, (g.reg_write_ne o.n n m _ d h0).2, ?_⟩
      rw [g.tag_write_ne o.n n m _ d h0 hn]
      unfold tagBeside
      cases (g.reg n).tag <;> simp [hc]
    · rw [if_pos (by decide)]
      have h0 : n ≠ o.n := by simpa using hne 0 (by omega)
      have h1 : n ≠ o.n + 1 := hne 1 (by omega)
      have := g.reg_writePair o.n n m (fun t => BitVec.ofNat 64 (f t)) d hn
      rw [if_neg h0, if_neg h1] at this
      refine ⟨this.1, by simpa [h0, h1] using this.2, ?_⟩
      rw [g.tag_writePair_ne o.n n m _ d h0 h1]
      unfold tagBeside
      cases (g.reg n).tag <;> simp [hc]

/-- Every field of a group but its registers and the notes of later writes survives the write of a data operand. -/
theorem Group.writeData_same (g : Group) (w : Bool) (n : Nat) (m : Mask) (f : Nat → Nat) (d : Tag) :
    g.writeData w n m f d =
      { g with
        regs := (g.writeData w n m f d).regs
        written := (g.writeData w n m f d).written
        fresh := (g.writeData w n m f d).fresh } := by
  unfold Group.writeData
  split
  · exact g.writePair_same n m _ d
  · exact g.write_same n m _ d

/-- A write of a data operand leaves the predicates alone. -/
@[simp] theorem Group.writeData_preds (g : Group) (w : Bool) (n : Nat) (m : Mask) (f : Nat → Nat) (d : Tag) :
    (g.writeData w n m f d).preds = g.preds := by
  rw [Group.writeData_same]

/-- A data operand of one or two registers after it has been written. -/
theorem Group.writeData_held (r : Row) (I : Iss) (hc : r.dst.cnt = 1 ∨ r.dst.cnt = 2) (sid : Nat) :
    r.Held I ((I.G.writeData (r.dst.cnt == 2) r.dst.n I.act r.val r.tag).advance sid r.e) where
  value x hx hn := by rw [Group.advance_op]; exact I.G.op_writeData r.dst I.act r.val r.tag hc hn x hx
  full n hm := by rw [Group.advance_reg]; exact I.G.full_writeData r.dst I.act r.val r.tag hc n hm
  tag hn := by rw [Group.advance_reg]; exact Group.tag_writeData r I hc hn
  odd hn h2 := by rw [Group.advance_reg]; exact Group.tag_writeData_odd r I h2 hn
  others n hm := by rw [Group.advance_reg]; exact I.G.reg_writeData_ne r.dst I.act r.val r.tag hc n hm
  preds := by rw [Group.advance_preds, Group.writeData_preds]

/-- The write of a result (R101, R102): the destination in the active threads, and nothing else but going on. -/
theorem State.result_wrote {s : State} {I : Iss} (hs : mapFind s.groups I.gid = some I.G) (r : Row)
    (hc : r.dst.cnt = 1 ∨ r.dst.cnt = 2) (hseed : r.seed = (s.lane I.G.lane).seed) :
    r.Wrote s (s.result I r.dst r.val r.tag r.e) I := by
  have same := I.G.writeData_same (r.dst.cnt == 2) r.dst.n I.act r.val r.tag
  have same' : I.G.writeData (r.dst.cnt == 2) r.dst.n I.act r.val r.tag =
      { I.G with
        regs := (I.G.writeData (r.dst.cnt == 2) r.dst.n I.act r.val r.tag).regs
        preds := (I.G.writeData (r.dst.cnt == 2) r.dst.n I.act r.val r.tag).preds
        written := (I.G.writeData (r.dst.cnt == 2) r.dst.n I.act r.val r.tag).written
        fresh := (I.G.writeData (r.dst.cnt == 2) r.dst.n I.act r.val r.tag).fresh } := by
    rw [Group.writeData_preds]; exact same
  refine ⟨⟨_, State.modGroup_find _ hs, Group.writeData_held r I hc I.sid, .intro r.e same', .intro r.e I.sid same' rfl⟩, ?_,
    OnlyGroup.of_modGroup s I _⟩
  · rw [hseed]; simp [State.result, State.lane]

/-! ### Masks and predicates -/

/-- Setting bits one by one from the threads of a range. -/
theorem maskOf_fold (f : Nat → Bool) (x : Nat) : ∀ n, n ≤ 32 → ∀ acc : BitVec 32,
    ((List.range n).foldl (fun acc t => if f t then acc ||| (1#32 <<< t) else acc) acc).getLsbD x =
      (acc.getLsbD x || (decide (x < n) && f x)) := by
  intro n
  induction n with
  | zero => intro _ acc; simp
  | succ n ih =>
    intro hn acc
    rw [List.range_succ, List.foldl_append]
    simp only [List.foldl_cons, List.foldl_nil]
    by_cases hf : f n = true
    · rw [if_pos hf, BitVec.getLsbD_or, ih (by omega)]
      by_cases hx : x = n
      · subst hx
        simp [hf, BitVec.getLsbD_shiftLeft]
        omega
      · have h1 : (1#32 <<< n).getLsbD x = false := by
          rw [BitVec.getLsbD_shiftLeft]
          by_cases h : x < n
          · simp [h]
          · simp [BitVec.getLsbD_one, show ¬ x - n = 0 by omega]
        rw [h1]
        by_cases h : x < n
        · simp [h, show x < n + 1 by omega]
        · simp [h, show ¬ x < n + 1 by omega]
    · rw [if_neg hf, ih (by omega)]
      by_cases hx : x = n
      · subst hx; simp [hf]
      · by_cases h : x < n
        · simp [h, show x < n + 1 by omega]
        · simp [h, show ¬ x < n + 1 by omega]

/-- A mask of the threads that meet a condition, read at a thread. -/
theorem maskOf_getLsbD (f : Nat → Bool) (x : Nat) (hx : x < 32) : (maskOf f).getLsbD x = f x := by
  unfold maskOf
  rw [maskOf_fold f x 32 (by omega) 0#32]
  simp [hx]

/-- A predicate that has been written, read at a thread; p0 stays true (R78). -/
theorem Group.pred_setPred_self (g : Group) (p : Nat) (m : Mask) (f : Nat → Bool) (x : Nat) (hx : x < 32) :
    (g.setPred p m f).pred p x = (p == 0 || if m.getLsbD x then f x else g.pred p x) := by
  by_cases hp : p = 0
  · subst hp; simp [Group.setPred, Group.pred]
  · have h0 : (p == 0) = false := by simpa using hp
    simp only [Group.setPred, hp, if_false, Group.pred, h0, Bool.false_or, mapGet_mapSet, if_true, BitVec.getLsbD_or,
      BitVec.getLsbD_and, BitVec.getLsbD_not, maskOf_getLsbD f x hx, hx, decide_true, Bool.true_and]
    cases m.getLsbD x <;> simp

/-- Every other predicate keeps its value. -/
theorem Group.pred_setPred_ne (g : Group) (p q : Nat) (m : Mask) (f : Nat → Bool) (h : q ≠ p) (x : Nat) :
    (g.setPred p m f).pred q x = g.pred q x := by
  by_cases hp : p = 0
  · subst hp; rfl
  · simp [Group.setPred, hp, Group.pred, mapGet_mapSet, h]

/-- Every field of a group but its predicates survives the write of a predicate. -/
theorem Group.setPred_same (g : Group) (p : Nat) (m : Mask) (f : Nat → Bool) :
    g.setPred p m f = { g with preds := (g.setPred p m f).preds } := by
  unfold Group.setPred
  split <;> rfl

/-- The write of a predicate (R113): the destination in the active threads, and nothing else but going on. -/
theorem State.predResult_wrote {s : State} {I : Iss} (hs : mapFind s.groups I.gid = some I.G) (r : PredRow) :
    r.Wrote s (s.predResult I r.dst r.val r.e) I := by
  have hsame := I.G.setPred_same r.dst I.act r.val
  have same : I.G.setPred r.dst I.act r.val =
      { I.G with
        regs := (I.G.setPred r.dst I.act r.val).regs
        preds := (I.G.setPred r.dst I.act r.val).preds
        written := (I.G.setPred r.dst I.act r.val).written
        fresh := (I.G.setPred r.dst I.act r.val).fresh } := by
    have h1 : (I.G.setPred r.dst I.act r.val).regs = I.G.regs := by rw [hsame]
    have h2 : (I.G.setPred r.dst I.act r.val).written = I.G.written := by rw [hsame]
    have h3 : (I.G.setPred r.dst I.act r.val).fresh = I.G.fresh := by rw [hsame]
    rw [h1, h2, h3]
    exact hsame
  refine ⟨⟨_, State.modGroup_find _ hs, ⟨?_, ?_, ?_⟩, .intro r.e same, .intro r.e I.sid same rfl⟩, OnlyGroup.of_modGroup s I _,
    by simp [State.predResult]⟩
  · intro x hx; rw [Group.advance_pred]; exact I.G.pred_setPred_self r.dst I.act r.val x hx
  · intro p hp x; rw [Group.advance_pred]; exact I.G.pred_setPred_ne r.dst p I.act r.val hp x
  · rw [Group.advance_regs, hsame]

/-- A result written after the lane's generator has moved on (R59). -/
theorem State.result_wrote_seed {s : State} {I : Iss} (hs : mapFind s.groups I.gid = some I.G) (r : Row)
    (hc : r.dst.cnt = 1 ∨ r.dst.cnt = 2) :
    r.Wrote s ((s.modLane I.G.lane fun l => { l with seed := r.seed }).result I r.dst r.val r.tag r.e) I := by
  have hl : ((s.modLane I.G.lane fun l => { l with seed := r.seed }).lane I.G.lane) =
      { s.lane I.G.lane with seed := r.seed } := by simp [State.lane, State.modLane, mapGet_mapSet]
  obtain ⟨hg, hse, ho⟩ := State.result_wrote (s := s.modLane I.G.lane fun l => { l with seed := r.seed }) (by simpa using hs) r
    hc (by rw [hl])
  refine ⟨hg, hse, ?_, ?_, ?_, ?_⟩
  · intro k hk; rw [ho.others k hk]; simp
  · intro l hne; rw [ho.lanes l hne]; simp [State.lane, State.modLane, mapGet_mapSet, hne]
  · rw [ho.lane, hl]
  · rw [ho.rest]; rfl

/-! ### The shared operations of the words of the lanes -/

/-- A word that writes a result after its checks. -/
theorem State.word_result_wrote {s : State} {I : Iss} (r : Row) (hs : s.iss = some I) (hc : r.dst.cnt = 1 ∨ r.dst.cnt = 2)
    (hseed : r.seed = (s.lane I.G.lane).seed) (hg : I.gate r.need = .go) :
    r.Wrote s (s.word I r.need r.e fun s => s.result I r.dst r.val r.tag r.e) I := by
  rw [State.word_go r.e _ hg]
  exact State.result_wrote (State.iss_group hs) r hc hseed

/-- A data operand has one or two registers (R101). -/
theorem dataOp_cnt (ty : Nat) (d : BitVec 7) (k : Bool) : (dataOp ty d k).cnt = 1 ∨ (dataOp ty d k).cnt = 2 := by
  unfold dataOp
  dsimp only
  split
  · exact .inr rfl
  · exact .inl rfl

/-- Integer arithmetic (R104). -/
theorem State.arith_wrote {s : State} {I : Iss} {u : Bool} {tys : List Nat} {d : Opnd} {srcs : List Opnd}
    {x : Nat → Nat → Int} {sat : Bool} {stride : Tag} {e : Bool} (hs : s.iss = some I) (hc : d.cnt = 1 ∨ d.cnt = 2)
    (hg : I.gate (fitRow s I u tys d srcs x sat stride e).need = .go) :
    (fitRow s I u tys d srcs x sat stride e).Wrote s (s.arith I u tys d srcs x sat stride e) I :=
  State.word_result_wrote (fitRow s I u tys d srcs x sat stride e) hs hc rfl hg

/-- A word whose value is a function of its sources. -/
theorem State.plain_wrote {s : State} {I : Iss} {u tyOk : Bool} {d : Opnd} {srcs : List Opnd} {f : Nat → Nat} {tag : Tag}
    {e : Bool} (hs : s.iss = some I) (hc : d.cnt = 1 ∨ d.cnt = 2)
    (hg : I.gate (plainRow s I u tyOk d srcs f tag e).need = .go) :
    (plainRow s I u tyOk d srcs f tag e).Wrote s (s.plain I u tyOk d srcs f tag e) I :=
  State.word_result_wrote (plainRow s I u tyOk d srcs f tag e) hs hc rfl hg

/-- A word of elements computed without rounding. -/
theorem State.elementwise_wrote {s : State} {I : Iss} {u tyOk : Bool} {d : Opnd} {srcs : List Opnd} {f : Nat → Nat → Nat}
    {e : Bool} (hs : s.iss = some I) (hc : d.cnt = 1 ∨ d.cnt = 2) (hg : I.gate (elemRow s I u tyOk d srcs f e).need = .go) :
    (elemRow s I u tyOk d srcs f e).Wrote s (s.elementwise I u tyOk d srcs f e) I :=
  State.plain_wrote hs hc hg

/-- A result written with the generator as the word left it, whether it moved or not (R59). -/
theorem State.seeded_wrote {s : State} {I : Iss} (r : Row) (hs : s.iss = some I) (hc : r.dst.cnt = 1 ∨ r.dst.cnt = 2) :
    r.Wrote s ((if r.seed = (s.lane I.G.lane).seed then s else s.modLane I.G.lane fun l => { l with seed := r.seed }).result
      I r.dst r.val r.tag r.e) I := by
  split
  · rename_i h; exact State.result_wrote (State.iss_group hs) r hc h
  · exact State.result_wrote_seed (State.iss_group hs) r hc

/-- A word whose elements are rounded (R59, R134). -/
theorem State.rounded_wrote {s : State} {I : Iss} {u tyOk : Bool} {d : Opnd} {srcs : List Opnd} {n w : Nat}
    {f : Nat → Nat → BitVec 24 → Nat × BitVec 24} {e : Bool} (hs : s.iss = some I) (hc : d.cnt = 1 ∨ d.cnt = 2)
    (hg : I.gate (roundRow s I u tyOk d srcs n w f e).need = .go) :
    (roundRow s I u tyOk d srcs n w f e).Wrote s (s.rounded I u tyOk d srcs n w f e) I := by
  have hg' : I.gate (I.need u tyOk [d] srcs (I.plainTag srcs)) = .go := hg
  unfold State.rounded
  rw [State.word_go e _ hg']
  unfold roundRow
  dsimp only
  generalize foldThreads u I.act (fun t => foldElems n w (f t)) (s.lane I.G.lane).seed = r
  obtain ⟨xs, sd⟩ := r
  exact State.seeded_wrote { need := _, dst := d, val := fun t => xs.getD t 0, tag := _, seed := sd, e := e } hs hc

/-- A reduction (R162). -/
theorem State.gred_wrote {s : State} {I : Iss} {u : Bool} {d a : BitVec 7} {k : Bool} {o : FoldOp} {e : Bool}
    (hs : s.iss = some I) (hg : I.gate (redRow s I u d a k o e).need = .go) :
    (redRow s I u d a k o e).Wrote s (s.gred I u d a k o e) I := by
  have hg' : I.gate (I.need u (o.tyOk I.S.ty) [dataOp I.S.ty d] [dataOp I.S.ty a k] .uniform) = .go := hg
  unfold State.gred
  dsimp only
  rw [State.word_go e _ hg']
  unfold redRow
  dsimp only
  generalize I.foldRun o (dataOp I.S.ty a k) (s.lane I.G.lane).seed = r
  obtain ⟨xs, sd⟩ := r
  exact State.seeded_wrote { need := _, dst := _, val := _, tag := _, seed := sd, e := e } hs (dataOp_cnt _ _ _)

/-- A scan (R330). -/
theorem State.gscan_wrote {s : State} {I : Iss} {d a : BitVec 7} {x k : Bool} {o : FoldOp} {e : Bool}
    (hs : s.iss = some I) (hg : I.gate (scanRow s I d a x k o e).need = .go) :
    (scanRow s I d a x k o e).Wrote s (s.gscan I d a x k o e) I := by
  have hg' : I.gate (I.need false (o.tyOk I.S.ty) [dataOp I.S.ty d] [dataOp I.S.ty a k] .general) = .go := hg
  unfold State.gscan
  dsimp only
  rw [State.word_go e _ hg']
  unfold scanRow
  dsimp only
  generalize I.foldRun o (dataOp I.S.ty a k) (s.lane I.G.lane).seed = r
  obtain ⟨xs, sd⟩ := r
  exact State.seeded_wrote { need := _, dst := _, val := _, tag := _, seed := sd, e := e } hs (dataOp_cnt _ _ _)

/-- A word of one predicate. -/
theorem State.compare_wrote {s : State} {I : Iss} {u tyOk : Bool} {p : BitVec 3} {srcs : List Opnd} {f : Nat → Bool} {e : Bool}
    (hs : s.iss = some I) (hg : I.gate (predRowOf I u tyOk p srcs f e).need = .go) :
    (predRowOf I u tyOk p srcs f e).Wrote s (s.compare I u tyOk p.toNat srcs f e) I := by
  have hg' : I.gate (I.needPred u tyOk srcs) = .go := hg
  unfold State.compare
  rw [State.word_go e _ hg']
  exact State.predResult_wrote (State.iss_group hs) (predRowOf I u tyOk p srcs f e)

end Sys2Proof.Machine
end

