-- ==== Sys2Proof/Tests/Slice0.lean ====
section
/-!
SUPPORT. The tests of the model: ill-formed terms that are refused, words written out in the spec's listings, results the
spec states in its examples, and for each statement states and operands that meet its hypotheses.
-/

namespace Sys2Proof.Tests

open Sys2Proof Sys2Proof.Machine Sys2Proof.Claims

set_option Elab.async false

/-! ### Well-formedness: a term that each check refuses, beside one that it takes -/

/-- Ill-formed words: a reserved value, a scope out of range, an odd register of a pair, a part that does not exist. -/
theorem test_ill_formed_words :
  ([.modeLo 0x0001#16 false, .modeHi 0x7800#16 false, .fmtHi 0x8000#16 false, .cvt false 1#7 2#7 14#4 false false,
   .unpk false 1#7 1#5 6#3 4#4 false false, .rsize 1#7 false, .shfl false 1#7 2#7 1#2 16#5 false false,
   .sreg false 1#7 22#7 false, .ldg false 1#7 2#6 3#3 0#4 false false, .stg false 2#7 2#6 5#3 0#4 false false false,
   .lds false 2#7 2#7 4#3 0#4 false false, .sts false 2#7 2#7 4#3 0#4 false false false,
   .ldp false 1#7 2#6 7#3 0#4 false false, .stp false 1#7 2#6 6#3 0#4 false false false,
   .ldc false 3#7 2#7 3#3 0#4 false false, .lda false 1#7 2#6 5#3 true false false,
   .ldaPoll false 2#7 2#6 0#3 false false false false, .stl false 2#7 2#6 7#3 false false false false,
   .fenceFull 0#3 false, .fenceRel 7#3 false, .fenceAcq 7#3 false, .cacheWbl false 2#6 2#3 false false,
   .cacheWball 2#3 false, .pfm false 3#2 2#6 2#3 0#4 false false, .amoAdd false 1#7 3#7 5#3 false false false false,
   .amoMin false 1#7 3#7 5#3 false false false false, .amoMax false 1#7 3#7 5#3 false false false false,
   .amoAnd false 1#7 3#7 5#3 false false false false, .amoOr false 1#7 3#7 5#3 false false false false,
   .amoXor false 1#7 3#7 5#3 false false false false, .amoExch false 1#7 3#7 5#3 false false false false,
   .amoIncw false 1#7 3#7 5#3 false false false false, .redAdd false 1#7 2#7 4#3 true false false false,
   .redMin false 1#7 2#7 4#3 true false false false, .redMax false 1#7 2#7 4#3 true false false false,
   .redAnd false 1#7 2#7 4#3 true false false false, .redOr false 1#7 2#7 4#3 true false false false,
   .redXor false 1#7 2#7 4#3 true false false false, .cas false 1#7 2#7 0#3 false 1#3 false false false,
   .barSync 1#7 5#3 0#4 false false, .barArrive 1#7 5#3 0#4 false false, .bexpPost 1#7 5#3 0#4 false false,
   .bexpArrive 1#7 5#3 0#4 false false, .barWait 1#3 0#4 false, .barPeek 1#3 1#3 0#4 false, .cpyd 0#4 false false,
   .panLd 2#7 1#7 4#4 false, .panSt 2#7 1#7 1#4 false, .sput 1#7 1#7 3#3 1#2 0#2 false false false,
   .sget 2#7 1#7 3#3 3#2 0#2 false false, .sfwd 1#7 2#3 0#2 0#2 false false, .xscanAdd 1#6 1#5 6#3 false false,
   .xscanMul 1#6 1#5 6#3 false false, .xscanMin 1#6 1#5 6#3 false false, .xscanMax 1#6 1#5 6#3 false false,
   .xscanAff 1#6 1#5 6#3 false false, .tfenPtrel 3#3 false, .tfenWalkacq 6#3 false,
   .tfenSync false 1#7 2#6 3#3 false false false, .tinvPage false 1#7 2#6 6#3 false false false,
   .tinvCtx false 3#3 false, .csrRd 1#7 3#6 false, .csrWr 2#7 7#6 false false, .tmrTo false 1#6 2#6 9#4 false false,
   .tmrFrom false 1#6 2#6 9#4 false false] : List Instr).all (fun i => !wellFormed i) = true := by decide

/-- Well-formed words at the nearest values that the same checks take. -/
theorem test_well_formed_words :
  ([.modeLo 0x4000#16 false, .modeHi 0x4000#16 false, .fmtHi 0#16 false, .cvt false 1#7 2#7 13#4 false false,
   .unpk false 1#7 1#5 6#3 3#4 false false, .rsize 16#7 false, .shfl false 1#7 2#7 1#2 15#5 false false,
   .sreg false 1#7 21#7 false, .ldg false 2#7 2#6 3#3 0#4 false false, .stg false 4#7 2#6 4#3 0#4 false false false,
   .lds false 4#7 2#7 4#3 0#4 false false, .sts false 4#7 2#7 4#3 0#4 false false false,
   .ldp false 1#7 2#6 6#3 0#4 false false, .stp false 1#7 2#6 2#3 0#4 false false false,
   .ldc false 2#7 2#7 3#3 0#4 false false, .lda false 2#7 2#6 5#3 true false false,
   .ldaPoll false 2#7 2#6 1#3 false false false false, .stl false 2#7 2#6 6#3 false false false false,
   .fenceFull 6#3 false, .fenceRel 1#3 false, .fenceAcq 6#3 false, .cacheWbl false 2#6 3#3 false false,
   .cacheWball 6#3 false, .pfm false 2#2 2#6 2#3 0#4 false false, .amoAdd false 1#7 2#7 5#3 false false false false,
   .amoMin false 1#7 2#7 5#3 false false false false, .amoMax false 1#7 2#7 5#3 false false false false,
   .amoAnd false 1#7 2#7 5#3 false false false false, .amoOr false 1#7 2#7 5#3 false false false false,
   .amoXor false 1#7 2#7 5#3 false false false false, .amoExch false 1#7 2#7 5#3 false false false false,
   .amoIncw false 1#7 2#7 5#3 false false false false, .redAdd false 1#7 3#7 3#3 true false false false,
   .redMin false 1#7 3#7 3#3 true false false false, .redMax false 1#7 3#7 3#3 true false false false,
   .redAnd false 1#7 3#7 3#3 true false false false, .redOr false 1#7 3#7 3#3 true false false false,
   .redXor false 1#7 3#7 3#3 true false false false, .cas false 1#7 2#7 1#3 false 1#3 false false false,
   .barSync 1#7 4#3 0#4 false false, .barArrive 1#7 4#3 0#4 false false, .bexpPost 1#7 4#3 0#4 false false,
   .bexpArrive 1#7 4#3 0#4 false false, .barWait 2#3 0#4 false, .barPeek 1#3 2#3 0#4 false, .cpyd 1#4 false false,
   .panLd 4#7 1#7 4#4 false, .panSt 2#7 1#7 2#4 false, .sput 2#7 1#7 3#3 1#2 0#2 false false false,
   .sget 4#7 1#7 3#3 2#2 0#2 false false, .sfwd 1#7 0#3 0#2 0#2 false false, .xscanAdd 1#6 1#5 5#3 false false,
   .xscanMul 1#6 1#5 5#3 false false, .xscanMin 1#6 1#5 5#3 false false, .xscanMax 1#6 1#5 5#3 false false,
   .xscanAff 1#6 1#5 5#3 false false, .tfenPtrel 4#3 false, .tfenWalkacq 5#3 false,
   .tfenSync false 1#7 2#6 4#3 false false false, .tinvPage false 1#7 2#6 5#3 false false false,
   .tinvCtx false 4#3 false, .csrRd 2#7 3#6 false, .csrWr 2#7 6#6 false false, .tmrTo false 1#6 2#6 8#4 false false,
   .tmrFrom false 1#6 2#6 8#4 false false] : List Instr).all wellFormed = true := by decide

/-- Ill-formed events: a reserved value, a scope out of range, an odd register of a pair, a part that does not exist. -/
theorem test_ill_formed_events :
  ([.tierHintRun 3, .migrationPage 3, .laneArbitration 4608, .splitResume 0 4, .pollCompletion 0 4,
   .walk 72 0 0 0 false false, .pageWaitRetry 0 4, .l1Eviction 72 0, .lineFill 72 0, .copyCompletion 72 0,
   .copyStop 72 0, .matrixStep 36 0, .matrixStepComplete 36 0, .messageArrival 0 4, .creditReturn 0 4,
   .sluiceTimeout 0 4, .waitBudget 1024, .workgroupRestore 0 72, .inFieldTest 36, .testRunEnd 36 true,
   .unconsumedError 9 0 true, .hostQueueConsume 8192, .workgroupPlacement 9, .dieFence 9, .voteDisagreement 19 true,
   .resyncComplete 19, .controlPlaneRestart 19, .cxlReadTimeout 6, .isolationEnd 6, .linkRetrain 6,
   .contextCreate 1024, .contextDestroy 1024, .contextResume 1024, .contextReset 1024, .contextEnd 1024,
   .preemptionRequest 1024, .breakpointResume 1024 0#32, .pageResumeDoorbell 1024, .queueEnable 8192 0#32,
   .queueDisable 8192, .queueDoorbell 8192 0#32, .portReset 2, .thermalThrottle 9, .dataLinkLayerLinkActive 6,
   .portResetExit 2] : List Instr).all (fun i => !wellFormed i) = true := by decide

/-- Well-formed events at the nearest values that the same checks take. -/
theorem test_well_formed_events :
  ([.tierHintRun 2, .migrationPage 2, .laneArbitration 4607, .splitResume 0 3, .pollCompletion 0 3,
   .walk 71 3 1023 0 false false, .pageWaitRetry 0 3, .l1Eviction 71 0, .lineFill 71 0, .copyCompletion 71 0,
   .copyStop 71 0, .matrixStep 35 0, .matrixStepComplete 35 0, .messageArrival 71 3, .creditReturn 71 3,
   .sluiceTimeout 0 3, .waitBudget 1023, .workgroupRestore 0 71, .inFieldTest 35, .testRunEnd 35 true,
   .unconsumedError 8 0 true, .hostQueueConsume 8191, .workgroupPlacement 8, .dieFence 8, .voteDisagreement 18 true,
   .resyncComplete 18, .controlPlaneRestart 18, .cxlReadTimeout 5, .isolationEnd 5, .linkRetrain 5,
   .contextCreate 1023, .contextDestroy 1023, .contextResume 1023, .contextReset 1023, .contextEnd 1023,
   .preemptionRequest 1023, .breakpointResume 1023 0#32, .pageResumeDoorbell 1023, .queueEnable 8191 0#32,
   .queueDisable 8191, .queueDoorbell 8191 0#32, .portReset 1, .thermalThrottle 8, .dataLinkLayerLinkActive 5,
   .portResetExit 1] : List Instr).all wellFormed = true := by decide

/-! ### Decoding: words that the spec's listings and tables write out beside their assembly -/

/-- A word decodes to an instruction. -/
def decodesTo (x : Nat × Instr) : Bool :=
  match decode (BitVec.ofNat 32 x.1) with
  | .ok i => i == x.2
  | .error _ => false

/-- Words of chapters 5 to 21 (part 1). -/
theorem test_decode_1 :
  ([(0xB4182A98, .cas false 12#7 10#7 5#3 false 3#3 false false false),
   (0xB04C9280, .amoAdd false 38#7 36#7 5#3 false false false false), (0xBC000118, .barSync 0#7 2#3 3#4 false false),
   (0xBC0E0100, .barPeek 1#3 2#3 0#4 false), (0xBE025100, .bexpArrive 20#7 2#3 0#4 false false),
   (0xBC040101, .barWait 2#3 0#4 true), (0xC5001004, .cpyr 2#6 0#4 true false),
   (0xC1182004, .cpyTile 3#5 2#5 0#4 true false false), (0x8E103000, .mcall 8#7 12#7 0#3 0#6 false),
   (0xC9282006, .mma 5#5 1#4 true true false), (0xD7880080, .mxcRscl 34#6 false false),
   (0xCF380000, .mxf 28#7 false), (0xD10070E9, .mxw 28#7 29#7 true), (0xD3000000, .mxr false),
   (0xD5404020, .panLd 32#7 16#7 4#4 false), (0xD5584891, .panSt 44#7 18#7 2#4 true),
   (0xD8102690, .sput 8#7 9#7 5#3 0#2 2#2 false false false), (0xDE4882A0, .xscanAff 18#6 8#5 5#3 false false),
   (0xE03440A0, .lrec false 26#7 16#7 20#7 false false false),
   (0xE2321A91, .tfenSync false 25#7 3#6 5#3 false false true), (0xE2000280, .tfenPtrel 5#3 false),
   (0xE2000288, .tfenWalkacq 5#3 false), (0xE4321A80, .tinvPage false 25#7 3#6 5#3 false false false),
   (0xE4000288, .tinvCtx false 5#3 false), (0xF000000B, .contOpen 5#16 true), (0xF0200001, .contClose true)] : List (Nat × Instr)).all decodesTo = true := by decide +kernel

/-- Words of chapters 5 to 21 (part 2). -/
theorem test_decode_2 :
  ([(0xF2000000, .dualOn false), (0xF2200000, .dualOff false), (0xF4080018, .csrRd 4#7 3#6 false),
   (0xF4001A28, .csrWr 6#7 5#6 false false), (0xE9082C0C, .thintPromote 2#6 11#7 true false),
   (0xEB082804, .migr 1#5 10#7 true false), (0xED14100D, .launch 5#6 2#6 1#3 true),
   (0xEF182800, .lwait 12#7 10#7 false), (0xF8123000, .ctxSgr 9#7 6#6 false), (0xF6600009, .rfeSave 2#6),
   (0x020A183B, .add false 5#7 6#7 7#7 false true true), (0x02182C51, .add false 12#7 11#7 10#7 false false true),
   (0x94101118, .ldg false 8#7 2#6 2#3 3#4 false false), (0x970C1100, .stg true 6#7 2#6 2#3 0#4 false false false),
   (0x98182D00, .lds false 12#7 11#7 2#3 0#4 false false),
   (0x9A182D00, .sts false 12#7 11#7 2#3 0#4 false false false),
   (0x9C080980, .ldp false 4#7 1#6 3#3 0#4 false false), (0x9E020900, .stp false 1#7 1#6 2#3 0#4 false false false),
   (0xA10C0191, .ldc true 6#7 0#7 3#3 2#4 false true),
   (0xA24C9298, .ldaPoll false 38#7 18#6 5#3 true false false false),
   (0xA50E2280, .stl true 7#7 4#6 5#3 false false false false), (0xAB001030, .smap 0#2 2#6 3#6 false false false),
   (0x3617FFF1, .addi false 11#7 0xFFF8#16 true), (0x3E160006, .muli false 11#7 3#16 false),
   (0x371C0003, .addi true 14#7 1#16 true), (0x91140000, .sreg true 10#7 0#7 false)] : List (Nat × Instr)).all decodesTo = true := by decide +kernel

/-- Words of chapters 5 to 21 (part 3). -/
theorem test_decode_3 :
  ([(0x41162810, .shli true 11#7 10#7 2#7 false false), (0x25181058, .lea true 6#6 2#6 11#7 false false false),
   (0x101C2858, .and false 14#7 10#7 11#7 false false false),
   (0x229D3800, .sel false 78#7 78#7 0#7 false false false), (0x32080000, .movi false 4#7 0#16 false),
   (0x34088500, .movhi false 4#7 0x4280#16 false), (0x2E162858, .iopMov false 11#7 10#7 false false),
   (0x46422840, .cmpi false 2#3 1#3 10#7 8#7 false false), (0x4A01FFFB, .bra false 0xFFFD#16),
   (0x4E020005, .brf false 1#3 2#16), (0x56000001, .exit), (0x5E011444, .fmtLo 0x8A22#16 false),
   (0x80000060, .rsize 12#7 false), (0x66F9F3E8, .ffma false 124#7 124#7 125#7 false false false),
   (0x7AFBE7E0, .ffms false 125#7 121#7 124#7 false false false),
   (0x6C82AC00, .fcmp false 4#3 1#3 43#7 0#7 false false false), (0x6E306028, .fopFex2 false 24#7 24#7 false false),
   (0x70122061, .cvt false 9#7 8#7 12#4 false true), (0x727460C8, .pack false 58#7 24#7 25#7 false false false),
   (0x78101838, .fdot2 false 8#7 6#7 7#7 false false false), (0x8A0C1800, .gredAdd false 6#7 6#7 false false),
   (0xFA080000, .tmrNow false 2#6 false), (0xFA0C10B8, .tmrTo false 3#6 2#6 7#4 false false),
   (0xFA140009, .tmrFrame false 10#7 true), (0xFC000001, .nop true)] : List (Nat × Instr)).all decodesTo = true := by decide +kernel

/-! ### States to begin from -/

/-- The device with a word of a one-group workgroup about to issue: group 3 of workgroup 2 of grid 1, every register 0. -/
def here : State := { State.reset.withFetchWord 32 0 with cur := some (3, 0) }

/-- A register that is full and uniform. -/
def uniformAt (n : Nat) (v : Word) : Nat × Reg := (n, { vals := sameVals v, full := true, tag := .uniform })

/-- The same with a mode, a format and some registers. -/
def withRegs (mode fmt : Word) (regs : List (Nat × Nat)) (s : State) : State :=
  (s.modSplit 3 0 fun p => { p with mode := mode, fmt := fmt }).modGroup 3 fun g =>
    { g with regs := regs.map fun x => uniformAt x.1 (BitVec.ofNat 32 x.2) }

/-- A layout record of a row of 32 elements at 0x20000, of one format on both sides. -/
def layoutOf (f skind : Nat) : List DWord :=
  [0x20000#64, 0#64, 64#64, 0#64, 0#64, 0#64, BitVec.ofNat 64 (31 * 2 ^ 32),
   BitVec.ofNat 64 (2 ^ 21 + skind * 2 ^ 16 + f * 2 ^ 12 + f * 2 ^ 8)]

/-- The same in a workgroup that has scratchpad, barriers, constants, pan rows, layouts, links and a macro image, in a
context that may move pages, with a page of data at 0x20000 that may be written. -/
def rich : State :=
  let s := { here with
    tlbs := { fetchPage with base := 0x20000, pte := 0x2065B#64 } ::
      { fetchPage with at_ := .engine 0, base := 0x20000, pte := 0x2005B#64 } :: here.tlbs
    sluHold := [(0, 1)], sluBuf := [((0, 2), [{ ch := 0, vecs := [sameVals 7#32], poisoned := false }])]
    mem := (List.range 8).foldl (fun m i => writeBytes m (0x23000 + 8 * i) ((layoutOf 10 0).getD i 0#64).toNat 8)
      (writeWord (writeWord here.mem 0x20004 0x11000#32) 0x22004 0x10104#32)
    ctxs := [(0, { here.ctx 0 with migr := true })]
    nextUid := 5 }
  let s := s.modGrid 1 fun d => { d with
    scratch := 32, barriers := 4, csize := 4096, cbase := 0x20000, sluice := true, ncol := 12, nwg := 72
    image := [{ words := [0xFC000000#32], bad := none }] }
  let s := s.modWg 2 fun x => { x with panRows := 128, slots := [(0, layoutOf 10 0), (1, layoutOf 0 1)] }
  s.modGroup 3 fun g => { g with pres := true }

/-- The same with a table in memory whose one leaf maps the first 64 GiB as they lie. -/
def mapped : State := { rich with mem := writeWord (writeWord rich.mem 0 0x40001#32) 0x40000 0x5F#32 }

/-- A trap routine for group 4 in place of the group of `rich`. -/
def routine (c : TrapCause) : State :=
  let s := { rich with groups := (4, mapGet rich.groups 3 (newGroup 2 fetchGrid false false 0 0 0)) :: rich.groups }
  let s := s.modGroup 4 fun g => { g with stop := .inTrap 3, splits := g.splits.map fun p => { p with st := .faulted } }
  let s := s.modGroup 3 fun g => { g with trap := some { of_ := 4, split := 0, cause := c, aclk := 0, resting := false } }
  s.modLane 0 fun l => { l with trap := some 3 }

/-- The record of a fault that a routine handles. -/
def someRecord : ErrRec :=
  { queue := { slot := none, va := 0 }, ctx := none, seq := 0, src := 0, cls := 4, code := 1, pc := some 0x10000#64, va := none,
    pa := none, tmask := fullMask, loc := 0#32, skid := 0, time := 0, detail := 0, die := 0 }

/-- The state after an instruction or event. -/
def after (i : Instr) (s : State) : State :=
  match Sys2Proof.Machine.exec i s with
  | .next t => t
  | _ => s

/-- What a write from core 0 carries. -/
def someMeta : WMeta :=
  { core := 0, ctx := 0, key := 0, va := 0x20000, pc := 0x10000#64, group := 3, count := 0, loc := 0#32
    queue := { slot := none, va := 0 } }

/-- What a thread of group 3 reads in a register. -/
def reads (s : State) (n t : Nat) : Word := ((mapFind s.groups 3).map fun g => g.val n t).getD 0#32

/-! ### Results that the spec states -/

/-- The example of R108: the carry of `addc` goes into p1 and from there into the next `addc`. -/
theorem test_addc_chain :
    (let s := after (.addc false 8#7 4#7 6#7 false false false)
        (withRegs 0x4000#32 0x8A00#32 [(4, 0xFFFFFFFF), (5, 1), (6, 2), (7, 0)] here);
      let t := after (.addc false 9#7 5#7 7#7 false false false) s;
      (reads t 8 0, reads t 9 31, (mapFind s.groups 3).map (·.pred 1 5), (mapFind t.groups 3).map (·.pred 1 5))) =
    (1#32, 2#32, some true, some false) := by decide +kernel

/-- The example of R116: `movi g7, 0x8000`, then `movhi g7, 0x1234`. -/
theorem test_movi_movhi :
    (let s := after (.movi false 7#7 0x8000#16 false) here;
      (reads s 7 3, reads (after (.movhi false 7#7 0x1234#16 false) s) 7 3)) = (0xFFFF8000#32, 0x12348000#32) := by decide +kernel

/-- R105: `iop.abs` of the least i32, with sat = 0 and with sat = 1. -/
theorem test_abs_of_least :
    (reads (after (.iopAbs false 5#7 4#7 false false) (withRegs 0#32 0x8A00#32 [(4, 0x80000000)] here)) 5 0,
      reads (after (.iopAbs false 5#7 4#7 false false) (withRegs 0x800000#32 0x8A00#32 [(4, 0x80000000)] here)) 5 0) =
    (0x80000000#32, 0x7FFFFFFF#32) := by decide +kernel

/-- R107: shifts by the whole width, and a rotation modulo it. -/
theorem test_shifts_by_width :
    (let s := withRegs 0#32 0x8A00#32 [(4, 0x80000001), (5, 32), (6, 33)] here;
      (reads (after (.shl false 8#7 4#7 5#7 false false false) s) 8 0, reads (after (.shr false 8#7 4#7 5#7 false false false) s) 8 0,
        reads (after (.sar false 8#7 4#7 5#7 false false false) s) 8 0,
        reads (after (.rot false 8#7 4#7 6#7 false false false) s) 8 0)) =
    (0#32, 0#32, 0xFFFFFFFF#32, 3#32) := by decide +kernel

/-- Control words of R110: 0x0001_0203 reverses the bytes of a, 0x0807_0605 shifts the old d right by a byte. -/
theorem test_prmt_controls :
    (let s := withRegs 0#32 0x8A00#32 [(4, 0x11223344), (5, 0x00010203), (6, 0x08070605), (8, 0xAABBCCDD)] here;
      (reads (after (.prmt false 8#7 4#7 5#7 false false false) s) 8 9,
        reads (after (.prmt false 8#7 4#7 6#7 false false false) s) 8 9)) = (0x44332211#32, 0x00AABBCC#32) := by decide +kernel

/-- R109: a field of length 0 is 0; under i32 a field of 4 bits is sign-extended. -/
theorem test_bfe :
    (let s := withRegs 0#32 0x8A00#32 [(4, 0xF00), (5, 0x408), (6, 8)] here;
      (reads (after (.bfe false 8#7 4#7 5#7 false false false) s) 8 0, reads (after (.bfe false 8#7 4#7 6#7 false false false) s) 8 0)) =
    (0xFFFFFFFF#32, 0#32) := by decide +kernel

/-- g0 discards writes and reads 0 (R78). -/
theorem test_g0 : reads (after (.movi false 0#7 7#16 false) here) 0 0 = 0#32 := by decide +kernel

/-- A branch to offset −1 goes to its own word; the run ends (R118). -/
theorem test_branch :
    ((mapFind (after (.bra false 0xFFFF#16) here).groups 3).bind fun g => (g.split 0).map fun p => (p.pc, p.run)) =
    some (0x10000#64, 0) := by decide +kernel

/-! ### What meets the hypotheses of the statements

Each function says that the hypotheses of the statement on an instruction hold in a state: a split issues, the checks of
R90 pass, and the rule lets the word have its effect. -/

/-- A split issues, and something holds of it. -/
def issuing (s : State) (f : State → Iss → Bool) : Bool :=
  match s.iss with
  | some I => f s I
  | none => false

/-- For words that write a data operand. -/
def goRow (F : State → Iss → Instr → Option Row) (x : State × Instr) : Bool :=
  issuing x.1 fun s I => match F s I x.2 with
    | some r => I.gate r.need == .go
    | none => false

/-- For words that write a predicate. -/
def goPred (F : Iss → Instr → Option PredRow) (x : State × Instr) : Bool :=
  issuing x.1 fun _ I => match F I x.2 with
    | some r => I.gate r.need == .go
    | none => false

/-- For the carry chain. -/
def goCarry (x : State × Instr) : Bool :=
  issuing x.1 fun s I => match carryRow s I x.2 with
    | some r => I.gate r.1.need == .go
    | none => false

/-- For words whose state afterwards is given. -/
def goes (F : State → Iss → Instr → Option (Need × Option State)) (x : State × Instr) : Bool :=
  issuing x.1 fun s I => match F s I x.2 with
    | some (n, some _) => I.gate n == .go
    | _ => false

/-- For the transfers: the target passes, and the stack holds the deferred paths. -/
def goJump (x : State × Instr) : Bool :=
  issuing x.1 fun _ I => match jumpOf I x.2 with
    | some j => I.gate j.need == .go && (threadsOf I.act).all (fun t => !j.goes I t || (targetOk (j.target t) && j.target t % 4 == 0)) &&
        ((j.link I.G).diverge I.sid (j.paths I)).isSome
    | none => false

/-- The group of `rich` with a mode and no register but g0 written. -/
def typed (mode : Word) : State := withRegs mode 0x8A00#32 [] rich

/-- The statement on arithRow holds of something. -/
theorem witness_arithRow :
    (([.add false 4#7 8#7 12#7 false false false, .sub false 4#7 8#7 12#7 false false false,
     .mul false 4#7 8#7 12#7 false false false, .mulhi false 4#7 8#7 12#7 false false false,
     .min false 4#7 8#7 12#7 false false false, .max false 4#7 8#7 12#7 false false false,
     .mad false 4#7 8#7 12#7 false false false, .iopNeg false 4#7 8#7 false false, .iopAbs false 4#7 8#7 false false,
     .addi false 4#7 0#16 false, .muli false 4#7 0#16 false, .shl false 4#7 8#7 12#7 false false false,
     .shli false 4#7 8#7 0#7 false false] : List Instr).map fun i => (typed 0x0#32, i)).all (goRow arithRow) = true := by decide +kernel

/-- The statement on logicRow holds of something. -/
theorem witness_logicRow :
    (([.and false 4#7 8#7 12#7 false false false, .or false 4#7 8#7 12#7 false false false,
     .xor false 4#7 8#7 12#7 false false false, .iopNot false 4#7 8#7 false false, .andi false 4#7 0#16 false,
     .ori false 4#7 0#16 false, .xori false 4#7 0#16 false, .shr false 4#7 8#7 12#7 false false false,
     .sar false 4#7 8#7 12#7 false false false, .rot false 4#7 8#7 12#7 false false false,
     .shri false 4#7 8#7 0#7 false false, .sari false 4#7 8#7 0#7 false false] : List Instr).map fun i => (typed 0x0#32, i)).all (goRow logicRow) = true := by decide +kernel

/-- The statement on moveRow holds of something. -/
theorem witness_moveRow :
    (([.sel false 4#7 8#7 12#7 false false false, .lea false 2#6 4#6 12#7 false false false,
     .leai false 2#6 4#6 0#7 false false, .bfe false 4#7 8#7 12#7 false false false,
     .bfi false 4#7 8#7 12#7 false false false, .prmt false 4#7 8#7 12#7 false false false,
     .iopPopc false 4#7 8#7 false false, .iopClz false 4#7 8#7 false false, .iopCtz false 4#7 8#7 false false,
     .iopBrev false 4#7 8#7 false false, .iopSx8 false 4#7 8#7 false false, .iopSx16 false 4#7 8#7 false false,
     .iopZx8 false 4#7 8#7 false false, .iopZx16 false 4#7 8#7 false false, .iopMov false 4#7 8#7 false false,
     .iopMovp false 4#7 0#3 false, .movi false 4#7 0#16 false, .movhi false 4#7 0#16 false] : List Instr).map fun i => (typed 0x0#32, i)).all (goRow moveRow) = true := by decide +kernel

/-- The statement on unitRow holds of something. -/
theorem witness_unitRow :
    (([.voteBallot 4#7 0#3 false, .voteMask 4#7 false, .shfl false 4#7 8#7 0#2 0#5 false false,
     .bcast false 4#7 8#7 12#7 false false false, .sreg false 4#7 0#7 false, .utagKind 4#7 8#7 false false,
     .utagStride 4#7 8#7 false false, .tmrNow false 2#6 false, .tmrFrame false 4#7 false,
     .unpkTag false 4#7 2#5 false false] : List Instr).map fun i => (typed 0x0#32, i)).all (goRow unitRow) = true := by decide +kernel

/-- The statement on timeRow holds of something. -/
theorem witness_timeRow :
    (([.tmrTo false 2#6 4#6 0#4 false false, .tmrFrom false 2#6 4#6 0#4 false false] : List Instr).map fun i => (typed 0x0#32, i)).all (goRow timeRow) = true := by decide +kernel

/-- The statement on floatRow holds of something. -/
theorem witness_floatRow :
    ((([.fadd false 4#7 8#7 12#7 false false false, .fsub false 4#7 8#7 12#7 false false false,
     .fmul false 4#7 8#7 12#7 false false false, .ffma false 4#7 8#7 12#7 false false false,
     .ffms false 4#7 8#7 12#7 false false false, .fmin false 4#7 8#7 12#7 false false false,
     .fmax false 4#7 8#7 12#7 false false false, .fscl false 4#7 8#7 12#7 false false false,
     .lrec false 4#7 8#7 12#7 false false false] : List Instr).map fun i => (typed 0x40000000#32, i)) ++
    (([.fdot2 false 4#7 8#7 12#7 false false false] : List Instr).map fun i => (typed 0x50000000#32, i))).all (goRow floatRow) = true := by decide +kernel

/-- The statement on unaryRow holds of something. -/
theorem witness_unaryRow :
    ((([.fopFneg false 4#7 8#7 false false, .fopFabs false 4#7 8#7 false false, .fopFclass false 4#7 8#7 false false,
     .fopFrcp false 4#7 8#7 false false, .fopFrsq false 4#7 8#7 false false, .fopFsqrt false 4#7 8#7 false false,
     .fopFex2 false 4#7 8#7 false false, .fopFlg2 false 4#7 8#7 false false, .fopFsin false 4#7 8#7 false false,
     .fopFcos false 4#7 8#7 false false, .fopFtanh false 4#7 8#7 false false, .fopFrni false 4#7 8#7 false false,
     .fopFrzi false 4#7 8#7 false false, .fopFrpi false 4#7 8#7 false false, .fopFrmi false 4#7 8#7 false false,
     .fopFfract false 4#7 8#7 false false] : List Instr).map fun i => (typed 0x40000000#32, i)) ++
    (([.cvt false 4#7 8#7 0#4 false false] : List Instr).map fun i => (typed 0x0#32, i)) ++
    (([.pack false 4#7 8#7 12#7 false false false] : List Instr).map fun i => (typed 0x50000000#32, i))).all (goRow unaryRow) = true := by decide +kernel

/-- The statement on foldRow holds of something. -/
theorem witness_foldRow :
    ((([.gredAdd false 4#7 8#7 false false, .gredMin false 4#7 8#7 false false, .gredMax false 4#7 8#7 false false,
     .gredAnd false 4#7 8#7 false false, .gredOr false 4#7 8#7 false false, .gredXor false 4#7 8#7 false false,
     .gscanAdd 4#7 8#7 false false false, .gscanMin 4#7 8#7 false false false, .gscanMax 4#7 8#7 false false false,
     .gscanAnd 4#7 8#7 false false false, .gscanOr 4#7 8#7 false false false, .gscanXor 4#7 8#7 false false false,
     .gscanMul 4#7 8#7 false false false] : List Instr).map fun i => (typed 0x0#32, i)) ++
    (([.gscanAff 2#6 4#6 false false false] : List Instr).map fun i => (typed 0x40000000#32, i))).all (goRow foldRow) = true := by decide +kernel

/-- The statement on compareRow holds of something. -/
theorem witness_compareRow :
    ((([.cmp false 0#3 0#3 4#7 8#7 false false false, .cmpi false 0#3 0#3 4#7 0#7 false false,
     .iopPmov false 0#3 4#7 false false, .plog false 0#3 0#3 0#3 0#4 false, .voteAll 0#3 0#3 false,
     .voteAny 0#3 0#3 false, .voteEq false 0#3 4#7 false false, .feTest 0#3 4#7 false] : List Instr).map fun i => (typed 0x0#32, i)) ++
    (([.fcmp false 0#3 0#3 4#7 8#7 false false false] : List Instr).map fun i => (typed 0x40000000#32, i))).all (goPred compareRow) = true := by decide +kernel

/-- The statement on carryRow holds of something. -/
theorem witness_carryRow :
    (([.addc false 4#7 8#7 12#7 false false false, .subc false 4#7 8#7 12#7 false false false] : List Instr).map fun i => (typed 0x0#32, i)).all (goCarry) = true := by decide +kernel

/-- The statement on jumpOf holds of something. -/
theorem witness_jumpOf :
    (([.bra false 0#16, .brt false 0#3 0#16, .brf false 0#3 0#16, .call false 2#6 0#16, .jmp false 2#6 false,
     .ret false 2#6 false] : List Instr).map fun i => (typed 0x0#32, i)).all (goJump) = true := by decide +kernel

/-- The statement on controlAfter holds of something. -/
theorem witness_controlAfter :
    (([.illegal false, .nop false, .trap 0#8, .brk 0#16, .modeLo 0#16 false, .modeHi 0#16 false, .fmtLo 0#16 false,
     .fmtHi 0#16 false, .region false, .rsize 0#7 false] : List Instr).map fun i => (typed 0x0#32, i)).all (goes controlAfter) = true := by decide +kernel

/-- The statement on endAfter holds of something. -/
theorem witness_endAfter :
    (([.exit] : List Instr).map fun i => (typed 0x0#32, i)).all (goes endAfter) = true := by decide +kernel

/-- The statement on tagAfter holds of something. -/
theorem witness_tagAfter :
    (([.utagGen 4#7 false false, .utagChk 4#7 false false, .utagChk64 2#6 false false, .feEmpty 4#7 false,
     .feFill 4#7 8#7 false false, .feWait 4#7 false false] : List Instr).map fun i => (typed 0x0#32, i)).all (goes tagAfter) = true := by decide +kernel

/-- The statement on chunkAfter holds of something. -/
theorem witness_chunkAfter :
    ((([.unpk false 4#7 2#5 0#3 1#4 false false] : List Instr).map fun i => (typed 0x0#32, i)) ++
    (([.mcall 4#7 8#7 0#3 0#6 false] : List Instr).map fun i => (typed 0#32, i))).all (goes chunkAfter) = true := by decide +kernel

/-- The statement on accessAfter holds of something. -/
theorem witness_accessAfter :
    ((([.ldc false 4#7 8#7 2#3 0#4 false false, .lds false 4#7 8#7 2#3 0#4 false false,
     .sts false 4#7 8#7 2#3 0#4 false false false] : List Instr).map fun i => (typed 0#32, i)) ++
    (([.ldaPoll false 4#7 4#6 4#3 false false false false, .stl false 4#7 4#6 4#3 false false false false] : List Instr).map fun i => (withRegs 0#32 35328#32 [(8,131072)] (rich), i))).all (goes accessAfter) = true := by decide +kernel

/-- The statement on cacheAfter holds of something. -/
theorem witness_cacheAfter :
    ((([.fenceFull 4#3 false, .fenceRel 4#3 false, .fenceAcq 4#3 false, .cacheWball 4#3 false, .cacheInvall false,
     .cacheSwb 0#2 false, .smap 0#2 2#6 4#6 false false false] : List Instr).map fun i => (typed 0x0#32, i)) ++
    (([.cacheWbl false 4#6 4#3 false false, .cacheInvl false 4#6 false false, .pfm false 0#2 4#6 2#3 0#4 false false] : List Instr).map fun i => (withRegs 0#32 35328#32 [(8,131072)] (rich), i))).all (goes cacheAfter) = true := by decide +kernel

/-- The statement on barrierAfter holds of something. -/
theorem witness_barrierAfter :
    ((([.barSync 4#7 2#3 0#4 false false, .barArrive 4#7 2#3 0#4 false false, .barWait 2#3 0#4 false,
     .barPeek 0#3 2#3 0#4 false] : List Instr).map fun i => (withRegs 0#32 35328#32 [(4,32)] (rich), i)) ++
    (([.bexpPost 4#7 2#3 0#4 false false, .bexpArrive 4#7 2#3 0#4 false false] : List Instr).map fun i => (withRegs 0#32 35328#32 [(4,16)] (rich), i))).all (goes barrierAfter) = true := by decide +kernel

/-- The statement on txAfter holds of something. -/
theorem witness_txAfter :
    (([.txb false 4#7 4#6 false false, .txe 0#3 false, .txa 0#4 false] : List Instr).map fun i => (typed 0x0#32, i)).all (goes txAfter) = true := by decide +kernel

/-- The statement on copyAfter holds of something. -/
theorem witness_copyAfter :
    ((([.cpyTile 1#5 2#5 0#4 false false false, .cpyGather 1#5 2#5 0#4 false false false,
     .cpyScatter 1#5 2#5 0#4 false true false, .cpyAxpb 1#5 2#5 0#4 false false false,
     .cpyRescale 1#5 2#5 1#4 false false false, .cpyFill 1#5 2#5 0#4 false false false,
     .cpySum 1#5 2#5 0#4 false false false] : List Instr).map fun i => (typed 0#32, i)) ++
    (([.cpyd 0#4 false false] : List Instr).map fun i => (typed 0x0#32, i)) ++
    (([.cpyr 4#6 4#4 false false] : List Instr).map fun i => (withRegs 0#32 35328#32 [(8,143360)] (rich), i))).all (goes copyAfter) = true := by decide +kernel

/-- The statement on matrixAfter holds of something. -/
theorem witness_matrixAfter :
    ((([.mma 1#5 1#4 false false false, .mxcZero 2#6 false false, .mxcRscl 2#6 false false, .panLd 4#7 8#7 2#4 false,
     .panSt 4#7 8#7 2#4 false] : List Instr).map fun i => (typed 0#32, i)) ++
    (([.cmma 1#5 1#4 false false false] : List Instr).map fun i => (withRegs 0#32 16812544#32 [] (rich), i)) ++
    (([.pmma 1#5 1#4 false false false] : List Instr).map fun i => (withRegs 0#32 35480#32 [(5,4096)] (rich), i)) ++
    (([.mxr false, .mxf 4#7 false, .mxw 4#7 8#7 false] : List Instr).map fun i => (typed 0x0#32, i))).all (goes matrixAfter) = true := by decide +kernel

/-- The statement on linkAfter holds of something. -/
theorem witness_linkAfter :
    ((([.sput 4#7 8#7 4#3 0#2 2#2 false false false, .sget 4#7 8#7 4#3 0#2 2#2 false false,
     .sfwd 4#7 4#3 2#2 1#2 false false] : List Instr).map fun i => (typed 0#32, i)) ++
    (([.xscanAdd 2#6 2#5 4#3 false false, .xscanMul 2#6 2#5 4#3 false false, .xscanMin 2#6 2#5 4#3 false false,
     .xscanMax 2#6 2#5 4#3 false false] : List Instr).map fun i => (withRegs 0#32 35328#32 [(8,544)] (rich), i)) ++
    (([.xscanAff 2#6 2#5 4#3 false false] : List Instr).map fun i => (withRegs 1073741824#32 35328#32 [(8,544)] (rich), i))).all (goes linkAfter) = true := by decide +kernel

/-- The statement on translationAfter holds of something. -/
theorem witness_translationAfter :
    ((([.tfenPtrel 4#3 false, .tfenWalkacq 4#3 false, .tinvCtx false 4#3 false] : List Instr).map fun i => (typed 0x0#32, i)) ++
    (([.tfenSync false 4#7 4#6 4#3 false false false, .tinvPage false 4#7 4#6 4#3 false false false,
     .tprb false 2#6 4#6 false false] : List Instr).map fun i => (withRegs 0#32 35328#32 [(8,131072)] (rich), i))).all (goes translationAfter) = true := by decide +kernel

/-- The statement on migrationAfter holds of something. -/
theorem witness_migrationAfter :
    ((([.thintPromote 2#6 8#7 false false, .thintDemote 2#6 8#7 false false, .thintPin 2#6 8#7 false false,
     .thintUnpin 2#6 8#7 false false, .thintRelease 2#6 8#7 false false] : List Instr).map fun i => (withRegs 0#32 35328#32 [(4,131072),(8,1)] (rich), i)) ++
    (([.migr 1#5 8#7 false false] : List Instr).map fun i => (withRegs 0#32 35328#32 [(4,131072),(6,196608),(8,1)] (rich), i))).all (goes migrationAfter) = true := by decide +kernel

/-- The statement on launchAfter holds of something. -/
theorem witness_launchAfter :
    ((([.launch 2#6 4#6 0#3 false] : List Instr).map fun i => (withRegs 0#32 35328#32 [(8,131072)] (mapped), i)) ++
    (([.lwait 4#7 8#7 false] : List Instr).map fun i => (typed 0x0#32, i))).all (goes launchAfter) = true := by decide +kernel

/-- The statement on containAfter holds of something. -/
theorem witness_containAfter :
    ((([.contOpen 0#16 false] : List Instr).map fun i => (typed 0x0#32, i)) ++
    (([.contClose false] : List Instr).map fun i => (rich.modGroup 3 fun g => { g with cont := [{ handler := 0x10000#64, mode := 0#32, fmt := 0x8A00#32 }] }, i)) ++
    (([.dualOn false, .dualOff false] : List Instr).map fun i => (typed 0#32, i))).all (goes containAfter) = true := by decide +kernel

/-- The statement on registerAfter holds of something. -/
theorem witness_registerAfter :
    (([.csrRd 4#7 0#6 false, .csrWr 4#7 0#6 false false, .nopreOn false, .nopreOff false] : List Instr).map fun i => (typed 0x0#32, i)).all (goes registerAfter) = true := by decide +kernel

/-- The statement on returnAfter holds of something. -/
theorem witness_returnAfter :
    ((([.rfeNext, .rfeRetry, .rfeKill] : List Instr).map fun i => (routine (.fault someRecord), i)) ++
    (([.rfeSave 4#6] : List Instr).map fun i => (routine .save, i)) ++
    (([.rfeRest] : List Instr).map fun i => (routine (.restore 0#64), i))).all (goes returnAfter) = true := by decide +kernel

/-- The statement on ctxAfter holds of something. -/
theorem witness_ctxAfter :
    (([.ctxSgr 4#7 4#6 false, .ctxLgr 4#7 4#6 false, .ctxSst 4#6 false, .ctxLst 4#6 false, .ctxSwg 5#6 false,
     .ctxLwg 5#6 false, .ctxQuiet false] : List Instr).map fun i => (withRegs 0#32 35328#32 [(4,1056),(8,131072),(10,139264)] (routine (.restore 0#64)), i)).all (goes ctxAfter) = true := by decide +kernel

/-- The statement on loadOf holds of something. -/
theorem witness_loadOf :
    (([.ldg false 4#7 4#6 2#3 0#4 false false, .ldp false 4#7 4#6 2#3 0#4 false false,
     .lda false 4#7 4#6 4#3 false false false] : List Instr).map fun i => (withRegs 0#32 35328#32 [(8,131072)] (rich), i)).all (goes loadLeft) = true := by decide +kernel

/-- The statement on storeOf holds of something. -/
theorem witness_storeOf :
    (([.stg false 4#7 4#6 2#3 0#4 false false false, .stp false 4#7 4#6 2#3 0#4 false false false] : List Instr).map fun i => (withRegs 0#32 35328#32 [(8,131072)] (rich), i)).all (goes storeLeft) = true := by decide +kernel

/-- The statement on atomOf holds of something. -/
theorem witness_atomOf :
    ((([.amoAdd false 4#7 8#7 5#3 false false false false, .amoMin false 4#7 8#7 5#3 false false false false,
     .amoMax false 4#7 8#7 5#3 false false false false, .amoAnd false 4#7 8#7 5#3 false false false false,
     .amoOr false 4#7 8#7 5#3 false false false false, .amoXor false 4#7 8#7 5#3 false false false false,
     .amoExch false 4#7 8#7 5#3 false false false false, .redAdd false 4#7 8#7 5#3 false false false false,
     .redMin false 4#7 8#7 5#3 false false false false, .redMax false 4#7 8#7 5#3 false false false false,
     .redAnd false 4#7 8#7 5#3 false false false false, .redOr false 4#7 8#7 5#3 false false false false,
     .redXor false 4#7 8#7 5#3 false false false false, .cas false 4#7 8#7 5#3 false 0#3 false false false] : List Instr).map fun i => (withRegs 0#32 35328#32 [(8,131072)] (rich), i)) ++
    (([.amoIncw false 4#7 8#7 5#3 false false false false] : List Instr).map fun i => (withRegs 134217728#32 35328#32 [(8,131072)] (rich), i))).all (goes atomLeft) = true := by decide +kernel

/-! ### Events that are due -/

/-- Each event of laneEvent is due somewhere. -/
theorem witness_laneEvent :
    ([(rich.modSplit 3 0 fun p => { p with st := .ready }, .laneArbitration 0),
      ((rich).modSplit 3 0 fun p => { p with st := .suspended, wait := .regs [5] false }, .splitResume 3 0),
      (rich, .producerFill 0 0),
      (after (.ldaPoll false 4#7 4#6 5#3 false false false false) (withRegs 0#32 35328#32 [(4,0),(8,131072)] (rich)), .pollCompletion 3 0),
      (rich, .walk 0 0 0 0 false false),
      ((rich).modSplit 3 0 fun p => { p with st := .pageWait, wait := .pages [0x20000], released := true }, .pageWaitRetry 3 0),
      (rich, .l1Eviction 0 0),
      (rich.modWg 2 fun x => { x with wlines := [(0, { dirty := 1#32, wr := true, pa := 0x20000, policy := 0, info := someMeta })] }, .windowWriteBack 2 0),
      ({ rich with writes := [{ id := 7, access := 7, pa := 0x20000, val := 1#32, info := someMeta, performed := false }] }, .remoteWriteCheck 7),
      (rich, .writeAcknowledgement 0)] : List (State × Instr)).all (fun x => (laneEvent x.1 x.2).isSome) = true := by decide +kernel

/-- Each event of engineEvent is due somewhere. -/
theorem witness_engineEvent :
    ([(after (.cpyTile 1#5 2#5 0#4 false false false) (withRegs 0#32 0x8A00#32 [] rich), .lineFill 0 5),
      (after (.lineFill 0 5) (after (.cpyTile 1#5 2#5 0#4 false false false) (withRegs 0#32 0x8A00#32 [] rich)), .copyCompletion 0 5),
      ({ after (.cpyTile 1#5 2#5 0#4 false true false) (withRegs 0#32 0x8A00#32 [] rich) with tlbs := [{ fetchPage with at_ := .engine 0, base := 0x20000, pte := 0x20059#64 }] }, .copyStop 0 5),
      (after (.mma 1#5 1#4 false false false) (after (.mxr false) (withRegs 0#32 0x8A00#32 [] rich)), .matrixStep 0 5),
      (after (.matrixStep 0 5) (after (.mxcZero 2#6 false false) (withRegs 0#32 0x8A00#32 [] rich)), .matrixStepComplete 0 5),
      (after (.thintPromote 2#6 8#7 false false) (withRegs 0#32 35328#32 [(4,131072),(8,1)] (rich)), .tierHintRun 0),
      (after (.migr 1#5 8#7 false false) (withRegs 0#32 35328#32 [(4,131072),(6,196608),(8,1)] (rich)), .migrationPage 0),
      (after (.sput 4#7 8#7 4#3 0#2 2#2 false false false) (withRegs 0#32 0x8A00#32 [] rich), .messageArrival 2 3),
      ({ rich with sluUsed := [((1, 3), 1)], sluRet := [((1, 3), 1)] }, .creditReturn 1 3),
      ({ ((rich).modSplit 3 0 fun p => { p with st := .suspended, wait := .link (some 1) 0 none 0 0 [] }) with times := [(0, 2 ^ 40)] }, .sluiceTimeout 3 0)] : List (State × Instr)).all (fun x => (engineEvent x.1 x.2).isSome) = true := by decide +kernel

/-- Each event of groupEvent is due somewhere. -/
theorem witness_groupEvent :
    ([((rich.modSplit 3 0 fun p => { p with st := .ready }).modWg 2 fun x => { x with preempting := some false }, .preemptionDiscard 2),
      ((rich.modSplit 3 0 fun p => { p with st := .ready }).modWg 2 fun x => { x with preempting := some true }, .preemptionSave 2),
      (after (.preemptionDiscard 2) ((rich.modSplit 3 0 fun p => { p with st := .ready }).modWg 2 fun x => { x with preempting := some false }), .workgroupRestore 2 0),
      ({ rich with times := [(0, 2 ^ 50)] }, .inFieldTest 1),
      ({ State.reset with testing := [0], coresOut := [(0, false), (1, false)] }, .testRunEnd 0 false),
      ({ ((rich).modSplit 3 0 fun p => { p with st := .suspended, wait := .barrier (.wg 2 0) }) with ctxs := [(0, { rich.ctx 0 with passedBound := some (0x10000#64, 0#32, 0, 0) })] }, .waitBudget 0),
      ((routine .save).modGroup 3 fun g => { g with trap := some { of_ := 4, split := 0, cause := .save, aclk := 2 ^ 24, resting := false } }, .trapWatchdog 3),
      (rich.modGroup 3 fun g => { g with nopre := some { count := 2 ^ 20, pc := 0x10000#64, split := 0, at_ := 0 } }, .nopreLimit 3),
      (after .exit rich, .resourceReturn 2),
      (rich.modGrid 1 fun d => { d with st := .placing, sluice := false, affinity := 1 }, .workgroupPlacement 0),
      (rich.modGrid 1 fun d => { d with st := .placing }, .priorityAging 1)] : List (State × Instr)).all (fun x => (groupEvent x.1 x.2).isSome) = true := by decide +kernel

/-- Each event of gridEvent is due somewhere. -/
theorem witness_gridEvent :
    ([(rich.modGrid 1 fun d => { d with st := .accepted }, .gridReady 1),
      (rich.modGrid 1 fun d => { d with st := .migrating }, .rangeListComplete 1),
      ({ rich with wgs := [] }, .gridRetirement 1), (rich, .dieFence 0),
      ({ rich with queues := [(0, { HostQueue.reset with base := 0x30000#64, en := true, lg := 4, tail := 1#32 })] }, .hostQueueConsume 0)] : List (State × Instr)).all (fun x => (gridEvent x.1 x.2).isSome) = true := by decide +kernel

/-- Each event of recordEvent is due somewhere. -/
theorem witness_recordEvent :
    ([({ rich with pend := [{ someRecord with queue := { slot := some 0, va := 0x20000 } }] }, .errorRecordAppend 0),
      ({ rich with pend := [someRecord] }, .managementRecordAppend 0), (rich, .unconsumedError 0 0 false)] : List (State × Instr)).all (fun x => (recordEvent x.1 x.2).isSome) = true := by decide +kernel

/-- Each event of planeEvent is due somewhere. -/
theorem witness_planeEvent :
    ([(rich, .voteDisagreement 0 false), ({ rich with votes := [(1, (1, 0, true, true))] }, .resyncComplete 1),
      ({ rich with votes := [(1, (0, 1, false, false))] }, .controlPlaneRestart 1), (rich, .contextCreate 0),
      (rich, .contextDestroy 0), (rich, .contextResume 0), (rich, .contextReset 0),
      ({ State.reset with ctxs := [(0, { Ctx.reset with st := .resetting })] }, .contextEnd 0),
      (rich, .preemptionRequest 0), (rich, .breakpointResume 0 0#32), (rich, .pageResumeDoorbell 0),
      (rich, .queueEnable 0 0#32), (rich, .queueDisable 0), (rich, .queueDoorbell 0 0#32)] : List (State × Instr)).all (fun x => (planeEvent x.1 x.2).isSome) = true := by decide +kernel

/-- Each event of deviceEvent is due somewhere. -/
theorem witness_deviceEvent :
    ([(rich, .frameBoundary), (rich, .timeConversionUpdate), (rich, .cxlReadTimeout 0),
      (rich.modGroup 3 fun g => { g with prods := [{ id := 0, split := 0, dsts := [(5, sameVals 0#32)], mask := fullMask, region := fullMask, pc := 0x10000#64, ty := 0, consumed := [], at_ := 0, tag := .general, ext := [(0, 0x10000000000000, fullMask)] }] }, .hostCompletionTimeout 3 0),
      ({ rich with ports := [(0, { Port.reset with iso := true, active := true })] }, .isolationEnd 0),
      (rich, .linkRetrain 0), (after (.linkRetrain 0) rich, .dataLinkLayerLinkActive 0), (rich, .portReset 0),
      (rich, .portResetExit 0), (rich.startReport, .attestationReport), (rich, .registerWrite 0 0#32),
      (rich, .moduleReset), (rich, .thermalTrip), (rich, .thermalThrottle 0)] : List (State × Instr)).all (fun x => (deviceEvent x.1 x.2).isSome) = true := by decide +kernel

/-- Signed boot is due at reset, whether or not the image is accepted. -/
theorem witness_signedBoot : (deviceEvent State.reset .signedBoot).isSome = true := by
  have h : ∀ (c : Prop) [Decidable c] (a b : State), (if c then some a else some b).isSome = true := fun c _ a b => by
    split <;> rfl
  exact h _ _ _

/-! ### The statements that are about no single family -/

/-- The head of the agenda is due in a device that has booted, whatever it is; so is any act that reaches one that has not. -/
theorem witness_Due (a : Act) (s : State) (h : s.host.booted = true) :
    Due { s with agenda := a :: s.agenda } a s := .inl ⟨s.agenda, rfl, rfl, by simp [h]⟩

/-- `rich` has booted; at reset nothing is due but the boot, and it may have failed. -/
theorem witness_StepTakesEvents :
    rich.host.booted = true ∧ State.reset.agenda = [] ∧ State.reset.host.booted = false ∧
      State.reset.host.bootFail = false ∧ (State.reset.modHost fun h => { h with bootFail := true }).host.bootFail = true := by
  decide +kernel

/-- The state of a lane's split that is due to issue, as Issues has it. -/
def issueState (s : State) : State := { s with agenda := s.agenda.tail, cur := State.holder { s with agenda := s.agenda.tail } 0 }

/-- The hypotheses of StepRunsDecodedWord and FetchedWords: lane 0 is due to issue outside a macro
call, and what it fetches is a word of memory. -/
def fetching (s : State) (f : State → Iss → Word → Bool) : Bool :=
  (match s.agenda with
    | .issue lane :: _ => lane == 0 && s.host.booted
    | _ => false) &&
    issuing (issueState s) fun t I => I.S.call.isNone && I.S.word.isNone && canonical I.S.pc.toNat && I.S.pc.toNat % 4 == 0 && !I.G.pair &&
      (match t.look (laneTlbs I.G.lane) I.G.ctx I.S.pc.toNat { write := false, fetch := true, keys := true } with
        | (v, .ok pa _ _) =>
          let u := v.settleWalk (laneTlbs I.G.lane) I.G.ctx I.S.pc.toNat
          regionOf pa == .near 0 && (mapFind u.farDirty pa).isNone && (mapFind u.poison (lineOf pa)).isNone &&
            (mapFind u.l1 (I.core, pa)).isNone && (mapFind u.l2 (dieOfCore I.core, pa)).isNone
        | _ => false) &&
      match t.fetch I with
        | (u, .word w) =>
          let v := u.modSplit I.gid I.sid fun p => { p with word := some w }
          (match v.iss with
            | some J => (match decode w with
              | .ok i => (J.predDue i).isNone
              | .error _ => true)
            | none => false) && f u I w
        | _ => false

/-- A word placed by withFetchWord is fetched and decoded; so are one that is no instruction and one with a reserved field
set; a split may have issued 24 words of its run. -/
theorem witness_fetch :
    (fetching (State.reset.withFetchWord 32 0xFC000001) (fun _ I w =>
        decide (I.S.run < 24) && decide (w = 0xFC000001#32) && (match decode w with
          | .ok i => i == .nop true
          | _ => false))) = true ∧
    (fetching (State.reset.withFetchWord 32 0x00000010) (fun _ _ w => match decode w with
      | .error .illegalOpcode => true
      | _ => false)) = true ∧
    (fetching (State.reset.withFetchWord 32 0xFC000010) (fun _ _ w => match decode w with
      | .error .reservedField => true
      | _ => false)) = true ∧
    (fetching ((State.reset.withFetchWord 32 0xFC000000).modSplit 3 0 fun p => { p with run := 24 })
      (fun _ I _ => decide (24 ≤ I.S.run))) = true := by decide +kernel

/-- A group with a `cas` that is still to write p1. -/
def awaitsP1 (s : State) : State := s.modGroup 3 fun g => { g with
  prods := [{ id := 0, split := 0, dsts := [], mask := fullMask, region := fullMask, pc := 0x10000#64, ty := 0, consumed := [], at_ := 0,
              tag := .general, ext := [], pred := some (1, fullMask) }] }

/-- The other clauses of StepRunsDecodedWord: a word that goes on after a wait, and one that names a predicate that a `cas` is
still to write, freshly fetched and resumed (`brt p1`). -/
theorem witness_resumed :
    (let s := State.reset.withFetchWord 32 0x4C020001;
      let resumed := s.modSplit 3 0 fun p => { p with word := some 0x4C020001#32 };
      decodesTo (0x4C020001, .brt false 1#3 0#16) &&
      (issuing (issueState resumed) fun _ I => I.S.call.isNone && I.S.word == some 0x4C020001#32 && !I.G.pair &&
        (I.predDue (.brt false 1#3 0#16)).isNone) &&
      (issuing (issueState (awaitsP1 resumed)) fun _ I => I.predDue (.brt false 1#3 0#16) == some 1) &&
      issuing (issueState (awaitsP1 s)) fun t I => match t.fetch I with
        | (u, .word w) => w == 0x4C020001#32 && decide (I.S.run < 24) &&
          (match (u.modSplit I.gid I.sid fun p => { p with word := some w }).iss with
            | some J => J.predDue (.brt false 1#3 0#16) == some 1
            | none => false)
        | _ => false) = true := by decide +kernel

/-- A split stands in a macro call, and the routine's word is an instruction with the call's registers put in. -/
theorem witness_macroOperation :
    (let s := after (.mcall 8#7 12#7 0#3 0#6 false) (withRegs 0#32 0x8A00#32 [] rich);
      issuing s fun t I => match I.S.call with
        | none => false
        | some c =>
          let words := ((((t.gridOf I.G).map (·.image)).getD [])[c.routine]?.map (·.words)).getD [];
          (match macroSubst c (words.getD c.op 0#32) with
            | some p => (match decodeColumns p with
              | .ok i => (t.modSplit I.gid I.sid fun q =>
                { q with call := some { c with last := decide (words.length ≤ c.op + 1) } }).iss.any fun J => (J.predDue i).isNone
              | _ => false)
            | none => false) &&
            !I.G.pair) = true := by decide +kernel

/-- Well-formed words, at the least and the greatest values of their fields. -/
theorem witness_DecodeEncode :
    ([.illegal true, .add true 127#7 127#7 127#7 true true true, .shfl true 127#7 127#7 0#2 31#5 true true, .rsize 16#7 true,
      .ldg true 124#7 63#6 4#3 15#4 true true, .cpyd 15#4 true true, .csrWr 127#7 6#6 true true, .rfeRest, .nop true] :
      List Instr).all (fun i => wellFormed i && (match encode i with
        | some w => decodesTo (w.toNat, i)
        | none => false)) = true := by decide +kernel

/-- A split issues, in the states of the statements that ask for no more (IllegalWords, NopWord). -/
theorem witness_issuing : here.iss.isSome = true ∧ rich.iss.isSome = true ∧ (issuing rich fun _ I => !I.trapped) = true := by
  decide +kernel

/-- How the checks of R90 end for `add g4, g8, g12` and its like. -/
def addGate (s : State) (u : Bool) (d a b : BitVec 7) (k l : Bool) : Option Gate :=
  s.iss.bind fun I => if I.S.released || I.S.counted then none else (arithRow s I (.add u d a b k l false)).map fun r => I.gate r.need

/-- Register 8 empty; or not known to be uniform. -/
def emptyAt8 : State := here.modGroup 3 fun g => g.putReg 8 { g.reg 8 with full := false }
def generalAt8 : State := here.modGroup 3 fun g => g.putReg 8 { g.reg 8 with tag := .general }

/-- Each clause of CheckOrderOfAdd and of FailedChecks, by the check that fails first; the last register of the
allotment and the first beyond it; and each type on either side of 7. -/
theorem witness_CheckOrderOfAdd :
    addGate (withRegs 0x10000000#32 0x8A00#32 [] here) false 5#7 8#7 12#7 false false = some (.fault codeReservedField) ∧
    addGate (withRegs 0x40000000#32 0x8A00#32 [] here) false 4#7 8#7 12#7 false false = some (.fault codeTypeUnsupported) ∧
    addGate (withRegs 0x38000000#32 0x8A00#32 [] here) false 4#7 8#7 12#7 false false = some .go ∧
    addGate (here.modGroup 3 fun g => { g with alloc := 16 }) false 4#7 8#7 16#7 false false = some (.fault codeRegBound) ∧
    addGate (here.modGroup 3 fun g => { g with alloc := 16 }) false 4#7 8#7 15#7 false false = some .go ∧
    addGate (withRegs 0x20#32 0x8A00#32 [] here) false 4#7 8#7 12#7 false false = some .go ∧
    addGate emptyAt8 false 4#7 8#7 12#7 true false = some (.fault codeEmptyRead) ∧
    addGate emptyAt8 false 4#7 8#7 12#7 false true = some (.wait [8]) ∧
    addGate emptyAt8 false 8#7 4#7 12#7 true true = some (.wait [8]) ∧
    addGate generalAt8 true 4#7 8#7 12#7 false false = some (.fault codeUniformAssert) ∧
    addGate generalAt8 false 4#7 8#7 12#7 false false = some .go := by decide +kernel

/-- A guard that no thread passes: the word is skipped. -/
theorem witness_skip : addGate (withRegs 0x220000#32 0x8A00#32 [] here) false 4#7 8#7 12#7 false false = some .skip := by
  decide +kernel

/-- The paths of a transfer and the targets that fail, as TransferFaults has them. -/
def jumpFails (s : State) (i : Instr) : Option (Bool × Bool × Bool × Bool) :=
  s.iss.bind fun I => (jumpOf I i).map fun j =>
    (j.u && decide (1 < (j.paths I).length), decide (!j.relative ∧ j.failing I (fun x => x % 4 != 0) ≠ 0#32),
      decide (j.failing I (fun x => !targetOk x) ≠ 0#32), ((j.link I.G).diverge I.sid (j.paths I)).isNone)

/-- Half of the threads have p1 true. -/
def halves (s : State) : State := s.modGroup 3 fun g => g.setPred 1 fullMask fun t => decide (t < 16)

/-- A stack that is full. -/
def deep (s : State) : State := s.modGroup 3 fun g => { g with
  stack := List.replicate 8 (.record fullMask 0#32 0x8A00#32)
  splits := g.splits ++ [1, 2, 3].flatMap fun n => (g.splits.take 1).map fun p => { p with idx := n, mask := 0#32 } }

/-- Each clause of TransferFaults: paths that differ under U = 1; a target that is odd, one that is not canonical, one
beyond the last canonical address; and a stack that overflows. -/
theorem witness_TransferFaults :
    jumpFails (halves here) (.brt true 1#3 4#16) = some (true, false, false, false) ∧
    jumpFails (withRegs 0#32 0x8A00#32 [(4, 2), (5, 0)] here) (.jmp false 2#6 false) = some (false, true, false, false) ∧
    jumpFails (withRegs 0#32 0x8A00#32 [(4, 0), (5, 0x800000)] here) (.jmp false 2#6 false) = some (false, false, true, false) ∧
    jumpFails (here.modSplit 3 0 fun p => { p with pc := 0x7FFFFFFFFFFFFC#64 }) (.bra false 4#16) =
      some (false, false, true, false) ∧
    jumpFails (deep (halves here)) (.brt false 1#3 4#16) = some (false, false, false, true) := by decide +kernel

/-- The hypotheses of BranchesGo: no deferred path, every thread active, the target in range, p0 true and p1 false in
every thread. -/
theorem witness_BranchesGo : (issuing here fun _ I => I.G.stack.isEmpty && I.act == I.S.mask && I.act != 0#32 &&
    targetOk (I.S.pc.toNat + 4 + 4 * (0x7FFF#16).toInt) && (threadsOf I.act).all (fun t => I.G.pred 0 t && !I.G.pred 1 t)) = true := by
  decide +kernel

/-- The clauses of FaultEntry: without a routine, and in trap mode; with one, a lane whose trap slot is free and one whose slot is
taken; and a group in whose name a routine runs, or that waits for the slot. -/
theorem witness_FaultEntry :
    (let s := rich.modCtx 0 fun c => { c with tvec := 0x8000#64 };
      [(s, Stop.none, false), (s.modLane 0 fun l => { l with trap := some 9 }, .none, true),
        (s.modGroup 3 fun g => { g with stop := .inTrap 9 }, .inTrap 9, false),
        (s.modGroup 3 fun g => { g with stop := .wantsTrap 1 .save }, .wantsTrap 1 .save, false)].all fun (s, stop, taken) =>
      issuing s fun s I => !I.trapped && (s.ctx I.G.ctx).tvec != 0#64 && I.G.stop == stop && (s.lane I.G.lane).trap.isSome == taken &&
        (mapFind s.groups s.nextUid).isNone && I.S.wait == .none) = true ∧
    (issuing rich fun s I => !I.trapped && (s.ctx I.G.ctx).tvec == 0#64) = true ∧
    (issuing (routine .save) fun _ I => I.trapped) = true := by decide +kernel

/-- Inside trap mode and outside it, with no transaction open; a context that is no system context, with `csr.wr` of
registers 1 and 3 ready to act. -/
theorem witness_ModeChecks :
    (issuing (routine .save) fun _ I => I.trapped && !I.S.released && I.S.mask != 0#32 && I.act != 0#32 && !I.inTx I.S.mask && !I.inTx I.act) = true ∧
    (issuing rich fun s I => !I.trapped && I.S.mask != 0#32 && !(s.ctx I.G.ctx).sys &&
      I.gate (I.need false true [] [csrOp 1#6 4#7 false] .uniform) == .go &&
      I.gate (I.need false true [] [csrOp 3#6 4#7 false] .uniform) == .go &&
      I.gate { mask := I.S.mask, regs := (pairOp 2#6).regs, srcs := [((pairOp 2#6).regs, false)] } == .go) = true := by
  decide +kernel

/-- A memory that lists something, in canonical form. -/
theorem witness_MemoryLaws : Memory.wf [(0, 1#8), (0xFFFF, 2#8)] := by decide

/-- A scratchpad store that acts in a workgroup with no windows, and whose bytes leave others alone. -/
theorem witness_ScratchStoreFrame :
    (issuing rich fun s I => s.wgs.all (fun x => x.2.windows.isEmpty && x.2.wlines.isEmpty && decide (Memory.wf x.2.scratch)) &&
      (scratchStore s I false (memOp 2#3 4#7 false) (one 8#7 false) 2#3 0#4 false).isSome &&
      (threadsOf I.act).all fun t => scratchPlace s I (one 8#7 false) 0 t == (2, 0)) = true := by decide +kernel

/-! ### Accesses and commands that are refused -/

/-- The first check of R168 that an access fails where it meets the hypotheses of AddressFaults: alignment, canonical form, wrap, a page
that is absent, a refusal; 5 where none fails. -/
def addressStop (x : State × Instr) : Option Nat :=
  x.1.iss.bind fun I => (accessOf I x.2).bind fun c => (if c.region then throughBoundary x.1 I else some x.1).bind fun z =>
    let va (t : Nat) : Nat := (c.x t).toNat
    let r := z.lookAll (laneTlbs I.G.lane) I.G.ctx { write := c.write, fetch := false, keys := true } (pagesOf I.act va c.n)
    if I.gate c.need != .go || I.G.txs != [] || (I.now z).txs != [] then none
    else if those I (fun t => c.x t % c.n != 0) != 0#32 then some 0
    else if those I (fun t => (I.G.pairVal c.a t).extractLsb' 56 8 != if (I.G.pairVal c.a t).getLsbD 55 then 0xFF#8 else 0#8) != 0#32 then some 1
    else if those I (fun t => decide (c.x t < 0) || !canonical (c.x t).toNat || !canonical ((c.x t).toNat + c.n - 1)) != 0#32 then some 2
    else if r.2.any fun p => p.2 == .absent then some 3
    else if those I (fun t => (r.1.refusal I r.2 va c.n c.windowOk t).isSome) != 0#32 then some 4
    else some 5

/-- The same of an access by offset: alignment, range; 2 where neither fails. -/
def offsetStop (f : Iss → Instr → Option OffsetAccess) (size : State → Iss → Nat) (x : State × Instr) : Option Nat :=
  x.1.iss.bind fun I => (f I x.2).bind fun c => (if c.region then throughBoundary x.1 I else some x.1).bind fun z =>
    if I.gate c.need != .go || I.G.txs != [] || (I.now z).txs != [] then none
    else if those I (fun t => c.o t % c.n != 0) != 0#32 then some 0
    else if those I (fun t => decide (c.o t < 0) || decide ((size z I : Int) ≤ c.o t)) != 0#32 then some 1
    else some 2

/-- A base address in g8 and g9, under a mode. -/
def based (mode : Word) (va : Nat) : State := withRegs mode 0x8A00#32 [(8, va % 2 ^ 32), (9, va / 2 ^ 32)] rich

/-- The accesses of AddressFaults, each with a mode whose type it takes. -/
def accesses : List (Word × Instr) :=
  [(0#32, .ldg false 4#7 4#6 2#3 0#4 false false), (0#32, .ldp false 4#7 4#6 2#3 0#4 false false),
   (0#32, .lda false 4#7 4#6 5#3 false false false), (0#32, .stg false 4#7 4#6 2#3 0#4 false false false),
   (0#32, .stp false 4#7 4#6 2#3 0#4 false false false), (0#32, .ldaPoll false 4#7 4#6 5#3 false false false false),
   (0#32, .stl false 4#7 4#6 5#3 false false false false), (0#32, .amoAdd false 4#7 8#7 5#3 false false false false),
   (0#32, .amoMin false 4#7 8#7 5#3 false false false false),
   (0#32, .amoMax false 4#7 8#7 5#3 false false false false),
   (0#32, .amoAnd false 4#7 8#7 5#3 false false false false),
   (0#32, .amoOr false 4#7 8#7 5#3 false false false false),
   (0#32, .amoXor false 4#7 8#7 5#3 false false false false),
   (0#32, .amoExch false 4#7 8#7 5#3 false false false false),
   (134217728#32, .amoIncw false 4#7 8#7 5#3 false false false false),
   (0#32, .redAdd false 4#7 8#7 5#3 false false false false),
   (0#32, .redMin false 4#7 8#7 5#3 false false false false),
   (0#32, .redMax false 4#7 8#7 5#3 false false false false),
   (0#32, .redAnd false 4#7 8#7 5#3 false false false false),
   (0#32, .redOr false 4#7 8#7 5#3 false false false false),
   (0#32, .redXor false 4#7 8#7 5#3 false false false false),
   (0#32, .cas false 4#7 8#7 5#3 false 0#3 false false false)]

/-- The same of the accesses to a scratchpad. -/
def scratches : List (Word × Instr) :=
  [(0#32, .lds false 4#7 8#7 2#3 0#4 false false), (0#32, .sts false 4#7 8#7 2#3 0#4 false false false),
   (0#32, .amoAdd false 4#7 8#7 2#3 true false false false),
   (0#32, .amoMin false 4#7 8#7 2#3 true false false false),
   (0#32, .amoMax false 4#7 8#7 2#3 true false false false),
   (0#32, .amoAnd false 4#7 8#7 2#3 true false false false), (0#32, .amoOr false 4#7 8#7 2#3 true false false false),
   (0#32, .amoXor false 4#7 8#7 2#3 true false false false),
   (0#32, .amoExch false 4#7 8#7 2#3 true false false false),
   (134217728#32, .amoIncw false 4#7 8#7 2#3 true false false false),
   (0#32, .redAdd false 4#7 8#7 2#3 true false false false),
   (0#32, .redMin false 4#7 8#7 2#3 true false false false),
   (0#32, .redMax false 4#7 8#7 2#3 true false false false),
   (0#32, .redAnd false 4#7 8#7 2#3 true false false false), (0#32, .redOr false 4#7 8#7 2#3 true false false false),
   (0#32, .redXor false 4#7 8#7 2#3 true false false false),
   (0#32, .cas false 4#7 8#7 2#3 true 0#3 false false false)]

/-- The page of data with a key that the context's PKR denies. -/
def refusing (s : State) : State :=
  { s with tlbs := [{ fetchPage with base := 0x20000, pte := 0x2165B#64 }] }.modCtx 0 fun c => { c with pkr := 0xFFFFFFFF#32 }

/-- Each clause of AddressFaults, of every access that has it, with the last width and offset that pass beside it. -/
theorem witness_AddressFaults :
    accesses.all (fun x => addressStop (based x.1 0x20001, x.2) == some 0) = true ∧
    accesses.all (fun x => addressStop (based x.1 0x80000000020000, x.2) == some 1) = true ∧
    ([.ldg false 4#7 4#6 2#3 1#4 false false, .stg false 4#7 4#6 2#3 1#4 false false false, .ldp false 4#7 4#6 2#3 1#4 false false,
      .stp false 4#7 4#6 2#3 1#4 false false false] : List Instr).all
        (fun i => addressStop (based 0#32 0x7FFFFFFFFFFFFC, i) == some 2) = true ∧
    addressStop (based 0#32 0x7FFFFFFFFFFFF8, .ldg false 4#7 4#6 2#3 1#4 false false) = some 3 ∧
    accesses.all (fun x => addressStop (based x.1 0x30000, x.2) == some 3) = true ∧
    accesses.all (fun x => addressStop (refusing (based x.1 0x20000), x.2) == some 4) = true ∧
    accesses.all (fun x => addressStop (based x.1 0x20000, x.2) == some 5) = true ∧
    scratches.all (fun x => offsetStop scratchOf (fun _ _ => 4096) (based x.1 1, x.2) == some 0) = true ∧
    scratches.all (fun x => offsetStop scratchOf (fun _ _ => 4096) (based x.1 4096, x.2) == some 1) = true ∧
    scratches.all (fun x => offsetStop scratchOf (fun _ _ => 4096) (based x.1 4080, x.2) == some 2) = true ∧
    offsetStop constantOf (fun _ _ => 4096) (based 0#32 2, .ldc false 4#7 8#7 2#3 0#4 false false) = some 0 ∧
    offsetStop constantOf (fun _ _ => 4096) (based 0#32 4096, .ldc false 4#7 8#7 2#3 0#4 false false) = some 1 ∧
    offsetStop constantOf (fun _ _ => 4096) (based 0#32 4092, .ldc false 4#7 8#7 2#3 0#4 false false) = some 2 := by decide +kernel

/-- The scratchpad and the constants of the workgroup of `rich` are as large as the tests above take them. -/
theorem witness_sizes : ((mapFind rich.grids 1).map fun d => (d.scratchBytes, d.csize)) = some (4096, 4096) := by decide +kernel

/-- Which ground of its refusals holds first, for a command that meets the hypotheses of EngineRefusals. -/
def refusedAt (x : State × Instr) : Option Nat :=
  x.1.iss.bind fun I => (atBoundary x.1 I I.act).bind fun z => (refusalsOf z I x.2).bind fun c =>
    if I.S.released || I.S.counted || I.gate c.need != .go || (c.lead && I.G.idx != 0) then none
    else c.grounds.findIdx? (·.holds)

/-- A descriptor in g4 to g7 and a word in g8, under a format. -/
def described (fmt : Word) (l : List (Nat × Nat)) : State := withRegs 0#32 fmt l rich

/-- The grounds of EngineRefusals, each where those before it do not hold. -/
theorem witness_EngineRefusals :
    ([(described 0x8A00#32 [], .cpyTile 1#5 2#5 5#4 false false false, 0), (described 0x8A00#32 [(5, 0x80000000)], .cpyTile 1#5 2#5 0#4 false false false, 1),
      (described 0x8A00#32 [(8, 1)], .cpyr 4#6 0#4 false false, 0), (described 0x8A00#32 [(9, 0x800000)], .cpyr 4#6 0#4 false false, 1),
      (described 0x8A0B#32 [], .mma 1#5 1#4 false false false, 0), (described 0x8A00#32 [(4, 0x40000)], .mma 1#5 1#4 false false false, 1),
      (described 0x8900#32 [], .mma 1#5 1#4 false false false, 2), (described 0x8A00#32 [], .cmma 1#5 1#4 false false false, 3),
      (described 0x8A00#32 [(6, 0x100)], .mma 1#5 1#4 false false false, 4), (described 0x8A00#32 [(6, 1)], .mma 1#5 1#4 false false false, 5),
      (described 0x8A98#32 [], .pmma 1#5 1#4 false false false, 6), (described 0x8A00#32 [(4, 97)], .mma 1#5 1#4 false false false, 7),
      (described 0x8A00#32 [(4, 0x20000)], .mxcZero 2#6 false false, 0), (described 0x8A00#32 [(5, 0x1000)], .mxcRscl 2#6 false false, 1),
      (described 0x8A00#32 [(4, 97)], .mxcZero 2#6 false false, 2), (described 0x8A00#32 [(5, 128)], .mxcRscl 2#6 false false, 2),
      (described 0x8A00#32 [(8, 1)], .tfenSync false 4#7 4#6 5#3 false false false, 0),
      (described 0x8A00#32 [(9, 0x800000)], .tinvPage false 4#7 4#6 5#3 false false false, 1),
      (described 0x8A00#32 [(4, 2), (8, 0xFFFF0000), (9, 0x7FFFFF)], .tfenSync false 4#7 4#6 5#3 false false false, 2),
      (described 0x8A00#32 [(4, 1), (8, 1)], .thintPin 2#6 8#7 false false, 0), (described 0x8A00#32 [(5, 0x800000)], .thintDemote 2#6 8#7 false false, 1),
      (described 0x8A00#32 [(4, 0xFFFF0000), (5, 0x7FFFFF), (8, 2)], .thintPromote 2#6 8#7 false false, 2),
      ({ described 0x8A00#32 [(8, 1)] with ctxs := [(0, here.ctx 0)] }, .migr 1#5 8#7 false false, 0),
      (described 0x8A00#32 [], .migr 1#5 8#7 false false, 1), (described 0x8A00#32 [(4, 1), (8, 1)], .migr 1#5 8#7 false false, 2),
      (described 0x8A00#32 [(5, 0x800000), (8, 1)], .migr 1#5 8#7 false false, 3),
      (described 0x8A00#32 [(4, 0xFFFF0000), (5, 0x7FFFFF), (8, 2)], .migr 1#5 8#7 false false, 4),
      (described 0x8A00#32 [(6, 1), (8, 1)], .migr 1#5 8#7 false false, 5), (described 0x8A00#32 [(7, 0x900000), (8, 1)], .migr 1#5 8#7 false false, 6),
      (described 0x8A00#32 [(8, 0x200001)], .migr 1#5 8#7 false false, 7),
      (described 0x8A00#32 [(8, 1)], .launch 2#6 4#6 0#3 false, 0), (described 0x8A00#32 [(9, 0x800000)], .launch 2#6 4#6 0#3 false, 1)] :
      List (State × Instr × Nat)).all (fun x => refusedAt (x.1, x.2.1) == some x.2.2) = true := by decide +kernel

/-! ### Words that fail a check -/

/-- How the checks of R90 end for a word of a family. -/
def gateOf (F : State → Iss → Instr → Option (Need × Option State)) (s : State) (i : Instr) : Option Gate :=
  s.iss.bind fun I => (F s I i).map fun x => I.gate x.1

/-- `rich` with an allotment of 16, with g8 empty, and with a guard that no thread passes. -/
def tight : State := rich.modGroup 3 fun g => { g with alloc := 16 }
def holed : State := rich.modGroup 3 fun g => g.putReg 8 { g.reg 8 with full := false }
def skipping : State := withRegs 0x220000#32 0x8A00#32 [] rich

/-- Each way in which the checks of FailedCommands end: beyond the allotment at its first register, an empty source, asserted and not,
no active thread; a link word among them; and the words that it names by themselves. -/
theorem witness_FailedCommands :
    gateOf loadLeft tight (.ldg false 16#7 4#6 2#3 0#4 false false) = some (.fault codeRegBound) ∧
    gateOf storeLeft holed (.stg false 8#7 2#6 2#3 0#4 false false false) = some (.wait [8]) ∧
    gateOf linkAfter tight (.sput 16#7 4#7 4#3 0#2 2#2 false false false) = some (.fault codeRegBound) ∧
    gateOf translationAfter holed (.tinvPage false 8#7 2#6 5#3 false true false) = some (.fault codeEmptyRead) ∧
    gateOf atomLeft skipping (.amoAdd false 4#7 8#7 5#3 false false false false) = some .skip ∧
    (issuing skipping fun s I => (throughBoundary s I).isSome) = true ∧
    (issuing tight fun _ I => I.G.alloc == (16#7).toNat) = true ∧
    (issuing holed fun _ I => I.gate (I.need false true [] [one 8#7 false] .uniform) == .wait [8] &&
      I.gate (I.need false true [] [one 8#7 true] .uniform) == .fault codeEmptyRead) = true ∧
    (issuing rich fun s I => macroFault (((s.gridOf I.G).map (·.image)).getD []) 5 == some (0, 0)) = true := by decide +kernel

/-! ### Harvests, memory, the register window, context slots, records, events -/

/-- A generator that the lanes begin with is not zero. -/
theorem witness_HardWiredRegisters : (Lane.reset 0).seed ≠ 0#24 ∧ (Lane.reset 4607).seed ≠ 0#24 := by decide

/-- Group 3 holding a word for thread 1 under policy 0, and one for thread 2 under policy 2. -/
def holding : State := rich.modGroup 3 fun g => { g with
  held := [{ pa := 0x20000, thread := 1, val := 5#32, policy := 0, info := someMeta },
           { pa := 0x20004, thread := 2, val := 6#32, policy := 2, info := someMeta }] }

/-- The hypotheses of HarvestFillsTheL1, for one of the threads, for both and for none. -/
theorem witness_HarvestFillsTheL1 : (match mapFind holding.groups 3 with
    | some g => [0x2#32, 0x6#32, 0#32].all fun m => decide ((holding.l1Lines g.core).length + g.held.length ≤ 4096) &&
        g.held.all fun h => !m.getLsbD h.thread || (!inWindow h.pa && (h.policy == 0 || h.policy == 2) &&
          g.prods.all fun p => p.reads.all fun r => r.pa != h.pa)
    | none => false) = true := by decide +kernel

/-- The hypotheses of StoresAreHeld: a translation of the page of data, each width at an address that is a multiple of it, a byte of a
word that is held, and one of a word that nothing holds and the core reads. -/
theorem witness_StoresAreHeld :
    ([(1, 0x20003), (2, 0x20002), (4, 0x20004), (8, 0x20008), (16, 0x20000)] : List (Nat × Nat)).all (fun x =>
      [1, 2, 4, 8, 16].contains x.1 && x.2 % x.1 == 0 && (List.range 4).all fun i => !decide (4 * i < x.1) ||
        xlatOf [(0x20000, .ok 0x20000 0 0)] (wordOf x.2 + 4 * i) == .ok (wordOf x.2 + 4 * i) 0 0) = true ∧
    ((mapFind holding.groups 3).bind fun g => g.heldWord 0x20000) = some 5#32 ∧
    ((mapFind rich.groups 3).bind fun g => g.heldWord 0x20000) = none ∧
    (issuing holding fun _ I => !I.trapped) = true := by decide +kernel

/-- The memory of a state whose next step answers a next state is in canonical form. -/
theorem witness_MemoryStaysCanonical :
    Memory.wf (State.reset.withFetchWord 32 0xFC000001).mem ∧ (match step (State.reset.withFetchWord 32 0xFC000001) with
      | .next _ => true
      | _ => false) = true := by decide +kernel

/-- The device of RegisterWindow has booted; a port isolated and active again; a queue that is enabled and one that is not, with a ring
that is aligned and one that is not; a context slot that is live and one that is free. -/
theorem witness_RegisterWindow :
    rich.host.booted = true ∧ rich.host.bootFail = false ∧ rich.host.attNonce.length = 8 ∧
    ({ rich with ports := [(0, { Port.reset with iso := true, active := true })] }.port 0).iso = true ∧
    ({ rich with queues := [(0, { HostQueue.reset with en := true })] }.queue 0).en = true ∧
    (rich.queue 0).en = false ∧ (rich.queue 0).base.toNat % 128 = 0 ∧
    ({ rich with queues := [(0, { HostQueue.reset with base := 64#64 })] }.queue 0).base.toNat % 128 ≠ 0 ∧
    (rich.ctx 0).st = .live ∧ (rich.ctx 1).st = .free := by decide +kernel

/-- A descriptor at 0x30000 for context slot 1: its words, three to begin with. -/
def describedAt (a b c : Nat) : State :=
  { rich with mem := ([(0, a), (1, b), (7, c)] : List (Nat × Nat)).foldl (fun m (x : Nat × Nat) => writeBytes m (0x30000 + 8 * x.1) x.2 8) rich.mem }.modCtx 1
    fun x => { x with desc := 0x30000#64 }

/-- The hypotheses of ContextSlots in each state of a slot: a descriptor that is misaligned, one that cannot be read, one with reserved
bits, one whose root is not backed or not aligned, and one that passes; the other states; and a resetting slot whose commands are
over, with a destroy and without one. -/
theorem witness_ContextSlots :
    rich.cpRuns = true ∧ (rich.ctx 0).st = .live ∧ (rich.ctx 1).st = .free ∧
    ((rich.modCtx 1 fun c => { c with desc := 32#64 }).ctx 1).desc.toNat % 64 ≠ 0 ∧
    (rich.modCtx 1 fun c => { c with desc := 0x70000000000000#64 }).physWords 0x70000000000000 16 = none ∧
    ([describedAt 0x40000 1 1, describedAt 0x40000 8 0, describedAt 0x40001 1 0, describedAt 0x40000 7 0].map fun s =>
      ((s.physWords 0x30000 16).map dwords).map fun r =>
        (field r 1 31 3 == 0 && field r 7 63 0 == 0 && field r 6 63 16 == 0, field r 0 63 0 % 65536 == 0 && backed (field r 0 63 0))) =
      [some (false, true), some (false, true), some (true, false), some (true, true)] ∧
    (let s := { State.reset with ctxs := [(0, { Ctx.reset with st := .resetting }), (1, { Ctx.reset with st := .resetting, destroy := true }),
        (2, { Ctx.reset with st := .held }), (3, { Ctx.reset with st := .ended })] };
      s.cpRuns && (s.dropHopeless 0).ctxQuiet 0 && (s.dropHopeless 1).ctxQuiet 1 && (s.ctx 2).st == .held && (s.ctx 3).st == .ended) =
      true := by decide +kernel

/-- A management queue in host A's memory, with a ring of 16 records at 0x10000000100000, of which so many have been written. -/
def managed (written : Nat) : State :=
  { rich with
    pend := [{ someRecord with queue := { slot := none, va := 0 } }]
    host := { rich.host with mgqDesc := 0x10000000000000#64 }
    mem := ([(0, 0x10000000100000), (1, 4), (2, written)] : List (Nat × Nat)).foldl (fun m x => writeBytes m (0x10000000000000 + 8 * x.1) x.2 8) rich.mem }

/-- The hypotheses of RecordContents on the append, but for whether the host answers, which is a constant of Config: the record may be
delivered, the descriptor and the slot lie in host memory, with the ring not full and full; and `csr.rd` of CSTAT and of UREC 0 and 15
that may act. -/
theorem witness_RecordContents :
    ([0, 15, 16].map fun n => (managed n).mayDeliver 0 && (managed n).ovfDue == [] && (managed n).farDirty == [] &&
      decide (Memory.wf (managed n).mem) && isHostMem 0x10000000000000 && isHostMem (0x10000000100000 + 64 * n) &&
      decide ((readWord (managed n).mem 0x10000000000010).toNat < 16)) = [true, true, false] ∧
    (issuing rich fun _ I => [7#6, 16#6, 31#6].all fun n => I.gate (I.need false true [] [csrOp n 4#7] .uniform) == .go) = true := by
  decide +kernel

/-- The hypotheses of EventEffects: a line of the L1 with a dirty word, one without and one that is not there; a producer whose values
have been read, with a predicate and without; a walk that passes. -/
theorem witness_EventEffects :
    (let s := { rich with l1 := [((0, 0x20000), { val := 1#32, dirty := true, own := true, info := someMeta, stream := false }),
        ((0, 0x30000), { val := 1#32, dirty := false, own := true, info := someMeta, stream := false })] };
      [0x20000, 0x30000, 0x40000].map fun a => s.l1.all fun x => x.1.1 != 0 || lineOf x.1.2 != lineOf a || !x.2.dirty) =
      [false, true, true] ∧
    (let p : Producer := {
        id := 7, split := 0, dsts := [(5, sameVals 9#32)], mask := 0xFF#32, region := fullMask, pc := 0x10000#64
        ty := 0, consumed := [], at_ := 0, tag := .general, ext := [] };
      let t := rich.modGroup 3 fun g => { g with prods := [p, { p with id := 8, dsts := [], pred := some (1, 3#32) }] };
      (mapFind t.groups 3).any fun g => g.splits != [] && [7, 8].all fun n => (g.prods.find? fun x => x.id == n).any fun q =>
        q.pan == [] && q.consumed == [] && g.prods.all (fun x => x.id != n || x.reads == []) && (q.dsts.map (·.1)).Nodup &&
        !(q.dsts.map (·.1)).contains 0) = true ∧
    ((mapped.ctx 0).st = .live ∧ mapped.tlbFind (laneTlbs 0) 0 0x50000 = none ∧
      (match mapped.look (laneTlbs 0) 0 0x50000 { write := true, fetch := false, keys := true } with
        | (_, .ok pa _ _) => pa == 0x50000
        | _ => false) = true) := by decide +kernel

end Sys2Proof.Tests
end

section
/-!
SUPPORT. The control plane's events and the hosts' commands as the statements spell them (R18, R391 to R393, R409, R415), and what
reset leaves.
-/

namespace Sys2Proof.Machine

open Sys2Proof.Claims

/-! ### Events that answer their rule's state, and change nothing where they are not due -/

/-- An event that leaves its rule's state where it is due, and the state as it was where it is not, happens as its rule says. -/
theorem happens_of_getD {s : State} {F : Instr → Option State} {i : Instr} (h : exec i s = .next ((F i).getD s)) : Happens s F i := by
  intro t ht
  rw [h, ht]
  rfl

variable (s : State)

/-! ### Votes (R18, R409) -/

/-- A disagreement of a block that runs lets it go on or stops it. -/
theorem execVoteDisagreement_eq (b : Nat) (two : Bool) :
    execVoteDisagreement b two s = .next ((planeEvent s (.voteDisagreement b two)).getD s) := by
  simp only [execVoteDisagreement, planeEvent]
  by_cases hstopped : 18 < b ∨ (!(s.vote b).2.2.1) = true
  · simp only [if_pos hstopped, Option.getD_none]
  · by_cases hgoes : (two && !(s.vote b).2.2.2) = true
    · simp only [if_neg hstopped, if_pos hgoes, Option.getD_some, State.free_votes]
    · simp only [if_neg hstopped, if_neg hgoes, Option.getD_some]

/-- A resynchronisation ends where one is under way. -/
theorem execResyncComplete_eq (b : Nat) : execResyncComplete b s = .next ((planeEvent s (.resyncComplete b)).getD s) := by
  simp only [execResyncComplete, planeEvent]
  by_cases hagain : ((s.vote b).2.2.1 && (s.vote b).2.2.2) = true
  · simp only [if_pos hagain, Option.getD_some]
  · simp only [if_neg hagain, Option.getD_none]

/-- A stopped block starts again; that of the command processor stops the queues and takes the commands that have come to wait. -/
theorem execControlPlaneRestart_eq (b : Nat) :
    execControlPlaneRestart b s = .next ((planeEvent s (.controlPlaneRestart b)).getD s) := by
  simp only [execControlPlaneRestart, planeEvent]
  by_cases hruns : 18 < b ∨ (s.vote b).2.2.1 = true
  · simp only [if_pos hruns, Option.getD_none]
  · simp only [if_neg hruns, Option.getD_some]

/-! ### Commands of a context slot (R18, R391, R409) -/

/-- Whether the command processor runs is no matter of the context slots. -/
@[simp] theorem State.modCtx_cpRuns (k : Nat) (f : Ctx → Ctx) : (s.modCtx k f).cpRuns = s.cpRuns := rfl

variable {s} in
/-- A stopped command processor keeps a command until it runs again. -/
theorem State.ctxCommand_of_stopped (k : Nat) {n : Nat} (hn : n < 8) (h : s.cpRuns = false) :
    s.ctxCommand k n = (s.modCtx k fun c => { c with cmd := n }).modCtx k fun c => { c with todo := c.todo ++ [n] } := by
  simp [State.ctxCommand, Nat.mod_eq_of_lt hn, h]

variable {s} in
/-- A command that the running command processor takes up as its rule says happens as its rule says: a stopped one keeps it, and a
slot that does not exist takes none. -/
theorem happens_commanded {i : Instr} {k n : Nat} (f : State → State)
    (hi : exec i s = .next (if 1024 ≤ k then s else s.ctxCommand k n)) (hF : planeEvent s i = commanded s k n f) (hn : n < 8)
    (hf : s.cpRuns = true → s.ctxCommand k n = f (s.modCtx k fun c => { c with cmd := n })) : Happens s (planeEvent s) i := by
  intro t ht
  rw [hF, commanded] at ht
  by_cases hk : 1024 ≤ k
  · simp [hk] at ht
  · simp only [if_neg hk, Option.some.injEq] at ht
    rw [hi, if_neg hk, ← ht]
    cases hruns : s.cpRuns with
    | true => rw [hf hruns, if_pos rfl]
    | false => rw [State.ctxCommand_of_stopped k hn hruns, if_neg Bool.false_ne_true]

/-- The command to create a context. -/
theorem happens_contextCreate (k : Nat) : Happens s (planeEvent s) (.contextCreate k) :=
  happens_commanded (fun t => t.createCtx k) rfl rfl (by decide) fun hruns => by simp [State.ctxCommand, hruns]

/-- The command to destroy a context. -/
theorem happens_contextDestroy (k : Nat) : Happens s (planeEvent s) (.contextDestroy k) :=
  happens_commanded (fun t => t.destroyCtx k) rfl rfl (by decide) fun hruns => by simp [State.ctxCommand, hruns]

/-- The command to resume a context. -/
theorem happens_contextResume (k : Nat) : Happens s (planeEvent s) (.contextResume k) :=
  happens_commanded (fun t => t.resumeCtx k) rfl rfl (by decide) fun hruns => by simp [State.ctxCommand, hruns]

/-- The command to reset a context. -/
theorem happens_contextReset (k : Nat) : Happens s (planeEvent s) (.contextReset k) :=
  happens_commanded (fun t => t.hostReset k) rfl rfl (by decide) fun hruns => by simp [State.ctxCommand, hruns]

/-- A resetting context whose commands are complete ends. (One whose commands are not loses the commands that can never start, so
the event is not the same as no event where it is not due.) -/
theorem happens_contextEnd (k : Nat) : Happens s (planeEvent s) (.contextEnd k) := by
  intro t ht
  simp only [planeEvent, Option.ite_none_left_eq_some, not_or, Option.some.injEq] at ht
  obtain ⟨⟨hruns, hreset, hquiet⟩, rfl⟩ := ht
  have hdue : ¬(!s.cpRuns || (s.ctx k).st != .resetting) = true := by simpa using And.intro hruns hreset
  show execContextEnd k s = _
  simp only [execContextEnd, if_neg hdue, if_neg hquiet]

/-- A live context is held at the hosts' request. -/
theorem execPreemptionRequest_eq (k : Nat) : execPreemptionRequest k s = .next ((planeEvent s (.preemptionRequest k)).getD s) := by
  simp only [execPreemptionRequest, planeEvent, State.requestPre]
  by_cases hk : 1024 ≤ k
  · simp [hk]
  · by_cases hlive : (s.ctx k).st = .live <;> simp [hk, hlive]

/-- A write to CTXDBG of a slot that exists lets the split at its location go on. -/
theorem execBreakpointResume_eq (k : Nat) (loc : BitVec 32) :
    execBreakpointResume k loc s = .next ((planeEvent s (.breakpointResume k loc)).getD s) := by
  simp only [execBreakpointResume, planeEvent, State.resumeBrk, apply_ite (Option.getD · s), Option.getD_none, Option.getD_some]

/-- The page-resume doorbell of a slot that exists wakes what waits for a page. -/
theorem execPageResumeDoorbell_eq (k : Nat) :
    execPageResumeDoorbell k s = .next ((planeEvent s (.pageResumeDoorbell k)).getD s) := by
  simp only [execPageResumeDoorbell, planeEvent, State.ringPages, apply_ite (Option.getD · s), Option.getD_none, Option.getD_some]

/-! ### Host queues (R393) -/

/-- Setting a bit of a word leaves a field that ends below it alone. -/
theorem extractLsb'_or_enable (v : Word) (i n : Nat) (h : i + n ≤ 31) :
    (v ||| 0x80000000#32).extractLsb' i n = v.extractLsb' i n := by
  ext j hj
  have hbit : (0x80000000#32).getLsbD (i + j) = false := by
    have hne : 31 ≠ i + j := by omega
    rw [show 0x80000000#32 = BitVec.twoPow 32 31 from rfl, BitVec.getLsbD_twoPow]
    simp [hne]
  simp [hbit]

/-- HQCTL written with its enable bit set. -/
theorem execQueueEnable_eq (q : Nat) (ctl : BitVec 32) :
    execQueueEnable q ctl s = .next ((planeEvent s (.queueEnable q ctl)).getD s) := by
  have hen : (ctl ||| 0x80000000#32).getLsbD 31 = true := by simp
  unfold execQueueEnable State.writeQueueCtl
  rw [hen, extractLsb'_or_enable ctl 16 4 (by decide), extractLsb'_or_enable ctl 0 10 (by decide)]
  by_cases hq : 8192 ≤ q
  · simp [planeEvent, hq]
  · by_cases hon : (s.queue q).en = true
    · simp [planeEvent, hq, hon]
    · simp only [planeEvent, if_neg hq, if_neg hon, if_neg (not_or.mpr ⟨hq, hon⟩), Bool.not_true, Bool.false_eq_true, if_false,
        Option.getD_some]
      -- the slot's state is read before the queue's registers change and after, which is the same
      rfl

/-- A queue that exists is disabled. -/
theorem execQueueDisable_eq (q : Nat) : execQueueDisable q s = .next ((planeEvent s (.queueDisable q)).getD s) := by
  simp only [execQueueDisable, planeEvent, apply_ite (Option.getD · s), Option.getD_none, Option.getD_some]

/-- HQTAIL is written, but for a queue in the memory of a host whose port is in reset. -/
theorem execQueueDoorbell_eq (q : Nat) (tail : BitVec 32) :
    execQueueDoorbell q tail s = .next ((planeEvent s (.queueDoorbell q tail)).getD s) := by
  simp only [execQueueDoorbell, planeEvent, State.ringQueue]
  by_cases hq : 8192 ≤ q
  · simp [hq]
  · cases regionOf (s.queue q).base.toNat with
    | host h => by_cases hdark : h ∈ s.host.inReset <;> simp [hq, hdark]
    | _ => simp [hq]

/-- Settles O47: each event leaves the state of its rule, command by command. -/
theorem planeEvents : Obligations.PlaneEvents := fun s =>
  ⟨fun b two => happens_of_getD (execVoteDisagreement_eq s b two), fun b => happens_of_getD (execResyncComplete_eq s b),
    fun b => happens_of_getD (execControlPlaneRestart_eq s b), happens_contextCreate s, happens_contextDestroy s,
    happens_contextResume s, happens_contextReset s, happens_contextEnd s,
    fun k => happens_of_getD (execPreemptionRequest_eq s k), fun k loc => happens_of_getD (execBreakpointResume_eq s k loc),
    fun k => happens_of_getD (execPageResumeDoorbell_eq s k), fun q ctl => happens_of_getD (execQueueEnable_eq s q ctl),
    fun q => happens_of_getD (execQueueDisable_eq s q), fun q tail => happens_of_getD (execQueueDoorbell_eq s q tail)⟩

/-! ### Reset (R20, R59, R374, R391, R393, R423) -/

/-- After reset no lane, slot, queue or port is listed: each reads as its own reset value. -/
@[simp] theorem State.reset_lane (n : Nat) : State.reset.lane n = Lane.reset n := rfl
@[simp] theorem State.reset_ctx (k : Nat) : State.reset.ctx k = Ctx.reset := rfl
@[simp] theorem State.reset_queue (q : Nat) : State.reset.queue q = HostQueue.reset := rfl
@[simp] theorem State.reset_port (j : Nat) : State.reset.port j = Port.reset := rfl

/-- The generator of lane L of device core c begins with 1 + 64·c + L (R59). -/
theorem Lane.reset_seed (core lane : Nat) : (Lane.reset (64 * core + lane)).seed = BitVec.ofNat 24 (1 + 64 * core + lane) :=
  congrArg (BitVec.ofNat 24) (Nat.add_assoc 1 (64 * core) lane).symm

/-- A group begins with one split, of all its threads, at its grid's entry in the default mode and format (R33, R80, R83). -/
theorem newGroup_splits (w : Nat) (d : Grid) (pair pres : Bool) (i lane slot : Nat) :
    (newGroup w d pair pres i lane slot).splits.all
      (fun p => p.mode == 0#32 && p.fmt == 0x8A00#32 && p.mask == fullMask && p.pc == d.entry) = true := by
  simp [newGroup]

/-- Settles O52: the registers of the device, then each of the generators, slots, queues and ports, a group that begins, and memory. -/
theorem resetValues : Obligations.ResetValues := by
  refine ⟨rfl, rfl, rfl, rfl, rfl, ?generators, ?slots, ?queues, ?ports, newGroup_splits, rfl, wf_reset⟩
  case generators => exact fun core lane _ _ => Lane.reset_seed core lane
  case slots => intro k; rw [State.reset_ctx]; exact ⟨rfl, rfl, rfl, rfl, rfl, rfl⟩
  case queues => intro q; rw [State.reset_queue]; exact ⟨rfl, rfl, rfl⟩
  case ports => intro j; rw [State.reset_port]; exact ⟨rfl, rfl, rfl⟩

end Sys2Proof.Machine
end

section
/-!
SUPPORT. The words of the number formats: floating-point arithmetic (R134 to R136, R329), the unary words and the conversions
(R138 to R143), and the reductions and scans of a group (R69, R162, R330). What a shared operation writes is said once; a word is
then its operation with the word's own function in it.
-/

namespace Sys2Proof.Machine

open Sys2Proof.Claims

section Operations

variable {s : State} {I : Iss}

/-- A word whose effect writes as its row says, once its checks pass, writes as its row says. -/
theorem writes_of_wrote {F : Instr → Option Row} {i : Instr} {r : Row} {f : Iss → State} (hs : s.iss = some I)
    (hrow : F i = some r) (hexec : exec i s = s.withIss f) (hwrote : I.gate r.need = .go → r.Wrote s (f I) I) :
    Writes s I F i := by
  intro r' hr' hgate
  obtain rfl : r = r' := Option.some.inj (hrow.symm.trans hr')
  exact ⟨f I, hexec.trans (State.withIss_some f hs), hwrote hgate⟩

/-! ### The shared operations of floating point (R58 to R61, R134, R135, R138 to R140) -/

/-- A word whose elements are each the one rounding of an exact value. -/
theorem State.exact_wrote {u : Bool} {d : BitVec 7} {srcs : List Opnd} {f : Nat → Nat → FVal} {e : Bool} (hs : s.iss = some I)
    (hg : I.gate (exactRow s I u d srcs f e).need = .go) :
    (exactRow s I u d srcs f e).Wrote s (s.exact I u d srcs f e) I :=
  State.rounded_wrote hs (dataOp_cnt I.S.ty d false) hg

/-- A word of two floating-point sources. -/
theorem State.float2_wrote {u : Bool} {d a b : BitVec 7} {k l : Bool} {f : FVal → FVal → FVal} {e : Bool} (hs : s.iss = some I)
    (hg : I.gate (floatRow2 s I u d a b k l f e).need = .go) :
    (floatRow2 s I u d a b k l f e).Wrote s (s.float2 I u d a b k l f e) I :=
  State.exact_wrote hs hg

/-- A floating-point word to which d is the third source. -/
theorem State.float3_wrote {u : Bool} {d a b : BitVec 7} {k l : Bool} {f : FVal → FVal → FVal → FVal} {e : Bool}
    (hs : s.iss = some I) (hg : I.gate (floatRow3 s I u d a b k l f e).need = .go) :
    (floatRow3 s I u d a b k l f e).Wrote s (s.float3 I u d a b k l f e) I :=
  State.exact_wrote hs hg

/-- A unary word of exact elements. -/
theorem State.fop1_wrote {u : Bool} {d a : BitVec 7} {k : Bool} {f : Fmt → Nat → Nat} {e : Bool} (hs : s.iss = some I)
    (hg : I.gate (signRow s I u d a k f e).need = .go) : (signRow s I u d a k f e).Wrote s (s.fop1 I u d a k f e) I :=
  State.elementwise_wrote hs (dataOp_cnt I.S.ty d false) hg

/-- A rounded function of each element. -/
theorem State.fopFun_wrote {u tyOk : Bool} {d a : BitVec 7} {k : Bool} {fn : Fun} {e : Bool} (hs : s.iss = some I)
    (hg : I.gate (funRow s I u tyOk d a k fn e).need = .go) :
    (funRow s I u tyOk d a k fn e).Wrote s (s.fopFun I u tyOk d a k fn e) I :=
  State.rounded_wrote hs (dataOp_cnt I.S.ty d false) hg

/-- A result of 64 bits takes two registers, and every other one register (R141). -/
theorem cnt_of_bits (bits : Nat) : (if bits = 64 then 2 else 1) = 1 ∨ (if bits = 64 then 2 else 1) = 2 := by
  split
  · exact .inr rfl
  · exact .inl rfl

/-! ### The scan of affine maps (R330) -/

/-- A scan of affine maps writes both components of the running map into a pair, and keeps the generator as the last of its
roundings left it (R59). -/
theorem writes_gscanAff (hs : s.iss = some I) (d a : BitVec 6) (x k e : Bool) :
    Writes s I (foldRow s I) (.gscanAff d a x k e) := by
  refine writes_of_wrote hs rfl rfl fun hg => ?_
  dsimp only
  rw [State.word_go e _ hg]
  exact State.seeded_wrote _ hs (.inr rfl)

end Operations

/-! ### The words -/

/-- Settles O15: sums and products are roundings of exact values, fmin and fmax pick one of two encodings, and fdot2 and lrec round
into one f32 register. -/
theorem floatWords : Obligations.FloatWords := by
  intro s I hs
  refine ⟨?fadd, ?fsub, ?fmul, ?ffma, ?ffms, ?fmin, ?fmax, ?fscl, ?fdot2, ?lrec⟩
  case fadd | fsub | fmul => exact fun u d a b k l e => writes_of_wrote hs rfl rfl (State.float2_wrote hs)
  case ffma | ffms => exact fun u d a b k l e => writes_of_wrote hs rfl rfl (State.float3_wrote hs)
  case fmin | fmax =>
    exact fun u d a b k l e => writes_of_wrote hs rfl rfl (State.elementwise_wrote hs (dataOp_cnt I.S.ty d false))
  case fscl => exact fun u d a b k l e => writes_of_wrote hs rfl rfl (State.exact_wrote hs)
  case fdot2 | lrec => exact fun u d a b k l e => writes_of_wrote hs rfl rfl (State.rounded_wrote hs (.inl rfl))

/-- Settles O16: three words of exact elements, the rounded functions, and the conversions, of which cvt writes a pair where its
elements fill 64 bits and pack one register. -/
theorem unaryFloatWords : Obligations.UnaryFloatWords := by
  intro s I hs
  refine ⟨?fneg, ?fabs, ?fclass, ?frcp, ?frsq, ?fsqrt, ?fex2, ?flg2, ?fsin, ?fcos, ?ftanh, ?frni, ?frzi, ?frpi, ?frmi, ?ffract,
    ?cvt, ?pack⟩
  case fneg | fabs | fclass => exact fun u d a k e => writes_of_wrote hs rfl rfl (State.fop1_wrote hs)
  case frcp | frsq | fsqrt | fex2 | flg2 | fsin | fcos | ftanh | frni | frzi | frpi | frmi | ffract =>
    exact fun u d a k e => writes_of_wrote hs rfl rfl (State.fopFun_wrote hs)
  case cvt => exact fun u d a t k e => writes_of_wrote hs rfl rfl (State.rounded_wrote hs (cnt_of_bits _))
  case pack => exact fun u d a b k l e => writes_of_wrote hs rfl rfl (State.rounded_wrote hs (.inl rfl))

/-- Settles O17: a reduction and a scan in each operation, and the scan of affine maps. -/
theorem foldWords : Obligations.FoldWords := by
  intro s I hs
  refine ⟨?redAdd, ?redMin, ?redMax, ?redAnd, ?redOr, ?redXor, ?scanAdd, ?scanMin, ?scanMax, ?scanAnd, ?scanOr, ?scanXor, ?scanMul,
    writes_gscanAff hs⟩
  case redAdd | redMin | redMax | redAnd | redOr | redXor =>
    exact fun u d a k e => writes_of_wrote hs rfl rfl (State.gred_wrote hs)
  case scanAdd | scanMin | scanMax | scanAnd | scanOr | scanXor | scanMul =>
    exact fun d a x k e => writes_of_wrote hs rfl rfl (State.gscan_wrote hs)

end Sys2Proof.Machine
end

section
/-!
SUPPORT. Words and instructions: what is encoded decodes, and what decodes is encoded (R72 to R77, R86 to R88).
-/

namespace Sys2Proof

/-! ### Bits and fields of a column

A column that holds two fields is their append. Its width stands in the model as a numeral, so `simp` must not look for a sum
there: hence `no_index`. -/

section Append

variable {n m : Nat} (hi : BitVec n) (lo : BitVec m)

/-- Two fields make a column where each is its part of the column. -/
theorem append_eq_iff (v : BitVec (n + m)) :
    @Eq (no_index (BitVec (n + m))) (HAppend.hAppend (γ := no_index (BitVec (n + m))) hi lo) v ↔
      hi = v.extractLsb' m n ∧ lo = v.extractLsb' 0 m := by
  constructor
  · rintro rfl
    exact ⟨BitVec.extractLsb'_append_eq_left.symm, BitVec.extractLsb'_append_eq_right.symm⟩
  · rintro ⟨rfl, rfl⟩
    apply BitVec.eq_of_getLsbD_eq
    intro i hi
    rw [BitVec.getLsbD_append]
    by_cases h : i < m
    · simp [h]
    · simp [h, show i - m < n by omega, show m + (i - m) = i by omega]

/-- A part of the upper field. -/
@[simp] theorem extract_append_upper {s l : Nat} (h : m ≤ s) :
    BitVec.extractLsb' (n := no_index (n + m)) s l (HAppend.hAppend (γ := no_index (BitVec (n + m))) hi lo) =
      hi.extractLsb' (s - m) l :=
  BitVec.extractLsb'_append_eq_of_le h

/-- A part of the lower field. -/
@[simp] theorem extract_append_lower {s l : Nat} (h : s + l ≤ m) :
    BitVec.extractLsb' (n := no_index (n + m)) s l (HAppend.hAppend (γ := no_index (BitVec (n + m))) hi lo) =
      lo.extractLsb' s l :=
  BitVec.extractLsb'_append_eq_of_add_le h

/-- A bit of a column is a bit of one of its fields. -/
@[simp] theorem getElem_append_fields (i : Nat) (h : i < n + m) :
    GetElem.getElem (coll := no_index (BitVec (n + m))) (HAppend.hAppend (γ := no_index (BitVec (n + m))) hi lo) i h =
      if i < m then lo.getLsbD i else hi.getLsbD (i - m) :=
  BitVec.getLsbD_append

end Append

/-- A part of a part. -/
@[simp] theorem extract_extract {n : Nat} (v : BitVec n) {s l s' l' : Nat} (h : s' + l' ≤ l) :
    (v.extractLsb' s l).extractLsb' s' l' = v.extractLsb' (s + s') l' := by
  apply BitVec.eq_of_getLsbD_eq
  intro i hi
  simp [hi, Nat.add_assoc, show s' + i < l by omega]

/-- A part of one bit is that bit. -/
theorem extract_one {n : Nat} (v : BitVec n) (k : Nat) : v.extractLsb' k 1 = BitVec.ofBool (v.getLsbD k) := by
  apply BitVec.eq_of_getLsbD_eq
  intro i hi
  obtain rfl : i = 0 := by omega
  simp

/-- One bit that is 0 is the bit false. -/
@[simp] theorem zero_eq_ofBool (b : Bool) : 0#1 = BitVec.ofBool b ↔ b = false := by revert b; decide

/-- One bit that is 1 is the bit true. -/
@[simp] theorem one_eq_ofBool (b : Bool) : 1#1 = BitVec.ofBool b ↔ b = true := by revert b; decide

/-- A column is a number where both of its fields, of n and of m bits, are that number's. -/
theorem ofNat_eq_iff {n m : Nat} (k : Nat) (v : BitVec (n + m)) : BitVec.ofNat (n + m) k = v ↔
    (BitVec.ofNat (n + m) k).extractLsb' m n = v.extractLsb' m n ∧
      (BitVec.ofNat (n + m) k).extractLsb' 0 m = v.extractLsb' 0 m := by
  rw [← append_eq_iff]
  exact ⟨fun h => h ▸ (append_eq_iff _ _ _).2 ⟨rfl, rfl⟩, fun h => h ▸ ((append_eq_iff _ _ _).2 ⟨rfl, rfl⟩).symm⟩

/-! ### Operands that lie in several columns (R72, R74) -/

/-- A third register, in x and y. -/
@[simp] theorem register_join (b : BitVec 7) : (b.extractLsb' 4 3 ++ b.extractLsb' 0 4 : BitVec 7) = b := by
  simp [append_eq_iff]

/-- A source thread, in the last bit of x and in y (R160). -/
@[simp] theorem thread_join (v : BitVec 5) : (v.extractLsb' 4 1 ++ v.extractLsb' 0 4 : BitVec 5) = v := by
  simp [append_eq_iff]

/-- The six bits of smap, in x and in the upper bits of y. -/
@[simp] theorem smap_join (b : BitVec 6) : (b.extractLsb' 3 3 ++ b.extractLsb' 0 3 : BitVec 6) = b := by
  simp [append_eq_iff]

/-- The number of a control register, in the lower bits of x and in y (R424). -/
@[simp] theorem csr_join (n : BitVec 6) : (n.extractLsb' 4 2 ++ n.extractLsb' 0 4 : BitVec 6) = n := by
  simp [append_eq_iff]

/-- The immediate of 16 bits, in a, x, y, F and G. -/
@[simp] theorem immediate_join (i : BitVec 16) : (i.extractLsb' 9 7 ++ i.extractLsb' 6 3 ++ i.extractLsb' 2 4 ++
    BitVec.ofBool i[1] ++ BitVec.ofBool i[0] : BitVec 16) = i := by
  simp [append_eq_iff, extract_one]

/-- The number of a trap, in the lower bits of x, in y, F and G. -/
@[simp] theorem trap_join (n : BitVec 8) :
    (n.extractLsb' 6 2 ++ n.extractLsb' 2 4 ++ BitVec.ofBool n[1] ++ BitVec.ofBool n[0] : BitVec 8) = n := by
  simp [append_eq_iff, extract_one]

/-- The routine of a macro call, in y, F and G. -/
@[simp] theorem routine_join (r : BitVec 6) :
    (r.extractLsb' 2 4 ++ BitVec.ofBool r[1] ++ BitVec.ofBool r[0] : BitVec 6) = r := by
  simp [append_eq_iff, extract_one]

/-! ### What is encoded decodes -/

/-- A row whose fixed bits hold answers its instruction. -/
theorem row_ok {c : Bool} {i j : Instr} (hc : c = true) (hj : j = i) : row c j = .ok i := by
  rw [hc, hj]; rfl

/-- Columns that select a row whose fixed bits hold decode to its instruction. -/
theorem decodeStrip_of_row {t : Strip} {c : Bool} {i j : Instr} (h : decodeStrip t = row c j) (hc : c = true) (hj : j = i) :
    decodeStrip t = .ok i :=
  h.trans (row_ok hc hj)

/-- Columns whose sub code is one of its opcode's select the row. -/
theorem eq_of_if {α : Type} {p : Prop} [Decidable p] {y r x z : α} (h : y = if p then r else x) (hp : p) (hr : r = z) :
    y = z := by
  rw [h, if_pos hp, hr]

/-- Columns whose sub code is not the first of its opcode's select another row. -/
theorem eq_of_else {α : Type} {p : Prop} [Decidable p] {y r x z : α} (h : y = if p then r else x) (hp : ¬p) (hx : x = z) :
    y = z := by
  rw [h, if_neg hp, hx]

/-- The size code of a link word is one of three. -/
theorem linkSize_lt {z : BitVec 2} {d : BitVec 7} (h : linkSizeOk z d = true) : z.toNat < 3 := by
  have h3 : z ≠ 3#2 := by rintro rfl; simp [linkSizeOk] at h
  have : z.toNat ≠ 3 := fun h => h3 (BitVec.eq_of_toNat_eq h)
  omega

section Encoded

variable {i : Instr} {t : Strip}

/-- The words of the lanes, opcodes 0x00 to 0x3F. -/
theorem decodeStrip_encodeStrip_of_lane (hw : wellFormed i = true) (ht : encodeStrip i = some t) (hop : t.op.toNat < 64) :
    decodeStrip t = .ok i := by
  cases i
  case illegal => cases ht; rfl
  case cvt =>
    cases ht
    exact eq_of_if (by with_unfolding_all rfl) (by simpa [wellFormed] using hw) (row_ok rfl rfl)
  case unpk =>
    cases ht
    simp only [wellFormed, Bool.and_eq_true, bne_iff_ne, ne_eq] at hw
    obtain ⟨hchunk, hkind⟩ := hw
    exact eq_of_else (by with_unfolding_all rfl) (by simpa using hkind) (eq_of_if rfl hchunk (row_ok (by simp) (by simp)))
  -- every other word of the lanes fixes its row by its opcode and a sub code that is a numeral
  all_goals cases ht
  all_goals simp at hop
  all_goals exact decodeStrip_of_row (by with_unfolding_all rfl) (by simp) (by simp)

/-- The words of the group and of memory, opcodes 0x40 to 0x5F. -/
theorem decodeStrip_encodeStrip_of_memory (hw : wellFormed i = true) (ht : encodeStrip i = some t)
    (hop : 64 ≤ t.op.toNat ∧ t.op.toNat < 96) : decodeStrip t = .ok i := by
  cases i
  case sreg =>
    cases ht
    exact eq_of_if (by with_unfolding_all rfl) (by simpa [wellFormed] using hw) (row_ok rfl (by simp))
  case gscanAdd | gscanMin | gscanMax | gscanAnd | gscanOr | gscanXor | gscanMul | gscanAff =>
    cases ht
    exact eq_of_if (by with_unfolding_all rfl) (by simp) (row_ok (by simp) (by simp))
  case barPeek =>
    cases ht
    simp [decodeStrip, row]
  -- a sub code beside a flag: one row for each value of the flag
  case lda u d a s w k e =>
    cases w <;> cases ht <;> exact decodeStrip_of_row (by with_unfolding_all rfl) (by simp) (by simp)
  case ldaPoll u d a s w k m e | stl u d a s w k m e =>
    cases w <;> cases ht <;> exact decodeStrip_of_row (by with_unfolding_all rfl) (by simp) (by simp)
  case amoAdd u d a s w k m e | amoMin u d a s w k m e | amoMax u d a s w k m e | amoAnd u d a s w k m e | amoOr u d a s w
    k m e | amoXor u d a s w k m e | amoExch u d a s w k m e | amoIncw u d a s w k m e | redAdd u d a s w k m e | redMin
    u d a s w k m e | redMax u d a s w k m e | redAnd u d a s w k m e | redOr u d a s w k m e | redXor u d a s w k m e =>
    cases w <;> cases ht <;> exact decodeStrip_of_row (by with_unfolding_all rfl) rfl rfl
  -- every other word of this range fixes its row by its opcode and a sub code that is a numeral
  all_goals cases ht
  all_goals simp at hop
  all_goals exact decodeStrip_of_row (by with_unfolding_all rfl) (by simp) (by simp)

/-- The words of the engines and of the system, opcodes 0x60 to 0x7F. -/
theorem decodeStrip_encodeStrip_of_engine (hw : wellFormed i = true) (ht : encodeStrip i = some t) (hop : 96 ≤ t.op.toNat) :
    decodeStrip t = .ok i := by
  cases i
  case sput | sget =>
    cases ht
    simp only [wellFormed, Bool.and_eq_true] at hw
    obtain ⟨-, hsize⟩ := hw
    exact eq_of_if (by with_unfolding_all rfl) (by simpa using linkSize_lt hsize) (row_ok (by simp) (by simp))
  case csrRd =>
    cases ht
    simp only [wellFormed, Bool.and_eq_true] at hw
    obtain ⟨hnumber, -⟩ := hw
    exact eq_of_else rfl (by simp) (eq_of_if rfl (by simpa using hnumber) (row_ok (by simp) (by simp)))
  case csrWr =>
    cases ht
    simp only [wellFormed, Bool.and_eq_true] at hw
    obtain ⟨hnumber, -⟩ := hw
    exact eq_of_if rfl (by simp) (eq_of_if rfl (by simpa using hnumber) (row_ok (by simp) (by simp)))
  case rfeSave =>
    cases ht
    simp [decodeStrip, row, append_eq_iff, extract_one]
  case tmrTo | tmrFrom =>
    cases ht
    exact eq_of_if (by with_unfolding_all rfl) (by simpa [wellFormed] using hw) (row_ok (by simp) (by simp))
  -- every other word of this range fixes its row by its opcode and a sub code that is a numeral
  all_goals cases ht
  all_goals simp at hop
  all_goals exact decodeStrip_of_row (by with_unfolding_all rfl) (by simp) (by simp)

/-- The columns of a well-formed instruction decode to it. -/
theorem decodeStrip_encodeStrip (hw : wellFormed i = true) (ht : encodeStrip i = some t) : decodeStrip t = .ok i := by
  rcases Nat.lt_or_ge t.op.toNat 64 with hlane | hrest
  · exact decodeStrip_encodeStrip_of_lane hw ht hlane
  · rcases Nat.lt_or_ge t.op.toNat 96 with hmem | hengine
    · exact decodeStrip_encodeStrip_of_memory hw ht ⟨hrest, hmem⟩
    · exact decodeStrip_encodeStrip_of_engine hw ht hengine

end Encoded

/-! ### What decodes is encoded -/

/-- What holds of the instruction of a row whose fixed bits hold is true of what the row answers. -/
theorem row_elim {c : Bool} {i j : Instr} {p : Instr → Prop} (h : row c j = .ok i) (hp : c = true → p j) : p i := by
  unfold row at h
  split at h
  next hc => cases h; exact hp hc
  next => cases h

/-- A sub code in the upper three bits of d, its other bits 0. -/
theorem ofNat_eq_iff_43 (k : Nat) (d : BitVec 7) : BitVec.ofNat 7 k = d ↔
    (BitVec.ofNat 7 k).extractLsb' 4 3 = d.extractLsb' 4 3 ∧ (BitVec.ofNat 7 k).extractLsb' 0 4 = d.extractLsb' 0 4 :=
  ofNat_eq_iff (n := 3) (m := 4) k d

/-- A sub code in the lower two bits of d, its other bits 0. -/
theorem ofNat_eq_iff_52 (k : Nat) (d : BitVec 7) : BitVec.ofNat 7 k = d ↔
    (BitVec.ofNat 7 k).extractLsb' 2 5 = d.extractLsb' 2 5 ∧ (BitVec.ofNat 7 k).extractLsb' 0 2 = d.extractLsb' 0 2 :=
  ofNat_eq_iff (n := 5) (m := 2) k d

/-- A sub code in the lower three bits of y, its other bit 0. -/
theorem ofNat_eq_iff_13 (k : Nat) (y : BitVec 4) : BitVec.ofNat 4 k = y ↔
    (BitVec.ofNat 4 k).extractLsb' 3 1 = y.extractLsb' 3 1 ∧ (BitVec.ofNat 4 k).extractLsb' 0 3 = y.extractLsb' 0 3 :=
  ofNat_eq_iff (n := 1) (m := 3) k y

section Decoded

variable {i : Instr} {t : Strip}

/-- The opcodes 0x00 to 0x3F. -/
theorem encodeStrip_decodeStrip_of_lane (h : decodeStrip t = .ok i) (hop : t.op.toNat < 64) : encodeStrip i = some t := by
  obtain ⟨op, u, d, a, x, y, f, g, e⟩ := t
  unfold decodeStrip at h
  dsimp only at h hop
  split at h
  case h_1 hillegal =>
    split at h
    next hzero => cases h; simp_all [encodeStrip, BitVec.toNat_eq_nat]
    next => cases h
  any_goals omega
  all_goals clear hop
  -- the sub codes of the opcode; where none is selected there is no instruction
  all_goals repeat' split at h
  any_goals contradiction
  -- the columns of the selected row are the given ones where the bits that it fixes hold
  all_goals refine row_elim (p := fun i => encodeStrip i = _) h fun hc => ?_
  all_goals clear h
  all_goals simp only [BitVec.toNat_eq_nat, Nat.reducePow, Nat.reduceLT, true_and] at *
  all_goals simp_all [encodeStrip, append_eq_iff, extract_one, ofNat_eq_iff_43]

/-- The opcodes 0x40 to 0x5F. -/
theorem encodeStrip_decodeStrip_of_memory (h : decodeStrip t = .ok i) (hop : 64 ≤ t.op.toNat ∧ t.op.toNat < 96) :
    encodeStrip i = some t := by
  obtain ⟨op, u, d, a, x, y, f, g, e⟩ := t
  unfold decodeStrip at h
  dsimp only at h hop
  split at h
  any_goals omega
  all_goals clear hop
  all_goals repeat' split at h
  any_goals contradiction
  all_goals refine row_elim (p := fun i => encodeStrip i = _) h fun hc => ?_
  all_goals clear h
  all_goals simp only [BitVec.toNat_eq_nat, Nat.reducePow, Nat.reduceLT, true_and] at *
  all_goals simp_all [encodeStrip, append_eq_iff, extract_one, ofNat_eq_iff_52]

/-- The opcodes 0x60 to 0x7F. -/
theorem encodeStrip_decodeStrip_of_engine (h : decodeStrip t = .ok i) (hop : 96 ≤ t.op.toNat) : encodeStrip i = some t := by
  obtain ⟨op, u, d, a, x, y, f, g, e⟩ := t
  unfold decodeStrip at h
  dsimp only at h hop
  split at h
  any_goals omega
  all_goals clear hop
  all_goals repeat' split at h
  any_goals contradiction
  all_goals refine row_elim (p := fun i => encodeStrip i = _) h fun hc => ?_
  all_goals clear h
  all_goals simp only [BitVec.toNat_eq_nat, Nat.reducePow, Nat.reduceLT, true_and] at *
  all_goals simp_all [encodeStrip, append_eq_iff, extract_one, ofNat_eq_iff_43, ofNat_eq_iff_13]

/-- Columns that decode are those of the instruction that they decode to. -/
theorem encodeStrip_decodeStrip (h : decodeStrip t = .ok i) : encodeStrip i = some t := by
  rcases Nat.lt_or_ge t.op.toNat 64 with hlane | hrest
  · exact encodeStrip_decodeStrip_of_lane h hlane
  · rcases Nat.lt_or_ge t.op.toNat 96 with hmem | hengine
    · exact encodeStrip_decodeStrip_of_memory h ⟨hrest, hmem⟩
    · exact encodeStrip_decodeStrip_of_engine h hengine

/-- Columns decode to an instruction where their row does and the limits of its fields hold. -/
theorem decodeColumns_eq_ok : decodeColumns t = .ok i ↔ decodeStrip t = .ok i ∧ wellFormed i = true := by
  unfold decodeColumns
  cases decodeStrip t with
  | error e => simp
  | ok j => by_cases hw : wellFormed j = true <;> simp [hw] <;> rintro rfl <;> simp [hw]

end Decoded

/-! ### The statements -/

/-- Settles O5: the columns of an instruction decode to it, and a word's columns are the word. -/
theorem decodeEncode : Obligations.DecodeEncode := by
  intro i w hw hi
  obtain ⟨t, ht, rfl⟩ := Option.map_eq_some_iff.1 hi
  unfold decode
  rw [Strip.split_pack]
  exact decodeColumns_eq_ok.2 ⟨decodeStrip_encodeStrip hw ht, hw⟩

/-- Settles O6: the columns that decode are those of the instruction, and its word is theirs. -/
theorem encodeDecode : Obligations.EncodeDecode := by
  intro w i h
  obtain ⟨hrow, hw⟩ := decodeColumns_eq_ok.1 h
  refine ⟨?_, hw⟩
  rw [encode, encodeStrip_decodeStrip hrow, Option.map_some, Strip.pack_split]

/-- Settles O4: each word is decoded. -/
theorem decodeSpecWords : Obligations.DecodeSpecWords :=
  ⟨rfl, rfl, rfl, rfl, rfl, rfl, rfl, rfl, rfl⟩

/-- Settles O7: a word that decodes to `illegal` is the word of its encoding (O6), which has no bit but E. -/
theorem illegalWords : Obligations.IllegalWords := by
  refine ⟨rfl, rfl, ?only, ?raises⟩
  case only =>
    intro w e h
    obtain ⟨hword, -⟩ := encodeDecode w _ h
    cases e
    · exact .inl (Option.some.inj hword).symm
    · exact .inr (Option.some.inj hword).symm
  case raises =>
    intro s I e hs
    exact Machine.State.withIss_some (fun J => s.raiseCode J Machine.codeIllegalOpcode) hs
end Sys2Proof
end

section
/-!
SUPPORT. The words of integer arithmetic and the shifts (R102 to R107): each is a shared operation of the lanes, whose write is said
once.
-/

namespace Sys2Proof.Machine

/-- Settles O9: eleven words of one operation, fitted to its type. -/
theorem arithmeticWords : Obligations.ArithmeticWords := by
  intro s I hs
  refine ⟨?add, ?sub, ?mul, ?mulhi, ?min, ?max, ?mad, ?neg, ?abs, ?addi, ?muli⟩
  case add | sub | mul | mulhi | min | max | mad =>
    exact fun u d a b k l e => writes_of_wrote hs rfl rfl (State.arith_wrote hs (dataOp_cnt I.S.ty d false))
  case neg | abs => exact fun u d a k e => writes_of_wrote hs rfl rfl (State.arith_wrote hs (dataOp_cnt I.S.ty d false))
  case addi | muli => exact fun u d i e => writes_of_wrote hs rfl rfl (State.arith_wrote hs (dataOp_cnt I.S.ty d false))

/-- Settles O10: the left shifts are arithmetic, fitted to its type; the right shifts and the rotation are functions of each element. -/
theorem shiftWords : Obligations.ShiftWords := by
  intro s I hs
  refine ⟨?shl, ?shli, ?shr, ?sar, ?rot, ?shri, ?sari⟩
  case shl => exact fun u d a b k l e => writes_of_wrote hs rfl rfl (State.arith_wrote hs (dataOp_cnt I.S.ty d false))
  case shli => exact fun u d a i k e => writes_of_wrote hs rfl rfl (State.arith_wrote hs (dataOp_cnt I.S.ty d false))
  case shr | sar | rot =>
    exact fun u d a b k l e => writes_of_wrote hs rfl rfl (State.plain_wrote hs (dataOp_cnt I.S.ty d false))
  case shri | sari => exact fun u d a i k e => writes_of_wrote hs rfl rfl (State.plain_wrote hs (dataOp_cnt I.S.ty d false))

end Sys2Proof.Machine
end

section
/-!
SUPPORT. The identifier that a stamped record carries (R98, R390): the context slot takes 10 bits of it, so a number from 1024 on,
which names no slot, is cut.
-/

namespace Sys2Proof.Machine

/-- The record that the state makes of a record of a context's error queue carries that context's identifier. -/
theorem State.stampRec_ctx {s : State} {r : ErrRec} {k : Nat} (h : r.queue.slot = some k) :
    (s.stampRec r).1.ctx = some (s.ctxId k) := by
  simp only [State.stampRec, h]

/-- A record whose die's buffer is not full ends the records on their way, with its stamp. -/
theorem State.record_pend_of_not_full {s : State} {r : ErrRec}
    (h : ¬ 256 ≤ ((s.stampRec r).2.pend.filter fun x => x.die == (s.stampRec r).1.die).length) :
    (s.record r).pend = (s.stampRec r).2.pend ++ [(s.stampRec r).1] := by
  simp only [State.record, State.postRec, if_neg h]

/-- A record whose error queue names 1024, one more than the last context slot. -/
def strayRecord : ErrRec :=
  { queue := { slot := some 1024, va := 0 }, ctx := none, seq := 0, src := 0, cls := 0, code := 0, pc := none, va := none,
    pa := none, tmask := 0#32, loc := 0#32, skid := 0, time := 0, detail := 0, die := 0 }

theorem record_strayRecord_pend :
    (State.reset.record strayRecord).pend = [(State.reset.stampRec strayRecord).1] :=
  State.record_pend_of_not_full (by decide)

/-- Refutes O59: the third clause speaks of a queue of any number `k`, not of a slot `k < 1024` alone (R390), and the identifier
has 10 bits for it. At `k = 1024` and generation 0 the record carries identifier 0, and the clause asks for 1024. -/
theorem not_recordContents : ¬ Obligations.RecordContents := by
  unfold Obligations.RecordContents
  rintro ⟨-, -, hrecord, -, -⟩
  obtain ⟨-, -, -, hslot, -⟩ := hrecord State.reset strayRecord
  obtain ⟨-, hpend⟩ := hslot 1024 rfl
  obtain ⟨time, -, heq⟩ := hpend (by decide)
  have hctx : [some (State.reset.ctxId 1024)] = [some (BitVec.ofNat 32 (2 ^ 10 * (State.reset.ctx 1024).gen.toNat + 1024))] := by
    have := congrArg (List.map ErrRec.ctx) (record_strayRecord_pend.symm.trans heq)
    rwa [List.map_singleton, State.stampRec_ctx (k := 1024) rfl] at this
  exact absurd hctx (by decide)

end Sys2Proof.Machine
end

section
/-!
SUPPORT. The bitwise words (R106), the carry chain (R108), selection, addresses, bit fields and moves (R109 to R112, R114, R116),
and the words that write a predicate (R113 to R115, R137, R148, R159). A carry-chain word writes a register and a predicate; each
other word is a shared operation of the lanes.
-/

namespace Sys2Proof.Machine

open Sys2Proof.Claims

/-! ### A register and a predicate in one word (R108) -/

/-- A group with a row's result written and then the carries of the active threads, before it goes on. -/
def Group.writeCarried (g : Group) (I : Iss) (r : Row) (carry : Nat → Bool) : Group :=
  (g.writeData (r.dst.cnt == 2) r.dst.n I.act r.val r.tag).setPred I.S.selP I.act carry

section Carried

variable (g : Group) (I : Iss) (r : Row) (carry : Nat → Bool)

/-- The carries touch no register. -/
theorem Group.writeCarried_regs :
    (g.writeCarried I r carry).regs = (g.writeData (r.dst.cnt == 2) r.dst.n I.act r.val r.tag).regs := by
  rw [Group.writeCarried, Group.setPred_same]

/-- Every field of a group but its registers, its predicates and the notes of later writes survives. -/
theorem Group.writeCarried_same : g.writeCarried I r carry =
    { g with
      regs := (g.writeCarried I r carry).regs
      preds := (g.writeCarried I r carry).preds
      written := (g.writeCarried I r carry).written
      fresh := (g.writeCarried I r carry).fresh } := by
  unfold Group.writeCarried
  rw [Group.setPred_same, Group.writeData_same]

/-- The result touches no predicate, and the carries touch mode.sp alone, unless that is p0 (R78, R108). -/
theorem Group.pred_writeCarried (p : Nat) {y : Nat} (hy : y < 32) : (g.writeCarried I r carry).pred p y =
    if p = I.S.selP ∧ p ≠ 0 ∧ I.act.getLsbD y = true then carry y else g.pred p y := by
  have hold : (g.writeData (r.dst.cnt == 2) r.dst.n I.act r.val r.tag).pred p y = g.pred p y := by
    simp only [Group.pred, Group.writeData_preds]
  unfold Group.writeCarried
  by_cases hp : p = I.S.selP
  · subst hp
    rw [Group.pred_setPred_self _ _ _ _ _ hy, hold]
    by_cases h0 : I.S.selP = 0
    · simp [h0, Group.pred]
    · simp [h0]
  · rw [Group.pred_setPred_ne _ _ _ _ _ hp, hold]
    simp [hp]

end Carried

/-- A register is read from the registers alone. -/
theorem Group.reg_of_regs {g h : Group} (hregs : h.regs = g.regs) (n : Nat) : h.reg n = g.reg n := by
  unfold Group.reg
  rw [hregs]

/-- An operand is read from the registers alone. -/
theorem Group.op_of_regs {g h : Group} (hregs : h.regs = g.regs) (o : Opnd) (x : Nat) : h.op o x = g.op o x := by
  unfold Group.op Group.data Group.pairVal Group.val
  simp only [Group.reg_of_regs hregs]

/-- What a row says of a group, it says of every group with the same registers and predicates. -/
theorem Row.Held.of_regs {r : Row} {I : Iss} {g h : Group} (held : r.Held I g) (hregs : h.regs = g.regs)
    (hpreds : h.preds = I.G.preds) : r.Held I h where
  value x hx hn := by rw [Group.op_of_regs hregs]; exact held.value x hx hn
  full n hn := by rw [Group.reg_of_regs hregs]; exact held.full n hn
  tag hn := by rw [Group.reg_of_regs hregs]; exact held.tag hn
  odd hn hc := by rw [Group.reg_of_regs hregs]; exact held.odd hn hc
  others n hn := by rw [Group.reg_of_regs hregs]; exact held.others n hn
  preds := hpreds

/-- A word that writes a result and the carries beside it after its checks writes as its row says. -/
theorem writesCarry_of_word {s : State} {I : Iss} {F : Instr → Option (Row × (Nat → Bool))} {i : Instr} {r : Row}
    {carry : Nat → Bool} {f : Iss → State} (hs : s.iss = some I) (hrow : F i = some (r, carry)) (hexec : exec i s = s.withIss f)
    (hword : f I = s.word I r.need r.e fun s => s.modGroup I.gid fun g => (g.writeCarried I r carry).advance I.sid r.e)
    (hc : r.dst.cnt = 1 ∨ r.dst.cnt = 2) : WritesCarry s I F i := by
  intro r' carry' hrow' hgate
  obtain ⟨rfl, rfl⟩ := Prod.mk.inj (Option.some.inj (hrow.symm.trans hrow'))
  rw [State.word_go r.e _ hgate] at hword
  have same := I.G.writeCarried_same I r carry
  refine ⟨f I, (I.G.writeCarried I r carry).advance I.sid r.e, hexec.trans (State.withIss_some f hs), ?_⟩
  rw [hword]
  refine ⟨State.modGroup_find _ (State.iss_group hs), ?held, .intro r.e same, ?preds, .intro r.e I.sid same rfl,
    s.modGroup_lanes _ _, OnlyGroup.of_modGroup s I _⟩
  case held =>
    have hregs : ((I.G.writeCarried I r carry).advance I.sid r.e).regs =
        ((I.G.writeData (r.dst.cnt == 2) r.dst.n I.act r.val r.tag).advance I.sid r.e).regs := by
      rw [Group.advance_regs, Group.advance_regs, Group.writeCarried_regs]
    exact (Group.writeData_held r I hc I.sid).of_regs hregs rfl
  case preds =>
    intro p y hy
    rw [Group.advance_pred, I.G.pred_writeCarried I r carry p hy]

/-! ### A predicate alone (R113) -/

/-- A word that writes a predicate after its checks. -/
theorem State.word_predResult_wrote {s : State} {I : Iss} (r : PredRow) (hs : s.iss = some I) (hg : I.gate r.need = .go) :
    r.Wrote s (s.word I r.need r.e fun s => s.predResult I r.dst r.val r.e) I := by
  rw [State.word_go r.e _ hg]
  exact State.predResult_wrote (State.iss_group hs) r

/-- A word whose effect writes a predicate as its row says, once its checks pass, writes it as its row says. -/
theorem writesPred_of_wrote {s : State} {I : Iss} {F : Instr → Option PredRow} {i : Instr} {r : PredRow} {f : Iss → State}
    (hs : s.iss = some I) (hrow : F i = some r) (hexec : exec i s = s.withIss f)
    (hwrote : I.gate r.need = .go → r.Wrote s (f I) I) : WritesPred s I F i := by
  intro r' hr' hgate
  obtain rfl : r = r' := Option.some.inj (hrow.symm.trans hr')
  exact ⟨f I, hexec.trans (State.withIss_some f hs), hwrote hgate⟩

/-! ### The words -/

/-- Settles O11: each bitwise word is a function of its whole operands, in one register or a pair. -/
theorem bitwiseWords : Obligations.BitwiseWords := by
  intro s I hs
  refine ⟨?and, ?or, ?xor, ?not, ?andi, ?ori, ?xori⟩
  case and | or | xor =>
    exact fun u d a b k l e => writes_of_wrote hs rfl rfl (State.plain_wrote hs (dataOp_cnt I.S.ty d false))
  case not => exact fun u d a k e => writes_of_wrote hs rfl rfl (State.plain_wrote hs (dataOp_cnt I.S.ty d false))
  case andi | ori | xori => exact fun u d i e => writes_of_wrote hs rfl rfl (State.plain_wrote hs (dataOp_cnt I.S.ty d false))

/-- Settles O12: both words write their result and then their carries. -/
theorem carryWords : Obligations.CarryWords := by
  intro s I hs
  refine ⟨?addc, ?subc⟩
  case addc | subc =>
    exact fun u d a b k l e => writesCarry_of_word hs rfl rfl rfl (dataOp_cnt I.S.ty d false)

/-- Settles O13: each word is a function of its operands. Addresses fill a pair; an extension, a read of a predicate and a high half
fill one register; every other result is as wide as its type. -/
theorem moveWords : Obligations.MoveWords := by
  intro s I hs
  refine ⟨?sel, ?lea, ?leai, ?bfe, ?bfi, ?prmt, ?popc, ?clz, ?ctz, ?brev, ?sx8, ?sx16, ?zx8, ?zx16, ?mov, ?movp, ?movi, ?movhi⟩
  case sel | bfe | bfi | prmt =>
    exact fun u d a b k l e => writes_of_wrote hs rfl rfl (State.plain_wrote hs (dataOp_cnt I.S.ty d false))
  case lea => exact fun u d a b k l e => writes_of_wrote hs rfl rfl (State.plain_wrote hs (.inr rfl))
  case leai => exact fun u d a i k e => writes_of_wrote hs rfl rfl (State.plain_wrote hs (.inr rfl))
  case popc | clz | ctz | brev | mov =>
    exact fun u d a k e => writes_of_wrote hs rfl rfl (State.plain_wrote hs (dataOp_cnt I.S.ty d false))
  case sx8 | sx16 | zx8 | zx16 => exact fun u d a k e => writes_of_wrote hs rfl rfl (State.plain_wrote hs (.inl rfl))
  case movp => exact fun u d a e => writes_of_wrote hs rfl rfl (State.plain_wrote hs (.inl rfl))
  case movi => exact fun u d i e => writes_of_wrote hs rfl rfl (State.plain_wrote hs (dataOp_cnt I.S.ty d false))
  case movhi => exact fun u d i e => writes_of_wrote hs rfl rfl (State.plain_wrote hs (.inl rfl))

/-- Settles O18: eight words are comparisons of their sources. fe.test names a register without reading it, so it never waits for
it (R148). -/
theorem predicateWords : Obligations.PredicateWords := by
  intro s I hs
  refine ⟨?cmp, ?cmpi, ?fcmp, ?pmov, ?plog, ?all, ?any, ?eq, ?feTest⟩
  case cmp | fcmp => exact fun u c p a b k l e => writesPred_of_wrote hs rfl rfl (State.compare_wrote hs)
  case cmpi => exact fun u c p a i k e => writesPred_of_wrote hs rfl rfl (State.compare_wrote hs)
  case pmov | eq => exact fun u d a k e => writesPred_of_wrote hs rfl rfl (State.compare_wrote hs)
  case plog => exact fun u d a b t e => writesPred_of_wrote hs rfl rfl (State.compare_wrote hs)
  case all | any => exact fun d a e => writesPred_of_wrote hs rfl rfl (State.compare_wrote hs)
  case feTest => exact fun d a e => writesPred_of_wrote hs rfl rfl (State.word_predResult_wrote _ hs)

end Sys2Proof.Machine
end

section
/-!
SUPPORT. The words of the scalarisation unit, special registers and time (R159 to R164, R446), a chunk of a container (R144), and a
macro call (R221, R223).
-/

namespace Sys2Proof.Machine

open Sys2Proof.Claims

/-! ### The scalarisation unit, special registers and time (R159 to R164, R446) -/

/-- Settles O14: ten words are functions of their operands and of the state before them. The reads of tags name a register without
reading it, so they never wait for it (R164), and the conversions of a time fill a pair. -/
theorem unitAndTimeWords : Obligations.UnitAndTimeWords := by
  intro s I hs
  refine ⟨?voteBallot, ?voteMask, ?shfl, ?bcast, ?sreg, ?utagKind, ?utagStride, ?tmrNow, ?tmrFrame, ?unpkTag, ?tmrTo, ?tmrFrom⟩
  case voteBallot => exact fun d a e => writes_of_wrote hs rfl rfl (State.plain_wrote hs (.inl rfl))
  case voteMask => exact fun d e => writes_of_wrote hs rfl rfl (State.plain_wrote hs (.inl rfl))
  case shfl => exact fun u d a w v k e => writes_of_wrote hs rfl rfl (State.plain_wrote hs (dataOp_cnt I.S.ty d false))
  case bcast => exact fun u d a b k l e => writes_of_wrote hs rfl rfl (State.plain_wrote hs (dataOp_cnt I.S.ty d false))
  case sreg => exact fun u d n e => writes_of_wrote hs rfl rfl (State.plain_wrote hs (.inl rfl))
  case utagKind | utagStride =>
    exact fun d a k e => writes_of_wrote hs rfl rfl (State.word_result_wrote _ hs (.inl rfl) rfl)
  case tmrNow => exact fun u d e => writes_of_wrote hs rfl rfl (State.plain_wrote hs (.inr rfl))
  case tmrFrame => exact fun u d e => writes_of_wrote hs rfl rfl (State.plain_wrote hs (.inl rfl))
  case unpkTag => exact fun u d a k e => writes_of_wrote hs rfl rfl (State.plain_wrote hs (.inl rfl))
  case tmrTo | tmrFrom => exact fun u d a j k e => writes_of_wrote hs rfl rfl (State.plain_wrote hs (.inr rfl))

/-! ### A chunk of a container (R63, R144) -/

/-- No thread of a mask meets a condition where the mask of those that do is empty. -/
theorem and_maskOf_eq_zero_iff (m : Mask) (p : Nat → Bool) : m &&& maskOf p = 0#32 ↔ (threadsOf m).any p = false := by
  have hbits : m &&& maskOf p = 0#32 ↔ ∀ t < 32, m.getLsbD t = true → p t = false := by
    refine BitVec.eq_of_getLsbD_eq_iff.trans (forall₂_congr fun t ht => ?_)
    simp [maskOf_getLsbD p t ht]
  simpa [threadsOf] using hbits

/-- A word whose effect, once its checks pass, is the state that its row gives leaves the state of its rule. -/
theorem leaves_of_row {s : State} {I : Iss} {F : Instr → Option (Need × Option State)} {i : Instr} {n : Need} {o : Option State}
    {f : Iss → State} (hs : s.iss = some I) (hrow : F i = some (n, o)) (hexec : exec i s = s.withIss f)
    (heff : I.gate n = .go → ∀ t, o = some t → f I = t) : Leaves s I F i := by
  intro n' t hrow' hgate
  obtain ⟨rfl, rfl⟩ := Prod.mk.inj (Option.some.inj (hrow.symm.trans hrow'))
  rw [hexec, State.withIss_some f hs, heff hgate t rfl]

/-- A chunk whose threads all hold the tag of the word is written, with the records of the threads whose parity fails, wherever those
records do not unwind the word. -/
theorem leaves_unpk {s : State} {I : Iss} (hs : s.iss = some I) (u : Bool) (d : BitVec 7) (a : BitVec 5) (n : BitVec 3) (c : BitVec 4)
    (k e : Bool) : Leaves s I (chunkAfter s I) (.unpk u d a n c k e) := by
  refine leaves_of_row hs rfl rfl fun hgate t ht => ?_
  obtain ⟨htags, ht⟩ := Option.ite_none_left_eq_some.1 ht
  have htags : (I.act &&& maskOf fun t => cTag (I.container (quadOp a k) t) != n.toNat) = 0#32 :=
    (and_maskOf_eq_zero_iff _ _).2 (eq_false_of_ne_true htags)
  dsimp only
  rw [State.word_go e _ hgate, htags, if_neg (not_not_intro rfl)]
  split at ht
  case h_1 t' hparity =>
    rw [hparity]
    exact Option.some.inj ht
  case h_2 => cases ht

/-! ### A macro call (R221, R223) -/

/-- A routine that the image holds and no check failed is entered at its first operation. -/
theorem leaves_mcall {s : State} {I : Iss} (hs : s.iss = some I) (x y : BitVec 7) (q : BitVec 3) (r : BitVec 6) (e : Bool) :
    Leaves s I (chunkAfter s I) (.mcall x y q r e) := by
  refine leaves_of_row hs rfl rfl fun _ t ht => ?_
  split at ht
  case h_1 slot hslot =>
    obtain ⟨hgood, ht⟩ := Option.ite_none_left_eq_some.1 ht
    have hfault : macroFault (((s.gridOf I.G).map (·.image)).getD []) r.toNat = none := by
      simpa [macroFault, hslot] using hgood
    dsimp only
    rw [hfault, hslot]
    exact Option.some.inj ht
  case h_2 => cases ht

/-- Settles O31: a chunk whose threads hold the right tag, and a call of a routine that is there and good. -/
theorem containerAndMacroWords : Obligations.ContainerAndMacroWords :=
  fun _ _ hs => ⟨leaves_unpk hs, leaves_mcall hs⟩

end Sys2Proof.Machine
end

section
/-!
SUPPORT. The words of the load-store engine (R167 to R192, R210): loads and stores of every space, polls, release stores, fences,
cache words, window bindings and prefetches. Each has the effect of its row once its checks let every thread through.
-/

namespace Sys2Proof.Machine

open Sys2Proof.Claims

/-! ### Loads by translated address (R167, R168, R170, R172, R176, R188) -/

/-- A load whose checks of R90 pass, and which reaches its reads, leaves the state of its row. -/
theorem State.load_eq_done {s t : State} {I : Iss} {l : LoadWord} (hgate : I.gate (I.loadNeed l.u l.d [l.a]) = .go)
    (hdone : l.done s I = some t) :
    s.load I l.u l.d l.a l.n l.x l.isPrivate l.windowOk l.rd l.late l.ext l.after l.e = t := by
  have hsingle : (l.u && !l.isPrivate && I.G.opTag l.a == .uniform) = (oneAccess I l.u l.a && !l.isPrivate) :=
    Bool.and_right_comm ..
  rw [State.load, State.word_go l.e _ hgate, hsingle]
  unfold LoadWord.done at hdone
  unfold State.loadThrough
  dsimp only at hdone ⊢
  generalize s.reach _ _ _ _ _ _ = r at hdone ⊢
  cases r with
  | stop => cases hdone
  | go s1 live ab xs =>
    dsimp only at hdone ⊢
    generalize s1.capacity _ _ _ _ _ _ = r at hdone ⊢
    cases r with
    | stop => cases hdone
    | go => exact Option.some.inj hdone

/-- A word that is the load of its row leaves the state of its rule. -/
theorem leaves_load {s : State} {I : Iss} {i : Instr} {l : LoadWord} {f : Iss → State} (hs : s.iss = some I)
    (hrow : loadOf I i = some l) (hexec : exec i s = s.withIss f)
    (hload : f I = s.load I l.u l.d l.a l.n l.x l.isPrivate l.windowOk l.rd l.late l.ext l.after l.e) :
    Leaves s I (loadLeft s I) i :=
  leaves_of_row hs (by rw [loadLeft, hrow]; rfl) hexec fun hgate _ ht => hload.trans (State.load_eq_done hgate ht)

/-- Settles O27: each of the three words is the load of its row. -/
theorem loadWords : Obligations.LoadWords := fun _ _ hs =>
  ⟨fun _ _ _ _ _ _ _ => leaves_load hs rfl rfl rfl, fun _ _ _ _ _ _ _ => leaves_load hs rfl rfl rfl,
    fun _ _ _ _ _ _ _ => leaves_load hs rfl rfl rfl⟩

/-! ### Checks that no thread fails (R168) -/

/-- A check that no thread of the mask fails finds no fault. -/
theorem failing_eq_none {m : Mask} {bad : Nat → Bool} (f : Mask → Flt) (h : ∀ t ∈ threadsOf m, bad t = false) :
    failing m bad f = none := by
  rw [failing, (and_maskOf_eq_zero_iff m bad).2 (List.any_eq_false.2 fun t ht => ne_true_of_eq_false (h t ht))]
  rfl

/-- Checks that find no fault let every thread through. -/
theorem runChecks_pass {tx live : Mask} {ab : List TxAbort} {cs : List (Mask → Option Flt)} (h : ∀ c ∈ cs, c live = none) :
    runChecks tx cs live ab = .ok (live, ab) := by
  induction cs with
  | nil => rfl
  | cons c cs ih =>
    rw [runChecks, h c List.mem_cons_self]
    exact ih fun c hc => h c (List.mem_cons_of_mem _ hc)

/-! ### Constant space (R167, R168, R177) -/

/-- A constant load whose threads are all aligned and in bounds leaves the state of its row. -/
theorem leaves_ldc {s : State} {I : Iss} (hs : s.iss = some I) (u : Bool) (d a : BitVec 7) (w : BitVec 3) (f : BitVec 4)
    (k e : Bool) : Leaves s I (accessAfter s I) (.ldc u d a w f k e) := by
  refine leaves_of_row hs rfl rfl fun hgate t ht => ?_
  obtain ⟨hfine, ht⟩ := Option.ite_none_left_eq_some.1 ht
  obtain ⟨-, hfine⟩ := not_or.1 hfine
  simp only [List.any_eq_true, not_exists, not_and, Bool.not_eq_true', Bool.not_eq_false, Bool.and_eq_true, beq_iff_eq,
    decide_eq_true_eq, and_assoc, imp_and, forall_and] at hfine
  obtain ⟨haligned, hlow, hhigh⟩ := hfine
  dsimp only
  rw [State.word_go e _ hgate]
  dsimp only [memOffset, one] at ht ⊢
  rw [runChecks_pass ?pass]
  case pass =>
    simp only [List.forall_mem_cons, List.not_mem_nil, false_imp_iff, implies_true, and_true]
    exact ⟨failing_eq_none _ fun t ht => bne_eq_false_iff_eq.2 (haligned t ht),
      failing_eq_none _ fun t ht => Bool.or_eq_false_iff.2
        ⟨decide_eq_false (Int.not_lt.2 (hlow t ht)), decide_eq_false (Int.not_le.2 (hhigh t ht))⟩⟩
  dsimp only
  generalize s.translateThreads _ _ _ _ _ _ _ = r at ht ⊢
  cases r with
  | stop => cases ht
  | go => exact Option.some.inj ht

/-! ### Scratchpad (R167, R174, R208) -/

/-- A scratchpad load that reaches its reads leaves the state of its row. -/
theorem leaves_lds {s : State} {I : Iss} (hs : s.iss = some I) (u : Bool) (d a : BitVec 7) (w : BitVec 3) (f : BitVec 4)
    (k e : Bool) : Leaves s I (accessAfter s I) (.lds u d a w f k e) := by
  refine leaves_of_row hs rfl rfl fun hgate t ht => ?_
  dsimp only
  rw [State.word_go e _ hgate]
  unfold scratchLoad at ht
  unfold Iss.spOffset memOffset
  dsimp only at ht ⊢
  generalize s.scratchReach _ _ _ _ = r at ht ⊢
  cases r with
  | stop => cases ht
  | go => exact Option.some.inj ht

/-- A word whose lost stores unwind nothing ends as its row says (R355). -/
theorem ends_of_kept {r : State × Bool × List TxAbort} {s t : State} {ab : List TxAbort} {f : State → List TxAbort → State}
    (h : r = (s, false, ab)) (hf : f s ab = t) : (if r.2.1 then r.1 else f r.1 r.2.2) = t := by
  rw [h]
  exact hf

/-- A list parts into the members at which a function has no value, and those at which it has one. -/
theorem partition_isNone {α β : Type} (f : α → Option β) (l : List α) :
    (l.partition fun x => (f x).isNone) = (l.filter fun x => (f x).isNone, l.filter fun x => (f x).isSome) := by
  simp [Function.comp_def]

/-- A scratchpad store that reaches its writes, and that no lost store unwinds, leaves the state of its row. -/
theorem leaves_sts {s : State} {I : Iss} (hs : s.iss = some I) (u : Bool) (d a : BitVec 7) (w : BitVec 3) (f : BitVec 4)
    (k m e : Bool) : Leaves s I (accessAfter s I) (.sts u d a w f k m e) := by
  refine leaves_of_row hs rfl rfl fun hgate t ht => ?_
  dsimp only
  rw [State.word_go e _ hgate]
  obtain ⟨htx, ht⟩ := Option.ite_none_left_eq_some.1 ht
  rw [if_neg htx]
  unfold Iss.spOffset memOffset
  dsimp only at ht ⊢
  generalize s.scratchReach _ _ _ _ = r at ht ⊢
  cases r with
  | stop => cases ht
  | go s1 live ab lost =>
    dsimp only at ht ⊢
    rw [partition_isNone]
    split at ht
    case h_1 hlose => exact ends_of_kept (f := fun s _ => s.advance I e) hlose (Option.some.inj ht)
    case h_2 => cases ht

/-! ### Polls and release stores (R189, R190) -/

/-- A poll outside transactions that passes its checks leaves the state of its row. -/
theorem leaves_ldaPoll {s : State} {I : Iss} (hs : s.iss = some I) (u : Bool) (d : BitVec 7) (a : BitVec 6) (c : BitVec 3)
    (w k m e : Bool) : Leaves s I (accessAfter s I) (.ldaPoll u d a c w k m e) := by
  refine leaves_of_row hs rfl rfl fun hgate t ht => ?_
  dsimp only
  rw [State.word_go e _ hgate]
  obtain ⟨htx, ht⟩ := Option.ite_none_left_eq_some.1 ht
  rw [if_neg htx]
  unfold Iss.globalAddr
  dsimp only at ht ⊢
  generalize s.reach _ _ _ _ _ _ = r at ht ⊢
  cases r with
  | stop => cases ht
  | go => exact Option.some.inj ht

/-- A word that is at its region boundary has its effect in the state after the boundary (R30, R43). -/
theorem State.atBoundary_through {s s' : State} {I : Iss} (body : State → State) (h : throughBoundary s I = some s') :
    s.atBoundary I body = body s' := by
  unfold throughBoundary at h
  unfold State.atBoundary
  split at h
  case isTrue hpassed =>
    rw [if_pos (by simpa using hpassed), Option.some.inj h]
  case isFalse hpassed =>
    rw [if_neg (by simpa using hpassed)]
    split at h
    case h_1 hboundary =>
      rw [hboundary, Option.some.inj h]
      rfl
    case h_2 => cases h

/-- A region boundary after its checks has its effect in the state after the boundary. -/
theorem State.boundaryWord_at {s s' : State} {I : Iss} {n : Need} (e : Bool) (body : State → State) (hgate : I.gate n = .go)
    (h : Claims.atBoundary s I n.mask = some s') : (s.boundaryWord I n e fun s => s.atBoundary I body) = body s' := by
  obtain ⟨htx, h⟩ := Option.ite_none_left_eq_some.1 h
  rw [State.boundaryWord_go e _ hgate (eq_false_of_ne_true htx), State.atBoundary_through body h]

/-- A release store that reaches its writes after its boundary, and that no lost store unwinds, leaves the state of its row. -/
theorem leaves_stl {s : State} {I : Iss} (hs : s.iss = some I) (u : Bool) (d : BitVec 7) (a : BitVec 6) (c : BitVec 3)
    (w k m e : Bool) : Leaves s I (accessAfter s I) (.stl u d a c w k m e) := by
  refine leaves_of_row hs rfl rfl fun hgate t ht => ?_
  obtain ⟨s', hat, ht⟩ := Option.bind_eq_some_iff.1 ht
  dsimp only
  rw [State.boundaryWord_at e _ hgate hat]
  unfold Iss.globalAddr
  dsimp only at ht ⊢
  generalize s'.reach _ _ _ _ _ _ = r at ht ⊢
  cases r with
  | stop => cases ht
  | go s1 live ab xs =>
    dsimp only at ht ⊢
    split at ht
    case h_1 hlose => exact ends_of_kept (f := fun s _ => s.newRegion I e) hlose (Option.some.inj ht)
    case h_2 => cases ht

/-- Settles O30: the words of constants, scratchpads, polls and releases, one by one. -/
theorem accessWords : Obligations.AccessWords := fun _ _ hs =>
  ⟨leaves_ldc hs, leaves_lds hs, leaves_sts hs, leaves_ldaPoll hs, leaves_stl hs⟩

/-! ### Fences (R208, R210) -/

/-- The parts that a fence has, in order; the word after it begins a region (R210). -/
def State.fenceParts (s : State) (I : Iss) (scope : Nat) (rel acq e : Bool) : State :=
  let s := if rel then (s.releaseBy I scope).fenceOut I.agid scope else s
  let s := if acq then (s.acquireBy I scope).fenceIn I.agid scope else s
  s.newRegion I e

/-- A fence that is at its boundary, with every write of its core acknowledged, takes effect. -/
theorem State.fence_acknowledged {s t : State} {I : Iss} {scope : Nat} {rel acq e : Bool}
    (hgate : I.gate { mask := I.act } = .go)
    (ht : (atAcknowledged s I).map (fun s => s.fenceParts I scope rel acq e) = some t) : s.fence I scope rel acq e = t := by
  obtain ⟨s', hat, rfl⟩ := Option.map_eq_some_iff.1 ht
  obtain ⟨hat, hacknowledged⟩ := Option.filter_eq_some_iff.1 hat
  rw [State.fence, State.boundaryWord_at e _ hgate hat, if_neg (by simpa using hacknowledged)]
  rfl

/-! ### Cache words (R191, R251) -/

/-- A cache word outside transactions has its effect and goes on. -/
theorem State.cacheWord_eq {s t : State} {I : Iss} {n : Need} {e : Bool} {f : State → State} (hgate : I.gate n = .go)
    (ht : (if I.inTx I.act then none else some ((f s).advance I e)) = some t) : s.cacheWord I n e f = t := by
  obtain ⟨htx, ht⟩ := Option.ite_none_left_eq_some.1 ht
  rw [State.cacheWord, State.word_go e _ hgate, if_neg htx]
  exact Option.some.inj ht

/-- A cache word of lines, at whose addresses every thread passes checks 2 and 3 of R168, leaves the state of its row. -/
theorem State.cacheLines_eq {s t : State} {I : Iss} {u : Bool} {a : Opnd} {f : State → Nat → State} {e : Bool}
    (hgate : I.gate (I.need u true [] [a] .uniform) = .go) (ht : (lineWord s I u a f e).2 = some t) :
    s.cacheLines I u a f e = t := by
  obtain ⟨hpass, ht⟩ := Option.ite_none_left_eq_some.1 ht
  obtain ⟨htx, hcanonical⟩ := not_or.1 hpass
  simp only [List.any_eq_true, not_exists, not_and, Bool.not_eq_true', Bool.not_eq_false] at hcanonical
  rw [State.cacheLines, State.word_go e _ hgate, if_neg htx]
  dsimp only
  rw [runChecks_pass ?pass]
  case pass =>
    simp only [addressChecks, List.drop_succ_cons, List.drop_zero, List.forall_mem_cons, List.not_mem_nil, false_imp_iff,
      implies_true, and_true]
    exact ⟨failing_eq_none _ fun t ht => by simp [hcanonical t ht],
      failing_eq_none _ fun t ht => by simp [hcanonical t ht]⟩
  exact Option.some.inj ht

/-! ### Windows (R178, R180) -/

/-- A binding whose range is good, and which no engine still writes into, leaves the state of its row. -/
theorem leaves_smap {s : State} {I : Iss} (hs : s.iss = some I) (n : BitVec 2) (a b : BitVec 6) (k l e : Bool) :
    Leaves s I (cacheAfter s I) (.smap n a b k l e) := by
  refine leaves_of_row hs rfl rfl fun hgate t ht => ?_
  obtain ⟨hgood, ht⟩ := Option.ite_none_left_eq_some.1 ht
  obtain ⟨s', hat, ht⟩ := Option.bind_eq_some_iff.1 ht
  obtain ⟨htx, hthrough⟩ := Option.ite_none_left_eq_some.1 hat
  simp only [not_and, not_or, Bool.not_eq_true', Bool.not_eq_false] at hgood
  dsimp only
  rw [State.boundaryWord_go e _ hgate (eq_false_of_ne_true htx), if_neg ?valid, if_neg ?start, if_neg ?last,
    State.atBoundary_through _ hthrough]
  case valid | start | last =>
    rintro ⟨hlen, hbad⟩
    obtain ⟨hok, hva, hend⟩ := hgood hlen
    simp [hok, hva, hend] at hbad
  split at ht
  case isTrue hunbind => exact (if_pos hunbind).trans (Option.some.inj ht)
  case isFalse hbind =>
    obtain ⟨hfree, ht⟩ := Option.ite_none_left_eq_some.1 ht
    exact (if_neg hbind).trans ((if_neg hfree).trans (Option.some.inj ht))

/-- Settles O32: three fences of the same parts, two cache words of lines, three of a whole cache or window, and the two words of
windows and prefetches. -/
theorem cacheWords : Obligations.CacheWords := by
  intro s I hs
  refine ⟨?full, ?rel, ?acq, ?wbl, ?invl, ?wball, ?invall, ?swb, ?pfm, leaves_smap hs⟩
  case full | rel | acq =>
    exact fun c e => leaves_of_row hs rfl rfl fun hgate t ht => State.fence_acknowledged hgate ht
  case wbl => exact fun u a c k e => leaves_of_row hs rfl rfl fun hgate t ht => State.cacheLines_eq hgate ht
  case invl => exact fun u a k e => leaves_of_row hs rfl rfl fun hgate t ht => State.cacheLines_eq hgate ht
  case invall => exact fun e => leaves_of_row hs rfl rfl fun hgate t ht => State.cacheWord_eq hgate ht
  case wball | swb => exact fun n e => leaves_of_row hs rfl rfl fun hgate t ht => State.cacheWord_eq hgate ht
  case pfm =>
    exact fun u v a w f k e => leaves_of_row hs rfl rfl fun hgate t ht =>
      (State.word_go e _ hgate).trans (Option.some.inj ht)

end Sys2Proof.Machine
end

section
/-!
SUPPORT. A scratchpad store to the peer performs first the stores of its core to the same words that are still on their way (R208),
and they may write bytes of the word that it does not name (R174).
-/

namespace Sys2Proof.Machine

open Sys2Proof.Claims

/-- A group of workgroup 2 whose g8 holds, in every thread, offset 1 of its peer's scratchpad (R167). -/
def peerStorer : Group :=
  { newGroup 2 fetchGrid false false 0 0 0 with
    regs := [(8, { vals := sameVals 0x80000001#32, full := true, tag := .uniform })] }

/-- A workgroup of grid 1 on a core, without scratchpad bytes that differ from an unlisted one, and without windows. -/
def plainWorkgroup (core : Nat) (peer : Option Nat) (groups : List Nat) : Workgroup :=
  { grid := 1, ctx := 0, w := core, core := core, peer := peer, groups := groups, scratch := [], spoison := [], pendLines := [],
    windows := [], wlines := [], slots := [], panBase := 0, panRows := 0, preempting := none, exited := false }

/-- A store of the byte 1 from core 0 to offset 0 of workgroup 5's scratchpad. -/
def byteOnItsWay : Sent :=
  { id := 0, dest := .scratch 5 0 1, val := 1
    info := { core := 0, ctx := 0, key := 0, va := 0, pc := 0x10000#64, group := 3, count := 0, loc := 0#32
              queue := { slot := none, va := 0 } } }

/-- Workgroup 2 on core 0 and its peer, workgroup 5, on core 1; a store of core 0 to offset 0 of the peer is still on its way. -/
def storeBehindStore : State :=
  { State.reset with
    cur := some (3, 0)
    grids := [(1, { fetchGrid with scratch := 1, cs := 2, wgs := [2, 5] })]
    wgs := [(2, plainWorkgroup 0 (some 5) [3]), (5, plainWorkgroup 1 (some 2) [])]
    groups := [(3, peerStorer)]
    sent := [byteOnItsWay] }

/-- The word that stores a byte from g4 at the offset in g8, issued by group 3. -/
def byteStorer : Iss := storeBehindStore.iss.get (by decide)

/-- The state after the store of a byte, in one access, at offset 1 of the peer's scratchpad. -/
def afterByteStore : Option State :=
  scratchStore storeBehindStore byteStorer true (memOp 0#3 4#7 false) (one 8#7 false) 0#3 0#4 false

theorem scratchPlace_byteStorer : ∀ th ∈ threadsOf byteStorer.act,
    scratchPlace storeBehindStore byteStorer (one 8#7 false) ((0#4).toInt * widthBytes 0#3) th = (5, 1) := by decide

theorem afterByteStore_offset_zero :
    (afterByteStore.map fun t => (mapFind t.wgs 5).map fun y => readCell y.scratch 0) = some (some 1#8) := by decide

/-- Refutes O54: the premises say nothing of the stores that are still on their way. A byte at offset 1 of the peer's scratchpad goes
into the same word as an earlier store of the core to offset 0, which is therefore performed first, and offset 0, which the word does
not name, changes from an unlisted byte to 1. -/
theorem not_scratchStoreFrame : ¬ Obligations.ScratchStoreFrame := by
  unfold Obligations.ScratchStoreFrame
  intro hframe
  obtain ⟨t, ht, hlanded⟩ := Option.map_eq_some_iff.1 afterByteStore_offset_zero
  have hiss : storeBehindStore.iss = some byteStorer := (Option.some_get _).symm
  obtain ⟨-, hkept⟩ := hframe storeBehindStore t byteStorer true 4#7 8#7 0#3 0#4 false false false hiss (by decide) ht
  obtain ⟨y, hy, hcell⟩ := hkept 5 0 (plainWorkgroup 1 (some 2) []) rfl fun th hth => by
    rw [scratchPlace_byteStorer th hth]
    decide
  rw [hy, Option.map_some, Option.some.injEq, hcell] at hlanded
  exact absurd hlanded (by decide)

end Sys2Proof.Machine
end

section
/-!
SUPPORT. The atomics (R235 to R242): an atomic whose checks let its threads through performs each one's operation in index order,
on memory or on a scratchpad, and then ends.
-/

namespace Sys2Proof.Machine

open Sys2Proof.Claims

/-! ### The end and the whole of an atomic (R240) -/

/-- An atomic that no consumption unwinds ends as its row says. -/
theorem State.atomicEnd_of_finish {s t : State} {I : Iss} {w : AtomWord} {live : Mask} {va : Nat → Option Nat}
    {l : List (Nat × Done)} (h : w.finish s I live va l = some t) :
    s.atomicEnd I w.scope w.acquires live va l (w.out l) w.e = t := by
  unfold AtomWord.finish at h
  unfold State.atomicEnd
  dsimp only at h ⊢
  split at h
  case h_1 hconsume =>
    rw [hconsume]
    exact Option.some.inj h
  case h_2 => cases h

/-- An atomic whose checks of R90 pass, and which reaches its operations, leaves the state of its row. -/
theorem State.atomic_eq_done {s t : State} {I : Iss} {w : AtomWord} (hgate : I.gate w.need = .go) (hdone : w.done s I = some t) :
    s.atomic I w.need w.sp w.scope w.wide w.hostOk w.acquires w.a w.f w.out w.e = t := by
  obtain ⟨s', hat, hdone⟩ := Option.bind_eq_some_iff.1 hdone
  unfold State.atomic
  dsimp only
  rw [State.boundaryWord_at w.e _ hgate hat]
  split at hdone
  case isTrue hsp =>
    rw [if_pos hsp]
    dsimp only at hdone ⊢
    generalize runChecks _ _ _ _ = checks at hdone ⊢
    cases checks with
    | error => cases hdone
    | ok passed =>
      dsimp only at hdone ⊢
      generalize s'.scratchReady _ _ _ _ _ = reached at hdone ⊢
      cases reached with
      | stop => cases hdone
      | go => exact State.atomicEnd_of_finish hdone
  case isFalse hmem =>
    rw [if_neg hmem]
    dsimp only at hdone ⊢
    generalize s'.reach _ _ _ _ _ _ = reached at hdone ⊢
    cases reached with
    | stop => cases hdone
    | go =>
      obtain ⟨hhost, hdone⟩ := Option.ite_none_left_eq_some.1 hdone
      exact (if_neg hhost).trans (State.atomicEnd_of_finish hdone)

/-- A word that is the atomic of its row leaves the state of its rule. -/
theorem leaves_atomic {s : State} {I : Iss} {i : Instr} {w : AtomWord} {f : Iss → State} (hs : s.iss = some I)
    (hrow : atomOf I i = some w) (hexec : exec i s = s.withIss f)
    (hatomic : f I = s.atomic I w.need w.sp w.scope w.wide w.hostOk w.acquires w.a w.f w.out w.e) : Leaves s I (atomLeft s I) i :=
  leaves_of_row hs (by rw [atomLeft, hrow]; rfl) hexec fun hgate _ ht => hatomic.trans (State.atomic_eq_done hgate ht)

/-! ### The words -/

/-- Settles O33: eight words return the old values, six return nothing, and `cas` stores where it finds what it expects. -/
theorem atomicWords : Obligations.AtomicWords := by
  intro s I hs
  refine ⟨?amoAdd, ?amoMin, ?amoMax, ?amoAnd, ?amoOr, ?amoXor, ?amoExch, ?amoIncw, ?redAdd, ?redMin, ?redMax, ?redAnd, ?redOr,
    ?redXor, ?cas⟩
  case amoAdd | amoMin | amoMax | amoAnd | amoOr | amoXor | amoExch | amoIncw | redAdd | redMin | redMax | redAnd | redOr
      | redXor =>
    exact fun u d a c t k m e => leaves_atomic hs rfl rfl rfl
  case cas => exact fun u d a c t q k m e => leaves_atomic hs rfl rfl rfl

end Sys2Proof.Machine
end

section
/-!
SUPPORT. Barriers (R243 to R248) and transactions (R250 to R253): each word has the effect of its row in the state after its
boundary.
-/

namespace Sys2Proof.Machine

open Sys2Proof.Claims

/-! ### Active threads -/

/-- Checks of an empty mask end in a fault or in the empty mask itself, before they let a word go (R81, R90). -/
theorem Need.gate_ne_go_of_mask {n : Need} {g : Group} (h : n.mask = 0#32) : n.gate g ≠ .go := by
  simp only [Need.gate, h, if_true]
  repeat' split
  all_goals exact nofun

/-- A word whose checks let it go has an active thread (R81). -/
theorem Iss.mask_ne_zero_of_gate_go {I : Iss} {n : Need} (h : I.gate n = .go) : n.mask ≠ 0#32 := by
  intro hmask
  unfold Iss.gate at h
  split at h
  case isTrue => cases h
  case isFalse => exact Need.gate_ne_go_of_mask hmask h

/-! ### Barrier words (R243 to R248) -/

/-- A barrier word whose checks pass has its effect on the barrier that it names, in the state after the boundary. -/
theorem State.barWord_at {s t : State} {I : Iss} {srcs : List Opnd} {c : BitVec 3} {b : BitVec 4} {key : BarKey}
    (body : State → BarKey → State) (hgate : I.gate (I.need false true [] srcs .uniform) = .go)
    (h : barrierOf s I c b = some (t, key)) : s.barWord I srcs c.toNat b.toNat body = body t key := by
  obtain ⟨k, hkey, h⟩ := Option.bind_eq_some_iff.1 h
  obtain ⟨t', hat, h⟩ := Option.map_eq_some_iff.1 h
  obtain ⟨rfl, rfl⟩ := Prod.mk.inj h
  obtain ⟨htx, hthrough⟩ := Option.ite_none_left_eq_some.1 hat
  unfold State.barWord
  dsimp only
  rw [hgate]
  dsimp only
  rw [if_neg htx, hkey]
  exact State.atBoundary_through (fun s => body s k) hthrough

variable {s t : State} {I : Iss}

/-- An arrival that is admitted goes on in the state after it. -/
theorem State.arriveWord_of_arrived {key : BarKey} {scope c units : Nat} (go : State → State)
    (h : arrived s I key scope c units = some t) : s.arriveWord I key scope c units go = go t := by
  obtain ⟨hok, h⟩ := Option.ite_none_right_eq_some.1 h
  unfold State.arriveWord Iss.count
  dsimp only
  rw [if_neg (by simpa using hok), Option.some.inj h]

/-- The departure of a split that has an active thread acquires (R245). -/
theorem State.departBar_of_active (hact : I.act ≠ 0#32) (key : BarKey) (scope : Nat) (e : Bool) :
    s.departBar I key scope e = (s.acquireBar I key scope).newRegion I e := by
  rw [State.departBar, if_neg hact]

/-- A split that has an active thread waits as its row says. -/
theorem State.waitBar_of_active (hact : I.act ≠ 0#32) (key : BarKey) (scope : Nat) (e : Bool) :
    s.waitBar I key scope e = waited s I key scope e := by
  rw [State.waitBar, State.departBar_of_active hact, waited]

/-- A barrier word whose effect on its barrier is what its row gives leaves the state of its rule. -/
theorem leaves_barWord {i : Instr} {srcs : List Opnd} {c : BitVec 3} {b : BitVec 4} {f : Iss → State}
    {body : State → BarKey → State} {o : Option State} {row : State × BarKey → Option State} (hs : s.iss = some I)
    (hrow : barrierAfter s I i = some (I.need false true [] srcs .uniform, o)) (hbind : o = (barrierOf s I c b).bind row)
    (hexec : exec i s = s.withIss f) (hword : f I = s.barWord I srcs c.toNat b.toNat body)
    (hbody : I.act ≠ 0#32 → ∀ s' key t, row (s', key) = some t → body s' key = t) : Leaves s I (barrierAfter s I) i := by
  refine leaves_of_row hs hrow hexec fun hgate t ht => hword.trans ?_
  obtain ⟨⟨s', key⟩, hbar, ht⟩ := Option.bind_eq_some_iff.1 (hbind.symm.trans ht)
  exact (State.barWord_at body hgate hbar).trans (hbody (Iss.mask_ne_zero_of_gate_go hgate) s' key t ht)

/-- A `bar.sync` goes on when its wait is over, waits where its arrival is counted, and else arrives and waits (R43, R245). -/
theorem leaves_barSync (hs : s.iss = some I) (a : BitVec 7) (c : BitVec 3) (b : BitVec 4) (k e : Bool) :
    Leaves s I (barrierAfter s I) (.barSync a c b k e) := by
  refine leaves_barWord hs rfl rfl rfl rfl fun hact s' key t ht => ?_
  dsimp only at ht ⊢
  split at ht
  case isTrue hreleased =>
    rw [if_pos hreleased, State.departBar_of_active hact, Option.some.inj ht]
  case isFalse hwaits =>
    rw [if_neg hwaits]
    split at ht
    case isTrue hcounted =>
      rw [if_pos (.inl hcounted), State.waitBar_of_active hact, Option.some.inj ht]
    case isFalse hfirst =>
      obtain ⟨s₂, harrived, rfl⟩ := Option.map_eq_some_iff.1 ht
      rw [if_neg (not_or.2 ⟨hfirst, hact⟩), State.arriveWord_of_arrived _ harrived, State.waitBar_of_active hact]

/-- A `bar.arrive` that is admitted goes on (R245). -/
theorem leaves_barArrive (hs : s.iss = some I) (a : BitVec 7) (c : BitVec 3) (b : BitVec 4) (k e : Bool) :
    Leaves s I (barrierAfter s I) (.barArrive a c b k e) := by
  refine leaves_barWord hs rfl rfl rfl rfl fun hact s' key t ht => ?_
  obtain ⟨s₂, harrived, rfl⟩ := Option.map_eq_some_iff.1 ht
  rw [if_neg hact, State.arriveWord_of_arrived _ harrived]

/-- A `bar.wait` goes on when its wait is over or its phase has completed (R245). -/
theorem leaves_barWait (hs : s.iss = some I) (c : BitVec 3) (b : BitVec 4) (e : Bool) :
    Leaves s I (barrierAfter s I) (.barWait c b e) := by
  refine leaves_barWord hs rfl Option.map_eq_bind rfl rfl fun hact s' key t ht => ?_
  rw [← Option.some.inj ht, State.departBar_of_active hact, State.waitBar_of_active hact]

/-- A `bar.peek` writes whether the phase has completed, and acquires where a predicate learns that it has (R245). -/
theorem leaves_barPeek (hs : s.iss = some I) (q c : BitVec 3) (b : BitVec 4) (e : Bool) :
    Leaves s I (barrierAfter s I) (.barPeek q c b e) := by
  refine leaves_barWord hs rfl Option.map_eq_bind rfl rfl fun hact s' key t ht => ?_
  rw [← Option.some.inj ht]
  simp only [hact, ne_eq, not_false_eq_true, and_true]

/-- A posting of whole units that the counter still takes has its effect (R248). -/
theorem leaves_postWord {i : Instr} {a : BitVec 7} {c : BitVec 3} {b : BitVec 4} {k e : Bool} {f : Iss → State}
    {go : State → BarKey → Nat → State} {row : State → BarKey → Nat → Option State} (hs : s.iss = some I)
    (hrow : barrierAfter s I i = some (I.need false true [] [one a k] .uniform, (barrierOf s I c b).bind fun (s, key) =>
      let n := (I.G.val a.toNat (lowest I.act)).toNat
      if n % 16 ≠ 0 ∨ 2 ^ 24 ≤ (s.bar key).posted + n / 16 then none else row s key (n / 16)))
    (hexec : exec i s = s.withIss f) (hword : f I = s.postWord I a k c.toNat b.toNat e go)
    (hgo : ∀ s' key n t, row s' key n = some t → go s' key n = t) : Leaves s I (barrierAfter s I) i := by
  refine leaves_barWord hs hrow rfl hexec hword fun hact s' key t ht => ?_
  obtain ⟨hfits, ht⟩ := Option.ite_none_left_eq_some.1 ht
  obtain ⟨hunits, hroom⟩ := not_or.1 hfits
  dsimp only
  rw [if_neg hact, if_neg hunits, if_neg hroom, hgo _ _ _ _ ht]

/-- A `bexp.post` posts, and may complete the phase (R248). -/
theorem leaves_bexpPost (hs : s.iss = some I) (a : BitVec 7) (c : BitVec 3) (b : BitVec 4) (k e : Bool) :
    Leaves s I (barrierAfter s I) (.bexpPost a c b k e) :=
  leaves_postWord (row := fun s key n => some (((s.post key n).testBar key).newRegion I e)) hs rfl rfl rfl
    fun _ _ _ _ ht => Option.some.inj ht

/-- A `bexp.arrive` that is admitted posts and arrives in one step (R248). -/
theorem leaves_bexpArrive (hs : s.iss = some I) (a : BitVec 7) (c : BitVec 3) (b : BitVec 4) (k e : Bool) :
    Leaves s I (barrierAfter s I) (.bexpArrive a c b k e) := by
  refine leaves_postWord (row := fun s key n => (arrived s I key c.toNat 0 n).map (·.newRegion I e)) hs rfl rfl rfl
    fun s' key n t ht => ?_
  obtain ⟨s₂, harrived, rfl⟩ := Option.map_eq_some_iff.1 ht
  exact State.arriveWord_of_arrived _ harrived

/-! ### Transactions (R250 to R253) -/

/-- A region boundary that no transaction forbids has its effect in the state after the boundary, once its checks pass. -/
theorem State.boundaryOnly_at {n : Need} (e : Bool) (body : State → State) (hgate : I.gate n = .go)
    (h : throughBoundary s I = some t) : (s.boundaryOnly I n e fun s => s.atBoundary I body) = body t := by
  rw [State.boundaryOnly, hgate]
  exact State.atBoundary_through body h

/-- A `txb` whose abort targets are aligned and canonical, and of whose threads none has a transaction open, opens one in each
(R250). -/
theorem leaves_txb (hs : s.iss = some I) (u : Bool) (d : BitVec 7) (a : BitVec 6) (k e : Bool) :
    Leaves s I (txAfter s I) (.txb u d a k e) := by
  refine leaves_of_row hs rfl rfl fun hgate t ht => ?_
  obtain ⟨s', hthrough, ht⟩ := Option.bind_eq_some_iff.1 ht
  obtain ⟨hpass, ht⟩ := Option.ite_none_left_eq_some.1 ht
  simp only [List.any_eq_true, Bool.or_eq_true, not_exists, not_and, not_or, Bool.not_eq_true, forall_and] at hpass
  obtain ⟨⟨haligned, hcanonical⟩, hclosed⟩ := hpass
  dsimp only
  rw [State.boundaryOnly_at e _ hgate hthrough, if_neg (not_not_intro ?mis), if_neg (not_not_intro ?out),
    if_neg (not_not_intro ?nested)]
  case mis => exact (and_maskOf_eq_zero_iff _ _).2 (List.any_eq_false.2 fun t ht => ne_true_of_eq_false (haligned t ht))
  case out => exact (and_maskOf_eq_zero_iff _ _).2 (List.any_eq_false.2 fun t ht => ne_true_of_eq_false (hcanonical t ht))
  case nested => exact (and_maskOf_eq_zero_iff _ _).2 (List.any_eq_false.2 fun t ht => ne_true_of_eq_false (hclosed t ht))
  exact Option.some.inj ht

/-- A `txe` whose boundary does not unwind, and whose result registers are full, commits (R253). -/
theorem leaves_txe (hs : s.iss = some I) (p : BitVec 3) (e : Bool) : Leaves s I (txAfter s I) (.txe p e) := by
  refine leaves_of_row hs rfl rfl fun _ t ht => ?_
  unfold txeAfter at ht
  dsimp only at ht ⊢
  split at ht
  case h_1 hboundary =>
    obtain ⟨hready, ht⟩ := Option.ite_none_left_eq_some.1 ht
    obtain ⟨hact, hdue⟩ := not_or.1 hready
    rw [hboundary, if_neg Bool.false_ne_true, if_neg hact, if_neg hdue]
    exact Option.some.inj ht
  case h_2 => cases ht

/-- A `txa` aborts the open transactions of its threads, and goes on where there is none (R252). -/
theorem leaves_txa (hs : s.iss = some I) (n : BitVec 4) (e : Bool) : Leaves s I (txAfter s I) (.txa n e) := by
  refine leaves_of_row hs rfl rfl fun hgate t ht => ?_
  obtain ⟨s', hthrough, rfl⟩ := Option.map_eq_some_iff.1 ht
  exact State.boundaryOnly_at e _ hgate hthrough

/-- Settles O34: four words of arrivals and waits, two of postings, and the three of transactions. -/
theorem barrierAndTransactionWords : Obligations.BarrierAndTransactionWords := fun _ _ hs =>
  ⟨leaves_barSync hs, leaves_barArrive hs, leaves_barWait hs, leaves_barPeek hs, leaves_bexpPost hs, leaves_bexpArrive hs,
    leaves_txb hs, leaves_txe hs, leaves_txa hs⟩

end Sys2Proof.Machine
end

section
/-!
SUPPORT. The words of the copy engine (R264, R269 to R276, R281), and what every engine word shares: its boundary, and its
command in the splits that issue it (R260).
-/

namespace Sys2Proof.Machine

open Sys2Proof.Claims

variable {s z : State} {I : Iss}

/-! ### The issue of a command (R260) -/

/-- An engine word whose checks pass is its boundary alone in a split that does not lead, and else its command (R260). -/
theorem State.engineWord_at {n : Need} {lead : Bool} (e : Bool) (body : State → State) (hgate : I.gate n = .go)
    (hat : Claims.atBoundary s I n.mask = some z) :
    s.engineWord I lead n e body = if lead && I.G.idx != 0 then z.newRegion I e else body z :=
  State.boundaryWord_at e _ hgate hat

/-- A word of an engine whose command leaves what its row gives leaves the state of its rule. -/
theorem leaves_engineWord {F : Instr → Option (Need × Option State)} {i : Instr} {n : Need} {o : Option State} {lead e : Bool}
    {f : Iss → State} {body : State → State} {row : State → Option State} (hs : s.iss = some I) (hrow : F i = some (n, o))
    (hleft : o = (Claims.atBoundary s I n.mask).bind fun z => if lead && I.G.idx != 0 then some (z.newRegion I e) else row z)
    (hexec : exec i s = s.withIss f) (hword : f I = s.engineWord I lead n e body)
    (hbody : ∀ z t, row z = some t → body z = t) : Leaves s I F i := by
  refine leaves_of_row hs hrow hexec fun hgate t ht => hword.trans ?_
  obtain ⟨z, hat, ht⟩ := Option.bind_eq_some_iff.1 (hleft.symm.trans ht)
  rw [State.engineWord_at e body hgate hat]
  split at ht
  case isTrue hfollows => exact (if_pos hfollows).trans (Option.some.inj ht)
  case isFalse hleads => exact (if_neg hleads).trans (hbody z t ht)

/-! ### Copies (R264, R276, R277, R281) -/

/-- A copy that its engine accepts, and which the port and the debts of its lines and rows let in, is queued (R276, R277). -/
theorem leaves_copy {i : Instr} {d a : BitVec 5} {slot form : Nat} {lead store e : Bool} (hs : s.iss = some I)
    (hrow : copyAfter s I i = some (copyNeed I d a, copyDone s I d a slot form lead store e))
    (hexec : exec i s = s.withIss fun I => s.copyWord I d a slot form lead store e) : Leaves s I (copyAfter s I) i := by
  refine leaves_engineWord hs hrow rfl hexec rfl fun z t ht => ?_
  obtain ⟨hpass, ht⟩ := Option.ite_none_left_eq_some.1 ht
  obtain ⟨haccepted, henters⟩ := not_or.1 hpass
  have haccepted : z.copyBad I (copyCmd z I d a slot form store) slot = none := by simpa using haccepted
  unfold copyCmd at haccepted henters ht
  dsimp only [quadOp] at haccepted henters ht ⊢
  rw [haccepted]
  simp only [Bool.not_eq_eq_eq_not, Bool.not_true, if_neg henters]
  exact Option.some.inj ht

/-- A `cpyd` that waits for no copy any more releases and acquires, and goes on (R281). -/
theorem leaves_cpyd (hs : s.iss = some I) (m : BitVec 4) (l e : Bool) : Leaves s I (copyAfter s I) (.cpyd m l e) := by
  refine leaves_engineWord hs rfl rfl rfl rfl fun z t ht => ?_
  obtain ⟨hdrained, ht⟩ := Option.ite_none_right_eq_some.1 ht
  exact (if_pos hdrained).trans (Option.some.inj ht)

/-- A `cpyr` of a clean record that passes its checks writes its slot (R264). -/
theorem leaves_cpyr (hs : s.iss = some I) (a : BitVec 6) (n : BitVec 4) (l e : Bool) :
    Leaves s I (copyAfter s I) (.cpyr a n l e) := by
  refine leaves_engineWord hs rfl rfl rfl rfl fun z t ht => ?_
  obtain ⟨haddress, ht⟩ := Option.ite_none_left_eq_some.1 ht
  obtain ⟨hopen, ht⟩ := Option.ite_none_left_eq_some.1 ht
  simp only [not_or, ne_eq, Decidable.not_not] at haddress
  obtain ⟨haligned, hfirst, hlast⟩ := haddress
  dsimp only [pairOp] at haligned hfirst hlast hopen ht ⊢
  rw [if_neg (not_not_intro haligned), if_neg hfirst, if_neg hlast, if_neg (by simpa using hopen)]
  generalize z.translateThreads _ _ _ _ _ _ _ = reached at ht ⊢
  cases reached with
  | stop => cases ht
  | go z' live ab xs =>
    dsimp only at ht ⊢
    generalize xlatOf xs _ = page at ht ⊢
    cases page with
    | ok pa policy key =>
      obtain ⟨hgood, ht⟩ := Option.ite_none_left_eq_some.1 ht
      simp only [not_or, ne_eq, Decidable.not_not, Option.not_isSome_iff_eq_none] at hgood
      obtain ⟨hclean, hvalid, hbase, hend⟩ := hgood
      dsimp only
      rw [if_neg (not_not_intro hclean), hvalid, if_neg hbase, if_neg hend]
      exact Option.some.inj ht
    | _ => cases ht

/-- Settles O35: seven forms of one word that queues a copy, the drain, and the load of a slot. -/
theorem copyWords : Obligations.CopyWords := by
  intro s I hs
  refine ⟨?tile, ?gather, ?scatter, ?axpb, ?rescale, ?fill, ?sum, leaves_cpyd hs, leaves_cpyr hs⟩
  case tile | gather | scatter | axpb | rescale | fill | sum => exact fun d a n l r e => leaves_copy hs rfl rfl

end Sys2Proof.Machine
end

section
/-!
SUPPORT. The events of the copy, matrix and migration engines and of the links (R277 to R280, R296, R313, R317, R319, R378, R381):
each leaves the state of its rule, or the state as it was.
-/

namespace Sys2Proof.Machine

open Sys2Proof.Claims

variable (s : State)

/-! ### Copies (R277, R278, R280) -/

/-- A copy does its next row where one gets done, is passed over or waits; where one stops, `copyStop` takes it. -/
theorem execLineFill_eq (core id : Nat) : execLineFill core id s = .next ((engineEvent s (.lineFill core id)).getD s) := by
  simp only [execLineFill, engineEvent, copyNext]
  cases s.copyOf core id with
  | none => rfl
  | some c =>
    dsimp only [Option.map_some, Option.bind_some]
    generalize s.copyRows c (s.rowsOpen c) = tried
    obtain ⟨t, outcome⟩ := tried
    cases outcome <;> rfl

/-- A copy that has done its rows lands on its barrier, where it has one. -/
theorem execCopyCompletion_eq (core id : Nat) :
    execCopyCompletion core id s = .next ((engineEvent s (.copyCompletion core id)).getD s) := by
  simp only [execCopyCompletion, engineEvent]
  cases s.copyOf core id with
  | none => rfl
  | some c =>
    dsimp only [Option.bind_some]
    by_cases hleft : c.left ≠ []
    · rw [if_pos hleft, if_pos hleft]; rfl
    · rw [if_neg hleft, if_neg hleft]; rfl

/-- A copy of which a row stops ends its context. -/
theorem execCopyStop_eq (core id : Nat) : execCopyStop core id s = .next ((engineEvent s (.copyStop core id)).getD s) := by
  simp only [execCopyStop, engineEvent, copyNext]
  cases s.copyOf core id with
  | none => rfl
  | some c =>
    dsimp only [Option.map_some, Option.bind_some]
    generalize s.copyRows c (s.rowsOpen c) = tried
    obtain ⟨t, outcome⟩ := tried
    cases outcome <;> rfl

/-! ### Matrix operations (R296, R299, R301) -/

/-- Counting up gives as many numbers as are asked for. -/
@[simp] theorem length_upFrom (a step n : Nat) : (upFrom a step n).length = n := by
  induction n generalizing a with
  | zero => rfl
  | succ n ih => rw [upFrom, List.length_cons, ih]

/-- A step without the latch starts where its groups and their tokens are there, and else leaves the state as it is. -/
theorem State.mxStart_eq (o : MxOp) : s.mxStart o = (started s o).getD s := by
  unfold State.mxStart started
  dsimp only
  rw [length_upFrom, apply_ite (Option.getD · s)]
  rfl

/-- The next operation of its arrays starts: an `mxc` at once, a step by the latch of its group or by its tokens. -/
theorem execMatrixStep_eq (cluster id : Nat) :
    execMatrixStep cluster id s = .next ((engineEvent s (.matrixStep cluster id)).getD s) := by
  simp only [execMatrixStep, engineEvent, opOf]
  cases s.mxops.find? fun o => o.id == id && o.cluster == cluster with
  | none => rfl
  | some o =>
    simp only [Option.bind_some, Bool.or_eq_true, Bool.not_eq_true']
    split
    case isTrue => rfl
    case isFalse =>
      split
      case isTrue => rfl
      case isFalse =>
        cases mapFind s.latches cluster with
        | none => exact congrArg _ (s.mxStart_eq o)
        | some l =>
          dsimp only
          split
          case isTrue => rfl
          case isFalse => exact congrArg _ (s.mxStart_eq o)

/-- An operation under way completes, or stops at a container of another format. -/
theorem execMatrixStepComplete_eq (cluster id : Nat) :
    execMatrixStepComplete cluster id s = .next ((engineEvent s (.matrixStepComplete cluster id)).getD s) := by
  simp only [execMatrixStepComplete, engineEvent]
  cases s.mxops.find? fun o => o.id == id && o.cluster == cluster && o.started && !o.done <;> rfl

/-! ### Migration engines (R378, R381) -/

/-- The hint command that an engine is at is run. -/
theorem execTierHintRun_eq (eng : Nat) : execTierHintRun eng s = .next ((engineEvent s (.tierHintRun eng)).getD s) := by
  simp only [execTierHintRun, engineEvent]
  cases s.migrHead eng with
  | none => rfl
  | some c =>
    dsimp only [Option.bind_some]
    rw [apply_ite (Option.getD · s)]
    rfl

/-- The move that an engine is at goes on by one step of its phase. -/
theorem execMigrationPage_eq (eng : Nat) : execMigrationPage eng s = .next ((engineEvent s (.migrationPage eng)).getD s) := by
  simp only [execMigrationPage, engineEvent]
  cases s.migrHead eng with
  | none => rfl
  | some c =>
    dsimp only [Option.bind_some]
    by_cases hmove : c.hint ≠ 0
    · rw [if_pos hmove, if_pos hmove]; rfl
    · rw [if_neg hmove, if_neg hmove]
      match c.phase with
      | 0 | 1 | 2 | _ + 3 => rfl

/-! ### Links (R313, R317, R319) -/

/-- The first message on a link lands. -/
theorem execMessageArrival_eq (core dir : Nat) :
    execMessageArrival core dir s = .next ((engineEvent s (.messageArrival core dir)).getD s) := by
  simp only [execMessageArrival, engineEvent]
  cases mapGet s.sluFly (core, dir) [] <;> rfl

/-- A credit that is on its way back is usable again. -/
theorem execCreditReturn_eq (core dir : Nat) :
    execCreditReturn core dir s = .next ((engineEvent s (.creditReturn core dir)).getD s) := by
  simp only [execCreditReturn, engineEvent, apply_ite (Option.getD · s), Option.getD_none, Option.getD_some]

/-- A receive wait at its bound raises SLUICE-TIMEOUT. -/
theorem execSluiceTimeout_eq (gid sid : Nat) :
    execSluiceTimeout gid sid s = .next ((engineEvent s (.sluiceTimeout gid sid)).getD s) := by
  simp only [execSluiceTimeout, engineEvent]
  cases s.issOf gid sid with
  | none => rfl
  | some I =>
    dsimp only [Option.bind_some]
    generalize I.S.wait = wait
    cases wait with
    | link recv ch send size since data =>
      cases recv with
      | none => rfl
      | some d =>
        dsimp only
        rw [apply_ite (Option.getD · s)]
        rfl
    | _ => rfl

/-- Settles O44: each event leaves the state of its rule, and the state as it was where it is not due. -/
theorem engineEvents : Obligations.EngineEvents := fun s =>
  ⟨fun core id => happens_of_getD (execLineFill_eq s core id), fun core id => happens_of_getD (execCopyCompletion_eq s core id),
    fun core id => happens_of_getD (execCopyStop_eq s core id), fun cluster id => happens_of_getD (execMatrixStep_eq s cluster id),
    fun cluster id => happens_of_getD (execMatrixStepComplete_eq s cluster id),
    fun eng => happens_of_getD (execTierHintRun_eq s eng), fun eng => happens_of_getD (execMigrationPage_eq s eng),
    fun core dir => happens_of_getD (execMessageArrival_eq s core dir),
    fun core dir => happens_of_getD (execCreditReturn_eq s core dir),
    fun gid sid => happens_of_getD (execSluiceTimeout_eq s gid sid)⟩

end Sys2Proof.Machine
end

section
/-!
SUPPORT. The commands that an engine refuses (R264, R276, R295, R304, R365, R378, R380, R404): the checks of each are its grounds,
and the first that holds is its fault.
-/

namespace Sys2Proof.Machine

open Sys2Proof.Claims

/-! ### The first ground that holds -/

/-- The fault that an engine raises on a ground. -/
def refusalFlt (src : Nat) (m : Mask) (x : Ground) : Flt :=
  { code := x.code, src := src, tmask := m, va := x.va, pa := x.pa, detail := x.detail }

/-- What a word does on the first of some grounds that holds, or where none of them does. -/
def onFirst {β : Type} (gs : List Ground) (f : Ground → β) (b : β) : β := (gs.find? (·.holds)).elim b f

section Grounds

variable {β : Type} {f : Ground → β} {b : β}

/-- No ground holds of none. -/
@[simp] theorem onFirst_nil : onFirst [] f b = b := rfl

/-- A ground comes before those after it. -/
theorem onFirst_cons (g : Ground) (gs : List Ground) : onFirst (g :: gs) f b = if g.holds then f g else onFirst gs f b := by
  unfold onFirst
  cases h : g.holds <;> simp [h]

/-- Grounds come before those after them. -/
theorem onFirst_append (gs hs : List Ground) : onFirst (gs ++ hs) f b = onFirst gs f (onFirst hs f b) := by
  unfold onFirst
  rw [List.find?_append]
  cases gs.find? (·.holds) <;> rfl

/-- Where a ground holds first, it decides. -/
theorem onFirst_of_find {gs : List Ground} {x : Ground} (h : gs.find? (·.holds) = some x) : onFirst gs f b = f x := by
  rw [onFirst, h]
  rfl

end Grounds

/-- Two chains of checks agree where their first checks do, what those answer, and what comes where they pass. -/
theorem check_congr {α : Type} {p q : Prop} [Decidable p] [Decidable q] {x u y v : α} (h : p ↔ q) (hfails : x = u)
    (hpasses : ¬q → y = v) : (if p then x else y) = if q then u else v :=
  ite_congr (propext h) (fun _ => hfails) hpasses

variable {s z : State} {I : Iss}

/-- The checks of an address of a word that its engine refuses (R168). -/
theorem onFirst_addressGrounds (src va size last : Nat) (t : State) :
    onFirst (addressGrounds va size last) (fun x => z.raise I (refusalFlt src I.act x)) t =
      if va % size ≠ 0 then z.refuseCommand I codeMisaligned src 0 (some va)
      else if !canonical va then z.refuseCommand I codeNoncanonical src 0 (some va)
      else if !canonical last then z.refuseCommand I codeVaWrap src 0 (some va)
      else t := by
  unfold addressGrounds
  rw [onFirst_cons, onFirst_cons, onFirst_cons]
  exact check_congr bne_iff_ne rfl fun _ => rfl

/-! ### Words that raise the fault of the first ground -/

/-- A word that, once its checks pass and it is at its boundary, raises the fault of the first ground that holds refuses as its rule
says. -/
theorem refuses_of_raise {i : Instr} {c : State → Refusals} {f : Iss → State} (hs : s.iss = some I)
    (hrow : ∀ z, refusalsOf z I i = some (c z)) (hexec : exec i s = s.withIss f)
    (heff : ∀ z x, Claims.atBoundary s I I.act = some z → I.S.released = false → I.gate (c z).need = .go →
      ((c z).lead = true → I.G.idx = 0) → (c z).grounds.find? (·.holds) = some x →
        f I = z.raise I (refusalFlt (c z).src I.act x)) :
    Refuses s I (fun z => refusalsOf z I) i := by
  intro c' z x hat hfirst _ hrow' hgate hlead hx
  obtain rfl : c z = c' := Option.some.inj ((hrow z).symm.trans hrow')
  rw [hexec, State.withIss_some f hs, heff z x hat hfirst hgate hlead hx]
  rfl

/-- A word of an engine, of which the splits that issue its command raise the fault of the first ground that holds, refuses as its
rule says. -/
theorem refuses_engineWord {i : Instr} {c : State → Refusals} {f : Iss → State} {n : Need} {lead e : Bool} {body : State → State}
    (hs : s.iss = some I) (hrow : ∀ z, refusalsOf z I i = some (c z)) (hexec : exec i s = s.withIss f)
    (hword : f I = s.engineWord I lead n e body) (hmask : n.mask = I.act) (hneed : ∀ z, (c z).need = n)
    (hlead : ∀ z, (c z).lead = lead)
    (hbody : ∀ z x, (c z).grounds.find? (·.holds) = some x → body z = z.raise I (refusalFlt (c z).src I.act x)) :
    Refuses s I (fun z => refusalsOf z I) i := by
  refine refuses_of_raise hs hrow hexec fun z x hat _ hgate hleads hx => ?_
  rw [hneed] at hgate
  rw [hlead] at hleads
  have hissues : ¬(lead && I.G.idx != 0) = true := by simpa using hleads
  rw [hword, State.engineWord_at e _ hgate (by rwa [hmask]), if_neg hissues, hbody z x hx]

/-! ### Copies (R264, R276) -/

/-- A slot that holds no record fails the first check of a copy. -/
theorem State.copyBad_of_lay_nil (c : CopyCmd) (slot : Nat) (h : c.lay = []) :
    z.copyBad I c slot = some (codeLayoutInvalid, 7 + 16 * slot, none) := by
  unfold State.copyBad
  exact if_pos (.inl h)

/-- The first ground of a copy that holds is the first check of its acceptance that fails. -/
theorem copyBad_of_find {d a : BitVec 5} {slot form : Nat} {lead store : Bool} {x : Ground}
    (h : (copyRefusals z I d a slot form lead store).grounds.find? (·.holds) = some x) :
    z.copyBad I (copyCmd z I d a slot form store) slot = some (x.code, x.detail, x.va) ∧ x.pa = none := by
  simp only [copyRefusals, List.find?_cons] at h
  split at h
  case h_1 hlay =>
    obtain rfl := Option.some.inj h
    exact ⟨State.copyBad_of_lay_nil _ _ (beq_iff_eq.1 hlay), rfl⟩
  case h_2 =>
    generalize State.copyBad _ _ _ _ = bad at h ⊢
    cases bad with
    | none => cases h
    | some y => obtain rfl := Option.some.inj h; exact ⟨rfl, rfl⟩

/-- A copy that its engine does not accept is refused for its first check that fails. -/
theorem refuses_copy {i : Instr} {d a : BitVec 5} {slot form : Nat} {lead store e : Bool} (hs : s.iss = some I)
    (hrow : ∀ z, refusalsOf z I i = some (copyRefusals z I d a slot form lead store))
    (hexec : exec i s = s.withIss fun I => s.copyWord I d a slot form lead store e) :
    Refuses s I (fun z => refusalsOf z I) i := by
  refine refuses_engineWord hs hrow hexec rfl rfl (fun _ => rfl) (fun _ => rfl) fun z x hx => ?_
  obtain ⟨hbad, hpa⟩ := copyBad_of_find hx
  unfold copyCmd at hbad
  dsimp only [quadOp] at hbad ⊢
  rw [hbad, refusalFlt, hpa]
  rfl

/-- A `cpyr` whose address fails a check is refused for the first. -/
theorem refuses_cpyr (hs : s.iss = some I) (a : BitVec 6) (n : BitVec 4) (l e : Bool) :
    Refuses s I (fun z => refusalsOf z I) (.cpyr a n l e) :=
  refuses_engineWord hs (fun _ => rfl) rfl rfl rfl (fun _ => rfl) (fun _ => rfl) fun _ _ hx =>
    (onFirst_addressGrounds ..).symm.trans (onFirst_of_find hx)

/-- A `launch` whose address fails a check is refused for the first. -/
theorem refuses_launch (hs : s.iss = some I) (d a : BitVec 6) (q : BitVec 3) (e : Bool) :
    Refuses s I (fun z => refusalsOf z I) (.launch d a q e) :=
  refuses_engineWord hs (fun _ => rfl) rfl rfl rfl (fun _ => rfl) (fun _ => rfl) fun _ _ hx =>
    (onFirst_addressGrounds ..).symm.trans (onFirst_of_find hx)

/-! ### Ranges of pages (R365) -/

/-- A range word raises the fault of the first ground of its address. -/
theorem State.rangeWord_of_find {u : Bool} {d : BitVec 7} {a : BitVec 6} {k m : Bool} {x : Ground}
    (body : State → PageRange → State) (h : (rangeRefusals I u d a k m).grounds.find? (·.holds) = some x) :
    z.rangeWord I d a body = z.raise I (refusalFlt 7 I.act x) :=
  (onFirst_addressGrounds ..).symm.trans (onFirst_of_find h)

/-- A `tfen.sync` whose range fails a check is refused for the first. -/
theorem refuses_tfenSync (hs : s.iss = some I) (u : Bool) (d : BitVec 7) (a : BitVec 6) (c : BitVec 3) (k m e : Bool) :
    Refuses s I (fun z => refusalsOf z I) (.tfenSync u d a c k m e) := by
  refine refuses_of_raise hs (fun _ => rfl) rfl fun z x hat hfirst hgate _ hx => ?_
  obtain ⟨htx, hthrough⟩ := Option.ite_none_left_eq_some.1 hat
  refine (State.boundaryWord_go e _ hgate (eq_false_of_ne_true htx)).trans ?_
  rw [if_neg (ne_true_of_eq_false hfirst), State.atBoundary_through _ hthrough, State.rangeWord_of_find _ hx]
  rfl

/-- A `tinv.page` whose range fails a check is refused for the first. -/
theorem refuses_tinvPage (hs : s.iss = some I) (u : Bool) (d : BitVec 7) (a : BitVec 6) (c : BitVec 3) (k m e : Bool) :
    Refuses s I (fun z => refusalsOf z I) (.tinvPage u d a c k m e) :=
  refuses_of_raise hs (fun _ => rfl) rfl fun _ _ hat _ hgate _ hx =>
    (State.boundaryWord_at e _ hgate hat).trans (State.rangeWord_of_find _ hx)

/-! ### Matrix operations (R295, R304) -/

/-- A field of one bit is that bit. -/
theorem toNat_extractLsb'_one (v : Word) (i : Nat) : ((v.extractLsb' i 1).toNat == 1) = v.getLsbD i := by
  rw [BitVec.getLsbD, Nat.testBit_eq_decide_div_mod_eq, BitVec.extractLsb'_toNat, Nat.shiftRight_eq_div_pow, Nat.pow_one]
  rfl

/-- The leading workgroup of a pair, by its grid and its rank (R24). -/
theorem leadsPair_eq (w : Nat) :
    leadsPair z w = ((((z.wg w).bind fun x => mapFind z.grids x.grid).map (·.cs)).getD 1 == 2 &&
      ((z.wg w).map (·.w)).getD 1 % 2 == 0) := by
  unfold leadsPair
  cases z.wg w with
  | none => rfl
  | some x => cases h : mapFind z.grids x.grid <;> simp [h]

/-- Rows that lie beyond the workgroup's, one list after another. -/
theorem rowsBeyond_append (w : Nat) (k l : List Nat) : rowsBeyond z w (k ++ l) = (rowsBeyond z w k || rowsBeyond z w l) :=
  List.any_append

section Fields

variable {o : MxOp}

/-- The kinds of a step (R293). -/
theorem MxOp.kind_of_isStep (h : o.isStep = true) : o.kind = .mma ∨ o.kind = .cmma ∨ o.kind = .pmma := by
  simpa [MxOp.isStep, or_assoc] using h

/-- The kinds of an operation on an accumulator tile alone (R304). -/
theorem MxOp.kind_of_not_isStep (h : o.isStep = false) : o.kind = .zero ∨ o.kind = .rscl := by
  unfold MxOp.isStep at h
  cases hkind : o.kind <;> simp [hkind] at h ⊢

/-- Reserved bits of a step's descriptor: those of every kind, and the planes where none are read (R294). -/
theorem MxOp.reservedStep_iff : o.reservedStep = true ↔
    (decide (o.field 0 18 14 + o.field 0 10 6 + o.field 1 16 16 + o.field 1 10 2 + o.field 2 9 23 + o.field 2 7 1 + o.field 3 26 6 +
      o.field 3 10 6 ≠ 0) || (o.kind != .pmma && o.field 1 12 4 != 0)) = true := by
  simp only [MxOp.reservedStep, Bool.or_eq_true, Bool.and_eq_true, bne_iff_ne, decide_eq_true_eq]
  by_cases hplanes : o.kind = .pmma
  · simp only [hplanes, ne_eq, not_true_eq_false, false_and, or_false]
    omega
  · simp only [hplanes, ne_eq, not_false_eq_true, true_and]
    omega

/-- Reserved bits of the descriptor of an `mxc` (R304). -/
theorem MxOp.reservedClear_iff :
    o.reservedClear = true ↔ decide (o.field 0 17 15 + o.field 0 10 6 + o.field 1 13 19 ≠ 0) = true := by
  simp only [MxOp.reservedClear, Bool.or_eq_true, bne_iff_ne, decide_eq_true_eq]
  omega

/-- The pair bit of a step (R294). -/
theorem MxOp.paired_of_isStep (h : o.isStep = true) : o.paired = (o.field 2 8 1 == 1) := by
  rw [MxOp.field, toNat_extractLsb'_one]
  unfold MxOp.paired
  obtain h | h | h := MxOp.kind_of_isStep h <;> rw [h] <;> rfl

/-- The pair bit of an operation on an accumulator tile alone (R304). -/
theorem MxOp.paired_of_not_isStep (h : o.isStep = false) : o.paired = (o.field 1 12 1 == 1) := by
  rw [MxOp.field, toNat_extractLsb'_one]
  unfold MxOp.paired
  obtain h | h := MxOp.kind_of_not_isStep h <;> rw [h] <;> rfl

/-- The rows of A of a step that has read none yet (R288). -/
theorem MxOp.rows_of_isStep (h : o.isStep = true) (hrows : o.arows = []) : o.rows = 32 * (o.acnt + 1) := by
  unfold MxOp.rows
  obtain h | h | h := MxOp.kind_of_isStep h <;> rw [h] <;> exact if_pos hrows

/-- The rows of an accumulator tile (R304). -/
theorem MxOp.rows_of_not_isStep (h : o.isStep = false) : o.rows = 32 * (o.field 1 10 2 + 1) := by
  unfold MxOp.rows
  obtain h | h := MxOp.kind_of_not_isStep h <;> rw [h] <;> rfl

/-- The scale rows of a step (R291). -/
theorem MxOp.scaleRows_of_isStep (h : o.isStep = true) :
    o.scaleRows = (if o.ascale = 0 then [] else [o.asrow], if o.bscale = 0 then [] else [o.bsrow]) := by
  unfold MxOp.scaleRows
  obtain h | h | h := MxOp.kind_of_isStep h <;> rw [h]

/-- The rows of B of a step (R289, R298). -/
theorem MxOp.bRows_of_isStep (h : o.isStep = true) : o.bRows = if o.kind == .pmma then o.q else 4 := by
  rw [MxOp.bRows, if_pos h]
  exact check_congr beq_iff_eq.symm rfl fun _ => rfl

/-- An operation on an accumulator tile alone reads no rows of B (R304). -/
theorem MxOp.bRows_of_not_isStep (h : o.isStep = false) : o.bRows = 0 := if_neg (ne_true_of_eq_false h)

end Fields

/-- Ends of rows of which one lies beyond the workgroup's. -/
theorem rowsBeyond_cons (w m : Nat) (l : List Nat) :
    rowsBeyond z w (m :: l) = true ↔ ((z.wg w).map (·.panRows)).getD 0 < m ∨ rowsBeyond z w l = true := by
  simp [rowsBeyond]

/-- Single rows of which one lies beyond the workgroup's. -/
theorem rowsBeyond_succ (w : Nat) (l : List Nat) :
    rowsBeyond z w (l.map (· + 1)) = l.any fun r => decide (((z.wg w).map (·.panRows)).getD 0 ≤ r) := by
  simp only [rowsBeyond, List.any_map, Function.comp_def, Nat.lt_add_one_iff]

/-- A scale row that is read where a scale has a format lies beyond the workgroup's. -/
theorem rowsBeyond_scale (w r : Nat) (p : Prop) [Decidable p] : rowsBeyond z w (if p then [] else [r + 1]) =
    (if p then [] else [r]).any fun r => decide (((z.wg w).map (·.panRows)).getD 0 ≤ r) := by
  rw [← rowsBeyond_succ, apply_ite (List.map (· + 1))]
  rfl

/-- The checks of a step are its grounds, in their order (R295). -/
theorem mxBad_step (d : BitVec 5) (areg : Nat) (kind : MxKind) (reuse lead : Bool)
    (hstep : (matrixOp z I (quadOp d) areg kind reuse).isStep = true) :
    z.mxBad (matrixOp z I (quadOp d) areg kind reuse) =
      onFirst (stepRefusals z I d kind lead).grounds (fun x => some (x.code, x.detail)) none := by
  unfold State.mxBad stepRefusals
  dsimp only
  rw [hstep, if_neg (by decide), MxOp.rows_of_isStep hstep rfl, MxOp.paired_of_isStep hstep, MxOp.scaleRows_of_isStep hstep,
    ← leadsPair_eq]
  simp only [onFirst_cons, onFirst_nil]
  refine check_congr ?fields rfl fun _ => check_congr MxOp.reservedStep_iff rfl fun _ => check_congr ?formats rfl fun _ =>
    check_congr ?complex rfl fun _ => check_congr Iff.rfl rfl fun _ => check_congr decide_eq_true_iff.symm rfl fun _ =>
      check_congr ?planes rfl fun hplanes => check_congr ?rows rfl fun _ => rfl
  case fields =>
    simp only [Bool.or_eq_true, Bool.and_eq_true, decide_eq_true_eq, beq_iff_eq, or_assoc]
    exact Iff.rfl
  case formats =>
    rw [Bool.or_eq_true, bne_iff_ne, apply_ite (· = true), Bool.or_eq_true, Bool.or_eq_true, bne_iff_ne, bne_iff_ne, bne_iff_ne]
    exact or_congr Iff.rfl (iff_of_eq (check_congr beq_iff_eq.symm rfl fun _ => rfl))
  case complex => rw [toNat_extractLsb'_one]; exact Iff.rfl
  case planes =>
    simp only [Bool.or_eq_true, Bool.and_eq_true, decide_eq_true_eq, beq_iff_eq]
    exact Iff.rfl
  case rows =>
    -- a `pmma` that passes the check of its planes reads one at least, so the rows of B are never none
    have hread : (matrixOp z I (quadOp d) areg kind reuse).bRows ≠ 0 := by
      rw [MxOp.bRows_of_isStep hstep]
      split
      case isTrue hpmma =>
        exact fun hnone => hplanes (Bool.and_eq_true_iff.2 ⟨hpmma, Bool.or_eq_true_iff.2 (.inl (beq_iff_eq.2 hnone))⟩)
      case isFalse => decide
    simp only [List.cons_append, List.nil_append, rowsBeyond_cons, rowsBeyond_append, rowsBeyond_scale, List.any_append,
      Bool.or_eq_true, and_iff_left hread]
    rw [MxOp.bRows_of_isStep hstep]
    exact Iff.rfl

/-- The checks of an operation on an accumulator tile alone are its grounds, in their order (R304). -/
theorem mxBad_tile (d : BitVec 6) (kind : MxKind) (lead : Bool) (hstep : (matrixOp z I (pairOp d) 0 kind false).isStep = false) :
    z.mxBad (matrixOp z I (pairOp d) 0 kind false) =
      onFirst (tileRefusals z I d (kind == .rscl) lead).grounds (fun x => some (x.code, x.detail)) none := by
  unfold State.mxBad tileRefusals
  dsimp only
  rw [hstep, if_pos Bool.not_false, MxOp.rows_of_not_isStep hstep, MxOp.paired_of_not_isStep hstep, MxOp.bRows_of_not_isStep hstep,
    ← leadsPair_eq]
  simp only [onFirst_cons, onFirst_nil]
  refine check_congr MxOp.reservedClear_iff rfl fun _ => check_congr Iff.rfl rfl fun _ => check_congr ?rows rfl fun _ => rfl
  simp only [ne_eq, not_true_eq_false, and_false, false_or, rowsBeyond_cons]
  refine or_congr Iff.rfl ?_
  obtain rfl | rfl : kind = .zero ∨ kind = .rscl := MxOp.kind_of_not_isStep hstep
  case inl => exact iff_of_eq (congrArg (· = true) (rowsBeyond_succ _ []).symm)
  case inr => exact iff_of_eq (congrArg (· = true) (rowsBeyond_succ _ [(matrixOp z I (pairOp d) 0 .rscl false).srow]).symm)

/-- A matrix operation whose checks are its grounds is refused for the first that holds. -/
theorem refuses_matrix {i : Instr} {c : State → Refusals} {d : Opnd} {areg : Nat} {kind : MxKind} {lead reuse e : Bool}
    (hs : s.iss = some I) (hrow : ∀ z, refusalsOf z I i = some (c z))
    (hexec : exec i s = s.withIss fun I => s.matrixWord I d areg kind lead reuse e) (hneed : ∀ z, (c z).need = I.descNeed [d])
    (hlead : ∀ z, (c z).lead = lead) (hsrc : ∀ z, (c z).src = 4)
    (hbad : ∀ z, z.mxBad (matrixOp z I d areg kind reuse) = onFirst (c z).grounds (fun x => some (x.code, x.detail)) none)
    (haddress : ∀ z, ∀ x ∈ (c z).grounds, x.va = none ∧ x.pa = none) : Refuses s I (fun z => refusalsOf z I) i := by
  refine refuses_engineWord hs hrow hexec rfl rfl hneed hlead fun z x hx => ?_
  obtain ⟨hva, hpa⟩ := haddress z x (List.mem_of_find?_eq_some hx)
  have hbad := (hbad z).trans (onFirst_of_find hx)
  unfold matrixOp at hbad
  dsimp only
  rw [hbad, hsrc, refusalFlt, hva, hpa]
  rfl

/-- A step that its engine does not accept is refused for its first check that fails (R295). -/
theorem refuses_step {i : Instr} {d : BitVec 5} {areg : Nat} {kind : MxKind} {lead reuse e : Bool} (hs : s.iss = some I)
    (hrow : ∀ z, refusalsOf z I i = some (stepRefusals z I d kind lead))
    (hexec : exec i s = s.withIss fun I => s.matrixWord I (quadOp d) areg kind lead reuse e)
    (hstep : ∀ z, (matrixOp z I (quadOp d) areg kind reuse).isStep = true) : Refuses s I (fun z => refusalsOf z I) i :=
  refuses_matrix hs hrow hexec (fun _ => rfl) (fun _ => rfl) (fun _ => rfl) (fun z => mxBad_step d areg kind reuse lead (hstep z))
    fun z => by simp [stepRefusals]

/-- An operation on an accumulator tile alone that its engine does not accept is refused for its first check that fails (R304). -/
theorem refuses_tile {i : Instr} {d : BitVec 6} {kind : MxKind} {lead e : Bool} (hs : s.iss = some I)
    (hrow : ∀ z, refusalsOf z I i = some (tileRefusals z I d (kind == .rscl) lead))
    (hexec : exec i s = s.withIss fun I => s.matrixWord I (pairOp d) 0 kind lead false e)
    (hstep : ∀ z, (matrixOp z I (pairOp d) 0 kind false).isStep = false) : Refuses s I (fun z => refusalsOf z I) i :=
  refuses_matrix hs hrow hexec (fun _ => rfl) (fun _ => rfl) (fun _ => rfl) (fun z => mxBad_tile d kind lead (hstep z))
    fun z => by simp [tileRefusals]

/-! ### Migration engines (R378, R380) -/

/-- The check of a range of pages is the first ground of its address that holds. -/
theorem onFirst_pageRange (va n : Nat) (b : Option (Nat × Nat × Option Nat × Option Nat)) :
    onFirst (addressGrounds va 65536 (va + 65536 * n - 1)) (fun x => some (x.code, x.detail, x.va, x.pa)) b =
      (migrRangeBad va n).elim b fun code => some (code, 0, some va, none) := by
  unfold migrRangeBad addressGrounds
  rw [onFirst_cons, onFirst_cons, onFirst_cons, onFirst_nil, apply_ite (Option.elim · b _), apply_ite (Option.elim · b _),
    apply_ite (Option.elim · b _)]
  exact check_congr bne_iff_ne rfl fun _ => rfl

/-- A hint whose range fails a check is refused for the first. -/
theorem refuses_thint {i : Instr} {d : BitVec 6} {a : BitVec 7} {lead e : Bool} {op : Nat} (hs : s.iss = some I)
    (hrow : ∀ z, refusalsOf z I i = some (hintRefusals I d a lead))
    (hexec : exec i s = s.withIss fun I => s.thint I d a lead e op) : Refuses s I (fun z => refusalsOf z I) i := by
  refine refuses_engineWord hs hrow hexec rfl rfl (fun _ => rfl) (fun _ => rfl) fun z x hx => ?_
  have hbad := (onFirst_pageRange _ _ none).symm.trans (onFirst_of_find hx)
  unfold pageCount at hbad
  dsimp only [pairOp]
  generalize migrRangeBad _ _ = bad at hbad ⊢
  cases bad with
  | none => cases hbad
  | some code =>
    simp only [Option.elim_some, Option.some.injEq, Prod.mk.injEq] at hbad
    obtain ⟨hcode, hdetail, hva, hpa⟩ := hbad
    rw [refusalFlt, ← hcode, ← hdetail, ← hva, ← hpa]
    rfl

/-- A field is not 0 where its number is not. -/
theorem bne_zero_iff {n : Nat} (v : BitVec n) : (v != 0#n) = true ↔ v.toNat ≠ 0 := by
  rw [bne_iff_ne, Ne, ← BitVec.toNat_inj, BitVec.toNat_zero]

/-- A field of two bits is 2 or more where its upper bit is set. -/
theorem two_le_toNat_extractLsb'_iff (v : Word) (i : Nat) :
    2 ≤ (v.extractLsb' i 2).toNat ↔ (v.extractLsb' (i + 1) 1).toNat ≠ 0 := by
  simp only [BitVec.extractLsb'_toNat, Nat.shiftRight_add]
  omega

/-- The control bits that a move refuses, as its ground counts them (R380). -/
theorem migrCtlBad_iff (ctl : Word) : migrCtlBad ctl = true ↔
    (decide ((ctl.extractLsb' 28 4).toNat + (ctl.extractLsb' 18 3).toNat + (ctl.extractLsb' 11 5).toNat ≠ 0) ||
      decide ((ctl.extractLsb' 0 11).toNat = 0 ∨ 1024 < (ctl.extractLsb' 0 11).toNat) ||
      decide (2 ≤ (ctl.extractLsb' 16 2).toNat)) = true := by
  have hcount : (ctl.extractLsb' 0 11 == 0#11) = true ↔ (ctl.extractLsb' 0 11).toNat = 0 := by
    rw [beq_iff_eq, ← BitVec.toNat_inj, BitVec.toNat_zero]
  simp only [migrCtlBad, Bool.or_eq_true, bne_zero_iff, hcount, decide_eq_true_eq, two_le_toNat_extractLsb'_iff, Nat.reduceAdd]
  omega

/-- A check that fails leaves those after it out. -/
theorem ite_some_or {α : Type} {p : Prop} [Decidable p] (x : α) (y t : Option α) :
    (if p then some x else y).or t = if p then some x else y.or t := by
  split <;> rfl

/-- The checks of a move, with one more after them (R380). -/
theorem State.migrBad_or (slot va f0 : Nat) (ctl : Word) (last : Option (Nat × Nat × Option Nat × Option Nat)) :
    (z.migrBad slot va f0 ctl).or last =
      if !(z.ctx slot).migr then some (codeMigrInvalid, 1, none, none)
      else if migrCtlBad ctl then some (codeMigrInvalid, 2, none, none)
      else (migrRangeBad va (ctl.extractLsb' 0 11).toNat).elim
        (if f0 % 65536 ≠ 0 then some (codeMisaligned, 0, none, some f0)
          else if !z.migrDestOk f0 (ctl.extractLsb' 0 11).toNat (ctl.getLsbD 16) then some (codeMigrInvalid, 3, none, none)
          else last)
        fun code => some (code, 0, some va, none) := by
  unfold State.migrBad
  dsimp only
  rw [ite_some_or, ite_some_or]
  cases migrRangeBad va (ctl.extractLsb' 0 11).toNat with
  | some code => rfl
  | none => simp only [Option.elim_none, ite_some_or, Option.none_or]

/-- The checks of a move, its barrier's after those of its pages and frames, are its grounds in their order (R380). -/
theorem migrBad_or_barrier (d : BitVec 5) (a : BitVec 7) (lead : Bool) :
    let q := I.descs (quadOp d).n 4
    let ctl := I.desc a.toNat
    let scope := (ctl.extractLsb' 21 3).toNat
    (z.migrBad I.G.ctx (q.getD 1 0#32 ++ q.getD 0 0#32 : DWord).toNat (q.getD 3 0#32 ++ q.getD 2 0#32 : DWord).toNat ctl).or
        (if scope ≠ 0 ∧ z.barKey I.G scope (ctl.extractLsb' 24 4).toNat = none then some (codeBarrierInvalid, 0, none, none)
          else none) =
      onFirst (migrRefusals z I d a lead).grounds (fun x => some (x.code, x.detail, x.va, x.pa)) none := by
  unfold migrRefusals
  dsimp only [quadOp]
  rw [State.migrBad_or, onFirst_append, onFirst_append, onFirst_pageRange]
  simp only [onFirst_cons, onFirst_nil]
  refine check_congr Iff.rfl rfl fun _ => check_congr (migrCtlBad_iff _) rfl fun _ => congrArg (Option.elim _ · _) ?_
  refine check_congr bne_iff_ne.symm rfl fun _ => check_congr ?destination rfl fun _ => check_congr ?barrier rfl fun _ => rfl
  case destination => rw [toNat_extractLsb'_one]
  case barrier => rw [Bool.and_eq_true, bne_iff_ne, Option.isNone_iff_eq_none]

/-- A move of which a check fails is refused for the first. -/
theorem refuses_migr (hs : s.iss = some I) (d : BitVec 5) (a : BitVec 7) (l e : Bool) :
    Refuses s I (fun z => refusalsOf z I) (.migr d a l e) := by
  refine refuses_engineWord hs (fun _ => rfl) rfl rfl rfl (fun _ => rfl) (fun _ => rfl) fun z x hx => ?_
  have hbad := (migrBad_or_barrier d a l).trans (onFirst_of_find hx)
  dsimp only at hbad ⊢
  generalize z.migrBad _ _ _ _ = bad at hbad ⊢
  cases bad with
  | some y =>
    simp only [Option.some_or, Option.some.injEq] at hbad
    rw [hbad]
    rfl
  | none =>
    simp only [Option.none_or, Option.ite_none_right_eq_some, Option.some.injEq, Prod.mk.injEq] at hbad
    obtain ⟨hbarrier, hcode, hdetail, hva, hpa⟩ := hbad
    rw [refusalFlt, ← hcode, ← hdetail, ← hva, ← hpa]
    exact if_pos hbarrier

/-- Settles O37: seven forms of a copy, three of a step and two of an operation on a tile, five of a hint, and five words of which
each has checks of its own. -/
theorem engineRefusals : Obligations.EngineRefusals := by
  intro s I hs
  refine ⟨?tile, ?gather, ?scatter, ?axpb, ?rescale, ?fill, ?sum, refuses_cpyr hs, ?mma, ?cmma, ?pmma, ?zero, ?rscl,
    refuses_tfenSync hs, refuses_tinvPage hs, ?promote, ?demote, ?pin, ?unpin, ?release, refuses_migr hs, refuses_launch hs⟩
  case tile | gather | scatter | axpb | rescale | fill | sum => exact fun d a n l r e => refuses_copy hs (fun _ => rfl) rfl
  case mma | cmma | pmma => exact fun d a l r e => refuses_step hs (fun _ => rfl) rfl fun _ => rfl
  case zero | rscl => exact fun d l e => refuses_tile hs (fun _ => rfl) rfl fun _ => rfl
  case promote | demote | pin | unpin | release => exact fun d a l e => refuses_thint hs (fun _ => rfl) rfl

end Sys2Proof.Machine
end

section
/-!
SUPPORT. The words of the matrix engine (R293 to R304) and the accesses to the pan (R305): each has the effect of its row in the
state after its boundary.
-/

namespace Sys2Proof.Machine

open Sys2Proof.Claims

variable {s z : State} {I : Iss}

/-- A word of a boundary, whose effect after it is what its row gives, leaves the state of its rule (R43, R251). -/
theorem leaves_boundaryWord {F : Instr → Option (Need × Option State)} {i : Instr} {n : Need} {o : Option State} {e : Bool}
    {f : Iss → State} {body : State → State} {row : State → Option State} (hs : s.iss = some I) (hrow : F i = some (n, o))
    (hleft : o = (Claims.atBoundary s I n.mask).bind row) (hexec : exec i s = s.withIss f)
    (hword : f I = s.boundaryWord I n e fun s => s.atBoundary I body) (hbody : ∀ z t, row z = some t → body z = t) :
    Leaves s I F i := by
  refine leaves_of_row hs hrow hexec fun hgate t ht => hword.trans ?_
  obtain ⟨z, hat, ht⟩ := Option.bind_eq_some_iff.1 (hleft.symm.trans ht)
  rw [State.boundaryWord_at e body hgate hat, hbody z t ht]

/-! ### Matrix operations (R293, R295, R304) -/

/-- An operation that its engine accepts, and that the port lets in, is queued and joins the forming batch of its group (R293,
R295, R301). -/
theorem leaves_matrix {i : Instr} {d : Opnd} {areg : Nat} {kind : MxKind} {lead reuse e : Bool} (hs : s.iss = some I)
    (hrow : matrixAfter s I i = some (I.descNeed [d], matrixDone s I d areg kind lead reuse e))
    (hexec : exec i s = s.withIss fun I => s.matrixWord I d areg kind lead reuse e) : Leaves s I (matrixAfter s I) i := by
  refine leaves_engineWord hs hrow rfl hexec rfl fun z t ht => ?_
  obtain ⟨hpass, ht⟩ := Option.ite_none_left_eq_some.1 ht
  obtain ⟨haccepted, henters⟩ := not_or.1 hpass
  have haccepted : z.mxBad (matrixOp z I d areg kind reuse) = none := Option.not_isSome_iff_eq_none.1 haccepted
  unfold matrixOp at haccepted henters ht
  dsimp only at haccepted henters ht ⊢
  rw [haccepted]
  unfold State.mxRoom
  simp only [Bool.not_eq_eq_eq_not, Bool.not_true, if_neg henters]
  exact Option.some.inj ht

/-! ### Tokens and batches (R299, R301) -/

/-- A group with a token to spare is given one more by `mxr` (R299). -/
theorem leaves_mxr (hs : s.iss = some I) (e : Bool) : Leaves s I (matrixAfter s I) (.mxr e) := by
  refine leaves_boundaryWord hs rfl rfl rfl rfl fun z t ht => ?_
  obtain ⟨hspare, ht⟩ := Option.ite_none_left_eq_some.1 ht
  exact (if_neg hspare).trans (Option.some.inj ht)

/-- A group with a batch to spare closes the forming one by `mxf` (R301). -/
theorem leaves_mxf (hs : s.iss = some I) (d : BitVec 7) (e : Bool) : Leaves s I (matrixAfter s I) (.mxf d e) := by
  refine leaves_boundaryWord hs rfl rfl rfl rfl fun z t ht => ?_
  obtain ⟨hspare, ht⟩ := Option.ite_none_left_eq_some.1 ht
  exact (if_neg hspare).trans (Option.some.inj ht)

/-! ### The wait for a batch (R302) -/

/-- A word that is released from its wait for a batch returns. -/
theorem State.resumedBatch_of_released {group n : Nat} (e : Bool) (fresh : State) (hreleased : I.S.released = true)
    (hwait : I.S.wait = .batch group n) : s.resumedBatch I e fresh = s.batchReturn I group n e := by
  rw [State.resumedBatch, hreleased, hwait]

/-- A word that no wait for a batch has released begins. -/
theorem State.resumedBatch_of_not_released (e : Bool) (fresh : State)
    (h : ∀ group n, I.S.released = true → I.S.wait = .batch group n → False) : s.resumedBatch I e fresh = fresh := by
  unfold State.resumedBatch
  split
  case h_1 group n hreleased hwait => exact (h group n hreleased hwait).elim
  case h_2 => rfl

/-- An `mxw` of a batch that its selector may name returns where the batch has retired, and else waits for it (R302). -/
theorem leaves_mxw (hs : s.iss = some I) (a b : BitVec 7) (e : Bool) : Leaves s I (matrixAfter s I) (.mxw a b e) := by
  refine leaves_of_row hs rfl rfl fun hgate t ht => ?_
  dsimp only at ht ⊢
  obtain ⟨htx, ht⟩ := Option.ite_none_left_eq_some.1 ht
  rw [State.boundaryWord_go e _ hgate (eq_false_of_ne_true htx)]
  -- what a fresh `mxw` does is set aside, so that only its wait is told apart
  generalize hbegin : (throughBoundary s I).bind _ = o at ht
  split at ht
  case h_1 hreleased hwait => exact (State.resumedBatch_of_released e _ hreleased hwait).trans (Option.some.inj ht)
  case h_2 hbegins =>
    obtain ⟨z, hthrough, ht⟩ := Option.bind_eq_some_iff.1 (hbegin.trans ht)
    obtain ⟨hnamed, ht⟩ := Option.ite_none_left_eq_some.1 ht
    simp only [not_or] at hnamed
    obtain ⟨hreserved, hpeer, hgroup, hahead⟩ := hnamed
    rw [State.resumedBatch_of_not_released e _ hbegins, State.atBoundary_through _ hthrough, if_neg hreserved, if_neg hpeer,
      if_neg hgroup, if_neg hahead]
    obtain ⟨hretired, ht⟩ | ⟨hopen, ht⟩ := ite_eq_iff.1 ht
    · rw [if_pos hretired, Option.some.inj ht]
    · rw [if_neg hopen, Option.some.inj ht]

/-! ### Accesses to the pan (R305) -/

/-- The accesses of a `pan` word fall within the rows where both of its checks find no thread (R305). -/
theorem panOk_iff {a : BitVec 7} {n : Nat} : panOk z I a n = true ↔
    ((threadsOf I.act).any fun t => ((I.G.val a.toNat t).extractLsb' 16 10).toNat % n != 0) = false ∧
      ((threadsOf I.act).any fun t => (z.panPlace I.G.wg (I.G.val a.toNat t) n).isNone) = false := by
  simp [panOk, forall_and, Option.isSome_iff_ne_none]

/-- A `pan` word of which every access falls within the rows has its effect at the places of its threads (R305). -/
theorem leaves_panWord {i : Instr} {n : Need} {o : Option State} {a : BitVec 7} {bytes : Nat} {e : Bool} {f : Iss → State}
    {body : State → (Nat → Nat × Nat × Nat) → State} {row : State → Option State} (hs : s.iss = some I)
    (hrow : matrixAfter s I i = some (n, o)) (hleft : o = (Claims.atBoundary s I n.mask).bind row)
    (hexec : exec i s = s.withIss f) (hword : f I = s.panWord I n a bytes e body)
    (hbody : ∀ z t, row z = some t → panOk z I a bytes = true ∧ body z (panAt z I a bytes) = t) :
    Leaves s I (matrixAfter s I) i := by
  refine leaves_boundaryWord hs hrow hleft hexec hword fun z t ht => ?_
  obtain ⟨hok, ht⟩ := hbody z t ht
  obtain ⟨haligned, hplaced⟩ := panOk_iff.1 hok
  dsimp only
  rw [if_neg (not_not_intro ((and_maskOf_eq_zero_iff _ _).2 haligned)),
    if_neg (not_not_intro ((and_maskOf_eq_zero_iff _ _).2 hplaced))]
  exact ht

/-- What a group learns of earlier events leaves the workgroups as they are (R202). -/
@[simp] theorem State.learn_wgs (gid : Nat) (c : Clock) : (s.learn gid c).wgs = s.wgs := by
  unfold State.learn
  split
  case isTrue => rfl
  case isFalse => exact State.modGroup_wgs ..

/-- An access to what copies have filled leaves the workgroups as they are (R202). -/
@[simp] theorem State.touchLanded_wgs (gid : Nat) (keys : List (Nat × Nat × Nat)) : (s.touchLanded gid keys).wgs = s.wgs :=
  List.foldlRecOn (motive := fun z : State => z.wgs = s.wgs) keys _ rfl fun _ hz _ _ => (State.learn_wgs ..).trans hz

/-- The places of `pan` accesses depend on the workgroups alone (R305). -/
theorem panAt_congr (h : z.wgs = s.wgs) (a : BitVec 7) (n t : Nat) : panAt z I a n t = panAt s I a n t := by
  have hwg : z.wg = s.wg := funext fun w => congrArg (mapFind · w) h
  simp only [panAt, State.panPlace, hwg]

/-- A `pan.ld` whose accesses fall within the rows is a producer of what they read (R305). -/
theorem leaves_panLd (hs : s.iss = some I) (d a : BitVec 7) (w : BitVec 4) (e : Bool) :
    Leaves s I (matrixAfter s I) (.panLd d a w e) := by
  refine leaves_panWord hs rfl rfl rfl rfl fun z t ht => ?_
  obtain ⟨hok, ht⟩ := Option.ite_none_left_eq_some.1 ht
  simp only [panAt_congr (State.touchLanded_wgs ..)] at ht
  exact ⟨by simpa using hok, Option.some.inj ht⟩

/-- A `pan.st` whose accesses fall within empty rows writes them in the order of its threads (R305). -/
theorem leaves_panSt (hs : s.iss = some I) (d a : BitVec 7) (w : BitVec 4) (e : Bool) :
    Leaves s I (matrixAfter s I) (.panSt d a w e) := by
  refine leaves_panWord hs rfl rfl rfl rfl fun z t ht => ?_
  obtain ⟨hpass, ht⟩ := Option.ite_none_left_eq_some.1 ht
  obtain ⟨hok, hempty⟩ := not_or.1 hpass
  refine ⟨by simpa using hok, ?_⟩
  dsimp only
  rw [List.find?_eq_none.2 fun t ht hbusy => hempty (List.any_eq_true.2 ⟨t, ht, hbusy⟩)]
  exact Option.some.inj ht

/-- Settles O36: three steps and two operations on a tile alone, which are queued; tokens, batches and the wait for one; and the two
accesses to the pan. -/
theorem matrixWords : Obligations.MatrixWords := by
  intro s I hs
  refine ⟨?mma, ?cmma, ?pmma, ?zero, ?rscl, leaves_mxr hs, leaves_mxf hs, leaves_mxw hs, leaves_panLd hs, leaves_panSt hs⟩
  case mma | cmma | pmma => exact fun d a l r e => leaves_matrix hs rfl rfl
  case zero | rscl => exact fun d l e => leaves_matrix hs rfl rfl

end Sys2Proof.Machine
end

section
/-!
SUPPORT. The words of the sluice links (R313 to R331): each has the effect of its row where its grid holds the buffers, its
directions stay in the block, and an entry and a credit are there at once.
-/

namespace Sys2Proof.Machine

open Sys2Proof.Claims

variable {s : State} {I : Iss}

/-- A link word that may go has its effect in the state after its boundary, on the message that it takes (R318, R322, R328). -/
theorem State.linkWord_of_linkGo {n : Need} {u : LinkUse} {data : List Vals} {x : LinkGo} (e : Bool)
    (body : State → LinkUse → Option Msg → List Vals → State) (hgate : I.gate (linkNeed n u) = .go)
    (h : linkGo s I n.mask u data = some x) : s.linkWord I n e u data body = body x.s x.u x.m x.data := by
  obtain ⟨z, hat, h⟩ := Option.bind_eq_some_iff.1 h
  refine (State.boundaryWord_at e _ hgate hat).trans ?_
  dsimp only at h ⊢
  generalize I.S.wait = wait at h ⊢
  -- a resumed word has kept its directions and what it read, every other word begins with its own; either goes on alike
  cases wait
  all_goals
    dsimp only at h ⊢
    obtain ⟨g, hgrid, h⟩ := Option.bind_eq_some_iff.1 h
    obtain ⟨hinside, h⟩ := Option.ite_none_left_eq_some.1 h
    obtain ⟨hready, h⟩ := Option.ite_none_left_eq_some.1 h
    obtain ⟨hsize, h⟩ := Option.ite_none_left_eq_some.1 h
    rw [List.any_append] at hinside
    rw [hgrid]
    dsimp only
    rw [if_neg hinside, if_neg hready, if_neg hsize, ← Option.some.inj h]

/-- A link word whose effect, where it may go, is what its row gives leaves the state of its rule. -/
theorem leaves_linkWord {i : Instr} {n : Need} {u : LinkUse} {data : List Vals} {o : Option State} {e : Bool} {f : Iss → State}
    {body : State → LinkUse → Option Msg → List Vals → State} {row : LinkGo → Option State} (hs : s.iss = some I)
    (hrow : linkAfter s I i = some (linkNeed n u, o)) (hleft : o = (linkGo s I n.mask u data).bind row)
    (hexec : exec i s = s.withIss f) (hword : f I = s.linkWord I n e u data body)
    (hbody : ∀ x t, row x = some t → body x.s x.u x.m x.data = t) : Leaves s I (linkAfter s I) i := by
  refine leaves_of_row hs hrow hexec fun hgate t ht => hword.trans ?_
  obtain ⟨x, hgo, ht⟩ := Option.bind_eq_some_iff.1 (hleft.symm.trans ht)
  exact (State.linkWord_of_linkGo e body hgate hgo).trans (hbody x t ht)

/-- A `sput` that has a credit sends what it read (R322). -/
theorem leaves_sput (hs : s.iss = some I) (d a : BitVec 7) (c : BitVec 3) (z r : BitVec 2) (k m e : Bool) :
    Leaves s I (linkAfter s I) (.sput d a c z r k m e) :=
  leaves_linkWord hs rfl Option.map_eq_bind rfl rfl fun _ _ ht => Option.some.inj ht

/-- An `sget` that has an entry, whose consumption does not unwind it, receives the entry's vectors (R322, R324). -/
theorem leaves_sget (hs : s.iss = some I) (d a : BitVec 7) (c : BitVec 3) (z r : BitVec 2) (k e : Bool) :
    Leaves s I (linkAfter s I) (.sget d a c z r k e) := by
  refine leaves_linkWord hs rfl rfl rfl rfl fun x t ht => ?_
  obtain ⟨m, hm, ht⟩ := Option.bind_eq_some_iff.1 ht
  dsimp only
  rw [hm]
  split at ht
  case h_1 hopen =>
    dsimp only
    rw [hopen]
    exact Option.some.inj ht
  case h_2 => cases ht

/-- An `sfwd` that has an entry and a credit, and which no consumption unwinds, sends the entry on as it came (R323, R324). -/
theorem leaves_sfwd (hs : s.iss = some I) (a : BitVec 7) (c : BitVec 3) (i o : BitVec 2) (k e : Bool) :
    Leaves s I (linkAfter s I) (.sfwd a c i o k e) := by
  refine leaves_linkWord hs rfl rfl rfl rfl fun x t ht => ?_
  obtain ⟨m, hm, ht⟩ := Option.bind_eq_some_iff.1 ht
  obtain ⟨hstays, ht⟩ := Option.ite_none_left_eq_some.1 ht
  dsimp only
  rw [hm]
  by_cases hconsumes : m.poisoned = true ∧ I.G.depth ≠ 0
  · simp only [if_pos hconsumes] at ht ⊢
    rw [if_neg fun hgone => hstays ⟨hconsumes.1, hconsumes.2, hgone⟩]
    exact Option.some.inj ht
  · simp only [if_neg hconsumes] at ht ⊢
    exact Option.some.inj ht

/-- A step of a chain scan that has its entry and its credit, and which no consumption unwinds, leaves the state of its row (R327,
R328). -/
theorem leaves_xscan {i : Instr} {d : BitVec 6} {a : BitVec 5} {scope : Nat} {k : Bool} {o : ScanOp} {e : Bool}
    (hs : s.iss = some I)
    (hrow : linkAfter s I i = some (linkNeed (I.need false (o.tyOk I.S.ty) [pairOp d] [quadOp a k] .general) (xscanUse I a k),
      xscanDone s I d a scope k o e))
    (hexec : exec i s = s.withIss fun I => s.xscan I d a scope k o e) : Leaves s I (linkAfter s I) i := by
  refine leaves_linkWord hs hrow rfl hexec (by unfold State.xscan; rfl) fun x t ht => ?_
  obtain ⟨hstays, ht⟩ := Option.ite_none_left_eq_some.1 ht
  exact (if_neg hstays).trans (Option.some.inj ht)

/-- Settles O38: a send, a receipt, a passing on, and the steps of five chain scans. -/
theorem linkWords : Obligations.LinkWords := by
  intro s I hs
  refine ⟨leaves_sput hs, leaves_sget hs, leaves_sfwd hs, ?add, ?mul, ?min, ?max, ?aff⟩
  case add | mul | min | max | aff => exact fun d a c k e => leaves_xscan hs rfl rfl

end Sys2Proof.Machine
end

section
/-!
SUPPORT. The words of translation (R358 to R367), of tier hints and moves (R378 to R380), and of grids (R403 to R405): each has the
effect of its row in the state after its boundary.
-/

namespace Sys2Proof.Machine

open Sys2Proof.Claims

variable {s z : State} {I : Iss}

/-! ### Ranges of pages (R363, R365, R366) -/

/-- A range word whose range passes its checks acts on that range (R365). -/
theorem State.rangeWord_of_rangeOf {d : BitVec 7} {a : BitVec 6} {r : PageRange} (body : State → PageRange → State)
    (h : rangeOf I d a = some r) : s.rangeWord I d a body = body s r := by
  obtain ⟨⟨haligned, hfirst, hlast⟩, hr⟩ := Option.ite_none_right_eq_some.1 h
  obtain rfl : I.range d a = r := Option.some.inj hr
  unfold State.rangeWord
  exact (if_neg (not_not_intro haligned)).trans ((if_neg (ne_true_of_eq_false (congrArg not hfirst))).trans
    (if_neg (ne_true_of_eq_false (congrArg not hlast))))

/-- A `tfen.sync` whose wait is over completes; any other retires what its range reaches, and completes or waits for the engine
commands that keep pages (R363). -/
theorem leaves_tfenSync (hs : s.iss = some I) (u : Bool) (d : BitVec 7) (a : BitVec 6) (c : BitVec 3) (k m e : Bool) :
    Leaves s I (translationAfter s I) (.tfenSync u d a c k m e) := by
  refine leaves_of_row hs rfl rfl fun hgate t ht => ?_
  obtain ⟨htx, ht⟩ := Option.ite_none_left_eq_some.1 ht
  refine (State.boundaryWord_go e _ hgate (eq_false_of_ne_true htx)).trans ?_
  split at ht
  case isTrue hover => exact (if_pos hover).trans (Option.some.inj ht)
  case isFalse hfirst =>
    obtain ⟨z, hthrough, ht⟩ := Option.bind_eq_some_iff.1 ht
    obtain ⟨r, hr, ht⟩ := Option.map_eq_some_iff.1 ht
    dsimp only
    rw [if_neg hfirst, State.atBoundary_through _ hthrough, State.rangeWord_of_rangeOf _ hr]
    exact ht

/-- A `tinv.page` whose range passes its checks drops the entries of that range (R366). -/
theorem leaves_tinvPage (hs : s.iss = some I) (u : Bool) (d : BitVec 7) (a : BitVec 6) (c : BitVec 3) (k m e : Bool) :
    Leaves s I (translationAfter s I) (.tinvPage u d a c k m e) := by
  refine leaves_boundaryWord hs rfl rfl rfl rfl fun z t ht => ?_
  obtain ⟨r, hr, ht⟩ := Option.map_eq_some_iff.1 ht
  exact (State.rangeWord_of_rangeOf _ hr).trans ht

/-- A `tprb` of canonical addresses returns what it finds for each (R367). -/
theorem leaves_tprb (hs : s.iss = some I) (u : Bool) (d a : BitVec 6) (k e : Bool) :
    Leaves s I (translationAfter s I) (.tprb u d a k e) := by
  refine leaves_of_row hs rfl rfl fun hgate t ht => ?_
  obtain ⟨hcanonical, ht⟩ := Option.ite_none_left_eq_some.1 ht
  refine (State.word_go e _ hgate).trans ?_
  dsimp only
  rw [failing_eq_none _ fun t ht => eq_false_of_ne_true fun hbad => hcanonical (List.any_eq_true.2 ⟨t, ht, hbad⟩)]
  exact Option.some.inj ht

/-! ### Tier hints and moves (R378 to R380) -/

/-- A command of pages is accepted where its row says so (R379). -/
theorem State.acceptMigr_of_migrDone {t : State} {e far : Bool} {hint va f0 n : Nat} {bar : Option BarKey}
    (h : migrDone s I e hint va f0 n far bar = some t) : s.acceptMigr I e hint va f0 n far bar = t := by
  obtain ⟨hroom, ht⟩ := Option.ite_none_left_eq_some.1 h
  unfold State.acceptMigr
  exact (if_neg (ne_true_of_eq_false (congrArg not (eq_true_of_ne_false hroom)))).trans (Option.some.inj ht)

/-- A hint whose range passes its checks, and which the port lets in, is queued (R378). -/
theorem leaves_thint {i : Instr} {d : BitVec 6} {a : BitVec 7} {lead e : Bool} {op : Nat} (hs : s.iss = some I)
    (hrow : migrationAfter s I i = some (I.descNeed [pairOp d, one a], hintDone s I d a lead e op))
    (hexec : exec i s = s.withIss fun I => s.thint I d a lead e op) : Leaves s I (migrationAfter s I) i := by
  refine leaves_engineWord hs hrow rfl hexec rfl fun z t ht => ?_
  obtain ⟨hpass, ht⟩ := Option.ite_none_left_eq_some.1 ht
  have hpass := Option.not_isSome_iff_eq_none.1 hpass
  dsimp only [pairOp] at hpass ⊢
  rw [hpass]
  exact State.acceptMigr_of_migrDone ht

/-- A move that passes its checks, and which the port lets in, is queued (R379, R380). -/
theorem leaves_migr (hs : s.iss = some I) (d : BitVec 5) (a : BitVec 7) (l e : Bool) :
    Leaves s I (migrationAfter s I) (.migr d a l e) := by
  refine leaves_engineWord hs rfl rfl rfl rfl fun z t ht => ?_
  obtain ⟨hpass, ht⟩ := Option.ite_none_left_eq_some.1 ht
  obtain ⟨hgood, hbarrier⟩ := not_or.1 hpass
  have hgood := Option.not_isSome_iff_eq_none.1 hgood
  dsimp only [quadOp] at hgood ⊢
  rw [hgood]
  exact (if_neg hbarrier).trans (State.acceptMigr_of_migrDone ht)

/-- Settles O39: the fences and invalidations of the tables, the probe, five tier hints and the move. -/
theorem translationAndMigrationWords : Obligations.TranslationAndMigrationWords := by
  intro s I hs
  refine ⟨?ptrel, ?walkacq, leaves_tfenSync hs, leaves_tinvPage hs, ?ctx, leaves_tprb hs, ?promote, ?demote, ?pin, ?unpin, ?release,
    leaves_migr hs⟩
  case ptrel | walkacq =>
    exact fun c e => leaves_boundaryWord hs rfl Option.map_eq_bind rfl rfl fun _ _ ht => Option.some.inj ht
  case ctx =>
    exact fun u c e => leaves_boundaryWord hs rfl Option.map_eq_bind rfl rfl fun _ _ ht => Option.some.inj ht
  case promote | demote | pin | unpin | release => exact fun d a l e => leaves_thint hs rfl rfl

/-! ### Grids (R403 to R405) -/

/-- A `launch` of an aligned and readable record, in its turn, is judged by the command processor (R404). -/
theorem leaves_launch (hs : s.iss = some I) (d a : BitVec 6) (q : BitVec 3) (e : Bool) :
    Leaves s I (launchAfter s I) (.launch d a q e) := by
  refine leaves_of_row hs rfl rfl fun hgate t ht => ?_
  obtain ⟨z, hat, ht⟩ := Option.bind_eq_some_iff.1 ht
  refine (State.engineWord_at e _ hgate hat).trans ?_
  by_cases hfollows : I.G.idx ≠ 0
  · rw [if_pos hfollows] at ht
    exact (if_pos (by simpa using hfollows)).trans (Option.some.inj ht)
  rw [if_neg hfollows] at ht
  refine (if_neg (by simpa using hfollows)).trans ?_
  obtain ⟨hpass, ht⟩ := Option.ite_none_left_eq_some.1 ht
  simp only [not_or] at hpass
  obtain ⟨haligned, hfirst, hlast, hroom, hturn⟩ := hpass
  dsimp only [pairOp] at haligned hfirst hlast ht ⊢
  rw [if_neg haligned, if_neg hfirst, if_neg hlast, if_neg hroom, if_neg ?turn]
  case turn => simpa using hturn
  split at ht
  case h_1 t' pa policy key hwalk =>
    obtain ⟨hclean, ht⟩ := Option.ite_none_left_eq_some.1 ht
    obtain ⟨hmemory, hmarks⟩ := not_or.1 hclean
    obtain ⟨p, hparent, ht⟩ := Option.map_eq_some_iff.1 ht
    rw [hwalk]
    dsimp only
    rw [if_neg hmemory, List.find?_eq_none.2 fun x hx hbad => hmarks (List.any_eq_true.2 ⟨x, hx, hbad⟩), hparent]
    exact ht
  case h_2 => cases ht

/-- An `lwait` answers for its grid where that has ended, and else waits for it (R405). -/
theorem leaves_lwait (hs : s.iss = some I) (d a : BitVec 7) (e : Bool) : Leaves s I (launchAfter s I) (.lwait d a e) := by
  refine leaves_boundaryWord hs rfl Option.map_eq_bind rfl rfl fun z t ht => ?_
  exact Option.some.inj ht

/-- Settles O40: a launch that the command processor takes, and the wait for a grid. -/
theorem launchWords : Obligations.LaunchWords := fun _ _ hs => ⟨leaves_launch hs, leaves_lwait hs⟩

end Sys2Proof.Machine
end

section
/-!
SUPPORT. Containment levels and paired execution (R338, R344), the control registers and the non-pre-emption window (R423 to R425):
each word has the effect of its row.
-/

namespace Sys2Proof.Machine

open Sys2Proof.Claims

variable {s z : State} {I : Iss}

/-! ### Containment and paired execution (R338, R344) -/

/-- A boundary word of a check of its own, which its row has passed, has its effect in the state after the boundary. -/
theorem State.boundaryWord_checked {n : Need} {e : Bool} {pass : State → State} {body row : State → State} {t : State}
    (hgate : I.gate n = .go) (ht : (Claims.atBoundary s I n.mask).map row = some t) (hpass : pass s = s.atBoundary I body)
    (hbody : ∀ z, body z = row z) : s.boundaryWord I n e pass = t := by
  obtain ⟨z, hat, rfl⟩ := Option.map_eq_some_iff.1 ht
  obtain ⟨htx, hthrough⟩ := Option.ite_none_left_eq_some.1 hat
  rw [State.boundaryWord_go e _ hgate (eq_false_of_ne_true htx), hpass, State.atBoundary_through _ hthrough, hbody]

/-- A `cont.open` of a converged group with a level to spare opens a level (R338). -/
theorem leaves_contOpen (hs : s.iss = some I) (i : BitVec 16) (e : Bool) : Leaves s I (containAfter s I) (.contOpen i e) := by
  refine leaves_of_row hs rfl rfl fun hgate t ht => ?_
  obtain ⟨hpass, ht⟩ := Option.ite_none_left_eq_some.1 ht
  simp only [not_or] at hpass
  obtain ⟨hmode, hwhole, hdepth, htarget⟩ := hpass
  refine State.boundaryWord_checked hgate ht ?_ fun z => rfl
  exact (if_neg hmode).trans ((if_neg hwhole).trans ((if_neg hdepth).trans (if_neg htarget)))

/-- A `cont.close` of a converged group with a level closes its last (R338). -/
theorem leaves_contClose (hs : s.iss = some I) (e : Bool) : Leaves s I (containAfter s I) (.contClose e) := by
  refine leaves_of_row hs rfl rfl fun hgate t ht => ?_
  obtain ⟨hpass, ht⟩ := Option.ite_none_left_eq_some.1 ht
  simp only [not_or] at hpass
  obtain ⟨hmode, hwhole, hdepth⟩ := hpass
  refine State.boundaryWord_checked hgate ht ?_ fun z => rfl
  exact (if_neg hmode).trans ((if_neg hwhole).trans (if_neg hdepth))

/-- The issuer's group as the state holds it now is the issuer's. -/
theorem Iss.now_of_iss (hs : s.iss = some I) : I.now s = I.G := by
  rw [Iss.now, mapGet, State.iss_group hs]
  rfl

/-- No register is due where every producer has none. -/
theorem due_eq_nil {ps : List Producer} (h : ¬(ps.any fun p => !p.dsts.isEmpty) = true) :
    (ps.flatMap fun p => p.dsts.map (·.1)) = [] := by
  simpa using h

/-- A `dual.on` of a group with a shadow, of which no register is due, pairs it (R344). -/
theorem leaves_dualOn (hs : s.iss = some I) (e : Bool) : Leaves s I (containAfter s I) (.dualOn e) := by
  refine leaves_of_row hs rfl rfl fun hgate t ht => ?_
  obtain ⟨hpass, ht⟩ := Option.ite_none_left_eq_some.1 ht
  simp only [not_or] at hpass
  obtain ⟨hmode, hbasic, hreserved, hdue⟩ := hpass
  refine State.boundaryWord_checked hgate ht ?_ fun z => rfl
  dsimp only
  rw [if_neg hmode, if_neg (mt Bool.or_eq_true_iff.1 (not_or.2 ⟨hbasic, hreserved⟩)), Iss.now_of_iss hs, if_neg ?due]
  case due =>
    intro hwaits
    obtain ⟨hloads, hsome⟩ := Bool.and_eq_true_iff.1 hwaits
    exact bne_iff_ne.1 hsome (due_eq_nil fun hany => hdue ⟨hloads, hany⟩)

/-- A `dual.off` of a group with a shadow unpairs it (R344). -/
theorem leaves_dualOff (hs : s.iss = some I) (e : Bool) : Leaves s I (containAfter s I) (.dualOff e) := by
  refine leaves_of_row hs rfl rfl fun hgate t ht => ?_
  obtain ⟨hpass, ht⟩ := Option.ite_none_left_eq_some.1 ht
  simp only [not_or] at hpass
  obtain ⟨hmode, hbasic, hreserved⟩ := hpass
  refine State.boundaryWord_checked hgate ht ?_ fun z => rfl
  dsimp only
  rw [if_neg hmode, if_neg (mt Bool.or_eq_true_iff.1 (not_or.2 ⟨hbasic, hreserved⟩))]
  rfl

/-! ### Control registers (R423, R424) -/

/-- A control register of 64 bits is a pair. -/
theorem csrOp_pair_iff (n : BitVec 6) (r : BitVec 7) (k : Bool) : (csrOp n r k).cnt = 2 ↔ n.toNat < 4 := by
  unfold csrOp
  dsimp only
  split <;> simp_all

/-- A write of a control register other than PKR leaves what its row says (R59, R319, R423). -/
theorem State.setCsr_eq {n : Nat} (v : DWord) : s.setCsr I n v = csrWritten s I n v := by
  match n with
  | 0 | 1 | 2 | 3 | 4 | 5 => rfl
  | n + 6 => simp [State.setCsr, csrWritten]

/-- A `csr.rd` writes the control register's value (R424). -/
theorem leaves_csrRd (hs : s.iss = some I) (d : BitVec 7) (n : BitVec 6) (e : Bool) :
    Leaves s I (registerAfter s I) (.csrRd d n e) := by
  refine leaves_of_row hs rfl rfl fun hgate t ht => (State.word_go e _ hgate).trans ?_
  simp only [csrOp_pair_iff]
  exact Option.some.inj ht

/-- A `csr.wr` that may be made, and whose command processor runs, sets the register; one of PKR waits until it has been performed
(R424, R443). -/
theorem leaves_csrWr (hs : s.iss = some I) (a : BitVec 7) (n : BitVec 6) (k e : Bool) :
    Leaves s I (registerAfter s I) (.csrWr a n k e) := by
  refine leaves_of_row hs rfl rfl fun hgate t ht => (State.word_go e _ hgate).trans ?_
  obtain ⟨hpass, ht⟩ := Option.ite_none_left_eq_some.1 ht
  obtain ⟨hpriv, haddress⟩ := not_or.1 hpass
  simp only [csrOp_pair_iff]
  rw [if_neg hpriv, if_neg ?mis, if_neg ?out]
  case mis => exact fun h => haddress ⟨h.1, h.2.1, .inl h.2.2⟩
  case out => exact fun h => haddress ⟨h.1, h.2.1, .inr h.2.2⟩
  split at ht
  case isTrue hover => exact (if_pos hover).trans (Option.some.inj ht)
  case isFalse hfirst =>
    obtain ⟨hruns, ht⟩ := Option.ite_none_left_eq_some.1 ht
    rw [if_neg hfirst, if_neg hruns]
    split at ht
    case isTrue hkeys =>
      obtain ⟨hfree, ht⟩ := Option.ite_none_left_eq_some.1 ht
      rw [if_pos hkeys, State.writeKeys]
      simp only [State.modCtx, if_neg hfree] at ht ⊢
      exact Option.some.inj ht
    case isFalse hother =>
      rw [if_neg hother, State.setCsr_eq]
      exact Option.some.inj ht

/-- Settles O41: levels of containment, paired execution, the control registers and the two ends of a window. -/
theorem containmentAndRegisterWords : Obligations.ContainmentAndRegisterWords := by
  intro s I hs
  refine ⟨leaves_contOpen hs, leaves_contClose hs, leaves_dualOn hs, leaves_dualOff hs, leaves_csrRd hs, leaves_csrWr hs, ?on, ?off⟩
  case on | off => exact fun e => leaves_of_row hs rfl rfl fun hgate t ht => (State.word_go e _ hgate).trans (Option.some.inj ht)

end Sys2Proof.Machine
end

section
/-!
SUPPORT. The words of trap mode: the returns from a routine (R417, R418, R426) and the words that move a group's state (R427 to R433).
Each has the effect of its row.
-/

namespace Sys2Proof.Machine

open Sys2Proof.Claims

variable {s z : State} {I : Iss}

/-! ### Returns (R417, R418, R426) -/

/-- A word of a routine that matches its cause has its effect. -/
theorem State.rfeWord_of_trap {t : Trap} {u : State} {body : Trap → Option State}
    (hgate : I.gate { mask := I.S.mask } = .go) (htrap : I.G.trap = some t) (hbody : body t = some u) :
    s.rfeWord I body = u := by
  rw [State.rfeWord, State.word_go true _ hgate, htrap]
  dsimp only
  rw [hbody]
  rfl

/-- A `rfe.save` of a save routine keeps its handle with the group (R417). -/
theorem leaves_rfeSave (hs : s.iss = some I) (h : BitVec 6) : Leaves s I (returnAfter s I) (.rfeSave h) := by
  refine leaves_of_row hs rfl rfl fun hgate t ht => (State.word_go true _ hgate).trans ?_
  split at ht
  case h_1 => exact Option.some.inj ht
  case h_2 => cases ht

/-- A `rfe.rest` of a restore routine waits for the others of its workgroup, and the last of them lets all go on (R418). -/
theorem leaves_rfeRest (hs : s.iss = some I) : Leaves s I (returnAfter s I) .rfeRest := by
  refine leaves_of_row hs rfl rfl fun hgate t ht => ?_
  split at ht
  case h_1 w htrap hw =>
    refine State.rfeWord_of_trap hgate htrap ?_
    dsimp only
    rw [hw]
    exact ht
  case h_2 => cases ht

/-! ### Access to blocks (R427, R428) -/

/-- A `ctx` word that may act does so, once, in its lowest active thread (R427). -/
theorem State.ctxWord_of_ctxOk {restoreOnly : Bool} {n : Need} {e : Bool} {body : Iss → State → State} (hgate : I.gate n = .go)
    (hok : ¬(!ctxOk I restoreOnly) = true) : s.ctxWord I restoreOnly n e body = body I.single s := by
  rw [State.ctxWord, State.word_go e _ hgate]
  unfold ctxOk at hok
  generalize I.G.trap = trap at hok ⊢
  cases trap with
  | none => exact absurd rfl hok
  | some t =>
    dsimp only at hok ⊢
    generalize t.cause = cause at hok ⊢
    cases cause with
    | restore h => rfl
    | fault r => cases restoreOnly with
      | false => rfl
      | true => exact absurd rfl hok
    | save => cases restoreOnly with
      | false => rfl
      | true => exact absurd rfl hok

/-- A `ctx` word that may act, and whose effect is what its row gives, leaves the state of its rule. -/
theorem leaves_ctxWord {i : Instr} {n : Need} {restoreOnly e : Bool} {o row : Option State} {f : Iss → State}
    {body : Iss → State → State} (hs : s.iss = some I) (hrow : ctxAfter s I i = some (n, o))
    (hleft : o = if !ctxOk I restoreOnly then none else row) (hexec : exec i s = s.withIss f)
    (hword : f I = s.ctxWord I restoreOnly n e body) (hbody : ∀ t, row = some t → body I.single s = t) :
    Leaves s I (ctxAfter s I) i := by
  refine leaves_of_row hs hrow hexec fun hgate t ht => hword.trans ?_
  obtain ⟨hok, ht⟩ := Option.ite_none_left_eq_some.1 (hleft.symm.trans ht)
  rw [State.ctxWord_of_ctxOk hgate hok, hbody t ht]

/-- A block that passes its checks and is translated is reached (R427). -/
theorem State.ctxReach_of_ctxBlock {J : Iss} {a : BitVec 6} {n va : Nat} {write : Bool} {xs : List (Nat × Xlat)}
    (h : ctxBlock s J a n write = some (z, xs, va)) :
    (J.G.pairVal (pairOp a).n (lowest J.act)).toNat = va ∧ ∃ live ab, s.ctxReach J va n write = .go z live ab xs := by
  obtain ⟨hpass, h⟩ := Option.ite_none_left_eq_some.1 h
  simp only [not_or] at hpass
  obtain ⟨haligned, hfirst, hlast⟩ := hpass
  unfold State.ctxReach
  split at h
  case h_1 => cases h
  case h_2 z live ab xs hgo =>
    simp only [Option.some.injEq, Prod.mk.injEq] at h
    obtain ⟨rfl, rfl, rfl⟩ := h
    refine ⟨rfl, live, ab, ?_⟩
    dsimp only
    rw [if_neg haligned, if_neg hfirst, if_neg hlast, hgo]

/-- The registers that a control register names within the interrupted group's allotment move from or to their block (R428). -/
theorem State.ctxRegs_of_ctxMove {J : Iss} {d : BitVec 7} {a : BitVec 6} {b n va : Nat} {write : Bool} {xs : List (Nat × Xlat)}
    (body : State → List (Nat × Xlat) → Nat → Nat → Nat → State) (hmove : ctxMove s J d = some (b, n))
    (hblock : ctxBlock s J a (128 * n) write = some (z, xs, va)) : s.ctxRegs J d a write body = body z xs va b n := by
  obtain ⟨⟨b', n'⟩, hrange, hmove⟩ := Option.bind_eq_some_iff.1 hmove
  obtain ⟨hallotted, hmove⟩ := Option.ite_none_left_eq_some.1 hmove
  obtain ⟨rfl, rfl⟩ := Prod.mk.inj (Option.some.inj hmove)
  obtain ⟨rfl, live, ab, hreach⟩ := State.ctxReach_of_ctxBlock hblock
  unfold State.ctxRegs
  dsimp only
  rw [hrange]
  dsimp only
  rw [if_neg hallotted, hreach]

/-- What goes on where a block is reached. -/
theorem Reach.match_of_go {α : Type} {r : Reach} (stop : State → α) (go : State → Mask → List TxAbort → List (Nat × Xlat) → α) :
    ∀ {live ab xs}, r = .go z live ab xs → (match r with
      | .stop s => stop s
      | .go s live ab xs => go s live ab xs) = go z live ab xs := by
  rintro live ab xs rfl
  rfl

/-! ### The `ctx` words (R428 to R433) -/

/-- A `ctx.sgr` stores the registers that it names (R428). -/
theorem leaves_ctxSgr (hs : s.iss = some I) (d : BitVec 7) (a : BitVec 6) (e : Bool) :
    Leaves s I (ctxAfter s I) (.ctxSgr d a e) := by
  refine leaves_ctxWord hs rfl rfl rfl rfl fun t ht => ?_
  obtain ⟨⟨b, n⟩, hmove, ht⟩ := Option.bind_eq_some_iff.1 ht
  obtain ⟨⟨z, xs, va⟩, hblock, rfl⟩ := Option.map_eq_some_iff.1 ht
  exact State.ctxRegs_of_ctxMove _ hmove hblock

/-- A `ctx.lgr` loads the registers that it names (R428). -/
theorem leaves_ctxLgr (hs : s.iss = some I) (d : BitVec 7) (a : BitVec 6) (e : Bool) :
    Leaves s I (ctxAfter s I) (.ctxLgr d a e) := by
  refine leaves_ctxWord hs rfl rfl rfl rfl fun t ht => ?_
  obtain ⟨⟨b, n⟩, hmove, ht⟩ := Option.bind_eq_some_iff.1 ht
  obtain ⟨⟨z, xs, va⟩, hblock, rfl⟩ := Option.map_eq_some_iff.1 ht
  exact State.ctxRegs_of_ctxMove _ hmove hblock

/-- A `ctx.sst` stores the group's state block (R430). -/
theorem leaves_ctxSst (hs : s.iss = some I) (a : BitVec 6) (e : Bool) : Leaves s I (ctxAfter s I) (.ctxSst a e) := by
  refine leaves_ctxWord hs rfl rfl rfl rfl fun t ht => ?_
  obtain ⟨⟨z, xs, va⟩, hblock, rfl⟩ := Option.map_eq_some_iff.1 ht
  obtain ⟨rfl, live, ab, hreach⟩ := State.ctxReach_of_ctxBlock hblock
  dsimp only
  rw [hreach]

/-- A `ctx.lst` of a good block, for whose allotment and latch there is room, loads it (R433). -/
theorem leaves_ctxLst (hs : s.iss = some I) (a : BitVec 6) (e : Bool) : Leaves s I (ctxAfter s I) (.ctxLst a e) := by
  refine leaves_ctxWord hs rfl rfl rfl rfl fun t ht => ?_
  obtain ⟨⟨z, xs, va⟩, hblock, ht⟩ := Option.bind_eq_some_iff.1 ht
  obtain ⟨rfl, live, ab, hreach⟩ := State.ctxReach_of_ctxBlock hblock
  refine (Reach.match_of_go _ _ hreach).trans ?_
  -- the block's words and the state after their loads, before either is read
  dsimp -zeta only at ht
  generalize z.ctxLoad I.single xs _ 1280 = loaded at ht ⊢
  obtain ⟨ws, y⟩ := loaded
  obtain ⟨hpass, ht⟩ := Option.ite_none_left_eq_some.1 ht
  obtain ⟨hgood, hbusy⟩ := not_or.1 hpass
  obtain ⟨hlatch, hroom⟩ := not_or.1 (mt Bool.or_eq_true_iff.2 hbusy)
  have hgood : gsbBad ws (I.single.acting s).cap (I.single.acting s).pres = none := Option.not_isSome_iff_eq_none.1 hgood
  dsimp -zeta only
  rw [hgood]
  exact (if_neg hlatch).trans ((if_neg hroom).trans (Option.some.inj ht))

/-- A `ctx.swg` stores the workgroup's state block (R432). -/
theorem leaves_ctxSwg (hs : s.iss = some I) (a : BitVec 6) (e : Bool) : Leaves s I (ctxAfter s I) (.ctxSwg a e) := by
  refine leaves_ctxWord hs rfl rfl rfl rfl fun t ht => ?_
  obtain ⟨⟨z, xs, va⟩, hblock, rfl⟩ := Option.map_eq_some_iff.1 ht
  obtain ⟨rfl, live, ab, hreach⟩ := State.ctxReach_of_ctxBlock hblock
  dsimp only
  rw [hreach]
  rfl

/-- A `ctx.lwg` of a good block, into whose windows no engine writes any more, loads it (R433). -/
theorem leaves_ctxLwg (hs : s.iss = some I) (a : BitVec 6) (e : Bool) : Leaves s I (ctxAfter s I) (.ctxLwg a e) := by
  refine leaves_ctxWord hs rfl rfl rfl rfl fun t ht => ?_
  obtain ⟨⟨z, xs, va⟩, hblock, ht⟩ := Option.bind_eq_some_iff.1 ht
  obtain ⟨rfl, live, ab, hreach⟩ := State.ctxReach_of_ctxBlock hblock
  refine (Reach.match_of_go _ _ hreach).trans ?_
  dsimp -zeta only at ht
  generalize z.ctxLoad I.single xs _ 512 = loaded at ht ⊢
  obtain ⟨ws, y⟩ := loaded
  obtain ⟨⟨w, d⟩, hgrid, ht⟩ := Option.bind_eq_some_iff.1 ht
  obtain ⟨hpass, ht⟩ := Option.ite_none_left_eq_some.1 ht
  obtain ⟨hgood, hranges⟩ := not_or.1 (mt Bool.or_eq_true_iff.2 hpass)
  have hgrid : y.wgGrid I.single.G.wg = some (w, d) := hgrid
  have hgood : wsbBad ws d = none := Option.not_isSome_iff_eq_none.1 hgood
  dsimp -zeta only
  rw [hgrid]
  dsimp -zeta only
  rw [hgood]
  exact (if_neg hranges).trans (Option.some.inj ht)

/-- A `ctx.quiet` of a workgroup of which no command is outstanding acquires (R429). -/
theorem leaves_ctxQuiet (hs : s.iss = some I) (e : Bool) : Leaves s I (ctxAfter s I) (.ctxQuiet e) := by
  refine leaves_ctxWord hs rfl rfl rfl rfl fun t ht => ?_
  obtain ⟨hquiet, ht⟩ := Option.ite_none_left_eq_some.1 ht
  exact (if_neg hquiet).trans (Option.some.inj ht)

/-- Settles O42: three returns from a fault routine, one from a save and one from a restore routine, and seven words that move a group's
state. -/
theorem trapModeWords : Obligations.TrapModeWords := by
  intro s I hs
  refine ⟨?next, ?retry, ?kill, leaves_rfeSave hs, leaves_rfeRest hs, leaves_ctxSgr hs, leaves_ctxLgr hs, leaves_ctxSst hs,
    leaves_ctxLst hs, leaves_ctxSwg hs, leaves_ctxLwg hs, leaves_ctxQuiet hs⟩
  case next | retry | kill =>
    refine leaves_of_row hs rfl rfl fun hgate t ht => ?_
    split at ht
    case h_1 htrap => exact State.rfeWord_of_trap hgate htrap ht
    case h_2 => cases ht

end Sys2Proof.Machine
end

section
/-!
SUPPORT. What trap mode forbids, and what only trap mode or a system context allows (R422, R423, R426).
-/

namespace Sys2Proof.Machine

open Sys2Proof.Claims

variable {s : State} {I : Iss}

/-! ### Checks of a word that names no register (R81, R90) -/

/-- A word that needs no more than an active thread passes its checks where it has one. -/
theorem Iss.gate_of_mask {m : Mask} (h : m ≠ 0#32) : I.gate { mask := m } = .go := by
  simp [Iss.gate, Need.gate, h]

/-- A word that needs no more than an active thread, and goes on whether it has one or not, goes on. -/
theorem State.word_of_mask {m : Mask} (e : Bool) {body : State → State} (h : m ≠ 0#32 → body s = s.advance I e) :
    s.word I { mask := m } e body = s.advance I e := by
  by_cases hm : m = 0#32
  · exact State.word_skip e body (by simp [Iss.gate, Need.gate, hm])
  · exact (State.word_go e body (Iss.gate_of_mask hm)).trans (h hm)

/-- A boundary word that needs no more than an active thread, outside transactions, has its own effect. -/
theorem State.boundaryWord_of_mask {m : Mask} (e : Bool) (body : State → State) (h : m ≠ 0#32) (ht : I.inTx m = false) :
    s.boundaryWord I { mask := m } e body = body s :=
  State.boundaryWord_go e body (Iss.gate_of_mask h) ht

/-- Setting a key to the value that it has changes nothing. -/
theorem mapSet_of_mapFind {κ α : Type} [DecidableEq κ] {m : Map κ α} {k : κ} {v : α} (h : mapFind m k = some v) :
    mapSet m k v = m := by
  induction m with
  | nil => cases h
  | cons x r ih =>
    obtain ⟨k', v'⟩ := x
    by_cases hk : k' = k
    · simp only [mapFind, hk, if_true, Option.some.injEq] at h
      simp [mapSet, hk, h]
    · simp only [mapFind, hk, if_false] at h
      simp [mapSet, hk, ih h]

/-- A group that stays as it is leaves the state as it is. -/
theorem State.modGroup_of_fixed {gid : Nat} {f : Group → Group} (h : ∀ g, f g = g) : s.modGroup gid f = s := by
  unfold State.modGroup
  split
  case h_1 hg => rw [h, mapSet_of_mapFind hg]
  case h_2 => rfl

/-! ### Words that trap mode forbids (R422) -/

/-- A `dual` word of trap mode is forbidden. -/
theorem State.dualWord_of_trapped (on e : Bool) (hmode : I.trapped = true) (hmask : I.S.mask ≠ 0#32) (htx : I.inTx I.S.mask = false) :
    s.dualWord I on e = s.raiseCode I codeTrapForbidden :=
  (State.boundaryWord_of_mask e _ hmask htx).trans (if_pos hmode)

/-- A `brk` of trap mode only goes on. -/
theorem exec_brk_of_trapped (hs : s.iss = some I) (hmode : I.trapped = true) (n : BitVec 16) :
    exec (.brk n) s = .next (s.advance I true) :=
  (State.withIss_some _ hs).trans (congrArg _ (State.word_of_mask true fun _ => if_pos (Bool.or_eq_true_iff.2 (.inl hmode))))

/-- A `nopre.on` of trap mode only goes on (R425). -/
theorem exec_nopreOn_of_trapped (hs : s.iss = some I) (hmode : I.trapped = true) (e : Bool) :
    exec (.nopreOn e) s = .next (s.advance I e) := by
  refine (State.withIss_some _ hs).trans (congrArg _ (State.word_of_mask e fun _ => ?_))
  rw [State.modGroup_of_fixed fun g => if_pos (Bool.or_eq_true_iff.2 (.inl hmode))]

/-! ### Words that only trap mode allows (R426) -/

/-- A return that no routine makes raises TRAP-ONLY. -/
theorem State.rfeWord_of_untrapped (body : Trap → Option State) (hmode : I.trapped = false) (hmask : I.S.mask ≠ 0#32) :
    s.rfeWord I body = s.raise I { code := codeTrapOnly, tmask := I.S.mask } := by
  have htrap : I.G.trap = none := Option.isSome_eq_false_iff.1 hmode |> Option.isNone_iff_eq_none.1
  rw [State.rfeWord, State.word_go true _ (Iss.gate_of_mask hmask), htrap]

/-- Settles O51: six words that trap mode forbids and two that do nothing in it; five returns that only trap mode allows, and the writes
of three control registers. -/
theorem modeChecks : Obligations.ModeChecks := by
  intro s I hs
  refine ⟨fun hmode hmask htx => ⟨?exit, ?rsize, ?contOpen, ?contClose, ?on, ?off, exec_brk_of_trapped hs hmode,
    exec_nopreOn_of_trapped hs hmode⟩, fun hmode hmask => ⟨?next, ?retry, ?kill, ?rest, ?save, ?csr⟩⟩
  case exit =>
    exact fun hact hclosed => (State.withIss_some _ hs).trans
      (congrArg _ ((State.boundaryWord_of_mask true _ hact hclosed).trans (if_pos hmode)))
  case rsize =>
    exact fun _ n e => (State.withIss_some _ hs).trans (congrArg _ ((State.boundaryWord_of_mask e _ hmask htx).trans (if_pos hmode)))
  case contOpen =>
    exact fun i e => (State.withIss_some _ hs).trans (congrArg _ ((State.boundaryWord_of_mask e _ hmask htx).trans (if_pos hmode)))
  case contClose =>
    exact fun e => (State.withIss_some _ hs).trans (congrArg _ ((State.boundaryWord_of_mask e _ hmask htx).trans (if_pos hmode)))
  case on | off => exact fun e => (State.withIss_some _ hs).trans (congrArg _ (State.dualWord_of_trapped _ e hmode hmask htx))
  case next | retry | kill | rest =>
    exact (State.withIss_some _ hs).trans (congrArg _ (State.rfeWord_of_untrapped _ hmode hmask))
  case save =>
    intro h hgate
    have htrap : I.G.trap = none := Option.isNone_iff_eq_none.1 (Option.isSome_eq_false_iff.1 hmode)
    refine (State.withIss_some _ hs).trans (congrArg _ ((State.word_go true _ hgate).trans ?_))
    rw [htrap]
  case csr =>
    intro a n k e hlow hhigh hsys hgate
    refine (State.withIss_some _ hs).trans (congrArg _ ((State.word_go e _ hgate).trans ?_))
    exact if_pos ⟨hlow, hhigh, by simp [hmode], by simp [hsys]⟩

end Sys2Proof.Machine
end

section
/-!
SUPPORT. The events of grids, host queues and records (R346, R394 to R402, R451), and those of time, ports, boot, heat and reset (R375,
R439, R445, R453 to R461): each leaves the state of its rule where it is due.
-/

namespace Sys2Proof.Machine

open Sys2Proof.Claims

variable (s : State)

/-! ### Grids and host queues (R394, R396, R398, R401, R402) -/

/-- A grid whose dependences are met has its range list sent, and one of which a dependence failed is rejected. -/
theorem execGridReady_eq (k : Nat) : execGridReady k s = .next ((gridEvent s (.gridReady k)).getD s) := by
  simp only [execGridReady, gridEvent]
  cases mapFind s.grids k with
  | none => rfl
  | some d =>
    dsimp only [Option.bind_some]
    by_cases hstopped : (!s.cpRuns) = true
    · rw [if_pos hstopped, if_pos hstopped]; rfl
    · rw [if_neg hstopped, if_neg hstopped]
      cases d.st with
      | accepted => simp only [apply_ite (Option.getD · s), Option.getD_none, Option.getD_some]
      | _ => rfl

/-- A grid whose range list is done is placed next. (Where it is not due, the event writes the grid back as it was.) -/
theorem happens_rangeListComplete (k : Nat) : Happens s (gridEvent s) (.rangeListComplete k) := by
  intro t ht
  simp only [gridEvent, Option.bind_eq_some_iff, Option.ite_none_right_eq_some, Option.some.injEq] at ht
  obtain ⟨d, hd, hdue, rfl⟩ := ht
  show execRangeListComplete k s = _
  simp only [execRangeListComplete, State.modGrid, hd, if_pos hdue]

/-- A grid of which nothing is left retires. -/
theorem execGridRetirement_eq (k : Nat) : execGridRetirement k s = .next ((gridEvent s (.gridRetirement k)).getD s) := by
  simp only [execGridRetirement, gridEvent, Bool.or_eq_true]
  cases mapFind s.grids k with
  | none => rfl
  | some d =>
    dsimp only [Option.bind_some]
    rw [apply_ite (Option.getD · s)]
    rfl

/-- A fenced die leaves the device, with the contexts that have something on it. -/
theorem execDieFence_eq (die : Nat) : execDieFence die s = .next ((gridEvent s (.dieFence die)).getD s) := by
  simp only [execDieFence, gridEvent, apply_ite (Option.getD · s), Option.getD_none, Option.getD_some]

/-- The queue whose turn it is has its next record taken, or stops. -/
theorem execHostQueueConsume_eq (q : Nat) : execHostQueueConsume q s = .next ((gridEvent s (.hostQueueConsume q)).getD s) := by
  simp only [execHostQueueConsume, gridEvent, Bool.or_eq_true, bne_iff_ne, apply_ite (Option.getD · s), Option.getD_none,
    Option.getD_some]

/-! ### Records (R346, R451) -/

/-- A record of a context is appended to its queue, unless that queue's context is gone. -/
theorem execErrorRecordAppend_eq (i : Nat) :
    execErrorRecordAppend i s = .next ((recordEvent s (.errorRecordAppend i)).getD s) := by
  simp only [execErrorRecordAppend, recordEvent]
  cases s.pend[i]? with
  | none => rfl
  | some r =>
    dsimp only [Option.bind_some]
    cases r.queue.slot with
    | none => rfl
    | some k => simp only [Option.bind_some, apply_ite (Option.getD · s), Option.getD_none, Option.getD_some]

/-- A record of no context is appended to the hosts' queue, which raises its vector where the record was written. -/
theorem execManagementRecordAppend_eq (i : Nat) :
    execManagementRecordAppend i s = .next ((recordEvent s (.managementRecordAppend i)).getD s) := by
  simp only [execManagementRecordAppend, recordEvent, Bool.or_eq_true]
  cases s.pend[i]? with
  | none => rfl
  | some r =>
    dsimp only [Option.bind_some]
    rw [apply_ite (Option.getD · s)]
    obtain ⟨t, outcome⟩ := s.deliverTo none s.host.mgqDesc.toNat 0 r.urec
    cases outcome <;> rfl

/-- An error that no word consumed is recorded, at an address of the die's own memory. -/
theorem execUnconsumedError_eq (die pa : Nat) (corrected : Bool) :
    execUnconsumedError die pa corrected s = .next ((recordEvent s (.unconsumedError die pa corrected)).getD s) := by
  simp only [execUnconsumedError, recordEvent, apply_ite (Option.getD · s), Option.getD_none, Option.getD_some]

/-- Settles O46: each event leaves the state of its rule. -/
theorem gridAndRecordEvents : Obligations.GridAndRecordEvents := fun s =>
  ⟨fun k => happens_of_getD (execGridReady_eq s k), happens_rangeListComplete s,
    fun k => happens_of_getD (execGridRetirement_eq s k), fun die => happens_of_getD (execDieFence_eq s die),
    fun q => happens_of_getD (execHostQueueConsume_eq s q), fun i => happens_of_getD (execErrorRecordAppend_eq s i),
    fun i => happens_of_getD (execManagementRecordAppend_eq s i),
    fun die pa corrected => happens_of_getD (execUnconsumedError_eq s die pa corrected)⟩

/-! ### Time (R439, R445) -/

/-- The conversions are fitted again at a boundary of 2^16 frames. -/
theorem execTimeConversionUpdate_eq :
    execTimeConversionUpdate s = .next ((deviceEvent s .timeConversionUpdate).getD s) := by
  unfold execTimeConversionUpdate deviceEvent
  rw [apply_ite (Option.getD · s)]
  rfl

/-! ### Ports (R375, R453, R459, R461) -/

/-- A port that does not answer in time is isolated, once. -/
theorem execCxlReadTimeout_eq (j : Nat) : execCxlReadTimeout j s = .next ((deviceEvent s (.cxlReadTimeout j)).getD s) := by
  simp only [execCxlReadTimeout, deviceEvent, apply_ite (Option.getD · s), Option.getD_none, Option.getD_some]

/-- A load's reads of host memory that get no data are consumed as poison. -/
theorem execHostCompletionTimeout_eq (gid id : Nat) :
    execHostCompletionTimeout gid id s = .next ((deviceEvent s (.hostCompletionTimeout gid id)).getD s) := by
  simp only [execHostCompletionTimeout, deviceEvent]
  cases (mapFind s.groups gid).bind fun g => g.prods.find? fun p => p.id == id with
  | none => rfl
  | some p => simp only [Option.bind_some, apply_ite (Option.getD · s), Option.getD_none, Option.getD_some]

/-- The isolation of a port ends where its link is active again. -/
theorem execIsolationEnd_eq (j : Nat) : execIsolationEnd j s = .next ((deviceEvent s (.isolationEnd j)).getD s) := by
  simp only [execIsolationEnd, State.endIsolation, deviceEvent]
  by_cases hj : 5 < j
  · simp [hj]
  · cases hiso : (s.port j).iso <;> cases hactive : (s.port j).active <;> simp [hj]

/-- A port that exists trains its link again. -/
theorem execLinkRetrain_eq (j : Nat) : execLinkRetrain j s = .next ((deviceEvent s (.linkRetrain j)).getD s) := by
  simp only [execLinkRetrain, State.retrain, deviceEvent, apply_ite (Option.getD · s), Option.getD_none, Option.getD_some]

/-- A link that trains becomes active. -/
theorem execDataLinkLayerLinkActive_eq (j : Nat) :
    execDataLinkLayerLinkActive j s = .next ((deviceEvent s (.dataLinkLayerLinkActive j)).getD s) := by
  simp only [execDataLinkLayerLinkActive, deviceEvent, apply_ite (Option.getD · s), Option.getD_none, Option.getD_some]

/-- A host port goes into reset, once. -/
theorem execPortReset_eq (h : Nat) : execPortReset h s = .next ((deviceEvent s (.portReset h)).getD s) := by
  simp only [execPortReset, deviceEvent, apply_ite (Option.getD · s), Option.getD_none, Option.getD_some]

/-! ### Boot, attestation and heat (R454 to R458) -/

/-- A report that has been started is written. -/
theorem execAttestationReport_eq : execAttestationReport s = .next ((deviceEvent s .attestationReport).getD s) := by
  simp only [execAttestationReport, deviceEvent, apply_ite (Option.getD · s), Option.getD_none, Option.getD_some]

/-- A device that has booted takes a write of its window. -/
theorem execRegisterWrite_eq (off : Nat) (v : BitVec 32) :
    execRegisterWrite off v s = .next ((deviceEvent s (.registerWrite off v)).getD s) := by
  simp only [execRegisterWrite, deviceEvent, apply_ite (Option.getD · s), Option.getD_none, Option.getD_some]

/-- The device boots once, or stays in reset for good. -/
theorem execSignedBoot_eq : execSignedBoot s = .next ((deviceEvent s .signedBoot).getD s) := by
  simp only [execSignedBoot, deviceEvent, Bool.or_eq_true, apply_ite (Option.getD · s), Option.getD_none, Option.getD_some]

/-- A die that is not throttled yet is throttled, and the hosts have a record of it. -/
theorem execThermalThrottle_eq (die : Nat) : execThermalThrottle die s = .next ((deviceEvent s (.thermalThrottle die)).getD s) := by
  simp only [execThermalThrottle, deviceEvent, apply_ite (Option.getD · s), Option.getD_none, Option.getD_some]

/-- Settles O48: each event leaves the state of its rule, and the state as it was where it is not due. -/
theorem deviceEvents : Obligations.DeviceEvents := fun s =>
  ⟨happens_of_getD rfl, happens_of_getD (execTimeConversionUpdate_eq s), fun j => happens_of_getD (execCxlReadTimeout_eq s j),
    fun gid id => happens_of_getD (execHostCompletionTimeout_eq s gid id), fun j => happens_of_getD (execIsolationEnd_eq s j),
    fun j => happens_of_getD (execLinkRetrain_eq s j), fun j => happens_of_getD (execDataLinkLayerLinkActive_eq s j),
    fun h => happens_of_getD (execPortReset_eq s h), fun _ => happens_of_getD rfl,
    happens_of_getD (execAttestationReport_eq s), fun off v => happens_of_getD (execRegisterWrite_eq s off v),
    happens_of_getD rfl, happens_of_getD (execSignedBoot_eq s), happens_of_getD rfl,
    fun die => happens_of_getD (execThermalThrottle_eq s die)⟩

end Sys2Proof.Machine
end

section
/-!
SUPPORT. The entry into a fault routine (R419, R420): the routine's group takes the next identifier, which a clause of the statement
takes for unused where nothing in it says so.
-/

namespace Sys2Proof.Machine

open Sys2Proof.Claims

/-- Group 3 issues in a context with a fault routine, and its own identifier is the next to be given. -/
def staleCounter : State :=
  { State.reset with
    cur := some (3, 0)
    nextUid := 3
    ctxs := [(0, { State.reset.ctx 0 with tvec := 0x8000#64 })]
    groups := [(3, peerStorer)] }

/-- The word that group 3 issues. -/
def staleIssuer : Iss := staleCounter.iss.get (by decide)

/-- The fault that the word raises. -/
def someFault : Flt := { code := codeTrapOnly, tmask := fullMask }

/-- The routine has the place of the group that faulted: its one split is ready to issue. -/
theorem raise_staleCounter :
    ((mapFind (staleCounter.raise staleIssuer someFault).groups 3).bind fun g => (g.split 0).map Split.st) = some .ready := by
  decide

/-- Refutes O49: the second clause, unlike the third, has no premise that the next identifier is unused. Where it is the identifier
of the group that faults, the routine's group is put in that group's place, and the split that the clause asks to be stopped at its
fault is the routine's, ready to issue. -/
theorem not_faultEntry : ¬ Obligations.FaultEntry := by
  unfold Obligations.FaultEntry
  intro hentry
  have hiss : staleCounter.iss = some staleIssuer := (Option.some_get _).symm
  obtain ⟨-, hroutine, -⟩ := hentry staleCounter staleIssuer someFault hiss
  obtain ⟨g, q, hg, hq, hfaulted, -⟩ := hroutine (by decide) (by decide)
  have hst := raise_staleCounter
  rw [show mapFind _ 3 = some g from hg, Option.bind_some, show g.split 0 = some q from hq, Option.map_some, hfaulted] at hst
  exact absurd hst (by decide)

end Sys2Proof.Machine
end

section
/-!
SUPPORT. The device register window (R374, R391, R393, R440, R444, R450 to R458): which register stands at each offset, and how a
read gives back what a write left there.
-/

namespace Sys2Proof.Machine

open Sys2Proof.Claims

/-! ### Fields of a word -/

/-- The low bits of a word, in a word of their own, are the word with the others cleared. -/
theorem zeroExtend_extractLsb'_zero (v : Word) (n : Nat) (hn : n ≤ 32) :
    BitVec.zeroExtend 32 (v.extractLsb' 0 n) = v &&& BitVec.ofNat 32 (2 ^ n - 1) := by
  apply BitVec.eq_of_toNat_eq
  have hlt : 2 ^ n ≤ 2 ^ 32 := Nat.pow_le_pow_right (by decide) hn
  have hpos : 0 < 2 ^ n := Nat.two_pow_pos n
  have hmod : v.toNat % 2 ^ n < 2 ^ 32 := (Nat.mod_lt _ hpos).trans_le hlt
  rw [BitVec.toNat_setWidth, BitVec.extractLsb'_toNat, BitVec.toNat_and, BitVec.toNat_ofNat, Nat.shiftRight_zero,
    Nat.mod_eq_of_lt hmod, Nat.mod_eq_of_lt (by omega : 2 ^ n - 1 < 2 ^ 32), Nat.and_two_pow_sub_one_eq_mod]

/-- A field of a word and one bit above it, in a word of their own, are the word with the other bits cleared. -/
theorem ofNat_bit_field (v : Word) :
    BitVec.ofNat 32 ((v.getLsbD 16).toNat * 2 ^ 16 + (v.extractLsb' 0 16).toNat) = v &&& 0x0001FFFF#32 := by
  refine Eq.trans ?_ (zeroExtend_extractLsb'_zero v 17 (by decide))
  apply BitVec.eq_of_toNat_eq
  rw [BitVec.toNat_ofNat, BitVec.toNat_setWidth, BitVec.extractLsb'_toNat, BitVec.extractLsb'_toNat, Nat.shiftRight_zero,
    BitVec.getLsbD, Nat.toNat_testBit]
  omega

/-- HQCTL without its enable bit: the length and the slot. -/
theorem ofNat_queueFields (v : Word) :
    BitVec.ofNat 32 ((v.extractLsb' 16 4).toNat * 2 ^ 16 + (v.extractLsb' 0 10).toNat) = v &&& 0x000F03FF#32 := by
  have hslot : (v.extractLsb' 0 10).toNat < 2 ^ 16 := (BitVec.isLt _).trans (by decide)
  have hmask : 0x000F03FF#32 = BitVec.ofNat 32 (2 ^ 16 * (2 ^ 4 - 1) + (2 ^ 10 - 1)) := rfl
  refine BitVec.eq_of_getLsbD_eq fun i hi => ?_
  rw [hmask, Nat.mul_comm, BitVec.getLsbD_and, BitVec.getLsbD_ofNat, BitVec.getLsbD_ofNat,
    Nat.testBit_two_pow_mul_add _ hslot, Nat.testBit_two_pow_mul_add _ (by decide), decide_eq_true hi, Bool.true_and, Bool.true_and]
  by_cases hlow : i < 16
  · rw [if_pos hlow, if_pos hlow, Nat.testBit_two_pow_sub_one, BitVec.testBit_toNat, BitVec.getLsbD_extractLsb', Nat.zero_add,
      Bool.and_comm]
  · rw [if_neg hlow, if_neg hlow, Nat.testBit_two_pow_sub_one, BitVec.testBit_toNat, BitVec.getLsbD_extractLsb',
      Nat.add_sub_cancel' (Nat.le_of_not_lt hlow), Bool.and_comm]

/-- The low half of a field reads back. -/
theorem half_setHalf_zero (old : DWord) (v : Word) : half 0 (setHalf 0 old v) = v &&& 0xFFFFFFFF#32 := by
  refine Eq.trans ?_ (BitVec.and_allOnes (x := v)).symm
  simp [half, setHalf]

/-- The high half of a field of 56 bits reads back but for its top byte. -/
theorem half_setHalf_one (old : DWord) (v : Word) : half 1 (setHalf 1 old v) = v &&& 0x00FFFFFF#32 := by
  refine Eq.trans ?_ (zeroExtend_extractLsb'_zero v 24 (by decide))
  simp [half, setHalf]

/-! ### The register at an offset (R13, R450) -/

section Offsets

variable {s : State} {v : Word} {off : Nat}

/-- Word k of the block of a port. -/
theorem State.windowWrite_port {j k : Nat} (hj : j < 6) (hk : k < 4) (h : off = 0x100 + 16 * j + 4 * k) :
    s.windowWrite off v = s.writePort j k v := by
  rw [State.windowWrite, if_neg (by omega), if_pos (by omega), show (off - 0x100) / 16 = j by omega, show off % 16 / 4 = k by omega]

/-- Word k of the block of a context slot. -/
theorem State.windowWrite_ctx {j k : Nat} (hj : j < 1024) (hk : k < 8) (h : off = 0x100000 + 32 * j + 4 * k) :
    s.windowWrite off v = s.writeCtx j k v := by
  rw [State.windowWrite, if_neg (by omega), if_neg (by omega), if_neg (by omega), if_neg (by omega), if_neg (by omega),
    if_neg (by omega), if_pos (by omega), show (off - 0x100000) / 32 = j by omega, show off % 32 / 4 = k by omega]

/-- Word k of the block of a host queue. -/
theorem State.windowWrite_queue {j k : Nat} (hj : j < 8192) (hk : k < 8) (h : off = 0x200000 + 32 * j + 4 * k) :
    s.windowWrite off v = s.writeQueue j k v := by
  rw [State.windowWrite, if_neg (by omega), if_neg (by omega), if_neg (by omega), if_neg (by omega), if_neg (by omega),
    if_neg (by omega), if_neg (by omega), if_pos (by omega), show (off - 0x200000) / 32 = j by omega,
    show off % 32 / 4 = k by omega]

/-- A quota of the QoS table. -/
theorem State.windowWrite_quota {k : Nat} (hk : k < 92) (h : off = 0x2100 + 4 * k) :
    s.windowWrite off v = { s with qosq := mapSet s.qosq k (v.extractLsb' 0 16) } := by
  rw [State.windowWrite, if_neg (by omega), if_neg (by omega), if_neg (by omega), if_pos (by omega),
    show (off - 0x2100) / 4 = k by omega]

/-- A register of the hosts' block. -/
theorem State.windowWrite_host (hlo : 0x4000 ≤ off) (hhi : off < 0x4400) (h4 : off % 4 = 0) :
    s.windowWrite off v = s.writeHostReg off v := by
  rw [State.windowWrite, if_neg (by omega), if_neg (by omega), if_neg (by omega), if_neg (by omega), if_pos (by omega)]

/-- The registers between the ports and the hosts' block are the device's own, but for the quotas. -/
theorem State.windowWrite_of_device (hlo : 0x160 ≤ off) (hhi : off < 0x4000) (hctl : off ≠ 0x2000)
    (hq : off < 0x2100 ∨ 0x2270 ≤ off) : s.windowWrite off v = s := by
  rw [State.windowWrite]
  by_cases h4 : off % 4 ≠ 0
  · rw [if_pos h4]
  · rw [if_neg h4, if_neg (by omega), if_neg hctl, if_neg (by omega), if_neg (by omega), if_neg (by omega), if_neg (by omega),
      if_neg (by omega)]

/-- The offsets that the statement names as those at which no register stands (R450). -/
def NoRegister (off : Nat) : Prop :=
  off % 4 ≠ 0 ∨ (0x4 ≤ off ∧ off < 0x40) ∨ (0x64 ≤ off ∧ off < 0x100) ∨ (0x160 ≤ off ∧ off < 0x180) ∨
    (0x1B0 ≤ off ∧ off < 0x1000) ∨ (0x104C ≤ off ∧ off < 0x2000) ∨ (0x2004 ≤ off ∧ off < 0x2100) ∨ (0x2270 ≤ off ∧ off < 0x2400) ∨
    (0x2424 ≤ off ∧ off < 0x3000) ∨ (0x3510 ≤ off ∧ off < 0x4000) ∨ (0x4014 ≤ off ∧ off < 0x4040) ∨ (0x4064 ≤ off ∧ off < 0x4100) ∨
    (0x4140 ≤ off ∧ off < 0x4200) ∨ (0x4230 ≤ off ∧ off < 0x4300) ∨ (0x430C ≤ off ∧ off < 0x4340) ∨ (0x4364 ≤ off ∧ off < 0x8000) ∨
    (0xE000 ≤ off ∧ off < 0x100000) ∨ (0x108000 ≤ off ∧ off < 0x200000) ∨ 0x240000 ≤ off

/-- A write where no register of the hosts' block stands changes nothing. -/
theorem State.writeHostReg_of_noRegister (h4 : off % 4 = 0) (h : NoRegister off) : s.writeHostReg off v = s := by
  unfold NoRegister at h
  rw [State.writeHostReg, if_neg (by omega), if_neg (by omega), if_neg (by omega), if_neg (by omega), if_neg (by omega),
    if_neg (by omega), if_neg (by omega), if_neg (by omega), if_neg (by omega), if_neg (by omega), if_neg (by omega),
    if_neg (by omega), if_neg (by omega)]

/-- A write where no register stands changes nothing. -/
theorem State.windowWrite_of_noRegister (h : NoRegister off) : s.windowWrite off v = s := by
  rw [State.windowWrite]
  by_cases h4 : off % 4 ≠ 0
  · rw [if_pos h4]
  · have hhost : s.writeHostReg off v = s := State.writeHostReg_of_noRegister (not_not.1 h4) h
    unfold NoRegister at h
    rw [if_neg h4, if_neg (by omega), if_neg (by omega), if_neg (by omega), hhost, if_neg (by omega : ¬(0x8000 ≤ off ∧ off < 0xE000)),
      if_neg (by omega : ¬(0x100000 ≤ off ∧ off < 0x108000)), if_neg (by omega : ¬(0x200000 ≤ off ∧ off < 0x240000)), ite_self]

variable (hfail : s.host.bootFail = false)
include hfail

/-- Where the boot has not failed, a read gives the register of its block. -/
theorem State.windowRead_of_aligned (h4 : off % 4 = 0) : s.windowRead off =
    if off < 0x1000 then s.windowLow off
    else if off < 0x4000 then s.windowMid off
    else if off < 0x4400 then s.host.window off
    else if 0x8000 ≤ off ∧ off < 0xE000 then
      let j := (off - 0x8000) / 0x1000
      let v := mapGet (s.port j).cfg (off % 0x1000) (Config.portConfig j (off % 0x1000))
      if off % 0x1000 = Config.linkControl j then linkStatus (s.port j) v else v
    else if 0x100000 ≤ off ∧ off < 0x108000 then (s.ctx ((off - 0x100000) / 32)).window (off % 32 / 4)
    else if 0x200000 ≤ off ∧ off < 0x240000 then (s.queue ((off - 0x200000) / 32)).window (off % 32 / 4)
    else 0#32 := by
  rw [State.windowRead, if_neg (by simp [h4, hfail])]

/-- Word k of the block of a port. -/
theorem State.windowRead_port {j k : Nat} (hj : j < 6) (hk : k < 4) (h : off = 0x100 + 16 * j + 4 * k) :
    s.windowRead off = (s.port j).window k := by
  rw [State.windowRead_of_aligned hfail (by omega), if_pos (by omega), State.windowLow, if_neg (by omega), if_neg (by omega),
    if_pos (by omega), show (off - 0x100) / 16 = j by omega, show off % 16 / 4 = k by omega]

/-- Word k of the block of a context slot. -/
theorem State.windowRead_ctx {j k : Nat} (hj : j < 1024) (hk : k < 8) (h : off = 0x100000 + 32 * j + 4 * k) :
    s.windowRead off = (s.ctx j).window k := by
  rw [State.windowRead_of_aligned hfail (by omega), if_neg (by omega), if_neg (by omega), if_neg (by omega), if_neg (by omega),
    if_pos (by omega), show (off - 0x100000) / 32 = j by omega, show off % 32 / 4 = k by omega]

/-- Word k of the block of a host queue. -/
theorem State.windowRead_queue {j k : Nat} (hj : j < 8192) (hk : k < 8) (h : off = 0x200000 + 32 * j + 4 * k) :
    s.windowRead off = (s.queue j).window k := by
  rw [State.windowRead_of_aligned hfail (by omega), if_neg (by omega), if_neg (by omega), if_neg (by omega), if_neg (by omega),
    if_neg (by omega), if_pos (by omega), show (off - 0x200000) / 32 = j by omega, show off % 32 / 4 = k by omega]

/-- A register of the hosts' block. -/
theorem State.windowRead_host (hlo : 0x4000 ≤ off) (hhi : off < 0x4400) (h4 : off % 4 = 0) : s.windowRead off = s.host.window off := by
  rw [State.windowRead_of_aligned hfail h4, if_neg (by omega), if_neg (by omega), if_pos hhi]

/-- A register of the device between the ports and the hosts' block. -/
theorem State.windowRead_mid (hlo : 0x1000 ≤ off) (hhi : off < 0x4000) (h4 : off % 4 = 0) : s.windowRead off = s.windowMid off := by
  rw [State.windowRead_of_aligned hfail h4, if_neg (by omega), if_pos hhi]

/-- A quota of the QoS table. -/
theorem State.windowRead_quota {k : Nat} (hk : k < 92) (h : off = 0x2100 + 4 * k) :
    s.windowRead off = BitVec.zeroExtend 32 (mapGet s.qosq k 0x0200#16) := by
  rw [State.windowRead_mid hfail (by omega) (by omega) (by omega), State.windowMid, if_neg (by omega), if_neg (by omega),
    if_pos (by omega), show (off - 0x2100) / 4 = k by omega]

/-- A die's count of refused writes. -/
theorem State.windowRead_refusals {n : Nat} (hn : n < 9) (h : off = 0x2400 + 4 * n) : s.windowRead off = mapGet s.rpcnt n 0#32 := by
  rw [State.windowRead_mid hfail (by omega) (by omega) (by omega), State.windowMid, if_neg (by omega), if_neg (by omega),
    if_neg (by omega), if_pos (by omega), show (off - 0x2400) / 4 = n by omega]

/-- The votes of a block of the control plane. -/
theorem State.windowRead_votes {b : Nat} (hb : b < 19) (h : off = 0x1000 + 4 * b) : s.windowRead off =
    BitVec.ofNat 32 ((s.vote b).1 * 2 ^ 16 + (s.vote b).2.1 * 2 ^ 8 + (s.vote b).2.2.1.toNat) := by
  rw [State.windowRead_mid hfail (by omega) (by omega) (by omega), State.windowMid, if_pos (by omega),
    show (off - 0x1000) / 4 = b by omega]

omit hfail in
/-- A read of the hosts' block where no register stands gives 0. -/
theorem HostRegs.window_of_noRegister {x : HostRegs} (h4 : off % 4 = 0) (h : NoRegister off) : x.window off = 0#32 := by
  unfold NoRegister at h
  rw [HostRegs.window, if_neg (by omega), if_neg (by omega), if_neg (by omega), if_neg (by omega), if_neg (by omega),
    if_neg (by omega), if_neg (by omega), if_neg (by omega), if_neg (by omega), if_neg (by omega), if_neg (by omega),
    if_neg (by omega), if_neg (by omega), if_neg (by omega), if_neg (by omega)]

/-- A read where no register stands gives 0. -/
theorem State.windowRead_of_noRegister (h : NoRegister off) : s.windowRead off = 0#32 := by
  by_cases h4 : off % 4 = 0
  · have hhost : s.host.window off = 0#32 := HostRegs.window_of_noRegister h4 h
    unfold NoRegister at h
    rw [State.windowRead_of_aligned hfail h4, hhost, if_neg (by omega : ¬(0x8000 ≤ off ∧ off < 0xE000)),
      if_neg (by omega : ¬(0x100000 ≤ off ∧ off < 0x108000)), if_neg (by omega : ¬(0x200000 ≤ off ∧ off < 0x240000)), ite_self]
    by_cases hlow : off < 0x1000
    · rw [if_pos hlow, State.windowLow, if_neg (by omega), if_neg (by omega), if_neg (by omega), if_neg (by omega)]
    · rw [if_neg hlow, ite_eq_right_iff]
      intro hmid
      rw [State.windowMid, if_neg (by omega), if_neg (by omega), if_neg (by omega), if_neg (by omega), if_neg (by omega)]
  · rw [State.windowRead, if_pos (Or.inl h4)]

end Offsets


/-! ### Ports (R374) -/

section Registers

variable {s : State} {v : Word}

/-- A port that has been changed reads as it was changed. -/
@[simp] theorem State.port_modPort_self (j : Nat) (f : Port → Port) : (s.modPort j f).port j = f (s.port j) := by
  simp only [State.port, State.modPort, mapGet_mapSet, if_pos]

/-- A queue that has been changed reads as it was changed. -/
@[simp] theorem State.queue_modQueue_self (q : Nat) (f : HostQueue → HostQueue) : (s.modQueue q f).queue q = f (s.queue q) := by
  simp only [State.queue, State.modQueue, mapGet_mapSet, if_pos]

/-- A context slot that has been changed reads as it was changed. -/
@[simp] theorem State.ctx_modCtx_self (k : Nat) (f : Ctx → Ctx) : (s.modCtx k f).ctx k = f (s.ctx k) := by
  simp only [State.ctx, State.modCtx, mapGet_mapSet, if_pos]

/-- A doorbell for pages is no matter of the context slots. -/
@[simp] theorem State.ctx_ringPages (k j : Nat) : (s.ringPages k).ctx j = s.ctx j := rfl

/-- The dependences that fail with a queue are no matter of the queues. -/
@[simp] theorem State.queue_failPending (q p : Nat) : (s.failPending q).queue p = s.queue p := rfl

/-- A queue that stops is off, with the reason. -/
theorem State.queue_stopQueue_self (q n : Nat) :
    (s.stopQueue q n).queue q = { s.queue q with en := false, err := true, reason := n } := by
  rw [State.stopQueue, State.queue_modQueue_self, State.queue_failPending]

/-- What is written at an offset reads back there, but for the bits outside a mask. -/
def State.ReadsBack (s : State) (v : Word) (off : Nat) (mask : Word) : Prop := (s.windowWrite off v).windowRead off = v &&& mask

/-- The end of an isolation is no matter of the boot. -/
@[simp] theorem State.endIsolation_host (j : Nat) : (s.endIsolation j).host = s.host := by
  unfold State.endIsolation
  split <;> rfl

variable (hfail : s.host.bootFail = false)
include hfail

/-- The registers of a port. -/
theorem windowWrite_ports {j : Nat} (hj : j < 6) :
    s.ReadsBack v (0x100 + 16 * j) 0x0001FFFF#32 ∧ s.windowWrite (0x108 + 16 * j) v = s ∧
    s.windowRead (0x108 + 16 * j) = (s.port j).seq ∧
    s.windowRead (0x104 + 16 * j) = BitVec.ofNat 32 ((if (s.port j).iso then 2 ^ 31 else 0) + (s.port j).wdrop.toNat) ∧
    (v.getLsbD 31 = false → s.windowWrite (0x104 + 16 * j) v = s) ∧
    (v.getLsbD 31 = true → (s.port j).iso = true → (s.port j).active = true →
      (s.windowWrite (0x104 + 16 * j) v).windowRead (0x104 + 16 * j) = 0#32) := by
  have hctl : s.windowWrite (0x100 + 16 * j) v = s.writePort j 0 v := State.windowWrite_port hj (by decide) rfl
  have hsts : s.windowWrite (0x104 + 16 * j) v = s.writePort j 1 v := State.windowWrite_port hj (by decide) (by omega)
  have hseq : s.windowWrite (0x108 + 16 * j) v = s.writePort j 2 v := State.windowWrite_port hj (by decide) (by omega)
  refine ⟨?_, hseq, State.windowRead_port hfail hj (k := 2) (by decide) (by omega), ?_, fun hv => ?_, fun hv hiso hactive => ?_⟩
  · rw [State.ReadsBack, hctl, State.windowRead_port (k := 0) (by exact hfail) hj (by decide) (by omega)]
    simp only [State.writePort, State.port_modPort_self, Port.window]
    exact ofNat_bit_field v
  · rw [State.windowRead_port hfail hj (k := 1) (by decide) (by omega)]
    cases hiso : (s.port j).iso <;> simp [Port.window, hiso]
  · exact hsts.trans (if_neg (ne_true_of_eq_false hv))
  · have hend : s.writePort j 1 v = s.modPort j fun p => { p with iso := false, wdrop := 0#16 } := by
      simp [State.writePort, State.endIsolation, hv, hiso, hactive]
    rw [hsts, hend, State.windowRead_port (by exact hfail) hj (k := 1) (by decide) (by omega)]
    simp [Port.window]

/-- The quotas, the counts of refusals, and the votes of the control plane. -/
theorem windowWrite_device :
    s.ReadsBack v 0x2000 0x0001FFFF#32 ∧ (∀ k, k < 92 → s.ReadsBack v (0x2100 + 4 * k) 0x0000FFFF#32) ∧
    (∀ n, n < 9 → s.windowWrite (0x2400 + 4 * n) v = s ∧ s.windowRead (0x2400 + 4 * n) = mapGet s.rpcnt n 0#32) ∧
    (∀ b, b < 19 → s.windowWrite (0x1000 + 4 * b) v = s ∧ s.windowRead (0x1000 + 4 * b) =
      BitVec.ofNat 32 (2 ^ 16 * (s.vote b).1 + 2 ^ 8 * (s.vote b).2.1 + if (s.vote b).2.2.1 then 1 else 0)) := by
  refine ⟨?_, fun k hk => ?_, fun n hn => ⟨?_, State.windowRead_refusals hfail hn rfl⟩, fun b hb => ⟨?_, ?_⟩⟩
  · exact State.windowRead_mid (s := { s with qosctl := v &&& 0x0001FFFF#32 }) hfail (by decide) (by decide) (by decide)
  · rw [State.ReadsBack, State.windowWrite_quota hk rfl, State.windowRead_quota (by exact hfail) hk rfl, mapGet_mapSet, if_pos rfl]
    exact zeroExtend_extractLsb'_zero v 16 (by decide)
  · exact State.windowWrite_of_device (by omega) (by omega) (by omega) (by omega)
  · exact State.windowWrite_of_device (by omega) (by omega) (by omega) (by omega)
  · rw [State.windowRead_votes hfail hb rfl, Nat.mul_comm (2 ^ 16), Nat.mul_comm (2 ^ 8)]
    cases (s.vote b).2.2.1 <;> rfl

/-! ### Context slots (R391) -/

/-- The registers of a context slot. -/
theorem windowWrite_slots {k : Nat} (hk : k < 1024) :
    s.ReadsBack v (0x100000 + 32 * k + 0) 0xFFFFFFFF#32 ∧ s.ReadsBack v (0x100000 + 32 * k + 4) 0x00FFFFFF#32 ∧
    s.windowWrite (0x100000 + 32 * k + 12) v = s ∧ s.windowWrite (0x100000 + 32 * k + 16) v = s ∧
    s.ReadsBack v (0x100000 + 32 * k + 20) 0xFFFFFFFF#32 ∧
    s.windowRead (0x100000 + 32 * k + 16) = BitVec.ofNat 32 (s.ctx k).lost ∧
    s.windowRead (0x100000 + 32 * k + 12) = BitVec.ofNat 32 ((s.ctx k).gen.toNat * 2 ^ 10 + (s.ctx k).err * 2 ^ 4 +
      match (s.ctx k).st with
      | .free => 0
      | .live => 1
      | .held => 2
      | .resetting => 3
      | .ended => 4) := by
  have hlow : s.windowWrite (0x100000 + 32 * k + 0) v = s.writeCtx k 0 v := State.windowWrite_ctx hk (by decide) (by omega)
  have hhigh : s.windowWrite (0x100000 + 32 * k + 4) v = s.writeCtx k 1 v := State.windowWrite_ctx hk (by decide) (by omega)
  have hbell : s.windowWrite (0x100000 + 32 * k + 20) v = s.writeCtx k 5 v := State.windowWrite_ctx hk (by decide) (by omega)
  refine ⟨?_, ?_, State.windowWrite_ctx (k := 3) hk (by decide) (by omega),
    State.windowWrite_ctx (k := 4) hk (by decide) (by omega), ?_, State.windowRead_ctx (k := 4) hfail hk (by decide) (by omega), ?_⟩
  · rw [State.ReadsBack, hlow, State.windowRead_ctx (k := 0) (by exact hfail) hk (by decide) (by omega)]
    simp only [State.writeCtx, State.ctx_modCtx_self, Ctx.window, half_setHalf_zero]
  · rw [State.ReadsBack, hhigh, State.windowRead_ctx (k := 1) (by exact hfail) hk (by decide) (by omega)]
    simp only [State.writeCtx, State.ctx_modCtx_self, Ctx.window, half_setHalf_one]
  · have hctx : (s.writeCtx k 5 v).ctx k = { s.ctx k with bell := v } := by
      simp only [State.writeCtx, State.ctx_ringPages, State.ctx_modCtx_self]
    rw [State.ReadsBack, hbell, State.windowRead_ctx (k := 5) (by exact hfail) hk (by decide) (by omega), hctx]
    exact (BitVec.and_allOnes (x := v)).symm
  · rw [State.windowRead_ctx (k := 3) hfail hk (by decide) (by omega), Ctx.window]
    cases (s.ctx k).st <;> rfl

/-! ### Host queues (R393) -/

/-- A queue that is off keeps what is written of its base. -/
theorem windowWrite_queueBase {q : Nat} (hq : q < 8192) (hoff : (s.queue q).en = false) :
    s.ReadsBack v (0x200000 + 32 * q + 0) 0xFFFFFFFF#32 ∧ s.ReadsBack v (0x200000 + 32 * q + 4) 0x00FFFFFF#32 := by
  have hlow : s.windowWrite (0x200000 + 32 * q + 0) v = s.modQueue q fun x => { x with base := setHalf 0 x.base v } :=
    (State.windowWrite_queue (k := 0) hq (by decide) (by omega)).trans (by simp [State.writeQueue, hoff])
  have hhigh : s.windowWrite (0x200000 + 32 * q + 4) v = s.modQueue q fun x => { x with base := setHalf 1 x.base v } :=
    (State.windowWrite_queue (k := 1) hq (by decide) (by omega)).trans (by simp [State.writeQueue, hoff])
  constructor
  · rw [State.ReadsBack, hlow, State.windowRead_queue (k := 0) (by exact hfail) hq (by decide) (by omega)]
    simp only [State.queue_modQueue_self, HostQueue.window, half_setHalf_zero]
  · rw [State.ReadsBack, hhigh, State.windowRead_queue (k := 1) (by exact hfail) hq (by decide) (by omega)]
    simp only [State.queue_modQueue_self, HostQueue.window, half_setHalf_one]

omit hfail in
/-- A queue that is on keeps its base and its control against a write. -/
theorem windowWrite_queueOn {q : Nat} (hq : q < 8192) (hon : (s.queue q).en = true) :
    s.windowWrite (0x200000 + 32 * q + 0) v = s ∧ s.windowWrite (0x200000 + 32 * q + 4) v = s ∧
    (v.getLsbD 31 = true → s.windowWrite (0x200000 + 32 * q + 8) v = s) :=
  ⟨(State.windowWrite_queue (k := 0) hq (by decide) (by omega)).trans (by simp [State.writeQueue, hon]),
    (State.windowWrite_queue (k := 1) hq (by decide) (by omega)).trans (by simp [State.writeQueue, hon]),
    fun hv => (State.windowWrite_queue (k := 2) hq (by decide) (by omega)).trans
      (by simp [State.writeQueue, State.writeQueueCtl, hv, hon])⟩

/-- The tail of a queue reads back, unless the port of the host that holds the queue is in reset. -/
theorem windowWrite_queueTail {q : Nat} (hq : q < 8192)
    (hup : ∀ h, regionOf (s.queue q).base.toNat = .host h → h ∉ s.host.inReset) :
    s.ReadsBack v (0x200000 + 32 * q + 12) 0xFFFFFFFF#32 := by
  have htail : s.windowWrite (0x200000 + 32 * q + 12) v = s.modQueue q fun x => { x with tail := v } := by
    refine (State.windowWrite_queue (k := 3) hq (by decide) (by omega)).trans ?_
    simp only [State.writeQueue, State.ringQueue]
    split
    case h_1 h hhost => rw [if_neg (by simpa using hup h hhost)]
    case h_2 => rfl
  rw [State.ReadsBack, htail, State.windowRead_queue (k := 3) (by exact hfail) hq (by decide) (by omega), State.queue_modQueue_self]
  exact (BitVec.and_allOnes (x := v)).symm

/-- HQCTL written with its enable bit clear. -/
theorem windowWrite_queueOff {q : Nat} (hq : q < 8192) (hv : v.getLsbD 31 = false) :
    s.ReadsBack v (0x200000 + 32 * q + 8) 0x000F03FF#32 := by
  have hctl : s.windowWrite (0x200000 + 32 * q + 8) v = (s.modQueue q fun x =>
      { x with en := false, lg := (v.extractLsb' 16 4).toNat, slot := (v.extractLsb' 0 10).toNat }).failPending q :=
    (State.windowWrite_queue (k := 2) hq (by decide) (by omega)).trans (if_pos (by rw [hv]; rfl))
  rw [State.ReadsBack, hctl, State.windowRead_queue (k := 2) (by exact hfail) hq (by decide) (by omega), State.queue_failPending,
    State.queue_modQueue_self]
  simp only [HostQueue.window, Bool.toNat_false, Nat.zero_mul, Nat.zero_add]
  exact ofNat_queueFields v

omit hfail in
/-- A queue of which the error is cleared has none, and else a write leaves its status as it is. -/
theorem windowWrite_queueStatus {q : Nat} (hq : q < 8192) :
    (v.getLsbD 31 = false → s.windowWrite (0x200000 + 32 * q + 20) v = s) ∧
    (v.getLsbD 31 = true → ((s.windowWrite (0x200000 + 32 * q + 20) v).queue q).err = false) := by
  have hsts : s.windowWrite (0x200000 + 32 * q + 20) v = s.writeQueue q 5 v := State.windowWrite_queue hq (by decide) (by omega)
  refine ⟨fun hv => hsts.trans (if_neg (ne_true_of_eq_false hv)), fun hv => ?_⟩
  rw [hsts, State.writeQueue, if_pos hv, State.queue_modQueue_self]

omit hfail in
/-- HQCTL of a queue that is off written with its enable bit set: the queue has the fields written, and is on, or has stopped where
its base, its length or its slot will not do. -/
theorem windowWrite_queueEnable {q : Nat} (hq : q < 8192) (hoff : (s.queue q).en = false) (hv : v.getLsbD 31 = true) :
    let n := (s.windowWrite (0x200000 + 32 * q + 8) v).queue q
    let lg := (v.extractLsb' 16 4).toNat
    let st := (s.ctx (v.extractLsb' 0 10).toNat).st
    n.base = (s.queue q).base ∧ n.lg = lg ∧ n.slot = (v.extractLsb' 0 10).toNat ∧
    ((s.queue q).base.toNat % 128 ≠ 0 ∨ lg < 4 → n.en = false ∧ n.err = true ∧ n.reason = 4) ∧
    ((s.queue q).base.toNat % 128 = 0 → 4 ≤ lg →
      (st = .free ∨ st = .resetting ∨ st = .ended → n.en = false ∧ n.err = true ∧ n.reason = 3) ∧
      (st = .live ∨ st = .held → n.en = true ∧ n.head = 0#32 ∧ n.tail = 0#32)) := by
  intro n lg st
  have hctl : s.windowWrite (0x200000 + 32 * q + 8) v =
      let t := s.modQueue q fun x => { x with lg := lg, slot := (v.extractLsb' 0 10).toNat }
      if (s.queue q).base.toNat % 128 ≠ 0 ∨ lg < 4 then t.stopQueue q 4
      else if st ≠ .live ∧ st ≠ .held then t.stopQueue q 3
      else t.modQueue q fun x => { x with en := true, head := 0#32, tail := 0#32 } :=
    (State.windowWrite_queue (k := 2) hq (by decide) (by omega)).trans
      ((if_neg (by rw [hv]; decide)).trans (if_neg (ne_true_of_eq_false hoff)))
  dsimp only at hctl
  by_cases hbad : (s.queue q).base.toNat % 128 ≠ 0 ∨ lg < 4
  · have hn : n = _ := congrArg (State.queue · q) (hctl.trans (if_pos hbad))
    rw [State.queue_stopQueue_self, State.queue_modQueue_self] at hn
    rw [hn]
    exact ⟨rfl, rfl, rfl, fun _ => ⟨rfl, rfl, rfl⟩, fun hbase hlg => absurd hbad (by omega)⟩
  · by_cases hdead : st ≠ .live ∧ st ≠ .held
    · have hn : n = _ := congrArg (State.queue · q) ((hctl.trans (if_neg hbad)).trans (if_pos hdead))
      rw [State.queue_stopQueue_self, State.queue_modQueue_self] at hn
      rw [hn]
      exact ⟨rfl, rfl, rfl, fun h => absurd h hbad, fun _ _ => ⟨fun _ => ⟨rfl, rfl, rfl⟩, fun h => absurd hdead (by tauto)⟩⟩
    · have hn : n = _ := congrArg (State.queue · q) ((hctl.trans (if_neg hbad)).trans (if_neg hdead))
      rw [State.queue_modQueue_self, State.queue_modQueue_self] at hn
      rw [hn]
      refine ⟨rfl, rfl, rfl, fun h => absurd h hbad, fun _ _ => ⟨fun h => absurd ?_ hdead, fun _ => ⟨rfl, rfl, rfl⟩⟩⟩
      rcases h with h | h | h <;> simp [h]

/-- The registers of a host queue. -/
theorem windowWrite_queues {q : Nat} (hq : q < 8192) :
    s.windowWrite (0x200000 + 32 * q + 16) v = s ∧ s.windowRead (0x200000 + 32 * q + 16) = (s.queue q).head ∧
    s.windowRead (0x200000 + 32 * q + 20) =
      BitVec.ofNat 32 ((if (s.queue q).err then 2 ^ 31 else 0) + (s.queue q).reason) := by
  refine ⟨State.windowWrite_queue (k := 4) hq (by decide) (by omega),
    State.windowRead_queue (k := 4) hfail hq (by decide) (by omega), ?_⟩
  rw [State.windowRead_queue (k := 5) hfail hq (by decide) (by omega), HostQueue.window]
  cases (s.queue q).err <;> simp

/-! ### The hosts' block (R451, R452, R455 to R458) -/

omit hfail in
/-- A register of the hosts' block reads back what a change of the hosts' registers leaves in it. -/
theorem State.readsBack_of_modHost {f : HostRegs → HostRegs} {off : Nat} {mask : Word} (hlo : 0x4000 ≤ off) (hhi : off < 0x4400)
    (h4 : off % 4 = 0) (hwrite : s.writeHostReg off v = s.modHost f) (hboot : (f s.host).bootFail = false)
    (hread : (f s.host).window off = v &&& mask) : s.ReadsBack v off mask := by
  rw [State.ReadsBack, State.windowWrite_host hlo hhi h4, hwrite, State.windowRead_host (s := s.modHost f) hboot hlo hhi h4]
  exact hread

/-- The management queue and the tests. -/
theorem windowWrite_management :
    s.ReadsBack v 0x4000 0xFFFFFFFF#32 ∧ s.ReadsBack v 0x4004 0x00FFFFFF#32 ∧ s.windowWrite 0x4008 v = s ∧
    s.windowRead 0x4008 = s.host.mgqLost ∧ s.ReadsBack v 0x400C 0x3F#32 ∧ s.ReadsBack v 0x4010 0xFFFF#32 ∧
    (∀ n, n < 9 → s.ReadsBack v (0x4040 + 4 * n) 0xF#32) := by
  have hvec := zeroExtend_extractLsb'_zero v 6 (by decide)
  have hint := zeroExtend_extractLsb'_zero v 16 (by decide)
  refine ⟨?base, ?baseHigh, rfl, State.windowRead_host hfail (by decide) (by decide) (by decide), ?vec, ?int, fun n hn => ?mask⟩
  case base =>
    exact State.readsBack_of_modHost (f := fun h => { h with mgqDesc := setHalf 0 h.mgqDesc v }) (by decide) (by decide) (by decide)
      rfl hfail (half_setHalf_zero ..)
  case baseHigh =>
    exact State.readsBack_of_modHost (f := fun h => { h with mgqDesc := setHalf 1 h.mgqDesc v }) (by decide) (by decide) (by decide)
      rfl hfail (half_setHalf_one ..)
  case vec =>
    exact State.readsBack_of_modHost (f := fun h => { h with mgqVec := v.extractLsb' 0 6 }) (by decide) (by decide) (by decide)
      rfl hfail hvec
  case int =>
    exact State.readsBack_of_modHost (f := fun h => { h with tstInt := v.extractLsb' 0 16 }) (by decide) (by decide) (by decide)
      rfl hfail hint
  case mask =>
    refine State.readsBack_of_modHost (f := fun h => { h with tstMsk := mapSet h.tstMsk n (v.extractLsb' 0 4) })
      (by omega) (by omega) (by omega) ?_ hfail ?_
    · rw [State.writeHostReg, if_neg (by omega), if_neg (by omega), if_neg (by omega), if_neg (by omega), if_pos (by omega),
        show (0x4040 + 4 * n - 0x4040) / 4 = n by omega]
    · rw [HostRegs.window, if_neg (by omega), if_neg (by omega), if_neg (by omega), if_neg (by omega), if_neg (by omega),
        if_pos (by omega), show (0x4040 + 4 * n - 0x4040) / 4 = n by omega, mapGet_mapSet, if_pos rfl]
      exact zeroExtend_extractLsb'_zero v 4 (by decide)

omit hfail in
/-- A write of 1 to ATTCMD.go has a report under way. -/
theorem State.startReport_host : s.startReport.host.attGo = true ∧ s.startReport.host.bootFail = s.host.bootFail := by
  unfold State.startReport
  by_cases hgo : s.host.attGo = true
  · rw [if_pos hgo]
    exact ⟨hgo, rfl⟩
  · rw [if_neg hgo]
    exact ⟨rfl, rfl⟩

/-- Attestation and boot. -/
theorem windowWrite_attestation :
    (∀ k, k < 16 → s.windowWrite (0x4100 + 4 * k) v = s) ∧
    (∀ k, k < 8 → s.host.attNonce.length = 8 → s.ReadsBack v (0x4200 + 4 * k) 0xFFFFFFFF#32) ∧
    s.ReadsBack v 0x4220 0xFFFFFFFF#32 ∧ s.ReadsBack v 0x4224 0x00FFFFFF#32 ∧
    (v.getLsbD 0 = true → (s.windowWrite 0x4228 v).windowRead 0x4228 = 1#32) ∧
    (v.getLsbD 0 = false → s.windowWrite 0x4228 v = s) ∧ s.windowWrite 0x422C v = s ∧ s.windowRead 0x422C = 0#32 := by
  refine ⟨fun k hk => ?key, fun k hk hlen => ?nonce, ?dst, ?dstHigh, fun hv => ?go,
    fun hv => if_neg (ne_true_of_eq_false hv), rfl, ?boot⟩
  case key =>
    rw [State.windowWrite_host (by omega) (by omega) (by omega), State.writeHostReg, if_neg (by omega), if_neg (by omega),
      if_neg (by omega), if_neg (by omega), if_neg (by omega), if_neg (by omega), if_neg (by omega), if_neg (by omega),
      if_neg (by omega), if_neg (by omega), if_neg (by omega), if_neg (by omega), if_neg (by omega)]
  case nonce =>
    refine State.readsBack_of_modHost (f := fun h => { h with attNonce := h.attNonce.set k v }) (by omega) (by omega) (by omega)
      ?_ hfail ?_
    · rw [State.writeHostReg, if_neg (by omega), if_neg (by omega), if_neg (by omega), if_neg (by omega), if_neg (by omega),
        if_pos (by omega), show (0x4200 + 4 * k - 0x4200) / 4 = k by omega]
    · rw [HostRegs.window, if_neg (by omega), if_neg (by omega), if_neg (by omega), if_neg (by omega), if_neg (by omega),
        if_neg (by omega), if_neg (by omega), if_pos (by omega), show (0x4200 + 4 * k - 0x4200) / 4 = k by omega,
        List.getD_eq_getElem?_getD, List.getElem?_set_self (hlen ▸ hk), Option.getD_some]
      exact (BitVec.and_allOnes (x := v)).symm
  case dst =>
    exact State.readsBack_of_modHost (f := fun h => { h with attDst := setHalf 0 h.attDst v }) (by decide) (by decide) (by decide)
      rfl hfail (half_setHalf_zero ..)
  case dstHigh =>
    exact State.readsBack_of_modHost (f := fun h => { h with attDst := setHalf 1 h.attDst v }) (by decide) (by decide) (by decide)
      rfl hfail (half_setHalf_one ..)
  case go =>
    obtain ⟨hgo, hkeep⟩ := State.startReport_host (s := s)
    rw [show s.windowWrite 0x4228 v = s.startReport from if_pos hv,
      State.windowRead_host (hkeep.trans hfail) (by decide) (by decide) (by decide)]
    exact congrArg (fun b : Bool => BitVec.ofNat 32 b.toNat) hgo
  case boot =>
    rw [State.windowRead_host hfail (by decide) (by decide) (by decide)]
    exact congrArg (fun b : Bool => BitVec.ofNat 32 b.toNat) hfail

/-- Power, heat and reset. -/
theorem windowWrite_power :
    s.ReadsBack v 0x4300 0xFFFFFFFF#32 ∧ (v.getLsbD 0 = true → (s.windowWrite 0x4304 v).windowRead 0x4304 = 0#32) ∧
    (v.getLsbD 0 = false → s.windowWrite 0x4304 v = s) ∧ (v ≠ 0x00005A5A#32 → s.windowWrite 0x4308 v = s) ∧
    (∀ n, n < 9 → s.ReadsBack v (0x4340 + 4 * n) 0xFFFF#32) := by
  refine ⟨?cap, fun hv => ?trip, fun hv => if_neg (ne_true_of_eq_false hv), fun hv => if_neg hv, fun n hn => ?dieCap⟩
  case cap =>
    exact State.readsBack_of_modHost (f := fun h => { h with pwrCap := v }) (by decide) (by decide) (by decide) rfl hfail
      (BitVec.and_allOnes (x := v)).symm
  case trip =>
    rw [show s.windowWrite 0x4304 v = s.modHost fun h => { h with thTrip := false } from if_pos hv,
      State.windowRead_host (by exact hfail) (by decide) (by decide) (by decide)]
    rfl
  case dieCap =>
    refine State.readsBack_of_modHost (f := fun h => { h with dpCap := mapSet h.dpCap n (v.extractLsb' 0 16) })
      (by omega) (by omega) (by omega) ?_ hfail ?_
    · rw [State.writeHostReg, if_neg (by omega), if_neg (by omega), if_neg (by omega), if_neg (by omega), if_neg (by omega),
        if_neg (by omega), if_neg (by omega), if_neg (by omega), if_neg (by omega), if_neg (by omega), if_neg (by omega),
        if_neg (by omega), if_pos (by omega), show (0x4340 + 4 * n - 0x4340) / 4 = n by omega]
    · rw [HostRegs.window, if_neg (by omega), if_neg (by omega), if_neg (by omega), if_neg (by omega), if_neg (by omega),
        if_neg (by omega), if_neg (by omega), if_neg (by omega), if_neg (by omega), if_neg (by omega), if_neg (by omega),
        if_neg (by omega), if_neg (by omega), if_neg (by omega), if_pos (by omega),
        show (0x4340 + 4 * n - 0x4340) / 4 = n by omega, mapGet_mapSet, if_pos rfl]
      exact zeroExtend_extractLsb'_zero v 16 (by decide)

end Registers

/-- Settles O57: block by block of the window, from the register that stands at each offset. -/
theorem registerWindow : Obligations.RegisterWindow := by
  unfold Obligations.RegisterWindow
  intro s v hbooted hfail
  have hexec (off : Nat) : exec (.registerWrite off v) s = .next (s.windowWrite off v) := congrArg _ (if_pos hbooted)
  simp only [hexec]
  obtain ⟨hqos, hquotas, hrefusals, hvotes⟩ := windowWrite_device (v := v) hfail
  obtain ⟨hmgq, hmgqHigh, hlostKept, hlost, hvec, hint, hmasks⟩ := windowWrite_management (v := v) hfail
  obtain ⟨hkeys, hnonce, hdst, hdstHigh, hgo, hidle, hbootKept, hboot⟩ := windowWrite_attestation (v := v) hfail
  obtain ⟨hcap, htrip, htripKept, hreset, hdieCaps⟩ := windowWrite_power (v := v) hfail
  refine ⟨fun off => ⟨_, rfl⟩, fun j hj => windowWrite_ports hfail hj, hqos, hquotas, hrefusals, hvotes,
    fun k hk => windowWrite_slots hfail hk, fun q hq => ?_, hmgq, hmgqHigh, hlostKept, hlost, hvec, hint, hmasks, hkeys, hnonce, hdst,
    hdstHigh, hgo, hidle, hbootKept, hboot, hcap, htrip, htripKept, hreset, hdieCaps,
    fun off hoff => ⟨State.windowWrite_of_noRegister hoff, State.windowRead_of_noRegister hfail hoff⟩⟩
  obtain ⟨hheadKept, hhead, hstatus⟩ := windowWrite_queues (v := v) hfail hq
  obtain ⟨hstatusKept, hcleared⟩ := windowWrite_queueStatus (s := s) (v := v) hq
  exact ⟨hheadKept, hhead, hstatus, hstatusKept, hcleared, windowWrite_queueBase hfail hq, windowWrite_queueOn hq,
    windowWrite_queueTail hfail hq, windowWrite_queueOff hfail hq, windowWrite_queueEnable hq⟩

end Sys2Proof.Machine
end

section
/-!
SUPPORT. What the memory system leaves alone: whatever an access, a write-back or a release does in the caches, at the homes and on the
way there, the groups stay as they are, and of the context slots only the counts of records move on (R98, R443, R444).
-/

namespace Sys2Proof.Machine

open Sys2Proof.Claims

variable {α : Type} {s t u : State}

/-! ### States that differ in no context slot but for its count of records -/

/-- The context slots are the same but for the counts of their records (R98). -/
structure State.SlotsKept (s t : State) : Prop where
  ctx : ∀ k, ∃ n, t.ctx k = { s.ctx k with seq := n }

theorem State.SlotsKept.of_ctxs (h : t.ctxs = s.ctxs) : s.SlotsKept t :=
  ⟨fun k => ⟨(s.ctx k).seq, congrArg (mapGet · k Ctx.reset) h⟩⟩

theorem State.SlotsKept.refl (s : State) : s.SlotsKept s := .of_ctxs rfl

theorem State.SlotsKept.trans (h : s.SlotsKept t) (h' : t.SlotsKept u) : s.SlotsKept u := by
  refine ⟨fun k => ?_⟩
  obtain ⟨m, hm⟩ := h.ctx k
  obtain ⟨n, hn⟩ := h'.ctx k
  exact ⟨n, by rw [hn, hm]⟩

/-- Steps that keep the context slots keep them together. -/
theorem State.SlotsKept.foldl {f : State → α → State} (hf : ∀ (z : State) (x : α), z.SlotsKept (f z x)) (l : List α) :
    s.SlotsKept (l.foldl f s) :=
  List.foldlRecOn (motive := s.SlotsKept) l f (.refl s) fun z hz x _ => hz.trans (hf z x)

/-- The groups are the same, and the context slots but for the counts of their records. -/
structure State.Undisturbed (s t : State) : Prop where
  groups : t.groups = s.groups
  slots : s.SlotsKept t

theorem State.Undisturbed.of_eq (hg : t.groups = s.groups) (hc : t.ctxs = s.ctxs) : s.Undisturbed t := ⟨hg, .of_ctxs hc⟩

theorem State.Undisturbed.refl (s : State) : s.Undisturbed s := .of_eq rfl rfl

theorem State.Undisturbed.trans (h : s.Undisturbed t) (h' : t.Undisturbed u) : s.Undisturbed u :=
  ⟨h'.groups.trans h.groups, h.slots.trans h'.slots⟩

/-- What follows an undisturbed state in a field of neither kind is undisturbed. -/
theorem State.Undisturbed.then_eq (h : s.Undisturbed t) (hg : u.groups = t.groups) (hc : u.ctxs = t.ctxs) : s.Undisturbed u :=
  h.trans (.of_eq hg hc)

/-- What disturbs nothing after a change of a field of neither kind disturbs nothing. -/
theorem State.Undisturbed.after_eq (h : t.Undisturbed u) (hg : t.groups = s.groups) (hc : t.ctxs = s.ctxs) : s.Undisturbed u :=
  (State.Undisturbed.of_eq hg hc).trans h

/-- Steps that disturb nothing disturb nothing together. -/
theorem State.Undisturbed.foldl {f : State → α → State} (hf : ∀ (z : State) (x : α), z.Undisturbed (f z x)) (l : List α) :
    s.Undisturbed (l.foldl f s) :=
  List.foldlRecOn (motive := s.Undisturbed) l f (.refl s) fun z hz x _ => hz.trans (hf z x)

/-- A choice between two states that are undisturbed is undisturbed. -/
theorem State.Undisturbed.ite {c : Prop} [Decidable c] (ht : s.Undisturbed t) (hu : s.Undisturbed u) :
    s.Undisturbed (if c then t else u) := by
  split
  · exact ht
  · exact hu

/-! ### Records (R97, R98, R346) -/

/-- A context slot after a change of one. -/
theorem State.ctx_modCtx (k j : Nat) (f : Ctx → Ctx) : (s.modCtx k f).ctx j = if j = k then f (s.ctx k) else s.ctx j :=
  mapGet_mapSet ..

variable (s)

theorem State.undisturbed_stampRec (r : ErrRec) : s.Undisturbed (s.stampRec r).2 := by
  unfold State.stampRec
  dsimp only
  split
  next k _ =>
    refine ⟨rfl, ⟨fun j => ?_⟩⟩
    rw [State.ctx_modCtx]
    split
    case isTrue hj => exact ⟨_, by rw [hj]⟩
    case isFalse => exact ⟨_, rfl⟩
  next => exact .of_eq rfl rfl

theorem State.undisturbed_postRec (r : ErrRec) : s.Undisturbed (s.postRec r) := .ite (.of_eq rfl rfl) (.of_eq rfl rfl)

theorem State.undisturbed_record (r : ErrRec) : s.Undisturbed (s.record r) :=
  (s.undisturbed_stampRec r).trans (State.undisturbed_postRec ..)

/-! ### Homes and ports (R186, R187, R335, R374, R376) -/

theorem State.undisturbed_markWritten (pa : Nat) : s.Undisturbed (s.markWritten pa) := by
  unfold State.markWritten
  split
  · exact .refl s
  · exact .ite (.of_eq rfl rfl) (.of_eq rfl rfl)

theorem State.undisturbed_markPassed (pa : Nat) : s.Undisturbed (s.markPassed pa) := .ite (.refl s) (s.undisturbed_markWritten pa)

theorem State.undisturbed_homeWrite (pa : Nat) (v : Word) (counts passes : Bool) : s.Undisturbed (s.homeWrite pa v counts passes) := by
  have hmark (z : State) (h : s.Undisturbed z) : s.Undisturbed (if passes then z.markPassed pa else z.markWritten pa) :=
    h.trans (.ite (z.undisturbed_markPassed pa) (z.undisturbed_markWritten pa))
  unfold State.homeWrite
  dsimp only
  split
  · exact .ite (.ite (.of_eq rfl rfl) (.refl s)) (hmark _ (.of_eq rfl rfl))
  · exact .ite (.refl s) (hmark _ (.of_eq rfl rfl))
  · exact hmark _ (.of_eq rfl rfl)
  · exact .refl s

theorem State.undisturbed_forwardFar : s.Undisturbed s.forwardFar := .of_eq rfl rfl

theorem State.undisturbed_portWrite (pa : Nat) (v : Word) (counts : Bool) : s.Undisturbed (s.portWrite pa v counts) := by
  have hhome := s.undisturbed_homeWrite pa v counts true
  unfold State.portWrite
  dsimp only
  split
  · exact hhome.then_eq rfl rfl
  · exact hhome

theorem State.undisturbed_refuse (pa : Nat) (i : WMeta) : s.Undisturbed (s.refuse pa i) :=
  State.Undisturbed.after_eq (State.undisturbed_record ..) rfl rfl

theorem State.undisturbed_dropRefused (pa : Nat) (i : WMeta) : s.Undisturbed (s.dropRefused pa i) := .of_eq rfl rfl

/-- A refusal, which is shown or not, disturbs nothing. -/
theorem State.undisturbed_turnAway (pa : Nat) (i : WMeta) (counts : Bool) :
    s.Undisturbed ((if counts then s.refuse pa i else s).dropRefused pa i) :=
  (State.Undisturbed.ite (s.undisturbed_refuse pa i) (.refl s)).trans (State.undisturbed_dropRefused ..)

theorem State.undisturbed_performWrite (pa : Nat) (v : Word) (i : WMeta) (counts : Bool) :
    s.Undisturbed (s.performWrite pa v i counts) :=
  .ite (s.undisturbed_homeWrite ..) (s.undisturbed_turnAway pa i counts)

theorem State.undisturbed_performUncached (w : Write) : s.Undisturbed (s.performUncached w) := by
  have hdone : s.Undisturbed (if s.writeAllowed w.pa w.info then s.portWrite w.pa w.val w.counts
      else (if w.counts then s.refuse w.pa w.info else s).dropRefused w.pa w.info) :=
    .ite (s.undisturbed_portWrite ..) (s.undisturbed_turnAway ..)
  exact .ite (hdone.then_eq rfl rfl) hdone

theorem State.undisturbed_drain (p : Write → Bool) : s.Undisturbed (s.drain p) := by
  refine State.Undisturbed.then_eq (State.Undisturbed.foldl (fun z n => ?_) _) rfl rfl
  split
  · exact .ite (.refl z) (z.undisturbed_performUncached _)
  · exact .refl z

/-! ### The die's L2 and the cluster's buffer (R185, R187, R208, R235) -/

theorem State.undisturbed_l2Write (die pa : Nat) (v : Word) (i : WMeta) (counts : Bool) :
    s.Undisturbed (s.l2Write die pa v i counts) :=
  .ite (s.undisturbed_homeWrite ..) (.of_eq rfl rfl)

theorem State.undisturbed_cluFlush (cl : Nat) (p : Nat → Bool) : s.Undisturbed (s.cluFlush cl p) :=
  State.Undisturbed.after_eq (.foldl (fun z _ => z.undisturbed_l2Write ..) _) rfl rfl

theorem State.undisturbed_l2Flush (die : Nat) (p : Nat → Bool) : s.Undisturbed (s.l2Flush die p) :=
  State.Undisturbed.after_eq
    (.foldl (fun z _ => (z.undisturbed_drain _).trans (State.undisturbed_performWrite ..)) _) rfl rfl

theorem State.undisturbed_l2Drop (die : Nat) (p : Nat → Bool) : s.Undisturbed (s.l2Drop die p) :=
  (s.undisturbed_l2Flush die p).then_eq rfl rfl

theorem State.undisturbed_l2Room (die pa : Nat) : s.Undisturbed (s.l2Room die pa) := .ite (.refl s) (s.undisturbed_l2Drop ..)

theorem State.Undisturbed.setL2 {s : State} (h : s.Undisturbed t) (l2 : Map (Nat × Nat) L2Word) : s.Undisturbed { t with l2 := l2 } :=
  h.trans (.of_eq rfl rfl)

theorem State.undisturbed_l2Fill (core pa : Nat) : s.Undisturbed (s.l2Fill core pa) := by
  unfold State.l2Fill
  dsimp only
  exact (s.undisturbed_l2Room _ pa).trans
    (.foldl (fun z a => .ite (.refl z) ((z.undisturbed_drain _).setL2 _)) _)

theorem State.undisturbed_modWg (w : Nat) (f : Workgroup → Workgroup) : s.Undisturbed (s.modWg w f) := by
  unfold State.modWg
  split
  · exact .of_eq rfl rfl
  · exact .refl s

theorem State.undisturbed_dieTake (core pa : Nat) (v : Word) (i : WMeta) (counts : Bool) :
    s.Undisturbed (s.dieTake core pa v i counts) :=
  ((s.undisturbed_cluFlush ..).trans (.ite (.refl _) (State.undisturbed_l2Room ..))).trans (State.undisturbed_l2Write ..)

theorem State.undisturbed_performSent (x : Sent) : s.Undisturbed (s.performSent x) := by
  unfold State.performSent
  split
  · exact s.undisturbed_dieTake ..
  · exact s.undisturbed_modWg ..

theorem State.undisturbed_landSent (p : Sent → Bool) : s.Undisturbed (s.landSent p) :=
  State.Undisturbed.after_eq (.foldl (fun z x => z.undisturbed_performSent x) _) rfl rfl

theorem State.undisturbed_acknowledge (core : Nat) : s.Undisturbed (s.acknowledge core) :=
  (s.undisturbed_landSent _).trans (State.undisturbed_drain ..)

theorem State.undisturbed_dieRead (core pa : Nat) : s.Undisturbed (s.dieRead core pa).2.2 := by
  have hown : s.Undisturbed (s.landOwn core pa) := s.undisturbed_landSent _
  unfold State.dieRead
  dsimp only
  split
  · exact hown
  · split
    · exact hown.trans (State.undisturbed_drain ..)
    · split
      · exact hown
      · exact (hown.trans (State.undisturbed_drain ..)).trans (.ite (State.undisturbed_l2Fill ..) (.refl _))

theorem State.undisturbed_dieWrite (core pa : Nat) (v : Word) (i : WMeta) (counts : Bool) :
    s.Undisturbed (s.dieWrite core pa v i counts) :=
  ((s.undisturbed_landSent _).trans (State.undisturbed_drain ..)).trans (State.undisturbed_dieTake ..)

theorem State.undisturbed_towardHome (core pa : Nat) : s.Undisturbed (s.towardHome core pa) :=
  (((s.undisturbed_landSent _).trans (State.undisturbed_cluFlush ..)).trans (State.undisturbed_l2Flush ..)).trans
    (State.undisturbed_drain ..)

/-! ### The L1 (R183, R186, R187) -/

theorem State.undisturbed_l1Flush (core : Nat) (p : Nat → Bool) : s.Undisturbed (s.l1Flush core p) :=
  State.Undisturbed.after_eq (.foldl (fun z _ => z.undisturbed_dieWrite ..) _) rfl rfl

theorem State.undisturbed_l1Room (core pa : Nat) : s.Undisturbed (s.l1Room core pa) :=
  .ite (.refl s) ((s.undisturbed_l1Flush ..).then_eq rfl rfl)

theorem State.undisturbed_coreRead (core pa policy : Nat) : s.Undisturbed (s.coreRead core pa policy).2.2 := by
  have hdie := s.undisturbed_dieRead core pa
  have hhome : s.Undisturbed (s.homeRead core pa).2.2 := s.undisturbed_towardHome core pa
  unfold State.coreRead
  split
  · split
    · exact .refl s
    · split
      · exact hdie
      · exact hhome
  · split
    · exact hhome
    · dsimp only
      split
      · exact hdie
      · exact (hdie.trans (State.undisturbed_l1Room ..)).then_eq rfl rfl

/-! ### Release (R187) -/

theorem State.undisturbed_writeBack (core scope : Nat) : s.Undisturbed (s.writeBack core scope) := by
  have hsent : s.Undisturbed ((if scope < 3 then s else s.l1Flush core fun _ => true).acknowledge core) :=
    (State.Undisturbed.ite (.refl s) (s.undisturbed_l1Flush ..)).trans (State.undisturbed_acknowledge ..)
  unfold State.writeBack
  refine .ite hsent ?_
  have hclu := hsent.trans (State.undisturbed_cluFlush _ (clusterOf core) fun _ => true)
  refine .ite hclu ?_
  have hdie := hclu.trans (State.undisturbed_l2Flush _ (dieOfCore core) fun _ => true)
  exact .ite hdie (hdie.trans (State.undisturbed_forwardFar _))

theorem State.undisturbed_release (core scope : Nat) : s.Undisturbed (s.release core scope) :=
  .ite (s.undisturbed_writeBack core scope) ((s.undisturbed_writeBack core scope).then_eq rfl rfl)

end Sys2Proof.Machine
end

section
/-!
SUPPORT. The states of a context slot (R17, R390 to R392): what a reset, an end and a new context leave of the slot, and of the groups
that belonged to it.
-/

namespace Sys2Proof.Machine

open Sys2Proof.Claims

/-! ### Maps -/

/-- Setting a key twice is setting it to the second value. -/
theorem mapSet_mapSet {κ α : Type} [DecidableEq κ] (m : Map κ α) (k : κ) (v w : α) :
    mapSet (mapSet m k v) k w = mapSet m k w := by
  induction m with
  | nil => simp [mapSet]
  | cons x r ih =>
    obtain ⟨k', v'⟩ := x
    by_cases h : k' = k
    · simp [mapSet, h]
    · simp [mapSet, h, ih]

/-- What a map lists after a key has been set is the new pair, or was listed before. -/
theorem mem_of_mem_mapSet {κ α : Type} [DecidableEq κ] {m : Map κ α} {k : κ} {v : α} {x : κ × α} (h : x ∈ mapSet m k v) :
    x = (k, v) ∨ x ∈ m := by
  induction m with
  | nil => simpa [mapSet] using h
  | cons y r ih =>
    obtain ⟨k', v'⟩ := y
    by_cases hk : k' = k
    · simp only [mapSet, if_pos hk, List.mem_cons] at h ⊢
      exact h.imp_right .inr
    · simp only [mapSet, if_neg hk, List.mem_cons] at h ⊢
      exact h.elim (fun h => .inr (.inl h)) fun h => (ih h).imp_right .inr

/-- A value that is found is listed. -/
theorem mem_of_mapFind {κ α : Type} [DecidableEq κ] {m : Map κ α} {k : κ} {v : α} (h : mapFind m k = some v) : (k, v) ∈ m := by
  induction m with
  | nil => cases h
  | cons y r ih =>
    obtain ⟨k', v'⟩ := y
    by_cases hk : k' = k
    · rw [mapFind, if_pos hk, Option.some.injEq] at h
      exact List.mem_cons.2 (.inl (by rw [hk, h]))
    · rw [mapFind, if_neg hk] at h
      exact List.mem_cons_of_mem _ (ih h)

variable (s : State) {t : State}

/-! ### The loads that fill before a reset (R17, R33, R334) -/

theorem State.slotsKept_modGroup (gid : Nat) (f : Group → Group) : s.SlotsKept (s.modGroup gid f) := .of_ctxs (State.modGroup_ctxs ..)

theorem State.slotsKept_free : s.SlotsKept s.free.2 := .of_ctxs rfl

theorem State.slotsKept_saw (gid : Nat) (loc : Nat × Nat) (v : Word) : s.SlotsKept (s.saw gid loc v) := by
  unfold State.saw
  dsimp only
  split
  · exact .refl s
  · exact s.slotsKept_modGroup ..

theorem State.slotsKept_readNow (gid : Nat) (which : Producer → LateRead → Bool) : s.SlotsKept (s.readNow gid which) := by
  unfold State.readNow
  split
  · exact .refl s
  · refine .foldl (fun z x => ?_) _
    exact ((z.undisturbed_coreRead ..).slots.trans (State.slotsKept_saw ..)).trans (State.slotsKept_modGroup ..)

theorem State.slotsKept_freeRegs (gid : Nat) (rs : List Nat) (m : Mask) (fill : Bool) : s.SlotsKept (s.freeRegs gid rs m fill) :=
  .foldl (fun z _ => State.SlotsKept.trans (t := { z with freeCtr := z.freeCtr + 32 }) (.of_ctxs rfl) (State.slotsKept_modGroup ..)) _

theorem State.slotsKept_cancelIn (gid : Nat) (p : Producer) (m : Mask) : s.SlotsKept (s.cancelIn gid p m) := by
  have hregs (f : Group → Group) (rs : List Nat) (b : Bool) : s.SlotsKept ((s.modGroup gid f).freeRegs gid rs m b) :=
    (s.slotsKept_modGroup gid f).trans (State.slotsKept_freeRegs ..)
  unfold State.cancelIn
  dsimp only
  split
  · exact hregs ..
  · exact ((hregs ..).trans (State.slotsKept_free _)).trans (State.slotsKept_modGroup ..)

theorem State.slotsKept_cancel (gid : Nat) (pick : Producer → Mask) : s.SlotsKept (s.cancel gid pick) := by
  unfold State.cancel
  split
  · exact .refl s
  · refine .foldl (fun z p => ?_) _
    split
    · exact .refl z
    · exact z.slotsKept_cancelIn ..

theorem State.slotsKept_unwind (gid : Nat) (r : ErrRec) (dirtied : List Nat) (src : Nat) :
    s.SlotsKept (s.unwind gid r dirtied src) := by
  unfold State.unwind
  split
  · exact .refl s
  · split
    · exact .refl s
    · exact (((((s.undisturbed_stampRec _).slots.trans (State.slotsKept_cancel ..)).trans (State.slotsKept_freeRegs ..)).trans
        (State.slotsKept_modGroup ..))).trans (State.undisturbed_postRec ..).slots

theorem State.slotsKept_consumeAll (gid : Nat) (r : ErrRec) (cs : List Consume) (dirtied : List Nat) :
    s.SlotsKept (s.consumeAll gid r cs dirtied).1 := by
  unfold State.consumeAll
  split
  · dsimp only
    split
    · exact .foldl (fun z _ => (z.undisturbed_record _).slots) _
    · exact s.slotsKept_unwind ..
  · exact .refl s

theorem State.slotsKept_fill (gid id : Nat) : s.SlotsKept (s.fill gid id).1 := by
  have hread := s.slotsKept_readNow gid fun p _ => p.id == id
  unfold State.fill
  dsimp only
  split
  · exact hread
  · split
    · exact hread
    · split
      · exact hread.trans (State.slotsKept_consumeAll ..)
      · exact (hread.trans (State.slotsKept_consumeAll ..)).trans (State.slotsKept_modGroup ..)

theorem State.slotsKept_settle (gid : Nat) : s.SlotsKept (s.settle gid).1 := by
  unfold State.settle
  split
  · exact .refl s
  · refine List.foldlRecOn (motive := fun acc : State × Bool => s.SlotsKept acc.1) _ _ (.refl s) fun acc hacc p _ => ?_
    split
    · exact hacc
    · exact hacc.trans (State.slotsKept_fill ..)

theorem State.slotsKept_lostCommand (src : Nat) (pc : Option DWord) (loc : Word) (q : QueueRef) :
    s.SlotsKept (s.lostCommand src pc loc q) :=
  s.slotsKept_free.trans (State.undisturbed_record ..).slots

/-! ### A reset (R17, R392) -/

variable {s} {k : Nat}

/-- A context has been reset: its slot is resetting with the generation that it had, none of its groups is left, no workgroup of it is
saved, and its grids have ended (R392). -/
structure State.ResetLeaves (s t : State) (k : Nat) : Prop where
  st : (t.ctx k).st = .resetting
  gen : (t.ctx k).gen = (s.ctx k).gen
  groups : ∀ g, g ∈ t.groups → g.2.ctx ≠ k
  saved : ∀ x, x ∈ t.saved → x.2.wg.ctx ≠ k
  grids : ∀ d, d ∈ t.grids → d.2.ctx = k → d.2.st = .retired ∨ d.2.st = .dropped ∨ ∃ n, d.2.st = .rejected n

/-- A change of a group that leaves it in its context leaves a reset what it is. -/
theorem State.ResetLeaves.modGroup (h : s.ResetLeaves t k) (gid : Nat) {f : Group → Group} (hf : ∀ g, (f g).ctx = g.ctx) :
    s.ResetLeaves (t.modGroup gid f) k := by
  unfold State.modGroup
  split
  next g hg =>
    refine ⟨h.st, h.gen, fun x hx => ?_, h.saved, h.grids⟩
    rcases mem_of_mem_mapSet hx with rfl | hx
    · exact (hf g).trans_ne (h.groups _ (mem_of_mapFind hg))
    · exact h.groups x hx
  next => exact h

/-- A routine that enters belongs to the context of a group that is there. -/
theorem State.ResetLeaves.enterTrap (h : s.ResetLeaves t k) (gid sid : Nat) (cause : TrapCause) :
    s.ResetLeaves (t.enterTrap gid sid cause) k := by
  unfold State.enterTrap
  split
  next => exact h
  next g hg =>
    have hctx : g.ctx ≠ k := h.groups _ (mem_of_mapFind hg)
    dsimp only
    split
    next => exact h.modGroup gid fun _ => rfl
    next =>
      have hput : s.ResetLeaves { t.uid.2 with groups := mapSet t.groups t.nextUid (trapGroup (t.ctx g.ctx) gid sid g cause) } k := by
        refine ⟨h.st, h.gen, fun x hx => ?_, h.saved, h.grids⟩
        rcases mem_of_mem_mapSet hx with rfl | hx
        · exact hctx
        · exact h.groups x hx
      obtain ⟨hst, hgen, hgroups, hsaved, hgrids⟩ :=
        hput.modGroup gid (f := fun g => { g with stop := .inTrap t.nextUid }) fun _ => rfl
      exact ⟨hst, hgen, hgroups, hsaved, hgrids⟩

/-- The trap slot of a lane frees for a group that is there. -/
theorem State.ResetLeaves.freeTrapSlot (h : s.ResetLeaves t k) (lane : Nat) : s.ResetLeaves (t.freeTrapSlot lane) k := by
  have hfree : s.ResetLeaves (t.modLane lane fun l => { l with trap := none }) k := ⟨h.st, h.gen, h.groups, h.saved, h.grids⟩
  unfold State.freeTrapSlot
  dsimp only
  split
  · exact hfree.enterTrap ..
  · exact hfree

/-- A context that is live or held is reset. -/
theorem State.resetLeaves_resetContext (hst : (s.ctx k).st = .live ∨ (s.ctx k).st = .held) : s.ResetLeaves (s.resetContext k) k := by
  have hgo : ¬((s.ctx k).st ≠ .live ∧ (s.ctx k).st ≠ .held) := by rintro ⟨hlive, hheld⟩; exact hst.elim hlive hheld
  unfold State.resetContext
  rw [if_neg hgo]
  extract_lets mine lanes filled copied worked moved cut resetting
  have hfilled : s.SlotsKept filled := .foldl (fun z (x : Nat × Group) => z.slotsKept_settle x.1) _
  have hcopied : s.SlotsKept copied := hfilled.trans (.foldl (fun z _ => z.slotsKept_lostCommand ..) _)
  have hworked : s.SlotsKept worked := hcopied.trans (.foldl (fun z _ => z.slotsKept_lostCommand ..) _)
  have hmoved : s.SlotsKept moved := hworked.trans (.foldl (fun z _ => z.slotsKept_lostCommand ..) _)
  have hcut : s.SlotsKept cut := hmoved.trans (.of_ctxs rfl)
  have hctx : resetting.ctx k = { cut.ctx k with st := .resetting, requests := [], pre := false } := State.ctx_modCtx_self ..
  have hleft : s.ResetLeaves resetting k := by
    obtain ⟨n, hn⟩ := hcut.ctx k
    refine ⟨by rw [hctx], by rw [hctx, hn], fun g hg => ?_, fun x hx => ?_, fun d hd hdk => ?_⟩
    · simpa [mine] using (List.mem_filter.1 hg).2
    · simpa using (List.mem_filter.1 hx).2
    · obtain ⟨x, -, rfl⟩ := List.mem_map.1 hd
      revert hdk
      dsimp only
      split
      case h_1 hretired => exact fun _ => .inl hretired
      case h_2 n hrejected => exact fun _ => .inr (.inr ⟨n, hrejected⟩)
      case h_3 =>
        split
        case isTrue => exact fun _ => .inr (.inl rfl)
        case isFalse hother => exact fun hdk => absurd (beq_iff_eq.2 hdk) hother
  exact List.foldlRecOn (motive := (s.ResetLeaves · k)) _ _ hleft fun z hz lane _ => hz.freeTrapSlot lane

/-! ### The end of a context (R28, R315, R392) -/

variable (s) in
theorem State.undisturbed_dropHopeless (k : Nat) : s.Undisturbed (s.dropHopeless k) := .of_eq rfl rfl

variable (s) in
theorem State.undisturbed_freeWg (w : Nat) (x : Workgroup) : s.Undisturbed (s.freeWg w x) := by
  unfold State.freeWg State.dropImage
  exact .ite (.of_eq rfl rfl) (.of_eq rfl rfl)

variable (s) in
theorem State.undisturbed_clearSluice (c : Nat) : s.Undisturbed (s.clearSluice c) := .of_eq rfl rfl

variable (s) in
theorem State.undisturbed_freeCtx (k : Nat) : s.Undisturbed (s.freeCtx k) := by
  have hlinks (z : State) : z.Undisturbed (z.freeLinks k) := .foldl (fun z c => z.undisturbed_clearSluice c) _
  exact State.Undisturbed.trans (.foldl (fun z _ => (z.undisturbed_release ..).trans (State.undisturbed_freeWg ..)) _) (hlinks _)

/-- What stays of a context slot that has moved on in its count of records alone. -/
theorem State.SlotsKept.fields (h : s.SlotsKept t) (k : Nat) : (t.ctx k).st = (s.ctx k).st ∧ (t.ctx k).gen = (s.ctx k).gen ∧
    (t.ctx k).err = (s.ctx k).err ∧ (t.ctx k).destroy = (s.ctx k).destroy := by
  obtain ⟨n, hn⟩ := h.ctx k
  rw [hn]
  exact ⟨rfl, rfl, rfl, rfl⟩

/-- A slot that has become free has a new generation. -/
theorem State.ctx_freeSlotOf : (s.freeSlotOf k).ctx k =
    { s.ctx k with st := .free, gen := (s.ctx k).gen + 1, destroy := false, requests := [] } := State.ctx_modCtx_self ..

/-! ### Commands (R391) -/

/-- Two changes of a context slot are one. -/
theorem State.modCtx_modCtx (f g : Ctx → Ctx) : (s.modCtx k f).modCtx k g = s.modCtx k fun c => g (f c) := by
  have hctxs : mapSet (mapSet s.ctxs k (f (s.ctx k))) k (g ((s.modCtx k f).ctx k)) = mapSet s.ctxs k (g (f (s.ctx k))) := by
    rw [mapSet_mapSet, State.ctx_modCtx_self]
  exact congrArg (fun m => { s with ctxs := m }) hctxs

/-- The words of memory are no matter of the context slots. -/
theorem State.physWords_modCtx (f : Ctx → Ctx) (pa n : Nat) : (s.modCtx k f).physWords pa n = s.physWords pa n := by
  unfold State.physWords
  refine ite_congr rfl (fun hall => congrArg some (List.map_congr_left fun a ha => ?_)) fun _ => rfl
  have hmem : ¬inWindow a = true := by
    have := List.all_eq_true.1 hall a ha
    simp only [Bool.and_eq_true, Bool.not_eq_true'] at this
    simp [this.1.2]
  simp only [State.homeWord, if_neg hmem]
  rfl

/-- A context slot as the command processor takes up a command of a host: its register holds the command (R391). -/
def State.withCmd (s : State) (k n : Nat) : State := s.modCtx k fun c => { c with cmd := n }

theorem State.ctx_withCmd (n : Nat) : (s.withCmd k n).ctx k = { s.ctx k with cmd := n } := State.ctx_modCtx_self ..

/-- A command that has been taken with an error leaves the command and the error. -/
theorem State.ctxDone_withCmd (n err : Nat) :
    (s.withCmd k n).ctxDone k err = s.modCtx k fun c => { c with cmd := n, err := err } := State.modCtx_modCtx ..

section Commands

variable (hk : k < 1024) (hruns : s.cpRuns = true)
include hk hruns

theorem exec_contextCreate : exec (.contextCreate k) s = .next ((s.withCmd k 1).createCtx k) :=
  congrArg Host.Outcome.next ((if_neg (by omega)).trans (by simp [State.ctxCommand, State.withCmd, hruns]))

theorem exec_contextDestroy : exec (.contextDestroy k) s = .next ((s.withCmd k 2).destroyCtx k) :=
  congrArg Host.Outcome.next ((if_neg (by omega)).trans (by simp [State.ctxCommand, State.withCmd, hruns]))

theorem exec_contextResume : exec (.contextResume k) s = .next ((s.withCmd k 3).resumeCtx k) :=
  congrArg Host.Outcome.next ((if_neg (by omega)).trans (by simp [State.ctxCommand, State.withCmd, hruns]))

theorem exec_contextReset : exec (.contextReset k) s = .next ((s.withCmd k 4).hostReset k) :=
  congrArg Host.Outcome.next ((if_neg (by omega)).trans (by simp [State.ctxCommand, State.withCmd, hruns]))

end Commands

/-! ### Create (R390) -/

/-- A descriptor that cannot be read leaves error 1. -/
theorem State.createCtx_of_unreadable (hfree : (s.ctx k).st = .free)
    (h : (s.ctx k).desc.toNat % 64 ≠ 0 ∨ s.physWords (s.ctx k).desc.toNat 16 = none) : s.createCtx k = s.ctxDone k 1 := by
  unfold State.createCtx
  dsimp only
  rw [if_neg (not_not_intro hfree)]
  by_cases h64 : (s.ctx k).desc.toNat % 64 = 0
  · rw [if_neg (not_not_intro h64), h.resolve_left (not_not_intro h64)]
  · rw [if_pos h64]

/-- A descriptor that has been read is taken up where its reserved bits are 0 and its table can be walked. -/
theorem State.createCtx_of_words {ws : List Word} (hfree : (s.ctx k).st = .free) (h64 : (s.ctx k).desc.toNat % 64 = 0)
    (hws : s.physWords (s.ctx k).desc.toNat 16 = some ws) : s.createCtx k =
      if descReserved (dwords ws) then s.ctxDone k 2
      else if field (dwords ws) 0 63 0 % 65536 ≠ 0 ∨ !backed (field (dwords ws) 0 63 0) then s.ctxDone k 3
      else (s.tlbDrop fun e => e.ctx == some k).modCtx k fun c => c.created (dwords ws) := by
  unfold State.createCtx
  dsimp only
  rw [if_neg (not_not_intro hfree), if_neg (not_not_intro h64), hws]

/-- Dropping TLB entries drops just those, whatever waits for their pages. -/
theorem State.tlbDrop_frame (p : Tlb → Bool) :
    (s.tlbDrop p).ctxs = s.ctxs ∧ (s.tlbDrop p).mem = s.mem ∧ (s.tlbDrop p).tlbs = s.tlbs.filter fun e => !p e := by
  unfold State.tlbDrop State.wakeDropped
  split <;> exact ⟨rfl, rfl, rfl⟩

/-- The reserved bits of a descriptor that are checked. -/
theorem descReserved_eq_false (r : List DWord) :
    descReserved r = false ↔ field r 1 31 3 = 0 ∧ field r 6 63 16 = 0 ∧ field r 7 63 0 = 0 := by
  simp [descReserved, and_assoc]

/-! ### Resume (R392, R406) -/

/-- A list of groups after the groups of a context have had their waits set back. -/
def resumed (k : Nat) (l : List (Nat × Group)) : List (Nat × Group) := l.map fun x =>
  if x.2.ctx == k then (x.1, { x.2 with splits := x.2.splits.map fun (p : Split) => { p with waited := 0 } }) else x

theorem waited_of_mem_resumed {l : List (Nat × Group)} {g : Nat × Group} (hg : g ∈ resumed k l) (hk : g.2.ctx = k) :
    ∀ p, p ∈ g.2.splits → p.waited = 0 := by
  obtain ⟨x, -, rfl⟩ := List.mem_map.1 hg
  revert hk
  split
  case isTrue =>
    intro _ p hp
    obtain ⟨q, -, rfl⟩ := List.mem_map.1 hp
    rfl
  case isFalse hother => exact fun hk => absurd (beq_iff_eq.2 hk) hother

/-- A held context goes on. -/
theorem State.resumeCtx_of_held (hheld : (s.ctx k).st = .held) : s.resumeCtx k =
    { s with
      groups := resumed k s.groups
      saved := s.saved.map fun (x : Nat × Saved) => (x.1, { x.2 with groups := resumed k x.2.groups }) }.modCtx k
      fun c => { c with st := .live, waited := 0, passedBound := none, err := 0 } :=
  if_neg (not_not_intro hheld)

/-! ### Reset, destroy and the end (R392) -/

/-- A host's reset of a live or held context leaves it reset, with no error. -/
theorem State.resetLeaves_hostReset (hst : (s.ctx k).st = .live ∨ (s.ctx k).st = .held) :
    s.ResetLeaves (s.hostReset k) k ∧ ((s.hostReset k).ctx k).err = 0 := by
  have hreset : s.hostReset k = (s.resetContext k).modCtx k fun c => { c with err := 0 } := if_pos hst
  obtain ⟨hst', hgen, hgroups, hsaved, hgrids⟩ := State.resetLeaves_resetContext hst
  have hctx : (s.hostReset k).ctx k = { (s.resetContext k).ctx k with err := 0 } := by rw [hreset, State.ctx_modCtx_self]
  refine ⟨⟨?_, ?_, ?_, ?_, ?_⟩, ?_⟩
  · rw [hctx]; exact hst'
  · rw [hctx]; exact hgen
  · rw [hreset]; exact hgroups
  · rw [hreset]; exact hsaved
  · rw [hreset]; exact hgrids
  · rw [hctx]

/-- A context as a command to destroy it leaves it before its slot may be free: it is resetting or has ended, and one that was live or
held has no group left. -/
theorem State.resetContext_of_taken (hst : (s.ctx k).st ≠ .free) :
    (((s.resetContext k).ctx k).st = .resetting ∨ ((s.resetContext k).ctx k).st = .ended) ∧
    ((s.resetContext k).ctx k).gen = (s.ctx k).gen ∧
    ((s.ctx k).st = .live ∨ (s.ctx k).st = .held → ∀ g, g ∈ (s.resetContext k).groups → g.2.ctx ≠ k) := by
  by_cases hlive : (s.ctx k).st = .live ∨ (s.ctx k).st = .held
  · have h := State.resetLeaves_resetContext hlive
    exact ⟨.inl h.st, h.gen, fun _ => h.groups⟩
  · have hstays : s.resetContext k = s := if_pos (not_or.1 hlive)
    rw [hstays]
    refine ⟨?_, rfl, fun h => absurd h hlive⟩
    revert hst hlive
    cases (s.ctx k).st <;> simp

/-- A command to destroy a context leaves no error, no group of one that was live or held, and a slot that is free with a new
generation, or that is to become free when the commands of its groups are over. -/
theorem State.destroyCtx_of_taken (hst : (s.ctx k).st ≠ .free) :
    ((s.destroyCtx k).ctx k).err = 0 ∧
    (∀ g, g ∈ (s.destroyCtx k).groups → ((s.ctx k).st = .live ∨ (s.ctx k).st = .held) → g.2.ctx ≠ k) ∧
    ((((s.destroyCtx k).ctx k).st = .free ∧ ((s.destroyCtx k).ctx k).gen = (s.ctx k).gen + 1) ∨
      ((((s.destroyCtx k).ctx k).st = .resetting ∨ ((s.destroyCtx k).ctx k).st = .ended) ∧
        ((s.destroyCtx k).ctx k).destroy = true ∧ ((s.destroyCtx k).ctx k).gen = (s.ctx k).gen)) := by
  obtain ⟨hover, hgen, hgroups⟩ := State.resetContext_of_taken hst
  -- the slot when the command has been taken, before it is looked at whether anything is still under way
  obtain ⟨z, hz⟩ : ∃ z, z = ((s.resetContext k).dropHopeless k).ctxDone k 0 := ⟨_, rfl⟩
  have hzctx : z.ctx k = { (s.resetContext k).ctx k with err := 0 } := by rw [hz, State.ctxDone, State.ctx_modCtx_self]; rfl
  have hzgroups : z.groups = (s.resetContext k).groups := by rw [hz]; rfl
  have hdestroy : s.destroyCtx k =
      if z.ctxQuiet k then (z.freeCtx k).freeSlotOf k else z.modCtx k fun c => { c with destroy := true } := by
    rw [hz]; exact if_neg hst
  by_cases hquiet : z.ctxQuiet k = true
  · obtain ⟨-, hgen', herr', -⟩ := (z.undisturbed_freeCtx k).slots.fields k
    have hctx := (congrArg (State.ctx · k) (hdestroy.trans (if_pos hquiet))).trans State.ctx_freeSlotOf
    have hleft : (s.destroyCtx k).groups = (s.resetContext k).groups := by
      rw [hdestroy, if_pos hquiet]
      exact (z.undisturbed_freeCtx k).groups.trans hzgroups
    dsimp only at hctx
    refine ⟨?_, fun g hg hlive => hgroups hlive g (hleft ▸ hg), .inl ⟨?_, ?_⟩⟩
    · rw [hctx]; exact herr'.trans (by rw [hzctx])
    · rw [hctx]
    · rw [hctx]; exact congrArg (· + 1) (hgen'.trans (by rw [hzctx]; exact hgen))
  · have hctx : (s.destroyCtx k).ctx k = { z.ctx k with destroy := true } := by
      rw [hdestroy, if_neg hquiet, State.ctx_modCtx_self]
    have hleft : (s.destroyCtx k).groups = (s.resetContext k).groups := by rw [hdestroy, if_neg hquiet]; exact hzgroups
    rw [hctx, hzctx]
    exact ⟨rfl, fun g hg hlive => hgroups hlive g (hleft ▸ hg), .inr ⟨hover, rfl, hgen⟩⟩

/-- A resetting slot of which nothing is under way has ended, or is free with a new generation where it is being destroyed. -/
theorem execContextEnd_of_quiet (hruns : s.cpRuns = true) (hst : (s.ctx k).st = .resetting)
    (hquiet : (s.dropHopeless k).ctxQuiet k = true) : ∃ t, exec (.contextEnd k) s = .next t ∧
      if (s.ctx k).destroy then (t.ctx k).st = .free ∧ (t.ctx k).gen = (s.ctx k).gen + 1
      else (t.ctx k).st = .ended ∧ (t.ctx k).gen = (s.ctx k).gen := by
  obtain ⟨-, hgen, -, hdestroy⟩ := ((s.undisturbed_dropHopeless k).trans (State.undisturbed_freeCtx _ k)).slots.fields k
  have hexec : exec (.contextEnd k) s = .next (if (((s.dropHopeless k).freeCtx k).ctx k).destroy
      then ((s.dropHopeless k).freeCtx k).freeSlotOf k
      else ((s.dropHopeless k).freeCtx k).modCtx k fun c => { c with st := .ended }) :=
    congrArg Host.Outcome.next ((if_neg (by simp [hruns, hst])).trans (if_neg (by simp [hquiet])))
  refine ⟨_, hexec, ?_⟩
  rw [hdestroy]
  by_cases hgoes : (s.ctx k).destroy = true
  · rw [if_pos hgoes, if_pos hgoes, State.ctx_freeSlotOf]
    exact ⟨rfl, congrArg (· + 1) hgen⟩
  · rw [if_neg hgoes, if_neg hgoes, State.ctx_modCtx_self]
    exact ⟨rfl, hgen⟩

/-! ### The table (R390 to R392) -/

/-- What a context is that has just been created from a descriptor, and what its creation leaves as it was. -/
theorem createCtx_takes_descriptor {ws : List Word} (hfree : (s.ctx k).st = .free) (h64 : (s.ctx k).desc.toNat % 64 = 0)
    (hws : s.physWords (s.ctx k).desc.toNat 16 = some ws)
    (hzeros : field (dwords ws) 1 31 3 = 0 ∧ field (dwords ws) 6 63 16 = 0 ∧ field (dwords ws) 7 63 0 = 0)
    (hrooted : field (dwords ws) 0 63 0 % 65536 = 0 ∧ backed (field (dwords ws) 0 63 0) = true) :
    (s.createCtx k).ctx k = (s.ctx k).created (dwords ws) ∧
    (∀ e, e ∈ (s.createCtx k).tlbs ↔ e ∈ s.tlbs ∧ e.ctx ≠ some k) ∧ (s.createCtx k).mem = s.mem ∧
    ∀ j, j ≠ k → (s.createCtx k).ctx j = s.ctx j := by
  have hcreate : s.createCtx k = (s.tlbDrop fun e => e.ctx == some k).modCtx k fun c => c.created (dwords ws) := by
    rw [State.createCtx_of_words hfree h64 hws, if_neg (ne_true_of_eq_false ((descReserved_eq_false _).2 hzeros)),
      if_neg (by simp [hrooted])]
  obtain ⟨hctxs, hmem, htlbs⟩ := State.tlbDrop_frame (s := s) fun e => e.ctx == some k
  have hctx (j : Nat) : (s.tlbDrop fun e => e.ctx == some k).ctx j = s.ctx j := congrArg (mapGet · j Ctx.reset) hctxs
  rw [hcreate]
  refine ⟨by rw [State.ctx_modCtx_self, hctx], fun e => ?_, hmem, fun j hj => by rw [State.ctx_modCtx, if_neg hj, hctx]⟩
  show e ∈ (s.tlbDrop fun e => e.ctx == some k).tlbs ↔ _
  rw [htlbs, List.mem_filter]
  simp

/-- Settles O58: each command goes on from the slot with its register written, where the slot's state gives it a row of the table, and
else leaves its error there. -/
theorem contextSlots : Obligations.ContextSlots := by
  unfold Obligations.ContextSlots
  intro s k hk hruns
  have hstate (n : Nat) : ((s.withCmd k n).ctx k).st = (s.ctx k).st := by rw [State.ctx_withCmd]
  have hgen (n : Nat) : ((s.withCmd k n).ctx k).gen = (s.ctx k).gen := by rw [State.ctx_withCmd]
  have hdesc (n : Nat) : ((s.withCmd k n).ctx k).desc = (s.ctx k).desc := by rw [State.ctx_withCmd]
  have hother (n j : Nat) (hj : j ≠ k) : (s.withCmd k n).ctx j = s.ctx j := by rw [State.withCmd, State.ctx_modCtx, if_neg hj]
  have hphys : (s.withCmd k 1).physWords ((s.withCmd k 1).ctx k).desc.toNat 16 = s.physWords (s.ctx k).desc.toNat 16 := by
    rw [hdesc]; exact State.physWords_modCtx ..
  simp only [exec_contextCreate hk hruns, exec_contextDestroy hk hruns, exec_contextResume hk hruns, exec_contextReset hk hruns,
    Host.Outcome.next.injEq, ← State.ctxDone_withCmd]
  refine ⟨fun hst => if_pos ((hstate 1).trans_ne hst), fun hst hbad => ?unreadable, fun hst h64 ws hws => ?create,
    fun hst => if_pos ((hstate 3).trans_ne hst), fun hst => ?resume,
    fun hlive hheld => if_neg (not_or.2 ⟨(hstate 4).trans_ne hlive, (hstate 4).trans_ne hheld⟩), fun hst => ?reset,
    fun hst => if_pos ((hstate 2).trans hst), fun hst => ?destroy, fun hst => ?resting, fun hst hquiet => ?ending⟩
  case unreadable => exact State.createCtx_of_unreadable ((hstate 1).trans hst) (by rwa [hphys, hdesc])
  case create =>
    have hfree := (hstate 1).trans hst
    have h64' : ((s.withCmd k 1).ctx k).desc.toNat % 64 = 0 := by rwa [hdesc]
    have hwords := State.createCtx_of_words hfree h64' (hphys.trans hws)
    refine ⟨fun hzeros => ?_, fun hzeros hroot => ?_, fun hzeros hroot => ?_⟩
    · rw [hwords, if_pos (Bool.of_not_eq_false (mt (descReserved_eq_false _).1 hzeros))]
    · rw [hwords, if_neg (ne_true_of_eq_false ((descReserved_eq_false _).2 hzeros)),
        if_pos (by simpa [not_and_or, -not_and] using hroot)]
    · obtain ⟨hctx, htlbs, hmem, hothers⟩ := createCtx_takes_descriptor hfree h64' (hphys.trans hws) hzeros hroot
      rw [hctx]
      exact ⟨rfl, rfl, hgen 1, hdesc 1, rfl, rfl, rfl, rfl, rfl, rfl, rfl, rfl, rfl, rfl, rfl, rfl, rfl, rfl, rfl, rfl, rfl, rfl,
        htlbs, hmem, fun j hj => (hothers j hj).trans (hother 1 j hj)⟩
  case resume =>
    rw [State.resumeCtx_of_held ((hstate 3).trans hst), State.ctx_modCtx_self]
    refine ⟨rfl, rfl, rfl, rfl, fun j hj => ?_, fun g hg => waited_of_mem_resumed hg, fun x hx g hg => ?_⟩
    · rw [State.ctx_modCtx, if_neg hj]
      exact hother 3 j hj
    · obtain ⟨y, -, rfl⟩ := List.mem_map.1 hx
      exact waited_of_mem_resumed hg
  case reset =>
    obtain ⟨hleft, herr⟩ := State.resetLeaves_hostReset (s := s.withCmd k 4) (by rwa [hstate])
    exact ⟨hleft.st, herr, hleft.gen.trans (hgen 4), hleft.groups, hleft.saved, hleft.grids⟩
  case destroy =>
    have h := State.destroyCtx_of_taken ((hstate 2).trans_ne hst)
    rwa [hstate, hgen] at h
  case resting => exact congrArg Host.Outcome.next (if_pos (by simp [hst]))
  case ending =>
    obtain ⟨t, hexec, ht⟩ := execContextEnd_of_quiet hruns hst hquiet
    rw [hexec]
    exact ht

end Sys2Proof.Machine
end
